-- ==== Sys2Proof/Word.lean ====
section
/-!
DEFINITION. The word types of the device and their plainest arithmetic.
-/

namespace Sys2Proof

/-- A 32-bit register word (R14). -/
abbrev Word := BitVec 32

/-- A 64-bit value: a register pair (R16), a clause word (R20, R25). -/
abbrev Wide := BitVec 64

/-- A byte of memory. -/
abbrev Byte := BitVec 8

/-- The bytes of a value, lowest address first (R4). -/
def toBytes {w : Nat} (x : BitVec w) : Nat → List Byte
  | 0 => []
  | n + 1 => x.extractLsb' 0 8 :: toBytes (x >>> 8) n

/-- The value of bytes, lowest address first (R4). -/
def ofBytes : List Byte → Nat
  | [] => 0
  | b :: bs => b.toNat + 256 * ofBytes bs

end Sys2Proof
end

