-- ==== Sys2Proof/Config.lean ====
section
/-!
DEFINITION. What an implementation of the device fixes, and the free values: constants without a body, of
which nothing in Lean can prove or evaluate a value.
-/

namespace Sys2Proof.Config

/-- The byte that byte `addr` of the device's storage holds from reset number `epoch` until its first write
(R364: "an initial value that is not specified", the same for every read before the first write). Log 1. -/
opaque initByte (epoch addr : Nat) : BitVec 8

/-- The byte that byte `offset` of the scratchpad given to the group numbered `serial` holds until its first
write (R215, R364). Log 2. -/
opaque padByte (serial offset : Nat) : BitVec 8

/-- The byte that byte `off` of a ring slot or overflow place holds until its producer has written it, for the giving
number `n` of such a place to a tile (R364). Log 2. -/
opaque slotByte (n off : Nat) : BitVec 8

/-- The free value number `n`, for a value a rule leaves open where the machine goes on (R131, R163, R314,
R118). Log 2. -/
opaque freeValue (n : Nat) : BitVec 64

/-- The candidate result of an approximating instruction (R93): opcode, FL format, source bits (of the reduced source
for `fsin` and `fcos`).  The machine uses it only when it lies within the bound of R93, or where R93 states no
result. Log 6. -/
opaque approx (opcode fmt src : Nat) : BitVec 32

/-- Word `n` of a field instruction's result where R174 and R177 state none, for its opcode and the words it reads.
Log 2. -/
opaque fieldOpen (opcode : Nat) (operands : List (BitVec 32)) (n : Nat) : BitVec 32

/-- Hashes of outside standards that R358 and R361 name, over a list of bytes. Log 7. -/
opaque shake256 (outBytes : Nat) (data : List (BitVec 8)) : BitVec 384
opaque sha384 (data : List (BitVec 8)) : BitVec 384

/-- Signature checks and signatures of outside standards (R358, R361). Log 7. -/
opaque rsaVerify (modulus message signature : List (BitVec 8)) : Bool
opaque slhVerify (key message signature : List (BitVec 8)) : Bool
opaque identityRsaSign (message : List (BitVec 8)) : List (BitVec 8)
opaque identitySlhSign (message : List (BitVec 8)) : List (BitVec 8)

/-- Weathal's shipping value of a key slot, held in ROM (R358, R359). -/
opaque shippingValue : BitVec 384

/-- Whether the firmware image, by its code, sends MISALIGNED to the vector instead of the supervisor (R333). -/
opaque misalignedToVector (code : List (BitVec 8)) : Bool

/-- The number of entries of queue 0, whose ring address alone the boot configuration gives (R353, R358). Log 15. -/
opaque queue0Entries : Nat

/-- The places of the fields of an attestation report, and of a notice entry of each code, which R361 and R357 leave
open. Logs 7 and 9. -/
opaque reportPlace (field : Nat) : Nat
opaque noticePlace (code field : Nat) : Nat

/-- Operand `field` of a command entry whose operand bytes R355 does not place, by its `op` and the bytes of the entry. Log 9. -/
opaque operandOf (op field : Nat) (entry : List (BitVec 8)) : Nat

/-- The bytes of a boot configuration (R358). Log 7. -/
opaque bootBytes (cacheSteps : List Nat) (deep base count : Nat) (ring : BitVec 64) : List (BitVec 8)

/-- The hash that chooses the vault of a stack-cache line among a die's four, by the line's number (R219). Log 38. -/
opaque stackHash (line : Nat) : Nat

/-- Whether the atomic contention predictor places operation number `n` in L1 (R122); counted by events 14
and 15 of R363, and nothing else depends on it. -/
opaque atomicInL1 (n : Nat) : Bool

end Sys2Proof.Config
end

