-- ==== Sys2Proof/Syntax.lean ====
section
/-!
DEFINITION. The abstract syntax of the Zarrov instruction set and of the device's other steps.

`Instr` has one constructor for each row of spec/opcode_table.json, and names nothing else.
The 156 rows that are instruction words carry the fields of R25 in the shape their layout gives them
(R29, R30, R55, R106, R145, R154, R159).  Fields that the machine itself must judge under R58 (a reserved
modifier bit, an operand code outside R31) are kept, because such a word is still issued and takes the
fault the rule names.  The other rows are steps of an agent of the device or commands of the host; their
operands say which agent, or what the command's entry holds (R355).
-/

namespace Sys2Proof

/-! ## Operand codes (R31) -/

/-- What a 10-bit operand code names (R31).  The map between codes and operands is one to one:
every reserved code is kept as itself, since a word that holds one is issued and takes ILLEGAL_OPERAND. -/
inductive Operand where
  | v (i : Fin 768)
  /-- A distance ^(i+1) (R37). -/
  | dist (i : Fin 8)
  | s (i : Fin 64)
  | p (i : Fin 8)
  | k (i : Fin 8)
  /-- An integer constant 0-63 (R33). -/
  | int (n : Fin 64)
  /-- Float constant number i of the table of R33. -/
  | flt (i : Fin 16)
  /-- Special number i of the table of R34. -/
  | special (i : Fin 15)
  /-- Code 0x3BF: the literal word (R36). -/
  | literal
  /-- Codes 0x308-0x30F. -/
  | reservedLow (i : Fin 8)
  /-- Codes 0x3C0-0x3FF. -/
  | reservedHigh (i : Fin 64)
  deriving DecidableEq, Repr

/-- The operand a code names (R31). -/
def Operand.ofCode (c : BitVec 10) : Operand :=
  let n := c.toNat
  if h : n < 0x300 then .v ⟨n, h⟩
  else if h : n - 0x300 < 8 then .dist ⟨n - 0x300, h⟩
  else if h : n - 0x308 < 8 then .reservedLow ⟨n - 0x308, h⟩
  else if h : n - 0x310 < 64 then .s ⟨n - 0x310, h⟩
  else if h : n - 0x350 < 8 then .p ⟨n - 0x350, h⟩
  else if h : n - 0x358 < 8 then .k ⟨n - 0x358, h⟩
  else if h : n - 0x360 < 64 then .int ⟨n - 0x360, h⟩
  else if h : n - 0x3A0 < 16 then .flt ⟨n - 0x3A0, h⟩
  else if h : n - 0x3B0 < 15 then .special ⟨n - 0x3B0, h⟩
  else if h : n - 0x3C0 < 64 then
    if n = 0x3BF then .literal else .reservedHigh ⟨n - 0x3C0, h⟩
  else .literal

/-- The code of an operand (R31). -/
def Operand.code : Operand → BitVec 10
  | .v i => BitVec.ofNat 10 i.val
  | .dist i => BitVec.ofNat 10 (0x300 + i.val)
  | .reservedLow i => BitVec.ofNat 10 (0x308 + i.val)
  | .s i => BitVec.ofNat 10 (0x310 + i.val)
  | .p i => BitVec.ofNat 10 (0x350 + i.val)
  | .k i => BitVec.ofNat 10 (0x358 + i.val)
  | .int n => BitVec.ofNat 10 (0x360 + n.val)
  | .flt i => BitVec.ofNat 10 (0x3A0 + i.val)
  | .special i => BitVec.ofNat 10 (0x3B0 + i.val)
  | .literal => 0x3BF
  | .reservedHigh i => BitVec.ofNat 10 (0x3C0 + i.val)

/-- The unused operand field, 0x000 (R28). -/
def Operand.zero : Operand := .v 0

/-! ## Modifier layouts (R55) -/

/-- Layout IN (R55): integer and logic.  `rsv` holds the reserved bits. -/
structure ModIN where
  w : Bool
  sgn : Bool
  sat : Bool
  imm : Bool
  rsv : BitVec 5
  deriving DecidableEq, Repr

def ModIN.ofBits (m : BitVec 9) : ModIN :=
  ⟨m.getLsbD 0, m.getLsbD 1, m.getLsbD 2, m.getLsbD 3, m.extractLsb' 4 5⟩

def ModIN.bits (m : ModIN) : BitVec 9 :=
  m.rsv ++ BitVec.ofBool m.imm ++ BitVec.ofBool m.sat ++ BitVec.ofBool m.sgn ++ BitVec.ofBool m.w

/-- Layout CM (R55): compare.  `rsv` holds the reserved bits. -/
structure ModCM where
  cond : BitVec 3
  sgn : Bool
  w : Bool
  imm : Bool
  fmt : BitVec 2
  rsv : BitVec 1
  deriving DecidableEq, Repr

def ModCM.ofBits (m : BitVec 9) : ModCM :=
  ⟨m.extractLsb' 0 3, m.getLsbD 3, m.getLsbD 4, m.getLsbD 5, m.extractLsb' 6 2, m.extractLsb' 8 1⟩

def ModCM.bits (m : ModCM) : BitVec 9 :=
  m.rsv ++ m.fmt ++ BitVec.ofBool m.imm ++ BitVec.ofBool m.w ++ BitVec.ofBool m.sgn ++ m.cond

/-- Layout FL (R55): float.  `rsv` holds the reserved bits. -/
structure ModFL where
  rnd : BitVec 2
  fmt : BitVec 2
  x2 : Bool
  sat : Bool
  rsv : BitVec 3
  deriving DecidableEq, Repr

def ModFL.ofBits (m : BitVec 9) : ModFL :=
  ⟨m.extractLsb' 0 2, m.extractLsb' 2 2, m.getLsbD 4, m.getLsbD 5, m.extractLsb' 6 3⟩

def ModFL.bits (m : ModFL) : BitVec 9 :=
  m.rsv ++ BitVec.ofBool m.sat ++ BitVec.ofBool m.x2 ++ m.fmt ++ m.rnd

/-- Layout CF (R55): cvtf.  `rsv` holds the reserved bits. -/
structure ModCF where
  rnd : BitVec 2
  src : BitVec 4
  dst : BitVec 2
  rsv : BitVec 1
  deriving DecidableEq, Repr

def ModCF.ofBits (m : BitVec 9) : ModCF :=
  ⟨m.extractLsb' 0 2, m.extractLsb' 2 4, m.extractLsb' 6 2, m.extractLsb' 8 1⟩

def ModCF.bits (m : ModCF) : BitVec 9 :=
  m.rsv ++ m.dst ++ m.src ++ m.rnd

/-- Layout CI (R55): cvti.  `rsv` holds the reserved bits. -/
structure ModCI where
  rnd : BitVec 2
  src : BitVec 2
  dst : BitVec 4
  sat : Bool
  deriving DecidableEq, Repr

def ModCI.ofBits (m : BitVec 9) : ModCI :=
  ⟨m.extractLsb' 0 2, m.extractLsb' 2 2, m.extractLsb' 4 4, m.getLsbD 8⟩

def ModCI.bits (m : ModCI) : BitVec 9 :=
  BitVec.ofBool m.sat ++ m.dst ++ m.src ++ m.rnd

/-- Layout QS (R55): scaled conversion.  `rsv` holds the reserved bits. -/
structure ModQS where
  slot : BitVec 3
  fmt : BitVec 2
  rnd : BitVec 2
  rsv : BitVec 2
  deriving DecidableEq, Repr

def ModQS.ofBits (m : BitVec 9) : ModQS :=
  ⟨m.extractLsb' 0 3, m.extractLsb' 3 2, m.extractLsb' 5 2, m.extractLsb' 7 2⟩

def ModQS.bits (m : ModQS) : BitVec 9 :=
  m.rsv ++ m.rnd ++ m.fmt ++ m.slot

/-- Layout DT (R55): dot product.  `rsv` holds the reserved bits. -/
structure ModDT where
  sa : Bool
  sb : Bool
  sat : Bool
  rsv : BitVec 6
  deriving DecidableEq, Repr

def ModDT.ofBits (m : BitVec 9) : ModDT :=
  ⟨m.getLsbD 0, m.getLsbD 1, m.getLsbD 2, m.extractLsb' 3 6⟩

def ModDT.bits (m : ModDT) : BitVec 9 :=
  m.rsv ++ BitVec.ofBool m.sat ++ BitVec.ofBool m.sb ++ BitVec.ofBool m.sa

/-- Layout MM (R55): loads, stores, hints.  `rsv` holds the reserved bits. -/
structure ModMM where
  type : BitVec 4
  line : Bool
  pol : BitVec 2
  rsv : BitVec 2
  deriving DecidableEq, Repr

def ModMM.ofBits (m : BitVec 9) : ModMM :=
  ⟨m.extractLsb' 0 4, m.getLsbD 4, m.extractLsb' 5 2, m.extractLsb' 7 2⟩

def ModMM.bits (m : ModMM) : BitVec 9 :=
  m.rsv ++ m.pol ++ BitVec.ofBool m.line ++ m.type

/-- Layout AT (R55): atomics and reductions.  `rsv` holds the reserved bits. -/
structure ModAT where
  type : BitVec 4
  scope : BitVec 3
  ord : BitVec 2
  deriving DecidableEq, Repr

def ModAT.ofBits (m : BitVec 9) : ModAT :=
  ⟨m.extractLsb' 0 4, m.extractLsb' 4 3, m.extractLsb' 7 2⟩

def ModAT.bits (m : ModAT) : BitVec 9 :=
  m.ord ++ m.scope ++ m.type

/-- Layout WA (R55): waita.  `rsv` holds the reserved bits. -/
structure ModWA where
  type : BitVec 4
  cond : BitVec 3
  timed : Bool
  rsv : BitVec 1
  deriving DecidableEq, Repr

def ModWA.ofBits (m : BitVec 9) : ModWA :=
  ⟨m.extractLsb' 0 4, m.extractLsb' 4 3, m.getLsbD 7, m.extractLsb' 8 1⟩

def ModWA.bits (m : ModWA) : BitVec 9 :=
  m.rsv ++ BitVec.ofBool m.timed ++ m.cond ++ m.type

/-- Layout FN (R55): fence.  `rsv` holds the reserved bits. -/
structure ModFN where
  scope : BitVec 3
  ord : BitVec 2
  rsv : BitVec 4
  deriving DecidableEq, Repr

def ModFN.ofBits (m : BitVec 9) : ModFN :=
  ⟨m.extractLsb' 0 3, m.extractLsb' 3 2, m.extractLsb' 5 4⟩

def ModFN.bits (m : ModFN) : BitVec 9 :=
  m.rsv ++ m.ord ++ m.scope

/-- Layout XF (R55): xfence.  `rsv` holds the reserved bits. -/
structure ModXF where
  scope : BitVec 3
  src : BitVec 3
  dst : BitVec 3
  deriving DecidableEq, Repr

def ModXF.ofBits (m : BitVec 9) : ModXF :=
  ⟨m.extractLsb' 0 3, m.extractLsb' 3 3, m.extractLsb' 6 3⟩

def ModXF.bits (m : ModXF) : BitVec 9 :=
  m.dst ++ m.src ++ m.scope

/-- Layout CP (R55): copies.  `rsv` holds the reserved bits. -/
structure ModCP where
  arrive : Bool
  pol : BitVec 2
  rsv : BitVec 6
  deriving DecidableEq, Repr

def ModCP.ofBits (m : BitVec 9) : ModCP :=
  ⟨m.getLsbD 0, m.extractLsb' 1 2, m.extractLsb' 3 6⟩

def ModCP.bits (m : ModCP) : BitVec 9 :=
  m.rsv ++ m.pol ++ BitVec.ofBool m.arrive

/-- Layout QU (R55): hardware queues.  `rsv` holds the reserved bits. -/
structure ModQU where
  scope : BitVec 3
  w : Bool
  try_ : Bool
  rsv : BitVec 4
  deriving DecidableEq, Repr

def ModQU.ofBits (m : BitVec 9) : ModQU :=
  ⟨m.extractLsb' 0 3, m.getLsbD 3, m.getLsbD 4, m.extractLsb' 5 4⟩

def ModQU.bits (m : ModQU) : BitVec 9 :=
  m.rsv ++ BitVec.ofBool m.try_ ++ BitVec.ofBool m.w ++ m.scope

/-- Layout TM (R55): tmove.  `rsv` holds the reserved bits. -/
structure ModTM where
  tier : BitVec 2
  rsv : BitVec 7
  deriving DecidableEq, Repr

def ModTM.ofBits (m : BitVec 9) : ModTM :=
  ⟨m.extractLsb' 0 2, m.extractLsb' 2 7⟩

def ModTM.bits (m : ModTM) : BitVec 9 :=
  m.rsv ++ m.tier

/-- Layout XL (R55): cross-lane.  `rsv` holds the reserved bits. -/
structure ModXL where
  op : BitVec 3
  sgn : Bool
  w : Bool
  rsv : BitVec 4
  deriving DecidableEq, Repr

def ModXL.ofBits (m : BitVec 9) : ModXL :=
  ⟨m.extractLsb' 0 3, m.getLsbD 3, m.getLsbD 4, m.extractLsb' 5 4⟩

def ModXL.bits (m : ModXL) : BitVec 9 :=
  m.rsv ++ BitVec.ofBool m.w ++ BitVec.ofBool m.sgn ++ m.op

/-- Layout Z (R55): no modifier.  `rsv` holds the reserved bits. -/
structure ModZ where
  rsv : BitVec 9
  deriving DecidableEq, Repr

def ModZ.ofBits (m : BitVec 9) : ModZ :=
  ⟨m.extractLsb' 0 9⟩

def ModZ.bits (m : ModZ) : BitVec 9 :=
  m.rsv

/-! ## Instruction words (R25) -/

/-- The fields every instruction word has besides its opcode, operands and modifier: the switch marker,
the guard (R26) and the literal word when one follows (R36). -/
structure Head where
  sw    : Bool
  guard : BitVec 4
  lit   : Option (BitVec 64)
  deriving DecidableEq, Repr

/-- A word with four operand codes. -/
structure OpWord (μ : Type) where
  h : Head
  m : μ
  d : Operand
  a : Operand
  b : Operand
  c : Operand
  deriving DecidableEq, Repr

/-- An immediate form (R29): `opd_b` and `opd_c` form the 20-bit immediate. -/
structure ImmWord (μ : Type) where
  h   : Head
  m   : μ
  d   : Operand
  a   : Operand
  imm : BitVec 20
  deriving DecidableEq, Repr

/-- A memory form (R30): buffer register and signed 15-bit element offset. -/
structure MemWord (μ : Type) where
  h   : Head
  m   : μ
  d   : Operand
  a   : Operand
  buf : BitVec 5
  off : BitVec 15
  deriving DecidableEq, Repr

/-- `ldbr` (R106): as a memory form, with a raw `opd_d`. -/
structure RawMemWord (μ : Type) where
  h   : Head
  m   : μ
  d   : BitVec 10
  a   : Operand
  buf : BitVec 5
  off : BitVec 15
  deriving DecidableEq, Repr

/-- `waita` with `.to` (R106): a signed 5-bit offset, and the timeout in `opd_c`. -/
structure TimedMemWord (μ : Type) where
  h   : Head
  m   : μ
  d   : Operand
  a   : Operand
  buf : BitVec 5
  off : BitVec 5
  c   : Operand
  deriving DecidableEq, Repr

/-- Copies (R106): source record in [27:23], destination record in [32:28]. -/
structure CopyWord (μ : Type) where
  h   : Head
  m   : μ
  d   : Operand
  a   : Operand
  src : BitVec 5
  dst : BitVec 5
  c   : Operand
  deriving DecidableEq, Repr

/-- A word whose `opd_d` is a raw number (R151, R154, R159). -/
structure RawDWord (μ : Type) where
  h : Head
  m : μ
  d : BitVec 10
  a : Operand
  b : Operand
  c : Operand
  deriving DecidableEq, Repr

/-- A word whose `opd_a` is a raw number (`sysrd`, R151). -/
structure RawAWord (μ : Type) where
  h : Head
  m : μ
  d : Operand
  a : BitVec 10
  b : Operand
  c : Operand
  deriving DecidableEq, Repr

/-- A word whose `opd_b` is a raw number (`occstep`, `hgrid`, R159). -/
structure RawBWord (μ : Type) where
  h : Head
  m : μ
  d : Operand
  a : Operand
  b : BitVec 10
  c : Operand
  deriving DecidableEq, Repr

/-! ## Operands of the device's other steps -/

/-- A thread: the serial number of its group, its row and its lane (R182). -/
structure ThreadRef where
  group : Nat
  row   : Nat
  lane  : Nat
  deriving DecidableEq, Repr

/-- A source of writes on the die link and the host link (R242). -/
inductive Source where
  | die0 | die1 | host
  deriving DecidableEq, Repr

/-- A register that an uncorrectable error can hit (R337). -/
inductive RegName where
  | v (i : Nat) | s (i : Nat) | p (i : Nat) | k (i : Nat) | b (i : Nat) | g (i : Nat)
  deriving DecidableEq, Repr

/-- Where an uncorrectable error stands in a core (R337). -/
inductive EccSite where
  | register (t : ThreadRef) (r : RegName)
  /-- A scratchpad sector of a group: the group and a byte offset in the sector. -/
  | scratchpad (group offset : Nat)
  /-- A word of a FIFO bank. -/
  | fifo (bank index : Nat)
  /-- A dirty L1 byte, by its storage address. -/
  | l1 (addr : Nat)
  /-- Block waiting table, wait table, selector, store buffer or matrix queue. -/
  | control
  deriving DecidableEq, Repr

/-- The header of a host-link message (R352). -/
structure LinkHead where
  addr     : BitVec 48
  type     : BitVec 4
  poison   : Bool
  rsvLow   : BitVec 3
  tag      : BitVec 8
  chunks   : BitVec 4
  rsvMid   : BitVec 60
  clock    : BitVec 72
  rsvHigh  : BitVec 56
  deriving DecidableEq, Repr

/-- The fields every host-queue entry has besides its operands (R353): the queue it stands in, `irq`,
`after` and the reserved bits. -/
structure Cmd where
  queue : Nat
  irq   : Bool
  after : Bool
  rsv   : BitVec 22
  deriving DecidableEq, Repr

/-- A control word that the read-state command can name (R355). -/
inductive ControlWord where
  | pairControl (pair : Nat)
  | dieVoltage (die : Nat)
  | partitionControl (die : Nat)
  | policy (index : Nat)
  | counterConfig (core index : Nat)
  | tensorTableSize
  deriving DecidableEq, Repr

/-- A firmware image by its sections (R358). -/
structure Firmware where
  mark     : BitVec 32
  codeSize : BitVec 32
  rollback : BitVec 32
  keySlot  : BitVec 32
  reserved : List (BitVec 8)
  modulus  : List (BitVec 8)
  slhKey   : List (BitVec 8)
  code     : List (BitVec 8)
  rsaSig   : List (BitVec 8)
  slhSig   : List (BitVec 8)
  deriving DecidableEq, Repr

/-- The boot configuration (R358): per vault the stack-cache part in 256 MiB steps, the deep tier's size in
bytes, the tensor table's base and entry count, and the ring address of queue 0. -/
structure BootConfig where
  cacheSteps  : List Nat
  deepBytes   : Nat
  tensorBase  : Nat
  tensorCount : Nat
  queue0Ring  : BitVec 64
  deriving DecidableEq, Repr

/-- The steps of the device: one constructor for each row of spec/opcode_table.json.  The rows stand in the table's
order but for the last host commands, which no definition of the model builds: compiled Lean code cannot build a
constructor numbered above 244. -/
inductive Instr where
  /-- NOP (R158): Does nothing; it counts only for its guard and its sw bit. -/
  | nop (w : OpWord ModZ)
  /-- IADD (R63): Writes a + b, wrapping or saturating at width W. -/
  | iadd (w : OpWord ModIN)
  /-- IADD_IMM (R63): Immediate form of iadd: adds the sign-extended 20-bit immediate to a. -/
  | iaddImm (w : ImmWord ModIN)
  /-- ISUB (R63): Writes a − b, wrapping or saturating. -/
  | isub (w : OpWord ModIN)
  /-- ISUB_IMM (R63): Immediate form of isub. -/
  | isubImm (w : ImmWord ModIN)
  /-- IMUL (R63): Writes the low W bits of a × b, or the product clamped under sat. -/
  | imul (w : OpWord ModIN)
  /-- IMUL_IMM (R63): Immediate form of imul. -/
  | imulImm (w : ImmWord ModIN)
  /-- IMULHI (R63): Writes floor(a × b ÷ 2^W). -/
  | imulhi (w : OpWord ModIN)
  /-- IMULHI_IMM (R63): Immediate form of imulhi, whose immediate is extended by sgn. -/
  | imulhiImm (w : ImmWord ModIN)
  /-- IMAD (R63): Writes a × b + c, with the exact sum clamped under sat. -/
  | imad (w : OpWord ModIN)
  /-- IADDC (R64): Writes a + b + c[0], or the carry out when d is a p register. -/
  | iaddc (w : OpWord ModIN)
  /-- ISUBC (R64): Writes a − b − c[0], or the borrow when d is a p register. -/
  | isubc (w : OpWord ModIN)
  /-- IMIN (R63): Writes the smaller of a and b, signed or unsigned. -/
  | imin (w : OpWord ModIN)
  /-- IMIN_IMM (R63): Immediate form of imin. -/
  | iminImm (w : ImmWord ModIN)
  /-- IMAX (R63): Writes the larger of a and b. -/
  | imax (w : OpWord ModIN)
  /-- IMAX_IMM (R63): Immediate form of imax. -/
  | imaxImm (w : ImmWord ModIN)
  /-- IABS (R63): Writes |a|, wrapping or saturating. -/
  | iabs (w : OpWord ModIN)
  /-- INEG (R63): Writes −a, wrapping or saturating. -/
  | ineg (w : OpWord ModIN)
  /-- AND (R65): Writes a AND b. -/
  | and (w : OpWord ModIN)
  /-- AND_IMM (R65): Immediate form of and, with a zero-extended immediate. -/
  | andImm (w : ImmWord ModIN)
  /-- OR (R65): Writes a OR b. -/
  | or (w : OpWord ModIN)
  /-- OR_IMM (R65): Immediate form of or. -/
  | orImm (w : ImmWord ModIN)
  /-- XOR (R65): Writes a XOR b. -/
  | xor (w : OpWord ModIN)
  /-- XOR_IMM (R65): Immediate form of xor. -/
  | xorImm (w : ImmWord ModIN)
  /-- ANDN (R65): Writes a AND NOT b. -/
  | andn (w : OpWord ModIN)
  /-- ANDN_IMM (R65): Immediate form of andn. -/
  | andnImm (w : ImmWord ModIN)
  /-- NOT (R65): Writes NOT a. -/
  | not (w : OpWord ModIN)
  /-- SHL (R65): Shifts a left by n, bringing in zeros. -/
  | shl (w : OpWord ModIN)
  /-- SHL_IMM (R65): Immediate form of shl. -/
  | shlImm (w : ImmWord ModIN)
  /-- SHR (R65): Shifts a right by n, logically or arithmetically. -/
  | shr (w : OpWord ModIN)
  /-- SHR_IMM (R65): Immediate form of shr. -/
  | shrImm (w : ImmWord ModIN)
  /-- ROTL (R65): Rotates a left by n. -/
  | rotl (w : OpWord ModIN)
  /-- ROTL_IMM (R65): Immediate form of rotl. -/
  | rotlImm (w : ImmWord ModIN)
  /-- BFEXT (R66): Extracts a bit field of a, sign- or zero-extended. -/
  | bfext (w : OpWord ModIN)
  /-- BFEXT_IMM (R66): Immediate form of bfext, with position and length in the immediate. -/
  | bfextImm (w : ImmWord ModIN)
  /-- BFINS (R66): Writes c with a field replaced from a. -/
  | bfins (w : OpWord ModIN)
  /-- POPC (R65): Writes the number of 1 bits of a. -/
  | popc (w : OpWord ModIN)
  /-- CLZ (R65): Writes the number of leading zero bits of a. -/
  | clz (w : OpWord ModIN)
  /-- BREV (R65): Writes a with its bits reversed. -/
  | brev (w : OpWord ModIN)
  /-- SEL (R65): Writes a if c is nonzero, else b. -/
  | sel (w : OpWord ModIN)
  /-- MOV (R65): Copies a to d. -/
  | mov (w : OpWord ModIN)
  /-- MOV_IMM (R65): Writes the sign-extended immediate to d. -/
  | movImm (w : ImmWord ModIN)
  /-- LEA (R65): Writes a + b × 2^c[2:0]. -/
  | lea (w : OpWord ModIN)
  /-- ICMP (R68): Compares a with b and writes the predicate result, or 1 or 0. -/
  | icmp (w : OpWord ModCM)
  /-- ICMP_IMM (R68): Immediate form of icmp. -/
  | icmpImm (w : ImmWord ModCM)
  /-- FCMP (R95): Compares two floats under an ordered or unordered condition. -/
  | fcmp (w : OpWord ModCM)
  /-- PAND (R69): Writes the AND of two predicates. -/
  | pand (w : OpWord ModZ)
  /-- POR (R69): Writes the OR of two predicates. -/
  | por (w : OpWord ModZ)
  /-- PXOR (R69): Writes the XOR of two predicates. -/
  | pxor (w : OpWord ModZ)
  /-- PNOT (R69): Writes the inverse of a predicate. -/
  | pnot (w : OpWord ModZ)
  /-- PMOV (R69): Copies a predicate. -/
  | pmov (w : OpWord ModZ)
  /-- KSET (R139): Writes a lane set of the lanes a to a + b − 1. -/
  | kset (w : OpWord ModZ)
  /-- KSET_COPY (R139): Two-operand form of kset: copies one k register to another. -/
  | ksetCopy (w : OpWord ModZ)
  /-- KGET (R139): Reads one 32-bit word of a lane set. -/
  | kget (w : OpWord ModZ)
  /-- FADD (R91): Writes a + b, correctly rounded. -/
  | fadd (w : OpWord ModFL)
  /-- FSUB (R91): Writes a − b, correctly rounded. -/
  | fsub (w : OpWord ModFL)
  /-- FMUL (R91): Writes a × b, correctly rounded. -/
  | fmul (w : OpWord ModFL)
  /-- FFMA (R91): Writes a × b + c with one rounding. -/
  | ffma (w : OpWord ModFL)
  /-- FMIN (R92): Writes the lesser of two floats. -/
  | fmin (w : OpWord ModFL)
  /-- FMAX (R92): Writes the greater of two floats. -/
  | fmax (w : OpWord ModFL)
  /-- FABS (R91): Clears the sign bit. -/
  | fabs (w : OpWord ModFL)
  /-- FNEG (R91): Inverts the sign bit. -/
  | fneg (w : OpWord ModFL)
  /-- FRCP (R91): Writes the correctly rounded reciprocal. -/
  | frcp (w : OpWord ModFL)
  /-- FRSQ (R93): Writes an approximate reciprocal square root. -/
  | frsq (w : OpWord ModFL)
  /-- FSQRT (R91): Writes the correctly rounded square root. -/
  | fsqrt (w : OpWord ModFL)
  /-- FDIV (R91): Writes the correctly rounded quotient. -/
  | fdiv (w : OpWord ModFL)
  /-- FEXP2 (R93): Writes an approximation of 2^a. -/
  | fexp2 (w : OpWord ModFL)
  /-- FLOG2 (R93): Writes an approximation of log2 a. -/
  | flog2 (w : OpWord ModFL)
  /-- FSIN (R93): Writes an approximation of sin of a turns. -/
  | fsin (w : OpWord ModFL)
  /-- FCOS (R93): Writes an approximation of cos of a turns. -/
  | fcos (w : OpWord ModFL)
  /-- FFRAC (R91): Writes a − floor(a), rounded toward zero. -/
  | ffrac (w : OpWord ModFL)
  /-- FRND (R91): Rounds a to an integral value. -/
  | frnd (w : OpWord ModFL)
  /-- FCLAMP (R92): Writes fmin(fmax(a, b), c). -/
  | fclamp (w : OpWord ModFL)
  /-- FSCALE (R91): Writes a × 2^b, rounded once. -/
  | fscale (w : OpWord ModFL)
  /-- CVTF (R96): Converts an integer or float to a float format. -/
  | cvtf (w : OpWord ModCF)
  /-- CVTI (R97): Converts a float to an integer, wrapping or saturating. -/
  | cvti (w : OpWord ModCI)
  /-- QNT (R99): Quantises a value to a narrow element code under a scale. -/
  | qnt (w : OpWord ModQS)
  /-- DQNT (R100): Dequantises a narrow element under a scale. -/
  | dqnt (w : OpWord ModQS)
  /-- SCLX (R101): Decodes a scale byte to a float. -/
  | sclx (w : OpWord ModQS)
  /-- SCLENC (R102): Encodes a float as a scale byte. -/
  | sclenc (w : OpWord ModQS)
  /-- DOT8 (R103): Adds the dot product of eight 4-bit element pairs to c. -/
  | dot8 (w : OpWord ModDT)
  /-- DOT4 (R103): Adds the dot product of four 8-bit element pairs to c. -/
  | dot4 (w : OpWord ModDT)
  /-- HPACK (R104): Packs two half-words into one register. -/
  | hpack (w : OpWord ModZ)
  /-- HUNPK (R104): Extracts one half-word of a register. -/
  | hunpk (w : OpWord ModZ)
  /-- LD (R109): Checks an element access and reads memory into d at execution. -/
  | ld (w : MemWord ModMM)
  /-- ST (R110): Checks an element access and places the store in the store buffer. -/
  | st (w : MemWord ModMM)
  /-- LDRO (R111): Loads an element on the read-only path S. -/
  | ldro (w : MemWord ModMM)
  /-- SMP (R114): Loads an element on path S, or runs as smpl through a level-of-detail record. -/
  | smp (w : MemWord ModMM)
  /-- SMPL (R115): Loads from the finest resident level and writes a status word. -/
  | smpl (w : MemWord ModMM)
  /-- LDBR (R117): Loads a 128-bit record into a buffer register at commit. -/
  | ldbr (w : RawMemWord ModMM)
  /-- PREF (R118): Prefetches a line toward the core. -/
  | pref (w : MemWord ModMM)
  /-- RESH (R118): Gives a residency hint, or appends feedback for an absent page. -/
  | resh (w : MemWord ModMM)
  /-- AADD (R120): Atomic add that returns the old value. -/
  | aadd (w : MemWord ModAT)
  /-- AMIN (R120): Atomic minimum that returns the old value. -/
  | amin (w : MemWord ModAT)
  /-- AMAX (R120): Atomic maximum that returns the old value. -/
  | amax (w : MemWord ModAT)
  /-- AAND (R120): Atomic AND that returns the old value. -/
  | aand (w : MemWord ModAT)
  /-- AOR (R120): Atomic OR that returns the old value. -/
  | aor (w : MemWord ModAT)
  /-- AXOR (R120): Atomic XOR that returns the old value. -/
  | axor (w : MemWord ModAT)
  /-- AXCHG (R120): Atomic exchange. -/
  | axchg (w : MemWord ModAT)
  /-- ACAS (R120): Atomic compare and swap. -/
  | acas (w : MemWord ModAT)
  /-- REDADD (R120): Reduction add that returns nothing. -/
  | redadd (w : MemWord ModAT)
  /-- REDMIN (R120): Reduction minimum. -/
  | redmin (w : MemWord ModAT)
  /-- REDMAX (R120): Reduction maximum. -/
  | redmax (w : MemWord ModAT)
  /-- REDAND (R120): Reduction AND. -/
  | redand (w : MemWord ModAT)
  /-- REDOR (R120): Reduction OR. -/
  | redor (w : MemWord ModAT)
  /-- REDXOR (R120): Reduction XOR. -/
  | redxor (w : MemWord ModAT)
  /-- WAITA (R124): Waits after commit until a memory word meets a condition. -/
  | waita (w : MemWord ModWA)
  /-- WAITA_TO (R124): Timeout form of waita, with a 5-bit offset and the timeout in opd_c. -/
  | waitaTo (w : TimedMemWord ModWA)
  /-- FENCE (R126): Issues a release or acquire fence on the V path at a scope. -/
  | fence (w : OpWord ModFN)
  /-- XFENCE (R127): Issues a cross-path fence from path x to path y. -/
  | xfence (w : OpWord ModXF)
  /-- CPY1 (R129): Checks a linear asynchronous copy, which issues at commit. -/
  | cpy1 (w : CopyWord ModCP)
  /-- CPY2 (R129): Checks a two-dimensional asynchronous copy, which issues at commit. -/
  | cpy2 (w : CopyWord ModCP)
  /-- SPWF (R134): Scratchpad write fence that drops the residency of the named handles. -/
  | spwf (w : OpWord ModZ)
  /-- QPUSH (R135): Pushes onto a hardware FIFO bank after commit. -/
  | qpush (w : OpWord ModQU)
  /-- QPOP (R135): Pops from a hardware FIFO bank after commit. -/
  | qpop (w : OpWord ModQU)
  /-- TMOVE (R137): Asks the tier engine to move a tensor to a tier. -/
  | tmove (w : OpWord ModTM)
  /-- SHFI (R146): Shuffles the value of an indexed source lane. -/
  | shfi (w : OpWord ModXL)
  /-- SHFX (R146): Shuffles the value of lane xor mask. -/
  | shfx (w : OpWord ModXL)
  /-- SHFU (R146): Shuffles the value of the lane b below. -/
  | shfu (w : OpWord ModXL)
  /-- SHFD (R146): Shuffles the value of the lane b above. -/
  | shfd (w : OpWord ModXL)
  /-- BALLOT (R146): Gathers a condition across lanes into a mask. -/
  | ballot (w : OpWord ModXL)
  /-- VOTE (R146): Writes any, all or uniform across the lane set. -/
  | vote (w : OpWord ModXL)
  /-- ELECT (R146): Selects the lowest participating lane. -/
  | elect (w : OpWord ModXL)
  /-- LRED (R146): Reduces a value across the lane set in ascending lane order. -/
  | lred (w : OpWord ModXL)
  /-- MXLDB (R161): Checks a handle descriptor and queues the handle's load. -/
  | mxldb (w : OpWord ModZ)
  /-- MXOP (R162): Checks a parameter block and queues D := A × B + C. -/
  | mxop (w : OpWord ModZ)
  /-- MXQ (R165): Reads the engine state of a handle. -/
  | mxq (w : OpWord ModZ)
  /-- MXDROP (R166): Queues the drop of the named handles. -/
  | mxdrop (w : OpWord ModZ)
  /-- FWORK (R167): Asks the distributor for an undispatched group of the grid. -/
  | fwork (w : OpWord ModZ)
  /-- TLACQ (R169): Asks for a tile's slot for the producer. -/
  | tlacq (w : RawDWord ModZ)
  /-- TLDONE (R170): Asks for a tile to be retired. -/
  | tldone (w : OpWord ModZ)
  /-- TLRD (R171): Opens a retired tile for reading. -/
  | tlrd (w : RawDWord ModZ)
  /-- TLREL (R172): Releases the group's reference to a tile. -/
  | tlrel (w : OpWord ModZ)
  /-- OCCSTEP (R177): Steps a ray through an occupancy grid. -/
  | occstep (w : RawBWord ModZ)
  /-- HGRID (R178): Fetches and interpolates hash-grid features. -/
  | hgrid (w : RawBWord ModZ)
  /-- RBOX (R174): Tests a ray against a box. -/
  | rbox (w : OpWord ModZ)
  /-- RTRI (R175): Tests a ray against a triangle. -/
  | rtri (w : OpWord ModZ)
  /-- RHIT (R176): Merges two hit records. -/
  | rhit (w : OpWord ModZ)
  /-- BR (R70): Sets the continuation to the literal target. -/
  | br (w : OpWord ModZ)
  /-- CALL (R71): Writes the return address and branches to the literal target. -/
  | call (w : OpWord ModZ)
  /-- RET (R70): Sets the continuation to a register value. -/
  | ret (w : OpWord ModZ)
  /-- JMPI (R70): Makes an indirect jump. -/
  | jmpi (w : OpWord ModZ)
  /-- CALLI (R71): Makes an indirect call. -/
  | calli (w : OpWord ModZ)
  /-- EXIT (R75): Commits the segment and ends the thread. -/
  | exit (w : OpWord ModZ)
  /-- TRAP (R152): Commits and delivers a trap to the vector, or parks for the host. -/
  | trap (w : OpWord ModZ)
  /-- TRAPRET (R153): Commits, checks the resumption point and leaves the handler. -/
  | trapret (w : OpWord ModZ)
  /-- BRK (R152): Delivers a break to the vector or to the host. -/
  | brk (w : OpWord ModZ)
  /-- SYSRD (R151): Reads a system register. -/
  | sysrd (w : RawAWord ModZ)
  /-- SYSWR (R151): Writes, at commit, a system register that has no row of its own. -/
  | syswr (w : RawDWord ModZ)
  /-- MEM_STATUS_CLEAR (R108): A W1C write to sys.mem_status clears the named status bits at commit. -/
  | memStatusClear (w : RawDWord ModZ)
  /-- CNT_CFG_WRITE (R362): A write to sys.cnt_cfg configures counter i and clears it. -/
  | cntCfgWrite (w : RawDWord ModZ)
  /-- CNTRD (R151): Reads a 64-bit counter. -/
  | cntrd (w : OpWord ModZ)
  /-- CLKRD (R151): Reads the global time or the cycle counter. -/
  | clkrd (w : OpWord ModZ)
  /-- SEGSET (R155): Writes a segment register at commit. -/
  | segset (w : RawDWord ModZ)
  /-- BANKSW (R156): Requests a new role for an SRAM bank. -/
  | banksw (w : OpWord ModZ)
  /-- HALT (R157): Parks the thread for the host after commit. -/
  | halt (w : OpWord ModZ)
  /-- CLAUSE_ENTER (R58): Fetches and checks a clause header for the entering threads once their wait fields hold. -/
  | clauseEnter (core : Nat)
  /-- BURST_SELECT (R189): The selector chooses a block waiting table entry for the next burst. -/
  | burstSelect (core : Nat)
  /-- LOAD_RETURN (R110): Load data returns to a thread's destination, with its data checks. -/
  | loadReturn (t : ThreadRef)
  /-- SEGMENT_COMMIT (R194): A committing thread commits its registers, releases stores, issues its effect and records its continuation. -/
  | segmentCommit (t : ThreadRef)
  /-- DROOP_HOLD_RELEASE (R198): After 256 droop-free cycles, held threads are replayed once more. -/
  | droopHoldRelease (cluster : Nat)
  /-- STORE_DRAIN (R110): A committed store leaves the store buffer and is performed. -/
  | storeDrain (t : ThreadRef)
  /-- ATOMIC_PERFORM (R121): An atomic is performed after commit and its value returned. -/
  | atomicPerform (t : ThreadRef)
  /-- REDUCTION_PERFORM (R123): A reduction is performed after commit, or faults after its retry. -/
  | reductionPerform (id : Nat)
  /-- WAITA_REEVAL (R124): A write to the waited bytes wakes a waiter, which evaluates again. -/
  | waitaReeval (t : ThreadRef)
  /-- WAITA_TIMEOUT (R124): A waita timeout expires and the wait ends with its predicate cleared. -/
  | waitaTimeout (t : ThreadRef)
  /-- WAITA_POLL (R125): A refused waiter re-reads its word every 256 cycles. -/
  | waitaPoll (t : ThreadRef)
  /-- WAKE_ADMIT (R351): Each 64-cycle window, the slew limiter admits up to 8 quiet clusters. -/
  | wakeAdmit (die : Nat)
  /-- FENCE_COMPLETE (R126): A fence completes and the thread becomes ready. -/
  | fenceComplete (t : ThreadRef)
  /-- XFENCE_COMPLETE (R127): A cross-path fence completes. -/
  | xfenceComplete (t : ThreadRef)
  /-- QUEUE_SERVE (R136): A parked push or pop is served once space or entries exist. -/
  | queueServe (core bank : Nat)
  /-- COPY_PIECE (R131): The copy engine moves a piece, or lists it for fix-up. -/
  | copyPiece (id : Nat)
  /-- COPY_FIXUP_RESOLVE (R342): The command processor resolves a fix-up entry and replays or fails the piece. -/
  | copyFixupResolve (id : Nat)
  /-- COPY_COMPLETE (R132): A copy writes its token or arrival word. -/
  | copyComplete (id : Nat)
  /-- BANK_SWITCH (R216): A bank changes role after write-back and writes the banksw token. -/
  | bankSwitch (id : Nat)
  /-- MX_OP_START (R163): The matrix engine starts the next queued mxldb, mxop, mxdrop or drop. -/
  | mxOpStart (core : Nat)
  /-- MX_OP_COMPLETE (R314): An operation finishes its execution, re-executes or writes D and its token. -/
  | mxOpComplete (core : Nat)
  /-- MX_IDLE_SELF_TEST (R312): A macro holding a resident handle is tested after 65,536 idle cycles. -/
  | mxIdleSelfTest (core mac : Nat)
  /-- TIER_MOVE_START (R317): The tier engine starts the next move of a tensor. -/
  | tierMoveStart (tensor : Nat)
  /-- TIER_MOVE_SWITCH (R317): A move's copy ends, the translation is switched and the token written. -/
  | tierMoveSwitch (tensor : Nat)
  /-- TILE_OP_PROCESS (R279): The scoreboard decides a tile operation that reaches it. -/
  | tileOpProcess (ctx res : Nat)
  /-- TILE_RETIRE (R170): After the writes are performed, a tile's retired bit is set and its reader count set. -/
  | tileRetire (ctx res tile : Nat)
  /-- RING_STALL_THRESHOLD (R283): A stalled producer reaches its threshold and takes an overflow place. -/
  | ringStallThreshold (ctx res : Nat)
  /-- RING_STALL_NOTICE (R285): After 2^20 cycles without a freed place, a ring-stall notice is sent. -/
  | ringStallNotice (ctx res : Nat)
  /-- GROUP_RETIRE (R76): A group retires once its threads have exited and its effects and stores are done. -/
  | groupRetire (g : Nat)
  /-- GRAPH_ACCEPT (R275): A waiting graph receives a context and reserves its rings. -/
  | graphAccept (q : Nat)
  /-- GRAPH_END (R286): After every entry is freed, a graph releases its rings and writes its completion record. -/
  | graphEnd (ctx : Nat)
  /-- GROUP_PLACE (R292): Each cycle, a die places one released group on an accepting core. -/
  | groupPlace (die : Nat)
  /-- PLACEMENT_BLOCK (R292): A group unaccepted for 65,536 cycles blocks its queue. -/
  | placementBlock (part : Nat)
  /-- FWORK_ANSWER (R299): The distributor hands a group, or answers 2 or 3, through the mailbox. -/
  | fworkAnswer (id : Nat)
  /-- SHEET_EVAL (R290): Every 4,096 ns, each die evaluates and may start a core's drain. -/
  | sheetEval (die : Nat)
  /-- PARTITION_FLIP (R289): An emptied draining core changes partition. -/
  | partitionFlip (core : Nat)
  /-- PARTITION_STARVATION (R290): After 2^20 cycles without cores, a partition-starvation notice is sent. -/
  | partitionStarvation (ctx stage : Nat)
  /-- VAULT_TEMP_SAMPLE (R294): Every 1,000 ns, a vault's temperature sets its refresh, refill and band. -/
  | vaultTempSample (vault : Nat)
  /-- VAULT_MIGRATE (R296): Every 10,000 ns at 4× refresh, a resident group is moved off the vault. -/
  | vaultMigrate (vault : Nat)
  /-- HOT_PAGE_MOVE (R297): Every 10,000 ns at 4× refresh, a hot stack page is moved. -/
  | hotPageMove (vault : Nat)
  /-- GROUP_EVICT (R200): After 65,536 cycles of waiting, a group is evicted and a replacement placed. -/
  | groupEvict (ctx stage : Nat)
  /-- GROUP_SAVE (R201): Once its effects complete, a leaving group's state is saved and its lanes freed. -/
  | groupSave (g : Nat)
  /-- MIGRATION_TRANSFER (R340): Once its threads are quiet, a migrating group's state moves to the target. -/
  | migrationTransfer (g : Nat)
  /-- PASS_END (R336): A pass is ended: its groups dropped and its threads removed. -/
  | passEnd (ctx stage : Nat)
  /-- PASS_END_RELEASE (R336): Once an ended pass's effects are written, its groups release their resources. -/
  | passEndRelease (ctx stage : Nat)
  /-- ECC_UNCORRECTABLE (R337): An uncorrectable error poisons a register or sector, or is core-fatal. -/
  | eccUncorrectable (core : Nat) (site : EccSite)
  /-- ECC_CORRECTED (R337): A corrected ECC error is counted. -/
  | eccCorrected (core : Nat)
  /-- DROOP_DETECT (R348): Reef detects droop and stretches the cluster clock. -/
  | droopDetect (cluster : Nat)
  /-- DROOP_WINDOW_END (R348): The droop window ends 64 cycles after the supply recovers. -/
  | droopWindowEnd (cluster : Nat)
  /-- DIE_EXPORT (R242): A die exports a write over the die link with its vector clock. -/
  | dieExport (die index : Nat)
  /-- DIE_APPLY (R242): A die applies an exported write once its clock condition holds. -/
  | dieApply (die : Nat) (src : Source)
  /-- CLUSTER_GATE (R345): An IDLE cluster that holds nothing is clock-gated. -/
  | clusterGate (cluster : Nat)
  /-- PAIR_WAKE_DONE (R345): A pair leaving OFF becomes placeable after 20 µs. -/
  | pairWakeDone (pair : Nat)
  /-- CEILING_APPLY (R346): A new effective ceiling takes effect outside a burst. -/
  | ceilingApply (pair : Nat)
  /-- NOTICE_WRITE (R357): A held notice is written once the notice ring has room. -/
  | noticeWrite
  /-- HOST_READ_REQUEST (R352): The host reads device memory over the link. -/
  | hostReadRequest (m : LinkHead)
  /-- HOST_WRITE (R250): A host write is performed at system scope on path H. -/
  | hostWrite (m : LinkHead) (q : Nat) (data : List (BitVec 8))
  /-- DOORBELL (R353): A doorbell advances a queue's tail, and its commands start in ring order. -/
  | doorbell (q : Nat) (tail : BitVec 32)
  /-- READ_COMPLETION (R352): The host returns data for a device read, retried once if poisoned. -/
  | readCompletion (m : LinkHead) (data : List (BitVec 8))
  /-- WRITE_COMPLETION (R352): The host completes a device write. -/
  | writeCompletion (m : LinkHead)
  /-- RESERVED_TYPE_MESSAGE (R352): A message of reserved type is dropped and counted. -/
  | reservedTypeMessage (m : LinkHead)
  /-- DEVICE_RESET (R358): Reset makes the boot ROM verify and start the firmware, or stay in recovery. -/
  | deviceReset (image : Firmware) (boot : BootConfig)
  /-- FIRMWARE_RELOAD (R358): In recovery, queue 0 accepts a firmware reload. -/
  | firmwareReload (image : Firmware) (boot : BootConfig)
  /-- SUBMIT_GRAPH (R267): Command 0x01 checks a frame graph and accepts or rejects it. -/
  | submitGraph (c : Cmd) (addr : BitVec 64)
  /-- END_PASS (R336): Command 0x02 ends a pass. -/
  | endPass (c : Cmd) (ctx stage : Nat)
  /-- END_GRAPH (R285): Command 0x03 ends a graph and its passes. -/
  | endGraph (c : Cmd) (ctx : Nat)
  /-- PREEMPT_PASS (R339): Command 0x04 pre-empts every resident group of a pass. -/
  | preemptPass (c : Cmd) (ctx stage : Nat)
  /-- RESUME_PASS (R339): Command 0x05 re-queues a pre-empted pass. -/
  | resumePass (c : Cmd) (ctx stage : Nat)
  /-- MIGRATE_GROUP (R339): Command 0x06 migrates a group to a target core. -/
  | migrateGroup (c : Cmd) (ctx stage x y z target : Nat)
  /-- ANSWER_RETRY (R334): Answer-notice retry makes the waiting threads ready at pc. -/
  | answerRetry (c : Cmd) (notice : Nat)
  /-- ANSWER_DELIVER (R334): Answer-notice deliver routes the waiting faults to the vector. -/
  | answerDeliver (c : Cmd) (notice : Nat)
  /-- ANSWER_END_PASS (R334): Answer-notice end pass ends the pass. -/
  | answerEndPass (c : Cmd) (notice : Nat)
  /-- RESUME_THREAD (R334): Command 0x08 resumes a parked-host thread, with optional pc and hdr. -/
  | resumeThread (c : Cmd) (core place : Nat) (target : Option (BitVec 32 × BitVec 32))
  /-- TRANSLATION_INVALIDATE (R213): Command 0x09 invalidates translations of a range. -/
  | translationInvalidate (c : Cmd) (space : Nat) (va : BitVec 48) (len : Nat)
  /-- MAP_SYNC (R226): Command 0x0A flushes the residency map caches. -/
  | mapSync (c : Cmd)
  /-- TIER_MOVE_COMMAND (R355): Command 0x0B moves a tensor and writes the token to a result word. -/
  | tierMoveCommand (c : Cmd) (handle tier : BitVec 32) (result : BitVec 64)
  /-- ADD_FRAMES (R317): Command 0x0C adds frames to a tier's pool. -/
  | addFrames (c : Cmd) (tier : Nat) (list : BitVec 64) (count : Nat)
  /-- UNASSIGNED_OPCODE (R57): An instruction word whose opcode is unassigned raises ILLEGAL_OPCODE at issue for each enabled thread, and its record carries the whole word for emulation. -/
  | unassignedOpcode (word : BitVec 64)
  /-- VAULT_CREDIT_REFILL (R294): Each nanosecond a vault's credit gains the refill rate of its band, up to the cap. -/
  | vaultCreditRefill (vault : Nat)
  /-- CLUSTER_CLOCKED_AGAIN (R345): A clock-gated IDLE cluster onto which a group was placed is clocked again within 64 cycles, and its cycle counter resumes. -/
  | clusterClockedAgain (cluster : Nat)
  /-- DROOP_SUPPLY_RECOVERED (R348): The cluster supply recovers from droop, which starts the 64 recovery cycles of the droop window. -/
  | droopSupplyRecovered (cluster : Nat)
  /-- PAGE_MOVE_SWITCH (R214): When a hot page's copy to another vault ends, the translation is switched with an invalidation, and the accesses waiting at the home slice proceed. -/
  | pageMoveSwitch (id : Nat)
  /-- WRITE_PAIR_CONTROL (R344): Write control sets a pair's state or ceiling. -/
  | writePairControl (c : Cmd) (pair : Nat) (value : BitVec 32)
  /-- WRITE_DIE_VOLTAGE (R344): Write control sets a die's voltage. -/
  | writeDieVoltage (c : Cmd) (die : Nat) (value : BitVec 32)
  /-- WRITE_PARTITION_CONTROL (R288): Write control sets a die's partition control word. -/
  | writePartitionControl (c : Cmd) (die : Nat) (value : BitVec 64)
  /-- WRITE_POLICY_TABLE (R347): Write control sets a policy-table entry or the global word. -/
  | writePolicyTable (c : Cmd) (index : Nat) (value : BitVec 16)
  /-- WRITE_COUNTER_CONFIG (R362): Write control configures and clears a counter. -/
  | writeCounterConfig (c : Cmd) (core index : Nat) (value : BitVec 32)
  /-- WRITE_TENSOR_TABLE_SIZE (R355): Write control sets the tensor table size. -/
  | writeTensorTableSize (c : Cmd) (size : Nat)
  /-- READ_STATE_CONTROL_WORD (R355): Read state returns a pair, voltage, partition, policy, counter-configuration or tensor-table-size word. -/
  | readStateControlWord (c : Cmd) (target : ControlWord) (result : BitVec 64)
  /-- READ_STATE_SCOREBOARD (R276): Read state returns a scoreboard entry. -/
  | readStateScoreboard (c : Cmd) (ctx stage res tile : Nat) (result : BitVec 64)
  /-- READ_STATE_MATRIX_HEALTH (R315): Read state returns a core's matrix health word. -/
  | readStateMatrixHealth (c : Cmd) (core : Nat) (result : BitVec 64)
  /-- READ_STATE_COUNTER (R362): Read state returns a counter. -/
  | readStateCounter (c : Cmd) (core index : Nat) (result : BitVec 64)
  /-- READ_STATE_GLOBAL_TIME (R355): Read state returns the global time. -/
  | readStateGlobalTime (c : Cmd) (result : BitVec 64)
  /-- RESET_CORE (R337): Command 0x0F resets a core after a core-fatal error. -/
  | resetCore (c : Cmd) (core : Nat)
  /-- REGISTER_QUEUE (R353): Command 0x10 registers a host queue. -/
  | registerQueue (c : Cmd) (ring : BitVec 64) (size : Nat) (priv : Bool)
  /-- ATTEST (R361): Command 0x11 writes a signed attestation report. -/
  | attest (c : Cmd) (nonce : BitVec 256) (result : BitVec 64)
  /-- ENROL_KEY (R359): Command 0x12 programs an owner key slot. -/
  | enrolKey (c : Cmd) (slot : Nat) (value : BitVec 384)
  /-- REVOKE_KEY (R359): Command 0x13 revokes an owner key slot. -/
  | revokeKey (c : Cmd) (slot : Nat)
  /-- RAISE_ROLLBACK (R359): Command 0x14 raises the fused rollback counter. -/
  | raiseRollback (c : Cmd)
  /-- REGISTER_NOTICE_RING (R357): Command 0x15 registers the notice ring. -/
  | registerNoticeRing (c : Cmd) (ring : BitVec 64) (count : Nat)
  deriving DecidableEq, Repr

end Sys2Proof
end

