-- ==== Sys2Proof/Decode.lean ====
section
/-!
DEFINITION. Decoding and encoding of instruction words (R25, R29-R32, R36, R51-R57, R106, R139, R145, R154, R159).

A word is decoded whatever its fields hold; what the machine makes of a word that breaks R56 or R31 is a
fault at issue (R58), not a failure of the decoder.  Decoding fails, by name, only when there is no word
or when the literal word an operand calls for is not there.
-/

namespace Sys2Proof

/-! ## Fields of a word (R25) -/

def wordHead (w : Wide) (lit : Option Wide) : Head := ⟨w.getLsbD 63, w.extractLsb' 9 4, lit⟩
def wordOpcode (w : Wide) : Nat := (w.extractLsb' 53 10).toNat
def wordMod (w : Wide) : BitVec 9 := w.extractLsb' 0 9
def codeD (w : Wide) : BitVec 10 := w.extractLsb' 43 10
def codeA (w : Wide) : BitVec 10 := w.extractLsb' 33 10
def codeB (w : Wide) : BitVec 10 := w.extractLsb' 23 10
def codeC (w : Wide) : BitVec 10 := w.extractLsb' 13 10

def opWord {μ : Type} (f : BitVec 9 → μ) (w : Wide) (lit : Option Wide) : OpWord μ :=
  ⟨wordHead w lit, f (wordMod w), .ofCode (codeD w), .ofCode (codeA w), .ofCode (codeB w), .ofCode (codeC w)⟩

/-- The immediate of R29 is bits [32:13]. -/
def immWord {μ : Type} (f : BitVec 9 → μ) (w : Wide) (lit : Option Wide) : ImmWord μ :=
  ⟨wordHead w lit, f (wordMod w), .ofCode (codeD w), .ofCode (codeA w), w.extractLsb' 13 20⟩

/-- The offset of R30 is [32:28] above [22:13]; the buffer register is [27:23]. -/
def memWord {μ : Type} (f : BitVec 9 → μ) (w : Wide) (lit : Option Wide) : MemWord μ :=
  ⟨wordHead w lit, f (wordMod w), .ofCode (codeD w), .ofCode (codeA w), w.extractLsb' 23 5,
   w.extractLsb' 28 5 ++ w.extractLsb' 13 10⟩

def rawMemWord {μ : Type} (f : BitVec 9 → μ) (w : Wide) (lit : Option Wide) : RawMemWord μ :=
  ⟨wordHead w lit, f (wordMod w), codeD w, .ofCode (codeA w), w.extractLsb' 23 5,
   w.extractLsb' 28 5 ++ w.extractLsb' 13 10⟩

def timedMemWord {μ : Type} (f : BitVec 9 → μ) (w : Wide) (lit : Option Wide) : TimedMemWord μ :=
  ⟨wordHead w lit, f (wordMod w), .ofCode (codeD w), .ofCode (codeA w), w.extractLsb' 23 5,
   w.extractLsb' 28 5, .ofCode (codeC w)⟩

def copyWord {μ : Type} (f : BitVec 9 → μ) (w : Wide) (lit : Option Wide) : CopyWord μ :=
  ⟨wordHead w lit, f (wordMod w), .ofCode (codeD w), .ofCode (codeA w), w.extractLsb' 23 5,
   w.extractLsb' 28 5, .ofCode (codeC w)⟩

def rawDWord {μ : Type} (f : BitVec 9 → μ) (w : Wide) (lit : Option Wide) : RawDWord μ :=
  ⟨wordHead w lit, f (wordMod w), codeD w, .ofCode (codeA w), .ofCode (codeB w), .ofCode (codeC w)⟩

def rawAWord {μ : Type} (f : BitVec 9 → μ) (w : Wide) (lit : Option Wide) : RawAWord μ :=
  ⟨wordHead w lit, f (wordMod w), .ofCode (codeD w), codeA w, .ofCode (codeB w), .ofCode (codeC w)⟩

def rawBWord {μ : Type} (f : BitVec 9 → μ) (w : Wide) (lit : Option Wide) : RawBWord μ :=
  ⟨wordHead w lit, f (wordMod w), .ofCode (codeD w), .ofCode (codeA w), codeB w, .ofCode (codeC w)⟩

/-! ## The opcode map (R52) -/

/-- The instruction of a word, with the literal word that follows it, if any. -/
def decodeWith (w : Wide) (lit : Option Wide) : Instr :=
  match wordOpcode w with
  | 0x000 => .nop (opWord .ofBits w lit)
  | 0x010 => if (ModIN.ofBits (wordMod w)).imm then .iaddImm (immWord .ofBits w lit) else .iadd (opWord .ofBits w lit)
  | 0x011 => if (ModIN.ofBits (wordMod w)).imm then .isubImm (immWord .ofBits w lit) else .isub (opWord .ofBits w lit)
  | 0x012 => if (ModIN.ofBits (wordMod w)).imm then .imulImm (immWord .ofBits w lit) else .imul (opWord .ofBits w lit)
  | 0x013 => if (ModIN.ofBits (wordMod w)).imm then .imulhiImm (immWord .ofBits w lit) else .imulhi (opWord .ofBits w lit)
  | 0x014 => .imad (opWord .ofBits w lit)
  | 0x015 => .iaddc (opWord .ofBits w lit)
  | 0x016 => .isubc (opWord .ofBits w lit)
  | 0x017 => if (ModIN.ofBits (wordMod w)).imm then .iminImm (immWord .ofBits w lit) else .imin (opWord .ofBits w lit)
  | 0x018 => if (ModIN.ofBits (wordMod w)).imm then .imaxImm (immWord .ofBits w lit) else .imax (opWord .ofBits w lit)
  | 0x019 => .iabs (opWord .ofBits w lit)
  | 0x01A => .ineg (opWord .ofBits w lit)
  | 0x020 => if (ModIN.ofBits (wordMod w)).imm then .andImm (immWord .ofBits w lit) else .and (opWord .ofBits w lit)
  | 0x021 => if (ModIN.ofBits (wordMod w)).imm then .orImm (immWord .ofBits w lit) else .or (opWord .ofBits w lit)
  | 0x022 => if (ModIN.ofBits (wordMod w)).imm then .xorImm (immWord .ofBits w lit) else .xor (opWord .ofBits w lit)
  | 0x023 => if (ModIN.ofBits (wordMod w)).imm then .andnImm (immWord .ofBits w lit) else .andn (opWord .ofBits w lit)
  | 0x024 => .not (opWord .ofBits w lit)
  | 0x025 => if (ModIN.ofBits (wordMod w)).imm then .shlImm (immWord .ofBits w lit) else .shl (opWord .ofBits w lit)
  | 0x026 => if (ModIN.ofBits (wordMod w)).imm then .shrImm (immWord .ofBits w lit) else .shr (opWord .ofBits w lit)
  | 0x027 => if (ModIN.ofBits (wordMod w)).imm then .rotlImm (immWord .ofBits w lit) else .rotl (opWord .ofBits w lit)
  | 0x028 => if (ModIN.ofBits (wordMod w)).imm then .bfextImm (immWord .ofBits w lit) else .bfext (opWord .ofBits w lit)
  | 0x029 => .bfins (opWord .ofBits w lit)
  | 0x02A => .popc (opWord .ofBits w lit)
  | 0x02B => .clz (opWord .ofBits w lit)
  | 0x02C => .brev (opWord .ofBits w lit)
  | 0x02D => .sel (opWord .ofBits w lit)
  | 0x02E => if (ModIN.ofBits (wordMod w)).imm then .movImm (immWord .ofBits w lit) else .mov (opWord .ofBits w lit)
  | 0x02F => .lea (opWord .ofBits w lit)
  | 0x030 => if (ModCM.ofBits (wordMod w)).imm then .icmpImm (immWord .ofBits w lit) else .icmp (opWord .ofBits w lit)
  | 0x031 => .fcmp (opWord .ofBits w lit)
  | 0x032 => .pand (opWord .ofBits w lit)
  | 0x033 => .por (opWord .ofBits w lit)
  | 0x034 => .pxor (opWord .ofBits w lit)
  | 0x035 => .pnot (opWord .ofBits w lit)
  | 0x036 => .pmov (opWord .ofBits w lit)
  | 0x038 => match Operand.ofCode (codeA w) with
    | .k _ => .ksetCopy (opWord .ofBits w lit)
    | _ => .kset (opWord .ofBits w lit)
  | 0x039 => .kget (opWord .ofBits w lit)
  | 0x040 => .fadd (opWord .ofBits w lit)
  | 0x041 => .fsub (opWord .ofBits w lit)
  | 0x042 => .fmul (opWord .ofBits w lit)
  | 0x043 => .ffma (opWord .ofBits w lit)
  | 0x044 => .fmin (opWord .ofBits w lit)
  | 0x045 => .fmax (opWord .ofBits w lit)
  | 0x046 => .fabs (opWord .ofBits w lit)
  | 0x047 => .fneg (opWord .ofBits w lit)
  | 0x048 => .frcp (opWord .ofBits w lit)
  | 0x049 => .frsq (opWord .ofBits w lit)
  | 0x04A => .fsqrt (opWord .ofBits w lit)
  | 0x04B => .fdiv (opWord .ofBits w lit)
  | 0x04C => .fexp2 (opWord .ofBits w lit)
  | 0x04D => .flog2 (opWord .ofBits w lit)
  | 0x04E => .fsin (opWord .ofBits w lit)
  | 0x04F => .fcos (opWord .ofBits w lit)
  | 0x050 => .ffrac (opWord .ofBits w lit)
  | 0x051 => .frnd (opWord .ofBits w lit)
  | 0x052 => .fclamp (opWord .ofBits w lit)
  | 0x053 => .fscale (opWord .ofBits w lit)
  | 0x060 => .cvtf (opWord .ofBits w lit)
  | 0x061 => .cvti (opWord .ofBits w lit)
  | 0x062 => .qnt (opWord .ofBits w lit)
  | 0x063 => .dqnt (opWord .ofBits w lit)
  | 0x064 => .sclx (opWord .ofBits w lit)
  | 0x065 => .sclenc (opWord .ofBits w lit)
  | 0x066 => .dot8 (opWord .ofBits w lit)
  | 0x067 => .dot4 (opWord .ofBits w lit)
  | 0x068 => .hpack (opWord .ofBits w lit)
  | 0x069 => .hunpk (opWord .ofBits w lit)
  | 0x100 => .ld (memWord .ofBits w lit)
  | 0x101 => .st (memWord .ofBits w lit)
  | 0x102 => .ldro (memWord .ofBits w lit)
  | 0x103 => .smp (memWord .ofBits w lit)
  | 0x104 => .smpl (memWord .ofBits w lit)
  | 0x105 => .ldbr (rawMemWord .ofBits w lit)
  | 0x106 => .pref (memWord .ofBits w lit)
  | 0x107 => .resh (memWord .ofBits w lit)
  | 0x108 => .aadd (memWord .ofBits w lit)
  | 0x109 => .amin (memWord .ofBits w lit)
  | 0x10A => .amax (memWord .ofBits w lit)
  | 0x10B => .aand (memWord .ofBits w lit)
  | 0x10C => .aor (memWord .ofBits w lit)
  | 0x10D => .axor (memWord .ofBits w lit)
  | 0x10E => .axchg (memWord .ofBits w lit)
  | 0x10F => .acas (memWord .ofBits w lit)
  | 0x110 => .redadd (memWord .ofBits w lit)
  | 0x111 => .redmin (memWord .ofBits w lit)
  | 0x112 => .redmax (memWord .ofBits w lit)
  | 0x113 => .redand (memWord .ofBits w lit)
  | 0x114 => .redor (memWord .ofBits w lit)
  | 0x115 => .redxor (memWord .ofBits w lit)
  | 0x118 => if (ModWA.ofBits (wordMod w)).timed then .waitaTo (timedMemWord .ofBits w lit) else .waita (memWord .ofBits w lit)
  | 0x119 => .fence (opWord .ofBits w lit)
  | 0x11A => .xfence (opWord .ofBits w lit)
  | 0x120 => .cpy1 (copyWord .ofBits w lit)
  | 0x121 => .cpy2 (copyWord .ofBits w lit)
  | 0x122 => .spwf (opWord .ofBits w lit)
  | 0x123 => .qpush (opWord .ofBits w lit)
  | 0x124 => .qpop (opWord .ofBits w lit)
  | 0x125 => .tmove (opWord .ofBits w lit)
  | 0x1C0 => .shfi (opWord .ofBits w lit)
  | 0x1C1 => .shfx (opWord .ofBits w lit)
  | 0x1C2 => .shfu (opWord .ofBits w lit)
  | 0x1C3 => .shfd (opWord .ofBits w lit)
  | 0x1C4 => .ballot (opWord .ofBits w lit)
  | 0x1C5 => .vote (opWord .ofBits w lit)
  | 0x1C6 => .elect (opWord .ofBits w lit)
  | 0x1C7 => .lred (opWord .ofBits w lit)
  | 0x200 => .mxldb (opWord .ofBits w lit)
  | 0x201 => .mxop (opWord .ofBits w lit)
  | 0x202 => .mxq (opWord .ofBits w lit)
  | 0x203 => .mxdrop (opWord .ofBits w lit)
  | 0x210 => .fwork (opWord .ofBits w lit)
  | 0x218 => .tlacq (rawDWord .ofBits w lit)
  | 0x219 => .tldone (opWord .ofBits w lit)
  | 0x21A => .tlrd (rawDWord .ofBits w lit)
  | 0x21B => .tlrel (opWord .ofBits w lit)
  | 0x220 => .occstep (rawBWord .ofBits w lit)
  | 0x221 => .hgrid (rawBWord .ofBits w lit)
  | 0x222 => .rbox (opWord .ofBits w lit)
  | 0x223 => .rtri (opWord .ofBits w lit)
  | 0x224 => .rhit (opWord .ofBits w lit)
  | 0x280 => .br (opWord .ofBits w lit)
  | 0x281 => .call (opWord .ofBits w lit)
  | 0x282 => .ret (opWord .ofBits w lit)
  | 0x283 => .jmpi (opWord .ofBits w lit)
  | 0x284 => .calli (opWord .ofBits w lit)
  | 0x285 => .exit (opWord .ofBits w lit)
  | 0x288 => .trap (opWord .ofBits w lit)
  | 0x289 => .trapret (opWord .ofBits w lit)
  | 0x28A => .brk (opWord .ofBits w lit)
  | 0x290 => .sysrd (rawAWord .ofBits w lit)
  | 0x291 =>
    if codeD w = 0x001 then .memStatusClear (rawDWord .ofBits w lit)
    else if 0x030 ≤ (codeD w).toNat ∧ (codeD w).toNat < 0x040 then .cntCfgWrite (rawDWord .ofBits w lit)
    else .syswr (rawDWord .ofBits w lit)
  | 0x292 => .cntrd (opWord .ofBits w lit)
  | 0x293 => .clkrd (opWord .ofBits w lit)
  | 0x2C0 => .segset (rawDWord .ofBits w lit)
  | 0x2C1 => .banksw (opWord .ofBits w lit)
  | 0x2C2 => .halt (opWord .ofBits w lit)
  | _ => .unassignedOpcode w

/-! ## How each operand field is used (R106, R139, R145, R151, R154, R159) -/

/-- What an operand field must hold. -/
inductive Role where
  /-- Must hold 0x000 (R28). -/
  | unused
  /-- Not an operand code, and not checked as one: part of an immediate, an offset or a buffer index. -/
  | part
  /-- A raw number below the bound (R106, R154, R159). -/
  | rawBelow (bound : Nat)
  /-- A system register number (R148). -/
  | sysNumber
  /-- Any readable code but k; with `wide`, a 64-bit value (R16). -/
  | src (wide : Bool)
  /-- A v, s or p destination. -/
  | dst (wide : Bool)
  /-- A v or s register. -/
  | reg (wide : Bool)
  | predSrc
  | predDst
  /-- A lane set (R32). -/
  | lanes
  /-- The destination of `ballot`: a k code, or a v register whose index is a multiple of 4. -/
  | laneDst
  /-- The destination of `kset`: a k code (R139). -/
  | setDst
  /-- n consecutive v registers from an index that is a multiple of `align`. -/
  | run (n align : Nat)
  /-- A completion token s0-s15 (R19). -/
  | token
  /-- A v, s or distance code (R70). -/
  | target
  /-- Only the literal (R70). -/
  | onlyLiteral
  deriving DecidableEq, Repr

/-- Whether the rule of the instruction reads the field as an operand code (R36). -/
def Role.isCode : Role → Bool
  | .unused | .part | .rawBelow _ | .sysNumber => false
  | _ => true

/-- A field of an instruction word: its role and the 10 bits it holds. -/
structure Field where
  role : Role
  code : BitVec 10
  deriving DecidableEq, Repr

/-- An instruction word as the issue stage sees it: its head and its four operand fields. -/
structure View where
  h : Head
  d : Field
  a : Field
  b : Field
  c : Field
  deriving DecidableEq, Repr

def OpWord.view {μ : Type} (w : OpWord μ) (d a b c : Role) : View :=
  ⟨w.h, ⟨d, w.d.code⟩, ⟨a, w.a.code⟩, ⟨b, w.b.code⟩, ⟨c, w.c.code⟩⟩
def ImmWord.view {μ : Type} (w : ImmWord μ) (d a : Role) : View :=
  ⟨w.h, ⟨d, w.d.code⟩, ⟨a, w.a.code⟩, ⟨.part, w.imm.extractLsb' 10 10⟩, ⟨.part, w.imm.extractLsb' 0 10⟩⟩
def MemWord.view {μ : Type} (w : MemWord μ) (d a : Role) : View :=
  ⟨w.h, ⟨d, w.d.code⟩, ⟨a, w.a.code⟩, ⟨.part, w.off.extractLsb' 10 5 ++ w.buf⟩, ⟨.part, w.off.extractLsb' 0 10⟩⟩
def RawMemWord.view {μ : Type} (w : RawMemWord μ) (d a : Role) : View :=
  ⟨w.h, ⟨d, w.d⟩, ⟨a, w.a.code⟩, ⟨.part, w.off.extractLsb' 10 5 ++ w.buf⟩, ⟨.part, w.off.extractLsb' 0 10⟩⟩
def TimedMemWord.view {μ : Type} (w : TimedMemWord μ) (d a c : Role) : View :=
  ⟨w.h, ⟨d, w.d.code⟩, ⟨a, w.a.code⟩, ⟨.part, w.off ++ w.buf⟩, ⟨c, w.c.code⟩⟩
def CopyWord.view {μ : Type} (w : CopyWord μ) (d a c : Role) : View :=
  ⟨w.h, ⟨d, w.d.code⟩, ⟨a, w.a.code⟩, ⟨.part, w.dst ++ w.src⟩, ⟨c, w.c.code⟩⟩
def RawDWord.view {μ : Type} (w : RawDWord μ) (d a b c : Role) : View :=
  ⟨w.h, ⟨d, w.d⟩, ⟨a, w.a.code⟩, ⟨b, w.b.code⟩, ⟨c, w.c.code⟩⟩
def RawAWord.view {μ : Type} (w : RawAWord μ) (d a b c : Role) : View :=
  ⟨w.h, ⟨d, w.d.code⟩, ⟨a, w.a⟩, ⟨b, w.b.code⟩, ⟨c, w.c.code⟩⟩
def RawBWord.view {μ : Type} (w : RawBWord μ) (d a b c : Role) : View :=
  ⟨w.h, ⟨d, w.d.code⟩, ⟨a, w.a.code⟩, ⟨b, w.b⟩, ⟨c, w.c.code⟩⟩

/-- A type code whose values are 64 bits wide (R54, R109). -/
def wideType (t : BitVec 4) : Bool := t = 3 || t = 7

/-- The destination of a load of a type (R109). -/
def loadDst (t : BitVec 4) : Role := if t = 11 then .run 4 4 else .dst (wideType t)

/-- The data source of a store of a type (R109). -/
def storeSrc (t : BitVec 4) : Role := if t = 11 then .run 4 4 else .src (wideType t)

/-- The role of a field that `imm` turns into a part of the immediate (R29, R58 step 5). -/
def immPart (imm : Bool) (r : Role) : Role := if imm then .part else r

/-- The view of an instruction word; none for the steps that are no instruction words and for an
unassigned opcode, none of whose fields is an operand code (R36, R57). -/
def Instr.view : Instr → Option View
  | .nop w => some (w.view .unused .unused .unused .unused)
  | .iadd w => some (w.view (.dst w.m.w) (.src w.m.w) (.src w.m.w) .unused)
  | .iaddImm w => some (w.view (.dst w.m.w) (.src w.m.w))
  | .isub w => some (w.view (.dst w.m.w) (.src w.m.w) (.src w.m.w) .unused)
  | .isubImm w => some (w.view (.dst w.m.w) (.src w.m.w))
  | .imul w => some (w.view (.dst w.m.w) (.src w.m.w) (.src w.m.w) .unused)
  | .imulImm w => some (w.view (.dst w.m.w) (.src w.m.w))
  | .imulhi w => some (w.view (.dst w.m.w) (.src w.m.w) (.src w.m.w) .unused)
  | .imulhiImm w => some (w.view (.dst w.m.w) (.src w.m.w))
  | .imad w => some (w.view (.dst w.m.w) (.src w.m.w) (immPart w.m.imm (.src w.m.w)) (immPart w.m.imm (.src w.m.w)))
  | .iaddc w => some (w.view (.dst w.m.w) (.src w.m.w) (immPart w.m.imm (.src w.m.w)) (immPart w.m.imm (.src w.m.w)))
  | .isubc w => some (w.view (.dst w.m.w) (.src w.m.w) (immPart w.m.imm (.src w.m.w)) (immPart w.m.imm (.src w.m.w)))
  | .imin w => some (w.view (.dst w.m.w) (.src w.m.w) (.src w.m.w) .unused)
  | .iminImm w => some (w.view (.dst w.m.w) (.src w.m.w))
  | .imax w => some (w.view (.dst w.m.w) (.src w.m.w) (.src w.m.w) .unused)
  | .imaxImm w => some (w.view (.dst w.m.w) (.src w.m.w))
  | .iabs w => some (w.view (.dst w.m.w) (.src w.m.w) (immPart w.m.imm (.unused)) (immPart w.m.imm (.unused)))
  | .ineg w => some (w.view (.dst w.m.w) (.src w.m.w) (immPart w.m.imm (.unused)) (immPart w.m.imm (.unused)))
  | .and w => some (w.view (.dst w.m.w) (.src w.m.w) (.src w.m.w) .unused)
  | .andImm w => some (w.view (.dst w.m.w) (.src w.m.w))
  | .or w => some (w.view (.dst w.m.w) (.src w.m.w) (.src w.m.w) .unused)
  | .orImm w => some (w.view (.dst w.m.w) (.src w.m.w))
  | .xor w => some (w.view (.dst w.m.w) (.src w.m.w) (.src w.m.w) .unused)
  | .xorImm w => some (w.view (.dst w.m.w) (.src w.m.w))
  | .andn w => some (w.view (.dst w.m.w) (.src w.m.w) (.src w.m.w) .unused)
  | .andnImm w => some (w.view (.dst w.m.w) (.src w.m.w))
  | .not w => some (w.view (.dst w.m.w) (.src w.m.w) (immPart w.m.imm (.unused)) (immPart w.m.imm (.unused)))
  | .shl w => some (w.view (.dst w.m.w) (.src w.m.w) (.src w.m.w) .unused)
  | .shlImm w => some (w.view (.dst w.m.w) (.src w.m.w))
  | .shr w => some (w.view (.dst w.m.w) (.src w.m.w) (.src w.m.w) .unused)
  | .shrImm w => some (w.view (.dst w.m.w) (.src w.m.w))
  | .rotl w => some (w.view (.dst w.m.w) (.src w.m.w) (.src w.m.w) .unused)
  | .rotlImm w => some (w.view (.dst w.m.w) (.src w.m.w))
  | .bfext w => some (w.view (.dst w.m.w) (.src w.m.w) (.src w.m.w) .unused)
  | .bfextImm w => some (w.view (.dst w.m.w) (.src w.m.w))
  | .bfins w => some (w.view (.dst w.m.w) (.src w.m.w) (immPart w.m.imm (.src w.m.w)) (immPart w.m.imm (.src w.m.w)))
  | .popc w => some (w.view (.dst w.m.w) (.src w.m.w) (immPart w.m.imm (.unused)) (immPart w.m.imm (.unused)))
  | .clz w => some (w.view (.dst w.m.w) (.src w.m.w) (immPart w.m.imm (.unused)) (immPart w.m.imm (.unused)))
  | .brev w => some (w.view (.dst w.m.w) (.src w.m.w) (immPart w.m.imm (.unused)) (immPart w.m.imm (.unused)))
  | .sel w => some (w.view (.dst w.m.w) (.src w.m.w) (immPart w.m.imm (.src w.m.w)) (immPart w.m.imm (.src w.m.w)))
  | .mov w => some (w.view (.dst w.m.w) (.src w.m.w) .unused .unused)
  | .movImm w => some (w.view (.dst w.m.w) .unused)
  | .lea w => some (w.view (.dst w.m.w) (.src w.m.w) (immPart w.m.imm (.src w.m.w)) (immPart w.m.imm (.src w.m.w)))
  | .icmp w => some (w.view (.dst false) (.src w.m.w) (.src w.m.w) .unused)
  | .icmpImm w => some (w.view (.dst false) (.src w.m.w))
  | .fcmp w => some (w.view (.dst false) (.src false) (immPart w.m.imm (.src false)) (immPart w.m.imm .unused))
  | .pand w => some (w.view .predDst .predSrc .predSrc .unused)
  | .por w => some (w.view .predDst .predSrc .predSrc .unused)
  | .pxor w => some (w.view .predDst .predSrc .predSrc .unused)
  | .pnot w => some (w.view .predDst .predSrc .unused .unused)
  | .pmov w => some (w.view .predDst .predSrc .unused .unused)
  | .kset w => some (w.view .setDst (.src false) (.src false) .unused)
  | .ksetCopy w => some (w.view .setDst .lanes .unused .unused)
  | .kget w => some (w.view (.dst false) .lanes (.src false) .unused)
  | .fadd w => some (w.view (.dst false) (.src false) (.src false) .unused)
  | .fsub w => some (w.view (.dst false) (.src false) (.src false) .unused)
  | .fmul w => some (w.view (.dst false) (.src false) (.src false) .unused)
  | .ffma w => some (w.view (.dst false) (.src false) (.src false) (.src false))
  | .fmin w => some (w.view (.dst false) (.src false) (.src false) .unused)
  | .fmax w => some (w.view (.dst false) (.src false) (.src false) .unused)
  | .fabs w => some (w.view (.dst false) (.src false) .unused .unused)
  | .fneg w => some (w.view (.dst false) (.src false) .unused .unused)
  | .frcp w => some (w.view (.dst false) (.src false) .unused .unused)
  | .frsq w => some (w.view (.dst false) (.src false) .unused .unused)
  | .fsqrt w => some (w.view (.dst false) (.src false) .unused .unused)
  | .fdiv w => some (w.view (.dst false) (.src false) (.src false) .unused)
  | .fexp2 w => some (w.view (.dst false) (.src false) .unused .unused)
  | .flog2 w => some (w.view (.dst false) (.src false) .unused .unused)
  | .fsin w => some (w.view (.dst false) (.src false) .unused .unused)
  | .fcos w => some (w.view (.dst false) (.src false) .unused .unused)
  | .ffrac w => some (w.view (.dst false) (.src false) .unused .unused)
  | .frnd w => some (w.view (.dst false) (.src false) .unused .unused)
  | .fclamp w => some (w.view (.dst false) (.src false) (.src false) (.src false))
  | .fscale w => some (w.view (.dst false) (.src false) (.src false) .unused)
  | .cvtf w => some (w.view (.dst false) (.src (wideType w.m.src)) .unused .unused)
  | .cvti w => some (w.view (if wideType w.m.dst then .reg true else .dst false) (.src false) .unused .unused)
  | .qnt w => some (w.view (.dst false) (.src false) (.src false) .unused)
  | .dqnt w => some (w.view (.dst false) (.src false) (.src false) .unused)
  | .sclx w => some (w.view (.dst false) (.src false) .unused .unused)
  | .sclenc w => some (w.view (.dst false) (.src false) .unused .unused)
  | .dot8 w => some (w.view (.dst false) (.src false) (.src false) (.src false))
  | .dot4 w => some (w.view (.dst false) (.src false) (.src false) (.src false))
  | .hpack w => some (w.view (.dst false) (.src false) (.src false) .unused)
  | .hunpk w => some (w.view (.dst false) (.src false) (.src false) .unused)
  | .ld w => some (w.view (loadDst w.m.type) (.src false))
  | .st w => some (w.view (storeSrc w.m.type) (.src false))
  | .ldro w => some (w.view (loadDst w.m.type) (.src false))
  | .smp w => some (w.view (loadDst w.m.type) (.src false))
  | .smpl w => some (w.view (.run 2 2) (.run 2 2))
  | .ldbr w => some (w.view (.rawBelow 32) (.src false))
  | .pref w => some (w.view .unused (.src false))
  | .resh w => some (w.view .unused (.src false))
  | .aadd w => some (w.view (.reg (wideType w.m.type)) (.src false))
  | .amin w => some (w.view (.reg (wideType w.m.type)) (.src false))
  | .amax w => some (w.view (.reg (wideType w.m.type)) (.src false))
  | .aand w => some (w.view (.reg (wideType w.m.type)) (.src false))
  | .aor w => some (w.view (.reg (wideType w.m.type)) (.src false))
  | .axor w => some (w.view (.reg (wideType w.m.type)) (.src false))
  | .axchg w => some (w.view (.reg (wideType w.m.type)) (.src false))
  | .acas w => some (w.view (if wideType w.m.type then .run 4 4 else .reg true) (.src false))
  | .redadd w => some (w.view (.src (wideType w.m.type)) (.src false))
  | .redmin w => some (w.view (.src (wideType w.m.type)) (.src false))
  | .redmax w => some (w.view (.src (wideType w.m.type)) (.src false))
  | .redand w => some (w.view (.src (wideType w.m.type)) (.src false))
  | .redor w => some (w.view (.src (wideType w.m.type)) (.src false))
  | .redxor w => some (w.view (.src (wideType w.m.type)) (.src false))
  | .waita w => some (w.view (.src (wideType w.m.type)) (.src false))
  | .waitaTo w => some (w.view (.src (wideType w.m.type)) (.src false) (.src false))
  | .fence w => some (w.view .unused .unused .unused .unused)
  | .xfence w => some (w.view .unused .unused .unused .unused)
  | .cpy1 w => some (w.view (if w.m.arrive then .src false else .token) (.reg true) (.src false))
  | .cpy2 w => some (w.view (if w.m.arrive then .src false else .token) (.reg true) (.src false))
  | .spwf w => some (w.view .unused (.src false) .unused .unused)
  | .qpush w => some (w.view (.src w.m.w) (.src false) .unused .unused)
  | .qpop w => some (w.view (.reg w.m.w) (.src false) .unused .unused)
  | .tmove w => some (w.view .token (.src false) .unused .unused)
  | .shfi w => some (w.view (.dst w.m.w) (.src w.m.w) (.src false) .lanes)
  | .shfx w => some (w.view (.dst w.m.w) (.src w.m.w) (.src false) .lanes)
  | .shfu w => some (w.view (.dst w.m.w) (.src w.m.w) (.src false) .lanes)
  | .shfd w => some (w.view (.dst w.m.w) (.src w.m.w) (.src false) .lanes)
  | .ballot w => some (w.view .laneDst (.src false) .unused .lanes)
  | .vote w => some (w.view (.dst false) (.src false) .unused .lanes)
  | .elect w => some (w.view (.dst false) .unused .unused .lanes)
  | .lred w => some (w.view (.dst w.m.w) (.src w.m.w) .unused .lanes)
  | .mxldb w => some (w.view .token (.src false) (.src false) .unused)
  | .mxop w => some (w.view .token (.src false) .unused .unused)
  | .mxq w => some (w.view (.dst false) (.src false) .unused .unused)
  | .mxdrop w => some (w.view .unused (.src false) .unused .unused)
  | .fwork w => some (w.view .unused (.src false) .unused .unused)
  | .tlacq w => some (w.view (.rawBelow 32) (.src false) (.src false) .unused)
  | .tldone w => some (w.view .unused (.src false) (.src false) .unused)
  | .tlrd w => some (w.view (.rawBelow 32) (.src false) (.src false) .unused)
  | .tlrel w => some (w.view .unused (.src false) (.src false) .unused)
  | .occstep w => some (w.view (.run 4 4) (.run 9 1) (.rawBelow 32) .unused)
  | .hgrid w => some (w.view (.run 2 2) (.run 3 1) (.rawBelow 32) (.src false))
  | .rbox w => some (w.view (.run 2 2) (.run 8 1) (.run 6 1) .unused)
  | .rtri w => some (w.view (.run 4 4) (.run 8 1) (.run 9 1) .unused)
  | .rhit w => some (w.view (.run 4 4) (.run 4 4) (.run 4 4) .unused)
  | .br w => some (w.view .unused .onlyLiteral .unused .unused)
  | .call w => some (w.view (.reg false) .onlyLiteral .unused .unused)
  | .ret w => some (w.view .unused .target .unused .unused)
  | .jmpi w => some (w.view .unused .target .unused .unused)
  | .calli w => some (w.view (.reg false) .target .unused .unused)
  | .exit w => some (w.view .unused .unused .unused .unused)
  | .trap w => some (w.view .unused (.src false) .unused .unused)
  | .trapret w => some (w.view .unused .unused .unused .unused)
  | .brk w => some (w.view .unused (.src false) .unused .unused)
  | .sysrd w => some (w.view (.dst false) .sysNumber .unused .unused)
  | .syswr w => some (w.view .sysNumber (.src false) .unused .unused)
  | .memStatusClear w => some (w.view .sysNumber (.src false) .unused .unused)
  | .cntCfgWrite w => some (w.view .sysNumber (.src false) .unused .unused)
  | .cntrd w => some (w.view (.reg true) (.src false) .unused .unused)
  | .clkrd w => some (w.view (.reg true) (.src false) .unused .unused)
  | .segset w => some (w.view (.rawBelow 8) (.run 4 4) .unused .unused)
  | .banksw w => some (w.view .token (.src false) .unused .unused)
  | .halt w => some (w.view .unused .unused .unused .unused)
  | _ => none

def Field.callsLiteral (f : Field) : Bool := f.role.isCode && f.code = 0x3BF

/-- Whether a literal word follows the instruction word (R36). -/
def Instr.needsLiteral (i : Instr) : Bool :=
  match i.view with
  | some v => v.d.callsLiteral || v.a.callsLiteral || v.b.callsLiteral || v.c.callsLiteral
  | none => false

/-- Why no instruction could be decoded. -/
inductive DecodeError where
  /-- There is no word to decode. -/
  | noWord
  /-- The literal word the instruction calls for is missing (R36). -/
  | literalMissing
  deriving DecidableEq, Repr

/-- Decodes the first instruction of a sequence of 64-bit words, and answers the words after it. -/
def decodeWords : List Wide → Except DecodeError (Instr × List Wide)
  | [] => .error .noWord
  | w :: ws =>
    if (decodeWith w none).needsLiteral then
      match ws with
      | [] => .error .literalMissing
      | l :: rest => .ok (decodeWith w (some l), rest)
    else .ok (decodeWith w none, ws)

/-- The 64-bit words that bytes hold, each word little-endian (R4); a part of a word is dropped. -/
def wordsOfBytes : List Byte → List Wide
  | b0 :: b1 :: b2 :: b3 :: b4 :: b5 :: b6 :: b7 :: rest =>
    (b7 ++ b6 ++ b5 ++ b4 ++ b3 ++ b2 ++ b1 ++ b0) :: wordsOfBytes rest
  | _ => []

/-- Decodes the first instruction that bytes hold. -/
def decodeBytes (bs : List Byte) : Except DecodeError (Instr × List Wide) := decodeWords (wordsOfBytes bs)

/-! ## Encoding (R25) -/

def packHead (h : Head) (opcode : BitVec 10) (d a b c : BitVec 10) (m : BitVec 9) : Wide :=
  BitVec.ofBool h.sw ++ opcode ++ d ++ a ++ b ++ c ++ h.guard ++ m

def OpWord.pack {μ : Type} (w : OpWord μ) (op : BitVec 10) (m : BitVec 9) : Wide :=
  packHead w.h op w.d.code w.a.code w.b.code w.c.code m
def ImmWord.pack {μ : Type} (w : ImmWord μ) (op : BitVec 10) (m : BitVec 9) : Wide :=
  packHead w.h op w.d.code w.a.code (w.imm.extractLsb' 10 10) (w.imm.extractLsb' 0 10) m
def MemWord.pack {μ : Type} (w : MemWord μ) (op : BitVec 10) (m : BitVec 9) : Wide :=
  packHead w.h op w.d.code w.a.code (w.off.extractLsb' 10 5 ++ w.buf) (w.off.extractLsb' 0 10) m
def RawMemWord.pack {μ : Type} (w : RawMemWord μ) (op : BitVec 10) (m : BitVec 9) : Wide :=
  packHead w.h op w.d w.a.code (w.off.extractLsb' 10 5 ++ w.buf) (w.off.extractLsb' 0 10) m
def TimedMemWord.pack {μ : Type} (w : TimedMemWord μ) (op : BitVec 10) (m : BitVec 9) : Wide :=
  packHead w.h op w.d.code w.a.code (w.off ++ w.buf) w.c.code m
def CopyWord.pack {μ : Type} (w : CopyWord μ) (op : BitVec 10) (m : BitVec 9) : Wide :=
  packHead w.h op w.d.code w.a.code (w.dst ++ w.src) w.c.code m
def RawDWord.pack {μ : Type} (w : RawDWord μ) (op : BitVec 10) (m : BitVec 9) : Wide :=
  packHead w.h op w.d w.a.code w.b.code w.c.code m
def RawAWord.pack {μ : Type} (w : RawAWord μ) (op : BitVec 10) (m : BitVec 9) : Wide :=
  packHead w.h op w.d.code w.a w.b.code w.c.code m
def RawBWord.pack {μ : Type} (w : RawBWord μ) (op : BitVec 10) (m : BitVec 9) : Wide :=
  packHead w.h op w.d.code w.a.code w.b w.c.code m

/-- The instruction word of an instruction, from the opcode map (R52); none for a step that is no word. -/
def Instr.word : Instr → Option Wide
  | .nop w => some (w.pack 0x000 w.m.bits)
  | .iadd w => some (w.pack 0x010 w.m.bits)
  | .iaddImm w => some (w.pack 0x010 w.m.bits)
  | .isub w => some (w.pack 0x011 w.m.bits)
  | .isubImm w => some (w.pack 0x011 w.m.bits)
  | .imul w => some (w.pack 0x012 w.m.bits)
  | .imulImm w => some (w.pack 0x012 w.m.bits)
  | .imulhi w => some (w.pack 0x013 w.m.bits)
  | .imulhiImm w => some (w.pack 0x013 w.m.bits)
  | .imad w => some (w.pack 0x014 w.m.bits)
  | .iaddc w => some (w.pack 0x015 w.m.bits)
  | .isubc w => some (w.pack 0x016 w.m.bits)
  | .imin w => some (w.pack 0x017 w.m.bits)
  | .iminImm w => some (w.pack 0x017 w.m.bits)
  | .imax w => some (w.pack 0x018 w.m.bits)
  | .imaxImm w => some (w.pack 0x018 w.m.bits)
  | .iabs w => some (w.pack 0x019 w.m.bits)
  | .ineg w => some (w.pack 0x01A w.m.bits)
  | .and w => some (w.pack 0x020 w.m.bits)
  | .andImm w => some (w.pack 0x020 w.m.bits)
  | .or w => some (w.pack 0x021 w.m.bits)
  | .orImm w => some (w.pack 0x021 w.m.bits)
  | .xor w => some (w.pack 0x022 w.m.bits)
  | .xorImm w => some (w.pack 0x022 w.m.bits)
  | .andn w => some (w.pack 0x023 w.m.bits)
  | .andnImm w => some (w.pack 0x023 w.m.bits)
  | .not w => some (w.pack 0x024 w.m.bits)
  | .shl w => some (w.pack 0x025 w.m.bits)
  | .shlImm w => some (w.pack 0x025 w.m.bits)
  | .shr w => some (w.pack 0x026 w.m.bits)
  | .shrImm w => some (w.pack 0x026 w.m.bits)
  | .rotl w => some (w.pack 0x027 w.m.bits)
  | .rotlImm w => some (w.pack 0x027 w.m.bits)
  | .bfext w => some (w.pack 0x028 w.m.bits)
  | .bfextImm w => some (w.pack 0x028 w.m.bits)
  | .bfins w => some (w.pack 0x029 w.m.bits)
  | .popc w => some (w.pack 0x02A w.m.bits)
  | .clz w => some (w.pack 0x02B w.m.bits)
  | .brev w => some (w.pack 0x02C w.m.bits)
  | .sel w => some (w.pack 0x02D w.m.bits)
  | .mov w => some (w.pack 0x02E w.m.bits)
  | .movImm w => some (w.pack 0x02E w.m.bits)
  | .lea w => some (w.pack 0x02F w.m.bits)
  | .icmp w => some (w.pack 0x030 w.m.bits)
  | .icmpImm w => some (w.pack 0x030 w.m.bits)
  | .fcmp w => some (w.pack 0x031 w.m.bits)
  | .pand w => some (w.pack 0x032 w.m.bits)
  | .por w => some (w.pack 0x033 w.m.bits)
  | .pxor w => some (w.pack 0x034 w.m.bits)
  | .pnot w => some (w.pack 0x035 w.m.bits)
  | .pmov w => some (w.pack 0x036 w.m.bits)
  | .kset w => some (w.pack 0x038 w.m.bits)
  | .ksetCopy w => some (w.pack 0x038 w.m.bits)
  | .kget w => some (w.pack 0x039 w.m.bits)
  | .fadd w => some (w.pack 0x040 w.m.bits)
  | .fsub w => some (w.pack 0x041 w.m.bits)
  | .fmul w => some (w.pack 0x042 w.m.bits)
  | .ffma w => some (w.pack 0x043 w.m.bits)
  | .fmin w => some (w.pack 0x044 w.m.bits)
  | .fmax w => some (w.pack 0x045 w.m.bits)
  | .fabs w => some (w.pack 0x046 w.m.bits)
  | .fneg w => some (w.pack 0x047 w.m.bits)
  | .frcp w => some (w.pack 0x048 w.m.bits)
  | .frsq w => some (w.pack 0x049 w.m.bits)
  | .fsqrt w => some (w.pack 0x04A w.m.bits)
  | .fdiv w => some (w.pack 0x04B w.m.bits)
  | .fexp2 w => some (w.pack 0x04C w.m.bits)
  | .flog2 w => some (w.pack 0x04D w.m.bits)
  | .fsin w => some (w.pack 0x04E w.m.bits)
  | .fcos w => some (w.pack 0x04F w.m.bits)
  | .ffrac w => some (w.pack 0x050 w.m.bits)
  | .frnd w => some (w.pack 0x051 w.m.bits)
  | .fclamp w => some (w.pack 0x052 w.m.bits)
  | .fscale w => some (w.pack 0x053 w.m.bits)
  | .cvtf w => some (w.pack 0x060 w.m.bits)
  | .cvti w => some (w.pack 0x061 w.m.bits)
  | .qnt w => some (w.pack 0x062 w.m.bits)
  | .dqnt w => some (w.pack 0x063 w.m.bits)
  | .sclx w => some (w.pack 0x064 w.m.bits)
  | .sclenc w => some (w.pack 0x065 w.m.bits)
  | .dot8 w => some (w.pack 0x066 w.m.bits)
  | .dot4 w => some (w.pack 0x067 w.m.bits)
  | .hpack w => some (w.pack 0x068 w.m.bits)
  | .hunpk w => some (w.pack 0x069 w.m.bits)
  | .ld w => some (w.pack 0x100 w.m.bits)
  | .st w => some (w.pack 0x101 w.m.bits)
  | .ldro w => some (w.pack 0x102 w.m.bits)
  | .smp w => some (w.pack 0x103 w.m.bits)
  | .smpl w => some (w.pack 0x104 w.m.bits)
  | .ldbr w => some (w.pack 0x105 w.m.bits)
  | .pref w => some (w.pack 0x106 w.m.bits)
  | .resh w => some (w.pack 0x107 w.m.bits)
  | .aadd w => some (w.pack 0x108 w.m.bits)
  | .amin w => some (w.pack 0x109 w.m.bits)
  | .amax w => some (w.pack 0x10A w.m.bits)
  | .aand w => some (w.pack 0x10B w.m.bits)
  | .aor w => some (w.pack 0x10C w.m.bits)
  | .axor w => some (w.pack 0x10D w.m.bits)
  | .axchg w => some (w.pack 0x10E w.m.bits)
  | .acas w => some (w.pack 0x10F w.m.bits)
  | .redadd w => some (w.pack 0x110 w.m.bits)
  | .redmin w => some (w.pack 0x111 w.m.bits)
  | .redmax w => some (w.pack 0x112 w.m.bits)
  | .redand w => some (w.pack 0x113 w.m.bits)
  | .redor w => some (w.pack 0x114 w.m.bits)
  | .redxor w => some (w.pack 0x115 w.m.bits)
  | .waita w => some (w.pack 0x118 w.m.bits)
  | .waitaTo w => some (w.pack 0x118 w.m.bits)
  | .fence w => some (w.pack 0x119 w.m.bits)
  | .xfence w => some (w.pack 0x11A w.m.bits)
  | .cpy1 w => some (w.pack 0x120 w.m.bits)
  | .cpy2 w => some (w.pack 0x121 w.m.bits)
  | .spwf w => some (w.pack 0x122 w.m.bits)
  | .qpush w => some (w.pack 0x123 w.m.bits)
  | .qpop w => some (w.pack 0x124 w.m.bits)
  | .tmove w => some (w.pack 0x125 w.m.bits)
  | .shfi w => some (w.pack 0x1C0 w.m.bits)
  | .shfx w => some (w.pack 0x1C1 w.m.bits)
  | .shfu w => some (w.pack 0x1C2 w.m.bits)
  | .shfd w => some (w.pack 0x1C3 w.m.bits)
  | .ballot w => some (w.pack 0x1C4 w.m.bits)
  | .vote w => some (w.pack 0x1C5 w.m.bits)
  | .elect w => some (w.pack 0x1C6 w.m.bits)
  | .lred w => some (w.pack 0x1C7 w.m.bits)
  | .mxldb w => some (w.pack 0x200 w.m.bits)
  | .mxop w => some (w.pack 0x201 w.m.bits)
  | .mxq w => some (w.pack 0x202 w.m.bits)
  | .mxdrop w => some (w.pack 0x203 w.m.bits)
  | .fwork w => some (w.pack 0x210 w.m.bits)
  | .tlacq w => some (w.pack 0x218 w.m.bits)
  | .tldone w => some (w.pack 0x219 w.m.bits)
  | .tlrd w => some (w.pack 0x21A w.m.bits)
  | .tlrel w => some (w.pack 0x21B w.m.bits)
  | .occstep w => some (w.pack 0x220 w.m.bits)
  | .hgrid w => some (w.pack 0x221 w.m.bits)
  | .rbox w => some (w.pack 0x222 w.m.bits)
  | .rtri w => some (w.pack 0x223 w.m.bits)
  | .rhit w => some (w.pack 0x224 w.m.bits)
  | .br w => some (w.pack 0x280 w.m.bits)
  | .call w => some (w.pack 0x281 w.m.bits)
  | .ret w => some (w.pack 0x282 w.m.bits)
  | .jmpi w => some (w.pack 0x283 w.m.bits)
  | .calli w => some (w.pack 0x284 w.m.bits)
  | .exit w => some (w.pack 0x285 w.m.bits)
  | .trap w => some (w.pack 0x288 w.m.bits)
  | .trapret w => some (w.pack 0x289 w.m.bits)
  | .brk w => some (w.pack 0x28A w.m.bits)
  | .sysrd w => some (w.pack 0x290 w.m.bits)
  | .syswr w => some (w.pack 0x291 w.m.bits)
  | .memStatusClear w => some (w.pack 0x291 w.m.bits)
  | .cntCfgWrite w => some (w.pack 0x291 w.m.bits)
  | .cntrd w => some (w.pack 0x292 w.m.bits)
  | .clkrd w => some (w.pack 0x293 w.m.bits)
  | .segset w => some (w.pack 0x2C0 w.m.bits)
  | .banksw w => some (w.pack 0x2C1 w.m.bits)
  | .halt w => some (w.pack 0x2C2 w.m.bits)
  | .unassignedOpcode w => some w
  | _ => none

/-- The literal word of an instruction, if it carries one. -/
def Instr.literal (i : Instr) : Option Wide := i.view.bind fun v => v.h.lit

/-- The words of an instruction: its word and its literal word (R25, R36). -/
def encode (i : Instr) : List Wide := i.word.toList ++ i.literal.toList

/-- The instruction the decoder reads from bits numbered as spec/opcode_table.json numbers them: the first
64-bit word is bits 63..0, the literal word bits 127..64; the bits above `nbits` are 0. -/
def decodeTableWord (nbits w : Nat) : Option Instr :=
  let n := w % 2 ^ nbits
  match decodeWords [BitVec.ofNat 64 n, BitVec.ofNat 64 (n / 2 ^ 64)] with
  | .ok (i, _) => some i
  | .error _ => none

/-! ## Modifiers the instructions accept (R56) -/

namespace ModFL
def fmtOk (m : ModFL) : Bool := m.fmt ≠ 3 && (!m.x2 || m.fmt ≠ 0) && m.rsv = 0
end ModFL

/-- Whether the modifier passes R56 and the entry of the instruction: no reserved bit, no reserved value,
and nothing the instruction's own rule refuses.  The validity of a named format slot (R89) is a matter of
the pass record and is checked at issue. -/
def Instr.modifierOk : Instr → Bool
  | .nop w => w.m.rsv = 0
  | .iadd w => w.m.rsv = 0
  | .iaddImm w => w.m.rsv = 0
  | .isub w => w.m.rsv = 0
  | .isubImm w => w.m.rsv = 0
  | .imul w => w.m.rsv = 0
  | .imulImm w => w.m.rsv = 0
  | .imulhi w => w.m.rsv = 0 && !w.m.sat
  | .imulhiImm w => w.m.rsv = 0 && !w.m.sat
  | .imad w => w.m.rsv = 0 && !w.m.imm
  | .iaddc w => w.m.rsv = 0 && !w.m.sgn && !w.m.sat && !w.m.imm
  | .isubc w => w.m.rsv = 0 && !w.m.sgn && !w.m.sat && !w.m.imm
  | .imin w => w.m.rsv = 0 && !w.m.sat
  | .iminImm w => w.m.rsv = 0 && !w.m.sat
  | .imax w => w.m.rsv = 0 && !w.m.sat
  | .imaxImm w => w.m.rsv = 0 && !w.m.sat
  | .iabs w => w.m.rsv = 0 && w.m.sgn && !w.m.imm
  | .ineg w => w.m.rsv = 0 && w.m.sgn && !w.m.imm
  | .and w => w.m.rsv = 0 && !w.m.sgn && !w.m.sat
  | .andImm w => w.m.rsv = 0 && !w.m.sgn && !w.m.sat
  | .or w => w.m.rsv = 0 && !w.m.sgn && !w.m.sat
  | .orImm w => w.m.rsv = 0 && !w.m.sgn && !w.m.sat
  | .xor w => w.m.rsv = 0 && !w.m.sgn && !w.m.sat
  | .xorImm w => w.m.rsv = 0 && !w.m.sgn && !w.m.sat
  | .andn w => w.m.rsv = 0 && !w.m.sgn && !w.m.sat
  | .andnImm w => w.m.rsv = 0 && !w.m.sgn && !w.m.sat
  | .not w => w.m.rsv = 0 && !w.m.sgn && !w.m.sat && !w.m.imm
  | .shl w => w.m.rsv = 0 && !w.m.sgn && !w.m.sat
  | .shlImm w => w.m.rsv = 0 && !w.m.sgn && !w.m.sat
  | .shr w => w.m.rsv = 0 && !w.m.sat
  | .shrImm w => w.m.rsv = 0 && !w.m.sat
  | .rotl w => w.m.rsv = 0 && !w.m.sgn && !w.m.sat
  | .rotlImm w => w.m.rsv = 0 && !w.m.sgn && !w.m.sat
  | .bfext w => w.m.rsv = 0 && !w.m.sat
  | .bfextImm w => w.m.rsv = 0 && !w.m.sat
  | .bfins w => w.m.rsv = 0 && !w.m.sgn && !w.m.sat && !w.m.imm
  | .popc w => w.m.rsv = 0 && !w.m.sgn && !w.m.sat && !w.m.imm
  | .clz w => w.m.rsv = 0 && !w.m.sgn && !w.m.sat && !w.m.imm
  | .brev w => w.m.rsv = 0 && !w.m.sgn && !w.m.sat && !w.m.imm
  | .sel w => w.m.rsv = 0 && !w.m.sgn && !w.m.sat && !w.m.imm
  | .mov w => w.m.rsv = 0 && !w.m.sgn && !w.m.sat
  | .movImm w => w.m.rsv = 0 && !w.m.sgn && !w.m.sat
  | .lea w => w.m.rsv = 0 && !w.m.sgn && !w.m.sat && !w.m.imm
  | .icmp w => w.m.cond.toNat < 6 && w.m.fmt = 0 && w.m.rsv = 0
  | .icmpImm w => w.m.cond.toNat < 6 && w.m.fmt = 0 && w.m.rsv = 0
  | .fcmp w => !w.m.sgn && !w.m.w && !w.m.imm && w.m.fmt ≠ 3 && w.m.rsv = 0
  | .pand w => w.m.rsv = 0
  | .por w => w.m.rsv = 0
  | .pxor w => w.m.rsv = 0
  | .pnot w => w.m.rsv = 0
  | .pmov w => w.m.rsv = 0
  | .kset w => w.m.rsv = 0
  | .ksetCopy w => w.m.rsv = 0
  | .kget w => w.m.rsv = 0
  | .fadd w => w.m.fmtOk
  | .fsub w => w.m.fmtOk
  | .fmul w => w.m.fmtOk
  | .ffma w => w.m.fmtOk
  | .fmin w => w.m.fmtOk && w.m.rnd = 0
  | .fmax w => w.m.fmtOk && w.m.rnd = 0
  | .fabs w => w.m.fmtOk && w.m.rnd = 0
  | .fneg w => w.m.fmtOk && w.m.rnd = 0
  | .frcp w => w.m.fmtOk
  | .frsq w => w.m.fmtOk && w.m.rnd = 0
  | .fsqrt w => w.m.fmtOk
  | .fdiv w => w.m.fmtOk
  | .fexp2 w => w.m.fmtOk && w.m.rnd = 0
  | .flog2 w => w.m.fmtOk && w.m.rnd = 0
  | .fsin w => w.m.fmtOk && w.m.rnd = 0
  | .fcos w => w.m.fmtOk && w.m.rnd = 0
  | .ffrac w => w.m.fmtOk && w.m.rnd = 0
  | .frnd w => w.m.fmtOk
  | .fclamp w => w.m.fmtOk && w.m.rnd = 0
  | .fscale w => w.m.fmtOk
  | .cvtf w => w.m.src.toNat ≤ 10 && w.m.dst ≠ 3 && w.m.rsv = 0
  | .cvti w => w.m.src ≠ 3 && w.m.dst.toNat < 8
  | .qnt w => w.m.fmt ≠ 3 && w.m.rsv = 0
  | .dqnt w => w.m.fmt ≠ 3 && w.m.rsv = 0
  | .sclx w => w.m.fmt ≠ 3 && w.m.rsv = 0
  | .sclenc w => w.m.fmt ≠ 3 && w.m.rsv = 0
  | .dot8 w => w.m.rsv = 0
  | .dot4 w => w.m.rsv = 0
  | .hpack w => w.m.rsv = 0
  | .hunpk w => w.m.rsv = 0
  | .ld w => w.m.rsv = 0 && w.m.pol ≠ 3 && w.m.type.toNat ≤ 11
  | .st w => w.m.rsv = 0 && w.m.pol ≠ 3 && w.m.type.toNat ≤ 11
  | .ldro w => w.m.rsv = 0 && w.m.pol ≠ 3 && w.m.type.toNat ≤ 11
  | .smp w => w.m.rsv = 0 && w.m.pol ≠ 3 && !w.m.line && w.m.type.toNat ≤ 10
  | .smpl w => w.m.rsv = 0 && w.m.pol ≠ 3 && !w.m.line && w.m.type.toNat ≤ 10 && !wideType w.m.type
  | .ldbr w => w.m.rsv = 0 && w.m.pol ≠ 3 && !w.m.line && w.m.type = 11
  | .pref w => w.m.rsv = 0 && w.m.pol ≠ 3 && !w.m.line && w.m.type.toNat ≤ 11
  | .resh w => w.m.rsv = 0 && w.m.pol ≠ 3 && !w.m.line && w.m.type.toNat ≤ 11
  | .aadd w => w.m.scope.toNat < 6 && (w.m.type = 2 || w.m.type = 3 || w.m.type = 6 || w.m.type = 7 || w.m.type = 10)
  | .amin w => w.m.scope.toNat < 6 && (w.m.type = 2 || w.m.type = 3 || w.m.type = 6 || w.m.type = 7 || w.m.type = 10)
  | .amax w => w.m.scope.toNat < 6 && (w.m.type = 2 || w.m.type = 3 || w.m.type = 6 || w.m.type = 7 || w.m.type = 10)
  | .aand w => w.m.scope.toNat < 6 && (w.m.type = 2 || w.m.type = 3 || w.m.type = 6 || w.m.type = 7)
  | .aor w => w.m.scope.toNat < 6 && (w.m.type = 2 || w.m.type = 3 || w.m.type = 6 || w.m.type = 7)
  | .axor w => w.m.scope.toNat < 6 && (w.m.type = 2 || w.m.type = 3 || w.m.type = 6 || w.m.type = 7)
  | .axchg w => w.m.scope.toNat < 6 && (w.m.type = 2 || w.m.type = 3 || w.m.type = 6 || w.m.type = 7 || w.m.type = 10)
  | .acas w => w.m.scope.toNat < 6 && (w.m.type = 2 || w.m.type = 3 || w.m.type = 6 || w.m.type = 7)
  | .redadd w => w.m.scope.toNat < 6 && (w.m.type = 2 || w.m.type = 3 || w.m.type = 6 || w.m.type = 7 || w.m.type = 10) && (w.m.ord = 0 || w.m.ord = 2)
  | .redmin w => w.m.scope.toNat < 6 && (w.m.type = 2 || w.m.type = 3 || w.m.type = 6 || w.m.type = 7 || w.m.type = 10) && (w.m.ord = 0 || w.m.ord = 2)
  | .redmax w => w.m.scope.toNat < 6 && (w.m.type = 2 || w.m.type = 3 || w.m.type = 6 || w.m.type = 7 || w.m.type = 10) && (w.m.ord = 0 || w.m.ord = 2)
  | .redand w => w.m.scope.toNat < 6 && (w.m.type = 2 || w.m.type = 3 || w.m.type = 6 || w.m.type = 7) && (w.m.ord = 0 || w.m.ord = 2)
  | .redor w => w.m.scope.toNat < 6 && (w.m.type = 2 || w.m.type = 3 || w.m.type = 6 || w.m.type = 7) && (w.m.ord = 0 || w.m.ord = 2)
  | .redxor w => w.m.scope.toNat < 6 && (w.m.type = 2 || w.m.type = 3 || w.m.type = 6 || w.m.type = 7) && (w.m.ord = 0 || w.m.ord = 2)
  | .waita w => (w.m.type = 2 || w.m.type = 3 || w.m.type = 6 || w.m.type = 7) && w.m.cond.toNat < 6 && w.m.rsv = 0
  | .waitaTo w => (w.m.type = 2 || w.m.type = 3 || w.m.type = 6 || w.m.type = 7) && w.m.cond.toNat < 6 && w.m.rsv = 0
  | .fence w => w.m.scope.toNat < 6 && w.m.ord ≠ 0 && w.m.rsv = 0
  | .xfence w => w.m.scope.toNat < 6 && w.m.src.toNat < 6 && w.m.dst.toNat < 6 && w.m.src ≠ w.m.dst
  | .cpy1 w => w.m.pol ≠ 3 && w.m.rsv = 0
  | .cpy2 w => w.m.pol ≠ 3 && w.m.rsv = 0
  | .spwf w => w.m.rsv = 0
  | .qpush w => 2 ≤ w.m.scope.toNat && w.m.scope.toNat < 6 && w.m.rsv = 0
  | .qpop w => 2 ≤ w.m.scope.toNat && w.m.scope.toNat < 6 && w.m.rsv = 0
  | .tmove w => w.m.tier ≠ 3 && w.m.rsv = 0
  | .shfi w => w.m.op = 0 && !w.m.sgn && w.m.rsv = 0
  | .shfx w => w.m.op = 0 && !w.m.sgn && w.m.rsv = 0
  | .shfu w => w.m.op = 0 && !w.m.sgn && w.m.rsv = 0
  | .shfd w => w.m.op = 0 && !w.m.sgn && w.m.rsv = 0
  | .ballot w => w.m.op = 0 && !w.m.sgn && !w.m.w && w.m.rsv = 0
  | .vote w => w.m.op.toNat < 3 && !w.m.sgn && !w.m.w && w.m.rsv = 0
  | .elect w => w.m.op = 0 && !w.m.sgn && !w.m.w && w.m.rsv = 0
  | .lred w => w.m.op ≠ 7 && (!w.m.sgn || w.m.op = 1 || w.m.op = 2) && (!w.m.w || w.m.op ≠ 6) && w.m.rsv = 0
  | .mxldb w => w.m.rsv = 0
  | .mxop w => w.m.rsv = 0
  | .mxq w => w.m.rsv = 0
  | .mxdrop w => w.m.rsv = 0
  | .fwork w => w.m.rsv = 0
  | .tlacq w => w.m.rsv = 0
  | .tldone w => w.m.rsv = 0
  | .tlrd w => w.m.rsv = 0
  | .tlrel w => w.m.rsv = 0
  | .occstep w => w.m.rsv = 0
  | .hgrid w => w.m.rsv = 0
  | .rbox w => w.m.rsv = 0
  | .rtri w => w.m.rsv = 0
  | .rhit w => w.m.rsv = 0
  | .br w => w.m.rsv = 0
  | .call w => w.m.rsv = 0
  | .ret w => w.m.rsv = 0
  | .jmpi w => w.m.rsv = 0
  | .calli w => w.m.rsv = 0
  | .exit w => w.m.rsv = 0
  | .trap w => w.m.rsv = 0
  | .trapret w => w.m.rsv = 0
  | .brk w => w.m.rsv = 0
  | .sysrd w => w.m.rsv = 0
  | .syswr w => w.m.rsv = 0
  | .memStatusClear w => w.m.rsv = 0
  | .cntCfgWrite w => w.m.rsv = 0
  | .cntrd w => w.m.rsv = 0
  | .clkrd w => w.m.rsv = 0
  | .segset w => w.m.rsv = 0
  | .banksw w => w.m.rsv = 0
  | .halt w => w.m.rsv = 0
  | .unassignedOpcode _ => false
  | _ => true

/-! ## Operand fields against their roles (R15, R16, R19, R28, R31, R32, R106) -/

/-- Whether a system register number is assigned (R148). -/
def sysAssigned (n : Nat) : Bool :=
  n < 2 || (8 ≤ n && n ≤ 0xC) || n = 0x20 || (0x30 ≤ n && n < 0x40)

/-- A v or s register or pair inside the allocation of `regs` v registers (R15, R16). -/
def registerOk (regs : Nat) (wide : Bool) : Operand → Bool
  | .v i => if wide then i.val % 2 = 0 && i.val + 1 < regs else i.val < regs
  | .s i => !wide || i.val % 2 = 0
  | _ => false

/-- A readable source that is no lane set (R31, R32). -/
def sourceOk (regs : Nat) (wide : Bool) (o : Operand) : Bool :=
  match o with
  | .v _ | .s _ => registerOk regs wide o
  | .dist _ | .p _ | .int _ | .flt _ | .special _ | .literal => true
  | .k _ | .reservedLow _ | .reservedHigh _ => false

/-- Whether a field passes step 5 of R58 for a pass that allocates `regs` v registers. -/
def Field.ok (regs : Nat) (f : Field) : Bool :=
  let o := Operand.ofCode f.code
  match f.role with
  | .unused => f.code = 0
  | .part => true
  | .rawBelow n => f.code.toNat < n
  | .sysNumber => sysAssigned f.code.toNat
  | .src wide => sourceOk regs wide o
  | .dst wide => match o with
    | .p _ => true
    | o => registerOk regs wide o
  | .reg wide => registerOk regs wide o
  | .predSrc | .predDst => match o with
    | .p _ => true
    | _ => false
  | .lanes | .setDst => match o with
    | .k _ => true
    | _ => false
  | .laneDst => match o with
    | .k _ => true
    | .v i => i.val % 4 = 0 && i.val + 3 < regs
    | _ => false
  | .run n align => match o with
    | .v i => i.val % align = 0 && i.val + n ≤ regs
    | _ => false
  | .token => match o with
    | .s i => i.val < 16
    | _ => false
  | .target => match o with
    | .v _ | .s _ => registerOk regs false o
    | .dist _ => true
    | _ => false
  | .onlyLiteral => o = .literal

/-! ## Marks of the opcode map (R51-R53) -/

/-- The engine class of a word, from the range of its opcode (R51); none for an unassigned opcode. -/
def Instr.engineClass (i : Instr) : Option Nat :=
  match i with
  | .unassignedOpcode _ => none
  | i => i.word.map fun w =>
    let n := wordOpcode w
    if n < 0x100 then 0 else if n < 0x1C0 then 1 else if n < 0x200 then 2
    else if n < 0x280 then 3 else if n < 0x2C0 then 4 else 5

/-- Mark E: effect instructions (R39, R52, R53). -/
def Instr.isEffect : Instr → Bool
  | .aadd _ | .amin _ | .amax _ | .aand _ | .aor _ | .axor _ | .axchg _ | .acas _
  | .redadd _ | .redmin _ | .redmax _ | .redand _ | .redor _ | .redxor _ | .waita _ | .waitaTo _
  | .fence _ | .xfence _ | .cpy1 _ | .cpy2 _ | .spwf _ | .qpush _ | .qpop _ | .tmove _
  | .mxldb _ | .mxop _ | .mxdrop _ | .fwork _ | .tlacq _ | .tldone _ | .tlrd _ | .tlrel _
  | .segset _ | .banksw _ | .halt _ => true
  | _ => false

/-- Mark T: control instructions that can transfer (R38, R40, R53). -/
def Instr.isTransfer : Instr → Bool
  | .br _ | .call _ | .ret _ | .jmpi _ | .calli _ | .exit _ | .trap _ | .trapret _ | .brk _ => true
  | _ => false

/-- Mark P: privileged instructions (R53, R154). -/
def Instr.isPrivileged : Instr → Bool
  | .segset _ | .banksw _ | .halt _ => true
  | _ => false

end Sys2Proof
end

