-- ==== Sys2Proof/Machine/State.lean ====
section
/-!
DEFINITION. The state of the device as plain data, and the state after device reset.

Everything the spec gives the machine has one home here.  Registers are words; the life of a thread, a group,
a copy or a notice is an inductive type or a structure.  Memory is a strictly ascending list of the bytes
written since reset (`Host.Cell`); an address it does not list has not been written since reset (R364).
-/

namespace Sys2Proof.Machine

/-- Why the machine stops with a fault.  The faults of R331 are not these: they park a thread and the machine
goes on. -/
inductive Fault where
  /-- Raised by a step that names a core, die, vault, pair, cluster or macro the device does not have
  (R1, R287).  Safe: no such step exists. -/
  | noSuchAgent
  deriving DecidableEq, Repr

/-- Why the model refuses an instruction. -/
inductive Refusal where
  /-- Raised by an arm of `exec` that has no meaning yet.  Safe. -/
  | notModelled (mnemonic : String)
  deriving DecidableEq, Repr

/-! ## Threads -/

/-- A write to a register, held until the segment commits (R17). -/
inductive RegWrite where
  | v (i : Nat) (x : Word)
  | s (i : Nat) (x : Word)
  | p (i : Nat) (x : Bool)
  | k (i : Nat) (x : BitVec 128)
  | b (i : Nat) (x : BitVec 128)
  | g (i : Nat) (x : BitVec 128)
  /-- A system register: the value written, and its number (R151). -/
  | sys (n : Nat) (x : Word)
  deriving DecidableEq, Repr

/-- One executed instruction's result in the current segment (R17, R37). -/
structure Result where
  /-- Number in the segment, for a load that returns later. -/
  id     : Nat
  /-- Whether it counts for distances. -/
  counts : Bool
  /-- Whether the data has arrived. -/
  ready  : Bool
  writes : List RegWrite
  /-- The value a distance supplies. -/
  value  : Wide
  deriving DecidableEq, Repr

/-- Where bytes stand: storage of the device by storage address, or the scratchpad of the thread's group. -/
inductive Loc where
  | mem (addr : Nat)
  | pad (offset : Nat)
  deriving DecidableEq, Repr

/-- A store in a store buffer (R110): its bytes at their places, in the order they are performed; `event`
joins the stores of one `.line` event (R113), and `order` is its place among what the device has issued, given
at commit; `keep` and `low` say how its line is placed in L1 (R111); `seen`: a later load on path S has read bytes of it
(R110, R236). -/
structure Store where
  bytes : List (Loc × Byte)
  event : Option Nat
  order : Nat
  keep  : Bool
  low   : Bool
  seen  : Bool
  deriving DecidableEq, Repr

/-- How a load places its value when it returns (R109, R115, R117). -/
inductive LoadKind where
  | plain (d : Operand) (type : Nat)
  | record (b : Nat)
  | sampled (d : Operand) (type : Nat) (status : Word)
  /-- The result was computed at issue (`occstep`, `hgrid`). -/
  | unit (writes : List RegWrite) (value : Wide)
  deriving DecidableEq, Repr

/-- A load whose data has not returned (R110). -/
structure Load where
  id       : Nat
  kind     : LoadKind
  bytes    : List Byte
  /-- First poisoned sector met (R107 order 5), as the va of its first byte read. -/
  poison   : Option Nat
  /-- First byte of a mismatching block (R107 order 6). -/
  mismatch : Option Nat
  /-- Whether the bytes have device virtual addresses, so that a fault on them has a page (R332). -/
  paged    : Bool
  deriving DecidableEq, Repr

inductive AtomicOp where
  | add | min | max | and | or | xor | xchg | cas
  deriving DecidableEq, Repr

/-- The access paths of R9. -/
inductive Path where
  | v | a | m | s | g | h
  deriving DecidableEq, Repr

/-- What a tile instruction asks (R168). -/
inductive TileOp where
  | acquire (b : Nat) | done | open (b : Nat) | release
  deriving DecidableEq, Repr

/-- A copy end: a device virtual address, a ring storage address, or a logical scratchpad offset with the
swizzle of its record (R130). -/
inductive CopyEnd where
  | va (addr : Nat)
  | ring (addr : Nat)
  | pad (offset swizzle : Nat)
  deriving DecidableEq, Repr

/-- A run of bytes still to be copied. -/
structure Move where
  src : CopyEnd
  dst : CopyEnd
  len : Nat
  deriving DecidableEq, Repr

/-- Where completion is reported: a token scalar of a row, or an arrival word (R132). -/
inductive Arrival where
  | token (row s : Nat)
  | word (offset : Nat)
  deriving DecidableEq, Repr

/-- An effect instruction, checked at execution and issued at commit (R39, R194). -/
inductive Effect where
  /-- `pc`, `hdr` name the instruction itself (R123). -/
  | atomic (op : AtomicOp) (type scope ord : Nat) (loc : Loc) (va : Nat) (data new : Wide) (d : Operand)
      (batch : Nat) (pc hdr : Word)
  | reduction (op : AtomicOp) (type scope ord : Nat) (loc : Loc) (va : Nat) (data : Wide) (batch : Nat)
  | wait (type cond : Nat) (loc : Loc) (va : Nat) (cmp : Wide) (timeout : Option Word) (guard : Nat)
      (issued : Nat) (pc hdr : Word)
  | fence (scope ord : Nat)
  | xfence (scope : Nat) (src dst : Path)
  | copy (moves : List Move) (arrival : Arrival)
  | spwf (mask : BitVec 16)
  | push (bank core : Nat) (wide try_ : Bool) (data : Wide) (scope guard : Nat)
  | pop (bank core : Nat) (wide try_ : Bool) (d : Operand) (scope guard : Nat)
  | tmove (row token : Nat) (handle : Word) (tier : Nat)
  | mxldb (row token handle : Nat) (desc : BitVec 128)
  | mxop (row token : Nat) (block : BitVec 512)
  | mxdrop (mask : BitVec 16)
  | fwork (offset : Nat)
  | tile (op : TileOp) (res : Nat) (b : Word) (pc : Word)
  | segset (g : Nat) (x : BitVec 128)
  | banksw (row token : Nat) (request : Word)
  | halt
  deriving DecidableEq, Repr

/-- How a segment ends (R38, R74, R152, R153). -/
inductive Ending where
  | go (pc hdr : Word)
  | exit
  | trap (brk : Bool) (ret data : Word)
  | trapret (at_ : Word)
  deriving DecidableEq, Repr

/-- The thread's uncommitted work (R193). -/
structure Segment where
  startPc  : Word
  startHdr : Word
  results  : List Result
  loads    : List Load
  stores   : List Store
  timeHigh : Option Word
  effect   : Option Effect
  ending   : Option Ending
  /-- A word of the segment ran in a droop window (R197). -/
  suspect  : Bool
  /-- The replay for a check mismatch has been used (R107). -/
  checked  : Bool
  /-- A load of this execution returned a block whose check code is wrong: the segment will be replayed (R107, R197). -/
  missed   : Bool
  /-- The segment is to be executed again: its thread is committing, and selected like a ready one (R197). -/
  again    : Bool
  /-- The segment is a gather segment (R141). -/
  gather   : Bool
  /-- The lanes of the effective masks with which the thread has taken part in cross-lane words, its own included; none
  before the first (R143, R144). -/
  mates    : BitVec 128
  /-- The lanes of the closure in which the thread was issued for a gather segment; none for any other (R144, R192). -/
  closure  : BitVec 128
  /-- Replays for droop in a row (R198). -/
  droops   : Nat
  /-- Held until the cluster has been droop-free for 256 cycles (R198). -/
  held     : Bool
  /-- Numbers of the issue group that executes the segment, and of the unit the thread was selected in
  (R190, R192, R194); 0 for none. -/
  ig       : Nat
  unit     : Nat
  /-- The issue groups of the earlier executions of a segment that is replayed: its lanes still commit in the order of
  each (R194, R198). -/
  past     : List Nat
  /-- Mismatching loads of the executions that replays have replaced: a replay that commits has cleared them (R323,
  R363). -/
  owing    : Nat
  deriving DecidableEq, Repr

def Segment.empty (pc hdr : Word) : Segment :=
  ⟨pc, hdr, [], [], [], none, none, none, false, false, false, false, false, 0, 0, 0, false, 0, 0, [], 0⟩

/-- What a fault notice is keyed by (R332). -/
inductive FaultKey where
  | page (page : Nat)
  | register (t : ThreadRef) (r : RegName)
  | thread (t : ThreadRef)
  deriving DecidableEq, Repr

/-- A fault record (R330, R331). -/
structure Record where
  code      : BitVec 8
  committed : Bool
  pc        : Word
  hdr       : Word
  data0     : Word
  data1     : Word
  key       : Option FaultKey
  deriving DecidableEq, Repr

/-- The states of R185. -/
inductive Status where
  | running | committing | ready | parkedEffect | parkedFault | parkedHost | exited
  deriving DecidableEq, Repr

structure Thread where
  row       : Nat
  lane      : Nat
  v         : List Word
  p         : BitVec 8
  k         : List (BitVec 128)
  /-- Poisoned v, p and k registers (R337). -/
  marks     : List RegName
  status    : Status
  pc        : Word
  hdr       : Word
  seg       : Segment
  /-- Committed stores that have not left the store buffer, oldest first (R110). -/
  buffer    : List Store
  /-- The effect a parked-effect thread waits for (R195). -/
  waiting   : Option Effect
  /-- The pending or delivered record of a parked thread (R330). -/
  record    : Option Record
  /-- The notice the thread waits on (R332). -/
  notice    : Option Nat
  /-- Records of failed reductions that wait for the thread (R123). -/
  late      : List Record
  inHandler : Bool
  memStatus : Word
  faultInfo : Word
  faultPc   : Word
  faultHdr  : Word
  data0     : Word
  data1     : Word
  /-- The split flag of R333. -/
  split     : Bool
  /-- Core cycle at which the thread became ready (R188). -/
  readyAt   : Nat
  /-- A halted or trapret-failed thread's way to resume (R157, R153). -/
  failedRet : Bool
  /-- The engine operations whose completed token or satisfied arrival word the thread has read, so that their
  scratchpad bytes are ordered before its later reads (R133, R163, R249). -/
  saw       : List Nat
  /-- The number of the thread's last commit, among all commits (R17). -/
  commit    : Nat
  /-- The satisfied waiter waits for the slew limiter (R351). -/
  held      : Bool
  /-- The thread's continuation is a `waita` that faulted and is evaluated again when the thread issues (R124, R200). -/
  rewait    : Bool
  deriving DecidableEq, Repr

/-! ## Rows and groups -/

structure Row where
  s     : List Word
  /-- Pending flags of s0-s15 (R19). -/
  pend  : BitVec 16
  /-- Poisoned s registers (R337). -/
  marks : List Nat
  /-- The number of the commit whose value each written s register holds (R17). -/
  held  : List (Nat × Nat)
  deriving DecidableEq, Repr

/-- A tile of a resource that a group holds (R173): the ring records written for it. -/
structure TileHold where
  res      : Nat
  tile     : Nat
  records  : List (BitVec 128)
  acquired : Bool
  opened   : Bool
  released : Bool
  deriving DecidableEq, Repr

/-- The life of a group (R185, R200, R201, R291, R339, R340). -/
inductive Phase where
  /-- Not yet released by the scoreboard (R278). -/
  | undispatched
  /-- Released, in a queue, since the reference cycle given (R291, R292). -/
  | queued (since : Nat)
  /-- Held for a work-fetch request (R299). -/
  | handHeld (request : Nat)
  /-- Handed to the group with this serial (R300). -/
  | handed (to_ : Nat) (mailbox : Nat)
  /-- No longer outstanding: its tiles and references follow (R300). -/
  | handedEnding (to_ : Nat)
  /-- On its core. -/
  | resident
  /-- Leaving its core by eviction or pre-emption (R201, R339). -/
  | saving (preempt : Bool)
  /-- Saved; re-queued since the cycle given (R201, R291). -/
  | saved (since : Nat)
  /-- Held by a pre-emption (R339). -/
  | preempted
  /-- Migrating to a core (R340). -/
  | migrating (target : Nat)
  | retired
  deriving DecidableEq, Repr

/-- One K vector of a matrix operand: the codes of its 256 elements and of the scales of its eight 32-element
groups (R162, R164). -/
structure MxVec where
  elems  : List Nat
  scales : List Nat
  deriving DecidableEq, Repr

/-- A matrix handle record (R160, R310): its descriptor, the format slot the descriptor named, the group that
wrote it last, and the columns held in the macros while the handle is resident. -/
structure Handle where
  desc  : BitVec 128
  slotWord : Wide
  owner : Nat
  image : List MxVec
  deriving DecidableEq, Repr

structure Group where
  serial   : Nat
  ctx      : Nat
  stage    : Nat
  x        : Nat
  y        : Nat
  z        : Nat
  phase    : Phase
  /-- Physical core, when on one. -/
  core     : Option Nat
  /-- Logical core (R327). -/
  lcore    : Option Nat
  /-- Rank of arrival on the core (R190). -/
  arrival  : Nat
  /-- Reference cycle from which every live thread has been parked in `waita` (R200). -/
  idle     : Option Nat
  threads  : List Thread
  rows     : List Row
  b        : List (BitVec 128)
  g        : List (BitVec 128)
  /-- Poisoned b and g registers (R337). -/
  marks    : List RegName
  pad      : List Host.Cell
  /-- Swizzle tag of each 1 KiB (R221). -/
  tags     : List Nat
  /-- Poisoned scratchpad sectors, and the scratchpad blocks whose check code is wrong, by offset, each with the
  difference of its code from that of its bytes (R319, R321). -/
  padPoison    : List Nat
  padSyndromes : List (Nat × BitVec 16)
  banks    : List Nat
  tiles    : List TileHold
  /-- Covered tiles still referenced: resource and tile number (R277). -/
  refs     : List (Nat × Nat)
  /-- Reference cycle of its last placement (R350). -/
  placedAt : Nat
  /-- The handle records that go with a group that has left its core (R311). -/
  carried  : List (Nat × Handle)
  deriving DecidableEq, Repr

/-! ## Passes, resources and graphs -/

/-- A read declaration (R271). -/
structure ReadDecl where
  res     : Nat
  offsets : List (Int × Int)
  deriving DecidableEq, Repr

/-- The life of a pass: open, ordered to end, with its groups dropped and its threads removed, ended (R336). -/
inductive PassLife where
  | open | ordered | stopping | ended
  deriving DecidableEq, Repr

/-- A pass record (R269, R270). -/
structure Pass where
  stage       : Nat
  privileged  : Bool
  persistent  : Bool
  batch       : Bool
  gang        : Bool
  userCounters : Bool
  brkToHost   : Bool
  part        : Nat
  rows        : Nat
  lanes       : Nat
  scratchBanks : Nat
  regs        : Nat
  gridX       : Nat
  gridY       : Nat
  gridZ       : Nat
  originX     : Nat
  originY     : Nat
  trapVector  : Word
  vaultBytes  : Nat
  batchArgs   : Nat
  batchRecBytes : Nat
  batchCount  : Nat
  slots       : List Wide
  segs        : List (BitVec 128)
  bufs        : List (BitVec 128)
  reads       : List ReadDecl
  writes      : List Nat
  preload     : List Word
  /-- First undealt record of a batch pass (R298). -/
  first       : Nat
  failed      : Bool
  life        : PassLife
  preempted   : Bool
  /-- The core an evicted group of the grid leaves to its replacement (R200), while it can still take one. -/
  replaces    : Option Nat
  /-- A starvation notice has been sent (R290, R301). -/
  starved     : Bool
  /-- Reference cycle since which it has waited for cores that its partition does not have (R290). -/
  short       : Option Nat
  /-- The cores a waiting gang has planned (R301). -/
  plan        : List Nat
  deriving DecidableEq, Repr

/-- A resource record (R273) and its ring (R275). -/
structure Resource where
  external    : Bool
  format      : Nat
  swizzle     : Nat
  elemStride  : Nat
  tilesX      : Nat
  tilesY      : Nat
  ringSlots   : Nat
  vault       : Nat
  overflow    : Bool
  threshold   : Nat
  overflowBase  : Nat
  overflowTiles : Nat
  /-- Offset of slot 0 in the ring segment, from the reservation. -/
  ringBase    : Nat
  /-- Free slots and overflow places, ascending. -/
  freeSlots   : List Nat
  freePlaces  : List Nat
  /-- Reference cycle of the last freed place, and whether a stall notice was sent since (R285). -/
  lastFree    : Nat
  noticed     : Bool
  deriving DecidableEq, Repr

/-- The life of a scoreboard entry (R279). -/
inductive TilePhase where
  | free | stalled (since : Nat) | acquired | retiring | retired | freed
  deriving DecidableEq, Repr

/-- A scoreboard entry (R276). -/
structure Entry where
  res        : Nat
  tile       : Nat
  phase      : TilePhase
  retired    : Bool
  poisoned   : Bool
  placed     : Bool
  inOverflow : Bool
  empty      : Bool
  slot       : Nat
  place      : Nat
  readers    : Nat
  /-- The group whose thread acquired the tile. -/
  holder     : Option Nat
  deriving DecidableEq, Repr

/-- A tile operation on its way to the scoreboard (R168). -/
structure TileRequest where
  thread : ThreadRef
  op     : TileOp
  res    : Nat
  b      : Word
  deriving DecidableEq, Repr

structure Graph where
  ctx        : Nat
  queue      : Nat
  /-- Index of the command in its queue, and its `irq` bit. -/
  index      : Nat
  irq        : Bool
  completion : Nat
  passes     : List Pass
  resources  : List Resource
  entries    : List Entry
  requests   : List TileRequest
  endedByHost : Bool
  /-- Each pair's last time in this graph (R349). -/
  lastTimes  : List (Nat × Nat)
  deriving DecidableEq, Repr

/-! ## Cores -/

inductive BankRole where
  | cache | pad | fifo
  deriving DecidableEq, Repr

/-- A push that was accepted before its release was complete (R136): the place of its first entry, its thread and
core, its scope, and its order among what the device has issued. -/
structure PushHold where
  at_    : Nat
  thread : ThreadRef
  core   : Nat
  scope  : Nat
  order  : Nat
  deriving DecidableEq, Repr

structure Bank where
  role    : BankRole
  /-- The group that owns a scratchpad bank (R215). -/
  owner   : Option Nat
  entries : List Word
  /-- Entries that no pop may take before the release of their push is complete (R136). -/
  holds   : List PushHold
  /-- Parked pushers and poppers in the order they reached the bank (R136). -/
  parked  : List ThreadRef
  /-- Entries popped since the bank became a FIFO; entry `i` stands at word `(popped + i) mod 4096` of the bank. -/
  popped  : Nat
  /-- Poisoned 128-byte sectors of a FIFO bank (R319, R337). -/
  bad     : List Nat
  /-- A cache bank that is about to change its role: no line is allocated in it (R216). -/
  leaving : Bool
  deriving DecidableEq, Repr

/-- What the key of a block waiting table entry holds (R186). -/
structure EntryKey where
  ctx   : Nat
  stage : Nat
  addr  : Nat
  deriving DecidableEq, Repr

/-- A block waiting table entry (R186): the members are the threads whose bit is set, each with the core
cycle at which it was set. -/
structure WaitEntry where
  index   : Nat
  key     : EntryKey
  pc      : Word
  hdr     : Word
  members : List (ThreadRef × Nat)
  deriving DecidableEq, Repr

/-- A thread of a core's spill list (R187): the key of its continuation and the core cycle at which its bit was set. -/
structure Spilled where
  thread : ThreadRef
  key    : EntryKey
  since  : Nat
  deriving DecidableEq, Repr

/-- A burst (R191): the entry it was formed from, its issue groups, and the word it issues next to issue group
`turn`. -/
structure Burst where
  key    : EntryKey
  groups : List (List ThreadRef)
  hdr    : Word
  pc     : Word
  /-- The clause header at `hdr` has been checked (R58 step 1). -/
  entered : Bool
  turn   : Nat
  /-- The base of g0 that the burst fetches through. -/
  base   : Nat
  /-- The words of the clause as they were fetched and checked, by code offset (R13, R191). -/
  words  : List (Nat × Wide)
  /-- Threads that a fault of a gather segment parked, each with the data of the LANESET_MISMATCH it gives to threads
  that take part later, and the lanes it has named (R144). -/
  parked : List (ThreadRef × Word × BitVec 128)
  deriving DecidableEq, Repr

/-- What is wrong with a copy of storage (R319-R322): its poisoned 128-byte sectors by address, and its 32-byte blocks
whose check code is wrong, each with the difference (exclusive or) of the code that stands with it from the code of its
bytes.  A block that is not listed has the code of its bytes. -/
structure Flaws where
  poison    : List Nat
  syndromes : List (Nat × BitVec 16)
  deriving DecidableEq, Repr

def Flaws.none : Flaws := ⟨[], []⟩

/-- A line of a path's cache (R247): its first address and its 128 bytes, each with the coherence stamp of the
write it holds, and what was wrong with the sector it was read from (R319, R322).  Scratchpad lines have the addresses
of `padKey`. -/
structure CacheLine where
  line  : Nat
  data  : List (Byte × Nat)
  flaws : Flaws
  deriving DecidableEq, Repr

/-- A line held in L1 (R217): the cache bank that is its way, whether it is kept ahead of other lines, and
whether it was allocated at lowest priority (R111). -/
structure L1Line where
  line : Nat
  bank : Nat
  keep : Bool
  low  : Bool
  deriving DecidableEq, Repr

/-- A sector held in a die's stack cache (R219): its 128-byte sector, and whether it is dirty. -/
structure Sector where
  addr  : Nat
  dirty : Bool
  deriving DecidableEq, Repr

/-- A write that has entered the coherence order (R236): its stamp, the path it was made on, the core that made
it, unless the device or the host did, the addresses it wrote, and the engine operation whose write it is. -/
structure Written where
  stamp : Nat
  path  : Path
  core  : Option Nat
  /-- The threads whose stores or atomics it performs, for the scratchpad. -/
  by_   : List ThreadRef
  addrs : List Nat
  /-- An `xfence` to path V has made it count as a V-path write (R248). -/
  asV   : Bool
  op    : Option Nat
  deriving DecidableEq, Repr

/-- A write of the copy or the matrix engine that other paths need not see yet (R247): its order among all
writes, its operation, the thread that issued it with its core, its bytes, the keys (`padKey`) of all the bytes it wrote,
newer writes of which may have superseded some, and whether they are the operation's data and not those of a piece that
failed (R131). -/
structure Late where
  order : Nat
  path  : Path
  id    : Nat
  by_   : ThreadRef
  core  : Nat
  cells : List (Loc × Byte)
  keys  : List Nat
  sound : Bool
  deriving DecidableEq, Repr

/-- An engine operation whose completion has been reported: the operation, its group, and the token or the arrival word
(R132, R163). -/
structure Reported where
  id    : Nat
  group : Nat
  at_   : Arrival
  deriving DecidableEq, Repr

/-- A flush that a command has yet to make: the command, and the range whose translations leave every TLB (R213), or the map
caches (R226). -/
structure Flush where
  queue : Nat
  index : Nat
  va    : Nat
  len   : Nat
  maps  : Bool
  deriving DecidableEq, Repr

/-- A range entry (R211). -/
structure Range where
  base  : Nat
  len   : Nat
  phys  : Nat
  read  : Bool
  write : Bool
  deriving DecidableEq, Repr

/-- A page TLB entry (R211): page base, log2 of its size, storage address, permissions. -/
structure PageEntry where
  base      : Nat
  bits      : Nat
  phys      : Nat
  read      : Bool
  write     : Bool
  discarded : Bool
  deriving DecidableEq, Repr

/-- The condition of a compute-in-memory array (R309). -/
inductive MacCond where
  | clean | spared | out
  deriving DecidableEq, Repr

structure Mac where
  cond    : MacCond
  fenced  : Nat
  /-- The resident handle whose run includes this array. -/
  holds   : Option Nat
  /-- Order number of the most recent use; 0 for never. -/
  used    : Nat
  /-- Reference cycle of the last operation, load or idle test (R312). -/
  touched : Nat
  /-- The check sums Σall and Σeven of each column, recorded when it was written: for the eight working sub-arrays of
  each column in order (R308). -/
  sums    : List (List (Int × Int))
  /-- Errors in the outputs of sub-arrays, put there by the environment: sub-array, column and the amount added to both
  test outputs (R313). -/
  errors  : List (Nat × Nat × Int)
  deriving DecidableEq, Repr

/-- An operation in a matrix queue (R163). -/
inductive MxWork where
  | load (handle : Nat) (desc : BitVec 128)
  | op (block : BitVec 512)
  | drop (mask : BitVec 16)
  /-- The residency drop of `spwf` (R134). -/
  | unload (mask : BitVec 16)
  deriving DecidableEq, Repr

structure MxItem where
  thread : ThreadRef
  order  : Nat
  token  : Nat
  work   : MxWork
  deriving DecidableEq, Repr

/-- A running matrix operation (R314): its execution's number, whether it has made its handle resident and does
so in this execution, the macros it uses, what it will write to D, whether a droop window met it, the operands
whose check code mismatched now and earlier (0 A, 1 its scales, 2 C, 3 the B source), and a status found at its
start. -/
structure MxRun where
  item     : MxItem
  executions : Nat
  reloaded : Bool
  loads    : Bool
  run      : List Nat
  d        : List (Nat × Word)
  suspect  : Bool
  misses   : List Nat
  missed   : List Nat
  status   : Nat
  deriving DecidableEq, Repr

structure Core where
  cycles    : Wide
  /-- Tenths of a cycle not yet counted. -/
  phase     : Nat
  hintDrops : Word
  cntCfg    : List Word
  counters  : List Wide
  banks     : List Bank
  /-- This core's copy of the roles of all banks: core, bank and role where it is not cache (R135). -/
  roleCopy  : List (Nat × Nat × BankRole)
  /-- L1: bytes held clean and bytes held dirty, by storage address (R217). -/
  l1Clean   : List Host.Cell
  l1Dirty   : List Host.Cell
  /-- The lines L1 holds, oldest first (R111, R217), and what is wrong with them (R319, R322). -/
  l1Lines   : List L1Line
  l1Flaws   : Flaws
  /-- The caches of the read-only path S (R111, R247), of path A for this core's copies, and of path M. -/
  sCache    : List CacheLine
  aCache    : List CacheLine
  mCache    : List CacheLine
  /-- Code lines the core holds, which no store changes (R13). -/
  iCache    : List CacheLine
  ranges    : List Range
  tlb       : List PageEntry
  table     : List WaitEntry
  spill     : List Spilled
  burst     : Option Burst
  /-- The entry chosen for the next burst while the current one issues (R189). -/
  chosen    : Option EntryKey
  /-- Wait table: ordinary and reserved holders, and the refusal queue with the cycle of the last poll (R125). -/
  waits     : List ThreadRef
  reserved  : List ThreadRef
  refused   : List (ThreadRef × Nat)
  handles   : List (Option Handle)
  macs      : List Mac
  mxQueue   : List MxItem
  mxRun     : Option MxRun
  mxUses    : Nat
  testsFailed  : BitVec 16
  reexecutions : BitVec 16
  part      : Nat
  draining  : Bool
  fatal     : Bool
  /-- Core cycle of the last issued instruction (R351). -/
  issued    : Nat
  arrivals  : Nat
  deriving DecidableEq, Repr

/-! ## Dies, vaults, pairs and clusters -/

structure Cluster where
  gated  : Bool
  droop  : Bool
  /-- Cycles of the recovery still to run, once the supply has recovered (R348). -/
  recover : Option Nat
  /-- Core cycle at which the last droop window ended (R198). -/
  quietSince : Nat
  /-- The sensor of R287, in degrees Celsius. -/
  temp   : Int
  deriving DecidableEq, Repr

/-- A pair control word (R344), with the wake deadline of R345. -/
structure Pair where
  state     : Nat
  ceiling   : Nat
  ceilingEff : Nat
  stateEff  : Nat
  shift     : Int
  wakeAt    : Option Nat
  deriving DecidableEq, Repr

structure Vault where
  band       : Nat
  credit     : Nat
  /-- Nanosecond up to which the credit has been refilled (R294). -/
  refilled   : Nat
  sampled    : Nat
  /-- Nanosecond of the last attempt to move a group since the vault is at 4x (R296, R328), of the last group move, and
  of the last page move (R297). -/
  movedGroup : Option Nat
  lastGroup  : Option Nat
  movedPage  : Option Nat
  /-- Stack-cache part in 256 MiB steps (R219). -/
  cacheSteps : Nat
  /-- The addresses of the hot pages that have moved from the vault to another (R297). -/
  movedOut   : List Nat
  deriving DecidableEq, Repr

/-- A write on its way between the dies or from the host (R242): coherence stamps and bytes; whether it clears the poison
mark of a sector that it writes whole (R319); the sectors of which it writes the last bytes of a copy that writes them whole
(R319); and the flaws that travel with its data (R319, R322). -/
structure Export where
  tag    : BitVec 72
  stamp  : Nat
  at_    : Nat
  bytes  : List Host.Cell
  clears : Bool
  ends   : List Nat
  flaws  : Flaws
  deriving DecidableEq, Repr

/-- A destination remap entry (R341). -/
structure Remap where
  group  : Nat
  target : Nat
  held   : Bool
  /-- The copies that were in flight when it was taken. -/
  copies : List Nat
  deriving DecidableEq, Repr

structure Die where
  /-- The bytes at this die's home slices, by storage address: strictly ascending (R218, R236). -/
  mem     : List Host.Cell
  /-- Coherence stamp of the last write of each written byte, strictly ascending by address (R236). -/
  stamps  : List (Nat × Nat)
  /-- What is wrong with the sectors that its home slices hold (R319-R323). -/
  flaws   : Flaws
  clock   : BitVec 72
  /-- Writes performed here and not yet exported, oldest first. -/
  pending : List Export
  /-- Writes exported by each source and not yet applied here. -/
  from_   : List (Source × Export)
  mapCache : List Host.Cell
  /-- Sectors of board and deep memory in this die's half of the stack cache (R219). -/
  sectors  : List Sector
  /-- The 1 KiB lines held there that `resh` has asked to keep, or to give up first (R118). -/
  asked    : List (Nat × Bool)
  remaps  : List Remap
  mv      : Nat
  /-- Reference cycle of the die's last placement or hand-over (R292). -/
  placed  : Option Nat
  /-- The partition whose queue that placement was scanned from, if one was (R292). -/
  drawn   : Option Nat
  /-- How many of the first 16 groups of that queue it took (R292). -/
  drew    : Nat
  minGraphics : Nat
  minCompute  : Nat
  sheet   : Bool
  target  : Nat
  /-- Global time of the last Sheet evaluation (R290). -/
  sheetAt : Nat
  /-- Slew limiter: last cluster admitted, window start and clusters admitted in it (R351). -/
  slewLast : Nat
  slewAt   : Nat
  slewUsed : Nat
  deriving DecidableEq, Repr

/-! ## Engines and requests outside the cores -/

structure Copy where
  id      : Nat
  thread  : ThreadRef
  arrival : Arrival
  todo    : List Move
  /-- The fix-up list, at most 16 pieces, each with its runs and the notice it waits on (R342). -/
  fixups  : List (List Move × Option Nat)
  /-- Failed pieces: destination order number and status (R131, R342). -/
  failed  : List (Nat × Nat)
  moved   : Nat
  bytes   : Nat
  cancelled : Bool
  deriving DecidableEq, Repr

/-- A reduction that has been issued (R123). -/
structure Reduction where
  id     : Nat
  thread : ThreadRef
  core   : Nat
  op     : AtomicOp
  type   : Nat
  scope  : Nat
  ord    : Nat
  loc    : Loc
  va     : Nat
  data   : Wide
  batch  : Nat
  deriving DecidableEq, Repr

/-- Who asked for a tier move (R318). -/
inductive Mover where
  | thread (group row token : Nat) (user : Bool)
  | host (queue index : Nat) (irq : Bool) (result : Nat) (user : Bool)
  deriving DecidableEq, Repr

structure TierMove where
  handle  : Nat
  tier    : Nat
  mover   : Mover
  started : Bool
  /-- Base of the destination range, and the frames taken for it. -/
  dest    : Nat
  frames  : List Nat
  deriving DecidableEq, Repr

structure BankRequest where
  id      : Nat
  group   : Nat
  row     : Nat
  token   : Nat
  request : Word
  /-- How far it has come: 0 not begun, 1 the bank is leaving the cache role, 2 the role has changed and the cores' copies
  of it follow (R216). -/
  stage   : Nat
  deriving DecidableEq, Repr

structure FworkRequest where
  id      : Nat
  group   : Nat
  mailbox : Nat
  deriving DecidableEq, Repr

/-- A hot page on its way to another vault (R214, R297). -/
structure PageMove where
  id    : Nat
  va    : Nat
  src   : Nat
  dst   : Nat
  deriving DecidableEq, Repr

/-! ## The host -/

/-- The payload of a notice (R357). -/
inductive Payload where
  | fault (ctx stage core place code : Nat) (va : Nat)
  | ringStall (ctx res tile : Nat)
  | starvation (stage : Nat)
  | poison (handle : Nat)
  | coreError (core structure_ : Nat) (fatal : Bool)
  | integrity (va : Nat)
  | selfTest (core mac sub cond : Nat)
  | thermal (vault band : Nat)
  | boot (stage reason : Nat)
  deriving DecidableEq, Repr

/-- The host's answers to a fault notice (R334); `resumed` is the resumption of the one thread that waited (log 52). -/
inductive Answer where
  | retry | deliver | endPass | resumed
  deriving DecidableEq, Repr

structure Notice where
  index   : Nat
  payload : Payload
  key     : Option (FaultKey × BitVec 8)
  /-- Written to the ring (R357). -/
  written : Bool
  answer  : Option Answer
  deriving DecidableEq, Repr

/-- A completed or waiting command of a queue (R353, R354). -/
structure CmdStatus where
  index  : Nat
  status : Nat
  deriving DecidableEq, Repr

structure Queue where
  privileged : Bool
  ring       : Wide
  size       : Nat
  tail       : BitVec 32
  /-- Commands begun, commands completed, and the statuses the device has written. -/
  started    : Nat
  completed  : Nat
  statuses   : List CmdStatus
  interrupts : Nat
  deriving DecidableEq, Repr

/-- What a started command still waits for (R354): the end of a pass, its pre-emption, the end of a group's
migration, the end of a graph, or that the threads given hold none of the stores they held (R110) and no write of the host
is still to be applied at a die (R213, R226). -/
inductive CmdWait where
  | passEnded (ctx stage : Nat)
  | preempted (ctx stage : Nat)
  | migrated (group target : Nat)
  | graphEnded (queue index : Nat)
  | storesGone (threads : List ThreadRef)
  deriving DecidableEq, Repr

/-- A started command that has not completed. -/
structure PendingCmd where
  queue : Nat
  index : Nat
  irq   : Bool
  wait  : CmdWait
  deriving DecidableEq, Repr

/-- A waiting graph: queue, command index and parsed graph (R275, R276). -/
structure WaitingGraph where
  queue : Nat
  index : Nat
  graph : Graph
  deriving DecidableEq, Repr

structure KeySlot where
  programmed : Bool
  revoked    : Bool
  value      : BitVec 384
  deriving DecidableEq, Repr

/-- What the scheduler runs next: a word of a core's burst, a step of another agent or a host command, the
passing of a nanosecond, or an input of the world that is no step of the table. Log 3. -/
inductive Action where
  | fetch (core : Nat)
  | event (i : Instr)
  | elapse
  /-- A cluster's sensor reads a new temperature (R287). -/
  | sense (cluster : Nat) (temp : Int)
  /-- A line is brought into L1, the S-path cache or the A-path cache (R217, R247). -/
  | fill (core : Nat) (path : Path) (line : Nat)
  /-- The clean bytes of an L1 line, an S-path line or an A-path line leave their cache (R217, R247). -/
  | evict (core : Nat) (path : Path) (line : Nat)
  /-- A code line is kept by a core, or no longer kept (R13). -/
  | fillCode (core line : Nat)
  | evictCode (core line : Nat)
  /-- The 64-bit word at an offset of a group's segment is read anew into the line that the core holds of it: a code line
  (`code`), or a line of path S (R13, R48, R223). -/
  | refreshWord (core group seg offset : Nat) (code : Bool)
  /-- A core's copy of the role of a bank is brought up to date (R135, R216). -/
  | copyRole (core target bank : Nat)
  /-- The dirty bytes of an L1 line are written back (R217). -/
  | writeBack (core line : Nat)
  /-- The home slice of a die writes the bytes of a line back, and so exports them (R242). -/
  | homeWriteBack (die line : Nat)
  /-- A die's stack cache gives up a sector (R219). -/
  | evictSector (die addr : Nat)
  /-- Engine writes up to the one of this order become visible on every path (R247). -/
  | settleLate (order : Nat)
  /-- A storage sector or a 32-byte block goes bad (R319-R323). -/
  | poisonSector (addr : Nat)
  /-- `error`: what the errors change of the difference between the stored code and the code of the bytes (R321). -/
  | corruptBlock (addr : Nat) (error : BitVec 16)
  /-- The same for the copy of a block in a line that a core's L1 holds. -/
  | corruptLine (core addr : Nat) (error : BitVec 16)
  /-- The same for a scratchpad block of a group, by its offset. -/
  | corruptPad (group offset : Nat) (error : BitVec 16)
  /-- The cause of a mismatch goes: a later read of the block finds its code right again (R323). -/
  | mendBlock (die addr : Nat)
  | mendPad (group offset : Nat)
  /-- A sub-array of a matrix array goes wrong: its output for a column is off by an amount (R313). -/
  | breakSubarray (core mac sub column : Nat) (error : Int)
  /-- The device asks the host for deep-tier bytes, or writes deep-tier bytes back to it (R352). -/
  | linkRead (m : LinkHead)
  | linkWrite (m : LinkHead)
  /-- The host writes its own memory. -/
  | hostMemory (cells : List Host.Cell)
  /-- The command processor reads the next entry of a queue's ring (R353). -/
  | ring (queue : Nat)
  /-- The next entry of a queue has an `op` of 0x00 or 0x16-0xFF (R355). -/
  | unknownCommand (c : Cmd)
  deriving DecidableEq, Repr

structure State where
  /-- Global time counter, nanoseconds (R348). -/
  time      : Wide
  cores     : List Core
  clusters  : List Cluster
  pairs     : List Pair
  dies      : List Die
  vaults    : List Vault
  groups    : List Group
  /-- Active graphs, at most four (R276), and graphs waiting to be accepted. -/
  graphs    : List Graph
  waiting   : List WaitingGraph
  copies    : List Copy
  /-- Engine writes that other paths need not see yet, oldest first (R247). -/
  late      : List Late
  /-- The completions reported, newest first: of a token the last alone (R132, R163). -/
  reported  : List Reported
  reductions : List Reduction
  moves     : List TierMove
  pools     : List (List Nat)
  bankRequests : List BankRequest
  fworks    : List FworkRequest
  pageMoves : List PageMove
  /-- Policy table, bands 0-3, and the global word (R347). -/
  policy    : List (BitVec 16)
  policyGlobal : BitVec 16
  tensorBase  : Nat
  tensorCount : Nat
  deepBytes : Nat
  pageRoot  : Nat
  rangeList : List Range
  notices   : List Notice
  noticeRing : Option (Wide × Nat)
  queues    : List (Option Queue)
  /-- Started commands whose effect is not done (R354). -/
  commands  : List PendingCmd
  /-- The flushes that started commands still owe (R213, R226). -/
  flushes   : List Flush
  /-- Per partition, the group that blocks its queue (R292). -/
  blocks    : List (Option Nat)
  /-- Host physical memory as the link shows it. -/
  hostMem   : List Host.Cell
  /-- Reads and writes the device has asked of the host, and reads answered to the host. -/
  linkReads : List LinkHead
  linkWrites : List LinkHead
  linkReplies : List (LinkHead × List Byte)
  /-- Writes of the host that wait, each with its host queue, in the order the host issued them (R250). -/
  hostHeld  : List (LinkHead × Nat × List Byte)
  /-- Messages dropped for a reserved type (R352, event 24). -/
  dropped   : Wide
  keySlots  : List KeySlot
  rollback  : Nat
  running   : Option Firmware
  bootConfig : Option BootConfig
  /-- The queue, the command index and the last times of ended graphs, newest first (R349). -/
  ended     : List (Nat × Nat × List (Nat × Nat))
  /-- Accesses that reached pages of the stack tier in the last 4,096 ns: their time and the page's storage address (R297). -/
  accesses  : List (Nat × Nat)
  /-- Ring slots and overflow places given to a tile: first byte, length and the number of the giving, newest
  first (R364). -/
  slotGen   : List (Nat × Nat × Nat)
  epoch     : Nat
  stamp     : Nat
  /-- The writes in the coherence order, newest first (R236, R248). -/
  writes    : List Written
  serial    : Nat
  freeCount : Nat
  /-- The core whose burst issues the next instruction word. Log 3. -/
  focus     : Nat
  agenda    : List Action
  deriving DecidableEq, Repr

/-! ## Reset (R7, R215, R288, R344, R347, R348, R362) -/

def Bank.reset : Bank := ⟨.cache, none, [], [], [], 0, [], false⟩
def Mac.reset : Mac := ⟨.clean, 0, none, 0, 0, [], []⟩

def Core.reset : Core where
  cycles := 0
  phase := 0
  hintDrops := 0
  cntCfg := List.replicate 16 0
  counters := List.replicate 16 0
  banks := List.replicate 32 Bank.reset
  roleCopy := []
  l1Clean := []
  l1Dirty := []
  l1Lines := []
  l1Flaws := Flaws.none
  sCache := []
  aCache := []
  mCache := []
  iCache := []
  ranges := []
  tlb := []
  table := []
  spill := []
  burst := none
  chosen := none
  waits := []
  reserved := []
  refused := []
  handles := List.replicate 16 none
  macs := List.replicate 4 Mac.reset
  mxQueue := []
  mxRun := none
  mxUses := 0
  testsFailed := 0
  reexecutions := 0
  part := 0
  draining := false
  fatal := false
  issued := 0
  arrivals := 0

def Cluster.reset : Cluster := ⟨false, false, none, 0, 0⟩
def Pair.reset : Pair := ⟨0, 0, 0, 0, 0, none⟩
/-- R294 states no credit at reset; the cap of band 0 is a DESIGN CHOICE (log 5). -/
def Vault.reset : Vault := ⟨0, 6291456, 0, 0, none, none, none, 2, []⟩

def Die.reset : Die where
  mem := []
  stamps := []
  flaws := Flaws.none
  clock := 0
  pending := []
  from_ := []
  mapCache := []
  sectors := []
  asked := []
  remaps := []
  mv := 850
  placed := none
  drawn := none
  drew := 0
  minGraphics := 0
  minCompute := 0
  sheet := false
  target := 0
  sheetAt := 0
  slewLast := 15
  slewAt := 0
  slewUsed := 0

def KeySlot.reset : KeySlot := ⟨false, false, 0⟩

/-- The device right after reset, before the boot ROM has read an image (R358). -/
def State.reset : State where
  time := 0
  cores := List.replicate 128 Core.reset
  clusters := List.replicate 32 Cluster.reset
  pairs := List.replicate 16 Pair.reset
  dies := [Die.reset, Die.reset]
  vaults := List.replicate 8 Vault.reset
  groups := []
  graphs := []
  waiting := []
  copies := []
  late := []
  reported := []
  reductions := []
  moves := []
  pools := [[], [], []]
  bankRequests := []
  fworks := []
  pageMoves := []
  policy := [0, 0, 0, 0]
  policyGlobal := 0
  tensorBase := 0
  tensorCount := 0
  deepBytes := 0
  pageRoot := 0
  rangeList := []
  notices := []
  noticeRing := none
  queues := List.replicate 16 none
  commands := []
  flushes := []
  blocks := [none, none]
  hostMem := []
  linkReads := []
  linkWrites := []
  linkReplies := []
  hostHeld := []
  dropped := 0
  keySlots := List.replicate 4 KeySlot.reset
  rollback := 0
  running := none
  bootConfig := none
  ended := []
  accesses := []
  slotGen := []
  epoch := 0
  stamp := 0
  writes := []
  serial := 0
  freeCount := 0
  focus := 0
  agenda := []

/-- The poisoned sectors of storage, and the blocks whose stored check code is not the code of their bytes, as either die
holds them (R319, R321). -/
def State.poison (s : State) : List Nat := s.dies.flatMap fun d => d.flaws.poison
def State.mismatch (s : State) : List Nat := s.dies.flatMap fun d => d.flaws.syndromes.map Prod.fst
def Group.padMismatch (g : Group) : List Nat := g.padSyndromes.map Prod.fst

/-! ## The canonical form of memory -/

/-- Addresses strictly rising.  An unlisted byte has not been written since reset, so no listed byte equals
what an unlisted address reads as. -/
def ascending : List Nat → Bool
  | a :: b :: rest => a < b && ascending (b :: rest)
  | _ => true

def Memory.wf (m : List Host.Cell) : Bool := ascending (m.map Prod.fst)

/-- Every memory of the state has the canonical form. -/
def State.memoryWf (s : State) : Bool :=
  s.dies.all (fun d => Memory.wf d.mem && ascending (d.stamps.map Prod.fst)) &&
  s.groups.all (fun g => Memory.wf g.pad) &&
  s.cores.all (fun c => Memory.wf c.l1Clean && Memory.wf c.l1Dirty) &&
  Memory.wf s.hostMem

end Sys2Proof.Machine
end

