-- ==== Sys2Proof/Machine/Ops.lean ====
section
/-!
DEFINITION. The named operations over the state: finding and changing its parts, memory and its caches,
segment registers and translation, the block waiting table, notices, and taking a fault (R330-R334).
-/

namespace Sys2Proof.Machine

/-! ## Parts of the state -/

/-- The outcome type of every step. -/
abbrev Out := Host.Outcome State Fault Refusal

def updCore (s : State) (k : Nat) (f : Core → Core) : State := { s with cores := s.cores.modify k f }
def updDie (s : State) (k : Nat) (f : Die → Die) : State := { s with dies := s.dies.modify k f }
def updVault (s : State) (k : Nat) (f : Vault → Vault) : State := { s with vaults := s.vaults.modify k f }
def updPair (s : State) (k : Nat) (f : Pair → Pair) : State := { s with pairs := s.pairs.modify k f }
def updCluster (s : State) (k : Nat) (f : Cluster → Cluster) : State := { s with clusters := s.clusters.modify k f }

def getCore (s : State) (k : Nat) : Core := s.cores.getD k Core.reset
def getDie (s : State) (k : Nat) : Die := s.dies.getD k Die.reset

/-- A step of core `k`; there are 128 cores (R1). -/
def onCore (s : State) (k : Nat) (f : State → Core → State) : Out :=
  match s.cores[k]? with
  | some c => .next (f s c)
  | none => .fault .noSuchAgent

def findGroup (s : State) (n : Nat) : Option Group := s.groups.find? fun g => g.serial = n
def updGroup (s : State) (n : Nat) (f : Group → Group) : State :=
  { s with groups := s.groups.map fun g => if g.serial = n then f g else g }

def Group.thread (g : Group) (row lane : Nat) : Option Thread :=
  g.threads.find? fun t => t.row = row && t.lane = lane
def Group.updThread (g : Group) (row lane : Nat) (f : Thread → Thread) : Group :=
  { g with threads := g.threads.map fun t => if t.row = row && t.lane = lane then f t else t }
def Group.updRow (g : Group) (row : Nat) (f : Row → Row) : Group := { g with rows := g.rows.modify row f }

def findThread (s : State) (t : ThreadRef) : Option (Group × Thread) :=
  match findGroup s t.group with
  | some g => (g.thread t.row t.lane).map fun th => (g, th)
  | none => none

def updThread (s : State) (t : ThreadRef) (f : Thread → Thread) : State :=
  updGroup s t.group fun g => g.updThread t.row t.lane f

/-- A step of one thread; when there is no such thread the step does not occur. -/
def onThread (s : State) (t : ThreadRef) (f : Group → Thread → State) : Out :=
  match findThread s t with
  | some (g, th) => .next (f g th)
  | none => .next s

def findGraph (s : State) (ctx : Nat) : Option Graph := s.graphs.find? fun g => g.ctx = ctx
def updGraph (s : State) (ctx : Nat) (f : Graph → Graph) : State :=
  { s with graphs := s.graphs.map fun g => if g.ctx = ctx then f g else g }

def findPass (s : State) (ctx stage : Nat) : Option Pass :=
  (findGraph s ctx).bind fun g => g.passes[stage]?
def updPass (s : State) (ctx stage : Nat) (f : Pass → Pass) : State :=
  updGraph s ctx fun g => { g with passes := g.passes.modify stage f }

def updResource (s : State) (ctx res : Nat) (f : Resource → Resource) : State :=
  updGraph s ctx fun g => { g with resources := g.resources.modify res f }
def updEntry (s : State) (ctx res tile : Nat) (f : Entry → Entry) : State :=
  updGraph s ctx fun g =>
    { g with entries := g.entries.map fun e => if e.res = res && e.tile = tile then f e else e }
def Graph.entry (g : Graph) (res tile : Nat) : Option Entry :=
  g.entries.find? fun e => e.res = res && e.tile = tile

/-- Where a core stands (R287). -/
def dieOf (core : Nat) : Nat := core / 64
def clusterOf (core : Nat) : Nat := core / 4
def pairOf (core : Nat) : Nat := clusterOf core / 2
def vaultOf (core : Nat) : Nat := 4 * dieOf core + (core / 4 % 16) % 4

/-- Cycles of the unstretched 2.1 GHz reference since reset (R283). -/
def refCycles (s : State) : Nat := s.time.toNat * 21 / 10

def freshFree (s : State) : State × Wide := ({ s with freeCount := s.freeCount + 1 }, Config.freeValue s.freeCount)

/-! ## Counters (R362, R363) -/

/-- Counts `n` events of a code on a core; `stage` is the stage of the event's thread, if it has one. -/
def bump (s : State) (core event : Nat) (stage : Option Nat) (n : Nat) : State :=
  updCore s core fun c =>
    { c with counters := (c.counters.zip c.cntCfg).map fun (x, cfg) =>
        if (cfg.extractLsb' 0 8).toNat = event && event ≠ 0 && cfg.getLsbD 8 &&
            (!cfg.getLsbD 9 || stage = none || stage = some (cfg.extractLsb' 10 8).toNat)
        then x + BitVec.ofNat 64 n else x }

/-! ## Memory: strictly ascending lists of written bytes -/

def Memory.read : List Host.Cell → Nat → Option Byte
  | [], _ => none
  | (k, b) :: m, a => if k = a then some b else Memory.read m a

def Memory.write : List Host.Cell → Nat → Byte → List Host.Cell
  | [], a, b => [(a, b)]
  | (k, c) :: m, a, b =>
    if a < k then (a, b) :: (k, c) :: m
    else if a = k then (a, b) :: m
    else (k, c) :: Memory.write m a b

def Memory.writeAll (m : List Host.Cell) (cells : List Host.Cell) : List Host.Cell :=
  cells.foldl (fun m c => Memory.write m c.1 c.2) m

/-- Drops the bytes whose address satisfies `p`. -/
def Memory.drop (m : List Host.Cell) (p : Nat → Bool) : List Host.Cell := m.filter fun c => !p c.1

/-- The same for coherence stamps. -/
def Stamps.read : List (Nat × Nat) → Nat → Nat
  | [], _ => 0
  | (k, n) :: m, a => if k = a then n else Stamps.read m a

def Stamps.write : List (Nat × Nat) → Nat → Nat → List (Nat × Nat)
  | [], a, n => [(a, n)]
  | (k, c) :: m, a, n =>
    if a < k then (a, n) :: (k, c) :: m
    else if a = k then (a, n) :: m
    else (k, c) :: Stamps.write m a n

/-- Consecutive cells of a list of bytes. -/
def cellsAt (a : Nat) : List Byte → List Host.Cell
  | [] => []
  | b :: bs => (a, b) :: cellsAt (a + 1) bs

/-! ## Storage addresses (R209, R213)

The storage of tier t (0 stack, 1 board, 2 deep) has addresses t * 2^48 + physical address; the ring segment
of R284 has addresses 3 * 2^48 + offset. -/

def tierBase (t : Nat) : Nat := t * 2 ^ 48
def ringStorage (off : Nat) : Nat := tierBase 3 + off
def stackVa : Nat := 0x1000_0000_0000
def boardVa : Nat := 0x2000_0000_0000
def deepVa : Nat := 0x4000_0000_0000

/-- Bytes of the stack tier: each vault's 4 GiB less its stack-cache part (R209, R219). -/
def stackBytes (s : State) : Nat := (s.vaults.map fun v => 2 ^ 32 - v.cacheSteps * 2 ^ 28).sum

/-- The tier an address lies in, inside the size of the tier (R209). -/
def tierOf (s : State) (va : Nat) : Option Nat :=
  if stackVa ≤ va && va < stackVa + stackBytes s then some 0
  else if boardVa ≤ va && va < boardVa + 2 ^ 36 then some 1
  else if deepVa ≤ va && va < deepVa + s.deepBytes then some 2
  else none

/-- What a byte of storage holds until its first write (R364): a deep-tier byte is the host's, and a ring slot or
overflow place has new unspecified bytes each time it is given to a tile. -/
def baseByte (s : State) (a : Nat) : Byte :=
  match s.slotGen.find? fun r => r.1 ≤ a && a < r.1 + r.2.1 with
  | some r => Config.slotByte r.2.2 (a - r.1)
  | none =>
  if tierBase 2 ≤ a && a < tierBase 3 then
    (Memory.read s.hostMem (a - tierBase 2)).getD (Config.initByte s.epoch a)
  else Config.initByte s.epoch a

/-- A byte as the home slices of die `d` hold it (R218). -/
def homeByte (s : State) (d a : Nat) : Byte := (Memory.read (getDie s d).mem a).getD (baseByte s a)
def homeBytes (s : State) (d a n : Nat) : List Byte := (List.range n).map fun i => homeByte s d (a + i)

/-- Path H at system scope is served from die 0 (DESIGN CHOICE, log 12). -/
def sysBytes (s : State) (a n : Nat) : List Byte := homeBytes s 0 a n

def sectorOf (a : Nat) : Nat := a / 128 * 128
def blockOf (a : Nat) : Nat := a / 32 * 32

/-! ## Check codes (R321) -/

/-- CRC-16 with polynomial 0x8BB7 over one byte, most significant bit first (R321). -/
def crcByte (crc : BitVec 16) (b : Byte) : BitVec 16 :=
  (List.range 8).foldl
    (fun c i => if c.getLsbD 15 != b.getLsbD (7 - i) then (c <<< 1) ^^^ 0x8BB7 else c <<< 1) crc

/-- The check code of an aligned 32-byte block (R321). -/
def checkCode (bytes : List Byte) : BitVec 16 := bytes.foldl crcByte 0

/-- The code stored with a block, as die `d` holds its bytes (R321): a program never sees it. -/
def storedCode (s : State) (d block : Nat) : BitVec 16 :=
  checkCode (homeBytes s d block 32) ^^^ (((getDie s d).flaws.syndromes.find? fun e => e.1 = block).map Prod.snd).getD 0

/-- Errors in a block or in its code change the difference of the two; a difference of 0 is no mismatch. -/
def addSyndrome (l : List (Nat × BitVec 16)) (block : Nat) (e : BitVec 16) : List (Nat × BitVec 16) :=
  let x := e ^^^ ((l.find? fun y => y.1 = block).map Prod.snd).getD 0
  let rest := l.filter fun y => y.1 ≠ block
  if x = 0 then rest else (block, x) :: rest
def dropSyndromes (l : List (Nat × BitVec 16)) (p : Nat → Bool) : List (Nat × BitVec 16) := l.filter fun y => !p y.1

def insertMark (l : List Nat) (n : Nat) : List Nat := if l.contains n then l else n :: l

/-- The blocks and sectors a write covers whole or in part (R322, R319). -/
def coversBlock (cells : List Host.Cell) (size base : Nat) : Bool :=
  (List.range size).all fun i => cells.any fun c => c.1 = base + i

/-! ## Flaws of a copy of storage (R319-R322) -/

/-- Whether a byte lies in a poisoned sector, and whether in a block whose code is wrong. -/
def Flaws.poisoned (f : Flaws) (a : Nat) : Bool := f.poison.contains (sectorOf a)
def Flaws.wrong (f : Flaws) (a : Nat) : Bool := f.syndromes.any fun e => e.1 = blockOf a

/-- The flaws of the sectors where `p` holds. -/
def Flaws.within (f : Flaws) (p : Nat → Bool) : Flaws :=
  ⟨f.poison.filter p, f.syndromes.filter fun e => p (sectorOf e.1)⟩

/-- The flaws that go with bytes to another copy: the marks of the sectors they lie in, and the wrong codes of their own
blocks (R319, R322). -/
def Flaws.carry (f : Flaws) (cells : List Host.Cell) : Flaws :=
  ⟨f.poison.filter fun p => cells.any fun c => sectorOf c.1 = p, f.syndromes.filter fun e => cells.any fun c => blockOf c.1 = e.1⟩

/-- Sectors that have been written whole lose their poison mark (R319). -/
def Flaws.clear (f : Flaws) (sectors : List Nat) : Flaws := { f with poison := f.poison.filter fun p => !sectors.contains p }

/-- Flaws that come to a copy beside those it has. -/
def Flaws.join (f g : Flaws) : Flaws :=
  ⟨g.poison.foldl insertMark f.poison, g.syndromes.foldl (fun l e => e :: dropSyndromes l (· = e.1)) f.syndromes⟩

def Flaws.addPoison (f : Flaws) (a : Nat) : Flaws := { f with poison := insertMark f.poison (sectorOf a) }

/-- The codes of the blocks where `p` holds are right again. -/
def Flaws.mend (f : Flaws) (p : Nat → Bool) : Flaws := { f with syndromes := dropSyndromes f.syndromes p }

/-- What a write makes of a copy's flaws: a partial write to a block with a wrong code poisons its sector, and either way
the block gets a new code (R322); with `clears`, a sector that it covers whole loses its poison mark (R319). -/
def Flaws.write (f : Flaws) (cells : List Host.Cell) (clears : Bool) : Flaws :=
  let blocks := ((f.syndromes.map Prod.fst).filter fun b => cells.any fun c => blockOf c.1 = b).dedup
  let partly := blocks.filter fun b => !coversBlock cells 32 b
  ⟨(partly.foldl (fun l b => insertMark l (sectorOf b)) f.poison).filter fun p => !(clears && coversBlock cells 128 p),
    dropSyndromes f.syndromes blocks.contains⟩

/-- The flaws of the home slices of die `d`. -/
def homeFlaws (s : State) (d : Nat) : Flaws := (getDie s d).flaws

/-- First byte of `n` bytes at `a` in a poisoned sector, and in a mismatching block, at a die's home slices (R319, R321). -/
def poisonAt (s : State) (d a n : Nat) : Option Nat := (List.range n).find? fun i => (homeFlaws s d).poisoned (a + i)
def mismatchAt (s : State) (d a n : Nat) : Option Nat := (List.range n).find? fun i => (homeFlaws s d).wrong (a + i)

/-- The storage behind both dies' home slices changes its flaws. -/
def updFlaws (s : State) (f : Flaws → Flaws) : State := { s with dies := s.dies.map fun d => { d with flaws := f d.flaws } }

/-! ## Performing writes at a home slice, and the die link (R235, R236, R242) -/

/-- A write enters the coherence order, made on a path by a core, or by the device or the host (R236). -/
def logWrite (s : State) (path : Path) (core : Option Nat) (by_ : List ThreadRef) (addrs : List Nat) : State :=
  { s with stamp := s.stamp + 1, writes := ⟨s.stamp + 1, path, core, by_, addrs, false, none⟩ :: s.writes }

/-- Marks the stack-cache sectors of a write to board or deep memory dirty, where they are held (R219). -/
def dirtySectors (l : List Sector) (cells : List Host.Cell) : List Sector :=
  l.map fun x => if cells.any fun c => sectorOf c.1 = x.addr then { x with dirty := true } else x

/-- Accesses to pages of the stack tier are kept for 4,096 ns (R297). -/
def countPages (s : State) (addrs : List Nat) : State :=
  let pages := ((addrs.filter fun a => a < tierBase 1).map fun a => a / 65536 * 65536).dedup
  { s with accesses := pages.map (fun p => (s.time.toNat, p)) ++ s.accesses }

/-- Performs a write at the home slices of die `d`: it enters the coherence order now and waits for export.  With `clears`
it clears the poison of the sectors it covers whole, and in any case of the sectors `ends`, which it completes (R319);
`flaws` come with its data (R319, R322). -/
def performWith (s : State) (d : Nat) (path : Path) (core : Option Nat) (cells : List Host.Cell) (clears : Bool)
    (ends : List Nat) (flaws : Flaws) : State :=
  let s := countPages s (cells.map Prod.fst)
  let n := s.stamp + 1
  let s := logWrite s path core [] (cells.map Prod.fst)
  updDie s d fun die =>
    { die with
      mem := Memory.writeAll die.mem cells
      stamps := cells.foldl (fun m c => Stamps.write m c.1 n) die.stamps
      flaws := ((die.flaws.write cells clears).clear ends).join flaws
      sectors := dirtySectors die.sectors cells
      pending := die.pending ++ [⟨0, n, s.time.toNat, cells, clears, ends, flaws⟩] }

/-- The same for a write of sound data that clears no mark. -/
def performAt (s : State) (d : Nat) (path : Path) (core : Option Nat) (cells : List Host.Cell) : State :=
  performWith s d path core cells false [] Flaws.none

def clockEntry (v : BitVec 72) : Source → BitVec 24
  | .die0 => v.extractLsb' 0 24
  | .die1 => v.extractLsb' 24 24
  | .host => v.extractLsb' 48 24

def setClockEntry (v : BitVec 72) (src : Source) (x : BitVec 24) : BitVec 72 :=
  match src with
  | .die0 => v.extractLsb' 24 48 ++ x
  | .die1 => v.extractLsb' 48 24 ++ x ++ v.extractLsb' 0 24
  | .host => x ++ v.extractLsb' 0 48

def sourceOfDie (d : Nat) : Source := if d = 0 then .die0 else .die1

/-- a ≥ b modulo 2^24 (R242). -/
def clockGe (a b : BitVec 24) : Bool := (a - b).toNat < 2 ^ 23

/-- Die `d` exports the pending write number `i` (R242). -/
def exportOne (s : State) (d i : Nat) : State :=
  let die := getDie s d
  let src := sourceOfDie d
  match die.pending[i]? with
  | none => s
  | some w =>
    if 2 ^ 20 ≤ ((getDie s (1 - d)).from_.filter fun e => e.1 = src).length then s else
    let clock := setClockEntry die.clock src (clockEntry die.clock src + 1)
    let s := updDie s d fun x => { x with clock := clock, pending := x.pending.eraseIdx i }
    updDie s (1 - d) fun x => { x with from_ := x.from_ ++ [(src, { w with tag := clock })] }

/-- Whether die state `die` may apply a write that `src` tagged with `t` (R242). -/
def mayApply (die : Die) (src : Source) (t : BitVec 72) : Bool :=
  [Source.die0, .die1, .host].all fun x =>
    if x = src then clockEntry die.clock x = clockEntry t x - 1
    else clockGe (clockEntry die.clock x) (clockEntry t x)

/-- Applies a write at a die: only the bytes that are later in the coherence order than those it holds (R236), with the
flaws that travel with them (R319, R322).  A copy's last write of a sector clears its mark where nothing later stands. -/
def applyBytes (die : Die) (e : Export) : Die :=
  let fresh := e.bytes.filter fun c => Stamps.read die.stamps c.1 < e.stamp
  { die with
    mem := Memory.writeAll die.mem fresh
    stamps := fresh.foldl (fun m c => Stamps.write m c.1 e.stamp) die.stamps
    flaws := ((die.flaws.write fresh e.clears).clear (if fresh.length = e.bytes.length then e.ends else [])).join
      (e.flaws.carry fresh) }

/-- Die `d` applies the first exported write of `src` whose clock condition holds (R242). -/
def applyOne (s : State) (d : Nat) (src : Source) : State :=
  updDie s d fun die =>
    match die.from_.findIdx? fun e => e.1 = src && mayApply die src e.2.tag with
    | none => die
    | some i =>
      match die.from_[i]? with
      | none => die
      | some e =>
        let die := applyBytes die e.2
        { die with from_ := die.from_.eraseIdx i,
                   clock := setClockEntry die.clock src (clockEntry e.2.tag src) }

/-- Applies at a die whatever may be applied, `n` rounds over the sources. -/
def settle : Nat → State → Nat → State
  | 0, s, _ => s
  | n + 1, s, d => settle n (applyOne (applyOne (applyOne s d .host) d .die0) d .die1) d

/-- Exports the pending writes of die `d` that satisfy `p`, oldest first (R242). -/
def exportSome (p : Export → Bool) : Nat → State → Nat → State
  | 0, s, _ => s
  | n + 1, s, d => match (getDie s d).pending.findIdx? p with
    | none => s
    | some i => exportSome p n (exportOne s d i) d

/-- A write is exported no later than 65,536 ns after it was performed, and with the write-back of its bytes from the
home slice (R242). -/
def exportOverdue (s : State) (d : Nat) : State :=
  exportSome (fun w => w.at_ + 65536 ≤ s.time.toNat) (getDie s d).pending.length s d
def homeWriteBack (s : State) (d line : Nat) : State :=
  exportSome (fun w => w.bytes.any fun c => sectorOf c.1 = line) (getDie s d).pending.length s d

/-- Exports every pending write of die `d` in order. -/
def exportAll : Nat → State → Nat → State
  | 0, s, _ => s
  | n + 1, s, d => exportAll n (exportOne s d 0) d

/-- Makes every write performed at die `d` performed at device scope (R235, R242). -/
def toDevice (s : State) (d : Nat) : State :=
  let s := exportAll (getDie s d).pending.length s d
  settle ((getDie s (1 - d)).from_.length) s (1 - d)

/-- Whether every write performed at die `d` has been exported and applied at the other die: what a release at
device scope waits for when the link holds exports back (R235, R242). -/
def deviceDone (s : State) (d : Nat) : Bool :=
  (getDie s d).pending.isEmpty && (getDie s (1 - d)).from_.all fun e => e.1 ≠ sourceOfDie d

/-! ## L1, the S path and the A path (R111, R217, R247) -/

def lineOf (a : Nat) : Nat := a / 128 * 128
def lineCells (s : State) (d line : Nat) : List Host.Cell := cellsAt line (homeBytes s d line 128)

/-- A byte as a V-path load of core `k` reads it. -/
def vByte (s : State) (k a : Nat) : Byte :=
  let c := getCore s k
  match Memory.read c.l1Dirty a with
  | some b => b
  | none => (Memory.read c.l1Clean a).getD (homeByte s (dieOf k) a)

/-- The ways of L1 are the core's cache banks, each with 128 sets of one line (R217); a bank that is leaving takes no new
line (R216). -/
def Bank.caches (b : Bank) : Bool := b.role = .cache && !b.leaving
def cacheWays (c : Core) : List Nat := (List.range c.banks.length).filter fun i => (c.banks.getD i Bank.reset).caches
def lineSet (line : Nat) : Nat := line / 128 % 128
def holdsLine (c : Core) (line : Nat) : Bool := c.l1Lines.any fun l => l.line = line

/-- A way that holds no line of the set of `line`. -/
def freeWay (c : Core) (line : Nat) : Option Nat :=
  (cacheWays c).find? fun i => c.l1Lines.all fun l => lineSet l.line ≠ lineSet line || l.bank ≠ i

/-- Whether a line is in L1 or may be allocated without an eviction. -/
def hasRoom (c : Core) (line : Nat) : Bool := holdsLine c line || (freeWay c line).isSome

/-- Lines of which L1 holds no byte any more leave it, and their flaws with them. -/
def pruneL1 (c : Core) : Core :=
  let holds := fun (line : Nat) => c.l1Clean.any (fun x => lineOf x.1 = line) || c.l1Dirty.any fun x => lineOf x.1 = line
  { c with l1Lines := c.l1Lines.filter fun l => holds l.line, l1Flaws := c.l1Flaws.within holds }

/-- Allocates a line in a free way, or marks the line that is there; `keep` and `low` are the placement of R111. -/
def allocLine (c : Core) (line : Nat) (keep low : Bool) : Core :=
  if holdsLine c line then
    { c with l1Lines := c.l1Lines.map fun l => if l.line = line then { l with keep := l.keep || keep, low := l.low && low } else l }
  else match freeWay c line with
    | some i => { c with l1Lines := c.l1Lines ++ [⟨line, i, keep, low⟩] }
    | none => c

/-- Whether L1 holds clean bytes of a line, so that the line was filled. -/
def filled (c : Core) (line : Nat) : Bool := c.l1Clean.any fun x => lineOf x.1 = line

/-- Writes back the dirty bytes of core `k` whose address satisfies `p` (R217), with the flaws of their sectors and blocks
(R319, R322).
In a line that was filled they stay as clean bytes. -/
def writeBack (s : State) (k : Nat) (p : Nat → Bool) : State :=
  let cells := (getCore s k).l1Dirty.filter fun c => p c.1
  if cells.isEmpty then s else
  let flaws := (getCore s k).l1Flaws.carry cells
  let s := updCore s k fun c => pruneL1 { c with
    l1Dirty := Memory.drop c.l1Dirty p
    l1Clean := Memory.writeAll c.l1Clean (cells.filter fun x => filled c (lineOf x.1)) }
  performWith s (dieOf k) .v (some k) cells false [] flaws

/-- A line leaves L1: its dirty bytes are written back and its clean bytes go (R217). -/
def evictLine (s : State) (k line : Nat) : State :=
  updCore (writeBack s k fun a => lineOf a = line) k fun c =>
    pruneL1 { c with l1Clean := Memory.drop c.l1Clean fun a => lineOf a = line }

/-- The line of a full set that another line evicts: the oldest of lowest priority, or else the oldest that is not kept; a
`.keep` line also evicts the oldest `.keep` line (R111). -/
def victimLine (c : Core) (line : Nat) (keep : Bool) : Option Nat :=
  let set := c.l1Lines.filter fun l => lineSet l.line = lineSet line
  let plain := set.filter fun l => !l.keep
  (((plain.find? L1Line.low).or plain.head?).or (if keep then set.head? else none)).map L1Line.line

/-- Evicts a line when the set of `line` is full. -/
def makeRoom (s : State) (k line : Nat) (keep : Bool) : State :=
  if hasRoom (getCore s k) line then s else
  match victimLine (getCore s k) line keep with
  | some l => evictLine s k l
  | none => s

/-- Brings the line of `a` into L1, keeping what L1 already holds, with the flaws of the sector (R319, R322).  A `.keep` line
displaces a line of a full set (R111); any other leaves a full set as it is (log 22). -/
def fillL1 (s : State) (k a : Nat) (keep low : Bool) : State :=
  let s := if keep then makeRoom s k (lineOf a) true else s
  if !hasRoom (getCore s k) (lineOf a) then s else
  let l := lineCells s (dieOf k) (lineOf a)
  let found := (homeFlaws s (dieOf k)).within fun sector => sector = lineOf a
  updCore s k fun c => { allocLine c (lineOf a) keep low with
    l1Clean := Memory.writeAll c.l1Clean (l.filter fun x =>
      (Memory.read c.l1Clean x.1).isNone && (Memory.read c.l1Dirty x.1).isNone)
    l1Flaws := if filled c (lineOf a) then c.l1Flaws
      else (c.l1Flaws.join found).write (c.l1Dirty.filter fun x => lineOf x.1 = lineOf a) false }

/-- The lines a list of bytes touches. -/
def cellLines (cells : List Host.Cell) : List Nat := (cells.map fun c => lineOf c.1).dedup

/-- What L1 holds of the lines of a write that is performed at the home slice, by or for core `k`: the bytes written
go, and so do the clean bytes of their lines, so that no later read mixes two events (R222). -/
def dropWritten (s : State) (k : Nat) (cells : List Host.Cell) : State :=
  let lines := cellLines cells
  updCore s k fun c => pruneL1 { c with
    l1Dirty := Memory.drop c.l1Dirty fun a => cells.any fun x => x.1 = a
    l1Clean := Memory.drop c.l1Clean fun a => lines.contains (lineOf a) }

/-- A store of core `k` enters L1 as dirty bytes, its lines placed as `keep` and `low` say (R111, R217, R235).  A merge with
bytes of a filled line checks the old code of the block (R322).  Bytes for whose line L1 can make no room are performed at
the home slice. -/
def storeL1 (s : State) (k : Nat) (keep low : Bool) (cells : List Host.Cell) : State :=
  let s := (cellLines cells).foldl (fun s l => makeRoom s k l keep) s
  let (here, past) := cells.partition fun x => hasRoom (getCore s k) (lineOf x.1)
  let s := updCore s k fun c =>
    { (cellLines here).foldl (fun c l => allocLine c l keep low) c with
      l1Dirty := Memory.writeAll c.l1Dirty here
      l1Clean := Memory.drop c.l1Clean fun a => here.any fun x => x.1 = a
      l1Flaws := c.l1Flaws.write here false }
  if past.isEmpty then s else performAt (dropWritten s k past) (dieOf k) .v (some k) past

/-- The clean bytes that L1 of core `k` holds of the lines of `n` bytes at `a` go: an access at the home slice has been made
there, and no later one reads an older byte (R236, R240). -/
def dropClean (s : State) (k a n : Nat) : State :=
  let here := fun (b : Nat) => (List.range n).any fun i => lineOf (a + i) = lineOf b
  updCore s k fun c => pruneL1 { c with l1Clean := Memory.drop c.l1Clean here }

/-- Invalidates the clean lines of a core's L1 (R126). -/
def invalidateL1 (s : State) (k : Nat) : State := updCore s k fun c => pruneL1 { c with l1Clean := [] }

/-! ## The caches of the other paths (R247, R248)

Scratchpad bytes have no storage address; `padKey` gives them keys above every storage address. -/

def padKey (serial off : Nat) : Nat := 2 ^ 50 * (serial + 1) + off

/-- The key of a place: storage, or a scratchpad byte of a group. -/
def keyAt (serial : Nat) : Loc → Nat
  | .mem a => a
  | .pad o => padKey serial o

def lineIn (cache : List CacheLine) (a : Nat) : Option CacheLine := cache.find? fun l => l.line = lineOf a
def cachedByte (cache : List CacheLine) (a : Nat) : Option Byte :=
  (lineIn cache a).bind fun l => (l.data[a - l.line]?).map Prod.fst

/-- A byte as an S-path load of core `k` reads it. -/
def sByte (s : State) (k a : Nat) : Byte := (cachedByte (getCore s k).sCache a).getD (homeByte s (dieOf k) a)

/-- The line of `a` as the home slices of die `d` hold it, with the coherence stamps and its flaws. -/
def homeLine (s : State) (d a : Nat) : CacheLine :=
  ⟨lineOf a, (List.range 128).map fun i =>
    (homeByte s d (lineOf a + i), Stamps.read (getDie s d).stamps (lineOf a + i)),
    (homeFlaws s d).within fun sector => sector = lineOf a⟩

/-- Words of a held line read anew: the 8 bytes at `a` as the home slices of die `d` hold them now (R13). -/
def refreshLine (s : State) (d a : Nat) (cache : List CacheLine) : List CacheLine :=
  cache.map fun l => { l with data := l.data.mapIdx fun i x =>
    if a ≤ l.line + i && l.line + i < a + 8 then (homeByte s d (l.line + i), Stamps.read (getDie s d).stamps (l.line + i))
    else x }

def addLine (cache : List CacheLine) (l : CacheLine) : List CacheLine :=
  if (lineIn cache l.line).isSome then cache else l :: cache

def fillS (s : State) (k a : Nat) : State :=
  updCore s k fun c => { c with sCache := addLine c.sCache (homeLine s (dieOf k) a) }
def fillA (s : State) (k a : Nat) : State :=
  updCore s k fun c => { c with aCache := addLine c.aCache (homeLine s (dieOf k) a) }

/-- A core's caches lose the bytes where `p` holds. -/
def Core.forget (c : Core) (p : Nat → Bool) : Core :=
  let keep := fun l : CacheLine => !((List.range 128).any fun i => p (l.line + i))
  pruneL1 { c with
    l1Clean := Memory.drop c.l1Clean p, l1Dirty := Memory.drop c.l1Dirty p, sCache := c.sCache.filter keep
    aCache := c.aCache.filter keep, mCache := c.mCache.filter keep, iCache := c.iCache.filter keep }
def forgetBytes (s : State) (p : Nat → Bool) : State := { s with cores := s.cores.map fun c => c.forget p }

/-- Whether scope `scope` of core `k` contains a core (R235); row and group scope cost and count as core (R128). -/
def coreInScope (scope k j : Nat) : Bool :=
  if scope ≤ 2 then j = k else if scope = 3 then dieOf j = dieOf k else true

/-- Whether a write on path `x` was made within the scope: the device's own always, the host's at system scope.  A write
that an `xfence` to path V has ordered counts as one on path V too (R248). -/
def writtenIn (scope k : Nat) (x : Path) (w : Written) : Bool :=
  (w.path = x || (x = .v && w.asV)) && match w.core with
    | some j => coreInScope scope k j
    | none => x ≠ .h || 5 ≤ scope

/-- After an `xfence` from path `x` to path V, the writes on `x` within the scope count as V-path writes (R248). -/
def joinV (s : State) (scope k : Nat) (x : Path) : State :=
  { s with writes := s.writes.map fun w => { w with asV := w.asV || writtenIn scope k x w } }

/-- Whether a cached line lacks a write that satisfies `p`. -/
def staleLine (s : State) (p : Written → Bool) (l : CacheLine) : Bool :=
  s.writes.any fun w => p w && w.addrs.any fun a =>
    l.line ≤ a && match l.data[a - l.line]? with
      | some (_, n) => n < w.stamp
      | none => false

/-- The storage bytes and the scratchpad bytes of an engine write. -/
def Late.mem (l : Late) : List Host.Cell := l.cells.filterMap fun c => match c.1 with
  | .mem a => some (a, c.2)
  | .pad _ => none
def Late.pad (l : Late) : List Host.Cell := l.cells.filterMap fun c => match c.1 with
  | .pad o => some (o, c.2)
  | .mem _ => none

/-- Core `k` sees the contents of retired tiles on its paths V, S and A: no clean copy older than them stays in its
caches (R171, R249, R280). -/
def seeTiles (s : State) (k : Nat) : State :=
  updCore (invalidateL1 s k) k fun c => { c with sCache := [], aCache := [], mCache := [] }

/-! ## Segment registers and buffer records (R206-R208) -/

def segBase (g : BitVec 128) : Nat := (g.extractLsb' 0 48).toNat
def segLimit (g : BitVec 128) : Nat := (g.extractLsb' 48 48).toNat
def segKind (g : BitVec 128) : Nat := (g.extractLsb' 96 2).toNat

/-- Whether a segment value is one `segset` and a pass record accept (R207).  `segset` accepts a g0 of kind 0 or 2, for
which R155 and R207 state no fault; its effective limit is then 0 or the scratchpad's (DESIGN CHOICE, log 48). -/
def segValid (g : BitVec 128) : Bool :=
  g.extractLsb' 98 30 = 0 && segKind g ≠ 3 && !(segKind g = 1 && 2 ^ 48 < segBase g + segLimit g)

/-- The effective limit (R207); `pad` is the group's scratchpad size. -/
def effLimit (pad : Nat) (g : BitVec 128) : Nat :=
  if segKind g = 1 then segLimit g
  else if segKind g = 2 then min (segLimit g) (pad - segBase g)
  else 0

structure BufRec where
  base    : Nat
  stride  : Nat
  extent  : Nat
  seg     : Nat
  swizzle : Nat
  ro      : Bool
  lod     : Bool
  policy  : Nat
  format  : Nat
  ring    : Bool
  rsv     : Nat
  deriving DecidableEq, Repr

/-- The fields of a buffer record (R208). -/
def bufRec (b : BitVec 128) : BufRec where
  base := (b.extractLsb' 0 48).toNat
  stride := (b.extractLsb' 48 16).toNat
  extent := (b.extractLsb' 64 32).toNat
  seg := (b.extractLsb' 96 3).toNat
  swizzle := (b.extractLsb' 99 4).toNat
  ro := b.getLsbD 103
  lod := b.getLsbD 104
  policy := (b.extractLsb' 105 2).toNat
  format := (b.extractLsb' 107 4).toNat
  ring := b.getLsbD 111
  rsv := (b.extractLsb' 112 16).toNat

/-- Whether a record holds only defined values (R117, R208). -/
def recDefined (r : BufRec) : Bool := r.rsv = 0 && r.swizzle < 8 && r.policy ≠ 3 && r.format < 13

def padBytes (p : Pass) : Nat := p.scratchBanks * 16384

/-- A scratchpad byte of a group (R215, R364). -/
def padByte (g : Group) (off : Nat) : Byte := (Memory.read g.pad off).getD (Config.padByte g.serial off)
def padRead (g : Group) (off n : Nat) : List Byte := (List.range n).map fun i => padByte g (off + i)

/-- Writes scratchpad bytes; a partial write to a mismatching block poisons its sector (R322). -/
def padWrite (g : Group) (cells : List Host.Cell) : Group :=
  let blocks := (cells.map fun c => blockOf c.1).dedup.filter g.padMismatch.contains
  let partly := blocks.filter fun b => !coversBlock cells 32 b
  { g with
    pad := Memory.writeAll g.pad cells
    padSyndromes := dropSyndromes g.padSyndromes blocks.contains
    padPoison := partly.foldl (fun l b => insertMark l (sectorOf b)) g.padPoison }

/-- Sets the swizzle tag of every 1 KiB the cells touch (R110, R130, R163). -/
def setTags (g : Group) (cells : List Host.Cell) (swizzle : Nat) : Group :=
  { g with tags := cells.foldl (fun t c => t.set (c.1 / 1024) swizzle) g.tags }

/-! ## Engine writes that other paths need not see yet (R247-R249) -/

/-- A write of bytes of a group's scratchpad on a path, for the threads given: it enters the coherence order (R236). -/
def padPerform (s : State) (path : Path) (core : Option Nat) (by_ : List ThreadRef) (group : Nat)
    (cells : List Host.Cell) : State :=
  logWrite (updGroup s group fun g => padWrite g cells) path core by_ (cells.map fun c => padKey group c.1)

/-- The bytes of an older engine write that newer writes supersede go. -/
def Late.cut (l : Late) (gone : Loc → Bool) : Late := { l with cells := l.cells.filter fun c => !gone c.1 }

/-- A V-path write to the scratchpad supersedes the bytes of every engine write there that is still unseen. -/
def cutLate (s : State) (group : Nat) (cells : List Host.Cell) : State :=
  { s with late := s.late.map fun l =>
      if l.by_.group = group then l.cut fun p => cells.any fun c => p = .pad c.1 else l }

/-- Cached lines that hold one of the keys go. -/
def dropLines (keys : List Nat) (cache : List CacheLine) : List CacheLine :=
  cache.filter fun l => !(keys.any fun a => lineOf a = l.line)

/-- An engine reads its own path's writes: what its caches hold of the lines goes. -/
def dropOwn (s : State) (l : Late) : State :=
  match l.path with
  | .a =>
    let drop := fun (k : Nat) (c : Core) =>
      if dieOf k = dieOf l.core then { c with aCache := dropLines l.keys c.aCache } else c
    { s with cores := s.cores.mapIdx drop }
  | .m => updCore s l.core fun c => { c with mCache := dropLines l.keys c.mCache }
  | _ => s

/-- Whether a copy has written every byte of a sector: with the writes it has performed, and those of its own that `p` holds
for (R319).  The sector is named by its first key. -/
def wroteWhole (s : State) (p : Late → Bool) (id sector : Nat) : Bool :=
  (List.range 128).all fun i =>
    s.writes.any (fun w => w.op = some id && w.path = .a && w.addrs.contains (sector + i)) ||
      s.late.any fun l => p l && l.id = id && l.path = .a && l.sound && l.keys.contains (sector + i)

/-- The sectors of an engine write. -/
def Late.sectors (l : Late) : List Nat := (l.keys.map sectorOf).dedup

/-- Scratchpad sectors the cells cover whole lose their poison mark (R319). -/
def clearPadPoison (s : State) (group : Nat) (cells : List Host.Cell) : State :=
  updGroup s group fun g => { g with padPoison := g.padPoison.filter fun p => !coversBlock cells 128 p }

/-- The writes made since stamp `n` are those of an engine operation, which wrote the keys given. -/
def markWrites (s : State) (n id : Nat) (keys : List Nat) : State :=
  { s with writes := s.writes.map fun w => if n < w.stamp then { w with op := some id, addrs := keys } else w }

/-- One engine write is performed for every path: at its die's home slices, or in its group's scratchpad.  A copy that
has now written the whole of a sector clears its poison mark (R319). -/
def performLate (s : State) (l : Late) : State :=
  let ends := if l.path = .a && l.sound then
    l.sectors.filter (wroteWhole { s with late := [l] } (fun _ => true) l.id) else []
  let t := dropOwn s l
  let t := if l.mem.isEmpty then t else performWith t (dieOf l.core) l.path (some l.core) l.mem false ends Flaws.none
  let t := if l.pad.isEmpty then t else padPerform t l.path (some l.core) [l.by_] l.by_.group l.pad
  let t := if ends.isEmpty then t else updGroup t l.by_.group fun g =>
    { g with padPoison := g.padPoison.filter fun p => !ends.contains (padKey l.by_.group p) }
  if l.sound then markWrites t s.stamp l.id l.keys else t

/-- The same place: equal addresses, in one group for the scratchpad. -/
def sameSpot (g h : Nat) : Loc → Loc → Bool
  | .mem a, .mem b => a = b
  | .pad a, .pad b => a = b && g = h
  | _, _ => false

/-- The engine writes where `p` holds are performed, oldest first; what they overwrite in older ones that stay is
superseded. -/
def settleLate (s : State) (p : Late → Bool) : State :=
  let (now, rest) := s.late.partition p
  let rest := rest.map fun l => l.cut fun place => now.any fun m =>
    l.order < m.order && m.cells.any fun c => sameSpot m.by_.group l.by_.group c.1 place
  now.foldl performLate { s with late := rest }

/-- The engine writes to the scratchpad whose completion a thread has read are performed before its atomics, reductions and
waits there (R133, R163, R249). -/
def settleSeen (s : State) (group : Nat) (saw : List Nat) : State :=
  settleLate s fun l => l.by_.group = group && saw.contains l.id && !l.pad.isEmpty

/-- The engine writes to a page of storage are performed. -/
def settlePage (s : State) (a : Nat) : State := settleLate s fun l => l.mem.any fun c => a ≤ c.1 && c.1 < a + 65536

/-- An engine writes bytes that other paths need not see yet; `sound` unless their piece failed. -/
def addLate (s : State) (path : Path) (id : Nat) (t : ThreadRef) (k : Nat) (sound : Bool)
    (cells : List (Loc × Byte)) : State :=
  let l : Late := ⟨s.stamp + 1, path, id, t, k, cells, cells.map fun c => keyAt t.group c.1, sound⟩
  dropOwn { s with stamp := s.stamp + 1, late := s.late ++ [l] } l

/-- The completion of an engine operation is reported (R132, R163): a token is then that operation's alone. -/
def report (s : State) (id group : Nat) (at_ : Arrival) : State :=
  let old := match at_ with
    | .token .. => s.reported.filter fun r => !(r.group = group && r.at_ = at_)
    | .word _ => s.reported
  { s with reported := ⟨id, group, at_⟩ :: old }

/-- The newest byte that unseen engine writes satisfying `p` hold at a place of a group. -/
def lateByte (s : State) (group : Nat) (p : Late → Bool) (place : Loc) : Option Byte :=
  s.late.reverse.findSome? fun l =>
    let ours : Bool := match place with
      | .mem _ => true
      | .pad _ => decide (l.by_.group = group)
    if ours && p l then (l.cells.reverse.find? fun c => c.1 = place).map Prod.snd else none

/-- A scratchpad byte as a thread reads it on path V: with the engine writes whose completion it has read (R133,
R163). -/
def padSeen (s : State) (g : Group) (th : Thread) (o : Nat) : Byte :=
  (lateByte s g.serial (fun l => th.saw.contains l.id) (.pad o)).getD (padByte g o)

/-- A byte as the copy engine reads it for core `k` and a group: its own engine's writes, then its cache, then the
home slices or the scratchpad (R130, R247). -/
def aByte (s : State) (k : Nat) (g : Group) (place : Loc) : Byte :=
  let base := match place with
    | .mem a => homeByte s (dieOf k) a
    | .pad o => padByte g o
  (lateByte s g.serial (fun l => l.path = .a && dieOf l.core = dieOf k) place).getD
    ((cachedByte (getCore s k).aCache (keyAt g.serial place)).getD base)

/-- The poison and the wrong code of a byte under unseen engine writes that satisfy `p`: a byte that they hold has the mark
of its sector, unless a copy among them has written the sector whole (R319), and a sound code. -/
def throughLate (s : State) (group : Nat) (p : Late → Bool) (place : Loc) (base : Bool × Bool) : Bool × Bool :=
  if (lateByte s group p place).isNone then base
  else
    let sector := sectorOf (keyAt group place)
    let whole := ((s.late.filter fun l => p l && l.sectors.contains sector).map Late.id).any fun id => wroteWhole s p id sector
    (base.1 && !whole, false)

/-- Whether a scratchpad byte is poisoned as a thread reads it on path V, and whether its check code is wrong. -/
def padFlaw (s : State) (g : Group) (th : Thread) (o : Nat) : Bool × Bool :=
  throughLate s g.serial (fun l => th.saw.contains l.id) (.pad o)
    (g.padPoison.contains (sectorOf o), g.padMismatch.contains (blockOf o))

/-- Whether a byte as the copy engine reads it for core `k` and a group is poisoned, and whether its check code is wrong. -/
def aFlaw (s : State) (k : Nat) (g : Group) (place : Loc) : Bool × Bool :=
  let key := keyAt g.serial place
  let base := match lineIn (getCore s k).aCache key with
    | some l => (l.flaws.poisoned key, l.flaws.wrong key)
    | none => match place with
      | .mem a => ((homeFlaws s (dieOf k)).poisoned a, (homeFlaws s (dieOf k)).wrong a)
      | .pad o => (g.padPoison.contains (sectorOf o), g.padMismatch.contains (blockOf o))
  throughLate s g.serial (fun l => l.path = .a && dieOf l.core = dieOf k) place base

/-- The engine operations whose completion a token, in a scalar of the row, or an arrival word has reported. -/
def endedAt (s : State) (group : Nat) (at_ : Arrival) : List Nat :=
  (s.reported.filter fun r => r.group = group && r.at_ = at_).map Reported.id

/-- The flaws of a scratchpad line, by the keys of its bytes. -/
def padFlaws (g : Group) (o : Nat) : Flaws :=
  let key := fun (x : Nat) => padKey g.serial x
  ⟨(g.padPoison.filter (· = lineOf o)).map key,
    (g.padSyndromes.filter fun e => sectorOf e.1 = lineOf o).map fun e => (key e.1, e.2)⟩

/-- The physical offset of logical offset `o` under swizzle `z` (R221). -/
def swizzled (z o : Nat) : Nat :=
  let inBlock := o % 1024
  let c := inBlock / 16
  let h := c / 8
  let l := c % 8
  o / 1024 * 1024 + 16 * (8 * h + Nat.xor l (h * z % 8)) + inBlock % 16

/-! ## Translation (R209-R213) -/

/-- What an access needs of a page. -/
inductive Access where
  | read | write | atomic
  deriving DecidableEq, Repr

inductive Xlate where
  | ok (addr : Nat) (discarded : Bool)
  | absent
  | protect
  deriving DecidableEq, Repr

def permits (read write : Bool) : Access → Bool
  | .read => read
  | .write => write
  | .atomic => read && write

/-- A page table entry's 64 bits at a board-tier physical address. -/
def pte (s : State) (board : Nat) : Wide := BitVec.ofNat 64 (ofBytes (sysBytes s (tierBase 1 + board) 8))

/-- One level of the walk of R213: the leaf it ends in, or the outcome that stops it.  The levels still to
walk are listed by the lowest address bit that indexes them. -/
def walkFrom (s : State) (va tier : Nat) (table : Nat) : List Nat → Except Xlate PageEntry
  | [] => .error .protect
  | shift :: rest =>
    let index := if shift = 16 then va / 2 ^ 16 % 32 else va / 2 ^ shift % 512
    let e := pte s (table + 8 * index)
    let frame := (e.extractLsb' 16 32).toNat * 65536
    let leaf := e.getLsbD 1
    if !e.getLsbD 0 then .error .absent
    else if e.extractLsb' 5 11 ≠ 0 || e.extractLsb' 48 16 ≠ 0 then .error .protect
    else if shift = 16 then
      if leaf then .error .protect
      else .ok ⟨va / 2 ^ 16 * 2 ^ 16, 16, tierBase tier + frame, e.getLsbD 2, e.getLsbD 3, e.getLsbD 4⟩
    else if leaf then
      if shift = 21 && e.extractLsb' 16 5 = 0 then
        .ok ⟨va / 2 ^ 21 * 2 ^ 21, 21, tierBase tier + frame, e.getLsbD 2, e.getLsbD 3, e.getLsbD 4⟩
      else .error .protect
    else walkFrom s va tier frame rest

def walk (s : State) (va tier : Nat) : Except Xlate PageEntry := walkFrom s va tier s.pageRoot [39, 30, 21, 16]

def findRange (ranges : List Range) (va : Nat) : Option Range :=
  ranges.find? fun r => r.base ≤ va && va < r.base + r.len
def findPage (tlb : List PageEntry) (va : Nat) : Option PageEntry :=
  tlb.find? fun p => p.base ≤ va && va < p.base + 2 ^ p.bits

/-- The translation of an address for core `k` (R209, R211). -/
def translate (s : State) (k va : Nat) (acc : Access) : Xlate :=
  match tierOf s va with
  | none => .protect
  | some tier =>
    let c := getCore s k
    match findRange c.ranges va with
    | some r => if permits r.read r.write acc then .ok (r.phys + (va - r.base)) false else .protect
    | none =>
      let page : Except Xlate PageEntry := match findPage c.tlb va with
        | some p => .ok p
        | none => walk s va tier
      match page with
      | .error x => x
      | .ok p => if permits p.read p.write acc then .ok (p.phys + (va - p.base)) p.discarded else .protect

/-- After a walk the page TLB holds the page; it has 64 entries, and the oldest leaves (R211). -/
def tlbFill (s : State) (k va : Nat) : State :=
  let c := getCore s k
  match tierOf s va with
  | none => s
  | some tier =>
    if (findRange c.ranges va).isSome || (findPage c.tlb va).isSome then s else
    match walk s va tier with
    | .error _ => s
    | .ok p => updCore s k fun c => { c with tlb := (p :: c.tlb).take 64 }

/-- A translation for an engine, without a core's TLB: the walk alone, after the device's range list. -/
def translateH (s : State) (va : Nat) (acc : Access) : Xlate :=
  match tierOf s va with
  | none => .protect
  | some tier =>
    match findRange s.rangeList va with
    | some r => if permits r.read r.write acc then .ok (r.phys + (va - r.base)) false else .protect
    | none => match walk s va tier with
      | .error x => x
      | .ok p => if permits p.read p.write acc then .ok (p.phys + (va - p.base)) p.discarded else .protect

/-- Reads bytes at a device virtual address on path H at system scope; an address that does not translate
for reading gives none. -/
def hRead (s : State) (va n : Nat) : Option (List Byte) :=
  (List.range n).foldr (fun i acc => match acc, translateH s (va + i) .read with
    | some bs, .ok a discarded => some ((if discarded then 0 else homeByte s 0 a) :: bs)
    | _, _ => none) (some [])

/-- Writes bytes at a device virtual address at system scope: performed at both dies (R235, R242).  A byte whose page
does not translate for writing (R213), or is discarded (R220), is not written. -/
def hWrite (s : State) (va : Nat) (bytes : List Byte) : State :=
  let cells := (cellsAt va bytes).filterMap fun c => match translateH s c.1 .write with
    | .ok a false => some (a, c.2)
    | _ => none
  if cells.isEmpty then s else toDevice (performAt s 0 .h none cells) 0

/-! ## Code (R12, R13) -/

/-- A group as a burst sees it that fetches through another base of g0: a running segment stays at the base it began at
(R155, R191; DESIGN CHOICE, log 43). -/
def Group.via (g : Group) (base : Nat) : Group :=
  { g with g := g.g.set 0 ((g.g.getD 0 0 >>> 48) <<< 48 ||| BitVec.ofNat 128 (base % 2 ^ 48)) }

/-- The storage of a code offset of a group on core `k`. -/
def codeLoc (s : State) (k : Nat) (g : Group) (off : Nat) : Xlate :=
  translate s k (segBase (g.g.getD 0 0) + off) .read

/-- A code byte as core `k` fetches it: from a line it holds, which no store changes, or from the home slices. -/
def codeByte (s : State) (k a : Nat) : Byte := (cachedByte (getCore s k).iCache a).getD (homeByte s (dieOf k) a)

/-- The 64-bit word at a code offset; a discarded page reads zero (R220). -/
def codeWord (s : State) (k : Nat) (g : Group) (off : Nat) : Wide :=
  match codeLoc s k g off with
  | .ok a false => BitVec.ofNat 64 (ofBytes ((List.range 8).map fun i => codeByte s k (a + i)))
  | _ => 0

def codeWords (s : State) (k : Nat) (g : Group) (off n : Nat) : List Wide :=
  (List.range n).map fun i => codeWord s k g (off + 8 * i)

/-! ## Clause headers (R20) -/

def hdrMark (h : Wide) : Nat := (h.extractLsb' 60 4).toNat
def hdrClass (h : Wide) : Nat := (h.extractLsb' 57 3).toNat
def hdrCount (h : Wide) : Nat := (h.extractLsb' 53 4).toNat + 1
def hdrBlock (h : Wide) : Bool := h.getLsbD 52
def hdrGather (h : Wide) : Bool := h.getLsbD 51
def hdrWaitMask (h : Wide) : BitVec 16 := h.extractLsb' 35 16
def hdrWaitLoads (h : Wide) : Bool := h.getLsbD 34
def hdrWaitStores (h : Wide) : Bool := h.getLsbD 33
def hdrHint (h : Wide) : BitVec 16 := h.extractLsb' 16 16

/-- The header itself is well formed (R22, first three and the reserved-bit conditions). -/
def hdrOk (h : Wide) : Bool :=
  hdrMark h = 0xC && hdrClass h < 6 && (hdrGather h == (hdrClass h = 2)) && !h.getLsbD 32 && h.extractLsb' 0 16 = 0

/-- The target check of R73 against g0 and the word at the target: the fault it raises, if any.  R73 does not say what the
check does when the page of the target is absent or protected: the word then reads as 0 here, which is no header, so that
the transfer takes CLAUSE_FORMAT (DESIGN CHOICE, log 46). -/
def targetFault (s : State) (k : Nat) (g : Group) (pass : Pass) (target : Nat) : Option Nat :=
  if target % 8 ≠ 0 then some 0x03
  else if effLimit (padBytes pass) (g.g.getD 0 0) < target + 8 then some 0x11
  else
    let h := codeWord s k g target
    if hdrMark h = 0xC && hdrBlock h then none else some 0x03

/-! ## The block waiting table (R186, R187) -/

def tableKey (g : Group) (pc : Word) : EntryKey :=
  ⟨g.ctx, g.stage, (segBase (g.g.getD 0 0) + pc.toNat) % 2 ^ 48⟩

/-- The lowest table index no entry uses. -/
def freeIndex (table : List WaitEntry) : Option Nat :=
  (List.range 256).find? fun i => table.all fun e => e.index ≠ i

def removeMember (e : WaitEntry) (t : ThreadRef) : WaitEntry :=
  { e with members := e.members.filter fun m => m.1 ≠ t }

/-- Clears a thread's bit; an entry left empty is freed (R186). -/
def leaveTable (c : Core) (t : ThreadRef) : Core :=
  { c with table := (c.table.map fun e => removeMember e t).filter fun e => !e.members.isEmpty
           spill := c.spill.filter fun m => m.thread ≠ t }

def isParked (st : Status) : Bool := st = .parkedEffect || st = .parkedFault || st = .parkedHost

/-- The victim of R187: among the entries all of whose threads are parked, the one whose oldest bit was set first.  R187
gives no tie-break: of equals it is the one that stands first in the table (DESIGN CHOICE, log 21). -/
def spillVictim (s : State) (table : List WaitEntry) : Option WaitEntry :=
  let cand := table.filter fun e => e.members.all fun m => match findThread s m.1 with
    | some (_, th) => isParked th.status
    | none => true
  let age := fun e : WaitEntry => (e.members.map Prod.snd).foldl min (2 ^ 64)
  cand.foldl (fun best e => match best with
    | none => some e
    | some b => if age e < age b then some e else some b) none

/-- The oldest thread of a spill list; of equals the one that came to the list first (DESIGN CHOICE, log 21). -/
def oldestSpilled (spill : List Spilled) : Option Spilled :=
  spill.foldl (fun best m => match best with
    | none => some m
    | some b => if m.since < b.since then some m else some b) none

/-- An entry for a key takes its members, and with them every spilled thread of the key (R187). -/
def giveEntry (c : Core) (index : Nat) (key : EntryKey) (pc hdr : Word) (members : List (ThreadRef × Nat)) : Core :=
  let (joins, rest) := c.spill.partition fun m => m.key = key
  { c with table := c.table ++ [⟨index, key, pc, hdr, members ++ joins.map fun m => (m.thread, m.since)⟩], spill := rest }

/-- A freed entry is taken by the oldest spilled thread, and the others with its key join it (R187).  R188 does not say from
when a ready one of them counts: from the cycle at which it became ready, as if it had not been spilled (DESIGN CHOICE,
log 21). -/
def unspill (s : State) (k : Nat) : State :=
  let c := getCore s k
  match freeIndex c.table, oldestSpilled c.spill with
  | some i, some m => match findThread s m.thread with
    | some (_, th) => updCore s k fun c => giveEntry c i m.key th.pc th.hdr []
    | none => updCore s k fun c => leaveTable c m.thread
  | _, _ => s

/-- Whether the thread's bit is set for this key, in an entry or in the spill list. -/
def waitsAt (c : Core) (t : ThreadRef) (key : EntryKey) : Bool :=
  c.table.any (fun e => e.key = key && e.members.any fun m => m.1 = t) ||
    c.spill.any fun m => m.thread = t && m.key = key

/-- A thread that needs a new entry: a free one, the victim's, or a place in the spill list (R186, R187). -/
def newEntry (s : State) (k : Nat) (t : ThreadRef) (key : EntryKey) (pc hdr : Word) : State :=
  let c := getCore s k
  let now := c.cycles.toNat
  match freeIndex c.table with
  | some i => updCore s k fun c => giveEntry c i key pc hdr [(t, now)]
  | none => match spillVictim s c.table with
    | some e => updCore s k fun c =>
      giveEntry { c with
        table := c.table.filter fun x => x.index ≠ e.index
        spill := c.spill ++ e.members.map fun m => ⟨m.1, e.key, m.2⟩ } e.index key pc hdr [(t, now)]
    | none => updCore s k fun c => { c with spill := c.spill ++ [⟨t, key, now⟩] }

/-- Sets a thread's bit in the entry of its continuation, allocating or spilling as R186 and R187 say; a bit that is set
there already stays as it is. -/
def joinTable (s : State) (t : ThreadRef) : State :=
  match findThread s t with
  | none => s
  | some (g, th) =>
    match g.core with
    | none => s
    | some k =>
      let key := tableKey g th.pc
      if waitsAt (getCore s k) t key then s
      else
        let s := unspill (updCore s k fun c => leaveTable c t) k
        if (getCore s k).table.any fun e => e.key = key then
          updCore s k fun c => { c with table := c.table.map fun e =>
            if e.key = key then { e with members := e.members ++ [(t, c.cycles.toNat)] } else e }
        else newEntry s k t key th.pc th.hdr

def leaveCore (s : State) (t : ThreadRef) : State :=
  match findGroup s t.group with
  | some g => match g.core with
    | some k => unspill (updCore s k fun c => leaveTable c t) k
    | none => s
  | none => s

/-- A thread becomes ready at its continuation (R185, R188). -/
def makeReady (s : State) (t : ThreadRef) : State :=
  match findThread s t with
  | none => s
  | some (g, _) =>
    let now := (getCore s (g.core.getD 0)).cycles.toNat
    joinTable (updThread s t fun th => { th with status := .ready, waiting := none, readyAt := now, held := false }) t

/-! ## Notices (R332, R357) -/

/-- Adds a notice. -/
def notify (s : State) (p : Payload) (key : Option (FaultKey × BitVec 8)) : State × Nat :=
  ({ s with notices := s.notices ++ [⟨s.notices.length, p, key, false, none⟩] }, s.notices.length)

/-- The outstanding notice of a key. -/
def openNotice (s : State) (key : FaultKey × BitVec 8) : Option Nat :=
  (s.notices.find? fun n => n.key = some key && n.answer.isNone).map Notice.index

/-- The notice a fault of a key waits on: the outstanding one, or a new one (R332). -/
def faultNotice (s : State) (p : Payload) (key : FaultKey × BitVec 8) : State × Nat :=
  match openNotice s key with
  | some n => (s, n)
  | none => notify s p (some key)

/-- Whether a notice's key is a thread's alone: the thread, or a register of its own. -/
def FaultKey.ofThread (t : ThreadRef) : FaultKey → Bool
  | .thread u | .register u (.v _) | .register u (.p _) | .register u (.k _) => u = t
  | .register _ (.s _) | .register _ (.b _) | .register _ (.g _) | .page _ => false

/-- The host resumes a thread: the notices keyed by that thread alone are outstanding no longer, since no other thread
waits on them (R332, R334; DESIGN CHOICE, log 52). -/
def endNotices (s : State) (t : ThreadRef) : State :=
  { s with notices := s.notices.map fun n =>
      if n.answer.isNone && (n.key.map fun x => x.1.ofThread t).getD false then { n with answer := some .resumed } else n }

/-! ## The stack cache (R219, R275, R323) -/

def tileBytes (r : Resource) : Nat := 4096 * r.elemStride

/-- Bytes a resource takes of a vault's stack-cache part. -/
def ringBytes (r : Resource) : Nat := if r.external then 0 else r.ringSlots * tileBytes r

def reservedIn (rs : List Resource) (v : Nat) : Nat := ((rs.filter fun r => !r.external && r.vault = v).map ringBytes).sum

/-- Bytes that die `d` holds of a sector go to DRAM, which makes its own ECC after the check: a mismatch poisons the sector,
for the other die too unless its stack cache holds the sector, and the host receives an integrity notice (R323). -/
def dramWrite (s : State) (d sector : Nat) : State :=
  if (mismatchAt s d sector 128).isSome then
    let s := updDie s d fun x => { x with flaws := x.flaws.mend fun b => sectorOf b = sector }
    let held := (getDie s (1 - d)).sectors.any fun x => x.addr = sector
    let s := updDie s d fun x => { x with flaws := x.flaws.addPoison sector }
    let s := if held then s else updDie s (1 - d) fun x => { x with flaws := x.flaws.addPoison sector }
    (notify s (.integrity sector) none).1
  else s

/-- A sector leaves a die's stack cache: a dirty one is written back, which exports its writes (R219, R242). -/
def evictSector (s : State) (d sector : Nat) : State :=
  let dirty := (getDie s d).sectors.any fun x => x.addr = sector && x.dirty
  let s := if dirty then dramWrite (homeWriteBack s d sector) d sector else s
  updDie s d fun x => { x with sectors := x.sectors.filter fun y => y.addr ≠ sector }

/-- The vault of a die whose stack-cache part holds the 1 KiB line of an address (R219; the hash is log 38's). -/
def stackVault (die a : Nat) : Nat := 4 * die + Config.stackHash (a / 1024) % 4

/-- The 1 KiB lines whose sectors a vault's stack-cache part holds, oldest first. -/
def stackLines (s : State) (v : Nat) : List Nat :=
  ((getDie s (v / 4)).sectors.map fun x => x.addr / 1024).dedup.filter fun l => stackVault (v / 4) (1024 * l) = v

/-- The lines for which a vault has capacity: its stack-cache part less what rings reserve of it (R219, R275). -/
def stackRoom (s : State) (v : Nat) : Nat :=
  ((s.vaults.getD v Vault.reset).cacheSteps * 2 ^ 28 - reservedIn (s.graphs.flatMap Graph.resources) v) / 1024

/-- A line leaves a die's stack cache, and what was asked for it is forgotten. -/
def evictStackLine (s : State) (d l : Nat) : State :=
  updDie ((((getDie s d).sectors.map Sector.addr).filter fun a => a / 1024 = l).foldl (fun s a => evictSector s d a) s) d
    fun x => { x with asked := x.asked.filter fun r => r.1 ≠ l }

/-- `resh` asks a die's stack cache to keep the 1 KiB line of an address, or to give it up first (R118): a line that is not
there is asked for in vain. -/
def askLine (s : State) (d a : Nat) (keep : Bool) : State :=
  if (getDie s d).sectors.any fun x => x.addr / 1024 = a / 1024 then
    updDie s d fun x => { x with asked := (a / 1024, keep) :: x.asked.filter fun r => r.1 ≠ a / 1024 }
  else s

/-- Lines in the order in which they leave: those that `resh` gives up first, those it keeps last (R118), and the oldest
first among each. -/
def leaveOrder (asked : List (Nat × Bool)) (held : List Nat) : List Nat :=
  held.filter (fun l => asked.contains (l, false)) ++
    held.filter (fun l => !asked.contains (l, false) && !asked.contains (l, true)) ++
    held.filter fun l => asked.contains (l, true)

/-- Lines leave a vault's stack-cache part until it holds no more than `room`, in the order of `leaveOrder` (R118, R219;
that the oldest go first is DESIGN CHOICE, log 38). -/
def trimVault (s : State) (v room : Nat) : State :=
  let held := leaveOrder (getDie s (v / 4)).asked (stackLines s v)
  (held.take (held.length - room)).foldl (fun s l => evictStackLine s (v / 4) l) s

/-- No vault holds cached lines in capacity that rings reserve (R219). -/
def trimVaults (s : State) : State := (List.range s.vaults.length).foldl (fun s v => trimVault s v (stackRoom s v)) s

/-- A line that leaves L1 or another path's cache is filled through the die's stack cache (R219): a sector of board or
deep memory that is not held is filled and counted for the core (event 13 of R363), and a new line displaces the oldest one
where its vault has no capacity left.  Under `.nt` it is allocated only when its 1 KiB line is there (R111). -/
def fillSector (s : State) (k a : Nat) (nt : Bool) : State :=
  let held := (getDie s (dieOf k)).sectors
  let here := held.any fun x => x.addr = sectorOf a
  let line := held.any fun x => x.addr / 1024 = a / 1024
  let v := stackVault (dieOf k) a
  let room := stackRoom s v
  if a < tierBase 1 then countPages s [a]
  else if tierBase 3 ≤ a || here || (!line && (nt || room = 0)) then s
  else
    let s := if line then s else trimVault s v (room - 1)
    bump (updDie s (dieOf k) fun d => { d with sectors := d.sectors ++ [⟨sectorOf a, false⟩] }) k 13 none 1

/-- The distributor hints bytes toward the stack cache of core `k`; a hint never faults (R118, R298). -/
def hintBytes (s : State) (k va n : Nat) : State :=
  ((List.range (n / 128 + 2)).map fun i => 128 * (va / 128 + i)).foldl (fun s a =>
    if va + n ≤ a then s
    else match translate s k a .read with
      | .ok p false => if p < tierBase 1 then s else fillSector s k p false
      | _ => s) s

/-- A thread place of a core: lane times 32 plus the place among the lane's threads, in the order in which the groups that
hold lanes of the core arrived (R186, R190). -/
def threadPlace (s : State) (g : Group) (t : ThreadRef) : Nat :=
  let earlier := s.groups.filter fun h => h.core = g.core && h.core.isSome && h.arrival < g.arrival
  t.lane * 32 + (earlier.map fun h => (h.threads.filter fun th => th.lane = t.lane).length).sum + t.row

/-! ## Taking a fault (R41, R152, R330-R333) -/

/-- The codes of R331. -/
inductive Code where
  | illegalOpcode | illegalModifier | clauseFormat | privileged | lanesetMismatch | distanceRange
  | illegalOperand | bounds | segmentLimit | misaligned | pageAbsent | pageProtect | discardedWrite
  | swizzleMismatch | undeclaredRead | poison | checkMismatch | mxHandle | ringViolation | trap | brk
  deriving DecidableEq, Repr

def Code.bits : Code → BitVec 8
  | .illegalOpcode => 0x01
  | .illegalModifier => 0x02
  | .clauseFormat => 0x03
  | .privileged => 0x04
  | .lanesetMismatch => 0x05
  | .distanceRange => 0x06
  | .illegalOperand => 0x07
  | .bounds => 0x10
  | .segmentLimit => 0x11
  | .misaligned => 0x12
  | .pageAbsent => 0x13
  | .pageProtect => 0x14
  | .discardedWrite => 0x15
  | .swizzleMismatch => 0x16
  | .undeclaredRead => 0x17
  | .poison => 0x18
  | .checkMismatch => 0x19
  | .mxHandle => 0x20
  | .ringViolation => 0x31
  | .trap => 0x40
  | .brk => 0x41

inductive Route where
  | vector | supervisor | processor | host
  deriving DecidableEq, Repr

/-- The route of a code (R331): codes 0x13, 0x14, 0x15, 0x18 and 0x19 go to the command processor. -/
def routeOf (code : BitVec 8) : Route :=
  if code = 0x13 || code = 0x14 || code = 0x15 || code = 0x18 || code = 0x19 then .processor else .vector

/-- Writes a record to the fault registers (R150, R330). -/
def Thread.writeRecord (th : Thread) (r : Record) : Thread :=
  { th with
    faultInfo := (if r.committed then 0x100 else 0) ||| r.code.setWidth 32
    faultPc := r.pc
    faultHdr := r.hdr
    data0 := r.data0
    data1 := r.data1 }

/-- The segment is discarded and the thread waits at the record's pc (R41, R196); an atomic or `waita` that failed after
commit is executed again from there (R123, R124). -/
def Thread.discard (th : Thread) (r : Record) : Thread :=
  { th with pc := r.pc, hdr := r.hdr, record := some r, seg := Segment.empty r.pc r.hdr, waiting := none }

/-- The target check of R73 for a group that stands on no core: the word is read without a core's caches. -/
def vectorFault (s : State) (g : Group) (pass : Pass) (target : Nat) : Bool :=
  target % 8 ≠ 0 || decide (effLimit (padBytes pass) (g.g.getD 0 0) < target + 8) ||
    match hRead s (segBase (g.g.getD 0 0) + target) 8 with
    | some bs =>
      let h : Wide := BitVec.ofNat 64 (ofBytes bs)
      hdrMark h ≠ 0xC || !hdrBlock h
    | none => true

/-- Whether the pass's trap vector is usable: it passes the checks of R73 (R152). -/
def vectorUsable (s : State) (g : Group) (pass : Pass) : Bool :=
  pass.trapVector ≠ 0xFFFF_FFFF &&
  match g.core with
  | some k => (targetFault s k g pass pass.trapVector.toNat).isNone
  | none => !vectorFault s g pass pass.trapVector.toNat

/-- Delivery to the trap vector (R152): the record is saved, `in_handler` is set, and the thread is ready at
the vector. -/
def deliver (s : State) (t : ThreadRef) (vector : Word) (r : Record) : State :=
  let s := updThread s t fun th =>
    { (th.discard r).writeRecord r with
      inHandler := true, pc := vector, hdr := vector, seg := Segment.empty vector vector, waiting := none,
      record := none, notice := none, split := false, rewait := false }
  makeReady s t

def faultPayload (s : State) (g : Group) (t : ThreadRef) (r : Record) : Payload :=
  let va := match r.key with
    | some (.page _) => r.data0.toNat + (r.data1.extractLsb' 0 16).toNat * 2 ^ 32
    | _ => 0
  .fault g.ctx g.stage (g.core.getD 0) (threadPlace s g t) r.code.toNat va

/-- The thread enters parked-host: its registers take the record, and a notice is sent unless one is outstanding for the
same page or register and code (R330, R332). -/
def parkHost (s : State) (t : ThreadRef) (r : Record) : State :=
  match findThread s t with
  | none => s
  | some (g, _) =>
    let (s, n) := faultNotice s (faultPayload s g t r) (r.key.getD (.thread t), r.code)
    let s := updThread s t fun th =>
      { (th.discard r).writeRecord r with status := .parkedHost, notice := some n, split := false }
    joinTable s t

/-- The vector route of R332. -/
def routeVector (s : State) (t : ThreadRef) (r : Record) : State :=
  match findThread s t with
  | none => s
  | some (g, th) =>
    match findPass s g.ctx g.stage with
    | none => parkHost s t r
    | some pass =>
      if vectorUsable s g pass && !th.inHandler then deliver s t pass.trapVector r
      else parkHost s t r

/-- The command-processor route of R332: the thread is held in parked-fault on a notice. -/
def routeProcessor (s : State) (t : ThreadRef) (r : Record) : State :=
  match findThread s t with
  | none => s
  | some (g, _) =>
    let (s, n) := faultNotice s (faultPayload s g t r) (r.key.getD (.thread t), r.code)
    let s := updThread s t fun th =>
      { th.discard r with status := .parkedFault, notice := some n, split := false }
    joinTable s t

/-- The supervisor route (R333): the split flag is set and the thread is ready at `pc`; nothing is delivered. -/
def routeSupervisor (s : State) (t : ThreadRef) (r : Record) : State :=
  makeReady (updThread s t fun th => { th.discard r with split := true, record := none }) t

/-- Taking a fault: the segment is discarded (R41), and the thread is parked and routed as R332 says.
`split` tells that a MISALIGNED fault is one the supervisor routine handles (R333). -/
def takeFault (s : State) (t : ThreadRef) (r : Record) (split : Bool) : State :=
  match findThread s t with
  | none => s
  | some (g, th) =>
    let s := bump s (g.core.getD 0) 10 (some g.stage) 1
    if th.inHandler then parkHost s t r
    else if split then routeSupervisor s t r
    else match routeOf r.code with
      | .processor => routeProcessor s t r
      | .vector | .supervisor | .host => routeVector s t r

/-- The effect of a thread that resumes on a core, evaluated afresh: a timeout is counted from now (R201). -/
def Effect.reissued (now : Nat) : Effect → Effect
  | .wait ty cond loc va cmp timeout guard _ pc hdr => .wait ty cond loc va cmp timeout guard now pc hdr
  | e => e

/-- A parked thread is ready at its pc (R334): the segment is executed again from its first word, and an atomic or a
`waita` that faulted after commit is itself executed again (R123, R124). -/
def resumeThread (s : State) (t : ThreadRef) : State :=
  makeReady (updThread s t fun th => { th with record := none, notice := none }) t

/-- The host's resume command: the thread's own notice is outstanding no longer (R332, R334; DESIGN CHOICE, log 52). -/
def hostResume (s : State) (t : ThreadRef) : State := resumeThread (endNotices s t) t

/-! ## Tokens (R19) and the wait fields of a header (R23) -/

/-- Whether the wait fields of the clause of a thread's continuation are satisfied; a header beyond the g0 limit
holds nothing back. -/
def waitsMet (s : State) (k : Nat) (g : Group) (th : Thread) : Bool :=
  let h := codeWord s k g th.hdr.toNat
  segLimit (g.g.getD 0 0) < th.hdr.toNat + 8 ||
    ((hdrWaitMask h &&& ((g.rows[th.row]?).map Row.pend).getD 0) = 0 &&
      (!hdrWaitLoads h || th.seg.loads.isEmpty) && (!hdrWaitStores h || th.buffer.isEmpty))

/-- Whether the clause of a thread's continuation is a gather clause: its wait fields do not count for eligibility
(R188). -/
def atGather (s : State) (k : Nat) (g : Group) (th : Thread) : Bool := hdrGather (codeWord s k g th.hdr.toNat)

/-- Whether the selector may take the thread: it is ready, or its segment is to be executed again (R185, R188, R197). -/
def Thread.selects (th : Thread) : Bool := th.status = .ready || (th.status = .committing && th.seg.again)

/-- A thread whose wait fields become satisfied is eligible from now on (R188). -/
def refreshReady (before after : State) (n : Nat) : State :=
  match findGroup before n, findGroup after n with
  | some old, some new => match new.core with
    | some k =>
      let now := (getCore after k).cycles.toNat
      updGroup after n fun g => { g with threads := g.threads.map fun th =>
        let was := match old.thread th.row th.lane with
          | some o => waitsMet before k old o
          | none => true
        if th.selects && !was && waitsMet after k new th && !atGather after k new th then { th with readyAt := now } else th }
    | none => after
  | _, _ => after

/-- The device writes a token: the scalar takes the value and its pending flag clears. -/
def writeToken (s : State) (group row n : Nat) (x : Word) : State :=
  refreshReady s (updGroup s group fun g => g.updRow row fun r =>
    { r with s := r.s.set n x, pend := r.pend &&& ~~~ (1#16 <<< n), marks := r.marks.filter (· ≠ n) }) group

/-- An effect that names a token issues: its pending flag is set. -/
def setPending (s : State) (group row n : Nat) : State :=
  updGroup s group fun g => g.updRow row fun r => { r with pend := r.pend ||| (1#16 <<< n) }

def findDup {α : Type} [DecidableEq α] : List α → Bool
  | [] => false
  | x :: xs => xs.contains x || findDup xs

end Sys2Proof.Machine
end

