-- ==== Sys2Proof/Machine/Operands.lean ====
section
/-!
DEFINITION. How an executing word reads its operands and writes its results (R14-R19, R31-R37), for one
thread of an issue group.
-/

namespace Sys2Proof.Machine

/-! ## The registers as a thread sees them (R17) -/

/-- The value a held write gives register `n`, if it writes it. -/
def RegWrite.hits : RegWrite → RegName → Option (BitVec 128)
  | .v i x, .v j => if i = j then some (x.setWidth 128) else none
  | .s i x, .s j => if i = j then some (x.setWidth 128) else none
  | .p i x, .p j => if i = j then some (if x then 1 else 0) else none
  | .k i x, .k j => if i = j then some x else none
  | .b i x, .b j => if i = j then some x else none
  | .g i x, .g j => if i = j then some x else none
  | _, _ => none

def Result.hit (r : Result) (n : RegName) : Option (BitVec 128) := r.writes.findSome? fun w => w.hits n

/-- The last write of a segment to a register, and whether its data has arrived; the newest result stands
first. -/
def Segment.hit (seg : Segment) (n : RegName) : Option (Bool × BitVec 128) :=
  seg.results.findSome? fun r => (r.hit n).map fun x => (r.ready, x)

/-- A load of the segment has returned bytes whose check code is wrong: it will be replayed (R107, R197, R323). -/
def Segment.miss (seg : Segment) : Segment := { seg with missed := true, owing := seg.owing + 1 }

def noRow : Row := ⟨[], 0, [], []⟩
def Group.row (g : Group) (r : Nat) : Row := g.rows.getD r noRow

/-- The committed value of a register; p0 reads true (R18). -/
def committedReg (g : Group) (th : Thread) : RegName → BitVec 128
  | .v i => (th.v.getD i 0).setWidth 128
  | .s i => ((g.row th.row).s.getD i 0).setWidth 128
  | .p i => if i = 0 || th.p.getLsbD i then 1 else 0
  | .k i => th.k.getD i 0
  | .b i => g.b.getD i 0
  | .g i => g.g.getD i 0

/-- A register as the thread reads it: its own last write in the segment, or the committed value (R17). -/
def regNow (g : Group) (th : Thread) (n : RegName) : BitVec 128 :=
  match th.seg.hit n with
  | some (_, x) => x
  | none => committedReg g th n

/-- Whether a scalar is pending (R19). -/
def scalarPending (g : Group) (row i : Nat) : Bool := i < 16 && (g.row row).pend.getLsbD i

/-- Whether the register's value has arrived: no load of the segment still writes it, and it is no pending
scalar (R19). -/
def regReady (g : Group) (th : Thread) (n : RegName) : Bool :=
  match th.seg.hit n with
  | some (r, _) => r
  | none => match n with
    | .s i => !scalarPending g th.row i
    | _ => true

/-- Whether the register is marked poisoned and not written since (R337). -/
def regPoisoned (g : Group) (th : Thread) (n : RegName) : Bool :=
  (th.seg.hit n).isNone && match n with
    | .s i => (g.row th.row).marks.contains i
    | .b _ | .g _ => g.marks.contains n
    | .v _ | .p _ | .k _ => th.marks.contains n

/-- The identifier of a register in a POISON record (R337). -/
def regIdent : RegName → Word
  | .v i => BitVec.ofNat 32 i
  | .s i => BitVec.ofNat 32 (0x310 + i)
  | .p i => BitVec.ofNat 32 (0x350 + i)
  | .k i => BitVec.ofNat 32 (0x358 + i)
  | .b i => BitVec.ofNat 32 (0x400 + i)
  | .g i => BitVec.ofNat 32 (0x420 + i)

/-- Who holds the register a POISON notice is keyed by (R332): the thread, the row or the group. -/
def regKey (t : ThreadRef) (n : RegName) : FaultKey :=
  match n with
  | .s _ => .register ⟨t.group, t.row, 0⟩ n
  | .b _ | .g _ => .register ⟨t.group, 0, 0⟩ n
  | .v _ | .p _ | .k _ => .register t n

/-! ## The place of an executing word -/

/-- One thread at one word: the state before the issue group began the word, the thread's core, group, pass
and itself in that state, and the word with its address and its clause's header address. -/
structure Site where
  before : State
  core   : Nat
  t      : ThreadRef
  g      : Group
  th     : Thread
  pass   : Pass
  pc     : Word
  hdr    : Word
  word   : Wide
  lit    : Option Wide
  /-- The word reads `timelo`, so that `timehi` reads the same sample (R35). -/
  latch  : Bool

/-- A fault an instruction raises (R331), before it has become a record: `key` for a fault that has a page
or a register, `split` for a MISALIGNED fault that takes the supervisor route (R333). -/
structure Trouble where
  code  : Code
  data0 : Word
  data1 : Word
  key   : Option FaultKey
  split : Bool
  deriving DecidableEq, Repr

/-- A fault whose second data word is the address of the instruction, A in R331. -/
def Site.trouble (x : Site) (code : Code) (data0 : Word) : Trouble := ⟨code, data0, x.pc, none, false⟩

/-- ILLEGAL_MODIFIER and PRIVILEGED record the low half of the instruction word (R331). -/
def Site.badModifier (x : Site) : Trouble := x.trouble .illegalModifier (x.word.setWidth 32)
def Site.notPrivileged (x : Site) : Trouble := x.trouble .privileged (x.word.setWidth 32)

/-- ILLEGAL_OPERAND: the field, 0 to 3 for d to c, and its code (R331). -/
def Site.badOperand (x : Site) (field : Nat) (code : BitVec 10) : Trouble :=
  x.trouble .illegalOperand ((code.setWidth 32 <<< 16) ||| BitVec.ofNat 32 field)

def Site.poisonedReg (x : Site) (n : RegName) : Trouble :=
  ⟨.poison, regIdent n, 0x40000, some (regKey x.t n), false⟩

/-! ## Reading operands (R31-R37) -/

/-- The FP32 pattern of a float constant (R33). -/
def fltPattern (i : Nat) : Word :=
  [0x00000000#32, 0x3F000000, 0x3F800000, 0x40000000, 0x40800000, 0x41000000, 0x3E800000, 0x3E000000,
   0xBF000000, 0xBF800000, 0xC0000000, 0xC0800000, 0x40490FDB, 0x3E22F983, 0x3F317218, 0x3FB8AA3B].getD i 0

/-- A special of R34. -/
def Site.special (x : Site) (wide : Bool) (i : Nat) : Wide :=
  match i with
  | 0 => BitVec.ofNat 64 x.t.lane
  | 1 => BitVec.ofNat 64 x.t.row
  | 2 => BitVec.ofNat 64 (x.t.row * 128 + x.t.lane)
  | 3 => (BitVec.ofNat 32 x.g.x).setWidth 64
  | 4 => (BitVec.ofNat 32 x.g.y).setWidth 64
  | 5 => (BitVec.ofNat 32 x.g.z).setWidth 64
  | 6 => (BitVec.ofNat 32 (x.g.x + x.pass.originX)).setWidth 64
  | 7 => (BitVec.ofNat 32 (x.g.y + x.pass.originY)).setWidth 64
  | 8 => BitVec.ofNat 64 x.g.stage
  | 9 => BitVec.ofNat 64 (x.g.lcore.getD x.core)
  | 10 => BitVec.ofNat 64 x.core
  | 11 => if wide then x.before.time else (x.before.time.setWidth 32).setWidth 64
  | 12 =>
    let now := x.before.time.extractLsb' 32 32
    (if x.latch then now else x.th.seg.timeHigh.getD now).setWidth 64
  | 13 => ((getCore x.before x.core).cycles.setWidth 32).setWidth 64
  | _ => 0

/-- The result a distance reaches: number `i` counting back from 0 among the counted results (R37). -/
def Segment.distance (seg : Segment) (i : Nat) : Option Result := (seg.results.filter fun r => r.counts)[i]?

/-- The low 32 bits of a value, zero-extended. -/
def narrow (x : Wide) : Wide := (x.setWidth 32).setWidth 64

/-- A register as a 32-bit word. -/
def Site.reg (x : Site) (n : RegName) : Word := (regNow x.g x.th n).setWidth 32

/-- An even register and its successor, or one register (R16). -/
def Site.regs (x : Site) (wide : Bool) (f : Nat → RegName) (i : Nat) : Wide :=
  if wide then x.reg (f (i + 1)) ++ x.reg (f i) else (x.reg (f i)).setWidth 64

/-- The value an operand code supplies in an integer context of 64 bits (`wide`) or 32 bits. -/
def Site.read (x : Site) (wide : Bool) : Operand → Wide
  | .v i => x.regs wide .v i.val
  | .s i => x.regs wide .s i.val
  | .p i => (x.reg (.p i.val)).setWidth 64
  | .dist i =>
    let r := (x.th.seg.distance i.val).map Result.value
    if wide then r.getD 0 else narrow (r.getD 0)
  | .int n => BitVec.ofNat 64 n.val
  | .flt i => (fltPattern i.val).setWidth 64
  | .special i => x.special wide i.val
  | .literal => if wide then x.lit.getD 0 else narrow (x.lit.getD 0)
  | .k _ | .reservedLow _ | .reservedHigh _ => 0

/-- The same as a 32-bit word. -/
def Site.read32 (x : Site) (o : Operand) : Word := (x.read false o).setWidth 32

/-- A lane set operand as the thread reads it (R140). -/
def Site.lanes (x : Site) : Operand → BitVec 128
  | .k i => regNow x.g x.th (.k i.val)
  | _ => 0

/-- `n` consecutive v registers, the first in the low word. -/
def Site.run (x : Site) (n : Nat) : Operand → List Word
  | .v i => (List.range n).map fun j => x.reg (.v (i.val + j))
  | _ => List.replicate n 0

def quad (ws : List Word) : BitVec 128 := ws.getD 3 0 ++ ws.getD 2 0 ++ ws.getD 1 0 ++ ws.getD 0 0

/-! ## Writing results (R16-R18) -/

/-- The held writes of a value to a destination, and the value a distance supplies.  A p destination takes
whether the value is nonzero, and p0 discards the write (R18). -/
def destWrites (wide : Bool) (x : Wide) : Operand → List RegWrite × Wide
  | .v i =>
    if wide then ([.v i.val (x.setWidth 32), .v (i.val + 1) (x.extractLsb' 32 32)], x)
    else ([.v i.val (x.setWidth 32)], narrow x)
  | .s i =>
    if wide then ([.s i.val (x.setWidth 32), .s (i.val + 1) (x.extractLsb' 32 32)], x)
    else ([.s i.val (x.setWidth 32)], narrow x)
  | .p i =>
    let y := if wide then x else narrow x
    (if i.val = 0 then [] else [.p i.val (y ≠ 0)], if y ≠ 0 then 1 else 0)
  | _ => ([], x)

/-- A result that is a truth value: a p destination receives it, another the 32-bit value 1 or 0 (R68). -/
def destBool (x : Bool) (o : Operand) : List RegWrite × Wide := destWrites false (if x then 1 else 0) o

/-- Consecutive v registers written from a list of words, and the low 64 bits for a distance (R37). -/
def runWrites (ws : List Word) : Operand → List RegWrite × Wide
  | .v i => ((List.range ws.length).map fun j => .v (i.val + j) (ws.getD j 0), ws.getD 1 0 ++ ws.getD 0 0)
  | _ => ([], 0)

/-- Adds the result of an instruction to the thread's segment, as the newest. -/
def Thread.push (th : Thread) (r : Result) : Thread := { th with seg := { th.seg with results := r :: th.seg.results } }

def addResult (s : State) (t : ThreadRef) (r : Result) : State := updThread s t fun th => th.push r

/-- The result of an instruction that counts for distances and whose data is there. -/
def finish (s : State) (x : Site) (r : List RegWrite × Wide) : State := addResult s x.t ⟨0, true, true, r.1, r.2⟩

end Sys2Proof.Machine
end

