-- ==== Sys2Proof/Machine/Float.lean ====
section
/-!
DEFINITION. Number formats: the standard formats and their rounding (R78-R82), exact arithmetic on their
values, the approximating functions and their bounds (R91-R94), and the narrow formats and scales (R83-R86).
Every operation is computed exactly on integers and rounded once.
-/

namespace Sys2Proof.Machine

/-! ## Formats and values (R78) -/

/-- Fraction bits, exponent bits and bias of an FL format: FP32, FP16, BF16. -/
def fracBits (fmt : Nat) : Nat := if fmt = 0 then 23 else if fmt = 1 then 10 else 7
def expBits (fmt : Nat) : Nat := if fmt = 1 then 5 else 8
def fmtBias (fmt : Nat) : Nat := if fmt = 1 then 15 else 127
def fmtWidth (fmt : Nat) : Nat := if fmt = 0 then 32 else 16

/-- Exponent of the last place of a subnormal: the smallest subnormal is 2 to this power. -/
def fmtLow (fmt : Nat) : Int := 1 - fmtBias fmt - fracBits fmt

/-- The pattern of +infinity; the largest finite pattern is one less. -/
def infBits (fmt : Nat) : Nat := (2 ^ expBits fmt - 1) * 2 ^ fracBits fmt
def signBit (fmt : Nat) (neg : Bool) : Nat := if neg then 2 ^ (fmtWidth fmt - 1) else 0
def canonicalNan (fmt : Nat) : Nat := infBits fmt + 2 ^ (fracBits fmt - 1)

/-- A value: NaN, an infinity, or m × 2^e with a sign, a zero keeping its sign. -/
inductive FVal where
  | nan
  | inf (neg : Bool)
  | fin (neg : Bool) (m : Nat) (e : Int)
  deriving DecidableEq, Repr

/-- The value of a pattern (R78); subnormals are read as their values (R80). -/
def unpack (fmt : Nat) (x : Nat) : FVal :=
  let f := x % 2 ^ fracBits fmt
  let e := x / 2 ^ fracBits fmt % 2 ^ expBits fmt
  let neg := x / 2 ^ (fmtWidth fmt - 1) % 2 = 1
  if e = 2 ^ expBits fmt - 1 then (if f = 0 then .inf neg else .nan)
  else if e = 0 then .fin neg f (fmtLow fmt)
  else .fin neg (2 ^ fracBits fmt + f) (fmtLow fmt + (e - 1 : Nat))

def bitLength (n : Nat) : Nat := if n = 0 then 0 else Nat.log2 n + 1

/-! ## Rounding (R81) -/

/-- Whether a magnitude between `keep` and `keep + 1` rounds up: `rem` of `2 ^ shift` is cut off, and
`sticky` tells of a nonzero rest below it.  Modes 0 nearest-even, 1 toward zero, 2 up, 3 down. -/
def roundsUp (rnd : Nat) (neg : Bool) (keep rem shift : Nat) (sticky : Bool) : Bool :=
  match rnd with
  | 0 => 2 ^ shift < 2 * rem || (2 * rem = 2 ^ shift && 0 < rem && (sticky || keep % 2 = 1))
  | 2 => !neg && (rem ≠ 0 || sticky)
  | 3 => neg && (rem ≠ 0 || sticky)
  | _ => false

/-- Rounds m × 2^e to at most `p` bits with no last place below 2^low: the kept integer and its exponent. -/
def roundMag (p : Nat) (low : Int) (rnd : Nat) (neg : Bool) (m : Nat) (e : Int) (sticky : Bool) : Nat × Int :=
  let q := max (e + bitLength m - p) low
  if q ≤ e then (m * 2 ^ (e - q).toNat, q)
  else
    let shift := (q - e).toNat
    let keep := m / 2 ^ shift
    (keep + (if roundsUp rnd neg keep (m % 2 ^ shift) shift sticky then 1 else 0), q)

/-- The code of keep × 2^q in a format with `f` fraction bits and subnormals at 2^low, without upper limit. -/
def codeOf (f : Nat) (low : Int) (keep : Nat) (q : Int) : Nat :=
  if keep < 2 ^ f then keep else ((q - low).toNat + 1) * 2 ^ f + keep - 2 ^ f

/-- What an overflow gives (R81). -/
def overflowBits (fmt rnd : Nat) (neg : Bool) : Nat :=
  let big := match rnd with
    | 0 => true
    | 1 => false
    | 2 => !neg
    | _ => neg
  signBit fmt neg + (if big then infBits fmt else infBits fmt - 1)

/-- Rounds a finite value to a standard format (R80, R81). -/
def roundTo (fmt rnd : Nat) (neg : Bool) (m : Nat) (e : Int) (sticky : Bool) : Nat :=
  let (keep, q) := roundMag (fracBits fmt + 1) (fmtLow fmt) rnd neg m e sticky
  let code := codeOf (fracBits fmt) (fmtLow fmt) keep q
  if infBits fmt ≤ code then overflowBits fmt rnd neg else signBit fmt neg + code

/-- A value rounded to a format; NaN becomes canonical. -/
def packVal (fmt rnd : Nat) : FVal → Nat
  | .nan => canonicalNan fmt
  | .inf neg => signBit fmt neg + infBits fmt
  | .fin neg m e => roundTo fmt rnd neg m e false

/-! ## Exact arithmetic (R80, R91) -/

def fzero (neg : Bool) : FVal := .fin neg 0 0

def negVal : FVal → FVal
  | .nan => .nan
  | .inf n => .inf (!n)
  | .fin n m e => .fin (!n) m e

/-- An exact sum; an exact zero of unlike addends is -0 only when rounding down (R80). -/
def addVal (rnd : Nat) : FVal → FVal → FVal
  | .nan, _ | _, .nan => .nan
  | .inf a, .inf b => if a = b then .inf a else .nan
  | .inf a, _ | _, .inf a => .inf a
  | .fin n1 m1 e1, .fin n2 m2 e2 =>
    let e := min e1 e2
    let x : Int := (m1 : Int) * 2 ^ (e1 - e).toNat * (if n1 then -1 else 1)
    let y : Int := (m2 : Int) * 2 ^ (e2 - e).toNat * (if n2 then -1 else 1)
    if x + y = 0 then
      (if m1 = 0 && m2 = 0 && n1 = n2 then fzero n1 else fzero (rnd = 3))
    else .fin (x + y < 0) (x + y).natAbs e

def mulVal : FVal → FVal → FVal
  | .nan, _ | _, .nan => .nan
  | .inf a, .inf b => .inf (a != b)
  | .inf a, .fin b m _ | .fin b m _, .inf a => if m = 0 then .nan else .inf (a != b)
  | .fin a m e, .fin b n f => .fin (a != b) (m * n) (e + f)

/-- A correctly rounded quotient (R91): the quotient is taken with three bits beyond the format and the rest
is sticky. -/
def divBits (fmt rnd : Nat) : FVal → FVal → Nat
  | .nan, _ | _, .nan => canonicalNan fmt
  | .inf _, .inf _ => canonicalNan fmt
  | .inf a, .fin b _ _ => packVal fmt rnd (.inf (a != b))
  | .fin a _ _, .inf b => packVal fmt rnd (fzero (a != b))
  | .fin a m e, .fin b n f =>
    if n = 0 then (if m = 0 then canonicalNan fmt else packVal fmt rnd (.inf (a != b)))
    else if m = 0 then packVal fmt rnd (fzero (a != b))
    else
      let k := fracBits fmt + 4 + bitLength n - bitLength m
      roundTo fmt rnd (a != b) (m * 2 ^ k / n) (e - f - k) (m * 2 ^ k % n ≠ 0)

/-- The integer square root, found bit by bit from bit `n - 1` down. -/
def isqrtFrom : Nat → Nat → Nat → Nat
  | 0, _, r => r
  | n + 1, x, r => isqrtFrom n x (if (r + 2 ^ n) * (r + 2 ^ n) ≤ x then r + 2 ^ n else r)

def isqrt (x : Nat) : Nat := isqrtFrom (bitLength x / 2 + 1) x 0

/-- A correctly rounded square root (R91, R94). -/
def sqrtBits (fmt rnd : Nat) : FVal → Nat
  | .nan => canonicalNan fmt
  | .inf neg => if neg then canonicalNan fmt else infBits fmt
  | .fin neg m e =>
    if m = 0 then signBit fmt neg
    else if neg then canonicalNan fmt
    else
      let k := 2 * (fracBits fmt + 4) + (e % 2).toNat
      let x := m * 2 ^ k
      roundTo fmt rnd false (isqrt x) ((e - k) / 2) (isqrt x * isqrt x ≠ x)

/-- The magnitude of m × 2^e rounded to an integer. -/
def roundInt (rnd : Nat) (neg : Bool) (m : Nat) (e : Int) : Nat :=
  let (keep, q) := roundMag (max (bitLength m + e.toNat) 1) 0 rnd neg m e false
  keep * 2 ^ q.toNat

/-- `frnd` (R91): a rounded to an integral value; a zero result keeps the sign of the source. -/
def frndVal (rnd : Nat) : FVal → FVal
  | .fin neg m e => if 0 ≤ e then .fin neg m e else .fin neg (roundInt rnd neg m e) 0
  | v => v

/-- `ffrac` (R91, R94): a - floor(a), exactly. -/
def ffracVal : FVal → FVal
  | .fin neg m e =>
    if 0 ≤ e then fzero false
    else
      let one := 2 ^ (-e).toNat
      let f := m % one
      if f = 0 then fzero false else .fin false (if neg then one - f else f) e
  | _ => .nan

/-- `fscale` (R91): a × 2^n.  Beyond ±1000 a larger count changes no result of any format. -/
def fscaleVal (n : Int) : FVal → FVal
  | .fin neg m e => .fin neg m (e + max (-1000) (min 1000 n))
  | v => v

/-! ## Ordering (R92, R95) -/

/-- A pattern that is no NaN as an integer that orders -0 below +0 (R92). -/
def orderKey (fmt : Nat) (x : Nat) : Int :=
  let h := 2 ^ (fmtWidth fmt - 1)
  if x % (2 * h) < h then (x % h : Nat) else -((x % h : Nat) : Int) - 1

def isNan (fmt : Nat) (x : Nat) : Bool := infBits fmt < x % 2 ^ (fmtWidth fmt - 1)

/-- The lesser or the greater of two patterns, bit for bit (R92). -/
def pickBits (fmt : Nat) (greater : Bool) (a b : Nat) : Nat :=
  if isNan fmt a then (if isNan fmt b then canonicalNan fmt else b)
  else if isNan fmt b then a
  else if (orderKey fmt a < orderKey fmt b) = greater then b else a

/-- The conditions of `fcmp` (R95): zeros compare equal, and NaN makes only ne and un true. -/
def fcmpHolds (fmt cond a b : Nat) : Bool :=
  let nan := isNan fmt a || isNan fmt b
  let zero := fun x => x % 2 ^ (fmtWidth fmt - 1) = 0
  let x := if zero a then 0 else orderKey fmt a
  let y := if zero b then 0 else orderKey fmt b
  match cond with
  | 0 => !nan && x = y
  | 1 => nan || x ≠ y
  | 2 => !nan && x < y
  | 3 => !nan && x ≤ y
  | 4 => !nan && x > y
  | 5 => !nan && x ≥ y
  | 6 => nan
  | _ => !nan

/-- The clamp of `sat` (R82). -/
def satBits (fmt : Nat) (x : Nat) : Nat :=
  let one := fmtBias fmt * 2 ^ fracBits fmt
  if isNan fmt x || 2 ^ (fmtWidth fmt - 1) ≤ x then 0 else min x one

/-! ## Approximating functions (R93)

A dyadic m × 2^e stands for a real number known up to a slack.  The device's own bits are the opaque
`Config.approx`; they are used only where they meet the bound against a reference of at least 100 bits. -/

structure Dyadic where
  m : Int
  e : Int
  deriving DecidableEq, Repr

def Dyadic.at_ (x : Dyadic) (base : Int) : Int := x.m * 2 ^ (x.e - base).toNat

/-- |c - v| + slack ≤ bound. -/
def withinBound (c v bound slack : Dyadic) : Bool :=
  let base := min (min c.e v.e) (min bound.e slack.e)
  ((c.at_ base - v.at_ base).natAbs : Int) + slack.at_ base ≤ bound.at_ base

/-- The last place of a value of exponent `n` in a format. -/
def ulpExp (fmt : Nat) (n : Int) : Int := max (n - fracBits fmt) (fmtLow fmt)

def Dyadic.exponent (x : Dyadic) : Int := x.e + bitLength x.m.natAbs - 1

/-- `k` ulp of the value `v`. -/
def ulps (fmt k : Nat) (v : Dyadic) : Dyadic :=
  ⟨k, if v.m = 0 then fmtLow fmt else ulpExp fmt v.exponent⟩

def roundDyadic (fmt : Nat) (v : Dyadic) : Nat := roundTo fmt 0 (v.m < 0) v.m.natAbs v.e false

/-- The device's bits for a source, or the rounded reference where they would break the bound. -/
def approxBits (opcode fmt src : Nat) (v bound slack : Dyadic) : Nat :=
  let c := (Config.approx opcode fmt src).toNat % 2 ^ fmtWidth fmt
  match unpack fmt c with
  | .fin neg m e => if withinBound ⟨if neg then -m else m, e⟩ v bound slack then c else roundDyadic fmt v
  | _ => roundDyadic fmt v

/-- 2π × 2^160 and ln 2 × 2^128, rounded down. -/
def twoPi160 : Nat := 0x6487ed5110b4611a62633145c06e0e68948127044
def ln2_128 : Nat := 0xb17217f7d1cf79abc9e3b39803f2f6af

/-- Terms of a power series with ratio `y / (i + 1)` at 128 bits. -/
def expSeries (y : Nat) : Nat → Nat → Nat → Nat
  | 0, _, _ => 0
  | n + 1, i, term => term + expSeries y n (i + 1) (term * y / 2 ^ 128 / i)

/-- 2^f × 2^128 for f of 128 fraction bits. -/
def exp2Frac (f : Nat) : Nat := expSeries (f * ln2_128 / 2 ^ 128) 40 1 (2 ^ 128)

/-- The integer part and 128 fraction bits of a finite value, rounded down; beyond ±2000 the value is cut. -/
def fixed128 (neg : Bool) (m : Nat) (e : Int) : Int :=
  let x : Int := if neg then -(m : Int) else m
  if 0 ≤ e + 128 then
    (if 12 < e + bitLength m then (if neg then -2000 else 2000) * 2 ^ 128 else x * 2 ^ (e + 128).toNat)
  else x / 2 ^ (-(e + 128)).toNat

/-- `fexp2` (R93, R94).  Where the exact result is at or beyond 2^(bias + 1), outside the format, R93 and R94 state no
result: the device's own bits are not constrained there, except that a NaN is the canonical one (R80) (DESIGN CHOICE,
log 6). -/
def exp2Bits (fmt src : Nat) : Nat :=
  match unpack fmt src with
  | .nan => canonicalNan fmt
  | .inf neg => if neg then 0 else infBits fmt
  | .fin neg m e =>
    if m = 0 then roundTo fmt 0 false 1 0 false
    else
      let x := fixed128 neg m e
      let v : Dyadic := ⟨exp2Frac (x % 2 ^ 128).toNat, x / 2 ^ 128 - 128⟩
      if (fmtBias fmt : Int) < x / 2 ^ 128 then
        let own := (Config.approx 0x04C fmt src).toNat % 2 ^ fmtWidth fmt
        if isNan fmt own then canonicalNan fmt else own
      else approxBits 0x04C fmt src v (ulps fmt (if fmt = 0 then 2 else 1) v) ⟨2 ^ 20, v.e⟩

/-- Binary digits of log2 of x × 2^-160 in [1, 2). -/
def log2Digits : Nat → Nat → Nat → Nat
  | 0, _, acc => acc
  | n + 1, x, acc =>
    let y := x * x / 2 ^ 160
    if 2 ^ 161 ≤ y then log2Digits n (y / 2) (2 * acc + 1) else log2Digits n y (2 * acc)

def log2Bits (fmt src : Nat) : Nat :=
  match unpack fmt src with
  | .nan => canonicalNan fmt
  | .inf neg => if neg then canonicalNan fmt else infBits fmt
  | .fin neg m e =>
    if m = 0 then signBit fmt true + infBits fmt
    else if neg then canonicalNan fmt
    else
      let l := bitLength m - 1
      let v : Dyadic := ⟨(e + l) * 2 ^ 120 + log2Digits 120 (m * 2 ^ (160 - l)) 0, -120⟩
      let near := e + l = -1 || e + l = 0 || (e + l = 1 && m = 2 ^ l)
      approxBits 0x04D fmt src v (if fmt = 0 && near then ⟨1, -22⟩ else ulps fmt (if fmt = 0 then 2 else 1) v) ⟨16, -120⟩

def rsqrtBits (fmt src : Nat) : Nat :=
  match unpack fmt src with
  | .nan => canonicalNan fmt
  | .inf neg => if neg then canonicalNan fmt else 0
  | .fin neg m e =>
    if m = 0 then signBit fmt neg + infBits fmt
    else if neg then canonicalNan fmt
    else
      let m' := m * 2 ^ (e % 2).toNat
      let e' := e - e % 2
      let v : Dyadic := ⟨isqrt (2 ^ 256 / m'), -128 - e' / 2⟩
      approxBits 0x049 fmt src v (ulps fmt 1 v) ⟨2, v.e⟩

/-- Terms of the sine or cosine series at 160 bits: `x2` is the square of the angle. -/
def trigSeries (x2 : Nat) : Nat → Nat → Int → Int
  | 0, _, _ => 0
  | n + 1, i, term => term + trigSeries x2 n (i + 2) (-(term * x2 / 2 ^ 160 / ((i + 1) * (i + 2) : Nat)))

/-- sin or cos of 2π r for r × 2^160 in [-1/2, 1/2], × 2^160. -/
def sin160 (r : Int) : Int :=
  let x := r * twoPi160 / 2 ^ 160
  trigSeries (x * x / 2 ^ 160).toNat 40 1 x
def cos160 (r : Int) : Int :=
  let x := r * twoPi160 / 2 ^ 160
  trigSeries (x * x / 2 ^ 160).toNat 40 0 (2 ^ 160)

/-- The bound of `fsin` and `fcos`: an absolute error (R93). -/
def trigBound (fmt : Nat) : Dyadic := ⟨1, if fmt = 0 then -22 else if fmt = 1 then -10 else -7⟩

/-- `fsin` and `fcos` (R91, R93, R94): a is first reduced to a - frnd.rn(a), which is exact, and the result depends on
the reduced source alone. -/
def trigBits (cosine : Bool) (fmt src : Nat) : Nat :=
  match unpack fmt src with
  | .fin neg m e =>
    let n := roundInt 0 neg m e
    let a : Int := if 0 ≤ e then 0 else (m : Int) * 2 ^ (160 + e).toNat - (n : Int) * 2 ^ 160
    let r := if neg then -a else a
    let reduced := packVal fmt 0 (addVal 0 (.fin neg m e) (.fin (!neg) n 0))
    if cosine then
      if r = 2 ^ 158 then 0
      else if r = 0 then roundTo fmt 0 false 1 0 false
      else approxBits 0x04F fmt reduced ⟨cos160 r, -160⟩ (trigBound fmt) ⟨2 ^ 20, -160⟩
    else if r = 0 then signBit fmt neg
    else approxBits 0x04E fmt reduced ⟨sin160 r, -160⟩ (trigBound fmt) ⟨2 ^ 20, -160⟩
  | _ => canonicalNan fmt

/-! ## Narrow elements and scales (R83-R89, R98-R102) -/

def slotElem (slot : Wide) : Nat := (slot.extractLsb' 1 3).toNat
def slotBlockLen (slot : Wide) : Nat := 16 * 2 ^ (slot.extractLsb' 4 2).toNat
def slotSm8 (slot : Wide) : Bool := slot.getLsbD 6
def slotApart (slot : Wide) : Bool := slot.getLsbD 7

/-- Bits of an element of a format: I4, I8, F4, F8. -/
def elemBits (fmt : Nat) : Nat := if fmt % 2 = 0 then 4 else 8

/-- A scale as k × 2^f; none for the invalid code (R86). -/
def scaleOf (sm8 : Bool) (code : Nat) : Option (Nat × Int) :=
  if code % 256 = 0xFF then none
  else if sm8 then some (8 + code % 8, (code % 256 / 8 : Nat) - 18)
  else some (1, (code % 256 : Nat) - 127)

/-- A narrow element as a value; NaN only for the two F8 codes (R83-R85). -/
def elemVal (fmt code : Nat) : FVal :=
  match fmt with
  | 0 => let c := code % 16; if 8 ≤ c then .fin true (16 - c) 0 else .fin false c 0
  | 1 => let c := code % 256; if 128 ≤ c then .fin true (256 - c) 0 else .fin false c 0
  | 2 =>
    let c := code % 16
    let e := c / 2 % 4
    if e = 0 then .fin (8 ≤ c) (c % 2) (-1) else .fin (8 ≤ c) (2 + c % 2) ((e : Int) - 2)
  | _ =>
    let c := code % 256
    let e := c / 8 % 16
    if c % 128 = 0x7F then .nan
    else if e = 0 then .fin (128 ≤ c) (c % 8) (-9) else .fin (128 ≤ c) (8 + c % 8) ((e : Int) - 10)

/-- A value times a scale; NaN for an invalid scale. -/
def scaledVal (v : FVal) : Option (Nat × Int) → FVal
  | none => .nan
  | some (k, f) => mulVal v (.fin false k f)

/-- The signed integer range of I4 or I8, as a code (R99). -/
def intCode (fmt : Nat) (neg : Bool) (n : Nat) : Nat :=
  let half := 2 ^ (elemBits fmt - 1)
  if neg then (2 * half - min n half) % (2 * half) else min n (half - 1)

/-- The quantised code of a finite m × 2^e divided by k × 2^f, rounded once (R98, R99). -/
def quantise (fmt rnd : Nat) (neg : Bool) (m : Nat) (e : Int) (k : Nat) (f : Int) : Nat :=
  let shift := 16 + bitLength k
  let q := m * 2 ^ shift / k
  let sticky := m * 2 ^ shift % k ≠ 0
  let qe := e - f - shift
  if fmt < 2 then
    let (keep, x) := roundMag (max (bitLength q + qe.toNat) 1) 0 rnd neg q qe sticky
    intCode fmt neg (keep * 2 ^ x.toNat)
  else
    let p := if fmt = 2 then 1 else 3
    let low : Int := if fmt = 2 then -1 else -9
    let top := if fmt = 2 then 7 else 0x7E
    let (keep, x) := roundMag (p + 1) low rnd neg q qe sticky
    min (codeOf p low keep x) top + (if neg then 2 ^ (elemBits fmt - 1) else 0)

/-- `qnt` (R99). -/
def qntCode (slot : Wide) (fmt rnd : Nat) (a b : Nat) : Nat :=
  let el := slotElem slot
  let top := if el = 2 then 7 else 0x7E
  match scaleOf (slotSm8 slot) b, unpack fmt a with
  | none, _ | _, .nan => if el = 3 then 0x7F else 0
  | _, .inf neg => if el < 2 then intCode el neg 256 else top + (if neg then 2 ^ (elemBits el - 1) else 0)
  | some (k, f), .fin neg m e => quantise el rnd neg m e k f

/-- The code of a positive finite scale, rounded to the codes 0x00-0xFE (R102). -/
def scaleCode (sm8 : Bool) (rnd : Nat) (m : Nat) (e : Int) : Nat :=
  if sm8 then
    let (keep, q) := roundMag 4 (-1000) rnd false m e false
    let n := if keep = 16 then 8 else keep
    let x := if keep = 16 then q + 1 else q
    (max 0 (min 0xFE ((x + 18) * 8 + (n : Int) - 8))).toNat
  else
    let l := bitLength m - 1
    let low := e + l + 127
    let up := match rnd with
      | 0 => 3 * 2 ^ l < 2 * m || (2 * m = 3 * 2 ^ l && low % 2 = 1)
      | 2 => m ≠ 2 ^ l
      | _ => false
    (max 0 (min 0xFE (if up then low + 1 else low))).toNat

/-- `sclenc` (R102). -/
def sclencCode (slot : Wide) (fmt rnd : Nat) (a : Nat) : Nat :=
  match unpack fmt a with
  | .nan => 0xFF
  | .inf neg => if neg then 0xFF else 0xFE
  | .fin neg m e => if m = 0 then 0 else if neg then 0xFF else scaleCode (slotSm8 slot) rnd m e

end Sys2Proof.Machine
end

