-- ==== Sys2Proof/Machine/Flags.lean ====
section
/-!
DEFINITION. The truth values the device computes: comparison conditions (R55, R68), carries and borrows
(R64), clamping (R60), and the status bits of `sys.mem_status` (R108).  The device keeps no flags register.
-/

namespace Sys2Proof.Machine

/-- Width of an operation of layout IN. -/
def widthOf (w : Bool) : Nat := if w then 64 else 32

/-- A W-bit value read as a number in lo..hi (R60). -/
def numOf (w sgn : Bool) (x : Wide) : Int :=
  let n : Int := (x.toNat % 2 ^ widthOf w : Nat)
  if sgn && 2 ^ (widthOf w - 1) ≤ n then n - 2 ^ widthOf w else n

def loOf (w sgn : Bool) : Int := if sgn then -(2 ^ (widthOf w - 1)) else 0
def hiOf (w sgn : Bool) : Int := if sgn then 2 ^ (widthOf w - 1) - 1 else 2 ^ widthOf w - 1

/-- The clamp of `sat` (R60). -/
def clampInt (w sgn : Bool) (t : Int) : Int := max (loOf w sgn) (min (hiOf w sgn) t)

/-- The low W bits of an exact result. -/
def lowBits (w : Bool) (t : Int) : Wide := if w then BitVec.ofInt 64 t else narrow (BitVec.ofInt 64 t)

/-- Carry out of an exact sum, and borrow out of an exact difference (R64). -/
def carryOut (w : Bool) (t : Int) : Bool := 2 ^ widthOf w ≤ t
def borrowOut (t : Int) : Bool := t < 0

/-- The ordering conditions eq, ne, lt, le, gt, ge of R55; other codes hold for nothing. -/
def condHolds (cond : Nat) (a b : Int) : Bool :=
  match cond with
  | 0 => a = b
  | 1 => a ≠ b
  | 2 => a < b
  | 3 => a ≤ b
  | 4 => a > b
  | 5 => a ≥ b
  | _ => false

/-- Sets bits of the thread's `sys.mem_status` at execution (R108). -/
def setMemStatus (s : State) (t : ThreadRef) (bits : Word) : State :=
  updThread s t fun th => { th with memStatus := th.memStatus ||| bits }

end Sys2Proof.Machine
end

