-- ==== Sys2Proof/Machine/Issue.lean ====
section
/-!
DEFINITION. Issuing a word: the checks of R58 in order, the guard (R26, R27), stalls (R19, R37), what a fault
does to the issue group (R41, R196), the gather rule (R141-R144), and the end of a segment (R38, R191).
-/

namespace Sys2Proof.Machine

/-! ## What a word reads and writes -/

/-- The switch marker of a word (R25). -/
def wordSw (w : Wide) : Bool := w.getLsbD 63

/-- Whether operand d of the instruction is also a source: the data of a store (R30) and of an atomic. -/
def readsD : Instr → Bool
  | .st _ | .aadd _ | .amin _ | .amax _ | .aand _ | .aor _ | .axor _ | .axchg _ | .acas _ => true
  | _ => false

/-- Whether the instruction is result-writing (R37): `opd_d` holds the operand code of a destination. -/
def writesResult (i : Instr) : Bool :=
  match i.view with
  | none => false
  | some v => match v.d.role with
    | .dst _ | .predDst | .laneDst | .setDst => true
    | .reg _ => true
    | .run _ _ => match i with
      | .st _ => false
      | _ => true
    | _ => false

/-- How many registers a field names. -/
def roleSpan : Role → Nat
  | .src w | .dst w | .reg w => if w then 2 else 1
  | .run n _ => n
  | .predSrc | .predDst | .lanes | .setDst | .target => 1
  | .laneDst => 4
  | _ => 0

/-- The registers an operand field names. -/
def namedRegs (f : Field) : List RegName :=
  match Operand.ofCode f.code with
  | .v i => (List.range (roleSpan f.role)).map fun j => .v (i.val + j)
  | .s i => (List.range (roleSpan f.role)).map fun j => .s (i.val + j)
  | .p i => if roleSpan f.role = 0 then [] else [.p i.val]
  | .k i => if roleSpan f.role = 0 then [] else [.k i.val]
  | _ => []

/-- Whether the field is read as a source; `alsoD` for a `reg` or `run` field that is one. -/
def isSource (f : Field) (alsoD : Bool) : Bool :=
  match f.role with
  | .src _ | .predSrc | .lanes | .target | .onlyLiteral => true
  | .reg _ | .run _ _ => alsoD
  | _ => false

/-- The fields an instruction reads, in operand order. -/
def sourceFields (i : Instr) (v : View) : List Field :=
  (if isSource v.d (readsD i) then [v.d] else []) ++ [v.a, v.b, v.c].filter fun f => isSource f true

def sourceRegs (i : Instr) (v : View) : List RegName := (sourceFields i v).flatMap namedRegs

/-- The distances an instruction reads, as numbers from 0. -/
def sourceDistances (i : Instr) (v : View) : List Nat :=
  (sourceFields i v).filterMap fun f => match Operand.ofCode f.code with
    | .dist n => some n.val
    | _ => none

/-- The registers an instruction writes as its destination. -/
def destRegs (i : Instr) (v : View) : List RegName := if writesResult i then namedRegs v.d else []

/-! ## The checks of R58 -/

/-- What becomes of one thread at one word. -/
inductive Verdict where
  /-- A guard, a source or a destination is not there yet (R19, R37). -/
  | stall
  /-- The guard disables the instruction for the thread (R27). -/
  | off
  | fault (x : Trouble)
  | run
  deriving DecidableEq, Repr

/-- The guard predicate's number (R26). -/
def guardReg (guard : BitVec 4) : RegName := .p (guard.toNat % 8)

/-- Whether the guard enables the thread (R26). -/
def guardOn (x : Site) (guard : BitVec 4) : Bool :=
  guard = 0 || (x.reg (guardReg guard) ≠ 0) != (8 < guard.toNat)

/-- The slot an instruction of layout QS names (R89). -/
def slotNamed : Instr → Option (BitVec 3)
  | .qnt w => some w.m.slot
  | .dqnt w => some w.m.slot
  | .sclx w => some w.m.slot
  | .sclenc w => some w.m.slot
  | _ => none

/-- A slot is valid when its bit 0 is 1 (R88). -/
def slotValid (p : Pass) (n : Nat) : Bool := (p.slots.getD n 0).getLsbD 0

/-- Step 4 of R58: the modifier, and the named slot. -/
def modifierPasses (i : Instr) (p : Pass) : Bool :=
  i.modifierOk && match slotNamed i with
    | some n => slotValid p n.toNat
    | none => true

/-- The first operand field that fails step 5 of R58. -/
def badField (regs : Nat) (v : View) : Option (Nat × BitVec 10) :=
  [(0, v.d), (1, v.a), (2, v.b), (3, v.c)].findSome? fun (n, f) =>
    if f.ok regs then none else some (n, f.code)

/-- A register number with an RW-P field (R119, R148, R362). -/
def sysPrivileged (n : Nat) : Bool := n = 0x20 || (0x30 ≤ n && n < 0x40)

/-- Step 6 of R58: the P mark, the RW-P registers, the counter permission and `trapret` (R53, R151, R153). -/
def privilegePasses (i : Instr) (x : Site) : Bool :=
  match i with
  | .sysrd w => x.pass.privileged || !sysPrivileged w.a.toNat
  | .syswr w => x.pass.privileged || !sysPrivileged w.d.toNat
  | .memStatusClear w => x.pass.privileged || !sysPrivileged w.d.toNat
  | .cntCfgWrite w => x.pass.privileged || !sysPrivileged w.d.toNat
  | .cntrd _ => x.pass.privileged || x.pass.userCounters
  | .trapret _ => x.th.inHandler
  | i => x.pass.privileged || !i.isPrivileged

/-- Steps 3 to 6 of R58. -/
def staticFault (i : Instr) (x : Site) : Option Trouble :=
  match i.view with
  | none => some ⟨.illegalOpcode, x.word.setWidth 32, x.word.extractLsb' 32 32, none, false⟩
  | some v =>
    if !modifierPasses i x.pass then some x.badModifier
    else match badField x.pass.regs v with
      | some (n, c) => some (x.badOperand n c)
      | none => if privilegePasses i x then none else some x.notPrivileged

/-- A distance the instruction reads that reaches past the start of the segment (R37). -/
def badDistance (i : Instr) (v : View) (x : Site) : Option Nat :=
  (sourceDistances i v).find? fun n => (x.th.seg.distance n).isNone

/-- The two checks of step 7 that every instruction that reads a register makes, 'whatever its own rule lists':
DISTANCE_RANGE, then POISON (R58).  So they apply to `pref`, `resh` and `mxq` too, whose rules list POISON alone (R118, R165;
log 54). -/
def readFault (i : Instr) (v : View) (x : Site) : Option Trouble :=
  match badDistance i v x with
  | some n => some (x.trouble .distanceRange (BitVec.ofNat 32 (n + 1)))
  | none => ((sourceRegs i v).find? fun r => regPoisoned x.g x.th r).map x.poisonedReg

/-- The buffer registers an instruction reads records from (R30, R106, R159). -/
def buffersOf : Instr → List Nat
  | .ld w => [w.buf.toNat]
  | .st w => [w.buf.toNat]
  | .ldro w => [w.buf.toNat]
  | .smp w => [w.buf.toNat]
  | .smpl w => [w.buf.toNat]
  | .ldbr w => [w.buf.toNat]
  | .pref w => [w.buf.toNat]
  | .resh w => [w.buf.toNat]
  | .aadd w => [w.buf.toNat]
  | .amin w => [w.buf.toNat]
  | .amax w => [w.buf.toNat]
  | .aand w => [w.buf.toNat]
  | .aor w => [w.buf.toNat]
  | .axor w => [w.buf.toNat]
  | .axchg w => [w.buf.toNat]
  | .acas w => [w.buf.toNat]
  | .redadd w => [w.buf.toNat]
  | .redmin w => [w.buf.toNat]
  | .redmax w => [w.buf.toNat]
  | .redand w => [w.buf.toNat]
  | .redor w => [w.buf.toNat]
  | .redxor w => [w.buf.toNat]
  | .waita w => [w.buf.toNat]
  | .waitaTo w => [w.buf.toNat]
  | .cpy1 w => [w.src.toNat, w.dst.toNat]
  | .cpy2 w => [w.src.toNat, w.dst.toNat]
  | .occstep w => [w.b.toNat]
  | .hgrid w => [w.b.toNat]
  | _ => []

/-- Whether everything the instruction reads has arrived, and no scalar it writes is pending. -/
def operandsReady (i : Instr) (v : View) (x : Site) : Bool :=
  (sourceRegs i v).all (regReady x.g x.th) &&
  (buffersOf i).all (fun n => regReady x.g x.th (.b n)) &&
  (sourceDistances i v).all (fun n => ((x.th.seg.distance n).map Result.ready).getD true) &&
  (destRegs i v).all (fun r => match r with
    | .s i => !scalarPending x.g x.th.row i
    | _ => true)

/-- The verdict on one thread at one word (R58 steps 2 to 7, up to the instruction's own rule). -/
def verdict (i : Instr) (x : Site) : Verdict :=
  let guard := x.word.extractLsb' 9 4
  if guard = 8 then .fault x.badModifier
  else if guard ≠ 0 && regPoisoned x.g x.th (guardReg guard) then .fault (x.poisonedReg (guardReg guard))
  else if guard ≠ 0 && !regReady x.g x.th (guardReg guard) then .stall
  else if !guardOn x guard then
    if match i.view with
      | some v => (destRegs i v).all (regReady x.g x.th)
      | none => true
    then .off else .stall
  else match staticFault i x, i.view with
    | some f, _ => .fault f
    | none, none => .run
    | none, some v => match readFault i v x with
      | some f => .fault f
      | none => if operandsReady i v x then .run else .stall

/-! ## Results of disabled words, faults -/

/-- The destination's current value, which a disabled word supplies to distances (R27, R37). -/
def currentDest (v : View) (x : Site) : Wide :=
  match v.d.role, Operand.ofCode v.d.code with
  | .laneDst, .k i | .setDst, .k i => (regNow x.g x.th (.k i.val)).setWidth 64
  | .laneDst, o => x.read true o
  | .run _ _, o => x.read true o
  | .dst w, .k i => if w then 0 else ((regNow x.g x.th (.k i.val)).setWidth 64)
  | .dst w, o => x.read w o
  | .reg w, o => x.read w o
  | _, o => x.read false o

/-- A disabled thread writes nothing; a result-writing word still counts for its distances (R27). -/
def addDisabled (s : State) (i : Instr) (x : Site) : State :=
  match i.view with
  | some v => if writesResult i then addResult s x.t ⟨0, true, true, [], currentDest v x⟩ else s
  | none => s

def dropThread (groups : List (List ThreadRef)) (t : ThreadRef) : List (List ThreadRef) :=
  groups.map fun ts => ts.filter fun u => u ≠ t

/-- A thread that faults leaves its burst at once (R191). -/
def leaveBurst (s : State) (k : Nat) (t : ThreadRef) : State :=
  updCore s k fun c => { c with burst := c.burst.map fun b => { b with groups := dropThread b.groups t } }

/-- A thread that a fault of a gather segment parks leaves its burst, which keeps the data of the LANESET_MISMATCH it
gives to participants of later words that it has named or that name it (R144). -/
def leaveGather (s : State) (k : Nat) (t : ThreadRef) (data0 : Word) (named : BitVec 128) : State :=
  updCore (leaveBurst s k t) k fun c =>
    { c with burst := c.burst.map fun b => { b with parked := b.parked ++ [(t, data0, named)] } }

/-- The first word of a segment: the one after the header when it starts at a header (R330). -/
def firstWord (seg : Segment) : Word := if seg.startPc = seg.startHdr then seg.startHdr + 8 else seg.startPc

/-- The record of a fault found before commit: it names the segment's first word and its header (R330). -/
def recordOf (x : Trouble) (seg : Segment) : Record :=
  ⟨x.code.bits, false, firstWord seg, seg.startHdr, x.data0, x.data1, x.key⟩

/-- One thread of a gather segment is parked with its own fault, or with its closure's (R144): `named` are the lanes it
has named with its word. -/
def parkGather (s : State) (k : Nat) (t : ThreadRef) (tr : Trouble) (data0 : Word) (named : BitVec 128) : State :=
  match findThread s t with
  | none => s
  | some (_, th) => takeFault (leaveGather s k t data0 (th.seg.mates ||| named)) t (recordOf tr th.seg) tr.split

/-- The participants that stand in a gather segment with thread `th`: the threads of its row and issue group that have
taken part in a cross-lane word of it (R143, R144). -/
def gatherPeers (g : Group) (th : Thread) : List Thread :=
  g.threads.filter fun u => u.row = th.row && u.seg.ig = th.seg.ig && u.seg.gather &&
    (u.status = .running || u.status = .committing) && u.seg.mates ≠ 0

/-- Grows a set of lanes by the masks of the participants in it. -/
def closeMates (peers : List Thread) : Nat → BitVec 128 → BitVec 128
  | 0, m => m
  | n + 1, m => closeMates peers n (peers.foldl (fun u th => if m.getLsbD th.lane then u ||| th.seg.mates else u) m)

/-- The other threads that a fault of `th` in its gather segment parks (R144). -/
def gatherClosure (g : Group) (th : Thread) : List Thread :=
  let peers := gatherPeers g th
  let m := closeMates peers peers.length ((1#128 <<< th.lane) ||| th.seg.mates)
  peers.filter fun u => u.lane ≠ th.lane && m.getLsbD u.lane

/-- LANESET_MISMATCH for the other members of a closure: the lane whose fault parked it, and its code (R331). -/
def matesData (lane : Nat) (code : Code) : Word := BitVec.ofNat 32 lane ||| ((code.bits.setWidth 32 : Word) <<< (8 : Nat))
def matesTrouble (data0 hdr : Word) : Trouble := ⟨.lanesetMismatch, data0, hdr, none, false⟩

/-- The closure around a thread that has taken a fault in its gather segment is parked with it, but for those that a fault
of their own has parked (R144): `g` and `th` are as they were before the word. -/
def parkMates (s : State) (k : Nat) (g : Group) (th : Thread) (code : Code) : State :=
  let data0 := matesData th.lane code
  (gatherClosure g th).foldl (fun s u =>
    let t : ThreadRef := ⟨g.serial, u.row, u.lane⟩
    match findThread s t with
    | some (_, v) =>
      if v.status = .running || v.status = .committing then parkGather s k t (matesTrouble data0 th.seg.startHdr) data0 0
      else s
    | none => s) s

/-- A thread takes a fault of its own before commit (R41).  After a load of its segment has returned data of a mismatching
block the segment is replayed in place of a fault that may come of the bad data: the thread then goes on through its
segment without the word, and is replayed once it is committing (R107, R185, R197; DEDUCED, log 43). -/
def faultOwn (s : State) (k : Nat) (t : ThreadRef) (tr : Trouble) : State :=
  match findThread s t with
  | none => s
  | some (_, th) =>
    if th.seg.missed then s
    else if th.seg.gather then parkGather s k t tr (matesData th.lane tr.code) 0
    else takeFault (leaveBurst s k t) t (recordOf tr th.seg) tr.split

/-- Whether a fault of the thread parks a closure with it (R144). -/
def Thread.parksMates (th : Thread) : Bool := th.seg.gather && !th.seg.missed

/-- A thread takes a fault before commit, with the closure around it in a gather segment (R41, R144). -/
def faultThread (s : State) (k : Nat) (t : ThreadRef) (tr : Trouble) : State :=
  match findThread s t with
  | none => s
  | some (g, th) =>
    let s := faultOwn s k t tr
    if th.parksMates then parkMates s k g th tr.code else s

/-! ## Executing a word for an issue group -/

/-- What an instruction's rule does for one enabled thread whose word passed the checks. -/
abbrev Body := State → Site → Except Trouble State

/-- Whether the instruction reads `timelo`, and so latches the high half of the time (R35). -/
def latchesTime (i : Instr) : Bool :=
  match i.view with
  | some v => (sourceFields i v).any fun f => Operand.ofCode f.code = .special 11
  | none => false

/-- The thread's place at the word, if the thread is running. -/
def siteOf (s : State) (k : Nat) (b : Burst) (i : Instr) (t : ThreadRef) : Option Site :=
  match findThread s t with
  | none => none
  | some (g, th) => match findPass s g.ctx g.stage with
    | none => none
    | some p =>
      if th.status = .running then some ⟨s, k, t, g, th, p, b.pc, b.hdr, i.word.getD 0, i.literal, latchesTime i⟩ else none

/-- The engine operations whose completed tokens the word reads (R133, R163). -/
def tokensRead (s : State) (i : Instr) (x : Site) : List Nat :=
  match i.view with
  | none => []
  | some v => (sourceRegs i v).flatMap fun r => match r with
    | .s n => endedAt s x.t.group (.token x.t.row n)
    | _ => []

/-- The latch of R35, the suspect mark of a word that executes in a droop window (R197), and the tokens read. -/
def beginWord (s : State) (i : Instr) (x : Site) (on : Bool) : State :=
  let droop := (s.clusters.getD (clusterOf x.core) Cluster.reset).droop
  updThread s x.t fun th => { th with
    saw := if on then th.saw ++ tokensRead s i x else th.saw
    seg := { th.seg with
      suspect := th.seg.suspect || droop
      timeHigh := if on && x.latch then some (s.time.extractLsb' 32 32) else th.seg.timeHigh } }

/-- A thread takes a fault at a word; one that will be replayed leaves the word out, as a disabled one does (log 43). -/
def faultWord (s : State) (i : Instr) (x : Site) (tr : Trouble) : State :=
  let s := faultOwn s x.core x.t tr
  if x.th.seg.missed then addDisabled s i x else s

/-- One thread of the issue group executes the word. -/
def issueThread (i : Instr) (body : Body) (s : State) (x : Site) : State :=
  match verdict i x with
  | .stall => s
  | .off => addDisabled (beginWord s i x false) i x
  | .fault tr => faultWord s i x tr
  | .run =>
    let s' := beginWord s i x true
    match body s' x with
    | .ok s'' => s''
    | .error tr => faultWord s' i x tr

/-- The fault that one thread of the issue group meets at the word. -/
def faultAt (i : Instr) (body : Body) (s : State) (x : Site) : Option Trouble :=
  match verdict i x with
  | .fault tr => some tr
  | .run => match body (beginWord s i x true) x with
    | .ok _ => none
    | .error tr => some tr
  | .stall | .off => none

/-- The threads of the issue group whose faults at the word park their closures, with those faults' codes (R144). -/
def closureFaults (i : Instr) (body : Body) : State → List Site → List (Site × Code)
  | _, [] => []
  | s, x :: xs =>
    (if x.th.parksMates then ((faultAt i body s x).map fun tr => (x, tr.code)).toList else []) ++
      closureFaults i body (issueThread i body s x) xs

/-- The issue group executes the word: every thread for itself, and then the closures of those that faulted are parked
(R144). -/
def issueAll (i : Instr) (body : Body) (s : State) (xs : List Site) : State :=
  let s' := xs.foldl (issueThread i body) s
  if xs.any fun x => x.th.parksMates then
    (closureFaults i body s xs).foldl (fun s f => parkMates s f.1.core f.1.g f.1.th f.2) s'
  else s'

/-! ## The end of a word, a clause and a segment (R38, R141, R191) -/

/-- Bytes of an instruction: its word and its literal word (R25, R36). -/
def instrBytes (i : Instr) : Nat := if i.literal.isSome then 16 else 8

/-- A group of the burst, through whose g0 its code is fetched. -/
def burstGroup (s : State) (b : Burst) : Option Group :=
  (b.groups.flatten.head?).bind fun t => findGroup s t.group

/-- A code word as the burst sees it: as it was fetched with its clause, or fetched now (R13, R191). -/
def burstWord (s : State) (k : Nat) (b : Burst) (off : Nat) : Wide :=
  match b.words.find? fun w => w.1 = off with
  | some w => w.2
  | none => match burstGroup s b with
    | some g => codeWord s k (g.via b.base) off
    | none => 0

/-- The code address after the last word of a clause (R20). -/
def clauseEnd (hdr : Nat) (h : Wide) : Nat := hdr + 8 + 8 * hdrCount h

/-- Whether a header stands at an address of a group's code and ends the segment before it (R38, R141). -/
def startsSegment (s : State) (k : Nat) (g : Group) (off : Nat) : Bool :=
  let h := codeWord s k g off
  off + 8 ≤ segLimit (g.g.getD 0 0) && hdrMark h = 0xC && (hdrBlock h || hdrGather h)

/-- Where a thread continues after the word at `next`: the word, under its clause's header (R194). -/
def nextPlace (hdr : Word) (next end_ : Nat) : Word × Word :=
  if next < end_ then (BitVec.ofNat 32 next, hdr) else (BitVec.ofNat 32 next, BitVec.ofNat 32 next)

/-- Where a thread of group `g` that executes the word continues when it ends its segment without a transfer; none when
the segment goes on (R38, R141).  The next header is read through the burst's base. -/
def endsAt (s : State) (k : Nat) (b : Burst) (i : Instr) (g : Group) : Option (Word × Word) :=
  let h := burstWord s k b b.hdr.toNat
  let next := b.pc.toNat + instrBytes i
  let end_ := clauseEnd b.hdr.toNat h
  if wordSw (i.word.getD 0) || i.isTransfer ||
      (end_ ≤ next && (hdrGather h || startsSegment s k (g.via b.base) end_)) then
    some (nextPlace b.hdr next end_)
  else none

/-- A thread whose segment's last instruction has executed is committing (R185). -/
def endThread (k : Nat) (b : Burst) (i : Instr) (s : State) (t : ThreadRef) : State :=
  match findThread s t with
  | some (g, th) => match endsAt s k b i g with
    | some fall =>
      if th.status = .running then
        joinTable (updThread s t fun th =>
          { th with status := .committing
                    seg := { th.seg with ending := some (th.seg.ending.getD (.go fall.1 fall.2)) } }) t
      else s
    | none => s
  | none => s

/-- The issue group whose turn it is has executed the word: its segment may have ended with it. -/
def endTurn (s : State) (k : Nat) (b : Burst) (i : Instr) : State := (b.groups.getD b.turn []).foldl (endThread k b i) s

/-- Whether a thread of the burst still runs. -/
def burstRuns (s : State) (b : Burst) : Bool :=
  b.groups.flatten.any fun t => match findThread s t with
    | some (_, th) => th.status = .running
    | none => false

/-- After the last issue group has executed the word, the burst moves on to the next word or clause, or ends (R191). -/
def nextWord (s : State) (k : Nat) (b : Burst) (i : Instr) : State :=
  let next := b.pc.toNat + instrBytes i
  if !burstRuns s b then updCore s k fun c => { c with burst := none }
  else if clauseEnd b.hdr.toNat (burstWord s k b b.hdr.toNat) ≤ next then
    updCore s k fun c => { c with burst := some { b with
      hdr := BitVec.ofNat 32 next, pc := BitVec.ofNat 32 next, entered := false, turn := 0, words := [] } }
  else updCore s k fun c => { c with burst := some { b with pc := BitVec.ofNat 32 next, turn := 0 } }

/-- One issue group has executed the word: the next issue group's turn, or the next word. -/
def advance (s : State) (k : Nat) (i : Instr) : State :=
  match (getCore s k).burst with
  | none => s
  | some b =>
    let s := endTurn s k b i
    if b.turn + 1 < b.groups.length then
      updCore s k fun c => { c with burst := some { b with turn := b.turn + 1 } }
    else nextWord s k b i

/-- The threads whose turn it is, in lane order. -/
def turnSites (s : State) (k : Nat) (b : Burst) (i : Instr) : List Site :=
  (b.groups.getD b.turn []).filterMap (siteOf s k b i)

/-- Counts of an issued word, events 3 and 4 (R363), the cycle of the last issue (R351), and a fresh number
for the word. -/
def countIssue (s : State) (k : Nat) (i : Instr) (xs : List Site) : State :=
  let s := updCore { s with serial := s.serial + 1 } k fun c => { c with issued := c.cycles.toNat }
  match xs.head? with
  | none => s
  | some x =>
    let on := xs.filter fun y => verdict i y = .run
    bump (bump s k 3 (some x.g.stage) 1) k 4 (some x.g.stage) on.length

/-- The threads whose turn it is on the core in focus. -/
def currentSites (s : State) (i : Instr) : List Site :=
  match (getCore s s.focus).burst with
  | some b => turnSites s s.focus b i
  | none => []

/-- The enabled threads of the same issue group that execute the word with thread `x` and pass its checks. -/
def Site.mates (x : Site) (i : Instr) : List Site :=
  (currentSites { x.before with focus := x.core } i).filter fun y => verdict i y = .run

/-- Issues a word that is no cross-lane instruction to the issue group whose turn it is on the core in focus.
`held` tells that an enabled thread must wait for an access of its own (R236). -/
def issueHeld (s : State) (i : Instr) (held : Site → Bool) (body : Body) : Out :=
  match s.cores[s.focus]? with
  | none => .fault .noSuchAgent
  | some c => match c.burst with
    | none => .next s
    | some b =>
      let xs := turnSites s s.focus b i
      if xs.any fun x => verdict i x = .stall || (verdict i x = .run && held x) then .next s
      else .next (advance (issueAll i body (countIssue s s.focus i xs) xs) s.focus i)

/-- Issues a word whose threads wait for nothing but their operands. -/
def issueWord (s : State) (i : Instr) (body : Body) : Out := issueHeld s i (fun _ => false) body

/-- An instruction that only computes a result from registers. -/
def pureBody (f : Site → List RegWrite × Wide) : Body := fun s x => .ok (finish s x (f x))

/-! ## The gather rule (R140, R143, R144) -/

/-- The lanes of a row that hold live threads of the group (R140). -/
def liveLanes (g : Group) (row : Nat) : BitVec 128 :=
  g.threads.foldl (fun m t =>
    if t.row = row && t.status ≠ .exited then m ||| (1#128 <<< t.lane) else m) 0

/-- A thread of the issue group at a cross-lane word: whether its guard enables it, its effective mask, the lanes of the
masks it has named in the segment so far, this word's included, and the fault of its own. -/
structure Member where
  site : Site
  on   : Bool
  mask : BitVec 128
  lanes : BitVec 128
  own  : Option Trouble

def Member.sameRow (m n : Member) : Bool := m.site.t.group = n.site.t.group && m.site.t.row = n.site.t.row
def Member.sees (m n : Member) : Bool := m.sameRow n && m.mask.getLsbD n.site.t.lane

/-- Whether the thread has taken part in the segment, and whether it has named the lane of another (R143, R144). -/
def Member.takesPart (m : Member) : Bool := m.on || m.lanes ≠ 0
def Member.named (m n : Member) : Bool := m.sameRow n && m.lanes.getLsbD n.site.t.lane

/-- The lanes a participant's word joins to it: its effective mask and its own. -/
def joinedLanes (x : Site) (mask : BitVec 128) : BitVec 128 := x.th.seg.mates ||| mask ||| (1#128 <<< x.t.lane)

def memberOf (i : Instr) (x : Site) : Member :=
  let c := match i.view with
    | some v => Operand.ofCode v.c.code
    | none => .zero
  let mask := x.lanes c &&& liveLanes x.g x.t.row
  match verdict i x with
  | .off => ⟨x, false, mask, x.th.seg.mates, none⟩
  | .fault tr => ⟨x, true, mask, joinedLanes x mask, some tr⟩
  | .stall | .run => ⟨x, true, mask, joinedLanes x mask, none⟩

/-- Whether a participant is in a conflict (R143). -/
def inConflict (ms : List Member) (m : Member) : Bool :=
  m.on && (!m.mask.getLsbD m.site.t.lane ||
    ms.any fun n => n.on && m.mask ≠ n.mask && (m.sees n || n.sees m))

/-- Grows a set of threads by the participants that its members have named (R143, R144). -/
def closeOnce (ms : List Member) (set : List ThreadRef) : List ThreadRef :=
  (ms.filter fun n => n.takesPart && (set.contains n.site.t ||
    ms.any fun m => m.takesPart && set.contains m.site.t && m.named n)).map fun n => n.site.t

def closeOver (ms : List Member) : Nat → List ThreadRef → List ThreadRef
  | 0, set => set
  | n + 1, set => closeOver ms n (closeOnce ms set)

/-- The data of LANESET_MISMATCH for a parked thread (R331): the lowest lane of its row that conflicts and 0x05, when a
conflict parked it; otherwise the lowest lane whose own fault parked its closure, with that fault's code.  R331 does not say
which is reported where both a conflict and a member's own fault park one closure: the conflict (DESIGN CHOICE, log 43). -/
def lanesetData (ms : List Member) (m : Member) : Word :=
  let row := ms.filter fun n => n.sameRow m
  let low := fun (l : List Member) => (l.map fun n => n.site.t.lane).foldl min 127
  let reaches := fun (l : List Member) => (closeOver ms ms.length (l.map fun n => n.site.t)).contains m.site.t
  let conflicts := row.filter (inConflict ms)
  let own := row.filter fun n => n.own.isSome && reaches [n]
  if reaches conflicts || own.isEmpty then BitVec.ofNat 32 (low conflicts) ||| 0x500
  else match (own.find? fun n => n.site.t.lane = low own).bind Member.own with
    | some tr => if tr.code = .lanesetMismatch then tr.data0 else matesData (low own) tr.code
    | none => 0x500

def lanesetTrouble (ms : List Member) (m : Member) : Trouble := matesTrouble (lanesetData ms m) m.site.hdr

/-- A participant that names the lane of a thread which a fault in an earlier word of the segment has parked, or whose lane
that thread has named: the segment commits for all of its participants or for none (R144). -/
def lostPartner (b : Burst) (m : Member) : Option Trouble :=
  if m.on then
    (b.parked.find? fun q => q.1.group = m.site.t.group && q.1.row = m.site.t.row &&
      (m.mask.getLsbD q.1.lane || q.2.2.getLsbD m.site.t.lane)).map fun q => matesTrouble q.2.1 m.site.hdr
  else none

/-- The lanes a participant has named stay with its segment. -/
def joinMates (s : State) (m : Member) : State :=
  updThread s m.site.t fun th => { th with seg := { th.seg with mates := m.lanes } }

/-- A cross-lane word for one member of the issue group: `parked` are the threads of R144's closures. -/
def gatherThread (i : Instr) (f : List Member → Member → List RegWrite × Wide) (ms : List Member)
    (parked : List ThreadRef) (s : State) (m : Member) : State :=
  match m.own with
  | some tr =>
    if m.site.th.seg.missed then addDisabled s i m.site
    else parkGather s m.site.core m.site.t tr
      (if tr.code = .lanesetMismatch then tr.data0 else matesData m.site.t.lane tr.code) m.lanes
  | none =>
    if parked.contains m.site.t then
      parkGather s m.site.core m.site.t (lanesetTrouble ms m) (lanesetData ms m) m.lanes
    else if m.on then finish (joinMates (beginWord s i m.site true) m) m.site (f ms m)
    else addDisabled (beginWord s i m.site false) i m.site

/-- Whether what a disabled member would supply has arrived. -/
def supplyReady (i : Instr) (x : Site) : Bool :=
  match i.view with
  | some v => (namedRegs v.a).all (regReady x.g x.th)
  | none => true

/-- The members of an issue group at a cross-lane word, each with its own fault. -/
def membersOf (b : Burst) (i : Instr) (own : List Member → Member → Option Trouble) (xs : List Site) : List Member :=
  let ms := xs.map (memberOf i)
  ms.map fun m => { m with own := if m.on then m.own.or ((lostPartner b m).or (own ms m)) else none }

/-- The threads of the issue group around which R144's closures are parked: those with a fault of their own, unless that
may come of bad data (log 43), and those in a conflict. -/
def gatherSeed (ms : List Member) : List ThreadRef :=
  (ms.filter fun m => m.on && ((m.own.isSome && !m.site.th.seg.missed) || inConflict ms m)).map fun m => m.site.t

/-- Issues a cross-lane word: `own` gives a member's fault of its own rule, `f` its result (R143-R146). -/
def issueGather (s : State) (i : Instr) (own : List Member → Member → Option Trouble)
    (f : List Member → Member → List RegWrite × Wide) : Out :=
  match s.cores[s.focus]? with
  | none => .fault .noSuchAgent
  | some c => match c.burst with
    | none => .next s
    | some b =>
      let xs := turnSites s s.focus b i
      if xs.any fun x => verdict i x = .stall || !supplyReady i x then .next s
      else
        let ms := membersOf b i own xs
        let parked := closeOver ms ms.length (gatherSeed ms)
        .next (advance (ms.foldl (gatherThread i f ms parked) (countIssue s s.focus i xs)) s.focus i)

end Sys2Proof.Machine
end

