-- ==== Sys2Proof/Machine/Integer.lean ====
section
/-!
DEFINITION. Integer, logic, bit-field, selection, address, comparison, predicate and lane-set instructions
(R60-R69, R139, R158).  Every one is a function of the operands read, written once below, and issues by
`issueWord`.
-/

namespace Sys2Proof.Machine

/-! ## Formulas (R60-R66) -/

/-- How an immediate is extended (R29, R61). -/
inductive ImmExt where
  | sign | zero | bySgn
  deriving DecidableEq, Repr

/-- The 20-bit immediate as a W-bit value (R29, R61). -/
def immValue (ext : ImmExt) (w sgn : Bool) (imm : BitVec 20) : Wide :=
  let signed := match ext with
    | .sign => true
    | .zero => false
    | .bySgn => sgn
  if signed then (if w then imm.signExtend 64 else narrow (imm.signExtend 64)) else imm.setWidth 64

/-- The result of an IN formula: the exact value, clamped under `sat`, in its low W bits (R60). -/
def inResult (w sgn sat : Bool) (t : Int) : Wide := lowBits w (if sat then clampInt w sgn t else t)

/-- An IN instruction of one, two or three sources whose rule is an exact formula. -/
def inNum (m : ModIN) (t : Int) (d : Operand) : List RegWrite × Wide := destWrites m.w (inResult m.w m.sgn m.sat t) d

/-- An IN instruction whose rule gives the W-bit result itself (R65). -/
def inBits (m : ModIN) (r : Wide) (d : Operand) : List RegWrite × Wide :=
  destWrites m.w (if m.w then r else narrow r) d

def Site.num (x : Site) (m : ModIN) (o : Operand) : Int := numOf m.w m.sgn (x.read m.w o)
def immNum (ext : ImmExt) (m : ModIN) (imm : BitVec 20) : Int := numOf m.w m.sgn (immValue ext m.w m.sgn imm)

/-- The carry-in of `iaddc` and `isubc`: bit 0 of operand c (R64). -/
def Site.carryIn (x : Site) (m : ModIN) (o : Operand) : Int := if (x.read m.w o).getLsbD 0 then 1 else 0

/-- The destination of `iaddc` and `isubc`: a p register takes the carry or borrow directly (R64). -/
def carryDest (m : ModIN) (t : Int) (carry : Bool) (d : Operand) : List RegWrite × Wide :=
  match d with
  | .p _ => destBool carry d
  | d => destWrites m.w (lowBits m.w t) d

/-- Shift and rotate counts: the low 5 or 6 bits of b (R65). -/
def shiftCount (w : Bool) (b : Wide) : Nat := b.toNat % widthOf w

def shlBits (w : Bool) (a b : Wide) : Wide := a <<< shiftCount w b

/-- Copies of bit W-1 enter when `sgn` is 1, zeros otherwise (R65). -/
def shrBits (w sgn : Bool) (a b : Wide) : Wide := lowBits w (numOf w sgn a / 2 ^ shiftCount w b)

def rotlBits (w : Bool) (a b : Wide) : Wide :=
  if w then a.rotateLeft (shiftCount w b) else ((a.setWidth 32).rotateLeft (shiftCount w b)).setWidth 64

/-- Length of a field at `pos`, cut at bit W-1; empty at or beyond W (R66). -/
def fieldLen (w : Bool) (b : Wide) : Nat :=
  let pos := b.toNat % 64
  let len := b.toNat / 256 % 128
  if widthOf w ≤ pos then 0 else min len (widthOf w - pos)

/-- A value of n bits read as a two's complement number. -/
def signedOf (n : Nat) (x : Nat) : Int := if 0 < n ∧ 2 ^ (n - 1) ≤ x then (x : Int) - 2 ^ n else x

def bfextBits (w sgn : Bool) (a b : Wide) : Wide :=
  let n := fieldLen w b
  let f := a.toNat / 2 ^ (b.toNat % 64) % 2 ^ n
  lowBits w (if sgn then signedOf n f else f)

def bfinsBits (w : Bool) (a b c : Wide) : Wide :=
  let n := fieldLen w b
  let pos := b.toNat % 64
  let low := c.toNat % 2 ^ pos
  let high := c.toNat / 2 ^ (pos + n)
  if n = 0 then c else BitVec.ofNat 64 (low + 2 ^ pos * (a.toNat % 2 ^ n) + 2 ^ (pos + n) * high)

def popcBits (a : Wide) : Wide := BitVec.ofNat 64 ((List.range 64).filter fun i => a.getLsbD i).length

/-- Zero bits above the highest 1 bit; W when there is none (R65). -/
def clzBits (w : Bool) (a : Wide) : Wide :=
  let n := widthOf w
  BitVec.ofNat 64 (((List.range n).find? fun i => a.getLsbD (n - 1 - i)).getD n)

def brevBits (w : Bool) (a : Wide) : Wide :=
  let n := widthOf w
  (List.range n).foldl (fun r i => if a.getLsbD i then r ||| (1#64 <<< (n - 1 - i)) else r) 0

def selBits (a b c : Wide) : Wide := if c ≠ 0 then a else b

def leaBits (a b c : Wide) : Wide := a + b <<< (c.toNat % 8)

/-- `icmp`: sources of the width of `w`, the result never widened (R68). -/
def icmpResult (m : ModCM) (a b : Int) (d : Operand) : List RegWrite × Wide := destBool (condHolds m.cond.toNat a b) d

/-- The lanes l with a ≤ l < a + b; lanes above 127 are dropped (R139). -/
def kRange (a b : Nat) : BitVec 128 :=
  (List.range 128).foldl (fun m l => if a ≤ l && l < a + b then m ||| (1#128 <<< l) else m) 0

/-- A write of a lane set to a k register; a distance reads its low 64 lanes (R37). -/
def kWrites (x : BitVec 128) : Operand → List RegWrite × Wide
  | .k i => ([.k i.val x], x.setWidth 64)
  | _ => ([], 0)

/-- A p operand (R69). -/
def Site.pred (x : Site) (o : Operand) : Bool := x.read false o ≠ 0

/-! ## Instructions -/

/-- R63: a + b. -/
def execIadd (w : OpWord ModIN) (s : State) : Out :=
  issueWord s (.iadd w) (pureBody fun x =>
    inNum w.m ((x.num w.m w.a) + (x.num w.m w.b)) w.d)

/-- R63: a + b, with the immediate for b. -/
def execIaddImm (w : ImmWord ModIN) (s : State) : Out :=
  issueWord s (.iaddImm w) (pureBody fun x =>
    inNum w.m ((x.num w.m w.a) + (immNum .sign w.m w.imm)) w.d)

/-- R63: a - b. -/
def execIsub (w : OpWord ModIN) (s : State) : Out :=
  issueWord s (.isub w) (pureBody fun x =>
    inNum w.m ((x.num w.m w.a) - (x.num w.m w.b)) w.d)

/-- R63: a - b, with the immediate for b. -/
def execIsubImm (w : ImmWord ModIN) (s : State) : Out :=
  issueWord s (.isubImm w) (pureBody fun x =>
    inNum w.m ((x.num w.m w.a) - (immNum .sign w.m w.imm)) w.d)

/-- R63: a × b. -/
def execImul (w : OpWord ModIN) (s : State) : Out :=
  issueWord s (.imul w) (pureBody fun x =>
    inNum w.m ((x.num w.m w.a) * (x.num w.m w.b)) w.d)

/-- R63: a × b, with the immediate for b. -/
def execImulImm (w : ImmWord ModIN) (s : State) : Out :=
  issueWord s (.imulImm w) (pureBody fun x =>
    inNum w.m ((x.num w.m w.a) * (immNum .sign w.m w.imm)) w.d)

/-- R63: floor(a × b ÷ 2^W). -/
def execImulhi (w : OpWord ModIN) (s : State) : Out :=
  issueWord s (.imulhi w) (pureBody fun x =>
    inNum w.m (((x.num w.m w.a) * (x.num w.m w.b)) / 2 ^ widthOf w.m.w) w.d)

/-- R63: floor(a × b ÷ 2^W), with the immediate for b. -/
def execImulhiImm (w : ImmWord ModIN) (s : State) : Out :=
  issueWord s (.imulhiImm w) (pureBody fun x =>
    inNum w.m (((x.num w.m w.a) * (immNum .bySgn w.m w.imm)) / 2 ^ widthOf w.m.w) w.d)

/-- R63: a × b + c, the exact sum clamped under `sat`. -/
def execImad (w : OpWord ModIN) (s : State) : Out :=
  issueWord s (.imad w) (pureBody fun x =>
    inNum w.m (x.num w.m w.a * x.num w.m w.b + x.num w.m w.c) w.d)

/-- R63, R64: a + b + c[0]; a p destination takes the carry. -/
def execIaddc (w : OpWord ModIN) (s : State) : Out :=
  issueWord s (.iaddc w) (pureBody fun x =>
    let t := x.num w.m w.a + x.num w.m w.b + x.carryIn w.m w.c
    carryDest w.m t (carryOut w.m.w t) w.d)

/-- R63, R64: a - b - c[0]; a p destination takes the borrow. -/
def execIsubc (w : OpWord ModIN) (s : State) : Out :=
  issueWord s (.isubc w) (pureBody fun x =>
    let t := x.num w.m w.a - x.num w.m w.b - x.carryIn w.m w.c
    carryDest w.m t (borrowOut t) w.d)

/-- R63: the smaller of a and b. -/
def execImin (w : OpWord ModIN) (s : State) : Out :=
  issueWord s (.imin w) (pureBody fun x =>
    inNum w.m (min (x.num w.m w.a) (x.num w.m w.b)) w.d)

/-- R63: the smaller of a and b, with the immediate for b. -/
def execIminImm (w : ImmWord ModIN) (s : State) : Out :=
  issueWord s (.iminImm w) (pureBody fun x =>
    inNum w.m (min (x.num w.m w.a) (immNum .bySgn w.m w.imm)) w.d)

/-- R63: the larger of a and b. -/
def execImax (w : OpWord ModIN) (s : State) : Out :=
  issueWord s (.imax w) (pureBody fun x =>
    inNum w.m (max (x.num w.m w.a) (x.num w.m w.b)) w.d)

/-- R63: the larger of a and b, with the immediate for b. -/
def execImaxImm (w : ImmWord ModIN) (s : State) : Out :=
  issueWord s (.imaxImm w) (pureBody fun x =>
    inNum w.m (max (x.num w.m w.a) (immNum .bySgn w.m w.imm)) w.d)

/-- R63: |a|. -/
def execIabs (w : OpWord ModIN) (s : State) : Out :=
  issueWord s (.iabs w) (pureBody fun x =>
    inNum w.m ((x.num w.m w.a).natAbs) w.d)

/-- R63: -a. -/
def execIneg (w : OpWord ModIN) (s : State) : Out :=
  issueWord s (.ineg w) (pureBody fun x =>
    inNum w.m (-(x.num w.m w.a)) w.d)

/-- R65: a AND b. -/
def execAnd (w : OpWord ModIN) (s : State) : Out :=
  issueWord s (.and w) (pureBody fun x =>
    inBits w.m ((x.read w.m.w w.a) &&& (x.read w.m.w w.b)) w.d)

/-- R65: a AND b, with the immediate for b. -/
def execAndImm (w : ImmWord ModIN) (s : State) : Out :=
  issueWord s (.andImm w) (pureBody fun x =>
    inBits w.m ((x.read w.m.w w.a) &&& (immValue .zero w.m.w w.m.sgn w.imm)) w.d)

/-- R65: a OR b. -/
def execOr (w : OpWord ModIN) (s : State) : Out :=
  issueWord s (.or w) (pureBody fun x =>
    inBits w.m ((x.read w.m.w w.a) ||| (x.read w.m.w w.b)) w.d)

/-- R65: a OR b, with the immediate for b. -/
def execOrImm (w : ImmWord ModIN) (s : State) : Out :=
  issueWord s (.orImm w) (pureBody fun x =>
    inBits w.m ((x.read w.m.w w.a) ||| (immValue .zero w.m.w w.m.sgn w.imm)) w.d)

/-- R65: a XOR b. -/
def execXor (w : OpWord ModIN) (s : State) : Out :=
  issueWord s (.xor w) (pureBody fun x =>
    inBits w.m ((x.read w.m.w w.a) ^^^ (x.read w.m.w w.b)) w.d)

/-- R65: a XOR b, with the immediate for b. -/
def execXorImm (w : ImmWord ModIN) (s : State) : Out :=
  issueWord s (.xorImm w) (pureBody fun x =>
    inBits w.m ((x.read w.m.w w.a) ^^^ (immValue .zero w.m.w w.m.sgn w.imm)) w.d)

/-- R65: a AND NOT b. -/
def execAndn (w : OpWord ModIN) (s : State) : Out :=
  issueWord s (.andn w) (pureBody fun x =>
    inBits w.m ((x.read w.m.w w.a) &&& ~~~(x.read w.m.w w.b)) w.d)

/-- R65: a AND NOT b, with the immediate for b. -/
def execAndnImm (w : ImmWord ModIN) (s : State) : Out :=
  issueWord s (.andnImm w) (pureBody fun x =>
    inBits w.m ((x.read w.m.w w.a) &&& ~~~(immValue .zero w.m.w w.m.sgn w.imm)) w.d)

/-- R65: NOT a. -/
def execNot (w : OpWord ModIN) (s : State) : Out :=
  issueWord s (.not w) (pureBody fun x =>
    inBits w.m (~~~(x.read w.m.w w.a)) w.d)

/-- R65: a shifted left. -/
def execShl (w : OpWord ModIN) (s : State) : Out :=
  issueWord s (.shl w) (pureBody fun x =>
    inBits w.m (shlBits w.m.w (x.read w.m.w w.a) (x.read w.m.w w.b)) w.d)

/-- R65: a shifted left, with the immediate for b. -/
def execShlImm (w : ImmWord ModIN) (s : State) : Out :=
  issueWord s (.shlImm w) (pureBody fun x =>
    inBits w.m (shlBits w.m.w (x.read w.m.w w.a) (immValue .zero w.m.w w.m.sgn w.imm)) w.d)

/-- R65: a shifted right. -/
def execShr (w : OpWord ModIN) (s : State) : Out :=
  issueWord s (.shr w) (pureBody fun x =>
    inBits w.m (shrBits w.m.w w.m.sgn (x.read w.m.w w.a) (x.read w.m.w w.b)) w.d)

/-- R65: a shifted right, with the immediate for b. -/
def execShrImm (w : ImmWord ModIN) (s : State) : Out :=
  issueWord s (.shrImm w) (pureBody fun x =>
    inBits w.m (shrBits w.m.w w.m.sgn (x.read w.m.w w.a) (immValue .zero w.m.w w.m.sgn w.imm)) w.d)

/-- R65: a rotated left. -/
def execRotl (w : OpWord ModIN) (s : State) : Out :=
  issueWord s (.rotl w) (pureBody fun x =>
    inBits w.m (rotlBits w.m.w (x.read w.m.w w.a) (x.read w.m.w w.b)) w.d)

/-- R65: a rotated left, with the immediate for b. -/
def execRotlImm (w : ImmWord ModIN) (s : State) : Out :=
  issueWord s (.rotlImm w) (pureBody fun x =>
    inBits w.m (rotlBits w.m.w (x.read w.m.w w.a) (immValue .zero w.m.w w.m.sgn w.imm)) w.d)

/-- R65, R66: a field of a. -/
def execBfext (w : OpWord ModIN) (s : State) : Out :=
  issueWord s (.bfext w) (pureBody fun x =>
    inBits w.m (bfextBits w.m.w w.m.sgn (x.read w.m.w w.a) (x.read w.m.w w.b)) w.d)

/-- R65, R66: a field of a, with the immediate for b. -/
def execBfextImm (w : ImmWord ModIN) (s : State) : Out :=
  issueWord s (.bfextImm w) (pureBody fun x =>
    inBits w.m (bfextBits w.m.w w.m.sgn (x.read w.m.w w.a) (immValue .zero w.m.w w.m.sgn w.imm)) w.d)

/-- R65, R66: c with a field replaced from a. -/
def execBfins (w : OpWord ModIN) (s : State) : Out :=
  issueWord s (.bfins w) (pureBody fun x =>
    inBits w.m (bfinsBits w.m.w (x.read w.m.w w.a) (x.read w.m.w w.b) (x.read w.m.w w.c)) w.d)

/-- R65: number of 1 bits in a. -/
def execPopc (w : OpWord ModIN) (s : State) : Out :=
  issueWord s (.popc w) (pureBody fun x =>
    inBits w.m (popcBits (x.read w.m.w w.a)) w.d)

/-- R65: number of 0 bits above the highest 1 bit. -/
def execClz (w : OpWord ModIN) (s : State) : Out :=
  issueWord s (.clz w) (pureBody fun x =>
    inBits w.m (clzBits w.m.w (x.read w.m.w w.a)) w.d)

/-- R65: a with its bits reversed. -/
def execBrev (w : OpWord ModIN) (s : State) : Out :=
  issueWord s (.brev w) (pureBody fun x =>
    inBits w.m (brevBits w.m.w (x.read w.m.w w.a)) w.d)

/-- R65: a if c is not 0, else b. -/
def execSel (w : OpWord ModIN) (s : State) : Out :=
  issueWord s (.sel w) (pureBody fun x =>
    inBits w.m (selBits (x.read w.m.w w.a) (x.read w.m.w w.b) (x.read w.m.w w.c)) w.d)

/-- R65: a. -/
def execMov (w : OpWord ModIN) (s : State) : Out :=
  issueWord s (.mov w) (pureBody fun x =>
    inBits w.m ((x.read w.m.w w.a)) w.d)

/-- R61, R65: the sign-extended immediate. -/
def execMovImm (w : ImmWord ModIN) (s : State) : Out :=
  issueWord s (.movImm w) (pureBody fun _ =>
    inBits w.m (immValue .sign w.m.w w.m.sgn w.imm) w.d)

/-- R65: a + b × 2^(c[2:0]). -/
def execLea (w : OpWord ModIN) (s : State) : Out :=
  issueWord s (.lea w) (pureBody fun x =>
    inBits w.m (leaBits (x.read w.m.w w.a) (x.read w.m.w w.b) (x.read w.m.w w.c)) w.d)

/-- R68: compares a with b. -/
def execIcmp (w : OpWord ModCM) (s : State) : Out :=
  issueWord s (.icmp w) (pureBody fun x =>
    icmpResult w.m (numOf w.m.w w.m.sgn (x.read w.m.w w.a)) (numOf w.m.w w.m.sgn (x.read w.m.w w.b)) w.d)

/-- R68: compares a with the immediate. -/
def execIcmpImm (w : ImmWord ModCM) (s : State) : Out :=
  issueWord s (.icmpImm w) (pureBody fun x =>
    icmpResult w.m (numOf w.m.w w.m.sgn (x.read w.m.w w.a))
      (numOf w.m.w w.m.sgn (immValue .bySgn w.m.w w.m.sgn w.imm)) w.d)

/-- R69: a AND b. -/
def execPand (w : OpWord ModZ) (s : State) : Out :=
  issueWord s (.pand w) (pureBody fun x => destBool (x.pred w.a && x.pred w.b) w.d)

/-- R69: a OR b. -/
def execPor (w : OpWord ModZ) (s : State) : Out :=
  issueWord s (.por w) (pureBody fun x => destBool (x.pred w.a || x.pred w.b) w.d)

/-- R69: a XOR b. -/
def execPxor (w : OpWord ModZ) (s : State) : Out :=
  issueWord s (.pxor w) (pureBody fun x => destBool (x.pred w.a != x.pred w.b) w.d)

/-- R69: NOT a. -/
def execPnot (w : OpWord ModZ) (s : State) : Out :=
  issueWord s (.pnot w) (pureBody fun x => destBool (!x.pred w.a) w.d)

/-- R69: a. -/
def execPmov (w : OpWord ModZ) (s : State) : Out :=
  issueWord s (.pmov w) (pureBody fun x => destBool (x.pred w.a) w.d)

/-- R139: d := the lanes l with a ≤ l < a + b. -/
def execKset (w : OpWord ModZ) (s : State) : Out :=
  issueWord s (.kset w) (pureBody fun x =>
    kWrites (kRange (x.read32 w.a).toNat (x.read32 w.b).toNat) w.d)

/-- R139: d := a, for a lane set a. -/
def execKsetCopy (w : OpWord ModZ) (s : State) : Out :=
  issueWord s (.ksetCopy w) (pureBody fun x => kWrites (x.lanes w.a) w.d)

/-- R139: 32 lanes of the lane set a, chosen by b[1:0]. -/
def execKget (w : OpWord ModZ) (s : State) : Out :=
  issueWord s (.kget w) (pureBody fun x =>
    destWrites false (((x.lanes w.a).extractLsb' (32 * ((x.read32 w.b).toNat % 4)) 32).setWidth 64) w.d)

/-- R158: nothing but its guard and its `sw` bit. -/
def execNop (w : OpWord ModZ) (s : State) : Out :=
  issueWord s (.nop w) (fun s _ => .ok s)

end Sys2Proof.Machine
end

