-- ==== Sys2Proof/Machine/Arithmetic.lean ====
section
/-!
DEFINITION. Float, conversion, scaled-conversion, dot-product and half-packing instructions (R90-R105).
-/

namespace Sys2Proof.Machine

/-- A float constant rounded to a format, to nearest even (R33). -/
def constIn (fmt i : Nat) : Nat := packVal fmt 0 (unpack 0 (fltPattern i).toNat)

/-- The bits of a source read in a float format (R33, R36, R79): a constant is rounded to the format, and a
packed operation has it in both halves. -/
def Site.float (x : Site) (fmt : Nat) (packed : Bool) (o : Operand) : Nat :=
  match o with
  | .flt i =>
    let c := constIn fmt i.val
    if packed then c + 65536 * c else c
  | o => (x.read32 o).toNat % 2 ^ (if packed then 32 else fmtWidth fmt)

/-- A source of an FL instruction. -/
def Site.fl (x : Site) (m : ModFL) (o : Operand) : Nat := x.float m.fmt.toNat m.x2 o

/-- Element j of a packed source; the source itself in a scalar operation (R79). -/
def elemAt (m : ModFL) (a j : Nat) : Nat := if m.x2 then a / 65536 ^ j % 65536 else a

/-- An FL result from the bits of each element, each clamped on its own (R79, R82). -/
def flWord (m : ModFL) (f : Nat → Nat) : Wide :=
  let g := fun j => if m.sat then satBits m.fmt.toNat (f j) else f j
  BitVec.ofNat 64 (if m.x2 then g 1 * 65536 + g 0 else g 0)

def flResult (m : ModFL) (f : Nat → Nat) (d : Operand) : List RegWrite × Wide := destWrites false (flWord m f) d

/-- The value of element j of a source. -/
def elemFl (m : ModFL) (a j : Nat) : FVal := unpack m.fmt.toNat (elemAt m a j)

/-- A value rounded to the format of an FL instruction. -/
def roundFl (m : ModFL) (v : FVal) : Nat := packVal m.fmt.toNat m.rnd.toNat v

/-- The integer operand of `fscale`: an s32, or an s16 for each element (R91). -/
def scaleCount (m : ModFL) (b j : Nat) : Int :=
  if m.x2 then signedOf 16 (b / 65536 ^ j % 65536) else signedOf 32 (b % 2 ^ 32)

/-- The float format of a type code 8, 9 or 10 (R54). -/
def floatOfType (t : Nat) : Nat := if t = 8 then 1 else if t = 9 then 2 else 0

/-- Width of an integer type code (R54). -/
def intBits (t : Nat) : Nat := 8 * 2 ^ (t % 4)

/-- The source of `cvtf` (R96). -/
def cvtfVal (x : Site) (m : ModCF) (o : Operand) : FVal :=
  let t := m.src.toNat
  if 8 ≤ t then unpack (floatOfType t) (x.float (floatOfType t) false o)
  else
    let n := (x.read (wideType m.src) o).toNat % 2 ^ intBits t
    let v := if t < 4 then signedOf (intBits t) n else n
    .fin (v < 0) v.natAbs 0

/-- `cvti` (R97): the integer of width n, before extension. -/
def cvtiInt (m : ModCI) (v : FVal) : Int :=
  let t := m.dst.toNat
  let n := intBits t
  let lo : Int := if t < 4 then -(2 ^ (n - 1)) else 0
  let hi : Int := if t < 4 then 2 ^ (n - 1) - 1 else 2 ^ n - 1
  let wrap := fun i : Int => let k := (i % 2 ^ n).toNat; if t < 4 then signedOf n k else k
  match v with
  | .nan => 0
  | .inf neg => if m.sat then (if neg then lo else hi) else 0
  | .fin neg mant e =>
    if m.sat then
      -- a magnitude above 2^70 is beyond every range
      let k : Nat := if 70 < e + bitLength mant then 2 ^ 70 else roundInt m.rnd.toNat neg mant e
      max lo (min hi (if neg then -(k : Int) else k))
    else
      let k : Nat := roundInt m.rnd.toNat neg mant e
      wrap (if neg then -(k : Int) else k)

def slotOf (p : Pass) (n : BitVec 3) : Wide := p.slots.getD n.toNat 0

/-- Element j of n bits of a register, signed or not (R103). -/
def dotElem (n : Nat) (sgn : Bool) (x : Word) (j : Nat) : Int :=
  let e := x.toNat / 2 ^ (n * j) % 2 ^ n
  if sgn then signedOf n e else e

/-- `dot8` and `dot4` (R103). -/
def dotWord (n : Nat) (m : ModDT) (a b c : Word) : Wide :=
  let t := (List.range (32 / n)).foldl (fun t j => t + dotElem n m.sa a j * dotElem n m.sb b j) (c.toInt)
  lowBits false (if m.sat then clampInt false true t else t)

/-! ## Instructions -/

/-- R91: a + b, correctly rounded. -/
def execFadd (w : OpWord ModFL) (s : State) : Out :=
  issueWord s (.fadd w) (pureBody fun x =>
    flResult w.m (fun j => roundFl w.m (addVal w.m.rnd.toNat (elemFl w.m (x.fl w.m w.a) j) (elemFl w.m (x.fl w.m w.b) j))) w.d)

/-- R91: a - b, correctly rounded. -/
def execFsub (w : OpWord ModFL) (s : State) : Out :=
  issueWord s (.fsub w) (pureBody fun x =>
    flResult w.m (fun j => roundFl w.m (addVal w.m.rnd.toNat (elemFl w.m (x.fl w.m w.a) j) (negVal (elemFl w.m (x.fl w.m w.b) j)))) w.d)

/-- R91: a × b, correctly rounded. -/
def execFmul (w : OpWord ModFL) (s : State) : Out :=
  issueWord s (.fmul w) (pureBody fun x =>
    flResult w.m (fun j => roundFl w.m (mulVal (elemFl w.m (x.fl w.m w.a) j) (elemFl w.m (x.fl w.m w.b) j))) w.d)

/-- R91: a × b + c with one rounding. -/
def execFfma (w : OpWord ModFL) (s : State) : Out :=
  issueWord s (.ffma w) (pureBody fun x =>
    flResult w.m (fun j => roundFl w.m (addVal w.m.rnd.toNat (mulVal (elemFl w.m (x.fl w.m w.a) j) (elemFl w.m (x.fl w.m w.b) j)) (elemFl w.m (x.fl w.m w.c) j))) w.d)

/-- R92: the lesser of a and b. -/
def execFmin (w : OpWord ModFL) (s : State) : Out :=
  issueWord s (.fmin w) (pureBody fun x =>
    flResult w.m (fun j => pickBits w.m.fmt.toNat false (elemAt w.m (x.fl w.m w.a) j) (elemAt w.m (x.fl w.m w.b) j)) w.d)

/-- R92: the greater of a and b. -/
def execFmax (w : OpWord ModFL) (s : State) : Out :=
  issueWord s (.fmax w) (pureBody fun x =>
    flResult w.m (fun j => pickBits w.m.fmt.toNat true (elemAt w.m (x.fl w.m w.a) j) (elemAt w.m (x.fl w.m w.b) j)) w.d)

/-- R91: a with its sign bit cleared. -/
def execFabs (w : OpWord ModFL) (s : State) : Out :=
  issueWord s (.fabs w) (pureBody fun x =>
    flResult w.m (fun j => (elemAt w.m (x.fl w.m w.a) j) % 2 ^ (fmtWidth w.m.fmt.toNat - 1)) w.d)

/-- R91: a with its sign bit inverted. -/
def execFneg (w : OpWord ModFL) (s : State) : Out :=
  issueWord s (.fneg w) (pureBody fun x =>
    flResult w.m (fun j => Nat.xor (elemAt w.m (x.fl w.m w.a) j) (2 ^ (fmtWidth w.m.fmt.toNat - 1))) w.d)

/-- R91, R94: 1 ÷ a, correctly rounded. -/
def execFrcp (w : OpWord ModFL) (s : State) : Out :=
  issueWord s (.frcp w) (pureBody fun x =>
    flResult w.m (fun j => divBits w.m.fmt.toNat w.m.rnd.toNat (.fin false 1 0) (elemFl w.m (x.fl w.m w.a) j)) w.d)

/-- R91, R93, R94: 1 ÷ √a. -/
def execFrsq (w : OpWord ModFL) (s : State) : Out :=
  issueWord s (.frsq w) (pureBody fun x =>
    flResult w.m (fun j => rsqrtBits w.m.fmt.toNat (elemAt w.m (x.fl w.m w.a) j)) w.d)

/-- R91, R94: √a, correctly rounded. -/
def execFsqrt (w : OpWord ModFL) (s : State) : Out :=
  issueWord s (.fsqrt w) (pureBody fun x =>
    flResult w.m (fun j => sqrtBits w.m.fmt.toNat w.m.rnd.toNat (elemFl w.m (x.fl w.m w.a) j)) w.d)

/-- R91: a ÷ b, correctly rounded. -/
def execFdiv (w : OpWord ModFL) (s : State) : Out :=
  issueWord s (.fdiv w) (pureBody fun x =>
    flResult w.m (fun j => divBits w.m.fmt.toNat w.m.rnd.toNat (elemFl w.m (x.fl w.m w.a) j) (elemFl w.m (x.fl w.m w.b) j)) w.d)

/-- R91, R93, R94: 2^a. -/
def execFexp2 (w : OpWord ModFL) (s : State) : Out :=
  issueWord s (.fexp2 w) (pureBody fun x =>
    flResult w.m (fun j => exp2Bits w.m.fmt.toNat (elemAt w.m (x.fl w.m w.a) j)) w.d)

/-- R91, R93, R94: log2 a. -/
def execFlog2 (w : OpWord ModFL) (s : State) : Out :=
  issueWord s (.flog2 w) (pureBody fun x =>
    flResult w.m (fun j => log2Bits w.m.fmt.toNat (elemAt w.m (x.fl w.m w.a) j)) w.d)

/-- R91, R93, R94: sin(2π × a). -/
def execFsin (w : OpWord ModFL) (s : State) : Out :=
  issueWord s (.fsin w) (pureBody fun x =>
    flResult w.m (fun j => trigBits false w.m.fmt.toNat (elemAt w.m (x.fl w.m w.a) j)) w.d)

/-- R91, R93, R94: cos(2π × a). -/
def execFcos (w : OpWord ModFL) (s : State) : Out :=
  issueWord s (.fcos w) (pureBody fun x =>
    flResult w.m (fun j => trigBits true w.m.fmt.toNat (elemAt w.m (x.fl w.m w.a) j)) w.d)

/-- R91, R94: a - floor(a), rounded toward zero. -/
def execFfrac (w : OpWord ModFL) (s : State) : Out :=
  issueWord s (.ffrac w) (pureBody fun x =>
    flResult w.m (fun j => packVal w.m.fmt.toNat 1 (ffracVal (elemFl w.m (x.fl w.m w.a) j))) w.d)

/-- R91, R94: a rounded to an integral value. -/
def execFrnd (w : OpWord ModFL) (s : State) : Out :=
  issueWord s (.frnd w) (pureBody fun x =>
    flResult w.m (fun j => packVal w.m.fmt.toNat 0 (frndVal w.m.rnd.toNat (elemFl w.m (x.fl w.m w.a) j))) w.d)

/-- R92: fmin(fmax(a, b), c). -/
def execFclamp (w : OpWord ModFL) (s : State) : Out :=
  issueWord s (.fclamp w) (pureBody fun x =>
    flResult w.m (fun j => pickBits w.m.fmt.toNat false (pickBits w.m.fmt.toNat true (elemAt w.m (x.fl w.m w.a) j) (elemAt w.m (x.fl w.m w.b) j)) (elemAt w.m (x.fl w.m w.c) j)) w.d)

/-- R91: a × 2^n for the integer b. -/
def execFscale (w : OpWord ModFL) (s : State) : Out :=
  issueWord s (.fscale w) (pureBody fun x =>
    flResult w.m (fun j => roundFl w.m (fscaleVal (scaleCount w.m (x.read32 w.b).toNat j) (elemFl w.m (x.fl w.m w.a) j))) w.d)

/-- R95: compares two floats. -/
def execFcmp (w : OpWord ModCM) (s : State) : Out :=
  issueWord s (.fcmp w) (pureBody fun x =>
    destBool (fcmpHolds w.m.fmt.toNat w.m.cond.toNat (x.float w.m.fmt.toNat false w.a) (x.float w.m.fmt.toNat false w.b)) w.d)

/-- R96: converts to a float. -/
def execCvtf (w : OpWord ModCF) (s : State) : Out :=
  issueWord s (.cvtf w) (pureBody fun x =>
    destWrites false (BitVec.ofNat 64 (packVal w.m.dst.toNat w.m.rnd.toNat (cvtfVal x w.m w.a))) w.d)

/-- R97: converts a float to an integer. -/
def execCvti (w : OpWord ModCI) (s : State) : Out :=
  issueWord s (.cvti w) (pureBody fun x =>
    destWrites (wideType w.m.dst)
      (lowBits (wideType w.m.dst) (cvtiInt w.m (unpack w.m.src.toNat (x.float w.m.src.toNat false w.a)))) w.d)

/-- R99: quantises one value. -/
def execQnt (w : OpWord ModQS) (s : State) : Out :=
  issueWord s (.qnt w) (pureBody fun x =>
    destWrites false (BitVec.ofNat 64
      (qntCode (slotOf x.pass w.m.slot) w.m.fmt.toNat w.m.rnd.toNat (x.float w.m.fmt.toNat false w.a) (x.read32 w.b).toNat)) w.d)

/-- R100: dequantises one element. -/
def execDqnt (w : OpWord ModQS) (s : State) : Out :=
  issueWord s (.dqnt w) (pureBody fun x =>
    let slot := slotOf x.pass w.m.slot
    destWrites false (BitVec.ofNat 64 (packVal w.m.fmt.toNat w.m.rnd.toNat
      (scaledVal (elemVal (slotElem slot) (x.read32 w.a).toNat) (scaleOf (slotSm8 slot) (x.read32 w.b).toNat)))) w.d)

/-- R101: decodes a scale. -/
def execSclx (w : OpWord ModQS) (s : State) : Out :=
  issueWord s (.sclx w) (pureBody fun x =>
    destWrites false (BitVec.ofNat 64 (packVal w.m.fmt.toNat w.m.rnd.toNat
      (scaledVal (.fin false 1 0) (scaleOf (slotSm8 (slotOf x.pass w.m.slot)) (x.read32 w.a).toNat)))) w.d)

/-- R102: encodes a scale. -/
def execSclenc (w : OpWord ModQS) (s : State) : Out :=
  issueWord s (.sclenc w) (pureBody fun x =>
    destWrites false (BitVec.ofNat 64
      (sclencCode (slotOf x.pass w.m.slot) w.m.fmt.toNat w.m.rnd.toNat (x.float w.m.fmt.toNat false w.a))) w.d)

/-- R103: c plus the dot product of 8 elements of 4 bits. -/
def execDot8 (w : OpWord ModDT) (s : State) : Out :=
  issueWord s (.dot8 w) (pureBody fun x =>
    destWrites false (dotWord 4 w.m (x.read32 w.a) (x.read32 w.b) (x.read32 w.c)) w.d)

/-- R103: c plus the dot product of 4 elements of 8 bits. -/
def execDot4 (w : OpWord ModDT) (s : State) : Out :=
  issueWord s (.dot4 w) (pureBody fun x =>
    destWrites false (dotWord 8 w.m (x.read32 w.a) (x.read32 w.b) (x.read32 w.c)) w.d)

/-- R104: the low halves of a and b. -/
def execHpack (w : OpWord ModZ) (s : State) : Out :=
  issueWord s (.hpack w) (pureBody fun x =>
    destWrites false (((x.read32 w.b).setWidth 16 ++ (x.read32 w.a).setWidth 16 : Word).setWidth 64) w.d)

/-- R104: the half of a that b[0] names. -/
def execHunpk (w : OpWord ModZ) (s : State) : Out :=
  issueWord s (.hunpk w) (pureBody fun x =>
    destWrites false (((x.read32 w.a).extractLsb' (if (x.read32 w.b).getLsbD 0 then 16 else 0) 16).setWidth 64) w.d)

end Sys2Proof.Machine
end

