-- ==== Sys2Proof/Machine/Access.lean ====
section
/-!
DEFINITION. The element access (R107, R206-R213, R220), its data checks, own buffered bytes (R110), row lines
(R113), and waiting for a thread's own reductions (R236).
-/

namespace Sys2Proof.Machine

/-! ## Types (R54, R109) -/

/-- Bytes of an access of a type code (R109). -/
def typeWidth (t : Nat) : Nat :=
  match t with
  | 0 | 4 => 1
  | 1 | 5 | 8 | 9 => 2
  | 3 | 7 => 8
  | 11 => 16
  | _ => 4

/-- A loaded value as a register receives it: sign-extended to 32 bits for codes 0 and 1 (R109). -/
def loadedValue (t : Nat) (bytes : List Byte) : Wide :=
  let n := ofBytes bytes
  match t with
  | 0 => lowBits false (signedOf 8 n)
  | 1 => lowBits false (signedOf 16 n)
  | _ => BitVec.ofNat 64 n

/-! ## The element access (R107) -/

/-- What an instruction does with the element: `lod` when it may name a level-of-detail record, `splits`
when a misaligned access takes the supervisor route (R333), `sampler` when it reads path S whatever the record's `ro`
(R9, R111). -/
structure Use where
  acc    : Access
  lod    : Bool
  splits : Bool
  sampler : Bool
  deriving DecidableEq, Repr

/-- Where one byte of an access falls: its place, its address for a record, and whether its page is
discarded. -/
structure Spot where
  loc       : Loc
  va        : Nat
  discarded : Bool
  deriving DecidableEq, Repr

def writes (a : Access) : Bool := a ≠ .read

/-- The address word of a fault record with a page (R331). -/
def vaData1 (va : Nat) (acc : Access) : Word :=
  BitVec.ofNat 32 (va / 2 ^ 32 % 65536 + (if writes acc then 2 ^ 16 else 0) + (if acc = .atomic then 2 ^ 17 else 0))

def pageTrouble (code : Code) (va : Nat) (acc : Access) : Trouble :=
  ⟨code, BitVec.ofNat 32 va, vaData1 va acc, some (.page (va / 65536)), false⟩

/-- The element index of the low 32 bits. -/
def indexWord (e : Int) : Word := BitVec.ofInt 32 e

/-- PAGE_PROTECT for a write refused by a record with `ro` 1 (R331). -/
def roTrouble (e : Int) (acc : Access) : Trouble :=
  ⟨.pageProtect, indexWord e, BitVec.ofNat 32 (2 ^ 16 + 2 ^ 19 + (if acc = .atomic then 2 ^ 17 else 0)), none, false⟩

/-- Whether a record's 128 bits equal a record of the group's tile table (R173). -/
def inTileTable (g : Group) (b : BitVec 128) : Bool := g.tiles.any fun t => t.records.contains b

/-- A ring record's address: an overflow place is a board-tier address, a slot an offset in the ring segment
(R284). -/
def ringVa (off : Nat) : Bool := boardVa ≤ off

/-- Translation of one byte, with the checks 1 to 3 of R107. -/
def spotOf (s : State) (k va : Nat) (acc : Access) : Except Trouble Spot :=
  match translate s k va acc with
  | .absent => .error (pageTrouble .pageAbsent va acc)
  | .protect => .error (pageTrouble .pageProtect va acc)
  | .ok a discarded =>
    if discarded && writes acc then .error (pageTrouble .discardedWrite va acc) else .ok ⟨.mem a, va, discarded⟩

/-- The bytes of an aligned access share the translation of its first byte (R210). -/
def spotsOf (s : State) (k va width : Nat) (acc : Access) : Except Trouble (List Spot) :=
  match spotOf s k va acc with
  | .error t => .error t
  | .ok p => .ok ((List.range width).map fun i => match p.loc with
    | .mem a => ⟨.mem (a + i), va + i, p.discarded⟩
    | .pad a => ⟨.pad (a + i), va + i, false⟩)

/-! ## Reading bytes -/

/-- The bytes a thread's store buffer holds for a place: of its own segment, newest store first, and of committed stores
that have not left the buffer: on the V path of all, on path S of those that a load there has read before (R110, R236). -/
def bufferedByte (th : Thread) (path : Path) (p : Loc) : Option Byte :=
  let find := fun (sts : List Store) => sts.reverse.findSome? fun st => (st.bytes.reverse.find? fun b => b.1 = p).map Prod.snd
  match find th.seg.stores with
  | some b => some b
  | none => find (if path = .s then th.buffer.filter Store.seen else th.buffer)

/-- A byte as the thread reads it on a path, when its own stores do not supply it. -/
def pathByte (s : State) (x : Site) (path : Path) (p : Loc) : Byte :=
  match p with
  | .pad o => padSeen s x.g x.th o
  | .mem a => match path with
    | .s => sByte s x.core a
    | _ => vByte s x.core a

/-- A byte of an access: a discarded page reads zero (R220). -/
def spotByte (s : State) (x : Site) (path : Path) (p : Spot) : Byte :=
  if p.discarded then 0 else (bufferedByte x.th path p.loc).getD (pathByte s x path p.loc)

/-- Whether the byte comes from storage, and so carries the storage's poison and check codes. -/
def fromStorage (x : Site) (path : Path) (p : Spot) : Bool := !p.discarded && (bufferedByte x.th path p.loc).isNone

/-- The flaws of the copy of storage that a path of core `k` reads a byte from: its cache's line, or the home slices
(R319, R322).  A line of which L1 holds dirty bytes alone has those of both. -/
def pathFlaws (s : State) (k : Nat) (path : Path) (a : Nat) : Flaws :=
  let c := getCore s k
  let home := homeFlaws s (dieOf k)
  match path with
  | .s => ((lineIn c.sCache a).map CacheLine.flaws).getD home
  | _ => if filled c (lineOf a) then c.l1Flaws else if holdsLine c (lineOf a) then home.join c.l1Flaws else home

def spotPoisoned (s : State) (x : Site) (path : Path) (p : Spot) : Bool :=
  match p.loc with
  | .mem a => (pathFlaws s x.core path a).poisoned a
  | .pad o => (padFlaw s x.g x.th o).1

def spotMismatch (s : State) (x : Site) (path : Path) (p : Spot) : Bool :=
  match p.loc with
  | .mem a => (pathFlaws s x.core path a).wrong a
  | .pad o => (padFlaw s x.g x.th o).2

/-- First poisoned and first mismatching byte of an access, as addresses for a record (R107 order 5 and 6). -/
def firstPoison (s : State) (x : Site) (path : Path) (ps : List Spot) : Option Nat :=
  (ps.find? fun p => fromStorage x path p && spotPoisoned s x path p).map Spot.va
def firstMismatch (s : State) (x : Site) (path : Path) (ps : List Spot) : Option Nat :=
  (ps.find? fun p => fromStorage x path p && spotMismatch s x path p).map Spot.va

/-- The first byte of several accesses made one after another whose data are bad: its poison or its mismatch. -/
def firstBad (s : State) (x : Site) (path : Path) (ps : List Spot) : Option Spot :=
  ps.find? fun p => fromStorage x path p && (spotPoisoned s x path p || spotMismatch s x path p)

/-- What the data checks of a load found: a poisoned byte, or a byte of a mismatching block (R107 orders 5 and 6). -/
structure Marks where
  poison   : Option Nat
  mismatch : Option Nat
  deriving DecidableEq, Repr

/-- The checks of one access: poison of any of its bytes comes before a mismatch (R107). -/
def wholeMarks (s : State) (x : Site) (path : Path) (ps : List Spot) : Marks :=
  ⟨firstPoison s x path ps, firstMismatch s x path ps⟩

/-- The checks of accesses made byte by byte: the first bad byte counts (R179, R333). -/
def byteMarks (s : State) (x : Site) (path : Path) (ps : List Spot) : Marks :=
  match firstBad s x path ps with
  | none => ⟨none, none⟩
  | some p => if spotPoisoned s x path p then ⟨some p.va, none⟩ else ⟨none, some p.va⟩

/-! ## Bytes of an access -/

/-- The bytes of a split access are translated one by one, up to the first that fails (R333). -/
def splitSpots (s : State) (k : Nat) (acc : Access) : Nat → Nat → List Spot × Option Trouble
  | _, 0 => ([], none)
  | va, n + 1 => match spotOf s k va acc with
    | .error t => ([], some t)
    | .ok p =>
      let rest := splitSpots s k acc (va + 1) n
      (p :: rest.1, rest.2)

/-- A split access is checked byte by byte, in the order of R107 for each (R333): a byte whose data are bad comes before
a later byte that does not translate, and a read then ends with it. -/
def splitAccess (s : State) (x : Site) (path : Path) (acc : Access) (va n : Nat) : Except Trouble (List Spot) :=
  match splitSpots s x.core acc va n with
  | (ps, none) => .ok ps
  | (ps, some t) =>
    if acc = .read && (firstBad s x path ps).isSome then .ok ps else .error t

/-- Whether the running firmware sends MISALIGNED to the supervisor routine (R333). -/
def supervised (s : State) : Bool :=
  match s.running with
  | some f => !Config.misalignedToVector f.code
  | none => true

/-- A record as the thread reads it (R112). -/
def Site.record (x : Site) (n : Nat) : BitVec 128 := regNow x.g x.th (.b n)

/-- The checks of R107 from the record's poison to its `ro` flag: the record, if they pass. -/
def checkRecord (x : Site) (n : Nat) (e : Int) (u : Use) : Except Trouble BufRec :=
  let b := x.record n
  let rec_ := bufRec b
  if regPoisoned x.g x.th (.b n) then .error (x.poisonedReg (.b n))
  else if rec_.ring && !inTileTable x.g b then .error (x.trouble .ringViolation (indexWord e))
  else if !recDefined rec_ then .error (x.trouble .bounds (indexWord e))
  else if rec_.lod && !u.lod then .error (x.trouble .bounds (indexWord e))
  else if rec_.ro && writes u.acc then
    .error (if rec_.ring then x.trouble .ringViolation (indexWord e) else roTrouble e u.acc)
  else .ok rec_

/-- The address in a record's segment of `width` bytes at offset `off`, after the segment checks of R107. -/
def segmentAddr (x : Site) (r : BufRec) (off width : Nat) : Except Trouble Nat :=
  let g := regNow x.g x.th (.g r.seg)
  if r.ring then .ok off
  else if regPoisoned x.g x.th (.g r.seg) then .error (x.poisonedReg (.g r.seg))
  else if effLimit (padBytes x.pass) g < off + width then .error (x.trouble .segmentLimit (BitVec.ofNat 32 r.seg))
  else .ok (segBase g + off)

/-- Whether an address in a record is a scratchpad offset, or an offset in the ring segment. -/
def inPad (x : Site) (r : BufRec) : Bool := !r.ring && segKind (regNow x.g x.th (.g r.seg)) = 2
def inRing (r : BufRec) (addr : Nat) : Bool := r.ring && !ringVa addr

/-- The bytes of an access at an address, after the alignment check: scratchpad and ring-segment bytes are
not translated (R107). -/
def placeBytes (s : State) (x : Site) (r : BufRec) (addr width : Nat) (u : Use) : Except Trouble (List Spot) :=
  let split := addr % width ≠ 0
  if split && !(u.splits && x.th.split) then
    .error { x.trouble .misaligned (BitVec.ofNat 32 addr) with split := u.splits && supervised s }
  else if inPad x r then .ok ((List.range width).map fun i => ⟨.pad (addr + i), addr + i, false⟩)
  else if inRing r addr then .ok ((List.range width).map fun i => ⟨.mem (ringStorage (addr + i)), addr + i, false⟩)
  else if split then splitAccess s x (if r.ro || u.sampler then .s else .v) u.acc addr width
  else spotsOf s x.core addr width u.acc

/-- The element access of R107 through b[n]: the bytes of element e. -/
def elementAccess (s : State) (x : Site) (n : Nat) (e : Int) (width : Nat) (u : Use) :
    Except Trouble (BufRec × List Spot) :=
  match checkRecord x n e u with
  | .error t => .error t
  | .ok r =>
    if e < 0 || (r.extent : Int) ≤ e then .error (x.trouble .bounds (indexWord e))
    else match segmentAddr x r (r.base + e.toNat * r.stride) width with
      | .error t => .error t
      | .ok addr => match placeBytes s x r addr width u with
        | .error t => .error t
        | .ok ps => .ok (r, ps)

/-- The element index: a 32-bit two's complement index plus the offset, exactly (R107). -/
def Site.element (x : Site) (a : Operand) (off : Int) : Int := (x.read32 a).toInt + off

/-! ## Serving lines -/

/-- How an access places its lines (R111). -/
structure Placing where
  keep : Bool
  low  : Bool
  deriving DecidableEq, Repr

/-- By the access's own `pol`, or by the record's policy (R111). -/
def placing (pol : BitVec 2) (r : BufRec) : Placing :=
  ⟨pol = 2 || (pol = 0 && r.policy = 2), pol = 1 || (pol = 0 && r.policy = 1)⟩

/-- The storage lines of an access. -/
def spotLines (ps : List Spot) : List Nat :=
  (ps.filterMap fun p => match p.loc with
    | .mem a => if p.discarded then none else some (lineOf a)
    | .pad _ => none).dedup

/-- The distinct lines that earlier threads of the same row touch in the same word: the row is served line by line, and
each line is looked up and counted once (R210). -/
def servedLines (x : Site) (i : Instr) (acc : Site → Except Trouble (List Spot)) : List Nat :=
  ((x.mates i).filter fun y => y.t.group = x.t.group && y.t.row = x.t.row && y.t.lane < x.t.lane).flatMap fun y =>
    match acc y with
    | .ok ps => spotLines ps
    | .error _ => []

/-- One line of an access is looked up in the cache of its path and filled where it misses (R111, R217, R219). -/
def serveLine (s : State) (x : Site) (path : Path) (place : Placing) (l : Nat) : State :=
  match path with
  | .s => if (lineIn (getCore s x.core).sCache l).isSome then s
    else fillS (fillSector s x.core l place.low) x.core l
  | _ =>
    if filled (getCore s x.core) l then
      bump (fillL1 s x.core l place.keep place.low) x.core 11 (some x.g.stage) 1
    else bump (fillL1 (fillSector s x.core l place.low) x.core l place.keep place.low) x.core 12 (some x.g.stage) 1

/-- Brings the lines of an access into the cache of its path (R111, R217), but for those already served for the row,
and its page into the TLB (R211). -/
def fillLines (s : State) (x : Site) (path : Path) (place : Placing) (served : List Nat) (ps : List Spot) : State :=
  let s := ps.foldl (fun s p => match p.loc with
    | .mem a => if a < tierBase 3 then tlbFill s x.core p.va else s
    | .pad _ => s) s
  ((spotLines ps).filter fun l => !served.contains l).foldl (fun s l => serveLine s x path place l) s

/-- A `.line` access is performed at the home slice: what the cache holds of the line leaves it first, dirty bytes by a
write-back (R113). -/
def dropLine (s : State) (k : Nat) (path : Path) (l : Nat) : State :=
  match path with
  | .s => updCore s k fun c => { c with sCache := c.sCache.filter fun x => x.line ≠ l }
  | _ => evictLine s k l

/-- The line a byte lies in; scratchpad and storage lines differ. -/
def lineKey (p : Spot) : Bool × Nat :=
  match p.loc with
  | .pad o => (true, lineOf o)
  | .mem _ => (false, lineOf p.va)

/-- The line of the row of thread `x` (R113): that of the first byte of the lowest enabled lane's access. -/
def rowLine (x : Site) (i : Instr) (acc : Site → Except Trouble (List Spot)) : Option (Bool × Nat) :=
  let row := (x.mates i).filter fun y => y.t.group = x.t.group && y.t.row = x.t.row
  let found := row.filterMap fun y => match acc y with
    | .ok (p :: _) => some (y.t.lane, lineKey p)
    | _ => none
  (found.foldl (fun best q => match best with
    | none => some q
    | some b => if q.1 < b.1 then some q else some b) none).map Prod.snd

/-- Whether every byte of the access lies in the row's line; a split access never does (R333). -/
def insideLine (line : Option (Bool × Nat)) (split : Bool) (ps : List Spot) : Bool :=
  !split && ps.all fun p => line = some (lineKey p)

/-! ## Waiting for a thread's own reductions (R236) -/

def overlaps (a b : Loc) (na nb : Nat) : Bool :=
  match a, b with
  | .mem x, .mem y => x < y + nb && y < x + na
  | .pad x, .pad y => x < y + nb && y < x + na
  | _, _ => false

/-- Whether the thread has a reduction in flight that writes a byte of the access. -/
def ownReduction (s : State) (t : ThreadRef) (ps : List Spot) : Bool :=
  s.reductions.any fun r => r.thread = t && ps.any fun p => overlaps r.loc p.loc (typeWidth r.type) 1

/-- Whether an address lies in the destination range of a running tier move or in a page on its way to another
vault: accesses to it wait (R214, R317). -/
def onTheMove (s : State) (va : Nat) : Bool :=
  s.moves.any (fun m => m.started && m.dest ≤ va && va < m.dest + m.frames.length * 65536) ||
    s.pageMoves.any fun m => m.va ≤ va && va < m.va + 65536

/-- Whether an access to the bytes must wait: for a reduction of its own thread, or for a move of its page. -/
def spotsHeld (x : Site) (ps : List Spot) : Bool :=
  ownReduction x.before x.t ps || ps.any fun p => match p.loc with
    | .mem a => a < tierBase 3 && onTheMove x.before p.va
    | .pad _ => false

/-- Whether an element access must wait (R214, R236, R317). -/
def accessHeld (acc : Site → Except Trouble (BufRec × List Spot)) (x : Site) : Bool :=
  match acc x with
  | .ok (_, ps) => spotsHeld x ps
  | .error _ => false

end Sys2Proof.Machine
end

