-- ==== Sys2Proof/Machine/Loads.lean ====
section
/-!
DEFINITION. Loads, stores, sampled loads, record loads and hints (R108-R119, R223-R227).
-/

namespace Sys2Proof.Machine

/-! ## Placing loaded bytes (R109, R115, R117) -/

/-- The register writes of loaded bytes, and the value a distance supplies (R37, R109). -/
def loadWrites (t : Nat) (d : Operand) (bytes : List Byte) : List RegWrite × Wide :=
  if t = 11 then
    runWrites ((List.range 4).map fun j => BitVec.ofNat 32 (ofBytes ((bytes.drop (4 * j)).take 4))) d
  else destWrites (t = 3 || t = 7) (loadedValue t bytes) d

/-- What a returned load writes. -/
def returnWrites (kind : LoadKind) (bytes : List Byte) : List RegWrite × Wide :=
  match kind with
  | .plain d t => loadWrites t d bytes
  | .record b => ([.b b (BitVec.ofNat 128 (ofBytes bytes))], 0)
  | .sampled d t status => runWrites [(loadedValue t bytes).setWidth 32, status] d
  | .unit ws v => (ws, v)

/-- Whether the load's destination counts for distances: a raw buffer register does not (R37). -/
def loadCounts : LoadKind → Bool
  | .record _ => false
  | _ => true

def isPaged (ps : List Spot) : Bool :=
  match ps with
  | ⟨.mem a, _, _⟩ :: _ => a < tierBase 3
  | _ => false

/-- The stores of a segment of which a load on path S reads bytes: what it has read, no later load there may miss (R110,
R236). -/
def markSeen (path : Path) (ps : List Spot) (sts : List Store) : List Store :=
  if path ≠ .s then sts
  else sts.map fun st => { st with seen := st.seen || st.bytes.any fun c => ps.any fun p => !p.discarded && p.loc = c.1 }

/-- A load reads its bytes now, as state `src` holds them; its result waits for the data to return (R110).  `also` are
bytes it reads to find its element. -/
def startLoad (s src : State) (x : Site) (path : Path) (kind : LoadKind) (marks : Marks) (also ps : List Spot) : State :=
  let bytes := ps.map (spotByte src x path)
  let id := x.th.seg.results.length
  let load : Load := ⟨id, kind, bytes, marks.poison, marks.mismatch, isPaged (also ++ ps)⟩
  let ws := (returnWrites kind (List.replicate ps.length 0)).1
  updThread s x.t fun th => { th with
    memStatus := if (also ++ ps).any Spot.discarded then th.memStatus ||| 1 else th.memStatus
    seg := { th.seg with
      results := ⟨id, loadCounts kind, false, ws, 0⟩ :: th.seg.results
      loads := th.seg.loads ++ [load]
      stores := markSeen path (also ++ ps) th.seg.stores } }

/-! ## Loads (R109-R113) -/

def loadUse : Use := ⟨.read, false, true, false⟩
def ldroUse : Use := ⟨.read, false, true, true⟩

def loadAccess (u : Use) (x : Site) (buf : BitVec 5) (a : Operand) (off : BitVec 15) (t : Nat) :
    Except Trouble (BufRec × List Spot) :=
  elementAccess x.before x buf.toNat (x.element a off.toInt) (typeWidth t) u

def spotsMisaligned (ps : List Spot) (width : Nat) : Bool :=
  match ps with
  | p :: _ => p.va % width ≠ 0
  | [] => false

/-- The data checks of a load: of the whole access, or byte by byte when it is split (R107, R333). -/
def loadMarks (s : State) (x : Site) (path : Path) (ps : List Spot) (width : Nat) : Marks :=
  if spotsMisaligned ps width then byteMarks s x path ps else wholeMarks s x path ps

def dropSpotLine (s : State) (k : Nat) (path : Path) : List Spot → State
  | ⟨.mem a, _, _⟩ :: _ => dropLine s k path (lineOf a)
  | _ => s

/-- `ld` and `ldro` (R109, R111, R113): `sampler` when the instruction itself is `ldro`. -/
def loadBody (i : Instr) (m : ModMM) (sampler : Bool) (kind : LoadKind) (acc : Site → Except Trouble (BufRec × List Spot)) :
    Body := fun s x =>
  match acc x with
  | .error t => .error t
  | .ok (r, ps) =>
    let path := if sampler || r.ro then Path.s else Path.v
    let line := rowLine x i fun y => (acc y).map Prod.snd
    let inside := m.line && insideLine line (spotsMisaligned ps (typeWidth m.type.toNat)) ps
    let s := if inside then dropSpotLine s x.core path ps else s
    let src := if inside then s else x.before
    let s := if m.line && !inside then setMemStatus s x.t 2 else s
    let s := startLoad s src x path kind (loadMarks src x path ps (typeWidth m.type.toNat)) [] ps
    .ok (fillLines s x path (placing m.pol r) (servedLines x i fun y => (acc y).map Prod.snd) ps)

/-- LD (R109): reads element e at execution. -/
def execLd (w : MemWord ModMM) (s : State) : Out :=
  let acc := fun x : Site => loadAccess loadUse x w.buf w.a w.off w.m.type.toNat
  issueHeld s (.ld w) (accessHeld acc) (loadBody (.ld w) w.m false (.plain w.d w.m.type.toNat) acc)

/-- LDRO (R109, R111): as `ld`, on the read-only path S. -/
def execLdro (w : MemWord ModMM) (s : State) : Out :=
  let acc := fun x : Site => loadAccess ldroUse x w.buf w.a w.off w.m.type.toNat
  issueHeld s (.ldro w) (accessHeld acc) (loadBody (.ldro w) w.m true (.plain w.d w.m.type.toNat) acc)

/-- LDBR (R117): reads 16 bytes and writes them to b[m] at commit. -/
def execLdbr (w : RawMemWord ModMM) (s : State) : Out :=
  let acc := fun x : Site => loadAccess loadUse x w.buf w.a w.off 11
  issueHeld s (.ldbr w) (accessHeld acc) (loadBody (.ldbr w) w.m false (.record w.d.toNat) acc)

/-! ## Stores (R109, R110, R113) -/

def storeUse : Use := ⟨.write, false, true, false⟩

def storeAccess (x : Site) (w : MemWord ModMM) : Except Trouble (BufRec × List Spot) :=
  elementAccess x.before x w.buf.toNat (x.element w.a w.off.toInt) (typeWidth w.m.type.toNat) storeUse

/-- The bytes a store writes: the low bytes of the source (R109). -/
def storeBytes (x : Site) (w : MemWord ModMM) : List Byte :=
  if w.m.type = 11 then toBytes (quad (x.run 4 w.d)) 16
  else toBytes (x.read (wideType w.m.type) w.d) (typeWidth w.m.type.toNat)

/-- A store as the buffer holds it: one store, or one for each byte of a split access (R110, R333). -/
def asStores (place : Placing) (ps : List Spot) (bytes : List Byte) (split : Bool) (event : Option Nat) : List Store :=
  let cells := (ps.map Spot.loc).zip bytes
  if split then cells.map fun c => ⟨[c], none, 0, place.keep, place.low, false⟩
  else [⟨cells, event, 0, place.keep, place.low, false⟩]

def storeBody (i : Instr) (w : MemWord ModMM) : Body := fun s x =>
  match storeAccess x w with
  | .error t => .error t
  | .ok (r, ps) =>
    let split := spotsMisaligned ps (typeWidth w.m.type.toNat)
    let line := rowLine x i fun y => (storeAccess y w).map Prod.snd
    let inside := w.m.line && insideLine line split ps
    let sts := asStores (placing w.m.pol r) ps (storeBytes x w) split (if inside then some x.before.serial else none)
    let s := if w.m.line && !inside then setMemStatus s x.t 2 else s
    let s := ps.foldl (fun s p => match p.loc with
      | .mem a => if a < tierBase 3 then tlbFill s x.core p.va else s
      | .pad _ => s) s
    .ok (updThread s x.t fun th => { th with seg := { th.seg with stores := th.seg.stores ++ sts } })

/-- ST (R109, R110): checked at execution, held in the store buffer until its segment commits. -/
def execSt (w : MemWord ModMM) (s : State) : Out := 
  issueHeld s (.st w) (accessHeld fun x => storeAccess x w) (storeBody (.st w) w)

/-! ## Level-of-detail resources (R115, R116, R223-R227) -/

/-- A field of a little-endian structure. -/
def bitField (n lo width : Nat) : Nat := n / 2 ^ lo % 2 ^ width

/-- Bytes of the record's segment, without the checks of an access; none where a page does not translate. -/
def segmentSpots (s : State) (x : Site) (r : BufRec) (off n : Nat) : Option (List Spot) :=
  let addr := segBase (regNow x.g x.th (.g r.seg)) + off
  if inPad x r then some ((List.range n).map fun i => ⟨.pad (addr + i), addr + i, false⟩)
  else (List.range n).mapM fun i => match translate s x.core (addr + i) .read with
    | .ok a discarded => some ⟨.mem a, addr + i, discarded⟩
    | _ => none

/-- What bytes read on path S hold, as a little-endian number. -/
def spotsNat (s : State) (x : Site) (ps : List Spot) : Nat := ofBytes (ps.map (spotByte s x .s))

structure LodDesc where
  id       : Nat
  coarsest : Nat
  width    : Nat
  height   : Nat
  map_     : Nat
  ring     : Nat
  /-- Base and map bit of each level. -/
  levels   : List (Nat × Nat)
  /-- The bytes it was read from. -/
  spots    : List Spot
  deriving DecidableEq, Repr

/-- The descriptor of R223, whose header and level entries lie in the record's segment; BOUNDS when it cannot be read or
holds a value R223 rejects.  R223 states no result for a descriptor that is not 64-byte aligned, nor for a map or a ring at
an unaligned address: they are read where they stand (DESIGN CHOICE, log 53). -/
def lodDesc (s : State) (x : Site) (r : BufRec) (e : Int) : Except Trouble LodDesc :=
  let refused := x.trouble .bounds (indexWord e)
  match segmentAddr x r r.base 64, segmentSpots s x r r.base 64 with
  | .error t, _ => .error t
  | .ok _, none => .error refused
  | .ok _, some hs =>
    let h := spotsNat s x hs
    let coarsest := bitField h 16 4
    if bitField h 20 12 ≠ 0 || bitField h 112 16 ≠ 0 || bitField h 176 336 ≠ 0 ||
      bitField h 32 16 = 0 || bitField h 48 16 = 0 then .error refused
    else match segmentAddr x r r.base (64 + 16 * (coarsest + 1)),
        segmentSpots s x r (r.base + 64) (16 * (coarsest + 1)) with
      | .error t, _ => .error t
      | .ok _, none => .error refused
      | .ok _, some ls =>
        let es := (List.range (coarsest + 1)).map fun l => spotsNat s x ((ls.drop (16 * l)).take 16)
        if es.any fun e => bitField e 48 16 ≠ 0 || bitField e 96 32 ≠ 0 then .error refused
        else .ok ⟨bitField h 0 16, coarsest, bitField h 32 16, bitField h 48 16, bitField h 64 48,
          bitField h 128 48, es.map fun e => (bitField e 0 48, bitField e 64 32), hs ++ ls⟩

/-- The bytes of the descriptor that can be read, whatever they hold. -/
def descSpots (s : State) (x : Site) (r : BufRec) : List Spot :=
  match segmentAddr x r r.base 64, segmentSpots s x r r.base 64 with
  | .ok _, some hs =>
    hs ++ (segmentSpots s x r (r.base + 64) (16 * (bitField (spotsNat s x hs) 16 4 + 1))).getD []
  | _, _ => []

def LodDesc.w (d : LodDesc) (l : Nat) : Nat := max 1 (d.width / 2 ^ l)
def LodDesc.h (d : LodDesc) (l : Nat) : Nat := max 1 (d.height / 2 ^ l)
def LodDesc.level (d : LodDesc) (l : Nat) : Nat × Nat := d.levels.getD l (0, 0)

/-- Segment offset and page of element (px, py) of level l (R224). -/
def LodDesc.offset (d : LodDesc) (stride l px py : Nat) : Nat := (d.level l).1 + (py * d.w l + px) * stride
def LodDesc.page (d : LodDesc) (stride l px py : Nat) : Nat :=
  d.offset stride l px py / 65536 - (d.level l).1 / 65536

/-- Whether a bit of the residency map lies in a discarded page. -/
def mapDiscarded (s : State) (k : Nat) (d : LodDesc) (i : Nat) : Bool :=
  match translate s k (d.map_ + i / 8) .read with
  | .ok _ discarded => discarded
  | _ => false

/-- A bit of the residency map through the die's map cache (R224, R226); a discarded page reads zero (R220).  The rules give
no bit where the page of the map does not translate for reading: it reads as 0 there, not resident (DESIGN CHOICE, log 26). -/
def mapBit (s : State) (k : Nat) (d : LodDesc) (i : Nat) : Bool :=
  match translate s k (d.map_ + i / 8) .read with
  | .ok a false => ((Memory.read (getDie s (dieOf k)).mapCache a).getD (homeByte s (dieOf k) a)).getLsbD (i % 8)
  | _ => false

/-- A consulted map byte stays in the map cache (R226). -/
def fillMap (s : State) (k : Nat) (d : LodDesc) (i : Nat) : State :=
  match translate s k (d.map_ + i / 8) .read with
  | .ok a false =>
    let b := (Memory.read (getDie s (dieOf k)).mapCache a).getD (homeByte s (dieOf k) a)
    updDie s (dieOf k) fun x => { x with mapCache := Memory.write x.mapCache a b }
  | _ => s

/-- The map bit of an element's page. -/
def LodDesc.bit (d : LodDesc) (stride l px py : Nat) : Nat := (d.level l).2 + d.page stride l px py

/-- Whether the page of an element is resident, and every byte of the element is readable (R225): a split element that
runs into a page that is absent, protected or discarded is not served (R115). -/
def lodServed (s : State) (x : Site) (r : BufRec) (d : LodDesc) (width l px py : Nat) : Bool :=
  mapBit s x.core d (d.bit r.stride l px py) &&
  match segmentSpots s x r (d.offset r.stride l px py) width with
  | some ps => ps.all fun p => !p.discarded
  | none => false

/-- The loop of R225, over at most `n` further levels: the served level and position. -/
def lodFind (s : State) (x : Site) (r : BufRec) (d : LodDesc) (width : Nat) :
    Nat → Nat → Nat → Nat → Option (Nat × Nat × Nat)
  | n, l, px, py =>
    if lodServed s x r d width l px py then some (l, px, py)
    else match n with
      | 0 => none
      | n + 1 =>
        if l = d.coarsest then none
        else lodFind s x r d width n (l + 1) (min (px / 2) (d.w (l + 1) - 1)) (min (py / 2) (d.h (l + 1) - 1))

/-- The map bits that the loop consults. -/
def lodBits (s : State) (x : Site) (r : BufRec) (d : LodDesc) (width : Nat) : Nat → Nat → Nat → Nat → List Nat
  | n, l, px, py => d.bit r.stride l px py :: if lodServed s x r d width l px py then []
    else match n with
      | 0 => []
      | n + 1 =>
        if l = d.coarsest then []
        else lodBits s x r d width n (l + 1) (min (px / 2) (d.w (l + 1) - 1)) (min (py / 2) (d.h (l + 1) - 1))

/-- What a sampled load through a level-of-detail record finds: the status word of R115, the bytes served,
the feedback entry with its ring, and the map bits it consulted. -/
structure LodHit where
  rec_     : BufRec
  status   : Word
  spots    : List Spot
  feedback : Option (Nat × Wide)
  desc     : LodDesc
  bits     : List Nat

def lodStatus (code served wanted : Nat) : Word := BitVec.ofNat 32 (code + 16 * served + 256 * wanted)

/-- The level-of-detail access of R115 and R225 for element `e` of level `w`. -/
def lodAccess (x : Site) (n : Nat) (e : Int) (w width : Nat) : Except Trouble LodHit :=
  let s := x.before
  match checkRecord x n e ⟨.read, true, true, true⟩ with
  | .error t => .error t
  | .ok r => match lodDesc s x r e with
      | .error t => .error t
      | .ok d =>
        let l := min w d.coarsest
        if e < 0 || (d.w l * d.h l : Int) ≤ e then .error (x.trouble .bounds (indexWord e))
        else
          let px := e.toNat % d.w l
          let py := e.toNat / d.w l
          match segmentAddr x r (d.offset r.stride l px py) width with
          | .error t => .error t
          | .ok addr =>
            let use : Use := ⟨.read, true, true, true⟩
            if addr % width ≠ 0 && !x.th.split then
              .error { x.trouble .misaligned (BitVec.ofNat 32 addr) with split := supervised s }
            else
              let page := d.page r.stride l px py
              let entry : Wide := BitVec.ofNat 64 (d.id + 2 ^ 16 * w + 2 ^ 24 * page)
              let bits := lodBits s x r d width 16 l px py
              match lodFind s x r d width 16 l px py with
              | none => .ok ⟨r, lodStatus 2 15 w, [], some (d.ring, entry), d, bits⟩
              | some (f, qx, qy) => match segmentAddr x r (d.offset r.stride f qx qy) width with
                | .error t => .error t
                | .ok addr => match placeBytes s x r addr width use with
                  | .error t => .error t
                  | .ok ps =>
                    if f ≠ l then .ok ⟨r, lodStatus 1 f w, ps, some (d.ring, entry), d, bits⟩
                    else .ok ⟨r, lodStatus (if d.coarsest < w then 3 else 0) f w, ps, none, d, bits⟩

/-- The header of a feedback ring (R227). -/
structure RingHead where
  capacity : Nat
  writeIdx : Nat
  readIdx  : Nat
  drops    : Nat
  deriving DecidableEq, Repr

def ringHead (s : State) (ring : Nat) : Option RingHead :=
  (hRead s ring 16).map fun h =>
    ⟨ofBytes (h.take 4), ofBytes ((h.drop 4).take 4), ofBytes ((h.drop 8).take 4), ofBytes ((h.drop 12).take 4)⟩

/-- Whether an append finds no room, or a capacity that is not legal (R227). -/
def RingHead.full (h : RingHead) : Bool :=
  let legal := 16 ≤ h.capacity && h.capacity ≤ 2 ^ 24 && 2 ^ Nat.log2 h.capacity = h.capacity
  !legal || h.capacity ≤ (h.writeIdx + 2 ^ 32 - h.readIdx) % 2 ^ 32

/-- Where the next entry of a ring stands. -/
def RingHead.entryAt (h : RingHead) (ring : Nat) : Nat := ring + 64 + 8 * (h.writeIdx % h.capacity)

/-- Appends an entry to a feedback ring at the home slice, with a system-scope release (R227).  The rules give no result
where the ring's header does not translate for reading: nothing is appended then, and nothing counted (DESIGN CHOICE,
log 53). -/
def feedbackAppend (s : State) (ring : Nat) (entry : Wide) : State :=
  match ringHead s ring with
  | none => s
  | some h =>
    if h.full then hWrite s (ring + 12) (toBytes (BitVec.ofNat 32 (h.drops + 1)) 4)
    else
      let s := hWrite s (h.entryAt ring) (toBytes entry 8)
      hWrite s (ring + 4) (toBytes (BitVec.ofNat 32 (h.writeIdx + 1)) 4)

/-- The feedback of one thread: equal entries of one issue group are merged (R116), so only the first thread
of the issue group that has the entry appends it. -/
def appendFeedback (s : State) (x : Site) (i : Instr) (fb : Option (Nat × Wide))
    (of : Site → Option (Nat × Wide)) : State :=
  match fb with
  | none => s
  | some (ring, entry) =>
    let before := (x.mates i).takeWhile fun y => y.t ≠ x.t
    if before.any fun y => of y = fb then s else feedbackAppend s ring entry

/-! ## Sampled loads (R114, R115) -/

/-- A sampled load through a record whose `lod` flag is 0 (R115): the element as `ldro` reads it. -/
def plainSample (x : Site) (buf : BitVec 5) (e : Int) (t : Nat) : Except Trouble (BufRec × List Spot) :=
  elementAccess x.before x buf.toNat e (typeWidth t) ⟨.read, true, true, true⟩

def lodFlag (x : Site) (buf : BitVec 5) : Bool := (bufRec (x.record buf.toNat)).lod

def lodFeedback (x : Site) (n : Nat) (e : Int) (w width : Nat) : Option (Nat × Wide) :=
  match lodAccess x n e w width with
  | .ok h => h.feedback
  | .error _ => none

/-- The fault of a level-of-detail access; a read of a discarded page of its descriptor sets `discarded_read` all the same
(R108, R220). -/
def lodFault (s : State) (i : Instr) (x : Site) (buf : BitVec 5) (tr : Trouble) : Except Trouble State :=
  if (descSpots x.before x (bufRec (x.record buf.toNat))).any Spot.discarded then
    .ok (faultWord (setMemStatus s x.t 1) i x tr)
  else .error tr

/-- The sampled load itself: `e` and `w` are the element and the wanted level of a thread, `kind` the
destination given the status word. -/
def sampleBody (i : Instr) (buf : BitVec 5) (t : Nat) (pol : BitVec 2) (e : Site → Int) (w : Site → Nat)
    (kind : Word → LoadKind) : Body := fun s x =>
  if lodFlag x buf then
    match lodAccess x buf.toNat (e x) (w x) (typeWidth t) with
    | .error tr => lodFault s i x buf tr
    | .ok h =>
      let s := if h.bits.any (mapDiscarded x.before x.core h.desc) then setMemStatus s x.t 1 else s
      let s := h.bits.foldl (fun s i => fillMap s x.core h.desc i) s
      let s := appendFeedback s x i h.feedback fun y => lodFeedback y buf.toNat (e y) (w y) (typeWidth t)
      let s := startLoad s x.before x .s (kind h.status) (byteMarks x.before x .s (h.desc.spots ++ h.spots)) h.desc.spots h.spots
      .ok (fillLines s x .s (placing pol h.rec_)
        (servedLines x i fun y => (lodAccess y buf.toNat (e y) (w y) (typeWidth t)).map LodHit.spots) h.spots)
  else match plainSample x buf (e x) t with
    | .error tr => .error tr
    | .ok (r, ps) =>
      let s := startLoad s x.before x .s (kind (lodStatus (if w x = 0 then 0 else 3) 0 (w x)))
        (loadMarks x.before x .s ps (typeWidth t)) [] ps
      .ok (fillLines s x .s (placing pol r)
        (servedLines x i fun y => (plainSample y buf (e y) t).map Prod.snd) ps)

/-- Whether a level-of-detail access must wait: its descriptor, its map, its element or its feedback ring is on the move
(R214, R317), or its bytes wait for a reduction of the thread (R236). -/
def lodHeld (x : Site) (r : BufRec) : Except Trouble LodHit → Bool
  | .error _ => spotsHeld x (descSpots x.before x r)
  | .ok h => spotsHeld x (h.desc.spots ++ h.spots) || (h.bits.any fun i => onTheMove x.before (h.desc.map_ + i / 8)) ||
      h.feedback.any fun f => onTheMove x.before f.1 ||
        (ringHead x.before f.1).any fun r => onTheMove x.before (r.entryAt f.1)

def sampleHeld (buf : BitVec 5) (t : Nat) (e : Site → Int) (w : Site → Nat) (x : Site) : Bool :=
  if lodFlag x buf then
    lodHeld x (bufRec (x.record buf.toNat)) (lodAccess x buf.toNat (e x) (w x) (typeWidth t))
  else match plainSample x buf (e x) t with
    | .ok (_, ps) => spotsHeld x ps
    | .error _ => false

/-- SMP (R114): a sampled load at level 0, which writes no status. -/
def execSmp (w : MemWord ModMM) (s : State) : Out :=
  let t := w.m.type.toNat
  let e := fun x : Site => x.element w.a w.off.toInt
  issueHeld s (.smp w) (sampleHeld w.buf t e fun _ => 0)
    (sampleBody (.smp w) w.buf t w.m.pol e (fun _ => 0) fun _ => .plain w.d t)

/-- The wanted level: v(a + 1)[3:0] (R115). -/
def Site.wantedLevel (x : Site) (a : Operand) : Nat := ((x.run 2 a).getD 1 0).toNat % 16

/-- The element index of an even v pair: v(a) plus the offset (R115). -/
def Site.pairElement (x : Site) (a : Operand) (off : Int) : Int := ((x.run 2 a).getD 0 0).toInt + off

/-- SMPL (R115): a sampled load with a wanted level and a status word. -/
def execSmpl (w : MemWord ModMM) (s : State) : Out :=
  let t := w.m.type.toNat
  let e := fun x : Site => x.pairElement w.a w.off.toInt
  let l := fun x : Site => x.wantedLevel w.a
  issueHeld s (.smpl w) (sampleHeld w.buf t e l)
    (sampleBody (.smpl w) w.buf t w.m.pol e l fun st => .sampled w.d t st)

/-! ## Hints (R118, R119) -/

/-- A hint is dropped and counted (R118, event 23 of R363). -/
def dropHint (s : State) (x : Site) : State :=
  bump (updCore s x.core fun c => { c with hintDrops := c.hintDrops + 1 }) x.core 23 (some x.g.stage) 1

/-- A hint raises no fault but POISON of a register (R118). -/
def hintFault (s : State) (x : Site) (t : Trouble) : Except Trouble State :=
  if t.code = .poison then .error t else .ok (dropHint s x)

/-- The bytes whose line `pref` brings in (R118): those of the addressed element, of level 0 for a level-of-detail
record; when that page is absent the hint is dropped. -/
def prefSpots (w : MemWord ModMM) (x : Site) : Except Trouble (List Spot) :=
  let e := x.element w.a w.off.toInt
  let width := typeWidth w.m.type.toNat
  if lodFlag x w.buf then
    (lodAccess x w.buf.toNat e 0 width).bind fun h =>
      if h.feedback.isSome then .error (x.trouble .pageAbsent 0) else .ok h.spots
  else (elementAccess x.before x w.buf.toNat e width ⟨.read, true, false, true⟩).map Prod.snd

/-- `pref` (R118): fills the line of the element; `.nt` fills the stack cache only. -/
def prefBody (w : MemWord ModMM) : Body := fun s x =>
  match prefSpots w x with
  | .error t => hintFault s x t
  | .ok ps =>
    if ps.any Spot.discarded then .ok (dropHint s x)
    else if w.m.pol = 1 then .ok ((spotLines ps).foldl (fun s l => fillSector s x.core l false) s)
    else .ok (fillLines s x .v ⟨w.m.pol = 2, false⟩ (servedLines x (.pref w) (prefSpots w)) ps)

/-- A prefetch waits for a move of its page, or of what it reads to find it (R214, R317). -/
def prefHeld (w : MemWord ModMM) (x : Site) : Bool :=
  if lodFlag x w.buf then
    lodHeld x (bufRec (x.record w.buf.toNat))
      (lodAccess x w.buf.toNat (x.element w.a w.off.toInt) 0 (typeWidth w.m.type.toNat))
  else match prefSpots w x with
    | .ok ps => spotsHeld x ps
    | .error _ => false

/-- PREF (R118). -/
def execPref (w : MemWord ModMM) (s : State) : Out := issueHeld s (.pref w) (prefHeld w) (prefBody w)

/-- The level `resh` names: v(a + 1)[3:0]; where a is no v register with a successor in the allocation the
rules state no level, and it is a free value (log 2). -/
def reshLevel (s : State) (x : Site) (a : Operand) : Nat :=
  match a with
  | .v i => if i.val + 1 < x.pass.regs then (x.reg (.v (i.val + 1))).toNat % 16
    else (Config.freeValue s.freeCount).toNat % 16
  | _ => (Config.freeValue s.freeCount).toNat % 16

/-- The feedback entry of `resh`: the page of the element at its level, when that page is absent. -/
def reshFeedback (x : Site) (w : MemWord ModMM) : Except Trouble (Option (Nat × Wide)) :=
  let e := x.element w.a w.off.toInt
  let l := reshLevel x.before x w.a
  (lodAccess x w.buf.toNat e l (typeWidth w.m.type.toNat)).map fun h => h.feedback

/-- `resh` through a record that is not level-of-detail (R118): `pol` 2 asks the stack cache to keep the 1 KiB line of the
element, `pol` 1 to give it up first. -/
def reshAsk (s : State) (k : Nat) (pol : BitVec 2) (ps : List Spot) : State :=
  match ps with
  | ⟨.mem a, _, _⟩ :: _ =>
    if pol = 2 then askLine s (dieOf k) a true else if pol = 1 then askLine s (dieOf k) a false else s
  | _ => s

/-- `resh` (R118): on a level-of-detail record it asks for the page of a level; otherwise it acts on the
stack cache.  R118 both appends an entry for a page that is absent and drops a hint whose page is absent, protected or
discarded: through a level-of-detail record the entry is appended and no drop counted (DESIGN CHOICE, log 26). -/
def reshBody (i : Instr) (w : MemWord ModMM) : Body := fun s x =>
  let s := { s with freeCount := s.freeCount + 1 }
  if lodFlag x w.buf then
    match reshFeedback x w with
    | .error t => hintFault s x t
    | .ok fb => .ok (appendFeedback s x i fb fun y => match reshFeedback y w with
      | .ok f => f
      | .error _ => none)
  else
    match elementAccess x.before x w.buf.toNat (x.element w.a w.off.toInt) (typeWidth w.m.type.toNat) ⟨.read, true, false, true⟩ with
    | .error t => hintFault s x t
    | .ok (_, ps) => if ps.any Spot.discarded then .ok (dropHint s x) else .ok (reshAsk s x.core w.m.pol ps)

/-- `resh` waits while its level register, v(a + 1), has not arrived (R37), and for a move of what it reads (R317). -/
def reshHeld (w : MemWord ModMM) (x : Site) : Bool :=
  let level : Bool := match w.a with
    | .v i => lodFlag x w.buf && i.val + 1 < x.pass.regs && !regReady x.g x.th (.v (i.val + 1))
    | _ => false
  level || (lodFlag x w.buf && lodHeld x (bufRec (x.record w.buf.toNat))
    (lodAccess x w.buf.toNat (x.element w.a w.off.toInt) (reshLevel x.before x w.a) (typeWidth w.m.type.toNat)))

/-- RESH (R118). -/
def execResh (w : MemWord ModMM) (s : State) : Out := issueHeld s (.resh w) (reshHeld w) (reshBody (.resh w) w)

end Sys2Proof.Machine
end

