-- ==== Sys2Proof/Machine/CrossLane.lean ====
section
/-!
DEFINITION. Cross-lane instructions (R145-R147), control transfer (R70-R77), system access (R148-R151), traps
(R152, R153) and the privileged instructions at execution (R154-R157).
-/

namespace Sys2Proof.Machine

/-! ## Cross-lane results (R146) -/

/-- The members of the issue group in the row of `m`, in ascending lane order. -/
def rowMembers (ms : List Member) (m : Member) : List Member :=
  (List.range 128).filterMap fun l => ms.find? fun n => n.sameRow m && n.site.t.lane = l

/-- The participants in the effective mask of `m`, in ascending lane order. -/
def participants (ms : List Member) (m : Member) : List Member :=
  (rowMembers ms m).filter fun n => n.on && m.mask.getLsbD n.site.t.lane

/-- The source lane of a shuffle; none when it is no lane of the mask. -/
def shuffleSource (m : Member) (src : Int) : Option Nat :=
  if 0 ≤ src && src ≤ 127 && m.mask.getLsbD src.toNat then some src.toNat else none

def memberAt (ms : List Member) (m : Member) (lane : Nat) : Option Member :=
  ms.find? fun n => n.sameRow m && n.site.t.lane = lane

/-- The value a shuffle gives `m` from the lane `src`: operand a of the thread there, or its own (R146). -/
def shuffleValue (ms : List Member) (m : Member) (w : OpWord ModXL) (src : Int) : List RegWrite × Wide :=
  let from_ := ((shuffleSource m src).bind (memberAt ms m)).getD m
  destWrites w.m.w (from_.site.read w.m.w w.a) w.d

/-- POISON for a participant that receives a poisoned register of a disabled thread (R143). -/
def shufflePoison (ms : List Member) (m : Member) (w : OpWord ModXL) (src : Int) : Option Trouble :=
  match (shuffleSource m src).bind (memberAt ms m) with
  | none => none
  | some n =>
    if n.on then none
    else
      let regs := namedRegs ⟨.src w.m.w, w.a.code⟩
      (regs.find? fun r => regPoisoned n.site.g n.site.th r).map n.site.poisonedReg

def shuffleB (m : Member) (w : OpWord ModXL) : Nat := (m.site.read32 w.b).toNat

/-- Source lanes of the shuffles (R146). -/
def shfiSource (m : Member) (w : OpWord ModXL) : Int := (shuffleB m w % 128 : Nat)
def shfxSource (m : Member) (w : OpWord ModXL) : Int := (Nat.xor m.site.t.lane (shuffleB m w % 128) : Nat)
def shfuSource (m : Member) (w : OpWord ModXL) : Int := (m.site.t.lane : Int) - shuffleB m w
def shfdSource (m : Member) (w : OpWord ModXL) : Int := (m.site.t.lane : Int) + shuffleB m w

/-- The lanes whose condition is not zero, over the participants of the mask (R146). -/
def ballotMask (ms : List Member) (m : Member) (w : OpWord ModXL) : BitVec 128 :=
  (participants ms m).foldl (fun (t : BitVec 128) (n : Member) => if n.site.read false w.a ≠ (0 : Wide) then t ||| (1#128 <<< n.site.t.lane) else t) 0#128

def ballotWrites (x : BitVec 128) (d : Operand) : List RegWrite × Wide :=
  match d with
  | .k _ => kWrites x d
  | d => runWrites [x.extractLsb' 0 32, x.extractLsb' 32 32, x.extractLsb' 64 32, x.extractLsb' 96 32] d

def voteValue (ms : List Member) (m : Member) (w : OpWord ModXL) : Bool :=
  let vs := (participants ms m).map fun n => n.site.read false w.a
  match w.m.op.toNat with
  | 0 => vs.any fun v => v ≠ 0
  | 1 => vs.all fun v => v ≠ 0
  | _ => match vs with
    | [] => true
    | v :: rest => rest.all fun u => u = v

/-- One step of `lred` (R146). -/
def lredStep (m : ModXL) (a b : Wide) : Wide :=
  match m.op.toNat with
  | 0 => lowBits m.w (numOf m.w false a + numOf m.w false b)
  | 1 => if numOf m.w m.sgn b < numOf m.w m.sgn a then b else a
  | 2 => if numOf m.w m.sgn a < numOf m.w m.sgn b then b else a
  | 3 => a &&& b
  | 4 => a ||| b
  | 5 => a ^^^ b
  | _ => BitVec.ofNat 64 (packVal 0 0 (addVal 0 (unpack 0 a.toNat) (unpack 0 b.toNat)))

def lredValue (ms : List Member) (m : Member) (w : OpWord ModXL) : Wide :=
  match (participants ms m).map fun n => n.site.read w.m.w w.a with
  | [] => 0
  | v :: rest => rest.foldl (lredStep w.m) v

def noOwnFault (_ : List Member) (_ : Member) : Option Trouble := none

/-- SHFI (R146). -/
def execShfi (w : OpWord ModXL) (s : State) : Out :=
  issueGather s (.shfi w) (fun ms m => shufflePoison ms m w (shfiSource m w))
    (fun ms m => shuffleValue ms m w (shfiSource m w))

/-- SHFX (R146). -/
def execShfx (w : OpWord ModXL) (s : State) : Out :=
  issueGather s (.shfx w) (fun ms m => shufflePoison ms m w (shfxSource m w))
    (fun ms m => shuffleValue ms m w (shfxSource m w))

/-- SHFU (R146). -/
def execShfu (w : OpWord ModXL) (s : State) : Out :=
  issueGather s (.shfu w) (fun ms m => shufflePoison ms m w (shfuSource m w))
    (fun ms m => shuffleValue ms m w (shfuSource m w))

/-- SHFD (R146). -/
def execShfd (w : OpWord ModXL) (s : State) : Out :=
  issueGather s (.shfd w) (fun ms m => shufflePoison ms m w (shfdSource m w))
    (fun ms m => shuffleValue ms m w (shfdSource m w))

/-- BALLOT (R146). -/
def execBallot (w : OpWord ModXL) (s : State) : Out :=
  issueGather s (.ballot w) noOwnFault fun ms m => ballotWrites (ballotMask ms m w) w.d

/-- VOTE (R146). -/
def execVote (w : OpWord ModXL) (s : State) : Out :=
  issueGather s (.vote w) noOwnFault fun ms m => destBool (voteValue ms m w) w.d

/-- ELECT (R146): 1 for the lowest participant of the mask. -/
def execElect (w : OpWord ModXL) (s : State) : Out :=
  issueGather s (.elect w) noOwnFault fun ms m =>
    destBool (((participants ms m).head?.map fun n => n.site.t) = some m.site.t) w.d

/-- LRED (R146): reduces over the participants of the mask in ascending lane order. -/
def execLred (w : OpWord ModXL) (s : State) : Out :=
  issueGather s (.lred w) noOwnFault fun ms m => destWrites w.m.w (lredValue ms m w) w.d

/-! ## Control transfer (R70-R77) -/

/-- The code address directly after the transfer's words (R71). -/
def Site.returnAddress (x : Site) : Word := x.pc + (if x.lit.isSome then 16 else 8)

/-- How the thread's segment ends, decided at execution and taken at commit (R74, R77). -/
def setEnding (s : State) (x : Site) (e : Ending) : State :=
  updThread s x.t fun th => { th with seg := { th.seg with ending := some e } }

/-- The fault of a transfer target that fails R73. -/
def targetTrouble (x : Site) (target : Word) (code : Nat) : Trouble :=
  if code = 0x11 then x.trouble .segmentLimit 8 else x.trouble .clauseFormat target

/-- A transfer to a target that passes R73. -/
def transferTo (target : Word) (also : State → State) : Body := fun s x =>
  match targetFault s x.core x.g x.pass target.toNat with
  | some c => .error (targetTrouble x target c)
  | none => .ok (setEnding (also s) x (.go target target))

/-- The return address written by `call` and `calli` (R71). -/
def linkTo (x : Site) (d : Operand) (s : State) : State :=
  finish s x (destWrites false (x.returnAddress.setWidth 64) d)

/-- BR (R70): the literal is the continuation. -/
def execBr (w : OpWord ModZ) (s : State) : Out :=
  issueWord s (.br w) fun s x => transferTo (x.read32 w.a) id s x

/-- CALL (R70, R71). -/
def execCall (w : OpWord ModZ) (s : State) : Out :=
  issueWord s (.call w) fun s x => transferTo (x.read32 w.a) (linkTo x w.d) s x

/-- RET (R70): operand a is the continuation. -/
def execRet (w : OpWord ModZ) (s : State) : Out :=
  issueWord s (.ret w) fun s x => transferTo (x.read32 w.a) id s x

/-- JMPI (R70): operand a is the continuation. -/
def execJmpi (w : OpWord ModZ) (s : State) : Out :=
  issueWord s (.jmpi w) fun s x => transferTo (x.read32 w.a) id s x

/-- CALLI (R70, R71): operand a is read before d is written. -/
def execCalli (w : OpWord ModZ) (s : State) : Out :=
  issueWord s (.calli w) fun s x => transferTo (x.read32 w.a) (linkTo x w.d) s x

/-- EXIT (R75): the thread ends when its segment commits. -/
def execExit (w : OpWord ModZ) (s : State) : Out :=
  issueWord s (.exit w) fun s x => .ok (setEnding s x .exit)

/-- TRAP (R152): delivered after the segment commits. -/
def execTrap (w : OpWord ModZ) (s : State) : Out :=
  issueWord s (.trap w) fun s x => .ok (setEnding s x (.trap false x.returnAddress (x.read32 w.a)))

/-- BRK (R152). -/
def execBrk (w : OpWord ModZ) (s : State) : Out :=
  issueWord s (.brk w) fun s x => .ok (setEnding s x (.trap true x.returnAddress (x.read32 w.a)))

/-- TRAPRET (R153): the thread resumes at its fault registers' pc and hdr when its segment commits. -/
def execTrapret (w : OpWord ModZ) (s : State) : Out :=
  issueWord s (.trapret w) fun s x => .ok (setEnding s x (.trapret x.pc))

/-! ## System registers (R6, R108, R119, R148-R151, R362) -/

/-- The value a write leaves in a system register, field by field (R6). -/
def sysStore (n : Nat) (old new : Word) : Word :=
  if n = 0x001 then old &&& ~~~new
  else if n = 0x008 then new &&& 0x1FF
  else if 0x009 ≤ n && n ≤ 0x00C then new
  else if n = 0x020 then new
  else if 0x030 ≤ n && n < 0x040 then new &&& 0x3FFFF
  else old

/-- A system register's value before the thread's own held writes. -/
def sysCommitted (x : Site) (n : Nat) : Word :=
  match n with
  | 0x000 => (if x.pass.privileged then 1 else 0) ||| (if x.th.inHandler then 2 else 0)
  | 0x001 => x.th.memStatus
  | 0x008 => x.th.faultInfo
  | 0x009 => x.th.faultPc
  | 0x00A => x.th.faultHdr
  | 0x00B => x.th.data0
  | 0x00C => x.th.data1
  | 0x020 => (getCore x.before x.core).hintDrops
  | n => if 0x030 ≤ n && n < 0x040 then (getCore x.before x.core).cntCfg.getD (n - 0x030) 0 else 0

/-- The thread's held writes to a system register, oldest first. -/
def Segment.sysWrites (seg : Segment) (n : Nat) : List Word :=
  (seg.results.reverse.flatMap fun r => r.writes).filterMap fun w => match w with
    | .sys m v => if m = n then some v else none
    | _ => none

/-- A system register as `sysrd` reads it: its own held writes included (R151). -/
def sysValue (x : Site) (n : Nat) : Word := (x.th.seg.sysWrites n).foldl (sysStore n) (sysCommitted x n)

/-- SYSRD (R151). -/
def execSysrd (w : RawAWord ModZ) (s : State) : Out :=
  issueWord s (.sysrd w) (pureBody fun x => destWrites false ((sysValue x w.a.toNat).setWidth 64) w.d)

/-- A write of a system register, applied at commit; it is not result-writing (R37, R151). -/
def sysWriteBody (n : BitVec 10) (a : Operand) : Body := fun s x =>
  .ok (addResult s x.t ⟨0, false, true, [.sys n.toNat (x.read32 a)], 0⟩)

/-- SYSWR (R151). -/
def execSyswr (w : RawDWord ModZ) (s : State) : Out := issueWord s (.syswr w) (sysWriteBody w.d w.a)

/-- `syswr` of `sys.mem_status`: each bit written as 1 is cleared at commit (R108). -/
def execMemStatusClear (w : RawDWord ModZ) (s : State) : Out := issueWord s (.memStatusClear w) (sysWriteBody w.d w.a)

/-- `syswr` of `sys.cnt_cfg0`-`sys.cnt_cfg15`: it also clears the counter at commit (R362). -/
def execCntCfgWrite (w : RawDWord ModZ) (s : State) : Out := issueWord s (.cntCfgWrite w) (sysWriteBody w.d w.a)

/-- CNTRD (R151): a counter sampled at execution. -/
def execCntrd (w : OpWord ModZ) (s : State) : Out :=
  issueWord s (.cntrd w) (pureBody fun x =>
    destWrites true ((getCore x.before x.core).counters.getD ((x.read32 w.a).toNat % 16) 0) w.d)

/-- CLKRD (R151): the global time or the core cycle counter, one sample. -/
def execClkrd (w : OpWord ModZ) (s : State) : Out :=
  issueWord s (.clkrd w) (pureBody fun x =>
    destWrites true (if (x.read32 w.a).getLsbD 0 then (getCore x.before x.core).cycles else x.before.time) w.d)

/-! ## Privileged instructions (R154-R157) -/

/-- The effect an instruction issues at commit (R39, R194). -/
def setEffect (s : State) (x : Site) (e : Effect) : State :=
  updThread s x.t fun th => { th with seg := { th.seg with effect := some e } }

/-- The number of a token scalar. -/
def tokenOf : Operand → Nat
  | .s i => i.val
  | _ => 0

/-- SEGSET (R155): g[n] is written at commit; a value with a reserved field takes SEGMENT_LIMIT. -/
def execSegset (w : RawDWord ModZ) (s : State) : Out :=
  issueWord s (.segset w) fun s x =>
    let g := quad (x.run 4 w.a)
    if segValid g then .ok (setEffect s x (.segset w.d.toNat g))
    else .error (x.trouble .segmentLimit (BitVec.ofNat 32 w.d.toNat))

/-- BANKSW (R156): asks for a bank's new role after commit. -/
def execBanksw (w : OpWord ModZ) (s : State) : Out :=
  issueWord s (.banksw w) fun s x => .ok (setEffect s x (.banksw x.t.row (tokenOf w.d) (x.read32 w.a)))

/-- HALT (R157): parks the thread after commit. -/
def execHalt (w : OpWord ModZ) (s : State) : Out := issueWord s (.halt w) fun s x => .ok (setEffect s x .halt)

end Sys2Proof.Machine
end

