-- ==== Sys2Proof/Machine/Effects.lean ====
section
/-!
DEFINITION. The class-1 effect instructions at execution: atomics, reductions, waits, fences, copies, the
scratchpad write fence, hardware queues and tier moves (R120-R138).  Each makes its checks and holds its effect
until its segment commits (R39, R194).
-/

namespace Sys2Proof.Machine

/-! ## Atomics and reductions (R120-R123) -/

def atomicUse : Use := ⟨.atomic, false, false, false⟩

def atomicAccess (x : Site) (w : MemWord ModAT) : Except Trouble (BufRec × List Spot) :=
  elementAccess x.before x w.buf.toNat (x.element w.a w.off.toInt) (typeWidth w.m.type.toNat) atomicUse

/-- The effect of an access that passes its checks: `f` gets the place and the address of its first byte. -/
def accessEffect (acc : Except Trouble (BufRec × List Spot)) (f : Loc → Nat → Effect) : Body := fun s x =>
  match acc with
  | .error t => .error t
  | .ok (_, ps) => match ps with
    | [] => .ok s
    | p :: _ =>
      let s := if p.discarded then setMemStatus s x.t 1 else s
      .ok (setEffect s x (f p.loc p.va))

/-- An atomic that reads its data from d (R120). -/
def atomicBody (op : AtomicOp) (w : MemWord ModAT) : Body := fun s x =>
  accessEffect (atomicAccess x w) (fun loc va =>
    .atomic op w.m.type.toNat w.m.scope.toNat w.m.ord.toNat loc va (x.read (wideType w.m.type) w.d) 0 w.d
      x.before.serial x.pc x.hdr) s x

/-- `acas` (R120): the compare value, then the new value, from d onward. -/
def casBody (w : MemWord ModAT) : Body := fun s x =>
  let pair := x.read true w.d
  let four := x.run 4 w.d
  let cmp : Wide := if wideType w.m.type then four.getD 1 0 ++ four.getD 0 0 else narrow pair
  let new : Wide := if wideType w.m.type then four.getD 3 0 ++ four.getD 2 0 else pair >>> 32
  accessEffect (atomicAccess x w) (fun loc va =>
    .atomic .cas w.m.type.toNat w.m.scope.toNat w.m.ord.toNat loc va cmp new w.d x.before.serial x.pc x.hdr) s x

/-- A reduction (R120): reads its data from any source and returns nothing. -/
def reductionBody (op : AtomicOp) (w : MemWord ModAT) : Body := fun s x =>
  accessEffect (atomicAccess x w) (fun loc va =>
    .reduction op w.m.type.toNat w.m.scope.toNat w.m.ord.toNat loc va (x.read (wideType w.m.type) w.d)
      x.before.serial) s x

/-- AADD (R120): the data is d, which receives the old value. -/
def execAadd (w : MemWord ModAT) (s : State) : Out := issueHeld s (.aadd w) (accessHeld fun x => atomicAccess x w) (atomicBody .add w)

/-- AMIN (R120): the data is d, which receives the old value. -/
def execAmin (w : MemWord ModAT) (s : State) : Out := issueHeld s (.amin w) (accessHeld fun x => atomicAccess x w) (atomicBody .min w)

/-- AMAX (R120): the data is d, which receives the old value. -/
def execAmax (w : MemWord ModAT) (s : State) : Out := issueHeld s (.amax w) (accessHeld fun x => atomicAccess x w) (atomicBody .max w)

/-- AAND (R120): the data is d, which receives the old value. -/
def execAand (w : MemWord ModAT) (s : State) : Out := issueHeld s (.aand w) (accessHeld fun x => atomicAccess x w) (atomicBody .and w)

/-- AOR (R120): the data is d, which receives the old value. -/
def execAor (w : MemWord ModAT) (s : State) : Out := issueHeld s (.aor w) (accessHeld fun x => atomicAccess x w) (atomicBody .or w)

/-- AXOR (R120): the data is d, which receives the old value. -/
def execAxor (w : MemWord ModAT) (s : State) : Out := issueHeld s (.axor w) (accessHeld fun x => atomicAccess x w) (atomicBody .xor w)

/-- AXCHG (R120): the data is d, which receives the old value. -/
def execAxchg (w : MemWord ModAT) (s : State) : Out := issueHeld s (.axchg w) (accessHeld fun x => atomicAccess x w) (atomicBody .xchg w)

/-- ACAS (R120): compare and swap. -/
def execAcas (w : MemWord ModAT) (s : State) : Out := issueHeld s (.acas w) (accessHeld fun x => atomicAccess x w) (casBody w)

/-- REDADD (R120). -/
def execRedadd (w : MemWord ModAT) (s : State) : Out := issueHeld s (.redadd w) (accessHeld fun x => atomicAccess x w) (reductionBody .add w)

/-- REDMIN (R120). -/
def execRedmin (w : MemWord ModAT) (s : State) : Out := issueHeld s (.redmin w) (accessHeld fun x => atomicAccess x w) (reductionBody .min w)

/-- REDMAX (R120). -/
def execRedmax (w : MemWord ModAT) (s : State) : Out := issueHeld s (.redmax w) (accessHeld fun x => atomicAccess x w) (reductionBody .max w)

/-- REDAND (R120). -/
def execRedand (w : MemWord ModAT) (s : State) : Out := issueHeld s (.redand w) (accessHeld fun x => atomicAccess x w) (reductionBody .and w)

/-- REDOR (R120). -/
def execRedor (w : MemWord ModAT) (s : State) : Out := issueHeld s (.redor w) (accessHeld fun x => atomicAccess x w) (reductionBody .or w)

/-- REDXOR (R120). -/
def execRedxor (w : MemWord ModAT) (s : State) : Out := issueHeld s (.redxor w) (accessHeld fun x => atomicAccess x w) (reductionBody .xor w)

/-! ## Waits and fences (R124-R127) -/

/-- The guard predicate a timeout clears: 1 to 7, else none (R124). -/
def positiveGuard (g : BitVec 4) : Nat := if g.toNat ≤ 7 then g.toNat else 0

def waitBody (m : ModWA) (guard : BitVec 4) (d : Operand) (acc : Site → Except Trouble (BufRec × List Spot))
    (timeout : Site → Option Word) : Body := fun s x =>
  accessEffect (acc x) (fun loc va =>
    .wait m.type.toNat m.cond.toNat loc va (x.read (wideType m.type) d) (timeout x) (positiveGuard guard) 0
      x.pc x.hdr) s x

def waitAccess (x : Site) (m : ModWA) (buf : BitVec 5) (a : Operand) (off : Int) : Except Trouble (BufRec × List Spot) :=
  elementAccess x.before x buf.toNat (x.element a off) (typeWidth m.type.toNat) ⟨.read, false, false, false⟩

/-- WAITA (R124). -/
def execWaita (w : MemWord ModWA) (s : State) : Out :=
  let acc := fun x => waitAccess x w.m w.buf w.a w.off.toInt
  issueHeld s (.waita w) (accessHeld acc) (waitBody w.m w.h.guard w.d acc fun _ => none)

/-- WAITA with a timeout (R124): a 5-bit offset, and the timeout in operand c. -/
def execWaitaTo (w : TimedMemWord ModWA) (s : State) : Out :=
  let acc := fun x => waitAccess x w.m w.buf w.a w.off.toInt
  issueHeld s (.waitaTo w) (accessHeld acc) (waitBody w.m w.h.guard w.d acc fun x => some (x.read32 w.c))

/-- FENCE (R126). -/
def execFence (w : OpWord ModFN) (s : State) : Out :=
  issueWord s (.fence w) fun s x => .ok (setEffect s x (.fence w.m.scope.toNat w.m.ord.toNat))

/-- The path of a code (R55). -/
def pathOf (c : BitVec 3) : Path :=
  match c.toNat with
  | 0 => .v
  | 1 => .a
  | 2 => .m
  | 3 => .s
  | 4 => .g
  | _ => .h

/-- XFENCE (R127). -/
def execXfence (w : OpWord ModXF) (s : State) : Out :=
  issueWord s (.xfence w) fun s x => .ok (setEffect s x (.xfence w.m.scope.toNat (pathOf w.m.src) (pathOf w.m.dst)))

/-! ## Copies (R129) -/

/-- A copy as its operands describe it: row bytes, rows, first source and destination elements. -/
structure CopyShape where
  bytes : Nat
  rows  : Nat
  srcE  : Int
  dstE  : Int
  two   : Bool
  count : Word

def copyShape (x : Site) (two : Bool) (a c : Operand) : CopyShape :=
  let n := x.read32 c
  let pair := x.read true a
  let src := (pair.setWidth 32).toInt
  let dst := (pair.extractLsb' 32 32).toInt
  if two then ⟨(n.extractLsb' 0 16).toNat, (n.extractLsb' 16 16).toNat, src, dst, true, n⟩
  else ⟨n.toNat, 1, src, dst, false, n⟩

/-- The record of one end of a copy: the checks of R107 up to the reserved values, and R129's record kinds. -/
def copyRecord (x : Site) (n : Nat) (e : Int) (isDst : Bool) : Except Trouble BufRec :=
  let b := x.record n
  let r := bufRec b
  if regPoisoned x.g x.th (.b n) then .error (x.poisonedReg (.b n))
  else if r.ring && !inTileTable x.g b then .error (x.trouble .ringViolation (indexWord e))
  else if !recDefined r then .error (x.trouble .bounds (indexWord e))
  else if r.lod then .error (x.trouble .bounds (indexWord e))
  else if isDst && r.ro then
    .error (if r.ring then x.trouble .ringViolation (indexWord e) else roTrouble e .write)
  else .ok r

/-- First byte of each row of an end, measured from element 0. -/
def rowStarts (sh : CopyShape) (r : BufRec) (e : Int) : List Int :=
  if sh.bytes = 0 then []
  else (List.range sh.rows).map fun (i : Nat) => (e + i) * r.stride

/-- Whether every byte of an end lies within extent × stride bytes of its record (R129 check 3). -/
def inExtent (sh : CopyShape) (r : BufRec) (e : Int) : Bool :=
  (rowStarts sh r e).all fun o => 0 ≤ o && o + sh.bytes ≤ (r.extent * r.stride : Nat)

/-- The segment check of the first and the last byte of an end (R129 check 4); the segment's base. -/
def copySegment (x : Site) (sh : CopyShape) (r : BufRec) (e : Int) : Except Trouble Nat :=
  match rowStarts sh r e with
  | [] => .ok (if r.ring then 0 else segBase (regNow x.g x.th (.g r.seg)))
  | o :: rest => match segmentAddr x r (r.base + o.toNat) 1 with
    | .error t => .error t
    | .ok _ => match segmentAddr x r (r.base + ((o :: rest).getLastD o).toNat + sh.bytes - 1) 1 with
      | .error t => .error t
      | .ok _ => .ok (if r.ring then 0 else segBase (regNow x.g x.th (.g r.seg)))

/-- Addresses of the rows of an end. -/
def rowAddrs (sh : CopyShape) (r : BufRec) (e : Int) (base : Nat) : List Nat :=
  (rowStarts sh r e).map fun o => base + r.base + o.toNat

/-- The address the alignment check looks at when there is no byte to copy. -/
def firstAddr (r : BufRec) (e : Int) (base : Nat) : Nat := base + r.base + (e * r.stride).toNat

/-- The first address of a copy that is not a multiple of 16 (R129 check 5).  'Either address' is read as every row's source
and destination address for `cpy2`, and where only the byte count is no multiple of 16 the fault data hold the first source
address (DESIGN CHOICE, log 16). -/
def unaligned (sh : CopyShape) (r : BufRec) (e : Int) (base : Nat) : Option Nat :=
  (firstAddr r e base :: rowAddrs sh r e base).find? fun a => a % 16 ≠ 0

/-- The thread's group with the swizzle tags that its own committed stores leave, those still in its store buffer
included: an engine reads after them (R110, R130, R163). -/
def Site.tagged (x : Site) : Group :=
  setTags x.g ((x.th.buffer.flatMap Store.bytes).filterMap fun c => match c.1 with
    | .pad o => some (o, c.2)
    | .mem _ => none) 0

/-- The first 1 KiB of scratchpad bytes whose tag is not the swizzle id (R129 check 6, R161, R162). -/
def wrongTag (g : Group) (swizzle : Nat) (runs : List (Nat × Nat)) : Option Nat :=
  let blocks := (runs.flatMap fun (o, n) =>
    if n = 0 then [] else (List.range ((o + n - 1) / 1024 + 1 - o / 1024)).map fun i => o / 1024 + i).dedup
  (blocks.find? fun b => g.tags.getD b 0 ≠ swizzle).map fun b => b * 1024

/-- An end of a copy at an address (R130, R284). -/
def copyEnd (x : Site) (r : BufRec) (a : Nat) : CopyEnd :=
  if inPad x r then .pad a r.swizzle else if inRing r a then .ring a else .va a

/-- The checks of R129, in their order, after the poison of both records (R337), and the bytes to move. -/
def copyMoves (x : Site) (sh : CopyShape) (src dst : Nat) : Except Trouble (List Move) := do
  if regPoisoned x.g x.th (.b src) then throw (x.poisonedReg (.b src))
  if regPoisoned x.g x.th (.b dst) then throw (x.poisonedReg (.b dst))
  let rs ← copyRecord x src sh.srcE false
  let rd ← copyRecord x dst sh.dstE true
  if 2 ^ 24 < sh.bytes * sh.rows then throw (x.trouble .bounds sh.count)
  if sh.two && (rs.stride < sh.bytes || rd.stride < sh.bytes) then throw (x.trouble .bounds sh.count)
  if !inExtent sh rs sh.srcE then throw (x.trouble .bounds (indexWord sh.srcE))
  if !inExtent sh rd sh.dstE then throw (x.trouble .bounds (indexWord sh.dstE))
  let bs ← copySegment x sh rs sh.srcE
  let bd ← copySegment x sh rd sh.dstE
  match unaligned sh rs sh.srcE bs, unaligned sh rd sh.dstE bd with
  | some a, _ => throw (x.trouble .misaligned (BitVec.ofNat 32 a))
  | none, some a => throw (x.trouble .misaligned (BitVec.ofNat 32 a))
  | none, none =>
    if sh.bytes % 16 ≠ 0 then throw (x.trouble .misaligned (BitVec.ofNat 32 (firstAddr rs sh.srcE bs)))
    let srcRows := rowAddrs sh rs sh.srcE bs
    match if inPad x rs then wrongTag x.tagged rs.swizzle (srcRows.map fun a => (a, sh.bytes)) else none with
    | some o => throw (x.trouble .swizzleMismatch (BitVec.ofNat 32 o))
    | none =>
      .ok ((srcRows.zip (rowAddrs sh rd sh.dstE bd)).map fun (a, b) => ⟨copyEnd x rs a, copyEnd x rd b, sh.bytes⟩)

def copyBody (m : ModCP) (d : Operand) (src dst : Nat) (shape : Site → CopyShape) : Body := fun s x =>
  match copyMoves x (shape x) src dst with
  | .error t => .error t
  | .ok moves =>
    if m.arrive then
      let o := x.read32 d
      if o.toNat % 4 ≠ 0 || padBytes x.pass < o.toNat + 4 then .error (x.trouble .bounds o)
      else .ok (setEffect s x (.copy moves (.word o.toNat)))
    else .ok (setEffect s x (.copy moves (.token x.t.row (tokenOf d))))

/-- CPY1 (R129): c bytes from source element a to destination element a + 1. -/
def execCpy1 (w : CopyWord ModCP) (s : State) : Out :=
  issueWord s (.cpy1 w) (copyBody w.m w.d w.src.toNat w.dst.toNat fun x => copyShape x false w.a w.c)

/-- CPY2 (R129): c[31:16] rows of c[15:0] bytes. -/
def execCpy2 (w : CopyWord ModCP) (s : State) : Out :=
  issueWord s (.cpy2 w) (copyBody w.m w.d w.src.toNat w.dst.toNat fun x => copyShape x true w.a w.c)

/-- SPWF (R134). -/
def execSpwf (w : OpWord ModZ) (s : State) : Out :=
  issueWord s (.spwf w) fun s x => .ok (setEffect s x (.spwf ((x.read32 w.a).setWidth 16)))

/-! ## Hardware queues and tier moves (R135-R137) -/

/-- The role of a bank in a core's copy of the roles (R135). -/
def copiedRole (c : Core) (core bank : Nat) : BankRole :=
  match c.roleCopy.find? fun r => r.1 = core && r.2.1 = bank with
  | some r => r.2.2
  | none => .cache

/-- The bank and core a queue id names, when it may be used (R135). -/
def queueTarget (x : Site) (id : Word) : Except Trouble (Nat × Nat) :=
  let bank := id.toNat % 32
  let core := id.toNat / 32 % 128
  if id.toNat / 4096 ≠ 0 || copiedRole (getCore x.before x.core) core bank ≠ .fifo then .error (x.trouble .bounds id)
  else .ok (bank, core)

/-- QPUSH (R135). -/
def execQpush (w : OpWord ModQU) (s : State) : Out :=
  issueWord s (.qpush w) fun s x => (queueTarget x (x.read32 w.a)).map fun (b, c) =>
    setEffect s x (.push b c w.m.w w.m.try_ (x.read w.m.w w.d) w.m.scope.toNat (positiveGuard w.h.guard))

/-- QPOP (R135). -/
def execQpop (w : OpWord ModQU) (s : State) : Out :=
  issueWord s (.qpop w) fun s x => (queueTarget x (x.read32 w.a)).map fun (b, c) =>
    setEffect s x (.pop b c w.m.w w.m.try_ w.d w.m.scope.toNat (positiveGuard w.h.guard))

/-- TMOVE (R137). -/
def execTmove (w : OpWord ModTM) (s : State) : Out :=
  issueWord s (.tmove w) fun s x => .ok (setEffect s x (.tmove x.t.row (tokenOf w.d) (x.read32 w.a) w.m.tier.toNat))

end Sys2Proof.Machine
end

