-- ==== Sys2Proof/Machine/Field.lean ====
section
/-!
DEFINITION. The field unit: ray-box, ray-triangle and hit-merging tests, occupancy stepping and hash-grid fetch
(R174-R179).
-/

namespace Sys2Proof.Machine

/-! ## FP32 helpers: rn, fma, comparisons (R95, R174) -/

def f32 (x : Nat) : FVal := unpack 0 x
def rn (v : FVal) : Nat := packVal 0 0 v
def mul32 (x y : Nat) : Nat := rn (mulVal (f32 x) (f32 y))
def sub32 (x y : Nat) : Nat := rn (addVal 0 (f32 x) (negVal (f32 y)))
def add32 (x y : Nat) : Nat := rn (addVal 0 (f32 x) (f32 y))
def fma32 (x y z : Nat) : Nat := rn (addVal 0 (mulVal (f32 x) (f32 y)) (f32 z))
def div32 (x y : Nat) : Nat := divBits 0 0 (f32 x) (f32 y)
def neg32 (x : Nat) : Nat := Nat.xor x (2 ^ 31)
def le32 (x y : Nat) : Bool := fcmpHolds 0 3 x y
def lt32 (x y : Nat) : Bool := fcmpHolds 0 2 x y
def max32 (x y : Nat) : Nat := pickBits 0 true x y
def min32 (x y : Nat) : Nat := pickBits 0 false x y
def posInf : Nat := 0x7F800000
def negInf : Nat := 0xFF800000

/-- a ≤ b for values that are no NaN, exactly. -/
def leVal : FVal → FVal → Bool
  | .inf true, _ | _, .inf false => true
  | .inf false, _ | _, .inf true => false
  | .fin n m e, .fin n' m' e' =>
    let base := min e e'
    let x : Int := (m : Int) * 2 ^ (e - base).toNat * (if n then -1 else 1)
    let y : Int := (m' : Int) * 2 ^ (e' - base).toNat * (if n' then -1 else 1)
    x ≤ y
  | _, _ => false

def wordsNat (ws : List Word) (i : Nat) : Nat := (ws.getD i 0).toNat

/-! ## Boxes (R174) -/

/-- What one axis of a slab test gives: an entry and an exit bound, a miss, or an exact value the rule does not
state (an infinity minus or times its opposite). -/
inductive Slab where
  | bounds (lo hi : Nat)
  | miss
  | open_
  deriving DecidableEq, Repr

/-- The outward-rounded bounds of two exact crossings.  Of two zeros of unlike sign the first taken is the entry bound
(DESIGN CHOICE, log 42: R174 does not order them). -/
def slabOf (u w : FVal) : Slab :=
  match u, w with
  | .nan, _ | _, .nan => .open_
  | u, w => if leVal u w then .bounds (packVal 0 3 u) (packVal 0 2 w) else .bounds (packVal 0 3 w) (packVal 0 2 u)

/-- One axis of `rbox` for an inverse direction. -/
def boxAxis (o q lo hi : Nat) : Slab :=
  match f32 q with
  | .inf _ => if le32 lo o && le32 o hi then .bounds negInf posInf else .miss
  | v => slabOf (mulVal (addVal 0 (f32 lo) (negVal (f32 o))) v) (mulVal (addVal 0 (f32 hi) (negVal (f32 o))) v)

/-- The interval of three slabs and [tmin, tmax]: `some (some (tn, tf))` a hit, `some none` a miss, `none` where
an axis is open. -/
def boxInterval (tmin tmax : Nat) (axes : List Slab) : Option (Option (Nat × Nat)) :=
  if axes.contains .miss then some none
  else if axes.contains .open_ then none
  else
    let lo := axes.foldl (fun t a => match a with
      | .bounds e _ => max32 t e
      | _ => t) tmin
    let hi := axes.foldl (fun t a => match a with
      | .bounds _ f => min32 t f
      | _ => t) tmax
    some (if lt32 hi lo then none else some (lo, hi))

/-- `rbox` (R174): entry and exit of the ray, outward rounded, or +inf and -inf for a miss. -/
def rboxResult (a b : List Word) : Option (Nat × Nat) :=
  let at_ := wordsNat a
  let bt := wordsNat b
  let nan := (a ++ b).any fun w => isNan 0 w.toNat
  let bad := [0, 1, 2].any fun i => lt32 (bt (i + 3)) (bt i)
  if nan || bad then some (posInf, negInf)
  else (boxInterval (at_ 6) (at_ 7) ([0, 1, 2].map fun i => boxAxis (at_ i) (at_ (i + 3)) (bt i) (bt (i + 3)))).map
    fun r => r.getD (posInf, negInf)

/-- A run of words that a rule leaves open: the same for the same sources, so that a replay obtains them again (R179,
log 2). -/
def openWords (opcode : Nat) (operands : List Word) (n : Nat) : List Word :=
  (List.range n).map (Config.fieldOpen opcode operands)

def word32 (n : Nat) : Word := BitVec.ofNat 32 n

/-- RBOX (R174). -/
def execRbox (w : OpWord ModZ) (s : State) : Out :=
  issueWord s (.rbox w) (pureBody fun x =>
    match rboxResult (x.run 8 w.a) (x.run 6 w.b) with
    | some (n, f) => runWrites [word32 n, word32 f] w.d
    | none => runWrites (openWords 0x222 (x.run 8 w.a ++ x.run 6 w.b) 2) w.d)

/-! ## Triangles (R175) -/

abbrev Vec := Nat × Nat × Nat

def vecAt (ws : List Word) (i : Nat) : Vec := (wordsNat ws i, wordsNat ws (i + 1), wordsNat ws (i + 2))
def vecSub (a b : Vec) : Vec := (sub32 a.1 b.1, sub32 a.2.1 b.2.1, sub32 a.2.2 b.2.2)
def dot3 (x y : Vec) : Nat := fma32 x.1 y.1 (fma32 x.2.1 y.2.1 (mul32 x.2.2 y.2.2))
def cross3 (x y : Vec) : Vec :=
  (fma32 x.2.1 y.2.2 (neg32 (mul32 x.2.2 y.2.1)),
   fma32 x.2.2 y.1 (neg32 (mul32 x.1 y.2.2)),
   fma32 x.1 y.2.1 (neg32 (mul32 x.2.1 y.1)))

def oneF : Nat := 0x3F800000

/-- `rtri` (R175). -/
def rtriResult (a b : List Word) : List Word :=
  let miss : List Word := [word32 posInf, 0, 0, 0]
  let o := vecAt a 0
  let r := vecAt a 3
  let p0 := vecAt b 0
  let e1 := vecSub (vecAt b 3) p0
  let e2 := vecSub (vecAt b 6) p0
  let pv := cross3 r e2
  let det := dot3 e1 pv
  if det % 2 ^ 31 = 0 || infBits 0 ≤ det % 2 ^ 31 then miss
  else
    let tv := vecSub o p0
    let qv := cross3 tv e1
    let u := div32 (dot3 tv pv) det
    let v := div32 (dot3 r qv) det
    let t := div32 (dot3 e2 qv) det
    if le32 0 u && le32 0 v && le32 (add32 u v) oneF && le32 (wordsNat a 6) t && le32 t (wordsNat a 7) then
      [word32 t, word32 u, word32 v, if lt32 det 0 then 3 else 1]
    else miss

/-- RTRI (R175). -/
def execRtri (w : OpWord ModZ) (s : State) : Out :=
  issueWord s (.rtri w) (pureBody fun x => runWrites (rtriResult (x.run 8 w.a) (x.run 9 w.b)) w.d)

/-! ## Hits (R176) -/

/-- Whether hit record b wins over a (R176). -/
def secondWins (a b : List Word) : Bool :=
  let ta := wordsNat a 0
  let tb := wordsNat b 0
  if isNan 0 ta then !isNan 0 tb
  else if isNan 0 tb then false
  else if lt32 tb ta then true
  else if lt32 ta tb then false
  else if wordsNat b 1 ≠ wordsNat a 1 then wordsNat b 1 < wordsNat a 1
  else wordsNat b 2 < wordsNat a 2

/-- RHIT (R176): two NaN times make a the winner. -/
def execRhit (w : OpWord ModZ) (s : State) : Out :=
  issueWord s (.rhit w) (pureBody fun x =>
    let a := x.run 4 w.a
    let b := x.run 4 w.b
    runWrites (if secondWins a b then b else a) w.d)

/-! ## Reads of the field unit: path S under R107 (R179) -/

/-- The bytes read so far, with the first fault. -/
def unitRead (x : Site) (n : Nat) (e width : Nat) : Except Trouble (List Spot) :=
  (elementAccess x.before x n e width ⟨.read, false, false, false⟩).map Prod.snd

def unitBytes (x : Site) (ps : List Spot) : Nat := ofBytes (ps.map (spotByte x.before x .s))

/-- Whether the bytes read so far hold a faulting one: it comes before a fault of a later byte (R179). -/
def unitBad (x : Site) (ps : List Spot) : Bool := (firstBad x.before x .s ps).isSome

/-- A result that arrives as load data does (R177, R178); the first faulting byte counts (R179). -/
def unitLoad (s : State) (x : Site) (d : Operand) (ws : List Word) (ps : List Spot) : State :=
  let r := runWrites ws d
  fillLines (startLoad s x.before x .s (.unit r.1 r.2) (byteMarks x.before x .s ps) [] ps) x .s ⟨false, false⟩ [] ps

/-! ## Occupancy stepping (R177) -/

/-- The inputs of `occstep`: origin, direction, resolution exponent, start and end of the clipped interval. -/
structure March where
  o  : List Nat
  r  : List Nat
  n  : Nat
  te : Nat

/-- One axis of the clip to the unit cube, with the exact inverse of the direction. -/
def cubeAxis (o r : Nat) : Slab :=
  match f32 r, f32 o with
  | .fin _ 0 _, _ => if le32 0 o && le32 o oneF then .bounds negInf posInf else .miss
  | .fin neg m e, .fin _ _ _ =>
    -- (c - o) / r, rounded down and up
    let q := fun (rnd : Nat) (c : Nat) => divBits 0 rnd (addVal 0 (f32 c) (negVal (f32 o))) (.fin neg m e)
    if neg then .bounds (q 3 oneF) (q 2 0) else .bounds (q 3 0) (q 2 oneF)
  -- both crossings of an infinite origin are the same infinity
  | .fin neg _ _, .inf away => if neg = away then .bounds negInf negInf else .bounds posInf posInf
  | .inf _, .fin _ _ _ => .bounds 0 0
  | _, _ => .open_

/-- floor(2^n × x), clamped to the grid; none for a value that is no finite number. -/
def cellOf (n x : Nat) : Option Nat :=
  match f32 x with
  | .fin neg m e =>
    let scaled : Int := if 0 ≤ e + n then (m : Int) * 2 ^ (e + n).toNat else (m / 2 ^ (-(e + n)).toNat : Nat)
    some (if neg then 0 else min scaled.toNat (2 ^ n - 1))
  | _ => none

/-- The crossing of one axis, rounded to nearest; none for a direction of 0. -/
def crossing (g : March) (i cell : Nat) : Option Nat :=
  let r := g.r.getD i 0
  match f32 r with
  | .fin _ 0 _ => none
  | v =>
    let plane : FVal := .fin false (cell + (if r < 2 ^ 31 then 1 else 0)) (-(g.n : Int))
    some (divBits 0 0 (addVal 0 plane (negVal (f32 (g.o.getD i 0)))) v)

/-- What the march has found: found, more, start and t. -/
structure Marched where
  start : Option Nat
  t     : Nat
  more  : Bool
  spots : List Spot

/-- The loop of R177 from a cell; `left` counts down from 64. -/
def march (x : Site) (g : March) (buf : Nat) : Nat → Nat → List Nat → Option Nat → List Spot → Except Trouble Marched
  | 0, t, _, start, ps => .ok ⟨start, t, true, ps⟩
  | left + 1, t, cell, start, ps =>
    let c := fun i => cell.getD i 0
    let j := c 0 + 2 ^ g.n * (c 1 + 2 ^ g.n * c 2)
    let cross := [0, 1, 2].map fun i => crossing g i (c i)
    let tx := (cross.filterMap id).foldl min32 g.te
    match unitRead x buf (j / 8) 1 with
    | .error tr => if unitBad x ps then .ok ⟨start, t, true, ps⟩ else .error tr
    | .ok sp =>
      let ps := ps ++ sp
      let occupied := (unitBytes x sp) / 2 ^ (j % 8) % 2 = 1
      let start' := if occupied && start.isNone then some t else start
      if !occupied && start.isSome then .ok ⟨start, t, lt32 t g.te, ps⟩
      else if le32 g.te tx then .ok ⟨start', tx, false, ps⟩
      else if left = 0 then .ok ⟨start', tx, true, ps⟩
      else
        let next := [0, 1, 2].map fun i =>
          let hit := match cross.getD i none with
            | some v => fcmpHolds 0 0 v tx
            | none => false
          if hit then (if g.r.getD i 0 < 2 ^ 31 then (c i : Int) + 1 else (c i : Int) - 1) else (c i : Int)
        if next.any fun v => v < 0 || (2 ^ g.n : Int) ≤ v then .ok ⟨start', tx, false, ps⟩
        else march x g buf left tx (next.map Int.toNat) start' ps

def marchWords (m : Marched) : List Word :=
  let found := m.start.isSome
  [word32 (m.start.getD posInf), word32 (if found then m.t else negInf), word32 m.t,
   word32 ((if found then 1 else 0) + (if m.more then 2 else 0))]

/-- What `occstep` finds before its result is written: nothing that the rules fix, a miss, or a march. -/
inductive Stepped where
  | open_
  | missed (t : Word)
  | marched (m : Marched)

/-- The march of a thread (R177).  A NaN among the first eight sources is a miss, as in `rbox`; for a NaN start t the
rule can also be read to take 0 (DEDUCED, log 42). -/
def occstepFind (w : RawBWord ModZ) (x : Site) : Except Trouble Stepped :=
  let a := x.run 9 w.a
  let at_ := wordsNat a
  let n := at_ 8
  if n = 0 || 10 < n then .error (x.trouble .bounds (word32 n))
  else
    let nan := (a.take 8).any fun v => isNan 0 v.toNat
    let clip := boxInterval (max32 (at_ 6) 0) (at_ 7) ([0, 1, 2].map fun i => cubeAxis (at_ i) (at_ (i + 3)))
    match (if nan then some none else clip) with
    | none => .ok .open_
    | some none => .ok (.missed (word32 (at_ 7)))
    | some (some (ts, te)) =>
      let o := [at_ 0, at_ 1, at_ 2]
      let r := [at_ 3, at_ 4, at_ 5]
      match ([0, 1, 2].mapM fun i => cellOf n (fma32 ts (r.getD i 0) (o.getD i 0))) with
      | none => .ok .open_
      | some cell => (march x ⟨o, r, n, te⟩ w.b.toNat 64 ts cell none []).map .marched

def occstepBody (w : RawBWord ModZ) : Body := fun s x =>
  match occstepFind w x with
  | .error tr => .error tr
  | .ok .open_ =>
    .ok (unitLoad s x w.d (openWords 0x220 (x.run 9 w.a) 4) [])
  | .ok (.missed t) => .ok (unitLoad s x w.d [word32 posInf, word32 negInf, t, 0] [])
  | .ok (.marched m) => .ok (unitLoad s x w.d (marchWords m) m.spots)

/-- The field unit's reads wait as other accesses do (R214, R236, R317). -/
def occstepHeld (w : RawBWord ModZ) (x : Site) : Bool :=
  match occstepFind w x with
  | .ok (.marched m) => spotsHeld x m.spots
  | _ => false

/-- OCCSTEP (R177). -/
def execOccstep (w : RawBWord ModZ) (s : State) : Out := issueHeld s (.occstep w) (occstepHeld w) (occstepBody w)

/-! ## Hash grids (R178) -/

/-- The cell and the weight of one axis. -/
def gridAxis (p res : Nat) : Nat × Nat :=
  let c := pickBits 0 false (pickBits 0 true p 0) oneF
  let x := rn (mulVal (f32 c) (.fin false res 0))
  let cell := match f32 x with
    | .fin _ m e => min (if 0 ≤ e then m * 2 ^ e.toNat else m / 2 ^ (-e).toNat) (res - 1)
    | _ => 0
  (cell, rn (addVal 0 (f32 x) (.fin true cell 0)))

def gridIndex (res t gx gy gz : Nat) : Nat :=
  if (res + 1) ^ 3 ≤ 2 ^ t then gx + (res + 1) * (gy + (res + 1) * gz)
  else Nat.xor (Nat.xor (gx % 2 ^ 32) (gy * 0xA3C59AC3 % 2 ^ 32)) (gz * 0x6E2F19B7 % 2 ^ 32) % 2 ^ t

/-- lerp(w, e0, e1). -/
def lerp (w e0 e1 : Nat) : Nat := fma32 w (sub32 e1 e0) e0

/-- Trilinear interpolation of eight features, x first, then y, then z. -/
def trilinear (f : List Nat) (wx wy wz : Nat) : Nat :=
  let g := fun i => f.getD i 0
  let y0 := lerp wy (lerp wx (g 0) (g 1)) (lerp wx (g 2) (g 3))
  let y1 := lerp wy (lerp wx (g 4) (g 5)) (lerp wx (g 6) (g 7))
  lerp wz y0 y1

/-- The eight corner words, read in the order of their index bits x, y, z. -/
def gridWords (x : Site) (buf : Nat) (idx : Nat → Nat) : Nat → Except Trouble (List (List Spot))
  | 0 => .ok []
  | n + 1 => match gridWords x buf idx n with
    | .error t => .error t
    | .ok ps => match unitRead x buf (idx n) 4 with
      | .error t => if unitBad x ps.flatten then .ok ps else .error t
      | .ok p => .ok (ps ++ [p])

/-- What `hgrid` reads: the three weights and the bytes of the eight corners (R178). -/
def hgridFind (w : RawBWord ModZ) (x : Site) : Except Trouble (Nat × Nat × Nat × List (List Spot)) :=
  let a := x.run 3 w.a
  let c := x.read32 w.c
  let res := c.toNat % 65536
  let t := c.toNat / 65536 % 32
  if res = 0 || t < 10 || 24 < t || c.toNat / 2 ^ 21 ≠ 0 then .error (x.trouble .bounds c)
  else
    let (cx, wx) := gridAxis (wordsNat a 0) res
    let (cy, wy) := gridAxis (wordsNat a 1) res
    let (cz, wz) := gridAxis (wordsNat a 2) res
    (gridWords x w.b.toNat (fun i => gridIndex res t (cx + i % 2) (cy + i / 2 % 2) (cz + i / 4)) 8).map fun ps =>
      (wx, wy, wz, ps)

def hgridBody (w : RawBWord ModZ) : Body := fun s x =>
  match hgridFind w x with
  | .error tr => .error tr
  | .ok (wx, wy, wz, ps) =>
    let words := ps.map (unitBytes x)
    let f0 := words.map fun v => rn (unpack 1 (v % 65536))
    let f1 := words.map fun v => rn (unpack 1 (v / 65536))
    .ok (unitLoad s x w.d [word32 (trilinear f0 wx wy wz), word32 (trilinear f1 wx wy wz)] ps.flatten)

def hgridHeld (w : RawBWord ModZ) (x : Site) : Bool :=
  match hgridFind w x with
  | .ok (_, _, _, ps) => spotsHeld x ps.flatten
  | .error _ => false

/-- HGRID (R178). -/
def execHgrid (w : RawBWord ModZ) (s : State) : Out := issueHeld s (.hgrid w) (hgridHeld w) (hgridBody w)

end Sys2Proof.Machine
end

