-- ==== Sys2Proof/Machine/Matrix.lean ====
section
/-!
DEFINITION. The matrix engine: `mxldb`, `mxop`, `mxq` and `mxdrop` at execution (R159-R166), residency (R160,
R309, R310), the function of R164, and the engine's own steps: start, completion, self-test and re-execution
(R163, R312-R314).  Work fetch and the tile instructions at execution (R167, R168).
-/

namespace Sys2Proof.Machine

/-! ## Layouts (R87, R161, R162) -/

/-- Bytes of one K vector, without its scales when they stand apart. -/
def vecBytes (slot : Wide) : Nat :=
  32 * elemBits (slotElem slot) + (if slotApart slot then 0 else 256 / slotBlockLen slot)

/-- Columns of a handle of width code `w` under a slot (R160). -/
def columnsOf (slot : Wide) (w : Nat) : Nat := (if elemBits (slotElem slot) = 8 then 64 else 128) * 2 ^ w

/-- The byte runs of `n` vectors `pitch` bytes apart, and those of their scales when they stand apart. -/
def vecRuns (slot : Wide) (base pitch n : Nat) : List (Nat × Nat) :=
  (List.range n).map fun i => (base + i * pitch, vecBytes slot)
def scaleRuns (slot : Wide) (base n : Nat) : List (Nat × Nat) :=
  if slotApart slot then [(base, n * (256 / slotBlockLen slot))] else []

/-- The byte runs of an FP32 matrix of `m` rows and `n` columns. -/
def wordRuns (base pitch m n : Nat) : List (Nat × Nat) := (List.range m).map fun i => (base + i * pitch, 4 * n)

/-- Reads vector `i`: its elements at `base + i × pitch`, its scales inline, or apart at `scales` through `scaleByte`. -/
def readVec (byte scaleByte : Nat → Byte) (slot : Wide) (base pitch scales i : Nat) : MxVec :=
  let bits := elemBits (slotElem slot)
  let len := slotBlockLen slot
  let blockBytes := len * bits / 8 + (if slotApart slot then 0 else 1)
  let start := base + i * pitch
  let elem := fun k =>
    let o := start + k / len * blockBytes + (if slotApart slot then 0 else 1) + k % len * bits / 8
    let b := (byte o).toNat
    if bits = 8 then b else if k % 2 = 0 then b % 16 else b / 16
  let scale := fun g =>
    let block := 32 * g / len
    (if slotApart slot then scaleByte (scales + i * (256 / len) + block) else byte (start + block * blockBytes)).toNat
  ⟨(List.range 256).map elem, (List.range 8).map scale⟩

/-- A byte of a scratchpad operand as the matrix engine of core `k` reads it for a thread, at its logical offset under a
swizzle (R221): the engine's own unseen writes and those whose completion the thread has read, then the cache of path
M, then the scratchpad (R163, R247, R249). -/
def mxByte (s : State) (k : Nat) (g : Group) (saw : List Nat) (z o : Nat) : Byte :=
  let p := swizzled z o
  (lateByte s g.serial (fun l => (l.path = .m && l.core = k) || saw.contains l.id) (.pad p)).getD
    ((cachedByte (getCore s k).mCache (padKey g.serial p)).getD (padByte g p))

/-- The lines of path M's cache that lack a store of the thread, or a write of an operation whose completion it has read,
performed or not, go: the engine sees both (R163, R249). -/
def freshenM (s : State) (k : Nat) (t : ThreadRef) : State :=
  let saw := ((findThread s t).map fun (_, th) => th.saw).getD []
  let keys := (s.late.filter fun l => saw.contains l.id).flatMap Late.keys
  let ours := fun (w : Written) => (w.path = .v && w.by_.contains t) || w.op.any saw.contains
  updCore s k fun c => { c with mCache := dropLines keys (c.mCache.filter fun l => !staleLine s ours l) }

/-- Whether a scratchpad byte is poisoned as the matrix engine of core `k` reads it for a thread, and whether its check code
is wrong: in its cache's line or in the scratchpad, under the engine writes that it sees (R319, R321, R322). -/
def mxFlaw (s : State) (k : Nat) (g : Group) (saw : List Nat) (o : Nat) : Bool × Bool :=
  let key := padKey g.serial o
  let base := match lineIn (getCore s k).mCache key with
    | some l => (l.flaws.poisoned key, l.flaws.wrong key)
    | none => (g.padPoison.contains (sectorOf o), g.padMismatch.contains (blockOf o))
  throughLate s g.serial (fun l => (l.path = .m && l.core = k) || saw.contains l.id) (.pad o) base

/-- Whether a byte of runs that are read through swizzle `z` is poisoned, and whether one has a wrong check code (R319,
R321); `flaw` says what is wrong with a byte. -/
def runsPoisoned (flaw : Nat → Bool × Bool) (z : Nat) (runs : List (Nat × Nat)) : Bool :=
  runs.any fun (o, n) => (List.range n).any fun i => (flaw (swizzled z (o + i))).1
def runsMismatch (flaw : Nat → Bool × Bool) (z : Nat) (runs : List (Nat × Nat)) : Bool :=
  runs.any fun (o, n) => (List.range n).any fun i => (flaw (swizzled z (o + i))).2

def runsInside (size : Nat) (runs : List (Nat × Nat)) : Bool := runs.all fun (o, n) => o + n ≤ size
def runsOverlap (a b : List (Nat × Nat)) : Bool :=
  a.any fun (x, n) => b.any fun (y, m) => x < y + m && y < x + n

/-! ## The handle descriptor and the parameter block (R160, R162) -/

structure MxDesc where
  addr    : Nat
  scales  : Nat
  pitch   : Nat
  slot    : Nat
  width   : Nat
  swizzle : Nat
  rsv     : Nat
  deriving DecidableEq, Repr

def mxDesc (b : BitVec 128) : MxDesc where
  addr := (b.extractLsb' 0 32).toNat
  scales := (b.extractLsb' 32 32).toNat
  pitch := (b.extractLsb' 64 16).toNat
  slot := (b.extractLsb' 80 3).toNat
  width := (b.extractLsb' 83 2).toNat
  swizzle := (b.extractLsb' 85 4).toNat
  rsv := (b.extractLsb' 89 39).toNat

structure MxBlock where
  a       : Nat
  aScales : Nat
  aPitch  : Nat
  c       : Nat
  d       : Nat
  cPitch  : Nat
  dPitch  : Nat
  rows    : Nat
  handle  : Nat
  slot    : Nat
  cZero   : Bool
  swizzle : Nat
  rsv     : Nat
  deriving DecidableEq, Repr

def mxBlock (b : BitVec 512) : MxBlock where
  a := (b.extractLsb' 0 32).toNat
  aScales := (b.extractLsb' 32 32).toNat
  aPitch := (b.extractLsb' 64 32).toNat
  c := (b.extractLsb' 96 32).toNat
  d := (b.extractLsb' 128 32).toNat
  cPitch := (b.extractLsb' 160 16).toNat
  dPitch := (b.extractLsb' 176 16).toNat
  rows := (b.extractLsb' 192 6).toNat + 1
  handle := (b.extractLsb' 198 4).toNat
  slot := (b.extractLsb' 202 3).toNat
  cZero := b.getLsbD 205
  swizzle := (b.extractLsb' 206 4).toNat
  rsv := (b.extractLsb' 210 302).toNat

/-- The byte runs of a handle's B elements and scales. -/
def bRuns (slot : Wide) (d : MxDesc) : List (Nat × Nat) :=
  vecRuns slot d.addr d.pitch (columnsOf slot d.width) ++ scaleRuns slot d.scales (columnsOf slot d.width)

/-- Whether a slot serves the matrix engine: valid, with blocks of 32 or 64 (R161, R162). -/
def mxSlotOk (slot : Wide) : Bool := slot.getLsbD 0 && slotBlockLen slot ≠ 16

/-- A scratchpad operand read at execution, the thread's own buffered stores included (R110, R161): its bytes,
or the fault on a poisoned or mismatching sector. -/
def padOperand (x : Site) (off n : Nat) : Except Trouble (List Byte) :=
  let spots : List Spot := (List.range n).map fun i => ⟨.pad (off + i), off + i, false⟩
  let fault := fun (c : Code) (va : Nat) => (⟨c, BitVec.ofNat 32 va, vaData1 va .read, some (.thread x.t), false⟩ : Trouble)
  match firstPoison x.before x .v spots, firstMismatch x.before x .v spots with
  | some va, _ => .error (fault .poison va)
  | none, some va => .error (fault .checkMismatch va)
  | none, none => .ok (spots.map (spotByte x.before x .v))

/-- The first check mismatch on data a segment read is no fault: the segment will be replayed, once (R107, R197, R323). -/
def missOnce (s : State) (x : Site) : Except Trouble State → Except Trouble State
  | .error tr =>
    if tr.code = .checkMismatch && !x.th.seg.checked then
      .ok (updThread s x.t fun th => { th with seg := th.seg.miss })
    else .error tr
  | .ok s => .ok s

/-! ## MXLDB, MXOP, MXQ, MXDROP at execution (R161-R166) -/

/-- The checks of R161 in their order, and the descriptor.  The separate scales of B count as B bytes in check 6 and are read
through `b_swizzle`: R161 does not say whether they are (DESIGN CHOICE, log 44). -/
def mxldbDesc (x : Site) (a b : Word) : Except Trouble (BitVec 128) := do
  if a.toNat / 16 ≠ 0 then throw (x.trouble .bounds a)
  if b.toNat % 16 ≠ 0 || padBytes x.pass < b.toNat + 16 then throw (x.trouble .bounds b)
  let bytes ← padOperand x b.toNat 16
  let bits := BitVec.ofNat 128 (ofBytes bytes)
  let d := mxDesc bits
  let slot := x.pass.slots.getD d.slot 0
  if d.rsv ≠ 0 || d.width = 3 then throw (x.trouble .bounds b)
  if !mxSlotOk slot then throw x.badModifier
  if (!slotApart slot && d.scales ≠ 0) || !runsInside (padBytes x.pass) (bRuns slot d) then throw (x.trouble .bounds b)
  match [d.addr, d.scales, d.pitch].find? fun v => v % 16 ≠ 0 with
  | some v => throw (x.trouble .misaligned (BitVec.ofNat 32 v))
  | none => match wrongTag x.tagged d.swizzle (bRuns slot d) with
    | some o => throw (x.trouble .swizzleMismatch (BitVec.ofNat 32 o))
    | none => return bits

/-- MXLDB (R161): checks the descriptor; the load is issued at commit. -/
def execMxldb (w : OpWord ModZ) (s : State) : Out :=
  issueWord s (.mxldb w) fun s x =>
    let a := x.read32 w.a
    missOnce s x ((mxldbDesc x a (x.read32 w.b)).map fun d => setEffect s x (.mxldb x.t.row (tokenOf w.d) a.toNat d))

/-- The format slots of a group's pass. -/
def groupSlots (s : State) (group : Nat) : List Wide :=
  match findGroup s group with
  | some g => match findPass s g.ctx g.stage with
    | some p => p.slots
    | none => []
  | none => []

/-- A handle's descriptor and slot. -/
abbrev MxView := List (Option (BitVec 128 × Wide))

def viewStep (s : State) (view : MxView) (i : MxItem) : MxView :=
  match i.work with
  | .load h d => view.set h (some (d, (groupSlots s i.thread.group).getD (mxDesc d).slot 0))
  | .drop mask => view.mapIdx fun h v => if mask.getLsbD h then none else v
  | .op _ | .unload _ => view

/-- The queue view of R163. -/
def queueView (s : State) (k : Nat) : MxView :=
  let c := getCore s k
  let now := c.handles.map fun h => h.map fun r => (r.desc, r.slotWord)
  (c.mxQueue).foldl (viewStep s) now

def isResident (c : Core) (h : Nat) : Bool := c.macs.any fun m => m.holds = some h

/-- The checks of R162 in their order, and the parameter block.  Check 7 takes 'not resident' from the engine's state as
it stands, and the descriptor from the queue view (DESIGN CHOICE, log 44); the separate scales of A are in no tag check,
and are read where they stand. -/
def mxopBlock (x : Site) (a : Word) : Except Trouble (BitVec 512) := do
  if a.toNat % 64 ≠ 0 || padBytes x.pass < a.toNat + 64 then throw (x.trouble .bounds a)
  let bytes ← padOperand x a.toNat 64
  let bits := BitVec.ofNat 512 (ofBytes bytes)
  let p := mxBlock bits
  if p.rsv ≠ 0 || (p.cZero && (p.c ≠ 0 || p.cPitch ≠ 0)) then throw (x.trouble .bounds a)
  match (queueView x.before x.core).getD p.handle none with
  | none => throw (x.trouble .mxHandle (BitVec.ofNat 32 p.handle))
  | some (desc, bSlot) =>
    let slot := x.pass.slots.getD p.slot 0
    if !mxSlotOk slot then throw x.badModifier
    let cols := columnsOf bSlot (mxDesc desc).width
    let rows := vecRuns slot p.a p.aPitch p.rows
    let ra := rows ++ scaleRuns slot p.aScales p.rows
    let rc := if p.cZero then [] else wordRuns p.c p.cPitch p.rows cols
    let rd := wordRuns p.d p.dPitch p.rows cols
    let same := p.d = p.c && p.dPitch = p.cPitch
    if !slotApart slot && p.aScales ≠ 0 then throw (x.trouble .bounds a)
    if !runsInside (padBytes x.pass) (ra ++ rc ++ rd) then throw (x.trouble .bounds a)
    if runsOverlap rd ((a.toNat, 64) :: ra ++ (if same then [] else rc)) then throw (x.trouble .bounds a)
    match [p.a, p.aScales, p.aPitch, p.c, p.cPitch, p.d, p.dPitch].find? fun v => v % 16 ≠ 0 with
    | some v => throw (x.trouble .misaligned (BitVec.ofNat 32 v))
    | none =>
      let own := wrongTag x.tagged p.swizzle (rows ++ rc)
      let src := if isResident (getCore x.before x.core) p.handle then none
        else wrongTag x.tagged (mxDesc desc).swizzle (bRuns bSlot (mxDesc desc))
      match own.or src with
      | some o => throw (x.trouble .swizzleMismatch (BitVec.ofNat 32 o))
      | none => return bits

/-- MXOP (R162): checks the parameter block; the operation joins the queue at commit. -/
def execMxop (w : OpWord ModZ) (s : State) : Out :=
  issueWord s (.mxop w) fun s x =>
    missOnce s x ((mxopBlock x (x.read32 w.a)).map fun b => setEffect s x (.mxop x.t.row (tokenOf w.d) b))

/-- The word `mxq` reads: the state of a handle in the engine (R165). -/
def mxqWord (c : Core) (h : Nat) : Word :=
  match c.handles.getD h none with
  | none => 0
  | some r =>
    let d := mxDesc r.desc
    let macro_ := c.macs.findIdx fun m => m.holds = some h
    BitVec.ofNat 32 (1 + (if isResident c h then 2 + 4 * macro_ else 0) + 16 * d.width + 64 * d.slot)

/-- MXQ (R165). -/
def execMxq (w : OpWord ModZ) (s : State) : Out :=
  issueWord s (.mxq w) (pureBody fun x =>
    destWrites false ((mxqWord (getCore x.before x.core) ((x.read32 w.a).toNat % 16)).setWidth 64) w.d)

/-- MXDROP (R166): applied in queue order after commit. -/
def execMxdrop (w : OpWord ModZ) (s : State) : Out :=
  issueWord s (.mxdrop w) fun s x => .ok (setEffect s x (.mxdrop ((x.read32 w.a).setWidth 16)))

/-! ## FWORK and the tile instructions at execution (R167, R168) -/

/-- FWORK (R167): the mailbox is 16 bytes in the scratchpad. -/
def execFwork (w : OpWord ModZ) (s : State) : Out :=
  issueWord s (.fwork w) fun s x =>
    let o := x.read32 w.a
    if o.toNat % 16 ≠ 0 || padBytes x.pass < o.toNat + 16 then .error (x.trouble .bounds o)
    else .ok (setEffect s x (.fwork o.toNat))

/-- The tile an operand names (R168). -/
def tileX (b : Word) : Int := (b.extractLsb' 0 16).toInt
def tileY (b : Word) : Int := (b.extractLsb' 16 16).toInt

def tileInRange (r : Resource) (b : Word) : Bool :=
  0 ≤ tileX b && tileX b < r.tilesX && 0 ≤ tileY b && tileY b < r.tilesY

/-- The checks of R168 for a write (`tlacq`, `tldone`). -/
def tileWriteCheck (x : Site) (a b : Word) : Option Trouble :=
  let res := ((findGraph x.before x.g.ctx).bind fun gr => gr.resources[a.toNat]?)
  if a.toNat / 512 ≠ 0 then some (x.trouble .bounds a)
  else if x.pass.writes.contains a.toNat && (res.map fun r => tileInRange r b).getD false then none
  else some (x.trouble .ringViolation b)

/-- The groups whose tiles are tiles of a group: itself, and those handed to it (R300). -/
def Group.family (g : Group) (s : State) : List Group :=
  g :: s.groups.filter fun h => match h.phase with
    | .handed to_ _ => to_ = g.serial
    | _ => false

/-- The checks of R168 for a read (`tlrd`, `tlrel`): the tile's offset from a tile of the group is a stencil
offset. -/
def tileReadCheck (x : Site) (a b : Word) : Option Trouble :=
  if a.toNat / 512 ≠ 0 then some (x.trouble .bounds a)
  else if (x.g.family x.before).any fun h => x.pass.reads.any fun r => r.res = a.toNat &&
      r.offsets.contains (tileX b - (h.x + x.pass.originX : Nat), tileY b - (h.y + x.pass.originY : Nat)) then none
  else some ⟨.undeclaredRead, b, BitVec.ofNat 32 a.toNat, none, false⟩

def tileBody (check : Site → Word → Word → Option Trouble) (op : TileOp) (oa ob : Operand) : Body := fun s x =>
  let a := x.read32 oa
  let b := x.read32 ob
  match check x a b with
  | some t => .error t
  | none => .ok (setEffect s x (.tile op a.toNat b x.pc))

/-- TLACQ (R169). -/
def execTlacq (w : RawDWord ModZ) (s : State) : Out :=
  issueWord s (.tlacq w) (tileBody tileWriteCheck (.acquire w.d.toNat) w.a w.b)

/-- TLDONE (R170). -/
def execTldone (w : OpWord ModZ) (s : State) : Out :=
  issueWord s (.tldone w) (tileBody tileWriteCheck .done w.a w.b)

/-- TLRD (R171). -/
def execTlrd (w : RawDWord ModZ) (s : State) : Out :=
  issueWord s (.tlrd w) (tileBody tileReadCheck (.open w.d.toNat) w.a w.b)

/-- TLREL (R172). -/
def execTlrel (w : OpWord ModZ) (s : State) : Out :=
  issueWord s (.tlrel w) (tileBody tileReadCheck .release w.a w.b)

/-- An unassigned opcode (R57): ILLEGAL_OPCODE for each enabled thread, with the whole word. -/
def execUnassignedOpcode (w : BitVec 64) (s : State) : Out :=
  issueWord s (.unassignedOpcode w) fun s _ => .ok s

/-! ## The function of R164 -/

/-- The bits below the point of an element's integer form (R164): I4 and I8 0, F4 1, F8 9. -/
def mxShift (fmt : Nat) : Nat := if fmt < 2 then 0 else if fmt = 2 then 1 else 9

/-- An element's integer form; none for an F8 NaN. -/
def mxInt (fmt code : Nat) : Option Int :=
  match elemVal fmt code with
  | .fin neg m e => some ((if neg then -1 else 1) * ((m * 2 ^ (e + mxShift fmt).toNat : Nat) : Int))
  | _ => none

/-- The exact sum of the products of group `g` (R164). -/
def mxGroupSum (fa fb : Nat) (a b : MxVec) (g : Nat) : Int :=
  ((List.range 32).map fun j =>
    (mxInt fa (a.elems.getD (32 * g + j) 0)).getD 0 * (mxInt fb (b.elems.getD (32 * g + j) 0)).getD 0).sum

/-- Term T[g] as m × 2^e. -/
def mxTerm (sa sb : Wide) (a b : MxVec) (g : Nat) : Int × Int :=
  let (ka, ea) := (scaleOf (slotSm8 sa) (a.scales.getD g 0)).getD (1, 0)
  let (kb, eb) := (scaleOf (slotSm8 sb) (b.scales.getD g 0)).getD (1, 0)
  (mxGroupSum (slotElem sa) (slotElem sb) a b g * (ka * kb : Nat),
    ea + eb - mxShift (slotElem sa) - mxShift (slotElem sb))

/-- Whether an element or a scale used makes the result NaN (R164). -/
def mxInvalid (slot : Wide) (v : MxVec) : Bool :=
  v.elems.any (fun e => (mxInt (slotElem slot) e).isNone) || v.scales.any fun c => (scaleOf (slotSm8 slot) c).isNone

/-- A term shifted right toward minus infinity: floor(m × 2^e). -/
def floorShift (m e : Int) : Int := if 0 ≤ e then m * 2 ^ e.toNat else m / 2 ^ (-e).toNat

/-- Element (m, n) of D from a row of A, a column of B and C(m, n) (R164). -/
def mxElement (sa sb : Wide) (a b : MxVec) (c : Word) : Word :=
  if mxInvalid sa a || mxInvalid sb b then BitVec.ofNat 32 (canonicalNan 0)
  else match unpack 0 c.toNat with
    | .nan => BitVec.ofNat 32 (canonicalNan 0)
    | .inf _ => c
    | .fin neg m e =>
      let ts : List (Int × Int) := (List.range 8).map (mxTerm sa sb a b) ++ [((if neg then -(m : Int) else m), e)]
      let top : List Int := (ts.filter fun t => t.1 ≠ 0).map fun t => t.2 + (bitLength t.1.natAbs : Int) - 1
      match top with
      | [] => BitVec.ofNat 32 (signBit 0 neg)
      | t :: rest =>
        let emax := rest.foldl max t
        let sum := (ts.map fun t => floorShift t.1 (t.2 + 24 - emax)).sum
        BitVec.ofNat 32 (roundTo 0 0 (sum < 0) sum.natAbs (emax - 24) false)

/-! ## Residency (R160, R309, R310) -/

/-- The aligned runs of a width code. -/
def runsOfWidth (w : Nat) : List (List Nat) :=
  match w with
  | 0 => [[0], [1], [2], [3]]
  | 1 => [[0, 1], [2, 3]]
  | _ => [[0, 1, 2, 3]]

/-- Whether a macro serves a width (R309). -/
def macServes (m : Mac) (w : Nat) : Bool :=
  match m.cond with
  | .clean => true
  | .spared => w = 0
  | .out => false

def runAvailable (c : Core) (w : Nat) (run : List Nat) : Bool :=
  run.all fun i => macServes (c.macs.getD i Mac.reset) w

/-- Most recent use of a run; a free macro is older than any used one (R160). -/
def runUse (c : Core) (run : List Nat) : Nat :=
  (run.map fun i =>
    let m := c.macs.getD i Mac.reset
    if m.holds.isNone then 0 else m.used).foldl max 0

/-- The run R160 chooses: least recently used among the available ones, the lowest-numbered among equals. -/
def chooseRun (c : Core) (w : Nat) : Option (List Nat) :=
  ((runsOfWidth w).filter (runAvailable c w)).foldl (fun best r => match best with
    | none => some r
    | some b => if runUse c r < runUse c b then some r else some b) none

/-- The check sums of a column's rows in sub-array `sub`: of all 32 integer forms, and of the even rows (R308).  An F8 NaN
has no integer form and adds nothing. -/
def checkSums (fmt : Nat) (v : MxVec) (sub : Nat) : Int × Int :=
  let xs := (List.range 32).map fun j => (mxInt fmt (v.elems.getD (32 * sub + j) 0)).getD 0
  (xs.sum, ((List.range 16).map fun j => xs.getD (2 * j) 0).sum)

def columnSums (fmt : Nat) (v : MxVec) : List (Int × Int) := (List.range 8).map (checkSums fmt v)

/-- The columns that macro number `i` of a run holds. -/
def macroColumns (slot : Wide) (image : List MxVec) (i : Nat) : List MxVec :=
  (image.drop (i * columnsOf slot 0)).take (columnsOf slot 0)

/-- A handle loses its residency and stays known (R310). -/
def dropResidency (c : Core) (h : Nat) : Core :=
  { c with macs := c.macs.map fun m => if m.holds = some h then { m with holds := none } else m
           handles := c.handles.modify h fun r => r.map fun x => { x with image := [] } }

def dropMany (c : Core) (hs : List Nat) : Core := hs.foldl dropResidency c

/-- The handles that stand in the macros of a run. -/
def heldIn (c : Core) (run : List Nat) : List Nat := run.filterMap fun i => (c.macs.getD i Mac.reset).holds

/-- The handle becomes resident in a run, each macro with the check sums of its columns; the handles that overlap it do
not stay (R160, R308). -/
def makeResident (c : Core) (h : Nat) (run : List Nat) (slot : Wide) (image : List MxVec) : Core :=
  let c := dropMany c (heldIn c run)
  let sums := fun i => (macroColumns slot image i).map (columnSums (slotElem slot))
  { c with macs := (run.zipIdx).foldl (fun ms (i, n) => ms.modify i fun m => { m with holds := some h, sums := sums n }) c.macs
           handles := c.handles.modify h fun r => r.map fun x => { x with image := image } }

/-- The run a resident handle stands in. -/
def runOf (c : Core) (h : Nat) : List Nat := (List.range 4).filter fun i => (c.macs.getD i Mac.reset).holds = some h

/-- An operation uses the macros of a run (R160, R312). -/
def useRun (c : Core) (run : List Nat) (now : Nat) : Core :=
  let n := c.mxUses + 1
  { c with mxUses := n
           macs := run.foldl (fun ms i => ms.modify i fun m => { m with used := n, touched := now }) c.macs }

/-! ## Starting an operation (R163) -/

def bitsOf (mask : BitVec 16) : List Nat := (List.range 16).filter fun i => mask.getLsbD i

/-- How the matrix engine reads the scratchpad for an operation: a byte at its logical offset under a swizzle, and what is wrong
with a byte at its physical offset (R319, R322). -/
structure MxRead where
  byte : Nat → Nat → Byte
  flaw : Nat → Bool × Bool

def mxRead (s : State) (k : Nat) (g : Group) (saw : List Nat) : MxRead := ⟨mxByte s k g saw, mxFlaw s k g saw⟩

/-- What making a handle resident finds: its columns, poison, mismatch. -/
def readB (r : MxRead) (h : Handle) : List MxVec × Bool × Bool :=
  let d := mxDesc h.desc
  let runs := bRuns h.slotWord d
  ((List.range (columnsOf h.slotWord d.width)).map fun i =>
      readVec (r.byte d.swizzle) (r.byte d.swizzle) h.slotWord d.addr d.pitch d.scales i,
    runsPoisoned r.flaw d.swizzle runs, runsMismatch r.flaw d.swizzle runs)

/-- Makes the handle resident when it is not (R160): the core, the run, whether B was loaded, its poison and
mismatch; none when no run is available (R309). -/
def ensureResident (r : MxRead) (c : Core) (n : Nat) (h : Handle) : Option (Core × List Nat × Bool × Bool × Bool) :=
  if isResident c n then some (c, runOf c n, false, false, false)
  else match chooseRun c (mxDesc h.desc).width with
    | none => none
    | some run =>
      let (image, poison, miss) := readB r h
      some (makeResident c n run h.slotWord image, run, true, poison, miss)

def missIf (b : Bool) (n : Nat) : List Nat := if b then [n] else []

/-- What one execution of an `mxop` computes, and the poison and mismatches it meets (R162-R164). -/
def runOp (r : MxRead) (p : MxBlock) (slot : Wide) (h : Handle) : List (Nat × Word) × Bool × List Nat :=
  let cols := h.image.length
  let ra := vecRuns slot p.a p.aPitch p.rows
  let rs := scaleRuns slot p.aScales p.rows
  let rc := if p.cZero then [] else wordRuns p.c p.cPitch p.rows cols
  let word := fun o => BitVec.ofNat 32 (ofBytes ((List.range 4).map fun i => r.byte p.swizzle (o + i)))
  let d := (List.range p.rows).flatMap fun m =>
    let row := readVec (r.byte p.swizzle) (r.byte 0) slot p.a p.aPitch p.aScales m
    h.image.mapIdx fun n col =>
      let c : Word := if p.cZero then 0 else word (p.c + m * p.cPitch + 4 * n)
      (p.d + m * p.dPitch + 4 * n, mxElement slot h.slotWord row col c)
  (d, runsPoisoned r.flaw p.swizzle (ra ++ rc) || runsPoisoned r.flaw 0 rs,
    missIf (runsMismatch r.flaw p.swizzle ra) 0 ++ missIf (runsMismatch r.flaw 0 rs) 1 ++
      missIf (runsMismatch r.flaw p.swizzle rc) 2)

/-- One execution of the load or operation of `r`, from its start.  A handle that was described anew since the `mxop`'s
execution counts as it stands: the columns are its own, and nothing is checked again (DESIGN CHOICE, log 44). -/
def executeMx (s : State) (k : Nat) (r : MxRun) : State :=
  let s := freshenM s k r.item.thread
  let saw := ((findThread s r.item.thread).map fun (_, th) => th.saw).getD []
  let c := getCore s k
  let droop := (s.clusters.getD (clusterOf k) Cluster.reset).droop
  let put := fun (c : Core) (r : MxRun) => updCore s k fun _ => { c with mxRun := some r }
  let stop := fun (c : Core) (n : Nat) => put c { r with loads := false, run := [], d := [], misses := [], status := n }
  match findGroup s r.item.thread.group with
  | none => stop c 0
  | some g =>
    let read := mxRead s k g saw
    match r.item.work with
    | .load h _ => match c.handles.getD h none with
      | none => stop c 0
      | some rec_ => match ensureResident read (dropResidency c h) h rec_ with
        | none => stop c 1
        | some (c, run, _, poison, miss) =>
          put (useRun c run (refCycles s)) { r with
            loads := true, run := run, suspect := droop, misses := missIf miss 3, status := if poison then 3 else 0 }
    | .op b =>
      let p := mxBlock b
      match c.handles.getD p.handle none with
      | none => stop c 4
      | some rec_ => match ensureResident read c p.handle rec_ with
        | none => stop c 1
        | some (c, run, loaded, poison, miss) =>
          let c := useRun c run (refCycles s)
          let slot := (groupSlots s g.serial).getD p.slot 0
          let (d, bad, ms) := runOp read p slot ((c.handles.getD p.handle none).getD rec_)
          put c { r with
            loads := loaded, reloaded := r.reloaded || loaded, run := run, d := d, suspect := droop,
            misses := ms ++ missIf miss 3, status := if poison || bad then 3 else 0 }
    | .drop _ | .unload _ => s

/-- The record an `mxldb` leaves; an earlier record and its residency are discarded (R161). -/
def describe (c : Core) (h : Nat) (desc : BitVec 128) (slot : Wide) (owner : Nat) : Core :=
  let c := dropResidency c h
  { c with handles := c.handles.set h (some ⟨desc, slot, owner, []⟩) }

def forgetHandles (c : Core) (hs : List Nat) : Core :=
  let c := dropMany c hs
  { c with handles := hs.foldl (fun l h => l.set h none) c.handles }

/-- Starts the operation `i` of core `k`. -/
def startMx (s : State) (k : Nat) (i : MxItem) : State :=
  match i.work with
  | .drop mask => makeReady (updCore s k fun c => forgetHandles c (bitsOf mask)) i.thread
  | .unload mask =>
    -- `spwf` also orders the scratchpad stores before later reloads (R134)
    let ours := fun a => padKey i.thread.group 0 ≤ a && a < padKey (i.thread.group + 1) 0
    makeReady (updCore s k fun c =>
      { dropMany c (bitsOf mask) with mCache := c.mCache.filter fun l => !ours l.line }) i.thread
  | .load h d =>
    let slot := (groupSlots s i.thread.group).getD (mxDesc d).slot 0
    let s := updCore s k fun c => describe c h d slot i.thread.group
    executeMx s k ⟨i, 1, false, false, [], [], false, [], [], 0⟩
  | .op _ => executeMx s k ⟨i, 1, false, false, [], [], false, [], [], 0⟩

/-- Whether the thread has stores in its buffer that committed before the device issued number `n`. -/
def storesBefore (s : State) (t : ThreadRef) (n : Nat) : Bool :=
  match findThread s t with
  | some (_, th) => th.buffer.any fun st => st.order < n
  | none => false

/-- MX_OP_START (R163): the engine takes the next queued load, operation or drop once the stores its thread
committed before it are performed (R134, R163); residency drops and `mxdrop` are applied at once. -/
def execMxOpStart (core : Nat) (s : State) : Out :=
  onCore s core fun s c => match c.mxRun, c.mxQueue with
    | none, i :: rest =>
      if c.fatal || storesBefore s i.thread i.order then s
      else startMx (updCore s core fun c => { c with mxQueue := rest }) core i
    | _, _ => s

/-! ## Self-test and fencing (R312, R313) -/

/-- Sub-array `sub` of a macro fails (R313 step 1). -/
def fenceMac (m : Mac) (sub : Nat) : Mac :=
  match m.cond with
  | .clean => { m with cond := .spared, fenced := sub }
  | .spared | .out => { m with cond := .out }

def condCode : MacCond → Nat
  | .clean => 0
  | .spared => 1
  | .out => 2

def stop16 (x : BitVec 16) (n : Nat) : BitVec 16 := if x.toNat + n < 0x10000 then x + BitVec.ofNat 16 n else 0xFFFF

/-- Steps 1 and 2 of R313 for one failing sub-array, and the report to the host (R315, R357). -/
def failSub (s : State) (k mac sub : Nat) : State :=
  let c := getCore s k
  let m := fenceMac (c.macs.getD mac Mac.reset) sub
  let s := updCore s k fun c =>
    let c := dropMany c (heldIn c [mac])
    { c with macs := c.macs.set mac { m with holds := none, sums := [], errors := m.errors.filter fun e => e.1 ≠ sub }
             testsFailed := stop16 c.testsFailed 1 }
  (notify s (.selfTest k mac sub (condCode m.cond)) none).1

/-- The columns a macro holds, with the element format they are in. -/
def heldColumns (c : Core) (mac : Nat) : Nat × List MxVec :=
  match (c.macs[mac]?).bind Mac.holds with
  | none => (0, [])
  | some h => match c.handles.getD h none with
    | none => (0, [])
    | some r => (slotElem r.slotWord, macroColumns r.slotWord r.image (mac - ((runOf c h).head?).getD 0))

/-- What the test planes give for a column: its sums, with the errors of the sub-arrays (R312). -/
def testOutputs (m : Mac) (fmt column : Nat) (v : MxVec) : List (Int × Int) :=
  (columnSums fmt v).mapIdx fun sub (x, y) =>
    let e := ((m.errors.filter fun e => e.1 = sub && e.2.1 = column).map fun e => e.2.2).sum
    (x + e, y + e)

/-- The working sub-arrays of a macro whose outputs for the two test planes differ from the check sums (R312, R313). -/
def failingSubs (c : Core) (mac : Nat) : List Nat :=
  match c.macs[mac]? with
  | none => []
  | some m =>
    let (fmt, cols) := heldColumns c mac
    let outs := cols.mapIdx (testOutputs m fmt)
    (List.range 8).filter fun sub => (outs.zip m.sums).any fun (o, w) => o.getD sub (0, 0) ≠ w.getD sub (0, 0)

/-- The self-test of all the macros that an operation used, every sub-array of each, before what failed is fenced off (R312,
R313): whether one failed. -/
def testRun (s : State) (k : Nat) (run : List Nat) : State × Bool :=
  let bad := run.flatMap fun i => (failingSubs (getCore s k) i).map fun sub => (i, sub)
  (bad.foldl (fun s x => failSub s k x.1 x.2) s, !bad.isEmpty)

/-- MX_IDLE_SELF_TEST (R312): a macro that holds a resident handle, 65,536 reference cycles after its last use,
load or test, between operations. -/
def execMxIdleSelfTest (core mac : Nat) (s : State) : Out :=
  onCore s core fun s c => match c.macs[mac]? with
    | none => s
    | some m =>
      if m.holds.isNone || c.mxRun.isSome || refCycles s < m.touched + 65536 then s
      else
        let s := (testRun s core [mac]).1
        updCore s core fun c => { c with macs := c.macs.modify mac fun m => { m with touched := refCycles s } }

/-! ## Completing an operation (R163, R314) -/

def tokenWord (count : Nat) (reloaded replayed : Bool) (status : Nat) : Word :=
  BitVec.ofNat 32 (count % 2 ^ 24 + (if reloaded then 2 ^ 24 else 0) + (if replayed then 2 ^ 25 else 0) +
    status % 16 * 2 ^ 28)

/-- Writes D on path M and sets its tags to linear (R163).  Where rows of D overlap one another the later row stays
(DESIGN CHOICE, log 44). -/
def writeD (s : State) (k : Nat) (i : MxItem) (d : List (Nat × Word)) : State :=
  let cells := d.flatMap fun (o, x) => cellsAt o (toBytes x 4)
  let s := updGroup s i.thread.group fun g => setTags g cells 0
  addLate s .m i.order i.thread k true (cells.map fun c => (.pad c.1, c.2))

/-- D left unspecified (R314): every word of it is a free value. -/
def freeD : State → List (Nat × Word) → State × List (Nat × Word)
  | s, [] => (s, [])
  | s, (o, _) :: rest =>
    let (s, x) := freshFree s
    let (s, d) := freeD s rest
    (s, (o, x.setWidth 32) :: d)

/-- The token of a matrix operation is written: its D is complete (R163). -/
def endToken (s : State) (i : MxItem) (x : Word) : State :=
  writeToken (report s i.order i.thread.group (.token i.thread.row i.token)) i.thread.group i.thread.row i.token x

/-- The operands whose mismatch an execution again has cleared: those that an earlier execution found and this one read
without (R314, R323). -/
def clearedMisses (r : MxRun) : Nat :=
  if r.status = 1 || r.status = 4 then 0 else (r.missed.filter fun o => !r.misses.contains o).length

/-- The operation ends with a status: D, the residency it leaves, the mismatches that its executions have cleared (event 19 of
R363), and the token (R163, R310, R314, R323).  With status 2 or 3
D is unspecified, and the count of words written with it: both are free values (DESIGN CHOICE for the count, log 44). -/
def endMx (s : State) (k : Nat) (r : MxRun) (status : Nat) : State :=
  let t := r.item.thread
  let replayed := 1 < r.executions
  let s := bump (updCore s k fun c => { c with mxRun := none }) k 19 ((findGroup s t.group).map Group.stage) (clearedMisses r)
  let s := if r.run.isEmpty then s else updCore s k fun c =>
    { c with macs := r.run.foldl (fun ms i => ms.modify i fun m => { m with touched := refCycles s }) c.macs }
  let drop := fun (s : State) (h : Nat) => if (status = 2 || status = 3) && r.loads then
    updCore s k fun c => dropResidency c h else s
  match r.item.work with
  | .load h _ =>
    let s := drop s h
    endToken s r.item (tokenWord (if status = 0 then r.run.length else 0) false replayed status)
  | .op b =>
    let s := bump s k 20 ((findGroup s t.group).map Group.stage) 1
    let s := drop s (mxBlock b).handle
    if status = 0 then
      endToken (writeD s k r.item r.d) r.item (tokenWord r.d.length r.reloaded replayed 0)
    else if status = 2 || status = 3 then
      let (s, d) := freeD s r.d
      let (s, n) := freshFree s
      endToken (writeD s k r.item d) r.item (tokenWord n.toNat r.reloaded replayed status)
    else endToken s r.item (tokenWord 0 r.reloaded replayed status)
  | .drop _ | .unload _ => s

/-- A suspect operation runs again from its start (R313, R314): B that this execution loaded is loaded again. -/
def reexecute (s : State) (k : Nat) (r : MxRun) : State :=
  let s := bump (updCore s k fun c => { c with reexecutions := stop16 c.reexecutions 1 }) k 21
    ((findGroup s r.item.thread.group).map Group.stage) 1
  let s := match r.item.work with
    | .op b => if r.loads then updCore s k fun c => dropResidency c (mxBlock b).handle else s
    | _ => s
  executeMx s k { r with executions := r.executions + 1, missed := r.missed ++ r.misses }

/-- MX_OP_COMPLETE (R314): an execution forms its results and is tested; it is executed again, or D and its
token are written. -/
def execMxOpComplete (core : Nat) (s : State) : Out :=
  onCore s core fun s c => match c.mxRun with
    | none => s
    | some r =>
      if r.status ≠ 0 then endMx s core r r.status
      else
        let (s, failed) := testRun s core r.run
        if r.misses.any r.missed.contains then endMx s core r 2
        else if !failed && !r.suspect && r.misses.isEmpty then endMx s core r 0
        else if 4 ≤ r.executions then endMx s core r 2
        else reexecute s core r

end Sys2Proof.Machine
end

