-- ==== Sys2Proof/Machine/Drain.lean ====
section
/-!
DEFINITION. Stores on their way from the store buffers to memory (R110, R113, R217, R235), the work of releases
and acquires (R121, R126, R237), and pushes and pops at a FIFO bank (R136).
-/

namespace Sys2Proof.Machine

/-! ## Leaving the store buffer (R110) -/

def memCells (bytes : List (Loc × Byte)) : List Host.Cell :=
  bytes.filterMap fun c => match c.1 with
    | .mem a => some (a, c.2)
    | .pad _ => none
def padCells (bytes : List (Loc × Byte)) : List Host.Cell :=
  bytes.filterMap fun c => match c.1 with
    | .pad o => some (o, c.2)
    | .mem _ => none

/-- Scratchpad bytes written on path V for core `k`: they enter the coherence order, and supersede what unseen engine
writes hold there (R236). -/
def writePad (s : State) (k : Nat) (by_ : List ThreadRef) (group : Nat) (cells : List Host.Cell) : State :=
  padPerform (cutLate s group cells) .v (some k) by_ group cells

/-- An ordinary store to the scratchpad also makes the tags of the 1 KiB it touches linear (R110). -/
def storePad (s : State) (k : Nat) (by_ : List ThreadRef) (group : Nat) (cells : List Host.Cell) : State :=
  if cells.isEmpty then s else updGroup (writePad s k by_ group cells) group fun g => setTags g cells 0

/-- An ordinary store of a thread enters L1 or the scratchpad (R235). -/
def performStore (s : State) (k : Nat) (t : ThreadRef) (st : Store) : State :=
  let mem := memCells st.bytes
  storePad (if mem.isEmpty then s else storeL1 s k st.keep st.low mem) k [t] t.group (padCells st.bytes)

/-- A write at the home slice of core `k`'s die that follows every earlier write of the core to these bytes:
what L1 holds of them goes (R222).  It clears the poison of the sectors it writes whole (R319). -/
def performHome (s : State) (k : Nat) (cells : List Host.Cell) : State :=
  performWith (dropWritten s k cells) (dieOf k) .v (some k) cells true [] Flaws.none

/-- The store whose turn it is in a thread's buffer. -/
def headStore (th : Thread) : Option Store := th.buffer.head?

/-- Whether a store must wait for an earlier reduction of its own thread to the same bytes (R236). -/
def storeBlocked (s : State) (t : ThreadRef) (st : Store) : Bool :=
  s.reductions.any fun r => r.thread = t && r.id ≤ st.order &&
    st.bytes.any fun c => overlaps r.loc c.1 (typeWidth r.type) 1

/-- The threads of a row that take part in a `.line` event. -/
def lineMembers (g : Group) (row id : Nat) : List Thread :=
  g.threads.filter fun th => th.row = row && th.buffer.any fun st => st.event = some id

/-- A `.line` event leaves as one when every thread of the row has committed or discarded its part and each part
is at the head of its buffer (R113). -/
def lineReady (g : Group) (row id : Nat) : Bool :=
  (g.threads.all fun th => th.row ≠ row || th.seg.stores.all fun st => st.event ≠ some id) &&
  ((lineMembers g row id).all fun th => ((headStore th).map Store.event) = some (some id))

/-- What a load on path S has read of a thread's own store is at the home slice when the store leaves the buffer, and no older
line of it stays in the core's S-path cache: no later load there reads an older byte (R236). -/
def showSeen (s : State) (k : Nat) (st : Store) : State :=
  if !st.seen then s
  else
    let addrs := (memCells st.bytes).map Prod.fst
    updCore (writeBack s k addrs.contains) k fun c => { c with sCache := dropLines addrs c.sCache }

def popStore (s : State) (t : ThreadRef) : State := updThread s t fun th => { th with buffer := th.buffer.drop 1 }

/-- The whole `.line` event of a row is performed at the home slice. -/
def performLine (s : State) (k : Nat) (g : Group) (row id : Nat) : State :=
  let parts := lineMembers g row id
  let bytes := parts.flatMap fun th => ((headStore th).map Store.bytes).getD []
  let mem := memCells bytes
  let pad := padCells bytes
  let s := if mem.isEmpty then s else performHome s k mem
  let s := (parts.filterMap headStore).foldl (fun s st => showSeen s k st) s
  let s := if pad.isEmpty then s else clearPadPoison (storePad s k (parts.map fun th => ⟨g.serial, th.row, th.lane⟩) g.serial pad) g.serial pad
  parts.foldl (fun s th => popStore s ⟨g.serial, th.row, th.lane⟩) s

/-- The oldest store of a thread's buffer leaves it, if it may. -/
def drainOne (s : State) (t : ThreadRef) : State :=
  match findThread s t with
  | none => s
  | some (g, th) => match g.core, headStore th with
    | some k, some st =>
      if storeBlocked s t st then s
      else match st.event with
        | none => refreshReady s (popStore (showSeen (performStore s k t st) k st) t) g.serial
        | some id => if lineReady g t.row id then refreshReady s (performLine s k g t.row id) g.serial else s
    | _, _ => s

def bufferSize (s : State) (t : ThreadRef) : Nat := ((findThread s t).map fun (_, th) => th.buffer.length).getD 0

/-- Stores leave a thread's buffer in program order until one must wait. -/
def drainSome : Nat → State → ThreadRef → State
  | 0, s, _ => s
  | n + 1, s, t => drainSome n (drainOne s t) t

def drainThread (s : State) (t : ThreadRef) : State := drainSome (bufferSize s t) s t

/-- STORE_DRAIN (R110): the oldest committed store of a thread leaves its buffer and is performed. -/
def execStoreDrain (t : ThreadRef) (s : State) : Out := .next (drainOne s t)

/-! ## Release and acquire (R121, R126, R237) -/

/-- Every write of either die is applied at the other (R242). -/
def toAll (s : State) : State := toDevice (toDevice s 0) 1

/-- The engine writes to its group's scratchpad whose completion the thread has read, which the release orders before what
follows it (R133, R163, R240). -/
def settleRead (s : State) (t : ThreadRef) : State :=
  match findThread s t with
  | some (_, th) => settleLate s fun l => l.by_.group = t.group && th.saw.contains l.id && !l.pad.isEmpty && l.mem.isEmpty
  | none => s

/-- What a release of a thread does: the engine writes it has read about are performed, its stores leave the buffer, dirty
L1 bytes go down as far as the scope needs, and at device and system scope every write is exported and applied (R126, R235,
R240, R242). -/
def releaseWork (s : State) (t : ThreadRef) (k scope : Nat) : State :=
  let s := drainThread (settleRead s t) t
  let s := if 3 ≤ scope then writeBack s k fun _ => true else s
  if 4 ≤ scope then toAll s else s

/-- Whether every earlier V-path write of the thread has left it: no store waits and no reduction is in flight. -/
def releaseDone (s : State) (t : ThreadRef) : Bool :=
  bufferSize s t = 0 && s.reductions.all fun r => r.thread ≠ t

/-- Whether what a release had to perform is performed at the scope: at device scope and wider, the other die has
applied every write of this one (R235, R242). -/
def scopeDone (s : State) (k scope : Nat) : Bool := scope < 4 || deviceDone s (dieOf k)

/-- An acquire at die scope or wider invalidates the clean lines of the core's L1 (R126). -/
def acquireWork (s : State) (k scope : Nat) : State := if 3 ≤ scope then invalidateL1 s k else s

/-! ## Registers written after commit -/

def setBit8 (p : BitVec 8) (i : Nat) (x : Bool) : BitVec 8 :=
  (p &&& ~~~(1#8 <<< i)) ||| (if x then 1#8 <<< i else 0)

/-- A counter configuration takes effect: reserved bits read as zero, and the counter clears (R362). -/
def setCntCfg (s : State) (k i : Nat) (x : Word) : State :=
  updCore s k fun c => { c with cntCfg := c.cntCfg.set i (x &&& 0x3FFFF), counters := c.counters.set i 0 }

/-- A write of a system register at commit (R151). -/
def writeSys (s : State) (k : Nat) (t : ThreadRef) (n : Nat) (x : Word) : State :=
  let th := fun (f : Thread → Thread) => updThread s t f
  match n with
  | 0x001 => th fun th => { th with memStatus := sysStore n th.memStatus x }
  | 0x008 => th fun th => { th with faultInfo := sysStore n th.faultInfo x }
  | 0x009 => th fun th => { th with faultPc := sysStore n th.faultPc x }
  | 0x00A => th fun th => { th with faultHdr := sysStore n th.faultHdr x }
  | 0x00B => th fun th => { th with data0 := sysStore n th.data0 x }
  | 0x00C => th fun th => { th with data1 := sysStore n th.data1 x }
  | 0x020 => updCore s k fun c => { c with hintDrops := sysStore n c.hintDrops x }
  | n => if 0x030 ≤ n && n < 0x040 then setCntCfg s k (n - 0x030) x else s

/-- A scalar register takes the value of commit number `n` (R17). -/
def Row.put (r : Row) (n i : Nat) (x : Word) : Row :=
  { r with s := r.s.set i x, marks := r.marks.filter (· ≠ i), held := (i, n) :: r.held.filter fun h => h.1 ≠ i }

def commitOf (s : State) (t : ThreadRef) : Nat := ((findThread s t).map fun (_, th) => th.commit).getD 0

/-- Whether a commit later than the thread's has written the register that one of its writes names (R17). -/
def overtaken (s : State) (t : ThreadRef) (w : RegWrite) : Bool :=
  match w with
  | .s i _ => (((findGroup s t.group).bind fun g => g.rows[t.row]?).map fun r =>
      r.held.any fun h => h.1 = i && commitOf s t < h.2).getD false
  | _ => false

/-- The threads of a group continue at the same offsets from a new g0 base: their bits stand at new keys (R155, R186). -/
def rekeyGroup (s : State) (group : Nat) : State :=
  match findGroup s group with
  | none => s
  | some g => (g.threads.filter fun th => th.status ≠ .exited && th.status ≠ .running).foldl
      (fun s th => joinTable s ⟨group, th.row, th.lane⟩) s

/-- A held write becomes architectural and clears the register's poison mark (R17, R337). -/
def applyWrite (k : Nat) (t : ThreadRef) (s : State) (w : RegWrite) : State :=
  match w with
  | .v i x => updThread s t fun th => { th with v := th.v.set i x, marks := th.marks.filter (· ≠ .v i) }
  | .p i x => updThread s t fun th => { th with p := setBit8 th.p i x, marks := th.marks.filter (· ≠ .p i) }
  | .k i x => updThread s t fun th => { th with k := th.k.set i x, marks := th.marks.filter (· ≠ .k i) }
  | .s i x => updGroup s t.group fun g => g.updRow t.row fun r => r.put (commitOf s t) i x
  | .b i x => updGroup s t.group fun g => { g with b := g.b.set i x, marks := g.marks.filter (· ≠ .b i) }
  | .g i x =>
    let s := updGroup s t.group fun g => { g with g := g.g.set i x, marks := g.marks.filter (· ≠ .g i) }
    if i = 0 then rekeyGroup s t.group else s
  | .sys n x => writeSys s k t n x

def applyWrites (s : State) (k : Nat) (t : ThreadRef) (ws : List RegWrite) : State := ws.foldl (applyWrite k t) s

/-- The writes of an effect that completes after its commit: a scalar that a later commit has written keeps that value
(R17). -/
def returnResult (s : State) (k : Nat) (t : ThreadRef) (ws : List RegWrite) : State :=
  applyWrites s k t (ws.filter fun w => !overtaken s t w)

/-- The guard predicate of a timed-out wait or a failed `.try` is written 0 (R124, R136). -/
def clearGuard (s : State) (k : Nat) (t : ThreadRef) (guard : Nat) : State :=
  if guard = 0 then s else applyWrite k t s (.p guard false)

/-! ## Hardware queues at the bank (R135, R136) -/

def updBank (s : State) (k bank : Nat) (f : Bank → Bank) : State :=
  updCore s k fun c => { c with banks := c.banks.modify bank f }
def getBank (s : State) (k bank : Nat) : Bank := (getCore s k).banks.getD bank Bank.reset

/-- The scope of a queue operation, widened to contain both cores (R136). -/
def queueScope (scope k kb : Nat) : Nat :=
  if k = kb then scope else if dieOf k = dieOf kb then max scope 3 else max scope 4

/-- A register that is written after commit is a scalar that has become pending: the write waits (R19). -/
def destPending (s : State) (t : ThreadRef) (wide : Bool) (d : Operand) : Bool :=
  match findGroup s t.group with
  | none => false
  | some g => (destWrites wide 0 d).1.any fun w => match w with
    | .s i _ => scalarPending g t.row i
    | _ => false

/-- Whether the release of a push that was accepted early is complete (R136). -/
def holdDone (s : State) (h : PushHold) : Bool :=
  !storesBefore s h.thread h.order && (s.reductions.all fun r => r.thread ≠ h.thread || h.order ≤ r.id) &&
    scopeDone s h.core h.scope

/-- The releases of early pushes go on; the entries of those that are complete may be popped. -/
def settleHolds (s : State) (kb bank : Nat) : State :=
  let s := (getBank s kb bank).holds.foldl (fun s h => releaseWork s h.thread h.core h.scope) s
  updBank s kb bank fun b => { b with holds := b.holds.filter fun h => !holdDone s h }

/-- The entries a push brings, low word first (R135). -/
def pushWords (wide : Bool) (data : Wide) : List Word :=
  if wide then [data.setWidth 32, data.extractLsb' 32 32] else [data.setWidth 32]

/-- The value a pop takes, and the bank without its entries; none when too few may be taken. -/
def takeEntries (b : Bank) (wide : Bool) : Option (Wide × Bank) :=
  let n := if wide then 2 else 1
  if b.entries.length < n || b.holds.any (fun h => h.at_ < n) then none
  else some (if wide then b.entries.getD 1 0 ++ b.entries.getD 0 0 else (b.entries.getD 0 0).setWidth 64,
    { b with entries := b.entries.drop n, popped := b.popped + n, holds := b.holds.map fun h => { h with at_ := h.at_ - n } })

/-- The word of the bank at which its first poisoned entry of a pop stands, if one does (R319, R337). -/
def poisonedEntry (b : Bank) (wide : Bool) : Option Nat :=
  ((List.range (if wide then 2 else 1)).map fun i => (b.popped + i) % 4096).find? fun w => b.bad.contains (w / 32)

/-- A pop that has taken a poisoned entry does not write d: it takes POISON, found after commit, and its thread continues
after it (R195, R319, R337; DESIGN CHOICE, log 51). -/
def popPoisoned (s : State) (t : ThreadRef) (word : Nat) : State :=
  match findThread s t with
  | some (_, th) => takeFault s t
      ⟨Code.poison.bits, true, th.pc, th.hdr, BitVec.ofNat 32 (4 * word), 0, some (.thread t)⟩ false
  | none => s

/-- The outcome of a queue operation that reaches its bank: none when the bank cannot serve it now. -/
def serveQueue (s : State) (k : Nat) (t : ThreadRef) : Effect → Option State
  | .push bank kb wide _ data scope _ =>
    let sc := queueScope scope k kb
    let s := releaseWork s t k sc
    if (getBank s kb bank).entries.length + (pushWords wide data).length ≤ 4096 && releaseDone s t && scopeDone s k sc then
      some (updBank s kb bank fun b => { b with entries := b.entries ++ pushWords wide data })
    else none
  | .pop bank kb wide _ d scope _ =>
    if destPending s t wide d then none else
    let s := settleHolds s kb bank
    (takeEntries (getBank s kb bank) wide).map fun (x, b) =>
      let bad := poisonedEntry (getBank s kb bank) wide
      let s := updBank s kb bank fun _ => b
      match bad with
      | some word => popPoisoned s t word
      | none => acquireWork (returnResult s k t (destWrites wide x d).1) k (queueScope scope k kb)
  | _ => none

def queueOf : Effect → Option (Nat × Nat × Bool × Nat)
  | .push bank kb _ try_ _ _ guard => some (bank, kb, try_, guard)
  | .pop bank kb _ try_ _ _ guard => some (bank, kb, try_, guard)
  | _ => none

/-- Whether the operation is a push. -/
def isPush : Effect → Bool
  | .push .. => true
  | _ => false

/-- A `.try` push that finds space before its release is complete: its entries are accepted, and no pop takes them before
the release is (R136). -/
def pushEarly (s : State) (k : Nat) (t : ThreadRef) : Effect → Option State
  | .push bank kb wide _ data scope _ =>
    let n := (getBank s kb bank).entries.length
    if n + (pushWords wide data).length ≤ 4096 then
      let s := { s with serial := s.serial + 1 }
      some (updBank s kb bank fun b => { b with
        entries := b.entries ++ pushWords wide data
        holds := b.holds ++ [⟨n, t, k, queueScope scope k kb, s.serial⟩] })
    else none
  | _ => none

/-- A `.try` operation never waits: it is served, or it does nothing and clears its guard predicate (R136). -/
def tryQueue (s : State) (k : Nat) (t : ThreadRef) (e : Effect) (guard : Nat) : State :=
  ((serveQueue s k t e).or (pushEarly s k t e)).getD (clearGuard s k t guard)

/-- What a parked thread of a bank waits for, with its core; none while its group is on none. -/
def parkedOp (s : State) (t : ThreadRef) : Option (Nat × Effect) :=
  match findThread s t with
  | some (g, th) => match g.core, th.waiting with
    | some k, some e => some (k, e)
    | _, _ => none
  | none => none

/-- The oldest parked pusher, or the oldest parked popper, of a bank (R136). -/
def firstParked (s : State) (kb bank : Nat) (push : Bool) : Option ThreadRef :=
  (getBank s kb bank).parked.find? fun t => (parkedOp s t).any fun o => isPush o.2 == push

/-- A thread whose effect has completed becomes ready, unless the effect faulted. -/
def readyUnlessFaulted (s : State) (t : ThreadRef) : State :=
  match findThread s t with
  | some (_, th) => if th.status = .parkedEffect then makeReady s t else s
  | none => s

/-- A parked thread is served, if its bank can serve it now. -/
def serveParked (s : State) (kb bank : Nat) (t : ThreadRef) : Option State :=
  (parkedOp s t).bind fun (k, e) => (serveQueue s k t e).map fun s =>
    readyUnlessFaulted (updBank s kb bank fun b => { b with parked := b.parked.filter (· ≠ t) }) t

/-- QUEUE_SERVE (R136): the oldest parked pusher of a bank is served once the bank has space for it, or the oldest parked
popper once it has the entries. -/
def execQueueServe (core bank : Nat) (s : State) : Out :=
  onCore s core fun s _ =>
    let try_ := fun push => (firstParked s core bank push).bind (serveParked s core bank)
    ((try_ true).or (try_ false)).getD s

end Sys2Proof.Machine
end

