-- ==== Sys2Proof/Machine/Scoreboard.lean ====
section
/-!
DEFINITION. The tile scoreboard: ring records and tile tables (R173, R284), references and reader counts (R277),
the states of a tile (R279-R281), stalls (R263, R283, R285), poisoned tiles (R282) and handed groups (R300).
-/

namespace Sys2Proof.Machine

/-! ## Tiles and records -/

/-- The number of tile (x, y), when it is in range (R273). -/
def tileNumber (r : Resource) (x y : Int) : Option Nat :=
  if 0 ≤ x && x < r.tilesX && 0 ≤ y && y < r.tilesY then some (y.toNat * r.tilesX + x.toNat) else none

/-- The number of a resource's tile at a group's own tile (R270). -/
def ownTile (p : Pass) (g : Group) (r : Resource) : Option Nat := tileNumber r (g.x + p.originX : Nat) (g.y + p.originY : Nat)

/-- The tiles a consumer group covers (R277). -/
def coveredTiles (resources : List Resource) (p : Pass) (g : Group) : List (Nat × Nat) :=
  p.reads.flatMap fun d => match resources[d.res]? with
    | some r => d.offsets.filterMap fun (dx, dy) =>
        (tileNumber r ((g.x + p.originX : Nat) + dx) ((g.y + p.originY : Nat) + dy)).map fun n => (d.res, n)
    | none => []

/-- A ring record (R284, fields of R208). -/
def ringRecord (base : Nat) (r : Resource) (extent : Nat) (ro : Bool) : BitVec 128 :=
  BitVec.ofNat 16 0 ++ 1#1 ++ BitVec.ofNat 4 r.format ++ 0#2 ++ 0#1 ++ BitVec.ofBool ro ++ BitVec.ofNat 4 r.swizzle ++
    0#3 ++ BitVec.ofNat 32 extent ++ BitVec.ofNat 16 r.elemStride ++ BitVec.ofNat 48 base

/-- Where a placed tile starts: an offset in the ring segment, or a board-tier address (R284). -/
def placeBase (r : Resource) (e : Entry) : Nat :=
  if e.inOverflow then r.overflowBase + e.place * tileBytes r else r.ringBase + e.slot * tileBytes r

def entryRecord (r : Resource) (e : Entry) (ro : Bool) : BitVec 128 := ringRecord (placeBase r e) r 4096 ro

/-- Changes a group's hold of a tile, making one where there is none. -/
def updHold (g : Group) (res tile : Nat) (f : TileHold → TileHold) : Group :=
  if g.tiles.any fun h => h.res = res && h.tile = tile then
    { g with tiles := g.tiles.map fun h => if h.res = res && h.tile = tile then f h else h }
  else { g with tiles := g.tiles ++ [f ⟨res, tile, [], false, false, false⟩] }

def findHold (g : Group) (res tile : Nat) : Option TileHold := g.tiles.find? fun h => h.res = res && h.tile = tile

/-- The device writes a ring record for a parked thread: the record enters the group's tile table, `b`*m* takes it,
and the thread becomes ready (R169, R171, R173). -/
def grantRecord (s : State) (t : ThreadRef) (b res tile : Nat) (r : BitVec 128) (acquired : Bool) : State :=
  let s := updGroup s t.group fun g => updHold g res tile fun h =>
    { h with records := if h.records.contains r then h.records else h.records ++ [r]
             acquired := h.acquired || acquired, opened := h.opened || !acquired }
  makeReady (applyWrite 0 t s (.b b r)) t

/-- The record of a tile operation that fails at the scoreboard (R168). -/
def tileFault (s : State) (t : ThreadRef) : State :=
  match findThread s t with
  | some (_, th) => match th.waiting with
    | some (.tile _ _ b pc) =>
      takeFault s t ⟨Code.ringViolation.bits, true, th.pc, th.hdr, b, pc, some (.thread t)⟩ false
    | _ => s
  | none => s

/-- The threads of a graph parked in a tile operation of a tile which the scoreboard has already taken. -/
def parkedOn (s : State) (ctx res tile : Nat) (p : TileOp → Bool) : List (ThreadRef × TileOp) :=
  match findGraph s ctx with
  | none => []
  | some gr => match gr.resources[res]? with
    | none => []
    | some r => (s.groups.filter fun g => g.ctx = ctx).flatMap fun g => g.threads.filterMap fun th =>
      let t : ThreadRef := ⟨g.serial, th.row, th.lane⟩
      match th.status, th.waiting with
      | .parkedEffect, some (.tile op n b _) =>
        if n = res && p op && tileNumber r (tileX b) (tileY b) = some tile && !gr.requests.any (fun q => q.thread = t)
        then some (t, op) else none
      | _, _ => none

def isAcquire : TileOp → Bool
  | .acquire _ => true
  | _ => false
def isDone : TileOp → Bool
  | .done => true
  | _ => false
def isOpen : TileOp → Bool
  | .open _ => true
  | _ => false

/-- Every thread that waits for the tile receives its place (R279). -/
def grantAcquirers (s : State) (ctx res tile : Nat) : State :=
  match (findGraph s ctx).bind fun gr => (gr.resources[res]?).bind fun r => (gr.entry res tile).map fun e => (r, e) with
  | none => s
  | some (r, e) => (parkedOn s ctx res tile isAcquire).foldl (fun s (t, op) => match op with
      | .acquire b => grantRecord s t b res tile (entryRecord r e false) true
      | _ => s) s

/-! ## Places (R263, R275, R279, R283) -/

def stallStart (e : Entry) : Option Nat :=
  match e.phase with
  | .stalled n => some n
  | _ => none

/-- The stalled tile of a ring that has stalled longest among those that satisfy `p`; equal starts go by tile
number (R283). -/
def longestStalled (gr : Graph) (res : Nat) (p : Nat → Bool) : Option Entry :=
  gr.entries.foldl (fun best e => match stallStart e with
    | some n =>
      if e.res ≠ res || !p n then best
      else match best with
        | none => some e
        | some b => match stallStart b with
          | some m => if n < m || (n = m && e.tile < b.tile) then some e else best
          | none => some e
    | none => best) none

/-- Inserts a place number in ascending order. -/
def insertPlace (n : Nat) : List Nat → List Nat
  | [] => [n]
  | m :: rest => if n ≤ m then n :: m :: rest else m :: insertPlace n rest

/-- Storage that is given to a tile: what it held before is gone, and its bytes are new unspecified ones (R364). -/
def renew (s : State) (ranges : List (Nat × Nat)) : State :=
  let inside := fun a => ranges.any fun r => r.1 ≤ a && a < r.1 + r.2
  let n := s.freeCount
  let new := ranges.mapIdx fun i r => (r.1, r.2, n + i)
  let old := s.slotGen.filter fun g => !(ranges.any fun r => r.1 ≤ g.1 && g.1 + g.2.1 ≤ r.1 + r.2)
  forgetBytes { s with
    freeCount := n + ranges.length, slotGen := new ++ old
    dies := s.dies.map fun d =>
      { d with mem := Memory.drop d.mem inside, stamps := d.stamps.filter fun x => !inside x.1 } } inside

/-- The storage of a slot, and that of an overflow place, by 1 KiB, as far as it is mapped (R273, R284). -/
def slotStorage (r : Resource) (slot : Nat) : List (Nat × Nat) := [(ringStorage (r.ringBase + slot * tileBytes r), tileBytes r)]
def overflowStorage (s : State) (r : Resource) (place : Nat) : List (Nat × Nat) :=
  (List.range (tileBytes r / 1024)).filterMap fun i =>
    match translateH s (r.overflowBase + place * tileBytes r + 1024 * i) .write with
    | .ok a false => some (a, 1024)
    | _ => none

/-- A place given to a tile has new bytes (R364). -/
def renewPlace (s : State) (ctx res : Nat) (ranges : Resource → List (Nat × Nat)) : State :=
  match (findGraph s ctx).bind fun gr => gr.resources[res]? with
  | some r => renew s (ranges r)
  | none => s

def giveSlot (s : State) (ctx res tile slot : Nat) : State :=
  grantAcquirers (updEntry (renewPlace s ctx res fun r => slotStorage r slot) ctx res tile fun e =>
    { e with phase := .acquired, placed := true, inOverflow := false, slot := slot }) ctx res tile
def giveOverflow (s : State) (ctx res tile place : Nat) : State :=
  grantAcquirers (updEntry (renewPlace s ctx res fun r => overflowStorage s r place) ctx res tile fun e =>
    { e with phase := .acquired, placed := true, inOverflow := true, place := place }) ctx res tile

/-- A freed slot goes to the longest-stalled producer; without one it stays free (R263, R283).  A freed overflow place is
handed on by RING_STALL_THRESHOLD, after every slot freed in the same cycle (R283). -/
def handOn (s : State) (ctx : Nat) (e : Entry) : State :=
  match findGraph s ctx with
  | none => s
  | some gr =>
    let now := refCycles s
    let s := updResource s ctx e.res fun r => { r with lastFree := now, noticed := false }
    if e.inOverflow then updResource s ctx e.res fun r => { r with freePlaces := insertPlace e.place r.freePlaces }
    else match longestStalled gr e.res fun _ => true with
      | some x => giveSlot s ctx e.res x.tile e.slot
      | none => updResource s ctx e.res fun r => { r with freeSlots := insertPlace e.slot r.freeSlots }

/-- The entry is freed; its last place stays recorded (R279). -/
def freeEntry (s : State) (ctx res tile : Nat) : State :=
  match (findGraph s ctx).bind fun gr => gr.entry res tile with
  | none => s
  | some e =>
    let s := updEntry s ctx res tile fun e => { e with phase := .freed }
    if e.placed then handOn s ctx e else s

/-! ## References (R277) -/

/-- A group gives up one reference, once; the count of a retired tile that reaches 0 frees it. -/
def releaseRef (s : State) (group res tile : Nat) : State :=
  match findGroup s group with
  | none => s
  | some g =>
    if !g.refs.contains (res, tile) then s
    else
      let s := updGroup s group fun g => { g with refs := g.refs.filter (· ≠ (res, tile)) }
      match (findGraph s g.ctx).bind fun gr => gr.entry res tile with
      | none => s
      | some e =>
        if e.phase ≠ .retired then s
        else
          let s := updEntry s g.ctx res tile fun e => { e with readers := e.readers - 1 }
          if e.readers ≤ 1 then freeEntry s g.ctx res tile else s

def releaseAll (s : State) (group : Nat) : State :=
  ((findGroup s group).map Group.refs).getD [] |>.foldl (fun s (res, tile) => releaseRef s group res tile) s

/-- References not yet released to a tile (R277). -/
def countRefs (s : State) (ctx res tile : Nat) : Nat :=
  (s.groups.filter fun g => g.ctx = ctx && g.refs.contains (res, tile)).length

/-! ## Release for dispatch, and retirement of a tile (R278-R281) -/

def readyToDispatch (gr : Graph) (g : Group) : Bool :=
  g.refs.all fun (res, tile) => match gr.entry res tile with
    | some e => e.retired && !e.poisoned
    | none => true

/-- Groups all of whose covered tiles have retired enter their queue (R278, R291). -/
def releaseGroups (s : State) (ctx : Nat) : State :=
  match findGraph s ctx with
  | none => s
  | some gr =>
    let now := refCycles s
    { s with groups := s.groups.map fun g =>
        if g.ctx = ctx && g.phase = .undispatched && readyToDispatch gr g then { g with phase := .queued now } else g }

/-- The tile's records leave the tile tables of the groups that acquired it (R173).  Where several groups of a pass have
acquired the tile R173 does not say whether the retirement by one of them ends the hold of the others: it does here (DESIGN
CHOICE, log 56). -/
def dropAcquired (s : State) (ctx res tile : Nat) : State :=
  { s with groups := s.groups.map fun g =>
      if g.ctx = ctx then
        { g with tiles := g.tiles.map fun h =>
            if h.res = res && h.tile = tile && h.acquired then { h with records := [], acquired := false } else h }
      else g }

/-- A record with extent 0, for a tile out of range or an empty one; its base is a free value (R171, R281). -/
def emptyRecord (s : State) (r : Resource) : State × BitVec 128 :=
  let (s, x) := freshFree s
  (s, ringRecord (x.toNat % 2 ^ 48) r 0 true)

/-- A `tlrd` of a retired tile is granted: the open is an acquire on path G (R171, R249, R281). -/
def grantOpen (s : State) (r : Resource) (e : Entry) (t : ThreadRef) (b : Nat) : State :=
  let s := match (findGroup s t.group).bind Group.core with
    | some k => seeTiles s k
    | none => s
  if e.empty then
    let (s, x) := emptyRecord s r
    grantRecord s t b e.res e.tile x false
  else grantRecord s t b e.res e.tile (entryRecord r e true) false

/-- The threads that were parked in `tlrd` before the tile retired receive their records. -/
def grantOpeners (s : State) (ctx res tile : Nat) : State :=
  match (findGraph s ctx).bind fun gr => (gr.resources[res]?).bind fun r => (gr.entry res tile).map fun e => (r, e) with
  | none => s
  | some (r, e) => (parkedOn s ctx res tile isOpen).foldl (fun s (t, op) => match op with
      | .open b => grantOpen s r e t b
      | _ => s) s

/-- The tile's retired bit is set and its reader count with it; threads parked in `tldone` go on, and a tile that
nobody references is freed at once (R170, R277). -/
def retireEntry (s : State) (ctx res tile : Nat) (empty : Bool) : State :=
  let n := countRefs s ctx res tile
  let waiting := parkedOn s ctx res tile isDone
  let s := updEntry s ctx res tile fun e =>
    { e with phase := .retired, retired := true, empty := empty, readers := n }
  let s := if empty then s else dropAcquired s ctx res tile
  let s := grantOpeners (waiting.foldl (fun s (t, _) => makeReady s t) s) ctx res tile
  let s := if n = 0 then freeEntry s ctx res tile else s
  releaseGroups s ctx

/-! ## Poisoned tiles (R282) -/

/-- A tile that has not retired will never hold valid contents: its acquirers fault and its place is freed (R282).  R282
speaks of threads parked in an acquire alone: another group of the pass that has acquired the tile keeps its record of it, and a
thread parked in `tldone` of it stays parked until its pass ends (DESIGN CHOICE, log 29). -/
def poisonOne (s : State) (ctx res tile : Nat) : State :=
  match (findGraph s ctx).bind fun gr => gr.entry res tile with
  | none => s
  | some e =>
    if e.retired || e.phase = .freed then s
    else
      let s := (parkedOn s ctx res tile isAcquire).foldl (fun s (t, _) => tileFault s t) s
      freeEntry (updEntry s ctx res tile fun e => { e with poisoned := true }) ctx res tile

/-- The tiles of a pass's written resources at a group's own tile. -/
def writtenTiles (s : State) (g : Group) : List (Nat × Nat) :=
  match findGraph s g.ctx with
  | none => []
  | some gr => match gr.passes[g.stage]? with
    | none => []
    | some p => p.writes.filterMap fun res =>
        (gr.resources[res]?).bind fun r => (ownTile p g r).map fun tile => (res, tile)

/-- A consumer group of a poisoned tile is failed without dispatch. -/
def failGroup (s : State) (g : Group) : State :=
  let s := releaseAll s g.serial
  let s := updPass s g.ctx g.stage fun p => { p with failed := true }
  updGroup s g.serial fun g => { g with phase := .retired }

/-- Poisons tiles, fails the groups that cover them, and goes on with the tiles those would have written. -/
def poisonTiles : Nat → State → Nat → List (Nat × Nat) → State
  | 0, s, _, _ => s
  | _, s, _, [] => s
  | n + 1, s, ctx, (res, tile) :: rest =>
    let s := poisonOne s ctx res tile
    let poisoned := (((findGraph s ctx).bind fun gr => gr.entry res tile).map Entry.poisoned).getD false
    let hit := if poisoned then
        s.groups.filter fun g => g.ctx = ctx && g.phase = .undispatched && g.refs.contains (res, tile)
      else []
    poisonTiles n (hit.foldl failGroup s) ctx (rest ++ hit.flatMap (writtenTiles s))

/-! ## When groups have retired (R280, R281, R300) -/

/-- The groups of a pass. -/
def passGroups (s : State) (ctx stage : Nat) : List Group := s.groups.filter fun g => g.ctx = ctx && g.stage = stage

def allRetired (s : State) (ctx stage : Nat) : Bool := (passGroups s ctx stage).all fun g => g.phase = .retired

def entryFree (e : Entry) : Bool := e.phase = .free

/-- Once a pass's last group has retired, its untouched ring tiles retire empty, and the tiles of its external
resources that no group covers begin to retire (R280, R281). -/
def settlePass (s : State) (ctx stage : Nat) : State :=
  if !allRetired s ctx stage then s
  else match findGraph s ctx with
    | none => s
    | some gr => match gr.passes[stage]? with
      | none => s
      | some p => (gr.entries.filter fun e => p.life = .open && p.writes.contains e.res && entryFree e).foldl (fun s e =>
          match gr.resources[e.res]? with
          | some r =>
            if r.external then updEntry s ctx e.res e.tile fun e => { e with phase := .retiring }
            else retireEntry s ctx e.res e.tile true
          | none => s) s

/-- Poisons tiles and what follows from them (R282); a pass whose last group has failed so settles. -/
def poisonFrom (s : State) (ctx : Nat) (tiles : List (Nat × Nat)) : State :=
  let s := poisonTiles (tiles.length + 4 * s.groups.length + 1) s ctx tiles
  (List.range 256).foldl (fun s stage => settlePass s ctx stage) s

/-- Whether a group's own tile of an external resource may begin to retire: no other group of the pass that shares
the tile is still to retire (R280). -/
def lastAtTile (s : State) (p : Pass) (g : Group) : Bool :=
  (passGroups s g.ctx g.stage).all fun h =>
    h.serial = g.serial || h.phase = .retired || !(h.x + p.originX = g.x + p.originX && h.y + p.originY = g.y + p.originY)

/-- What happens to the external tiles at a group's own tile that have not retired, once it is the last there (R280). -/
def retireExternal (s : State) (g : Group) (f : State → Nat → Nat → State) : State :=
  match findGraph s g.ctx with
  | none => s
  | some gr => match gr.passes[g.stage]? with
    | none => s
    | some p =>
      if !lastAtTile s p g then s
      else (writtenTiles s g).foldl (fun s (res, tile) => match gr.resources[res]? with
        | some r =>
          if r.external && (((findGraph s g.ctx).bind fun gr => gr.entry res tile).map entryFree).getD false then f s res tile
          else s
        | none => s) s

/-- The tile's writes are waited for before it retires (R280). -/
def beginRetire (ctx : Nat) (s : State) (res tile : Nat) : State :=
  updEntry s ctx res tile fun e => { e with phase := .retiring }

/-! ## The writes of a group (R170, R280, R300) -/

def threadRefs (g : Group) : List ThreadRef := g.threads.map fun th => ⟨g.serial, th.row, th.lane⟩

/-- Whether every write performed at either die is performed at device scope. -/
def allDone (s : State) : Bool := deviceDone s 0 && deviceDone s 1

/-- Every V-, A- and M-path write of a group's threads goes down to device scope; whether all of them are performed. -/
def flushGroup (s : State) (g : Group) : State × Bool :=
  let s := settleLate s fun l => l.by_.group = g.serial
  let s := match g.core with
    | none => toAll s
    | some k => (threadRefs g).foldl (fun s t => releaseWork s t k 4) s
  (s, (threadRefs g).all (releaseDone s) && allDone s)

/-- Whether a copy still has bytes to write to memory. -/
def copyWrites (c : Copy) (p : Move → Bool) : Bool := !c.cancelled && (c.todo.any p || c.fixups.any fun f => f.1.any p)

/-- Whether a piece writes bytes of a ring tile. -/
def moveInto (r : Resource) (e : Entry) (m : Move) : Bool :=
  let base := placeBase r e
  match m.dst with
  | .ring a => !e.inOverflow && a < base + tileBytes r && base < a + m.len
  | .va a => e.inOverflow && a < base + tileBytes r && base < a + m.len
  | .pad _ _ => false

def toMemory (m : Move) : Bool :=
  match m.dst with
  | .pad _ _ => false
  | _ => true

/-- The writes a group has still to perform to memory on path A. -/
def copiesTo (s : State) (group : Nat) (p : Move → Bool) : Bool :=
  s.copies.any fun c => c.thread.group = group && copyWrites c p

/-- The end of handed groups that are no longer outstanding (R300): once the issuing group's writes are performed,
their external tiles retire, and then their references go.  It is tried again until the writes are performed. -/
def endHanded (s : State) (issuer : Nat) : State :=
  let mine := s.groups.filter fun h => h.phase = .handedEnding issuer
  if mine.isEmpty then s
  else match findGroup s issuer with
    | none => s
    | some g =>
      let (s, done) := flushGroup s g
      if !done || copiesTo s issuer toMemory then s
      else mine.foldl (fun s h =>
        let s := updGroup s h.serial fun h => { h with phase := .retired }
        let s := retireExternal s h fun s res tile => retireEntry s h.ctx res tile false
        settlePass (releaseAll s h.serial) h.ctx h.stage) s

/-! ## TILE_OP_PROCESS (R168-R172, R279) -/

/-- A thread's `tlacq` (R279). -/
def tileAcquire (s : State) (ctx : Nat) (gr : Graph) (r : Resource) (e : Entry) (t : ThreadRef) (b : Nat) : State :=
  match e.phase with
  | .free => match r.freeSlots, longestStalled gr e.res fun _ => true with
    | slot :: rest, none =>
      giveSlot (updResource s ctx e.res fun r => { r with freeSlots := rest }) ctx e.res e.tile slot
    | _, _ =>
      let now := refCycles s
      updEntry s ctx e.res e.tile fun e => { e with phase := .stalled now }
  | .stalled _ => s
  -- a tile that has not retired yet gives the same place, also while the writes of its `tldone` are waited for (R169)
  | .acquired | .retiring => grantRecord s t b e.res e.tile (entryRecord r e false) true
  | .retired | .freed => tileFault s t

/-- A thread's `tlrd` (R171): a tile out of range opens nothing, and its record, of extent 0, stands in the tile table
under the first number that is no tile's, so that an access through it takes BOUNDS. -/
def tileOpen (s : State) (r : Resource) (t : ThreadRef) (b res : Nat) (e : Option Entry) : State :=
  match e with
  | none =>
    let (s, x) := emptyRecord s r
    grantRecord s t b res (r.tilesX * r.tilesY) x false
  | some e =>
    let released := (((findGroup s t.group).bind fun g => findHold g res e.tile).map TileHold.released).getD false
    if released then tileFault s t
    else match e.phase with
      | .retired => grantOpen s r e t b
      | .free | .stalled _ | .acquired | .retiring => s
      | .freed => tileFault s t

/-- The group that holds the reference a `tlrel` gives up: the thread's own group, or a group handed to it that
covers the tile (R172, R300). -/
def refHolder (s : State) (g : Group) (res tile : Nat) : Option Nat :=
  ((g.family s).find? fun h => h.refs.contains (res, tile)).map Group.serial

/-- A thread's `tlrel` (R172): the group's records for the tile leave its tile table once it holds no reference. -/
def tileRelease (s : State) (t : ThreadRef) (res : Nat) (e : Option Entry) : State :=
  match e, findGroup s t.group with
  | some e, some g =>
    let s := match refHolder s g res e.tile with
      | some h => releaseRef s h res e.tile
      | none => s
    let s := if (refHolder s ((findGroup s t.group).getD g) res e.tile).isSome then s
      else updGroup s t.group fun g => updHold g res e.tile fun h =>
        { h with records := [], opened := false, released := true }
    makeReady s t
  | _, _ => makeReady s t

/-- The scoreboard decides one operation (R279); one that names an external resource fails (R280). -/
def decideTile (s : State) (ctx : Nat) (gr : Graph) (q : TileRequest) : State :=
  match gr.resources[q.res]? with
  | none => tileFault s q.thread
  | some r =>
    let e := (tileNumber r (tileX q.b) (tileY q.b)).bind fun n => gr.entry q.res n
    if r.external then tileFault s q.thread
    else match q.op, e with
      | .acquire b, some e => tileAcquire s ctx gr r e q.thread b
      | .acquire _, none => tileFault s q.thread
      | .done, some e =>
        if e.phase = .acquired then
          updEntry s ctx q.res e.tile fun e => { e with phase := .retiring, holder := some q.thread.group }
        else tileFault s q.thread
      | .done, none => tileFault s q.thread
      | .open b, e => tileOpen s r q.thread b q.res e
      | .release, e => tileRelease s q.thread q.res e

/-- TILE_OP_PROCESS (R279): the oldest operation on a resource that has reached the scoreboard is decided. -/
def execTileOpProcess (ctx res : Nat) (s : State) : Out :=
  .next (match findGraph s ctx with
    | none => s
    | some gr => match gr.requests.findIdx? fun q => q.res = res with
      | none => s
      | some i => match gr.requests[i]? with
        | none => s
        | some q =>
          let s := updGraph s ctx fun gr => { gr with requests := gr.requests.eraseIdx i }
          match findThread s q.thread with
          | some (_, th) =>
            if th.status = .parkedEffect then decideTile s ctx ((findGraph s ctx).getD gr) q else s
          | none => s)

/-- TILE_RETIRE (R170, R280): the writes of the group that retires a ring tile go down to device scope; once they and
its copies into the tile are performed the tile retires.  The groups that share an external tile have retired, and their
writes have left their cores: it retires once they are performed at both dies. -/
def execTileRetire (ctx res tile : Nat) (s : State) : Out :=
  .next (match (findGraph s ctx).bind fun gr => (gr.resources[res]?).bind fun r => (gr.entry res tile).map fun e => (r, e) with
    | none => s
    | some (r, e) =>
      if e.phase ≠ .retiring then s
      else match e.holder.bind (findGroup s) with
        | none =>
          let s := toAll s
          if allDone s then retireEntry s ctx res tile false else s
        | some g =>
          let (s, done) := flushGroup s g
          if done && !copiesTo s g.serial (moveInto r e) then retireEntry s ctx res tile false else s)

/-- The longest stall that has reached the threshold takes the lowest free overflow place. -/
def placeOverflow (s : State) (ctx res : Nat) : State :=
  match (findGraph s ctx).bind fun gr => (gr.resources[res]?).map fun r => (gr, r) with
  | none => s
  | some (gr, r) =>
    let now := refCycles s
    match r.overflow, r.freePlaces, longestStalled gr res fun n => n + r.threshold ≤ now with
    | true, p :: rest, some e =>
      giveOverflow (updResource s ctx res fun r => { r with freePlaces := rest }) ctx res e.tile p
    | _, _, _ => s

/-- How many overflow places of a ring are free. -/
def placesFree (s : State) (ctx res : Nat) : Nat :=
  (((findGraph s ctx).bind fun gr => gr.resources[res]?).map fun r => r.freePlaces.length).getD 0

/-- RING_STALL_THRESHOLD (R263, R283): every stall that has reached the threshold takes a free overflow place, the
longest first, as long as places are free. -/
def execRingStallThreshold (ctx res : Nat) (s : State) : Out :=
  .next ((List.range (placesFree s ctx res)).foldl (fun s _ => placeOverflow s ctx res) s)

/-- RING_STALL_NOTICE (R285). -/
def execRingStallNotice (ctx res : Nat) (s : State) : Out :=
  .next (match (findGraph s ctx).bind fun gr => (gr.resources[res]?).map fun r => (gr, r) with
    | none => s
    | some (gr, r) =>
      let now := refCycles s
      match longestStalled gr res fun n => n + 2 ^ 20 ≤ now with
      | some e =>
        if r.noticed || now < r.lastFree + 2 ^ 20 then s
        else (notify (updResource s ctx res fun r => { r with noticed := true }) (.ringStall ctx res e.tile) none).1
      | none => s)

end Sys2Proof.Machine
end

