-- ==== Sys2Proof/Machine/Selector.lean ====
section
/-!
DEFINITION. The selector and the life of a segment: entering a clause (R12, R22, R23, R58), choosing an entry and
forming a burst (R188-R192), data returning to a load (R107, R110), replay (R197, R198) and commit (R194, R195).
-/

namespace Sys2Proof.Machine

/-! ## CLAUSE_ENTER (R58 step 1) -/

/-- The instructions of a clause, in word order. -/
def clauseInstrs : Nat → List Wide → List Instr
  | 0, _ => []
  | _, [] => []
  | n + 1, w :: rest =>
    let i := decodeWith w none
    if i.needsLiteral then decodeWith w rest.head? :: clauseInstrs n rest.tail else i :: clauseInstrs n rest

/-- The k register an instruction names as its lane set, in `opd_c` (R142, R145). -/
def laneSetOf (i : Instr) : Option Nat :=
  match i.view with
  | some v => match v.c.role, Operand.ofCode v.c.code with
    | .lanes, .k n => some n.val
    | _, _ => none
  | none => none

/-- The k register a `ballot` writes. -/
def laneDstOf (i : Instr) : Option Nat :=
  match i.view with
  | some v => match v.d.role, Operand.ofCode v.d.code with
    | .laneDst, .k n => some n.val
    | _, _ => none
  | none => none

/-- The first word of a clause that fails R22, R39 or R40: `written` are the k registers written so far.  A word that no
opcode is assigned to, a header in an instruction word's place included, fails none of them whatever its class bits read
as: it takes ILLEGAL_OPCODE when it issues (R51, R57), although the last paragraph of R59 says CLAUSE_FORMAT of a header
there (DESIGN CHOICE, log 45).  The words are those that a walk from the header meets: a literal word is none of them, so a
pc that R153 lets a thread resume at, and that is a literal word, executes it with none of these checks; R58 and R153 do
not say which walk counts (DESIGN CHOICE, log 45). -/
def badWord (cls addr : Nat) : Nat → List Nat → List Wide → Option Nat
  | 0, _, _ => none
  | _, _, [] => none
  | n + 1, written, w :: rest =>
    let i := decodeWith w none
    let after := if i.needsLiteral then rest.tail else rest
    let size := if i.needsLiteral then 16 else 8
    let wrong := match i.engineClass with
      | some c => c ≠ cls
      | none => false
    let reused := match laneSetOf i with
      | some k => written.contains k
      | none => false
    if wrong || (i.needsLiteral && rest.isEmpty) || (i.isEffect && !wordSw w) || (i.isTransfer && !after.isEmpty) ||
        reused then some addr
    else badWord cls (addr + size) n (written ++ (laneDstOf i).toList) after

/-- The fetch of a code word that fails: its translation (R12, R209). -/
def fetchTrouble (s : State) (k : Nat) (g : Group) (off n : Nat) : Option Trouble :=
  (List.range n).findSome? fun i =>
    let va := segBase (g.g.getD 0 0) + off + 8 * i
    match codeLoc s k g (off + 8 * i) with
    | .ok _ _ => none
    | .absent => some (pageTrouble .pageAbsent va .read)
    | .protect => some (pageTrouble .pageProtect va .read)

/-- What a thread that enters the clause at `hdr` takes (R58 step 1). -/
def clauseTrouble (s : State) (k : Nat) (g : Group) (pass : Pass) (t : ThreadRef) (hdr : Nat) : Option Trouble :=
  let limit := effLimit (padBytes pass) (g.g.getD 0 0)
  let h := codeWord s k g hdr
  let words := codeWords s k g (hdr + 8) (hdrCount h)
  let at_ := fun (a : Nat) => some (⟨.clauseFormat, 0, BitVec.ofNat 32 a, none, false⟩ : Trouble)
  let beyond : Option Trouble := some ⟨.segmentLimit, 8, BitVec.ofNat 32 hdr, none, false⟩
  if g.marks.contains (.g 0) then some ⟨.poison, regIdent (.g 0), 0x40000, some (regKey t (.g 0)), false⟩
  else if limit < hdr + 8 then beyond
  else match fetchTrouble s k g hdr 1 with
    | some x => some x
    | none =>
      if limit < clauseEnd hdr h then beyond
      else match fetchTrouble s k g (hdr + 8) (hdrCount h) with
        | some x => some x
        | none =>
          if !hdrOk h then at_ hdr
          else match badWord (hdrClass h) (hdr + 8) words.length [] words with
            | some a => at_ a
            | none => none

/-- The record of a fault at clause entry: for CLAUSE_FORMAT it names the header (R22, R330). -/
def clauseRecord (x : Trouble) (seg : Segment) (hdr : Word) : Record :=
  if x.code = .clauseFormat then ⟨x.code.bits, false, hdr, hdr, x.data0, x.data1, x.key⟩ else recordOf x seg

/-- The segment is discarded and executed again from its first word (R197): its thread stays committing, and is selected
again from now on; `f` sets the replay counts. -/
def replayThread (s : State) (t : ThreadRef) (f : Segment → Segment) : State :=
  match findGroup s t.group with
  | none => s
  | some g =>
    let now := (getCore s (g.core.getD 0)).cycles.toNat
    joinTable (updThread s t fun th =>
      { th with status := .committing, pc := th.seg.startPc, hdr := th.seg.startHdr, readyAt := now
                seg := f { Segment.empty th.seg.startPc th.seg.startHdr with
                  gather := th.seg.gather, mates := th.seg.mates, closure := th.seg.closure
                  checked := th.seg.checked || th.seg.missed, droops := th.seg.droops, again := true
                  past := th.seg.ig :: th.seg.past, owing := th.seg.owing } }) t

/-- One thread of the burst enters the clause, or takes its fault.  The clause is the one at the burst's base: a g0 that
another thread's `segset` has moved meanwhile holds from the thread's next segment on (DESIGN CHOICE, log 43). -/
def enterThread (k : Nat) (b : Burst) (s : State) (t : ThreadRef) : State :=
  match findThread s t with
  | none => s
  | some (g, th) => match findPass s g.ctx g.stage with
    | none => s
    | some pass =>
      let g := g.via b.base
      match clauseTrouble s k g pass t b.hdr.toNat with
      | none => updThread s t fun th => { th with seg := { th.seg with gather := hdrGather (codeWord s k g b.hdr.toNat) } }
      | some x => takeFault (leaveBurst s k t) t (clauseRecord x th.seg b.hdr) false

/-- Whether the wait fields of the clause hold a thread of the burst back (R23, R191). -/
def heldAtClause (s : State) (k : Nat) (b : Burst) (t : ThreadRef) : Bool :=
  match findThread s t with
  | some (g, th) => !waitsMet s k (g.via b.base) { th with hdr := b.hdr }
  | none => false

/-- The header and the words of the clause, as the burst fetches them (R191). -/
def clauseWords (s : State) (k : Nat) (b : Burst) : List (Nat × Wide) :=
  match burstGroup s b with
  | none => []
  | some g =>
    let g := g.via b.base
    let h := codeWord s k g b.hdr.toNat
    (List.range (hdrCount h + 1)).map fun i => (b.hdr.toNat + 8 * i, codeWord s k g (b.hdr.toNat + 8 * i))

/-- The burst inside its clause: at the first word after the header, or at the word it resumes at (R194). -/
def enteredBurst (words : List (Nat × Wide)) (b : Burst) : Option Burst :=
  let first := if b.pc = b.hdr then b.hdr + 8 else b.pc
  if b.groups.flatten.isEmpty then none else some { b with entered := true, turn := 0, pc := first, words := words }

/-- Whether the clause lies where a page is on its way elsewhere: its fetch waits, as every access does (R214, R317). -/
def clauseMoves (s : State) (k : Nat) (b : Burst) : Bool :=
  let moving := fun (off : Nat) => onTheMove s (b.base + off) || onTheMove s (b.base + off + 7)
  moving b.hdr.toNat || (clauseWords s k b).any fun w => moving w.1

/-- CLAUSE_ENTER (R58): once their wait fields hold, the threads of the burst enter the clause or fault.  The clause is
fetched once, and its words are checked and executed as they were fetched (R191). -/
def execClauseEnter (core : Nat) (s : State) : Out :=
  onCore s core fun s c => match c.burst with
    | none => s
    | some b =>
      if b.entered || clauseMoves s core b || b.groups.flatten.any (heldAtClause s core b) then s
      else
        let words := clauseWords s core b
        let s := b.groups.flatten.foldl (enterThread core b) s
        updCore s core fun c => { c with burst := c.burst.bind (enteredBurst words) }

/-! ## Eligible units (R188, R192) -/

/-- A unit of selection: its threads, its ready time, and its rank (R190). -/
structure Pick where
  threads : List ThreadRef
  at_     : Nat
  arrival : Nat
  row     : Nat
  lane    : Nat
  deriving DecidableEq, Repr

/-- Whether a thread may be selected at all: ready, its group resident and owing no record of a failed reduction; or to be
executed again, which a group that is to leave its core waits for (R196, R197, R200, R340). -/
def selectable (g : Group) (th : Thread) : Bool :=
  th.selects && (g.phase = .resident || th.status = .committing) && th.late.isEmpty

/-- The k registers that the clause at `hdr` names as lane sets (R142). -/
def clauseLaneSets (s : State) (k : Nat) (g : Group) (hdr : Nat) : List Nat :=
  let h := codeWord s k g hdr
  ((clauseInstrs (hdrCount h) (codeWords s k g (hdr + 8) (hdrCount h))).filterMap laneSetOf).dedup

/-- The lanes of a thread's gather set, and its own (R142). -/
def gatherLanes (g : Group) (sets : List Nat) (th : Thread) : BitVec 128 :=
  sets.foldl (fun m i => m ||| (th.k.getD i 0 &&& liveLanes g th.row)) (1#128 <<< th.lane)

/-- Grows a set of lanes by the gather sets of its threads until it is closed (R192). -/
def closeLanes (g : Group) (sets : List Nat) (row : Nat) : Nat → BitVec 128 → BitVec 128
  | 0, m => m
  | n + 1, m =>
    let m' := g.threads.foldl (fun u th =>
      if th.row = row && th.status ≠ .exited && m.getLsbD th.lane then u ||| gatherLanes g sets th else u) m
    if m' = m then m else closeLanes g sets row n m'

/-- The closure of a thread (R192). -/
def closureOf (g : Group) (sets : List Nat) (th : Thread) : List Thread :=
  let m := closeLanes g sets th.row 128 (gatherLanes g sets th)
  g.threads.filter fun u => u.row = th.row && u.status ≠ .exited && m.getLsbD u.lane

def refOf (g : Group) (th : Thread) : ThreadRef := ⟨g.serial, th.row, th.lane⟩

/-- Where a thread waits to gather: at the entry of the gather segment, which is one place whether the thread reaches its
header or resumes at its first word after a fault (R141, R144, R330). -/
def gatherPlace (th : Thread) : Word × Word := (if th.pc = th.hdr then th.hdr + 8 else th.pc, th.hdr)

/-- An assembled closure of thread `th`: every member waits in the table at its place and may be selected.  One that is
executed again, which a group that is to leave its core waits for, takes its ready members with it (R192, R197, R200). -/
def assembled (c : Core) (g : Group) (th : Thread) (ths : List Thread) : Bool :=
  ths.all (fun u => u.selects && u.late.isEmpty && gatherPlace u = gatherPlace th &&
    c.table.any fun e => e.members.any fun m => m.1 = refOf g u) &&
  (g.phase = .resident || ths.any fun u => u.status = .committing)

def pickOf (g : Group) (ths : List Thread) : Pick :=
  ⟨ths.map (refOf g), (ths.map Thread.readyAt).foldl max 0, g.arrival, (ths.map Thread.row).foldl min 31,
    (ths.map Thread.lane).foldl min 127⟩

/-- The eligible units of an entry (R188), each thread with the clause of its own continuation: a closure inside another
one is part of it.  Of two assembled closures that
overlap with neither inside the other both are units, and R190 gives the first by rank to the burst (DESIGN CHOICE,
log 21). -/
def unitsOf (s : State) (k : Nat) (e : WaitEntry) : List Pick :=
  let here := e.members.filterMap fun m => match findThread s m.1 with
    | some (g, th) => if g.core = some k && selectable g th then some (g, th) else none
    | none => none
  let cands := here.filterMap fun (g, th) =>
    if atGather s k g th then
      let ths := closureOf g (clauseLaneSets s k g th.hdr.toNat) th
      if assembled (getCore s k) g th ths then some (pickOf g ths) else none
    else if waitsMet s k g th then some (pickOf g [th]) else none
  (cands.filter fun p => !cands.any fun q =>
    p.threads.length < q.threads.length && p.threads.all q.threads.contains).dedup

/-- Ordered by ready time, then group place, row and lowest lane (R190). -/
def pickBefore (p q : Pick) : Bool :=
  p.at_ < q.at_ || (p.at_ = q.at_ && (p.arrival < q.arrival || (p.arrival = q.arrival &&
    (p.row < q.row || (p.row = q.row && p.lane ≤ q.lane)))))

def insertPick (p : Pick) : List Pick → List Pick
  | [] => [p]
  | q :: rest => if pickBefore p q then p :: q :: rest else q :: insertPick p rest

def sortPicks (ps : List Pick) : List Pick := ps.foldr insertPick []

/-- One pass over the pool: the units of the next issue group, and those left (R190).  A unit that shares a thread with one
already taken, a closure that overlaps another, leaves the burst and waits for a later one (DESIGN CHOICE, log 21). -/
def fillGroup : List Pick → List Pick → List Pick × List Pick
  | _, [] => ([], [])
  | taken, u :: pool =>
    let lanes := taken.flatMap fun q => q.threads.map ThreadRef.lane
    if taken.any fun q => q.threads.any u.threads.contains then fillGroup taken pool
    else if u.threads.any fun t => lanes.contains t.lane then
      let (ig, rest) := fillGroup taken pool
      (ig, u :: rest)
    else
      let (ig, rest) := fillGroup (u :: taken) pool
      (u :: ig, rest)

/-- The issue groups of a burst, at most 32 (R190). -/
def formGroups : Nat → List Pick → List (List Pick)
  | 0, _ => []
  | n + 1, pool =>
    match fillGroup [] pool with
    | ([], _) => []
    | (ig, rest) => ig :: formGroups n (rest.filter fun u => !ig.any fun q => q.threads.any u.threads.contains)

/-! ## BURST_SELECT (R189-R191) -/

def stampOf (ps : List Pick) : Nat := (ps.map Pick.at_).foldl min (2 ^ 64)
def countOf (ps : List Pick) : Nat := (ps.flatMap Pick.threads).dedup.length

/-- Whether candidate `a` beats candidate `b` (R189).  For two late ones of the same stamp R189 gives no tie-break: the
lowest table index decides here too (DESIGN CHOICE, log 21). -/
def entryBeats (now : Nat) (a b : WaitEntry × List Pick) : Bool :=
  let lateA := 1024 < now - stampOf a.2
  let lateB := 1024 < now - stampOf b.2
  if lateA && lateB then stampOf a.2 < stampOf b.2 || (stampOf a.2 = stampOf b.2 && a.1.index < b.1.index)
  else if lateA || lateB then lateA
  else countOf b.2 < countOf a.2 || (countOf a.2 = countOf b.2 &&
    (stampOf a.2 < stampOf b.2 || (stampOf a.2 = stampOf b.2 && a.1.index < b.1.index)))

/-- The entry R189 chooses, other than the one of the current burst. -/
def chooseEntry (s : State) (k : Nat) (but : Option EntryKey) : Option (WaitEntry × List Pick) :=
  let c := getCore s k
  let cand := (c.table.filterMap fun e =>
    let us := unitsOf s k e
    if us.isEmpty || some e.key = but then none else some (e, us))
  cand.foldl (fun best x => match best with
    | none => some x
    | some y => if entryBeats c.cycles.toNat x y then some x else some y) none

def insertLane (t : ThreadRef) : List ThreadRef → List ThreadRef
  | [] => [t]
  | u :: rest => if t.lane ≤ u.lane then t :: u :: rest else u :: insertLane t rest

/-- The threads of an issue group leave the table and run (R185, R186). -/
def runUnit (ig unit : Nat) (closure : BitVec 128) (s : State) (t : ThreadRef) : State :=
  leaveCore (updThread s t fun th =>
    { th with status := .running, rewait := false
              seg := { th.seg with
                startPc := th.pc, startHdr := th.hdr, ig := ig, unit := unit, again := false
                gather := false, mates := 0, closure := closure } }) t

/-- The lanes of a unit. -/
def Pick.lanes (p : Pick) : BitVec 128 := p.threads.foldl (fun m t => m ||| (1#128 <<< t.lane)) 0

/-- The units of an issue group run; a unit of a gather segment is a closure (R192). -/
def runGroup (s : State) (gather : Bool) (ig : Nat) (us : List Pick) : State :=
  (us.mapIdx fun i u => (i + 1, u)).foldl (fun s (i, u) =>
    u.threads.foldl (runUnit ig i (if gather then u.lanes else 0)) s) s

/-- Whether a unit continues at a gather clause. -/
def pickGathers (s : State) (k : Nat) (p : Pick) : Bool :=
  ((p.threads.head?).bind (findThread s)).any fun (g, th) => atGather s k g th

/-- The place a unit continues at. -/
def pickPlace (s : State) (p : Pick) : Option (Word × Word) :=
  (p.threads.head?).bind fun t => (findThread s t).map fun (_, th) => (th.pc, th.hdr)

/-- Forms the burst of an entry (R190, R191).  Units of one code address whose offsets differ, after a `segset` of g0, run
in bursts of their own (DESIGN CHOICE, log 43). -/
def startBurst (s : State) (k : Nat) (e : WaitEntry) (us : List Pick) : State :=
  match (sortPicks us).head?.bind (pickPlace s) with
  | none => s
  | some (pc, hdr) =>
    let igs := formGroups 32 ((sortPicks us).filter fun p => pickPlace s p = some (pc, hdr))
    let n := s.serial + 1
    let gather := ((sortPicks us).head?.map (pickGathers s k)).getD false
    let s := (igs.mapIdx fun i ig => (n + i, ig)).foldl (fun s (n, ig) => runGroup s gather n ig)
      { s with serial := s.serial + igs.length }
    let groups := igs.map fun ig => (ig.flatMap Pick.threads).foldr insertLane []
    let base := (e.key.addr + 2 ^ 48 - pc.toNat) % 2 ^ 48
    bump (updCore s k fun c =>
      { c with chosen := none, burst := some ⟨e.key, groups, hdr, pc, false, 0, base, [], []⟩ }) k 5 (some e.key.stage) 1

/-- Whether a core's clock runs: its cluster is not gated and its pair is neither off nor waking (R344, R345). -/
def coreClocked (s : State) (k : Nat) : Bool :=
  !(s.clusters.getD (clusterOf k) Cluster.reset).gated && (s.pairs.getD (pairOf k) Pair.reset).stateEff < 2

/-- A ready thread takes the oldest record a failed reduction left it, before it is selected (R123). -/
def takeLate (s : State) (t : ThreadRef) : State :=
  match findThread s t with
  | some (_, th) => match th.late with
    | r :: rest =>
      takeFault (updThread s t fun th => { th with late := rest }) t { r with pc := th.pc, hdr := th.hdr } false
    | [] => s
  | none => s

def lateThreads (s : State) (k : Nat) : List ThreadRef :=
  (s.groups.filter fun g => g.core = some k).flatMap fun g =>
    (g.threads.filter fun th => th.status = .ready && !th.late.isEmpty).map (refOf g)

/-- BURST_SELECT (R189): the next entry is chosen while a burst issues, and its burst begins when the core has
none; with no entry chosen the selector selects again. -/
def execBurstSelect (core : Nat) (s : State) : Out :=
  onCore s core fun s c =>
    if c.fatal || !coreClocked s core then s
    else
      let s := (lateThreads s core).foldl takeLate s
      match c.burst with
      | some b =>
        if c.chosen.isSome then s
        else updCore s core fun c => { c with chosen := (chooseEntry s core (some b.key)).map fun e => e.1.key }
      | none =>
        let kept := ((getCore s core).table.find? fun e => some e.key = c.chosen).map fun e => (e, unitsOf s core e)
        match kept with
        | some (e, u :: us) => startBurst s core e (u :: us)
        | _ => match chooseEntry s core none with
          | some (e, us) => startBurst s core e us
          | none => updCore s core fun c => { c with chosen := none }

/-! ## LOAD_RETURN (R107, R110) -/

/-- The result of load `l` has arrived (R110). -/
def deliverLoad (s : State) (t : ThreadRef) (l : Load) : State :=
  let (ws, v) := returnWrites l.kind l.bytes
  updThread s t fun th => { th with seg := { th.seg with
    loads := th.seg.loads.drop 1
    results := th.seg.results.map fun r =>
      if r.id = l.id && !r.ready then { r with ready := true, writes := ws, value := v } else r } }

/-- A fault on returned data: it has a page when its bytes have device virtual addresses (R332). -/
def dataTrouble (t : ThreadRef) (code : Code) (va : Nat) (paged : Bool) : Trouble :=
  { pageTrouble code va .read with key := if paged then some (.page (va / 65536)) else some (.thread t) }

/-- LOAD_RETURN (R110): the oldest outstanding load of a thread returns.  A poisoned sector faults; a check mismatch
marks the segment for its one replay, and faults the second time (R107 orders 5 and 6, R197).  Once the segment is to be
replayed, what further loads of it return is dropped with it, and raises nothing (DEDUCED, log 43). -/
def execLoadReturn (t : ThreadRef) (s : State) : Out :=
  onThread s t fun g th => match th.seg.loads with
    | [] => s
    | l :: _ =>
      let k := g.core.getD 0
      match l.poison, l.mismatch with
      | some va, _ => if th.seg.missed then deliverLoad s t l else faultThread s k t (dataTrouble t .poison va l.paged)
      | none, some va =>
        if th.seg.checked then faultThread s k t (dataTrouble t .checkMismatch va l.paged)
        else deliverLoad (updThread s t fun th => { th with seg := th.seg.miss }) t l
      | none, none => deliverLoad s t l

/-! ## Issuing an effect at commit (R194, R195) -/

def park (s : State) (t : ThreadRef) (e : Effect) : State :=
  updThread s t fun th => { th with status := .parkedEffect, waiting := some e }

def nextId (s : State) : State × Nat := ({ s with serial := s.serial + 1 }, s.serial + 1)

/-- The device writes an arrival word as an ordinary store does, which makes the tag of its 1 KiB linear: R110 says so of
stores, and R132 is silent (DESIGN CHOICE, log 47). -/
def arrivalPad (s : State) (group offset : Nat) (x : Word) : State :=
  storePad s (((findGroup s group).bind Group.core).getD 0) [] group (cellsAt offset (toBytes x 4))
def padWord (g : Group) (o : Nat) : Word := BitVec.ofNat 32 (ofBytes (padRead g o 4))

/-- Reports the end of a copy: a token, or an arrival word that gains the bytes or whose bit 31 is set (R132). -/
def arrive (s : State) (group : Nat) (a : Arrival) (bytes status : Nat) : State :=
  match a with
  | .token row n => writeToken s group row n (BitVec.ofNat 32 (bytes % 2 ^ 25 + status * 2 ^ 28))
  | .word o => match findGroup s group with
    | none => s
    | some g =>
      if status = 0 then arrivalPad s group o (padWord g o + BitVec.ofNat 32 bytes)
      else arrivalPad s group o (padWord g o ||| 0x80000000)

/-- A push or pop at commit: with `.try` it is decided at once; any other waits in its bank's order, and is served at once
when it is the first of its kind there and the bank can serve it (R136). -/
def issueQueue (s : State) (k : Nat) (t : ThreadRef) (e : Effect) : State :=
  match queueOf e with
  | some (bank, kb, try_, guard) =>
    let s := drainThread s t
    if try_ then readyUnlessFaulted (tryQueue (park s t e) k t e guard) t
    else
      let s := joinTable (updBank (park s t e) kb bank fun b => { b with parked := b.parked ++ [t] }) t
      if firstParked s kb bank (isPush e) = some t then (serveParked s kb bank t).getD s else s
  | none => s

def enqueueMx (s : State) (k : Nat) (t : ThreadRef) (token : Nat) (w : MxWork) : State :=
  let (s, n) := nextId s
  updCore s k fun c => { c with mxQueue := c.mxQueue ++ [⟨t, n, token, w⟩] }

/-- The effect of a committed segment is issued: the thread becomes ready or parks (R195).  The thread's committed
stores are performed before a mailbox or an arrival word of its own request can be written. -/
def issueEffect (s : State) (k : Nat) (g : Group) (t : ThreadRef) (e : Effect) : State :=
  match e with
  | .atomic .. | .fence .. | .xfence .. => joinTable (park s t e) t
  | .wait type cond loc va cmp timeout guard _ pc hdr =>
    joinTable (park s t (.wait type cond loc va cmp timeout guard (getCore s k).cycles.toNat pc hdr)) t
  | .reduction op type scope ord loc va data batch =>
    let (s, n) := nextId s
    makeReady { s with reductions := s.reductions ++ [⟨n, t, k, op, type, scope, ord, loc, va, data, batch⟩] } t
  | .copy moves arrival =>
    let total := (moves.map Move.len).sum
    let s := match arrival with
      | .token row n => setPending s t.group row n
      | .word _ => s
    if total = 0 then makeReady (arrive (drainThread s t) t.group arrival 0 0) t
    else
      let (s, n) := nextId s
      makeReady { s with copies := s.copies ++ [⟨n, t, arrival, moves, [], [], 0, total, false⟩] } t
  | .spwf mask => joinTable (park (enqueueMx s k t 0 (.unload mask)) t e) t
  | .mxdrop mask => joinTable (park (enqueueMx s k t 0 (.drop mask)) t e) t
  | .mxldb row token handle desc =>
    makeReady (enqueueMx (setPending s t.group row token) k t token (.load handle desc)) t
  | .mxop row token block => makeReady (enqueueMx (setPending s t.group row token) k t token (.op block)) t
  | .push .. | .pop .. => issueQueue s k t e
  | .tmove row token handle tier =>
    let user := !((findPass s g.ctx g.stage).map Pass.privileged).getD false
    let s := setPending s t.group row token
    makeReady { s with moves := s.moves ++ [⟨handle.toNat, tier, .thread t.group row token user, false, 0, []⟩] } t
  | .fwork offset =>
    let (s, n) := nextId (drainThread s t)
    let s := { s with
      fworks := s.fworks ++ [⟨n, t.group, offset⟩]
      groups := s.groups.map fun h =>
        if h.phase = .handed t.group offset then { h with phase := .handedEnding t.group } else h }
    makeReady s t
  | .tile op res b _ =>
    joinTable (updGraph (park s t e) g.ctx fun gr => { gr with requests := gr.requests ++ [⟨t, op, res, b⟩] }) t
  | .segset n x => makeReady (applyWrite k t s (.g n x)) t
  | .banksw row token request =>
    let (s, n) := nextId (setPending s t.group row token)
    makeReady { s with bankRequests := s.bankRequests ++ [⟨n, t.group, row, token, request, 0⟩] } t
  | .halt =>
    let (s, n) := notify s (.fault g.ctx g.stage k (threadPlace s g t) 0 0) (some (.thread t, 0))
    joinTable (updThread s t fun th => { th with status := .parkedHost, notice := some n }) t

/-! ## How a committed segment ends (R74, R152, R153) -/

/-- The record of a committed `trap` or `brk` (R152). -/
def trapRecord (brk : Bool) (ret data : Word) : Record :=
  ⟨if brk then Code.brk.bits else Code.trap.bits, true, ret, ret, data, 0, none⟩

/-- A committed `trap` or `brk` is delivered, or parked for the command processor (R152). -/
def endTrap (s : State) (t : ThreadRef) (brk : Bool) (ret data : Word) : State :=
  match findThread s t with
  | none => s
  | some (g, th) => match findPass s g.ctx g.stage with
    | none => s
    | some pass =>
      let s := bump s (g.core.getD 0) 10 (some g.stage) 1
      let r := trapRecord brk ret data
      if th.inHandler || !vectorUsable s g pass || (brk && pass.brkToHost) then parkHost s t r
      else deliver s t pass.trapVector r

/-- The first value that fails the checks of R153.  R153 is silent on a header on an absent or protected page: the word
reads as 0 here, so that the check fails with hdr (DESIGN CHOICE, log 46). -/
def resumeBad (s : State) (k : Nat) (g : Group) (pass : Pass) (pc hdr : Word) : Option Word :=
  let h := codeWord s k g hdr.toNat
  if hdr.toNat % 8 ≠ 0 || effLimit (padBytes pass) (g.g.getD 0 0) < hdr.toNat + 8 || hdrMark h ≠ 0xC then some hdr
  else if pc = hdr || (pc.toNat % 8 = 0 && hdr.toNat + 8 ≤ pc.toNat && pc.toNat < clauseEnd hdr.toNat h) then none
  else some pc

def continueAt (s : State) (t : ThreadRef) (pc hdr : Word) : State :=
  updThread s t fun th => { th with pc := pc, hdr := hdr, seg := Segment.empty pc hdr, rewait := th.rewait && th.pc = pc }

/-- A committed `trapret` (R153). -/
def endTrapret (s : State) (k : Nat) (t : ThreadRef) (at_ : Word) : State :=
  match findThread s t with
  | none => s
  | some (g, th) => match findPass s g.ctx g.stage with
    | none => s
    | some pass => match resumeBad s k g pass th.faultPc th.faultHdr with
      | none => makeReady (continueAt (updThread s t fun th => { th with inHandler := false }) t th.faultPc th.faultHdr) t
      | some bad =>
        let s := bump s k 10 (some g.stage) 1
        updThread (parkHost s t ⟨Code.clauseFormat.bits, true, th.faultPc, th.faultHdr, bad, at_, none⟩) t
          fun th => { th with failedRet := true }

/-! ## SEGMENT_COMMIT (R194) -/

/-- The issue groups that have executed a segment: the present one, and those of the executions it replays. -/
def Segment.issues (seg : Segment) : List Nat := (seg.ig :: seg.past).filter (· ≠ 0)

/-- The threads whose segment an issue group of this one's has executed and that have neither committed nor left it; a
thread that is replayed keeps its place among them (R194, R198). -/
def issueMates (s : State) (t : ThreadRef) (seg : Segment) : List (Group × Thread) :=
  s.groups.flatMap fun g => (g.threads.filter fun th =>
    (th.seg.issues.any seg.issues.contains) && (th.status = .committing || th.status = .running) && refOf g th ≠ t).map
      fun th => (g, th)

/-- The registers an effect writes when it completes (R121, R136). -/
def effectWrites : Option Effect → List RegWrite
  | some (.atomic _ type _ _ _ _ _ _ d ..) => (destWrites (typeWidth type = 8) 0 d).1
  | some (.pop _ _ wide _ d ..) => (destWrites wide 0 d).1
  | _ => []

/-- A held write of the segment, or its effect, names a pending scalar (R19). -/
def writesPending (g : Group) (th : Thread) : Bool :=
  (th.seg.results.flatMap Result.writes ++ effectWrites th.seg.effect).any fun w => match w with
    | .s i _ => scalarPending g th.row i
    | _ => false

/-- Whether a thread of a gather segment has lost a member of the closure it was issued in: one that no longer executes the
segment with it, because a fault has parked it (R144, R192). -/
def cutOff (g : Group) (th : Thread) : Bool :=
  th.seg.gather && (List.range 128).any fun l => th.seg.closure.getLsbD l && !g.threads.any fun u =>
    u.row = th.row && u.lane = l && (u.status = .running || u.status = .committing) && u.seg.ig = th.seg.ig &&
      u.seg.unit = th.seg.unit

/-- What one thread needs for itself: its loads have returned, nothing it did is suspect, and its closure is whole. -/
def settled (g : Group) (th : Thread) : Bool :=
  th.status = .committing && th.seg.loads.isEmpty && !th.seg.suspect && !th.seg.held && !th.seg.missed && !th.seg.again &&
    !cutOff g th && !writesPending g th

/-- The other members of the closure a gather segment was issued in (R144, R192). -/
def closureMates (s : State) (t : ThreadRef) (seg : Segment) : List (Group × Thread) :=
  (issueMates s t seg).filter fun (g, th) =>
    g.serial = t.group && th.row = t.row && th.seg.ig = seg.ig && th.seg.unit = seg.unit

/-- The highest lane that must commit with the lanes up to `m`: whole closures, and every lower lane (R144, R194). -/
def commitLane (all : List (Group × Thread)) : Nat → Nat → Nat
  | 0, m => m
  | n + 1, m =>
    let units := (all.filter fun x => x.2.lane ≤ m).map fun x => (x.2.seg.ig, x.2.seg.unit)
    commitLane all n (((all.filter fun x => units.contains (x.2.seg.ig, x.2.seg.unit)).map fun x => x.2.lane).foldl max m)

def insertMember (x : Group × Thread) : List (Group × Thread) → List (Group × Thread)
  | [] => [x]
  | y :: rest => if x.2.lane ≤ y.2.lane then x :: y :: rest else y :: insertMember x rest

/-- The threads that commit with a thread, in lane order: itself; in a gather segment its closure, every lower lane of the
issue group, and the closures of those (R144, R194). -/
def commitSet (s : State) (g : Group) (th : Thread) (t : ThreadRef) : List (Group × Thread) :=
  if th.seg.gather then
    let all := (g, th) :: issueMates s t th.seg
    let m := commitLane all all.length th.lane
    (all.filter fun x => x.2.lane ≤ m).foldr insertMember []
  else [(g, th)]

/-- Whether a thread may commit now (R194). -/
def mayCommit (s : State) (g : Group) (th : Thread) (t : ThreadRef) : Bool :=
  (commitSet s g th t).all (fun (h, u) => settled h u) &&
    (th.seg.gather || (issueMates s t th.seg).all fun (_, u) => t.lane < u.lane)

/-- A closure that the exit of a thread has assembled is eligible from now on (R188). -/
def stampAssembled (before after : State) (k : Nat) : State :=
  let units := fun (s : State) => (getCore s k).table.flatMap (unitsOf s k)
  let was := (units before).map Pick.threads
  let now := (getCore after k).cycles.toNat
  ((units after).filter fun p => !was.contains p.threads).foldl (fun s p =>
    p.threads.foldl (fun s t => updThread s t fun th => { th with readyAt := now }) s) after

/-- A thread exits: its bit is cleared, and closures that waited for it may be assembled (R75, R185, R188). -/
def leaveThread (s : State) (k : Nat) (t : ThreadRef) (f : Thread → Thread) : State :=
  stampAssembled s (leaveCore (updThread s t fun th => { f th with status := .exited, seg := Segment.empty th.pc th.hdr }) t) k

/-- The commit itself, in the order of R194; it has a number of its own among all commits (R17). -/
def commitThread (s : State) (k : Nat) (g : Group) (th : Thread) (t : ThreadRef) : State :=
  let seg := th.seg
  let (s, n) := nextId (bump (bump s k 6 (some g.stage) 1) k 19 (some g.stage) seg.owing)
  let s := updThread s t fun th => { th with commit := n }
  let s := applyWrites s k t (seg.results.reverse.flatMap Result.writes)
  let s := updThread s t fun th => { th with
    split := false
    buffer := th.buffer ++ seg.stores.map fun st => { st with order := n } }
  let e := seg.ending.getD (.go seg.startPc seg.startHdr)
  match e with
  | .exit => leaveThread s k t id
  | .trap brk ret data => endTrap (continueAt s t ret ret) t brk ret data
  | .trapret at_ => endTrapret (continueAt s t at_ th.hdr) k t at_
  | .go pc hdr =>
    let s := continueAt s t pc hdr
    match seg.effect with
    | none => makeReady s t
    | some x => issueEffect s k g t x

/-- A set of threads commits, each as the writes of those before it have left the state. -/
def commitAll (s : State) (k : Nat) (set : List (Group × Thread)) : State :=
  set.foldl (fun s x => match findThread s (refOf x.1 x.2) with
    | some (g, th) => commitThread s k g th (refOf x.1 x.2)
    | none => s) s

/-- The threads replayed with a thread: its closure, for a gather segment (R144). -/
def replaySet (s : State) (g : Group) (th : Thread) (t : ThreadRef) : List (Group × Thread) :=
  (g, th) :: if th.seg.gather then closureMates s t th.seg else []

/-- A set of threads is replayed: for a droop three times in a row at most, and after that it is held until its cluster has
been free of droop; for a check mismatch once (R107, R197, R198).  R198 does not say whether a replay for a check mismatch
between replays for droop begins the row of three anew: it does not here (DESIGN CHOICE, log 43). -/
def replayAll (s : State) (k : Nat) (set : List (Group × Thread)) : State :=
  let suspect := set.any fun x => x.2.seg.suspect
  let missed := set.any fun x => x.2.seg.missed
  let hold := suspect && set.any fun x => 3 ≤ x.2.seg.droops
  set.foldl (fun s x =>
    let t := refOf x.1 x.2
    if hold then updThread s t fun th => { th with seg := { th.seg with held := true } }
    else
      let s := if suspect then bump s k 7 (some x.1.stage) 1 else s
      let s := if missed then bump s k 8 (some x.1.stage) 1 else s
      replayThread s t fun seg =>
        { seg with droops := if suspect then seg.droops + 1 else seg.droops, checked := seg.checked || missed }) s

/-- Whether a thread that must be replayed with this one needs it, and none of them still runs or waits for data. -/
def replayDue (s : State) (g : Group) (th : Thread) (t : ThreadRef) : Bool :=
  let set := replaySet s g th t
  !th.seg.held && !th.seg.again && !cutOff g th && set.all (fun x => x.2.status = .committing && x.2.seg.loads.isEmpty) &&
    set.any fun x => x.2.seg.suspect || x.2.seg.missed

/-- A thread whose closure a fault has cut commits nothing: its segment is discarded and it waits at the entry, where its
closure gathers again once the parked members have resumed (R144, R192, R194, R196; DEDUCED, log 43). -/
def regather (s : State) (t : ThreadRef) : State :=
  makeReady (updThread s t fun th => { th with
    pc := th.seg.startPc, hdr := th.seg.startHdr, seg := Segment.empty th.seg.startPc th.seg.startHdr }) t

/-- A thread is removed without committing (R185, R336). -/
def exitThread (s : State) (t : ThreadRef) : State :=
  let k := ((findGroup s t.group).bind Group.core).getD 0
  leaveThread s k t fun th =>
    { th with waiting := none, record := none, notice := none, late := [], held := false }

/-- Whether the pass of a group is being ended (R336). -/
def passStopping (s : State) (g : Group) : Bool :=
  match findPass s g.ctx g.stage with
  | some p => p.life = .stopping || p.life = .ended
  | none => false

/-- SEGMENT_COMMIT (R194): a committing thread is replayed when a result is suspect; otherwise it commits when
every condition of R194 holds.  One whose gather closure a fault has cut gathers again instead (R144).  A thread of a pass that is being ended is removed instead (R336), and a core that
failed commits nothing (R337). -/
def execSegmentCommit (t : ThreadRef) (s : State) : Out :=
  onThread s t fun g th => match g.core with
    | none => s
    | some k =>
      if th.status ≠ .committing || (getCore s k).fatal then s
      else if passStopping s g then exitThread s t
      else if replayDue s g th t then replayAll s k (replaySet s g th t)
      else if mayCommit s g th t then commitAll s k (commitSet s g th t)
      else if cutOff g th then regather s t
      else s

/-- DROOP_HOLD_RELEASE (R198): 256 cycles after the cluster's last droop window, the held threads are replayed
once more. -/
def execDroopHoldRelease (cluster : Nat) (s : State) : Out :=
  match s.clusters[cluster]? with
  | none => .fault .noSuchAgent
  | some c =>
    .next (if c.droop || (getCore s (4 * cluster)).cycles.toNat < c.quietSince + 256 then s
      else
        let held := s.groups.flatMap fun g => match g.core with
          | some k => if clusterOf k = cluster then
              (g.threads.filter fun th => th.status = .committing && th.seg.held).map fun th =>
                (k, g.stage, refOf g th, th.seg.missed)
            else []
          | none => []
        held.foldl (fun s (k, stage, t, missed) =>
          replayThread (bump (bump s k 7 (some stage) 1) k 8 (some stage) (if missed then 1 else 0)) t id) s)

end Sys2Proof.Machine
end

