-- ==== Sys2Proof/Machine/Engines.lean ====
section
/-!
DEFINITION. Effects after commit: atomics and reductions (R121-R123, R243, R244), waits (R124, R125, R351), fences
(R126, R127, R248), copies (R130-R133, R342) and bank switches (R156, R216).
-/

namespace Sys2Proof.Machine

/-! ## Atomics and reductions (R120-R123) -/

/-- The new memory value of an operation (R120): `m` the old value, `v` the data, `new` the second value of
`acas`. -/
def atomicNew (op : AtomicOp) (type : Nat) (m v new : Wide) : Wide :=
  let w := type = 3 || type = 7
  let sgn := type = 2 || type = 3
  match op with
  | .add => if type = 10 then BitVec.ofNat 64 (add32 m.toNat v.toNat) else lowBits w (numOf w false m + numOf w false v)
  | .min => if type = 10 then BitVec.ofNat 64 (min32 m.toNat v.toNat)
    else if numOf w sgn v < numOf w sgn m then v else m
  | .max => if type = 10 then BitVec.ofNat 64 (max32 m.toNat v.toNat)
    else if numOf w sgn m < numOf w sgn v then v else m
  | .and => m &&& v
  | .or => m ||| v
  | .xor => m ^^^ v
  | .xchg => v
  | .cas => if m = v then new else m

/-- The die that owns an address: the XOR of its bits [47:12] (R243). -/
def ownerDie (va : Nat) : Nat := ((List.range 36).map fun i => va / 2 ^ (12 + i) % 2).foldl Nat.xor 0

/-- The die at whose home slice an operation is performed (R243). -/
def atomicDie (k scope va : Nat) : Nat := if 4 ≤ scope then ownerDie va else dieOf k

/-- Whether a re-read clears a mismatch is left open: a free bit decides (R323). -/
def rereadClears (s : State) : State × Bool :=
  let (s, x) := freshFree s
  (s, x.getLsbD 0)

/-- The places of `n` bytes; scratchpad bytes are read through the swizzle `z` (R130, R221). -/
def placesOf (z : Nat) (loc : Loc) (n : Nat) : List Loc :=
  (List.range n).map fun i => match loc with
    | .mem a => .mem (a + i)
    | .pad o => .pad (swizzled z (o + i))

/-- Whether a byte of a place is poisoned at the home slices of die `d` or in the scratchpad, and whether its check code is
wrong (R319, R321). -/
def homeFlaw (s : State) (d : Nat) (g : Group) : Loc → Bool × Bool
  | .mem a => ((homeFlaws s d).poisoned a, (homeFlaws s d).wrong a)
  | .pad o => (g.padPoison.contains (sectorOf o), g.padMismatch.contains (blockOf o))

/-- The codes of blocks, by their keys, are right again at the home slices of die `d` and in a group's scratchpad. -/
def mendHome (s : State) (d group : Nat) (blocks : List Nat) : State :=
  updGroup (updDie s d fun x => { x with flaws := x.flaws.mend blocks.contains }) group fun g =>
    { g with padSyndromes := dropSyndromes g.padSyndromes fun b => blocks.contains (padKey group b) }

/-- The codes of blocks are right again in the copies that the copy engine reads for core `k`: the lines of its cache, or the
home slices and the scratchpad. -/
def mendSource (s : State) (k group : Nat) (blocks : List Nat) : State :=
  let c := getCore s k
  let s := mendHome s (dieOf k) group (blocks.filter fun b => (lineIn c.aCache b).isNone)
  updCore s k fun c => { c with aCache := c.aCache.map fun l => { l with flaws := l.flaws.mend blocks.contains } }

/-- The blocks of some places, by their keys. -/
def blocksOf (group : Nat) (places : List Loc) : List Nat := places.map fun p => blockOf (keyAt group p)

/-- The data check of a read made after commit, with its one retry (R123, R124): `flaw` says what is wrong with a byte of
the copy that is read, and `mend` is the state in which a re-read has found its blocks right. -/
def checkPlaces (s : State) (k : Nat) (g : Group) (flaw : Loc → Bool × Bool) (mend : State → State) (places : List Loc) :
    State × Option Code :=
  if places.any fun p => (flaw p).1 then (s, some .poison)
  else if places.any fun p => (flaw p).2 then
    let (s, clears) := rereadClears s
    if clears then (bump (mend s) k 19 (some g.stage) 1, none) else (s, some .checkMismatch)
  else (s, none)

/-- The same for `n` bytes at a place, read at the home slices of die `d` or in the scratchpad. -/
def checkPlace (s : State) (k d : Nat) (g : Group) (loc : Loc) (n : Nat) : State × Option Code :=
  let places := placesOf 0 loc n
  checkPlaces s k g (homeFlaw s d g) (fun s => mendHome s d g.serial (blocksOf g.serial places)) places

/-- `n` bytes at a place, at the home slices of a die, or in the scratchpad. -/
def placeBytesAt (s : State) (d : Nat) (g : Group) (loc : Loc) (n : Nat) : List Byte :=
  match loc with
  | .mem a => homeBytes s d a n
  | .pad o => padRead g o n

def wideOf (bytes : List Byte) : Wide := BitVec.ofNat 64 (ofBytes bytes)

/-- One operation at its place. -/
structure AtomicOne where
  thread : ThreadRef
  op     : AtomicOp
  data   : Wide
  new    : Wide

/-- Applies operations one after another: the final value, and the value each one saw (R122). -/
def applyAtomics (type : Nat) : Wide → List AtomicOne → Wide × List (ThreadRef × Wide)
  | m, [] => (m, [])
  | m, a :: rest =>
    let (x, seen) := applyAtomics type (atomicNew a.op type m a.data a.new) rest
    (x, (a.thread, m) :: seen)

/-- Writes the combined result of the threads' operations, one event (R244): at the home slice of the die, or in the
scratchpad. -/
def writePlace (s : State) (k d group : Nat) (by_ : List ThreadRef) (loc : Loc) (bytes : List Byte) : State :=
  match loc with
  | .pad o => writePad s k by_ group (cellsAt o bytes)
  | .mem a => performAt (dropWritten s k (cellsAt a bytes)) d .v (some k) (cellsAt a bytes)

/-- The scope of an operation on a place: in the scratchpad one wider than group acts as group (R123). -/
def placeScope (loc : Loc) (scope : Nat) : Nat :=
  match loc with
  | .pad _ => min scope 1
  | .mem _ => scope

/-- What must come down before an operation at a die reads its place: the core's own dirty bytes there, and for
device scope every write (R235, R243); while the link holds a write back the operation waits (`comeDown`, R236). -/
def beforeAtomic (s : State) (k scope : Nat) (loc : Loc) (n : Nat) : State :=
  match loc with
  | .pad _ => s
  | .mem a =>
    let s := writeBack s k fun b => a ≤ b && b < a + n
    if 4 ≤ scope then toAll s else s

/-- Whether what `beforeAtomic` brings down is there: at device scope every write is applied at both dies. -/
def comeDown (s : State) (scope : Nat) : Bool := scope < 4 || allDone s

/-- Event 14 or 15 of R363: where the predictor places an operation (R122).  An operation on the scratchpad is performed there
(R123), and is neither. -/
def countAtomic (s : State) (k stage : Nat) (loc : Loc) (n : Nat) : State :=
  match loc with
  | .mem _ => bump s k (if Config.atomicInL1 s.serial then 15 else 14) (some stage) n
  | .pad _ => s

def insertOne (a : AtomicOne) : List AtomicOne → List AtomicOne
  | [] => [a]
  | b :: rest => if a.thread.lane ≤ b.thread.lane then a :: b :: rest else b :: insertOne a rest

/-- The same place: equal addresses, in one group for the scratchpad. -/
def samePlace (g h : Group) (a b : Loc) : Bool := sameSpot g.serial h.serial a b

/-- The thread's operation with this batch number, and whether it has been issued. -/
def atomicBatch : Effect → Option (Nat × Loc)
  | .atomic _ _ _ _ loc _ _ _ _ batch _ _ => some (batch, loc)
  | .reduction _ _ _ _ loc _ _ batch => some (batch, loc)
  | _ => none

/-- Whether a thread of the same word still has to commit an operation on the place (R122, R244). -/
def batchPending (s : State) (g : Group) (batch : Nat) (loc : Loc) : Bool :=
  s.groups.any fun h => h.threads.any fun th => match th.seg.effect.bind atomicBatch with
    | some (b, l) => b = batch && samePlace g h loc l
    | none => false

/-- The issued atomics of a batch on a place, in lane order. -/
def atomicsOf (s : State) (g : Group) (batch : Nat) (loc : Loc) : List AtomicOne :=
  (s.groups.flatMap fun h => h.threads.filterMap fun th => match th.status, th.waiting with
    | .parkedEffect, some (.atomic op _ _ _ l _ data new _ b _ _) =>
      if b = batch && samePlace g h loc l then some ⟨refOf h th, op, data, new⟩ else none
    | _, _ => none).foldr insertOne []

/-- Engine writes to the scratchpad that a thread must see are performed before its operation on a place there (R249). -/
def seeSeen (s : State) (t : ThreadRef) : Loc → State
  | .mem _ => s
  | .pad _ => match findThread s t with
    | some (_, th) => settleSeen s t.group th.saw
    | none => s

/-- Makes a thread's earlier accesses performed as an operation of order `ord` needs (R121): whether it may be
performed now. -/
def readyFor (s : State) (t : ThreadRef) (k scope ord id : Nat) (loc : Loc) (n : Nat) : State × Bool :=
  let release := ord = 2 || ord = 3
  let s := seeSeen (if release then releaseWork s t k scope else drainThread s t) t loc
  let earlier := s.reductions.filter fun r => r.thread = t && r.id < id
  (s, !storesBefore s t id && (if release then earlier.isEmpty && scopeDone s k scope
    else earlier.all fun r => !overlaps r.loc loc (typeWidth r.type) n))

/-- A fault found after commit on an atomic or a wait (R123, R124, R330): it names the instruction itself. -/
def lateFault (s : State) (t : ThreadRef) (code : Code) (loc : Loc) (va : Nat) (acc : Access) (pc hdr : Word) : State :=
  let paged : Bool := match loc with
    | .mem a => a < tierBase 3
    | .pad _ => false
  takeFault s t ⟨code.bits, true, pc, hdr, BitVec.ofNat 32 va, vaData1 va acc,
    some (if paged then .page (va / 65536) else .thread t)⟩ false

/-- The returned value of an atomic is written to d, its acquire is done, and its thread becomes ready. -/
def returnAtomic (s : State) (k scope ord : Nat) (wide : Bool) (loc : Loc) (d : Operand) (t : ThreadRef) (m : Wide) : State :=
  let s := returnResult s k t (destWrites wide m d).1
  let s := match loc with
    | .mem _ => if ord = 1 || ord = 3 then acquireWork s k scope else s
    | .pad _ => s
  makeReady s t

/-- Every operation of a batch may be performed now. -/
def readyAll (s : State) (k scope ord id : Nat) (loc : Loc) (n : Nat) : List ThreadRef → State × Bool
  | [] => (s, true)
  | t :: ts =>
    let (s, a) := readyFor s t k scope ord id loc n
    let (s, b) := readyAll s k scope ord id loc n ts
    (s, a && b)

/-- ATOMIC_PERFORM (R121): the atomics of one word on the same bytes are performed as one event, in lane order,
once every one of them is issued and its earlier accesses are performed as its order needs. -/
def execAtomicPerform (t : ThreadRef) (s : State) : Out :=
  onThread s t fun g th => match th.status, th.waiting, g.core with
    | .parkedEffect, some (.atomic _ type sc ord loc va _ _ d batch pc hdr), some k =>
      let n := typeWidth type
      let scope := placeScope loc sc
      let ops := atomicsOf s g batch loc
      if batchPending s g batch loc || ops.any (fun o => destPending s o.thread (n = 8) d) then s
      else
        let (s, ok) := readyAll s k scope ord (s.serial + 1) loc n (ops.map AtomicOne.thread)
        if !ok then s
        else
          let s := beforeAtomic s k scope loc n
          let die := atomicDie k scope va
          if !comeDown s scope then s else
          match checkPlace s k die ((findGroup s g.serial).getD g) loc n with
          | (s, some code) => (ops.map AtomicOne.thread).foldl (fun s u => lateFault s u code loc va .atomic pc hdr) s
          | (s, none) =>
            let here := (findGroup s g.serial).getD g
            let (x, seen) := applyAtomics type (wideOf (placeBytesAt s die here loc n)) ops
            let s := writePlace (countAtomic s k g.stage loc ops.length) k die g.serial (ops.map AtomicOne.thread) loc (toBytes x n)
            let s := if 4 ≤ scope then toAll s else s
            seen.foldl (fun s (u, m) => returnAtomic s k scope ord (n = 8) loc d u m) s
    | _, _, _ => s

/-- A thread of a gather segment as it stands for a fault that no word of it has raised: the closure it was issued in is
among the lanes it names (R144, R192; DEDUCED, log 43). -/
def gatherStand (th : Thread) : Option Thread :=
  if th.seg.gather || th.seg.closure ≠ 0 then
    some { th with seg := { th.seg with gather := true, mates := th.seg.mates ||| th.seg.closure } }
  else none

/-- A reduction fails after its retry (R123): by the state its thread is in.  In a gather segment the closure around the
thread is parked with it, and threads that take part in it later are too (R144, R192). -/
def reductionFault (s : State) (r : Reduction) (code : Code) : State :=
  match findThread s r.thread with
  | none => s
  | some (g, th) =>
    let paged : Bool := match r.loc with
      | .mem a => a < tierBase 3
      | .pad _ => false
    let rec_ : Record := ⟨code.bits, true, th.pc, th.hdr, BitVec.ofNat 32 r.va, vaData1 r.va .atomic,
      some (if paged then .page (r.va / 65536) else .thread r.thread)⟩
    let cut := { rec_ with pc := firstWord th.seg, hdr := th.seg.startHdr }
    match th.status with
    | .ready => takeFault s r.thread rec_ false
    | .running | .committing =>
      match gatherStand th with
      | none => takeFault (leaveBurst s r.core r.thread) r.thread cut false
      | some u =>
        let s := takeFault (leaveGather s r.core r.thread (matesData th.lane code) u.seg.mates) r.thread cut false
        parkMates s r.core g u code
    | .parkedEffect | .parkedFault | .parkedHost =>
      updThread s r.thread fun th => { th with late := th.late ++ [rec_] }
    | .exited => s

/-- REDUCTION_PERFORM (R123): the reductions of one word on the same bytes are performed as one event, or fail
after the retry and leave memory as it was. -/
def execReductionPerform (id : Nat) (s : State) : Out :=
  match s.reductions.find? fun r => r.id = id with
  | none => .next s
  | some r => match findGroup s r.thread.group with
    | none => .next { s with reductions := s.reductions.filter fun x => x.id ≠ id }
    | some g =>
      let n := typeWidth r.type
      if batchPending s g r.batch r.loc then .next s
      else
        let all := s.reductions.filter fun x => x.batch = r.batch && x.loc = r.loc &&
          (match r.loc with
            | .pad _ => x.thread.group = r.thread.group
            | .mem _ => true)
        let ops := (all.map fun x => AtomicOne.mk x.thread x.op x.data 0).foldr insertOne []
        let first := (all.map Reduction.id).foldl min id
        let scope := placeScope r.loc r.scope
        let (s, ok) := readyAll s r.core scope r.ord first r.loc n (ops.map AtomicOne.thread)
        if !ok then .next s
        else
          let s := beforeAtomic s r.core scope r.loc n
          if !comeDown s scope then .next s else
          let die := atomicDie r.core scope r.va
          let (s, bad) := checkPlace s r.core die ((findGroup s g.serial).getD g) r.loc n
          let s := { s with reductions := s.reductions.filter fun x => !(all.any fun y => y.id = x.id) }
          match bad with
          | some code => .next (all.foldl (fun s x => reductionFault s x code) s)
          | none =>
            let here := (findGroup s g.serial).getD g
            let (x, _) := applyAtomics r.type (wideOf (placeBytesAt s die here r.loc n)) ops
            let s := writePlace (countAtomic s r.core g.stage r.loc ops.length) r.core die g.serial (ops.map AtomicOne.thread) r.loc (toBytes x n)
            .next (if 4 ≤ scope then toAll s else s)

/-! ## Waits (R124, R125, R351) -/

/-- A free reserved entry goes to the oldest refused waiter (R125). -/
def promote (c : Core) : Core :=
  if c.reserved.length < 8 then
    match c.refused with
    | (t, _) :: rest => { c with reserved := c.reserved ++ [t], refused := rest }
    | [] => c
  else c

/-- A waiter gives up its entry or its place in the refusal queue. -/
def leaveWaits (c : Core) (t : ThreadRef) : Core :=
  promote { c with waits := c.waits.filter (· ≠ t), reserved := c.reserved.filter (· ≠ t)
                   refused := c.refused.filter fun m => m.1 ≠ t }

def isRefused (c : Core) (t : ThreadRef) : Bool := c.refused.any fun m => m.1 = t
def holdsEntry (c : Core) (t : ThreadRef) : Bool := c.waits.contains t || c.reserved.contains t

/-- A waiter whose condition does not hold asks for an entry (R125). -/
def requestEntry (s : State) (k : Nat) (t : ThreadRef) : State :=
  let c := getCore s k
  if holdsEntry c t || isRefused c t then s
  else if c.waits.length < 256 then updCore s k fun c => { c with waits := c.waits ++ [t] }
  else bump (updCore s k fun c => promote { c with refused := c.refused ++ [(t, c.cycles.toNat)] }) k 16
    ((findGroup s t.group).map Group.stage) 1

/-- A cluster is quiet when none of its cores has issued in the last 256 cycles (R351). -/
def quietCluster (s : State) (cluster : Nat) : Bool :=
  (List.range 4).all fun i =>
    let c := getCore s (4 * cluster + i)
    c.issued + 256 ≤ c.cycles.toNat

/-- Whether the bytes that a `waita` reads lie in a discarded page (R220). -/
def waitDiscarded (s : State) (k : Nat) (loc : Loc) (va : Nat) : Bool :=
  match loc with
  | .mem a => a < tierBase 3 && (match translate s k va .read with
    | .ok _ true => true
    | _ => false)
  | .pad _ => false

/-- The value a `waita` reads: at the home slice, zero on a discarded page (R124, R220). -/
def waitValue (s : State) (k : Nat) (g : Group) (loc : Loc) (va n : Nat) : Wide :=
  if waitDiscarded s k loc va then 0 else wideOf (placeBytesAt s (dieOf k) g loc n)

/-- The data check of an evaluation of a `waita`: a discarded page reads zero, before any check of its data (R107 order 4,
R124, R220). -/
def checkWait (s : State) (k : Nat) (g : Group) (loc : Loc) (va n : Nat) : State × Option Code :=
  if waitDiscarded s k loc va then (s, none) else checkPlace s k (dieOf k) g loc n

/-- What comes before an evaluation of a `waita` (R124): the thread's own stores and the core's dirty bytes there are
performed, engine writes that the thread must see are there, and no clean byte older than what it reads stays in L1
(R236, R240, R249). -/
def beforeWait (s : State) (k : Nat) (t : ThreadRef) (loc : Loc) (n : Nat) : State :=
  let s := seeSeen (drainThread s t) t loc
  match loc with
  | .mem a => countPages (dropClean (writeBack s k fun b => a ≤ b && b < a + n) k a n) [a]
  | .pad _ => s

/-- A satisfied wait on `n` bytes ends: an acquire at device scope, and of the copies that an arrival word among them reports
(R133); the thread waits for the slew limiter when `slow`. -/
def endWait (s : State) (k : Nat) (t : ThreadRef) (loc : Loc) (n : Nat) (slow : Bool) : State :=
  let s := updCore s k fun c => leaveWaits c t
  let s := match loc with
    | .mem _ => acquireWork s k 4
    | .pad o =>
      let ended := (List.range (n / 4)).flatMap fun i => endedAt s t.group (.word (o + 4 * i))
      updThread s t fun th => { th with saw := th.saw ++ ended }
  if slow then updThread s t fun th => { th with held := true } else makeReady s t

/-- One evaluation of a `waita` (R124). -/
def evaluateWait (s : State) (k : Nat) (g : Group) (t : ThreadRef) (first : Bool) : Effect → State
  | .wait type cond loc va cmp timeout guard issued pc hdr =>
    let n := typeWidth type
    let w := n = 8
    let sgn := type = 2 || type = 3
    let s := beforeWait s k t loc n
    match checkWait s k ((findGroup s g.serial).getD g) loc va n with
    | (s, some code) =>
      updThread (lateFault (updCore s k fun c => leaveWaits c t) t code loc va .read pc hdr) t fun th =>
        { th with rewait := isParked th.status }
    | (s, none) =>
      let x := waitValue s k ((findGroup s g.serial).getD g) loc va n
      let now := (getCore s k).cycles.toNat
      if condHolds cond (numOf w sgn x) (numOf w sgn cmp) then
        endWait s k t loc n (!first && quietCluster s (clusterOf k))
      else match timeout with
        | some c =>
          if c.toNat ≤ now - issued then
            makeReady (clearGuard (updCore s k fun c => leaveWaits c t) k t guard) t
          else requestEntry s k t
        | none => requestEntry s k t
  | _ => s

/-- A step of a thread parked in `waita` that the slew limiter does not hold; a group that is about to leave its core
still has its timeouts run out (R201). -/
def onWaiter (s : State) (t : ThreadRef) (f : Nat → Group → Thread → Effect → State) : Out :=
  onThread s t fun g th => match th.status, th.waiting, g.core with
    | .parkedEffect, some (.wait ty cond loc va cmp to_ guard issued pc hdr), some k =>
      if th.held then s
      else f k g th (.wait ty cond loc va cmp to_ guard issued pc hdr)
    | _, _, _ => s

/-- WAITA_REEVAL (R124): the first evaluation after commit, and each one that a write to the bytes causes in a
waiter that holds an entry. -/
def execWaitaReeval (t : ThreadRef) (s : State) : Out :=
  onWaiter s t fun k g _ e =>
    if isRefused (getCore s k) t then s else evaluateWait s k g t (!holdsEntry (getCore s k) t) e

/-- WAITA_TIMEOUT (R124): once the timeout has run out the wait is evaluated a last time and ends. -/
def execWaitaTimeout (t : ThreadRef) (s : State) : Out :=
  onWaiter s t fun k g _ e => match e with
    | .wait _ _ _ _ _ (some c) _ issued _ _ =>
      if (getCore s k).cycles.toNat - issued < c.toNat then s else evaluateWait s k g t false e
    | _ => s

/-- WAITA_POLL (R125): a refused waiter re-reads its word every 256 cycles. -/
def execWaitaPoll (t : ThreadRef) (s : State) : Out :=
  onWaiter s t fun k g _ e =>
    let c := getCore s k
    match c.refused.find? fun m => m.1 = t with
    | none => s
    | some m =>
      if c.cycles.toNat < m.2 + 256 then s
      else
        let s := updCore s k fun c => { c with refused := c.refused.map fun r =>
          if r.1 = t then (t, c.cycles.toNat) else r }
        evaluateWait s k g t false e

/-- The held threads of a cluster. -/
def heldThreads (s : State) (cluster : Nat) : List ThreadRef :=
  s.groups.flatMap fun g => match g.core with
    | some k => if clusterOf k = cluster then (g.threads.filter Thread.held).map (refOf g) else []
    | none => []

/-- Clusters of a die in admission order: from the one after the last admitted (R351). -/
def admitOrder (die last : Nat) : List Nat := (List.range 16).map fun i => 16 * die + (last + 1 + i) % 16

/-- WAKE_ADMIT (R351): a window of 64 reference cycles admits up to 8 quiet clusters. -/
def execWakeAdmit (die : Nat) (s : State) : Out :=
  match s.dies[die]? with
  | none => .fault .noSuchAgent
  | some d =>
    let fresh := d.slewUsed = 0 || d.slewAt + 64 ≤ refCycles s
    let used := if fresh then 0 else d.slewUsed
    let at_ := if fresh then refCycles s else d.slewAt
    let waiting := ((admitOrder die d.slewLast).filter fun c => !(heldThreads s c).isEmpty).take (8 - used)
    let s := waiting.foldl (fun s c => (heldThreads s c).foldl makeReady s) s
    .next (if waiting.isEmpty then s
      else updDie s die fun d => { d with
        slewUsed := used + waiting.length, slewAt := at_, slewLast := (waiting.getLastD 0) % 16 })

/-! ## Fences (R126, R127, R248) -/

/-- FENCE_COMPLETE (R126): its release step and its acquire step. -/
def execFenceComplete (t : ThreadRef) (s : State) : Out :=
  onThread s t fun g th => match th.status, th.waiting, g.core with
    | .parkedEffect, some (.fence scope ord), some k =>
      let release := ord = 2 || ord = 3
      let acquire := ord = 1 || ord = 3
      let s := if release then releaseWork s t k scope else s
      if release && !(releaseDone s t && scopeDone s k scope) then s
      else makeReady (if acquire then acquireWork s k scope else s) t
    | _, _, _ => s

/-- Whether the thread's own engine operations on a path have been performed (R127). -/
def pathDone (s : State) (k : Nat) (t : ThreadRef) : Path → Bool
  | .v => releaseDone s t
  | .a => s.copies.all fun c => c.thread ≠ t
  | .m =>
    let c := getCore s k
    c.mxQueue.all (fun i => i.thread ≠ t) && (c.mxRun.map fun r => decide (r.item.thread ≠ t)).getD true
  | .s | .g | .h => true

/-- The caches of path `dst` of every core that the scope contains lose what path `src` has made stale: the lines that lack
a write made on it within the scope (R127, R247, R248).  L1 holds no stamps, and loses its clean lines. -/
def invalidatePath (s : State) (scope k : Nat) (src dst : Path) : State :=
  let stale := staleLine s (writtenIn scope k src)
  let clean := fun (j : Nat) (c : Core) =>
    if !coreInScope scope k j then c
    else match dst with
      | .v => pruneL1 { c with l1Clean := [] }
      | .s => { c with sCache := c.sCache.filter fun l => !stale l }
      | .a => { c with aCache := c.aCache.filter fun l => !stale l }
      | .m => { c with mCache := c.mCache.filter fun l => !stale l }
      | .g | .h => c
  { s with cores := s.cores.mapIdx clean }

/-- XFENCE_COMPLETE (R127): the accesses on the source path are performed at the scope, engine writes that other paths had
not seen included, and the caches of the other path lose what they made stale. -/
def execXfenceComplete (t : ThreadRef) (s : State) : Out :=
  onThread s t fun g th => match th.status, th.waiting, g.core with
    | .parkedEffect, some (.xfence scope src dst), some k =>
      let s := if src = .v then releaseWork s t k (max scope 3) else s
      let s := settleLate s fun l => l.path = src && coreInScope scope k l.core
      let s := if 4 ≤ scope then toAll s else s
      if pathDone s k t src && (scope < 4 || allDone s) then
        makeReady (invalidatePath (if dst = .v then joinV s scope k src else s) scope k src dst) t
      else s
    | _, _, _ => s

/-! ## Copies (R130-R133, R342) -/

def updCopy (s : State) (id : Nat) (f : Copy → Copy) : State :=
  { s with copies := s.copies.map fun c => if c.id = id then f c else c }

/-- Length of the part of a run that lies in one translation unit of a core (R342). -/
def unitLeft (s : State) (k : Nat) : CopyEnd → Nat
  | .va a =>
    let c := getCore s k
    match findRange c.ranges a with
    | some r => r.base + r.len - a
    | none => match tierOf s a with
      | none => 65536 - a % 65536
      | some tier => match walk s a tier with
        | .ok p => p.base + 2 ^ p.bits - a
        | .error _ => 65536 - a % 65536
  | .ring _ | .pad _ _ => 2 ^ 48

def CopyEnd.advance (n : Nat) : CopyEnd → CopyEnd
  | .va a => .va (a + n)
  | .ring a => .ring (a + n)
  | .pad o z => .pad (o + n) z

/-- The first piece of a run, and what is left of it (R342). -/
def splitMove (s : State) (k : Nat) (m : Move) : Move × List Move :=
  let n := min m.len (min (unitLeft s k m.src) (unitLeft s k m.dst))
  (⟨m.src, m.dst, n⟩, if n < m.len then [⟨m.src.advance n, m.dst.advance n, m.len - n⟩] else [])

/-- What stops a piece: an absent page waits, the others fail with a status of R132. -/
inductive PieceEnd where
  | absent (va : Nat)
  | fails (status : Nat)
  deriving DecidableEq, Repr

/-- Where an end of a piece stands, after translation for reading or writing (R131). -/
def placeEnd (s : State) (k : Nat) (acc : Access) (e : CopyEnd) : Except PieceEnd (Loc × Bool) :=
  match e with
  | .ring a => .ok (.mem (ringStorage a), false)
  | .pad o _ => .ok (.pad o, false)
  | .va a => match translate s k a acc with
    | .absent => .error (.absent a)
    | .protect => .error (.fails 2)
    | .ok p discarded => if discarded && writes acc then .error (.fails 5) else .ok (.mem p, discarded)

/-- Order of destination addresses among the failing pieces (R342). -/
def CopyEnd.order : CopyEnd → Nat
  | .va a | .ring a | .pad a _ => a

def CopyEnd.swizzle : CopyEnd → Nat
  | .pad _ z => z
  | _ => 0

/-- The bytes of a source: a discarded page reads zero; scratchpad through its swizzle (R130, R220). -/
def sourceBytes (s : State) (k : Nat) (g : Group) (z : Nat) (src : Loc × Bool) (n : Nat) : List Byte :=
  (List.range n).map fun i => if src.2 then 0 else match src.1 with
    | .mem a => aByte s k g (.mem (a + i))
    | .pad o => aByte s k g (.pad (swizzled z (o + i)))

/-- Writes a piece of a copy on path A, in the scratchpad through the destination's swizzle, whose tags it sets (R130).
Other paths need not see the bytes until a crossing or an `xfence` (R247). -/
def writePiece (s : State) (k : Nat) (c : Copy) (z : Nat) (dst : Loc) (sound : Bool) (bytes : List Byte) : State :=
  match dst with
  | .mem a => addLate s .a c.id c.thread k sound ((cellsAt a bytes).map fun x => (.mem x.1, x.2))
  | .pad o =>
    let cells := bytes.mapIdx fun i b => (swizzled z (o + i), b)
    let s := addLate s .a c.id c.thread k sound (cells.map fun x => (.pad x.1, x.2))
    updGroup s c.thread.group fun g => setTags g cells z

/-- `n` free bytes. -/
def freeBytes : Nat → State → State × List Byte
  | 0, s => (s, [])
  | n + 1, s =>
    let (s, x) := freshFree s
    let (s, bs) := freeBytes n s
    (s, x.setWidth 8 :: bs)

/-- A run of a piece that fails: after a second check mismatch it is unwritten (R323); after any other failure it is left
unspecified, and its destination bytes are free values where they can be written (R131, R326). -/
def failRun (s : State) (k : Nat) (c : Copy) (m : Move) (status : Nat) : State :=
  let s := updCopy s c.id fun c => { c with failed := c.failed ++ [(m.dst.order, status)] }
  if status = 4 then s else
  match placeEnd s k .write m.dst with
  | .error _ => s
  | .ok (dst, _) =>
    let (s, bytes) := freeBytes m.len s
    writePiece s k c m.dst.swizzle dst false bytes

/-- A piece fails: every run of it. -/
def failPiece (s : State) (k : Nat) (c : Copy) (ms : List Move) (status : Nat) : State :=
  ms.foldl (fun s m => failRun s k c m status) s

/-- What a copy must see of its source on path A: the core's committed stores to it come down to the home slice, and the
cached lines that lack a store of the core go (R130, R249). -/
def openSource (s : State) (k : Nat) (src : Loc) (n : Nat) : State :=
  let s := match src with
    | .mem a => countPages (writeBack s k fun b => a ≤ b && b < a + n) [a, a + n - 1]
    | .pad _ => s
  let stale := staleLine s fun w => w.path = .v && w.core = some k
  updCore s k fun c => { c with aCache := c.aCache.filter fun l => !stale l }

/-- A run with its ends in place: the source and whether its page is discarded, and the destination. -/
structure Placed where
  run : Move
  src : Loc × Bool
  dst : Loc

/-- The runs of a piece in place, or what stops the first that is not. -/
def placeRuns (s : State) (k : Nat) : List Move → Except PieceEnd (List Placed)
  | [] => .ok []
  | m :: ms => match placeEnd s k .read m.src, placeEnd s k .write m.dst, placeRuns s k ms with
    | .error e, _, _ | .ok _, .error e, _ | .ok _, .ok _, .error e => .error e
    | .ok src, .ok dst, .ok ps => .ok (⟨m, src, dst.1⟩ :: ps)

/-- The places a run reads; a discarded page is not read (R220). -/
def Placed.places (p : Placed) : List Loc := if p.src.2 then [] else placesOf p.run.src.swizzle p.src.1 p.run.len

/-- Writes the bytes of a run, and counts them. -/
def moveRun (k : Nat) (c : Copy) (s : State) (x : Placed × List Byte) : State :=
  updCopy (writePiece s k c x.1.run.dst.swizzle x.1.dst true x.2) c.id fun c => { c with moved := c.moved + x.1.run.len }

/-- Moves a piece, or says why it cannot be moved.  What the copy must see of its sources comes down first, the data checks
are made on what it then reads, of the whole piece, and its bytes are read before any is written (R130, R131, R323, R342). -/
def movePiece (s : State) (k : Nat) (g : Group) (c : Copy) (ms : List Move) : Except PieceEnd State :=
  match placeRuns s k ms with
  | .error e => .error e
  | .ok ps =>
    let s := ps.foldl (fun s p => openSource s k p.src.1 p.run.len) s
    let places := ps.flatMap Placed.places
    match checkPlaces s k g (aFlaw s k g) (fun s => mendSource s k g.serial (blocksOf g.serial places)) places with
    | (s, some .poison) => .ok (failPiece s k c ms 3)
    | (s, some _) => .ok (failPiece s k c ms 4)
    | (s, none) => .ok ((ps.map fun p => (p, sourceBytes s k g p.run.src.swizzle p.src p.run.len)).foldl (moveRun k c) s)

/-- A step of the copy engine for a copy whose group is on a core. -/
def onCopy (s : State) (id : Nat) (f : Copy → Group → Nat → State) : Out :=
  .next (match s.copies.find? fun c => c.id = id with
    | none => s
    | some c => match findGroup s c.thread.group with
      | none => s
      | some g => match g.core with
        | some k => f c g k
        | none => s)

def moveWaits (s : State) (m : Move) : Bool :=
  [m.src, m.dst].any fun e => match e with
    | .va a => onTheMove s a
    | _ => false

/-- Where the translation unit of an end of a run ends (R342). -/
def unitEnd (s : State) (k : Nat) : CopyEnd → Nat
  | .va a => a + unitLeft s k (.va a)
  | .ring _ | .pad _ _ => 0

/-- Whether two runs lie in one piece: in one translation unit at either end (R342). -/
def samePiece (s : State) (k : Nat) (m n : Move) : Bool :=
  unitEnd s k m.src = unitEnd s k n.src && unitEnd s k m.dst = unitEnd s k n.dst

/-- The parts of a run in the translation units of its ends, at most `n` and what is left. -/
def splitRun (s : State) (k : Nat) : Nat → Move → List Move
  | 0, m => [m]
  | n + 1, m => match splitMove s k m with
    | (p, more) => p :: more.flatMap (splitRun s k n)

/-- The first piece of what is to be copied, all its runs, and the rest: the rows of `cpy2` that lie in the same units at both
ends are one piece (R342). -/
def takePiece (s : State) (k : Nat) : List Move → List Move × List Move
  | [] => ([], [])
  | m :: rest =>
    let (p, more) := splitMove s k m
    let parts := fun n => let ps := splitRun s k n.len n; if ps.any (samePiece s k p) then ps else [n]
    let (same, others) := (rest.flatMap parts).partition (samePiece s k p)
    (p :: same, more ++ others)

/-- The page of a run that is absent. -/
def absentPage (s : State) (k : Nat) (m : Move) : Option Nat :=
  match placeEnd s k .read m.src, placeEnd s k .write m.dst with
  | .error (.absent va), _ | .ok _, .error (.absent va) => some (va / 65536)
  | _, _ => none

/-- A piece whose translation fails is listed; it waits on the notice that is outstanding for its page (R332, R342). -/
def listPiece (s : State) (k : Nat) (g : Group) (c : Copy) (ms : List Move) : State :=
  let note := ((ms.head?).bind (absentPage s k)).bind fun p => openNotice s (.page p, 0x13)
  bump (updCopy s c.id fun c => { c with fixups := c.fixups ++ [(ms, note)] }) k 22 (some g.stage) 1

/-- COPY_PIECE (R131, R342): the next piece is moved, fails at once, or is listed for fix-up; a full list holds the
copy. -/
def execCopyPiece (id : Nat) (s : State) : Out :=
  onCopy s id fun c g k =>
    let (piece, rest) := takePiece s k c.todo
    if c.todo.isEmpty || 16 ≤ c.fixups.length || storesBefore s c.thread c.id || piece.any (moveWaits s) then s
    else
      let s := updCopy s id fun c => { c with todo := rest }
      match movePiece s k g c piece with
      | .ok s => s
      | .error _ => listPiece s k g c piece

/-- Every listed piece that waits on no notice, and whose page is the absent one, waits on this notice (R332). -/
def attachNotice (s : State) (page n : Nat) : State :=
  let core := fun (c : Copy) => ((findGroup s c.thread.group).bind Group.core).getD 0
  { s with copies := s.copies.map fun c => { c with fixups := c.fixups.map fun f =>
      if f.2.isNone && (f.1.head?.bind (absentPage s (core c))) = some page then (f.1, some n) else f } }

/-- The notice an absent page of a piece waits on (R332, R342). -/
def pieceNotice (s : State) (g : Group) (k : Nat) (t : ThreadRef) (va : Nat) : State :=
  let (s, n) := faultNotice s (.fault g.ctx g.stage k (threadPlace s g t) 0x13 va) (.page (va / 65536), 0x13)
  attachNotice s (va / 65536) n

/-- The answer to the notice a listed piece waits on; none while it is outstanding. -/
def pieceAnswer (s : State) (n : Nat) : Option Answer := (s.notices[n]?).bind Notice.answer

/-- COPY_FIXUP_RESOLVE (R131, R342): the first listed piece is replayed, fails, or waits on a fault notice for its absent
page; the answer retry replays it once, and any other answer, or a page still absent, fails it with status 1.  A piece on
a range on the move waits (R317). -/
def execCopyFixupResolve (id : Nat) (s : State) : Out :=
  onCopy s id fun c g k => match c.fixups with
    | [] => s
    | (ms, note) :: rest =>
      let put := fun (s : State) (f : List (List Move × Option Nat)) => updCopy s id fun c => { c with fixups := f }
      let again := fun (absent : Nat → State) =>
        if ms.any (moveWaits s) then s
        else match movePiece s k g c ms with
          | .ok s => put s rest
          | .error (.fails n) => put (failPiece s k c ms n) rest
          | .error (.absent va) => absent va
      match note with
      | none => again fun va => pieceNotice s g k c.thread va
      | some n => match pieceAnswer s n with
        | none => s
        | some .retry => again fun _ => put (failPiece s k c ms 1) rest
        | some _ => put (failPiece s k c ms 1) rest

/-- The status of the failing piece with the lowest destination address (R342). -/
def copyStatus (c : Copy) : Nat :=
  match c.failed with
  | [] => 0
  | x :: rest => (rest.foldl (fun b y => if y.1 < b.1 then y else b) x).2

/-- COPY_COMPLETE (R132): every piece is moved or has failed; the token or the arrival word is written.  The last of the
copies that were in flight when a remap entry was taken frees it (R341). -/
def execCopyComplete (id : Nat) (s : State) : Out :=
  onCopy s id fun c g _ =>
    if !c.cancelled && (!c.todo.isEmpty || !c.fixups.isEmpty) then s
    else
      let s := report { s with copies := s.copies.filter fun x => x.id ≠ id } id g.serial c.arrival
      let s := arrive s g.serial c.arrival c.moved (if c.cancelled then 6 else copyStatus c)
      let done := fun (r : Remap) => { r with copies := r.copies.filter (· ≠ id) }
      { s with dies := s.dies.map fun d => { d with remaps := (d.remaps.map done).filter fun r => !r.copies.isEmpty } }

/-! ## Bank roles (R156, R216) -/

def cacheBanks (c : Core) : Nat := (c.banks.filter Bank.caches).length

/-- A core's copy of the roles shows a bank's role (R135). -/
def Core.copyRole (c : Core) (k bank : Nat) (role : BankRole) : Core :=
  let rest := c.roleCopy.filter fun r => !(r.1 = k && r.2.1 = bank)
  { c with roleCopy := if role = .cache then rest else rest ++ [(k, bank, role)] }

/-- Every core's copy of the roles shows the bank's new role (R135). -/
def setRoleCopies (s : State) (k bank : Nat) (role : BankRole) : State :=
  { s with cores := s.cores.map fun c => c.copyRole k bank role }

/-- Banks of a core in the scratchpad role. -/
def padBanks (c : Core) : Nat := (c.banks.filter fun b => b.role = .pad).length

/-- Cache and FIFO banks of a core that a `banksw` which has begun will give the scratchpad role (R216). -/
def padsComing (s : State) (k : Nat) : Nat :=
  (s.bankRequests.filter fun r =>
    r.stage = 1 && (r.request.extractLsb' 7 7).toNat = k && (r.request.extractLsb' 5 2).toNat = 1).length

/-- Scratchpad banks of a core that no group owns. -/
def idlePads (s : State) (k : Nat) : Nat := ((getCore s k).banks.filter fun b => b.role = .pad && b.owner.isNone).length

/-- Banks that groups on their way to the core have reserved (R340). -/
def wantedBanks (s : State) (k : Nat) : Nat :=
  ((s.groups.filter fun g => g.phase = .migrating k).map fun g =>
    ((findPass s g.ctx g.stage).map Pass.scratchBanks).getD 0).sum

/-- Those that it must still take from its cache (R292, R340): they count as scratchpad banks, and no longer as cache banks
that may change their role. -/
def reservedBanks (s : State) (k : Nat) : Nat := wantedBanks s k - idlePads s k

/-- The status with which a change of role is refused, if it is (R156, R216).  A change that would make a 25th
scratchpad bank is refused with status 3 (R215; log 16), and so is one that takes an idle scratchpad bank which a group on its
way counts on, where the core could then keep no 4 cache banks (R215, R340; log 16). -/
def bankRefused (s : State) (k bank : Nat) (role : BankRole) : Option Nat :=
  let c := getCore s k
  let b := c.banks.getD bank Bank.reset
  let full : Option Nat := if role = .pad && 24 ≤ padBanks c + padsComing s k + reservedBanks s k then some 3 else none
  if b.role = role then some 1
  else match b.role with
    | .cache => if cacheBanks c ≤ 4 + reservedBanks s k then some 3 else full
    | .pad =>
      if b.owner.isSome then some 2
      else if role = .fifo && cacheBanks c < 4 + (wantedBanks s k - (idlePads s k - 1)) then some 3
      else none
    | .fifo => if b.entries.isEmpty && b.parked.isEmpty then full else some 4

/-- The lines that a cache bank holds leave L1: their dirty bytes are written to the home slice (R216). -/
def emptyBank (s : State) (k bank : Nat) : State :=
  (((getCore s k).l1Lines.filter fun l => l.bank = bank).map L1Line.line).foldl (fun s line => evictLine s k line) s

/-- The lines of a cache bank leave it, its contents go, and its role changes (R216). -/
def changeRole (s : State) (k bank : Nat) (role : BankRole) : State :=
  let s := if (getBank s k bank).role = .cache then emptyBank s k bank else s
  updBank s k bank fun _ => ⟨role, none, [], [], [], 0, [], false⟩

/-- The change of a bank that the command processor takes for a group, with every core's copy (R216, R292). -/
def switchBank (s : State) (k bank : Nat) (role : BankRole) : State := setRoleCopies (changeRole s k bank role) k bank role

/-- A `banksw` request has come to a stage. -/
def toStage (s : State) (id n : Nat) : State :=
  { s with bankRequests := s.bankRequests.map fun r => if r.id = id then { r with stage := n } else r }

/-- What a request that is not refused does next (R216): a cache bank stops allocating first; then the role changes; then
every core's copy follows, and the token is written. -/
def advanceSwitch (s : State) (r : BankRequest) (k bank : Nat) (role : BankRole) (done : State → Nat → State) : State :=
  if r.stage = 0 && (getBank s k bank).role = .cache then
    toStage (updBank s k bank fun b => { b with leaving := true }) r.id 1
  else if r.stage < 2 then toStage (changeRole s k bank role) r.id 2
  else done (setRoleCopies s k bank role) 0

/-- BANK_SWITCH (R216): refuses a `banksw` request, or carries it on, and writes its token at its end (R156).  A request
for a bank that is leaving already waits. -/
def execBankSwitch (id : Nat) (s : State) : Out :=
  .next (match s.bankRequests.find? fun r => r.id = id with
    | none => s
    | some r =>
      let bank := (r.request.extractLsb' 0 5).toNat
      let k := (r.request.extractLsb' 7 7).toNat
      let role : Option BankRole := match (r.request.extractLsb' 5 2).toNat with
        | 0 => some .cache
        | 1 => some .pad
        | 2 => some .fifo
        | _ => none
      let done := fun (s : State) (status : Nat) =>
        writeToken { s with bankRequests := s.bankRequests.filter fun x => x.id ≠ id } r.group r.row r.token
          (BitVec.ofNat 32 (status * 2 ^ 28))
      match role with
      | none => done s 5
      | some role =>
        if r.request.toNat / 2 ^ 14 ≠ 0 then done s 5
        else if 0 < r.stage then advanceSwitch s r k bank role done
        else if (getBank s k bank).leaving then s
        else match bankRefused s k bank role with
          | some n => done s n
          | none => advanceSwitch s r k bank role done)

end Sys2Proof.Machine
end

