-- ==== Sys2Proof/Machine/Link.lean ====
section
/-!
DEFINITION. The host link: host memory (R352), commands and their completion (R353-R355), notices (R357), messages
(R250, R320, R323, R352) and the writes that cross between the dies (R242).
-/

namespace Sys2Proof.Machine

/-! ## Host memory -/

/-- A byte of host memory; a byte nothing has written is a deep-tier byte's initial value (R364). -/
def hostByte (s : State) (a : Nat) : Byte := (Memory.read s.hostMem a).getD (Config.initByte s.epoch (tierBase 2 + a))
def hostBytes (s : State) (a n : Nat) : List Byte := (List.range n).map fun i => hostByte s (a + i)
def writeHost (s : State) (a : Nat) (bytes : List Byte) : State :=
  { s with hostMem := Memory.writeAll s.hostMem (cellsAt a bytes) }

/-- Fields at places that the spec leaves open, in `size` bytes that are zero elsewhere.  Places at which the fields do not
fit beside one another are no layout: the fields then stand in order. -/
def layOut (size : Nat) (place : Nat → Nat) (fields : List (List Byte)) : List Byte :=
  let inOrder := (fields.foldl (fun (acc : List (Nat × List Byte) × Nat) f => (acc.1 ++ [(acc.2, f)], acc.2 + f.length)) ([], 0)).1
  let open_ := fields.mapIdx fun i f => (place i, f)
  let covers := fun (x : Nat × List Byte) (a : Nat) => x.1 ≤ a && decide (a < x.1 + x.2.length)
  let fits := open_.all (fun x => decide (x.1 + x.2.length ≤ size)) &&
    (List.range size).all fun a => decide ((open_.filter fun x => covers x a).length ≤ 1)
  let used := if fits then open_ else inOrder
  (List.range size).map fun a => match used.find? fun x => covers x a with
    | some x => x.2.getD (a - x.1) 0
    | none => 0

/-! ## Commands (R353, R354) -/

def getQueue (s : State) (q : Nat) : Option Queue := (s.queues[q]?).join
def updQueue (s : State) (q : Nat) (f : Queue → Queue) : State :=
  { s with queues := s.queues.modify q fun o => o.map f }

/-- A command completes: its status word, then the queue's completed index, then its interrupt (R354). -/
def finishCommand (s : State) (q index : Nat) (irq : Bool) (status : Nat) : State :=
  match getQueue s q with
  | none => s
  | some x =>
    let s := writeHost s (x.ring.toNat + 64 * (index % x.size) + 4) (toBytes (BitVec.ofNat 32 status) 4)
    updQueue s q fun x => { x with
      statuses := x.statuses ++ [⟨index, status⟩], completed := x.completed + 1
      interrupts := x.interrupts + (if irq then 1 else 0) }

/-- Whether the next entry of a command's queue may start: the doorbell has passed it, no graph before it waits, and
with `after` every earlier command has completed (R354). -/
def mayStart (s : State) (c : Cmd) (x : Queue) : Bool :=
  BitVec.ofNat 32 x.started ≠ x.tail && !s.waiting.any (fun w => w.queue = c.queue) &&
    (!c.after || x.completed = x.started)

/-- What a command's effect answers: a status when it is done, or what it still waits for. -/
inductive CmdEnd where
  | done (status : Nat)
  | waits (w : CmdWait)
  /-- It is completed elsewhere: a graph submission or a tier move. -/
  | later
  deriving DecidableEq, Repr

/-- Runs the next command of a queue (R353-R355): a nonzero reserved field or an operand out of range completes it
with status 4, a command kept from user queues with status 3 on one; in recovery only commands that `inRecovery`
allows run, and the others are refused (R358). -/
def runCommand (s : State) (c : Cmd) (onlyPrivileged inRecovery valid : Bool) (f : State → Nat → State × CmdEnd) : Out :=
  .next (match getQueue s c.queue with
    | none => s
    | some x =>
      if !mayStart s c x then s
      else
        let n := x.started
        let s := updQueue s c.queue fun x => { x with started := x.started + 1 }
        let done := fun (s : State) (status : Nat) => finishCommand s c.queue n c.irq status
        if s.running.isNone && !inRecovery then done s 2
        else if c.rsv ≠ 0 || !valid then done s 4
        else if onlyPrivileged && !x.privileged then done s 3
        else match f s n with
          | (s, .done status) => done s status
          | (s, .waits w) => { s with commands := s.commands ++ [⟨c.queue, n, c.irq, w⟩] }
          | (s, .later) => s)

/-! ## The doorbell, and registering queues (R353) -/

/-- DOORBELL (R353): the queue's tail advances. -/
def execDoorbell (q : Nat) (tail : BitVec 32) (s : State) : Out := .next (updQueue s q fun x => { x with tail := tail })

def freeQueue (s : State) : Option Nat := (List.range 15).map (· + 1) |>.find? fun i => (getQueue s i).isNone

def newQueue (privileged : Bool) (ring : Wide) (size : Nat) : Queue := ⟨privileged, ring, size, 0, 0, 0, [], 0⟩

/-- REGISTER_QUEUE (R353): queue 0 registers the lowest-numbered free queue, up to 15. -/
def execRegisterQueue (c : Cmd) (ring : BitVec 64) (size : Nat) (priv : Bool) (s : State) : Out :=
  runCommand s c true false (0 < size && size < 2 ^ 32) fun s _ =>
    if c.queue ≠ 0 then (s, .done 3)
    else match freeQueue s with
      | none => (s, .done 2)
      | some i => ({ s with queues := s.queues.set i (some (newQueue priv ring size)) }, .done 0)

/-! ## Notices (R357) -/

/-- REGISTER_NOTICE_RING (R357): every notice begun on an old ring has been written, since each is written in one
step. -/
def execRegisterNoticeRing (c : Cmd) (ring : BitVec 64) (count : Nat) (s : State) : Out :=
  runCommand s c true true (ring.toNat % 64 = 0 && 16 ≤ count && count ≤ 65536 && 2 ^ Nat.log2 count = count) fun s _ =>
    if c.queue ≠ 0 then (s, .done 3)
    else ({ s with noticeRing := some (ring, count) }, .done 0)

def hostWord (s : State) (a : Nat) : Word := BitVec.ofNat 32 (ofBytes (hostBytes s a 4))

/-- The code of a notice, and its payload by fields (R357). -/
def noticeCode : Payload → Nat
  | .fault .. => 1
  | .ringStall .. => 2
  | .starvation _ => 3
  | .poison _ => 4
  | .coreError .. => 5
  | .integrity _ => 6
  | .selfTest .. => 7
  | .thermal .. => 8
  | .boot .. => 9

def natBytes (n x : Nat) : List Byte := toBytes (BitVec.ofNat (8 * n) x) n

def payloadFields : Payload → List (List Byte)
  | .fault ctx stage core place code va => [natBytes 1 ctx, natBytes 1 stage, natBytes 1 core, natBytes 2 place, natBytes 1 code, natBytes 6 va]
  | .ringStall ctx res tile => [natBytes 1 ctx, natBytes 2 res, natBytes 4 tile]
  | .starvation stage => [natBytes 1 stage]
  | .poison handle => [natBytes 4 handle]
  | .coreError core structure_ fatal => [natBytes 1 core, natBytes 1 structure_, natBytes 1 (if fatal then 1 else 0)]
  | .integrity va => [natBytes 6 va]
  | .selfTest core mac sub cond => [natBytes 1 core, natBytes 1 mac, natBytes 1 sub, natBytes 1 cond]
  | .thermal vault band => [natBytes 1 vault, natBytes 1 band]
  | .boot stage reason => [natBytes 1 stage, natBytes 1 reason]

/-- The 32 bytes of a notice entry: its code, its index and its payload, at places that R357 leaves open (log 9). -/
def noticeBytes (n : Notice) : List Byte :=
  layOut 32 (Config.noticePlace (noticeCode n.payload))
    (natBytes 1 (noticeCode n.payload) :: natBytes 4 n.index :: payloadFields n.payload)

/-- NOTICE_WRITE (R357): the first held notice is written when the ring has room, `write_idx` advances and an
interrupt is sent. -/
def execNoticeWrite (s : State) : Out :=
  .next (match s.noticeRing, s.notices.find? fun n => !n.written with
    | some (ring, count), some n =>
      let w := hostWord s ring.toNat
      let r := hostWord s (ring.toNat + 4)
      if (w - r).toNat = count then s
      else
        let s := writeHost s (ring.toNat + 64 + 32 * (w.toNat % count)) (noticeBytes n)
        let s := writeHost s ring.toNat (toBytes (w + 1) 4)
        let s := updQueue s 0 fun x => { x with interrupts := x.interrupts + 1 }
        { s with notices := s.notices.map fun m => if m.index = n.index then { m with written := true } else m }
    | _, _ => s)

/-! ## Messages of the host (R250, R352) -/

/-- A byte of device memory as a host read sees it: path H at system scope; zero on a discarded page (R220), a free
value where nothing translates. -/
def linkByte (s : State) (va i : Nat) : Byte :=
  match translateH s (va + i) .read with
  | .ok a discarded => if discarded then 0 else homeByte s 0 a
  | _ => (Config.freeValue (s.freeCount + i)).setWidth 8

/-- Whether a byte of device memory is poisoned, or its check code fails at the egress (R323). -/
def linkBad (s : State) (va i : Nat) : Bool × Bool :=
  match translateH s (va + i) .read with
  | .ok a _ => ((homeFlaws s 0).poisoned a, (homeFlaws s 0).wrong a)
  | _ => (false, false)

/-- The header of the device's answer to a message of the host: its reserved fields are 0 (R5, R352). -/
def answerHead (m : LinkHead) (type chunks : BitVec 4) (poison : Bool) : LinkHead :=
  { m with type := type, chunks := chunks, poison := poison, rsvLow := 0, rsvMid := 0, rsvHigh := 0 }

/-- HOST_READ_REQUEST (R352): a read of a range on the move waits (R214, R317).  Otherwise the device answers a read with the
bytes and their poison indication; a check-code mismatch at the egress also sends an integrity notice (R323).  R5 has a record
with a nonzero reserved field rejected with the error of the consuming rule, and R352 names none: a message whose reserved
header bits are not 0 is taken like any other, here and in `admitWrite` (DESIGN CHOICE, log 34). -/
def execHostReadRequest (m : LinkHead) (s : State) : Out :=
  let va := m.addr.toNat
  let n := 16 * m.chunks.toNat
  if m.type ≠ 0 || 8 < m.chunks.toNat then .next s
  else if (List.range n).any fun i => onTheMove s (va + i) then
    .next { s with agenda := s.agenda ++ [.event (.hostReadRequest m)] }
  else
    let bytes := (List.range n).map (linkByte s va)
    let poison := (List.range n).any fun i => (linkBad s va i).1
    let wrong := (List.range n).find? fun i => (linkBad s va i).2
    let head := answerHead m 1 m.chunks (poison || wrong.isSome)
    let s := { s with freeCount := s.freeCount + n, linkReplies := s.linkReplies ++ [(head, bytes)] }
    .next (match wrong with
      | some i => (notify s (.integrity (va + i)) none).1
      | none => s)

/-- The storage cells of a host write: bytes whose address translates for writing. -/
def hostCells (s : State) (va : Nat) (data : List Byte) : List Host.Cell :=
  (cellsAt va data).filterMap fun c => match translateH s c.1 .write with
    | .ok a discarded => if discarded then none else some (a, c.2)
    | _ => none

/-- Whether a write of the host waits, or is still to be applied at a die. -/
def hostPending (s : State) : Bool := !s.hostHeld.isEmpty || s.dies.any fun d => d.from_.any fun e => e.1 = .host

/-- Whether a die has still to apply as many writes of the host as R242 admits. -/
def hostFull (s : State) : Bool := s.dies.any fun d => decide (2 ^ 20 ≤ (d.from_.filter fun e => e.1 = .host).length)

/-- The poison marks of data that the host sends poisoned, or finds no sound copy of (R319, R320, R352). -/
def poisonOf (cells : List Host.Cell) : Flaws := ⟨cells.foldl (fun l c => insertMark l (sectorOf c.1)) [], []⟩

/-- A write of the host enters the order of its link and waits at both dies for its clock condition; a whole sector
rewritten loses its poison mark, and data sent poisoned marks its sectors (R242, R319, R352).  The device answers with a
write completion. -/
def admitWrite (s : State) (m : LinkHead) (data : List Byte) : State :=
  let cells := hostCells s m.addr.toNat data
  let w : Export := ⟨m.clock, s.stamp + 1, s.time.toNat, cells, true, [], if m.poison then poisonOf cells else Flaws.none⟩
  let s := logWrite s .h none [] (cells.map Prod.fst)
  { s with
    dies := s.dies.map fun d => { d with from_ := d.from_ ++ [(.host, w)] }
    linkReplies := s.linkReplies ++ [(answerHead m 3 0 false, [])] }

/-- Whether a write of host queue `q` waits: its range is on the move, a die has still to apply the 2^20 writes that R242
admits, or an earlier write of its queue waits (R214, R242, R250, R317). -/
def writeWaits (s : State) (m : LinkHead) (q : Nat) (data : List Byte) : Bool :=
  hostFull s || ((List.range data.length).any fun i => onTheMove s (m.addr.toNat + i)) || s.hostHeld.any fun w => w.2.1 = q

/-- A write of the host is admitted, or waits behind those that wait. -/
def takeWrite (s : State) (m : LinkHead) (q : Nat) (data : List Byte) : State :=
  if writeWaits s m q data then { s with hostHeld := s.hostHeld ++ [(m, q, data)] } else admitWrite s m data

/-- The host's waiting writes, in the order it issued them, once more. -/
def retryHost (s : State) : State := s.hostHeld.foldl (fun s w => takeWrite s w.1 w.2.1 w.2.2) { s with hostHeld := [] }

/-- HOST_WRITE (R250, R352): a write of the host is admitted, or waits its turn. -/
def execHostWrite (m : LinkHead) (q : Nat) (data : List (BitVec 8)) (s : State) : Out :=
  .next (if m.type ≠ 2 || 8 < m.chunks.toNat || data.length ≠ 16 * m.chunks.toNat || 16 ≤ q then s
    else takeWrite s m q data)

/-- READ_COMPLETION (R320, R352): the host answers a read of the device.  Data sent poisoned is asked for once more;
if it comes back poisoned again, its sectors are poisoned. -/
def execReadCompletion (m : LinkHead) (data : List (BitVec 8)) (s : State) : Out :=
  .next (match s.linkReads.find? fun r => r.tag = m.tag with
    | none => s
    | some r =>
      if m.type ≠ 1 then s
      else if m.poison && !r.poison then
        { s with linkReads := s.linkReads.map fun x => if x.tag = m.tag then { x with poison := true } else x }
      else
        let s := { s with linkReads := s.linkReads.filter fun x => x.tag ≠ m.tag }
        let s := writeHost s r.addr.toNat data
        if m.poison then updFlaws s fun f => f.join (poisonOf (cellsAt (tierBase 2 + r.addr.toNat) data)) else s)

/-- WRITE_COMPLETION (R352): the host has completed a write of the device. -/
def execWriteCompletion (m : LinkHead) (s : State) : Out :=
  .next (if m.type = 3 then { s with linkWrites := s.linkWrites.filter fun r => r.tag ≠ m.tag } else s)

/-- RESERVED_TYPE_MESSAGE (R352): it is dropped, and counted by every core whose counter selects event 24 (R363). -/
def execReservedTypeMessage (m : LinkHead) (s : State) : Out :=
  .next (if m.type.toNat < 7 then s
    else (List.range 128).foldl (fun s k => bump s k 24 none 1) { s with dropped := s.dropped + 1 })

/-! ## The die link (R242) -/

/-- DIE_EXPORT (R242): a die exports one of its pending writes; which one, the die chooses. -/
def execDieExport (die index : Nat) (s : State) : Out :=
  if 2 ≤ die then .fault .noSuchAgent else .next (exportOne s die index)

/-- DIE_APPLY (R242): a die applies a source's write whose clock condition holds. -/
def execDieApply (die : Nat) (src : Source) (s : State) : Out :=
  if 2 ≤ die then .fault .noSuchAgent else .next (applyOne s die src)

end Sys2Proof.Machine
end

