-- ==== Sys2Proof/Machine/Tiers.lean ====
section
/-!
DEFINITION. The tier engine (R137, R138, R316-R320): tensor table entries, frame pools, moves and their switch; the
leaves of the page table (R212, R213); and the moves of hot pages (R214, R297).
-/

namespace Sys2Proof.Machine

/-! ## Leaves and translations (R212, R213) -/

/-- Writes bytes of storage at system scope: performed and applied at both dies (R235, R242). -/
def sysWrite (s : State) (a : Nat) (bytes : List Byte) : State := toDevice (performAt s 0 .h none (cellsAt a bytes)) 0

/-- The board-tier address of the level-3 entry of a page, walking the upper levels of R213. -/
def leafAddr (s : State) (va : Nat) : Nat → List Nat → Option Nat
  | table, [] => some (table + 8 * (va / 2 ^ 16 % 32))
  | table, shift :: rest =>
    let e := pte s (table + 8 * (va / 2 ^ shift % 512))
    if e.getLsbD 0 && !e.getLsbD 1 then leafAddr s va ((e.extractLsb' 16 32).toNat * 65536) rest else none

/-- The level-3 entry of a page, when the tables above it are there. -/
def leafOf (s : State) (va : Nat) : Option Nat := leafAddr s va s.pageRoot [39, 30, 21]

/-- Writes of a tier move count as V-path writes of the device: they join path V at the token read, and reach the paths A, M
and S through `xfence` alone (R9, R249). -/
def tierWrite (s : State) (a : Nat) (bytes : List Byte) (flaws : Flaws) : State :=
  toDevice (performWith s 0 .v none (cellsAt a bytes) true [] flaws) 0

/-- Writes the level-3 entry of a page; where no table holds it, nothing is written. -/
def setLeaf (s : State) (va : Nat) (e : Wide) : State :=
  match leafOf s va with
  | some a => sysWrite s (tierBase 1 + a) (toBytes e 8)
  | none => s

/-- A valid leaf with a frame and the permissions of another leaf. -/
def leafWord (frame : Nat) (like : Wide) : Wide :=
  (BitVec.ofNat 64 (frame / 65536) <<< 16) ||| (like &&& 0xC) ||| 1#64

/-- Translations of a range leave every page TLB (R213). -/
def dropTlb (s : State) (va len : Nat) : State :=
  { s with cores := s.cores.map fun c =>
      { c with tlb := c.tlb.filter fun p => p.base + 2 ^ p.bits ≤ va || va + len ≤ p.base } }

/-! ## The tensor table (R316) -/

structure Tensor where
  at_      : Nat
  valid    : Bool
  userOk   : Bool
  home     : Nat
  poisoned : Bool
  units    : Nat
  ranges   : List Nat
  rsv      : Nat
  deriving DecidableEq, Repr

/-- The entry of a handle, in the board tier at the base the host set. -/
def tensorOf (s : State) (handle : Nat) : Tensor :=
  let a := tierBase 1 + s.tensorBase + 32 * handle
  let n := ofBytes (sysBytes s a 32)
  let f := fun lo w => n / 2 ^ lo % 2 ^ w
  ⟨a, f 0 1 = 1, f 1 1 = 1, f 2 2, f 4 1 = 1, f 8 24, [f 32 48, f 80 48, f 128 48], f 5 3 + f 176 80⟩

def Tensor.range (e : Tensor) (tier : Nat) : Nat := e.ranges.getD tier 0

/-- Whether a tensor's range of a tier is aligned and inside that tier (R209, R316). -/
def rangeInTier (s : State) (e : Tensor) (tier : Nat) : Bool :=
  let va := e.range tier
  va % 65536 = 0 && tierOf s va = some tier && tierOf s (va + e.units * 65536 - 1) = some tier

/-- An entry that describes a tensor (R316). -/
def tensorOk (s : State) (handle : Nat) (e : Tensor) : Bool :=
  handle < s.tensorCount && e.valid && e.rsv = 0 && e.home ≠ 3 && 0 < e.units &&
    [0, 1, 2].all (rangeInTier s e)

/-! ## Moves (R317, R318) -/

def poolOf (s : State) (tier : Nat) : List Nat := s.pools.getD tier []

/-- The token value of a move (R137). -/
def moveToken (units status : Nat) : Word := BitVec.ofNat 32 (units % 2 ^ 28 + status * 2 ^ 28)

/-- A move ends: its token is written, or the host's result word and the status of its command (R137, R355). -/
def reportMove (s : State) (m : TierMove) (units status : Nat) : State :=
  match m.mover with
  | .thread group row token _ => writeToken s group row token (moveToken units status)
  | .host queue index irq result _ =>
    finishCommand (writeHost s result (toBytes (moveToken units status) 4)) queue index irq (if status ≤ 1 then 0 else 2)

/-- The oldest move of a tensor. -/
def firstMove (s : State) (tensor : Nat) : Option TierMove := s.moves.find? fun m => m.handle = tensor

def dropFirstMove (tensor : Nat) : List TierMove → List TierMove
  | [] => []
  | m :: rest => if m.handle = tensor then rest else m :: dropFirstMove tensor rest

/-- The oldest move of a tensor has begun. -/
def startFirst (tensor : Nat) (f : TierMove → TierMove) : List TierMove → List TierMove
  | [] => []
  | m :: rest => if m.handle = tensor then f m :: rest else m :: startFirst tensor f rest

def endMove (s : State) (m : TierMove) (units status : Nat) : State :=
  reportMove { s with moves := dropFirstMove m.handle s.moves } m units status

def moverIsUser (m : TierMove) : Bool :=
  match m.mover with
  | .thread _ _ _ user => user
  | .host _ _ _ _ user => user

/-- The board-tier address of the level-2 entry of a page, when the tables above it are there. -/
def bigLeafOf (s : State) (va : Nat) : Option Nat :=
  let next := fun (table shift : Nat) =>
    let e := pte s (table + 8 * (va / 2 ^ shift % 512))
    if e.getLsbD 0 && !e.getLsbD 1 then some ((e.extractLsb' 16 32).toNat * 65536) else none
  (next s.pageRoot 39).bind fun t => (next t 30).map fun t => t + 8 * (va / 2 ^ 21 % 512)

/-- Whether a page of 64 KiB lies in a 2 MiB page (R213). -/
def inBigPage (s : State) (va : Nat) : Bool :=
  match bigLeafOf s va with
  | some a => (pte s a).getLsbD 0 && (pte s a).getLsbD 1
  | none => false

/-- The 2 MiB page of an address is mapped by 32 leaves of a table of its own, with the same frames and permissions, so that
one of its pages can be mapped anew.  R316 and R317 take no frame for the table: it stands in memory of the device's own, past
the 64 GiB that software can map (DESIGN CHOICE, log 41). -/
def splitBigPage (s : State) (va : Nat) : State :=
  match bigLeafOf s va with
  | some a =>
    let e := pte s a
    let table := 2 ^ 36 + 65536 * s.serial
    let frame := (e.extractLsb' 16 32).toNat * 65536
    let leaves := (List.range 32).flatMap fun i => toBytes (leafWord (frame + 65536 * i) e ||| (e &&& 0x10)) 8
    let s := sysWrite { s with serial := s.serial + 1 } (tierBase 1 + table) leaves
    sysWrite s (tierBase 1 + a) (toBytes ((BitVec.ofNat 64 (table / 65536) <<< 16) ||| 1#64) 8)
  | none => s

/-- Writes the level-3 entry of a page, whatever stood above it: a 2 MiB leaf that the host mapped there is split first
(R316). -/
def mapPage (s : State) (va : Nat) (e : Wide) : State :=
  setLeaf (if inBigPage s va then splitBigPage s va else s) va e

/-- The frames of a pool that a move takes become the leaves of the destination range, with the permissions of the
source's leaves (R212, R317), whatever the leaves held before (R316). -/
def writeLeaves (s : State) (src dst : Nat) (frames : List Nat) : State :=
  (frames.mapIdx fun i f => (i, f)).foldl (fun s (i, f) =>
    let like := match leafOf s (src + 65536 * i) with
      | some a => pte s a
      | none => 0xC
    mapPage s (dst + 65536 * i) (leafWord f like)) s

/-- The places that a thread holds translated: its buffered stores, and its effect (R110, R213). -/
def heldLocs (th : Thread) : List Loc :=
  let effect := fun (e : Effect) => match e with
    | .atomic _ _ _ _ loc .. => [loc]
    | .reduction _ _ _ _ loc .. => [loc]
    | .wait _ _ loc .. => [loc]
    | _ => []
  (th.buffer ++ th.seg.stores).flatMap (fun st => st.bytes.map Prod.fst) ++
    (th.seg.effect.toList ++ th.waiting.toList).flatMap effect

/-- Whether something translated to a frame has not been performed yet: the frame is not used again before that (R110,
R213). -/
def frameHeld (s : State) (a : Nat) : Bool :=
  let here := fun (p : Loc) => match p with
    | .mem x => decide (a ≤ x && x < a + 65536)
    | .pad _ => false
  (s.groups.any fun g => g.threads.any fun th => (heldLocs th).any here) || s.reductions.any fun r => here r.loc

/-- The free frames of a tier that nothing holds translated. -/
def usable (s : State) (tier : Nat) : List Nat := (poolOf s tier).filter fun f => !frameHeld s (tierBase tier + f)

/-- TIER_MOVE_START (R317): the oldest move of a tensor is decided, or begins: its frames are taken and the
destination's leaves written. -/
def execTierMoveStart (tensor : Nat) (s : State) : Out :=
  .next (match firstMove s tensor with
    | none => s
    | some m =>
      let e := tensorOf s tensor
      if m.started then s
      else if !tensorOk s tensor e then endMove s m 0 4
      else if moverIsUser m && !e.userOk then endMove s m 0 5
      else if e.home = m.tier then endMove s m 0 1
      else if (poolOf s m.tier).length < e.units then endMove s m 0 3
      else if (usable s m.tier).length < e.units then s
      else
        let frames := (usable s m.tier).take e.units
        let s := { s with pools := s.pools.modify m.tier fun p => p.filter fun f => !frames.contains f }
        let s := writeLeaves s (e.range e.home) (e.range m.tier) frames
        let begin_ := fun (x : TierMove) => { x with started := true, dest := e.range m.tier, frames := frames }
        { s with moves := startFirst tensor begin_ s.moves })

/-- A mismatch that a re-read of the tier engine clears belongs to no core: every core counts it that counts event 19 (R323,
R363; DESIGN CHOICE, log 55). -/
def countCleared (s : State) : State := (List.range s.cores.length).foldl (fun s k => bump s k 19 none 1) s

/-- Copies one 128-byte sector at system scope: a poisoned source, or a check code that still fails when it is read
again, poisons the destination (R320, R323).  Whether it came out poisoned. -/
def copySector (s : State) (src dst : Nat) : State × Bool :=
  let bytes := sysBytes s src 128
  let bad := (mismatchAt s 0 src 128).isSome
  let (s, clears) := if bad then rereadClears s else (s, true)
  let s := if bad && clears then countCleared (updDie s 0 fun x => { x with flaws := x.flaws.mend fun b => sectorOf b = sectorOf src }) else s
  let poisoned := (poisonAt s 0 src 128).isSome || !clears
  (tierWrite s dst bytes (if poisoned then ⟨[dst], []⟩ else Flaws.none), poisoned)

/-- Copies `n` sectors; whether any came out poisoned. -/
def copySectors : Nat → State → Nat → Nat → State × Bool
  | 0, s, _, _ => (s, false)
  | n + 1, s, src, dst =>
    let (s, a) := copySector s src dst
    let (s, b) := copySectors n s (src + 128) (dst + 128)
    (s, a || b)

/-- The storage of a page, when it is mapped, whatever its permissions. -/
def pageStorage (s : State) (va : Nat) : Option Nat :=
  match tierOf s va with
  | none => none
  | some tier => match findRange s.rangeList va with
    | some r => some (r.phys + (va - r.base))
    | none => match walk s va tier with
      | .ok p => some (p.phys + (va - p.base))
      | .error _ => none

/-- Copies the units of a tensor, one after another. -/
def copyUnits (tier : Nat) : List (Option Nat × Nat) → State → State × Bool
  | [], s => (s, false)
  | (from_, frame) :: rest, s =>
    let (s, a) := match from_ with
      | some src => copySectors 512 s src (tierBase tier + frame)
      | none => (s, false)
    let (s, b) := copyUnits tier rest s
    (s, a || b)

/-- Marks a page's leaf absent and returns its frame to the pool of its tier (R317).  The leaf of a 2 MiB page goes with the
first of its units, and every frame of the range returns (DESIGN CHOICE, log 41). -/
def unmapPage (s : State) (tier va frame : Nat) : State :=
  let s := { s with pools := s.pools.modify tier fun p => p ++ [frame] }
  if inBigPage s va then match bigLeafOf s va with
    | some a => sysWrite s (tierBase 1 + a) (toBytes (0 : Wide) 8)
    | none => s
  else setLeaf s va 0

def inPage (a b : Nat) : Bool := a ≤ b && b < a + 65536

/-- Dirty bytes of a page leave every L1, and engine writes to it that were not seen yet are performed (R247). -/
def bringDown (s : State) (a : Nat) : State :=
  (List.range s.cores.length).foldl (fun s k => writeBack s k (inPage a)) (settlePage s a)

/-- The bytes of a page leave every cache. -/
def forgetPage (s : State) (a : Nat) : State := forgetBytes s (inPage a)

/-- The bytes of a page leave every L1; the caches of the paths A, M and S keep theirs until an `xfence` (R247, R249). -/
def forgetL1 (s : State) (a : Nat) : State :=
  { s with cores := s.cores.map fun c => pruneL1 { c with
      l1Clean := Memory.drop c.l1Clean (inPage a), l1Dirty := Memory.drop c.l1Dirty (inPage a) } }

/-- The byte of an entry that holds `home` and `poisoned`. -/
def homeByteOf (e : Tensor) (tier : Nat) (poisoned : Bool) : Byte :=
  BitVec.ofNat 8 (1 + (if e.userOk then 2 else 0) + 4 * tier + if poisoned then 16 else 0)

/-- The moves of a tensor that wait when a move of it ends poisoned complete with status 2 (R320). -/
def endWaiting (s : State) (tensor : Nat) : State :=
  (s.moves.filter fun m => m.handle = tensor).foldl (fun s m => endMove s m 0 2) s

/-- The tensors that hold a poisoned sector in their home range and are not marked are marked, with a notice each (R316,
R320). -/
def markTensors (s : State) : State :=
  if s.poison.isEmpty then s
  else (List.range s.tensorCount).foldl (fun s h =>
    let e := tensorOf s h
    let holds := fun i => match pageStorage s (e.range e.home + 65536 * i) with
      | some a => s.poison.any fun p => decide (a ≤ p && p < a + 65536)
      | none => false
    if tensorOk s h e && !e.poisoned && (List.range e.units).any holds then
      (notify (sysWrite s e.at_ [homeByteOf e e.home true]) (.poison h) none).1
    else s) s

/-- Committed stores leave every buffer. -/
def drainAll (s : State) : State := (s.groups.flatMap threadRefs).foldl drainThread s

/-- TIER_MOVE_SWITCH (R317, R320): the copy of a started move ends, the translations of both ranges are invalidated,
the source's leaves go and its frames return, `home` changes and the token is written. -/
def execTierMoveSwitch (tensor : Nat) (s : State) : Out :=
  .next (match firstMove s tensor with
    | none => s
    | some m =>
      if !m.started then s
      else
        let e := tensorOf s tensor
        let src := e.range e.home
        let units := m.frames.length
        let pages := (List.range units).map fun i => pageStorage s (src + 65536 * i)
        -- what was written to the frames before goes, and what was written to the source comes down
        let s := m.frames.foldl (fun s f => forgetL1 (settlePage s (tierBase m.tier + f)) (tierBase m.tier + f)) s
        let s := drainAll s
        let s := toAll ((pages.filterMap id).foldl (fun s a => forgetL1 (bringDown s a) a) s)
        let (s, poisoned) := copyUnits m.tier (pages.zip m.frames) s
        let s := dropTlb (dropTlb s src (65536 * units)) m.dest (65536 * units)
        let s := (pages.mapIdx fun i p => (i, p)).foldl (fun s (i, p) => match p with
          | some a => unmapPage s e.home (src + 65536 * i) (a - tierBase e.home)
          | none => s) s
        let s := sysWrite s e.at_ [homeByteOf e m.tier (e.poisoned || poisoned)]
        let s := if poisoned && !e.poisoned then (notify s (.poison tensor) none).1 else s
        let s := endMove s m units (if poisoned then 2 else 0)
        if poisoned then endWaiting s tensor else s)

/-! ## The host's side (R317, R355) -/

/-- TIER_MOVE_COMMAND (R355): the host's move joins the queue of its tensor. -/
def execTierMoveCommand (c : Cmd) (handle tier : BitVec 32) (result : BitVec 64) (s : State) : Out :=
  runCommand s c false false (tier.toNat < 3 && result.toNat % 4 = 0) fun s n =>
    ({ s with moves := s.moves ++
        [⟨handle.toNat, tier.toNat, .host c.queue n c.irq result.toNat false, false, 0, []⟩] }, .later)

/-- ADD_FRAMES (R317): the frames of a list in host memory join a tier's pool. -/
def execAddFrames (c : Cmd) (tier : Nat) (list : BitVec 64) (count : Nat) (s : State) : Out :=
  runCommand s c true false (tier < 3) fun s _ =>
    let frames := (List.range count).map fun i => ofBytes (hostBytes s (list.toNat + 8 * i) 8)
    ({ s with pools := s.pools.modify tier fun p => p ++ frames }, .done 0)

/-- The writes that the host issued before a command are applied at both dies before the command acts (R213, R226, R249). -/
def applyHost (s : State) : State :=
  let s := toAll s
  (List.range s.dies.length).foldl (fun s d => settle (getDie s d).from_.length s d) s

/-- A command is done, or waits for stores that threads hold and for writes of the host still to be applied. -/
def doneOrWaits (s : State) (holding : List ThreadRef) : CmdEnd :=
  if holding.isEmpty && !hostPending s then .done 0 else .waits (.storesGone holding)

/-- The threads that hold stores. -/
def holders (s : State) : List ThreadRef :=
  (s.groups.flatMap threadRefs).filter fun t => match findThread s t with
    | some (_, th) => !th.buffer.isEmpty || !th.seg.stores.isEmpty
    | none => false

/-- A flush: the map caches of both dies (R226), or the translations of a range, after which committed stores leave their
buffers (R110, R213). -/
def makeFlush (s : State) (f : Flush) : State :=
  if f.maps then { s with dies := s.dies.map fun d => { d with mapCache := [] } }
  else drainAll (dropTlb s f.va f.len)

/-- A command that flushes: the host's earlier writes are applied first.  Where one of them still waits it flushes anew once
they are applied, since what was flushed may have come back from what stood there before (R213, R226, R249). -/
def flushCommand (s : State) (f : Flush) : State × CmdEnd :=
  let s := makeFlush (applyHost s) f
  match doneOrWaits s (if f.maps then [] else holders s) with
  | .waits w => (if hostPending s then { s with flushes := s.flushes ++ [f] } else s, .waits w)
  | e => (s, e)

/-- TRANSLATION_INVALIDATE (R213, R110, R249): the host's earlier writes are applied, and translations of the range leave the
TLBs; committed stores leave their buffers, and the command completes when the segments that hold others have ended. -/
def execTranslationInvalidate (c : Cmd) (space : Nat) (va : BitVec 48) (len : Nat) (s : State) : Out :=
  runCommand s c true false (space < 4) fun s n => flushCommand s ⟨c.queue, n, va.toNat, len, false⟩

/-- MAP_SYNC (R226): the host's earlier writes are applied, and the map caches of both dies are flushed.  A sampled load
reads its map bit and its data in one step, so no load is in between. -/
def execMapSync (c : Cmd) (s : State) : Out :=
  runCommand s c false false true fun s n => flushCommand s ⟨c.queue, n, 0, 0, true⟩

/-- Once no write of the host waits, a flush that is still owed is made, and its command waits for the threads that hold stores
now. -/
def flushAgain (s : State) (f : Flush) : State :=
  let s := makeFlush s f
  let wait := CmdWait.storesGone (if f.maps then [] else holders s)
  { s with commands := s.commands.map fun c => if c.queue = f.queue && c.index = f.index then { c with wait := wait } else c }

def settleFlushes (s : State) : State :=
  if hostPending s then s else { s.flushes.foldl flushAgain s with flushes := [] }

/-! ## Hot pages (R214, R297) -/

/-- The cluster sensors beneath a vault, and its temperature (R287, R294). -/
def vaultTemp (s : State) (v : Nat) : Int :=
  let ts := (List.range 4).map fun i => (s.clusters.getD (16 * (v / 4) + v % 4 + 4 * i) Cluster.reset).temp
  ts.foldl max (ts.headD 0)

/-- The free stack-tier frames that lie in a vault. -/
def freeIn (s : State) (v : Nat) : List Nat := (usable s 0).filter fun f => f / 2 ^ 32 = v

/-- The coolest other vault of the die with free stack-tier capacity; of equally cool ones the lowest number, where R297 names
no order (DESIGN CHOICE, log 50). -/
def coolestVault (s : State) (v : Nat) : Option Nat :=
  (((List.range 4).map fun i => 4 * (v / 4) + i).filter fun w => w ≠ v && !(freeIn s w).isEmpty).foldl
    (fun best w => match best with
      | none => some w
      | some b => if vaultTemp s w < vaultTemp s b then some w else some b) none

/-- How often a page of a stack-tier frame has been accessed in the last 4,096 ns. -/
def pageUse (s : State) (frame : Nat) : Nat := (s.accesses.filter fun x => x.2 = frame && s.time.toNat ≤ x.1 + 4096).length

/-- The pages of the stack tier that may move from a vault: those mapped by a 64 KiB leaf to a frame of it, with their address
and frame.  R297 does not speak of pages that a 2 MiB leaf or a range entry maps: they stay (DESIGN CHOICE, log 50). -/
def vaultPages (s : State) (vault : Nat) : List (Nat × Nat) :=
  (((s.accesses.map Prod.snd).dedup.filter fun f => f / 2 ^ 32 = vault).flatMap fun f =>
    (List.range (stackBytes s / 65536)).filterMap fun i =>
      let va := stackVa + 65536 * i
      match leafOf s va with
      | some a =>
        let e := pte s a
        if e.getLsbD 0 && (e.extractLsb' 16 32).toNat * 65536 = f then some (va, f) else none
      | none => none)

/-- The page of a vault most accessed in the last 4,096 ns; of equals the lowest address (DESIGN CHOICE, log 50). -/
def hottestPage (s : State) (vault : Nat) : Option (Nat × Nat) :=
  (vaultPages s vault).foldl (fun best x => match best with
    | none => some x
    | some b => if pageUse s b.2 < pageUse s x.2 || (pageUse s b.2 = pageUse s x.2 && x.1 < b.1) then some x else some b) none

/-- HOT_PAGE_MOVE (R297): at 4x refresh and where the policy permits it, one 64 KiB page per 10,000 ns, the one most
accessed in the previous 4,096 ns, begins to move to the coolest vault. -/
def execHotPageMove (vault : Nat) (s : State) : Out :=
  match s.vaults[vault]? with
  | none => .fault .noSuchAgent
  | some v =>
    let now := s.time.toNat
    let due := match v.movedPage with
      | none => true
      | some n => n + 10000 ≤ now
    if v.band ≠ 2 || !(s.policy.getD 2 0).getLsbD 4 || !due then .next s
    else
      let s := updVault s vault fun v => { v with movedPage := some now }
      .next (match hottestPage s vault, coolestVault s vault with
        | some (va, frame), some w => match freeIn s w with
          | dst :: _ =>
            if s.pageMoves.any fun m => m.va = va then s
            else
              { s with serial := s.serial + 1, pools := s.pools.modify 0 fun p => p.filter (· ≠ dst)
                       pageMoves := s.pageMoves ++ [⟨s.serial + 1, va, frame, dst⟩] }
          | [] => s
        | _, _ => s)

/-- A place in a page that has moved. -/
def relocate (src dst : Nat) : Loc → Loc
  | .mem a => .mem (if src ≤ a && a < src + 65536 then dst + (a - src) else a)
  | .pad o => .pad o

def relocateEffect (f : Loc → Loc) : Effect → Effect
  | .atomic op ty sc ord loc va data new d batch pc hdr => .atomic op ty sc ord (f loc) va data new d batch pc hdr
  | .reduction op ty sc ord loc va data batch => .reduction op ty sc ord (f loc) va data batch
  | .wait ty cond loc va cmp timeout guard issued pc hdr => .wait ty cond (f loc) va cmp timeout guard issued pc hdr
  | e => e

def relocateStore (f : Loc → Loc) (st : Store) : Store := { st with bytes := st.bytes.map fun c => (f c.1, c.2) }

/-- Stores and effects already translated follow their page (R214). -/
def relocateThread (f : Loc → Loc) (th : Thread) : Thread :=
  { th with
    buffer := th.buffer.map (relocateStore f)
    waiting := th.waiting.map (relocateEffect f)
    seg := { th.seg with
      stores := th.seg.stores.map (relocateStore f)
      effect := th.seg.effect.map (relocateEffect f) } }

/-- PAGE_MOVE_SWITCH (R214): the page's copy ends, its leaf names the new frame and its translations are
invalidated; the accesses that waited proceed. -/
def execPageMoveSwitch (id : Nat) (s : State) : Out :=
  .next (match s.pageMoves.find? fun m => m.id = id with
    | none => s
    | some m =>
      let s := forgetPage (settlePage s (tierBase 0 + m.dst)) (tierBase 0 + m.dst)
      let s := toAll (forgetPage (bringDown s (tierBase 0 + m.src)) (tierBase 0 + m.src))
      let s := (copySectors 512 s (tierBase 0 + m.src) (tierBase 0 + m.dst)).1
      let s := match leafOf s m.va with
        | some a =>
          let e := pte s a
          setLeaf s m.va (leafWord m.dst e ||| (e &&& 0x10))
        | none => s
      let s := dropTlb s m.va 65536
      let f := relocate (tierBase 0 + m.src) (tierBase 0 + m.dst)
      let s := updVault s (m.src / 2 ^ 32) fun v => { v with movedOut := insertMark v.movedOut m.va }
      let s := updVault s (m.dst / 2 ^ 32) fun v => { v with movedOut := v.movedOut.filter (· ≠ m.va) }
      { s with
        pageMoves := s.pageMoves.filter fun x => x.id ≠ id
        pools := s.pools.modify 0 fun p => p ++ [m.src]
        groups := s.groups.map fun g => { g with threads := g.threads.map (relocateThread f) }
        reductions := s.reductions.map fun r => { r with loc := f r.loc } })

end Sys2Proof.Machine
end

