-- ==== Sys2Proof/Machine/Graphs.lean ====
section
/-!
DEFINITION. Frame graphs: reading and checking a submission (R266-R275), accepting it (R275, R276), the retirement
of groups (R76, R277-R281, R300) and the end of a graph (R268, R286, R349).
-/

namespace Sys2Proof.Machine

/-! ## Reading records -/

/-- `n` bits of a record from bit `lo`. -/
def bits (rec_ lo n : Nat) : Nat := rec_ / 2 ^ lo % 2 ^ n

/-- A two's complement field of three bits. -/
def signed3 (x : Nat) : Int := if x < 4 then x else (x : Int) - 8

/-- A range that lies in the board tier or in the deep tier (R266). -/
def inBoardOrDeep (s : State) (a n : Nat) : Bool :=
  (tierOf s a = some 1 && tierOf s (a + n - 1) = some 1) || (tierOf s a = some 2 && tierOf s (a + n - 1) = some 2)

/-- A record of `n` bytes read on path H at system scope. -/
def readRecord (s : State) (a n : Nat) : Option Nat :=
  if inBoardOrDeep s a n then (hRead s a n).map ofBytes else none

/-! ### Pass records (R269-R271) -/

def slotWord (r i : Nat) : Nat := bits r (512 + 64 * i) 64
def segWord (r i : Nat) : BitVec 128 := BitVec.ofNat 128 (bits r (1024 + 128 * i) 128)
def bufWord (r i : Nat) : BitVec 128 := BitVec.ofNat 128 (bits r (2048 + 128 * i) 128)
def readWord (r i : Nat) : Nat := bits r (6144 + 128 * i) 128
def writeWord (r i : Nat) : Nat := bits r (7168 + 32 * i) 32
def preloadWord (r i : Nat) : Word := BitVec.ofNat 32 (bits r (7296 + 32 * i) 32)

/-- Offset `j` of a read declaration (R271). -/
def declOffset (d j : Nat) : Int × Int := (signed3 (bits d (16 + 6 * j) 3), signed3 (bits d (19 + 6 * j) 3))

def readDecl (d : Nat) : ReadDecl := ⟨bits d 0 9, (List.range (bits d 9 4)).map (declOffset d)⟩

/-- The pass a record describes. -/
def passOf (r : Nat) : Pass where
  stage := bits r 0 8
  privileged := bits r 8 1 = 1
  persistent := bits r 9 1 = 1
  batch := bits r 10 1 = 1
  gang := bits r 11 1 = 1
  userCounters := bits r 12 1 = 1
  brkToHost := bits r 13 1 = 1
  part := bits r 14 1
  rows := bits r 16 5 + 1
  lanes := bits r 21 7 + 1
  scratchBanks := bits r 32 5
  regs := 32 * (bits r 37 5 + 1)
  gridX := bits r 64 16
  gridY := bits r 80 16
  gridZ := bits r 96 16
  originX := bits r 128 16
  originY := bits r 144 16
  trapVector := BitVec.ofNat 32 (bits r 160 32)
  vaultBytes := bits r 224 32
  batchArgs := bits r 256 48
  batchRecBytes := bits r 304 16
  batchCount := bits r 320 32
  slots := (List.range 8).map fun i => BitVec.ofNat 64 (slotWord r i)
  segs := (List.range 8).map (segWord r)
  bufs := (List.range 32).map (bufWord r)
  reads := (List.range (bits r 192 4)).map fun i => readDecl (readWord r i)
  writes := (List.range (bits r 196 3)).map fun i => bits (writeWord r i) 0 9
  preload := (List.range (bits r 200 5)).map (preloadWord r)
  first := 0
  failed := false
  life := .open
  preempted := false
  replaces := none
  starved := false
  short := none
  plan := []

/-- Every reserved bit of a pass record is zero (R269-R271): unused declarations are all zero, and in used ones the
reserved fields. -/
def passReserved (r : Nat) : Bool :=
  let reads := bits r 192 4
  let writes := bits r 196 3
  bits r 15 1 = 0 && bits r 28 4 = 0 && bits r 42 22 = 0 && bits r 112 16 = 0 && bits r 199 1 = 0 &&
    bits r 205 19 = 0 && bits r 352 160 = 0 && bits r 7808 384 = 0 &&
    (List.range 8).all (fun i =>
      let d := readWord r i
      if i < reads then bits d 13 3 = 0 && bits d 70 58 = 0 else d = 0) &&
    (List.range 4).all fun i =>
      let d := writeWord r i
      if i < writes then d / 512 = 0 else d = 0

/-- Every field of a pass record is in its range (R270, R272, R298). -/
def passFields (r stage : Nat) : Bool :=
  let p := passOf r
  p.stage = stage && p.scratchBanks ≤ 24 && p.regs ≤ 768 && 1 ≤ p.gridX && 1 ≤ p.gridY && 1 ≤ p.gridZ &&
    (p.trapVector = 0xFFFF_FFFF || p.trapVector.toNat % 8 = 0) && p.reads.length ≤ 8 && p.writes.length ≤ 4 &&
    p.preload.length ≤ 16 && p.bufs.all (fun b => !b.getLsbD 111) &&
    (if p.batch then
      p.batchRecBytes % 16 = 0 && 16 ≤ p.batchRecBytes && p.batchRecBytes ≤ 4096 && 1 ≤ p.batchCount &&
        p.reads.isEmpty && p.writes.isEmpty && p.gridX = 1 && p.gridY = 1 && p.gridZ = 1
    else p.batchArgs = 0 && p.batchRecBytes = 0 && p.batchCount = 0)

/-- A format slot that may stand in a pass record (R88). -/
def slotAccepted (x : Wide) : Bool :=
  !x.getLsbD 0 || ((x.extractLsb' 1 3).toNat < 4 && (x.extractLsb' 4 2).toNat < 3 && x.extractLsb' 8 56 = 0)

/-- The declarations of a pass are well formed (detail code 7): indexes below the resource count, 1 to 9 distinct
offsets from -2 to 2, no offset beyond the count, no resource read twice. -/
def declsFine (r resources : Nat) : Bool :=
  let p := passOf r
  let inside := fun (v : Int) => -2 ≤ v && v ≤ 2
  (List.range (bits r 192 4)).all (fun i =>
    let d := readWord r i
    let decl := readDecl d
    decl.res < resources && 1 ≤ decl.offsets.length && decl.offsets.length ≤ 9 &&
      decl.offsets.all (fun o => inside o.1 && inside o.2) && !findDup decl.offsets &&
      bits d (16 + 6 * decl.offsets.length) (54 - 6 * decl.offsets.length) = 0) &&
  !findDup (p.reads.map ReadDecl.res) && p.writes.all fun n => n < resources

/-! ### Resource records (R273) -/

def resourceOf (r : Nat) : Resource where
  external := bits r 0 2 = 1
  format := bits r 2 4
  swizzle := bits r 6 4
  elemStride := bits r 10 5
  tilesX := bits r 16 16
  tilesY := bits r 32 16
  ringSlots := if bits r 48 6 = 0 then 64 else bits r 48 6
  vault := bits r 54 4
  overflow := bits r 58 1 = 1
  threshold := bits r 64 32
  overflowBase := bits r 128 48
  overflowTiles := bits r 176 16
  ringBase := 0
  freeSlots := []
  freePlaces := []
  lastFree := 0
  noticed := false

/-- A resource record with its reserved bits zero and its fields in range (detail code 6). -/
def resourceFine (s : State) (r : Nat) : Bool :=
  let x := resourceOf r
  bits r 0 2 < 2 && x.format ≤ 12 && x.swizzle ≤ 7 && 1 ≤ x.elemStride && x.elemStride ≤ 16 && bits r 15 1 = 0 &&
    1 ≤ x.tilesX && x.tilesX ≤ 1024 && 1 ≤ x.tilesY && x.tilesY ≤ 1024 && bits r 59 5 = 0 && bits r 96 32 = 0 &&
    bits r 192 320 = 0 &&
    (if x.external then bits r 48 6 = 0 && x.vault = 0 && !x.overflow
      else bits r 48 6 ≠ 1 && (x.vault < 8 || x.vault = 15)) &&
    (if x.overflow then
      1 ≤ x.threshold && 1 ≤ x.overflowTiles && x.overflowBase % 1024 = 0 && tierOf s x.overflowBase = some 1 &&
        tierOf s (x.overflowBase + x.overflowTiles * tileBytes x - 1) = some 1
    else x.threshold = 0 && x.overflowBase = 0 && x.overflowTiles = 0)

/-! ### The graph record (R266, R267) -/

/-- The records of a submission. -/
structure Submission where
  passes     : List Nat
  resources  : List Nat
  completion : Nat
  deriving DecidableEq, Repr

/-- A rejection: its detail code, and the stage and the resource it names (R267, R268). -/
structure Reject where
  detail : Nat
  stage  : Nat
  res    : Nat
  deriving DecidableEq, Repr

def nowhere : Nat := 0xFFFF

/-- Reads a list of records, if every address is readable. -/
def readAll (s : State) (n : Nat) (addrs : List Nat) : Option (List Nat) := addrs.mapM fun a => readRecord s a n

/-- The graph record and the records it names, or the failure of detail code 1.  A `resource_table` of no records is at no
address that is checked, whatever the field holds, where R267 speaks of any address outside the two tiers (DESIGN CHOICE,
log 17). -/
def readSubmission (s : State) (addr : Nat) : Option Submission :=
  match (if addr % 64 = 0 then readRecord s addr 64 else none) with
  | none => none
  | some g =>
    let passes := bits g 0 16
    let resources := bits g 16 16
    let passTable := bits g 64 48
    let resTable := bits g 128 48
    let completion := bits g 192 48
    if passes < 1 || 256 < passes || 512 < resources || bits g 32 32 ≠ 0 || bits g 112 16 ≠ 0 || bits g 176 16 ≠ 0 ||
        bits g 240 272 ≠ 0 || completion % 64 ≠ 0 || !inBoardOrDeep s completion 64 then none
    else match readAll s 8 ((List.range passes).map fun i => passTable + 8 * i),
        readAll s 64 ((List.range resources).map fun i => resTable + 64 * i) with
      | some words, some rs =>
        if words.any fun w => bits w 48 16 ≠ 0 || w % 1024 ≠ 0 then none
        else (readAll s 1024 words).map fun ps => ⟨ps, rs, completion⟩
      | _, _ => none

/-- The completion record's address, when the graph record can be read and the address used. -/
def completionOf (s : State) (addr : Nat) : Option Nat :=
  match readRecord s addr 64 with
  | some g =>
    let a := bits g 192 48
    if a % 64 = 0 && inBoardOrDeep s a 64 then some a else none
  | none => none

/-- The first place in a list that fails a check. -/
def firstFailing (xs : List Nat) (ok : Nat → Nat → Bool) : Option Nat := (List.range xs.length).find? fun i => !ok i (xs.getD i 0)

/-- Checks of the pass records, detail code by detail code, before those of resources (codes 2 to 5). -/
def passChecks (user : Bool) : List (Nat × (Nat → Nat → Bool)) :=
  [(2, fun i r => passReserved r && passFields r i),
   (3, fun _ r => !(user && (passOf r).privileged)),
   (4, fun _ r => (passOf r).rows * (passOf r).regs ≤ 3072 && segKind (segWord r 0) = 1),
   (5, fun _ r => (passOf r).segs.all segValid && (passOf r).slots.all slotAccepted)]

def writersOf (ps : List Pass) (res : Nat) : List Nat := (ps.filter fun p => p.writes.contains res).map Pass.stage

/-- A resource written by exactly one declaration of one pass (R274).  The table of detail codes names no code for two write
declarations of one resource in one pass: they fail this check, code 8, like those of two passes (DESIGN CHOICE, log 17). -/
def writtenOnce (ps : List Pass) (res : Nat) : Bool := (ps.map fun p => p.writes.count res).sum = 1

/-- Whether a pass reads only resources of earlier stages (R274). -/
def readsEarlier (ps : List Pass) (p : Pass) : Bool :=
  p.reads.all fun d => (writersOf ps d.res).all fun w => w < p.stage

/-! ## Rings (R275) -/

/-- What rings may take of a vault: its stack-cache part less 256 MiB. -/
def ringLimit (s : State) (v : Nat) : Nat := (s.vaults.getD v Vault.reset).cacheSteps * 2 ^ 28 - 2 ^ 28

def coresOf (s : State) (die part : Nat) : Nat :=
  ((List.range 64).filter fun i => (getCore s (64 * die + i)).part = part).length

/-- The vault of a ring whose record leaves it open: of the die with more cores of the producer's partition, the one
with most capacity left. -/
def chooseVault (s : State) (held : List Resource) (part : Nat) : Nat :=
  let die := if coresOf s 0 part < coresOf s 1 part then 1 else 0
  let left := fun v => (ringLimit s v : Int) - reservedIn held v
  ((List.range 4).map fun i => 4 * die + i).foldl (fun b v => if left b < left v then v else b) (4 * die)

/-- The partition of a resource's producer. -/
def producerPart (ps : List Pass) (res : Nat) : Nat := ((ps.find? fun p => p.writes.contains res).map Pass.part).getD 0

/-- Reserves the rings of a graph beside those already held, in index order; none when one does not fit. -/
def reserveRings (s : State) (ps : List Pass) : Nat → List Resource → List Resource → Option (List Resource)
  | _, _, [] => some []
  | i, held, r :: rest =>
    if r.external then (reserveRings s ps (i + 1) held rest).map (r :: ·)
    else
      let r := { r with vault := if r.vault = 15 then chooseVault s held (producerPart ps i) else r.vault }
      if ringLimit s r.vault < reservedIn held r.vault + ringBytes r then none
      else (reserveRings s ps (i + 1) (held ++ [r]) rest).map (r :: ·)

def tileCount (rs : List Resource) : Nat := (rs.map fun r => r.tilesX * r.tilesY).sum

/-- The checks of R267 in their order: the lowest failing detail code, and within it the first stage or resource. -/
def rejectOf (s : State) (user : Bool) (x : Submission) : Option Reject :=
  let ps := x.passes.map passOf
  let rs := x.resources.map resourceOf
  match (passChecks user).findSome? fun c => (firstFailing x.passes c.2).map fun i => Reject.mk c.1 i nowhere with
  | some r => some r
  | none => match firstFailing x.resources fun _ r => resourceFine s r with
    | some i => some ⟨6, nowhere, i⟩
    | none => match firstFailing x.passes fun _ r => declsFine r x.resources.length with
      | some i => some ⟨7, i, nowhere⟩
      | none => match firstFailing x.resources fun i _ => writtenOnce ps i with
        | some i => some ⟨8, nowhere, i⟩
        | none => match firstFailing x.passes fun _ r => readsEarlier ps (passOf r) with
          | some i => some ⟨8, i, nowhere⟩
          | none =>
            if (reserveRings s ps 0 [] rs).isNone || 262144 < tileCount rs then some ⟨9, nowhere, nowhere⟩ else none

/-! ## The completion record (R268) -/

/-- Writes a completion record at system scope. -/
def writeCompletion (s : State) (addr status : Nat) (r : Reject) (failed : List Bool) : State :=
  let mask := (failed.mapIdx fun i b => if b then 2 ^ i else 0).sum
  let word := status + r.detail * 2 ^ 8 + r.stage * 2 ^ 16 + r.res * 2 ^ 32 + s.time.toNat * 2 ^ 64 + mask * 2 ^ 128
  hWrite s addr (toBytes (BitVec.ofNat 512 word) 64)

/-- SUBMIT_GRAPH (R267): the graph is checked whole; a rejected one gets its completion record at once, and ran nowhere
(R349); any other waits to be accepted. -/
def execSubmitGraph (c : Cmd) (addr : BitVec 64) (s : State) : Out :=
  runCommand s c false false true fun s n =>
    let user := !((getQueue s c.queue).map Queue.privileged).getD false
    let reject := fun (r : Reject) =>
      let s := { s with ended := (c.queue, n, []) :: s.ended }
      match completionOf s addr.toNat with
      | some a => (writeCompletion s a 1 r [], CmdEnd.done 0)
      | none => (s, CmdEnd.done 0)
    match readSubmission s addr.toNat with
    | none => reject ⟨1, nowhere, nowhere⟩
    | some x => match rejectOf s user x with
      | some r => reject r
      | none =>
        let g : Graph := ⟨4, c.queue, n, c.irq, x.completion, x.passes.map passOf, x.resources.map resourceOf, [], [],
          false, []⟩
        ({ s with waiting := s.waiting ++ [⟨c.queue, n, g⟩] }, .later)

/-! ## GRAPH_ACCEPT (R275, R276) -/

def freeContext (s : State) : Option Nat := (List.range 4).find? fun i => (findGraph s i).isNone

/-- The entries of a resource's tiles. -/
def newEntries (i : Nat) (r : Resource) : List Entry :=
  (List.range (r.tilesX * r.tilesY)).map fun n => ⟨i, n, .free, false, false, false, false, false, 0, 0, 0, none⟩

/-- The lowest offset of the ring segment from which `n` bytes are clear of the rings held. -/
def clearBase (held : List Resource) (n : Nat) : Nat :=
  let ends := 0 :: (held.filter fun r => !r.external).map fun r => r.ringBase + ringBytes r
  let clear := fun b => held.all fun r => r.external || r.ringBase + ringBytes r ≤ b || b + n ≤ r.ringBase
  ((ends.filter clear).min?).getD 0

/-- Gives every ring its place in the ring segment, beside those held (R284). -/
def placeRings : List Resource → List Resource → List Resource
  | _, [] => []
  | held, r :: rest =>
    let r := { r with
      ringBase := clearBase held (ringBytes r), freeSlots := if r.external then [] else List.range r.ringSlots
      freePlaces := List.range r.overflowTiles }
    r :: placeRings (r :: held) rest

/-- A group that has not been placed; a batch pass has one for its undealt records (R298). -/
def newGroup (serial ctx stage x y z : Nat) : Group :=
  ⟨serial, ctx, stage, x, y, z, .undispatched, none, none, 0, none, [], [], [], [], [], [], [], [], [], [], [], [], 0, []⟩

/-- The groups of a pass in the order of the linear index (R291). -/
def gridOf (p : Pass) : List (Nat × Nat × Nat) :=
  (List.range p.gridZ).flatMap fun z => (List.range p.gridY).flatMap fun y => (List.range p.gridX).map fun x => (x, y, z)

def passNewGroups (ctx serial : Nat) (rs : List Resource) (p : Pass) : List Group :=
  (gridOf p).mapIdx fun i (x, y, z) =>
    let g := newGroup (serial + 1 + i) ctx p.stage x y z
    { g with refs := coveredTiles rs p g }

/-- Adds the groups of every pass. -/
def addGroups (s : State) (ctx : Nat) (rs : List Resource) (ps : List Pass) : State :=
  ps.foldl (fun s p =>
    let gs := passNewGroups ctx s.serial rs p
    { s with serial := s.serial + gs.length, groups := s.groups ++ gs }) s

/-- GRAPH_ACCEPT (R275, R276): the waiting graph of a queue receives the lowest free context, its entries and its
rings, once all of them are there; cached lines leave the capacity that its rings reserve (R219). -/
def execGraphAccept (q : Nat) (s : State) : Out :=
  .next (match s.waiting.find? fun w => w.queue = q, freeContext s with
    | some w, some ctx =>
      let held := s.graphs.flatMap Graph.resources
      if 262144 < tileCount held + tileCount w.graph.resources then s
      else match reserveRings s w.graph.passes 0 held w.graph.resources with
        | none => s
        | some rs =>
          let rs := placeRings held rs
          let entries := (rs.mapIdx newEntries).flatten
          let g := { w.graph with ctx := ctx, resources := rs, entries := entries }
          let s := { s with
            graphs := s.graphs ++ [g]
            waiting := s.waiting.filter fun x => !(x.queue = q && x.index = w.index) }
          releaseGroups (addGroups (trimVaults s) ctx rs g.passes) ctx
    | _, _ => s)

/-! ## GROUP_RETIRE (R76) -/

/-- Whether an effect that a thread of the group issued is still outstanding (R76). -/
def effectsOut (s : State) (g : Group) : Bool :=
  let mine := fun (t : ThreadRef) => t.group = g.serial
  s.copies.any (fun c => mine c.thread) || s.reductions.any (fun r => mine r.thread) ||
  s.cores.any (fun c => c.mxQueue.any (fun i => mine i.thread) || (c.mxRun.map fun r => decide (mine r.item.thread)).getD false) ||
  s.moves.any (fun m => match m.mover with
    | .thread n _ _ _ => n = g.serial
    | .host .. => false) ||
  s.bankRequests.any (fun r => r.group = g.serial) || s.fworks.any (fun r => r.group = g.serial) ||
  s.graphs.any fun gr => gr.requests.any fun q => mine q.thread

def mayRetire (s : State) (g : Group) : Bool :=
  g.phase = .resident && g.threads.all (fun th => th.status = .exited && th.buffer.isEmpty) && !effectsOut s g

/-- The group's scratchpad banks belong to no group again. -/
def freeBanks (s : State) (k group : Nat) : State :=
  updCore s k fun c => { c with banks := c.banks.map fun b => if b.owner = some group then { b with owner := none } else b }

/-- The tiles a group acquired and has not retired begin to retire, as though by `tldone` (R170). -/
def retireAcquired (s : State) (g : Group) : State :=
  (g.tiles.filter TileHold.acquired).foldl (fun s h => updEntry s g.ctx h.res h.tile fun e =>
    if e.phase = .acquired then { e with phase := .retiring, holder := none } else e) s

/-- Records the pair's last time in the graph, while shifts are enabled (R349). -/
def setLastTime (enabled : Bool) (gr : Graph) (pair now : Nat) : Graph :=
  if enabled then { gr with lastTimes := (gr.lastTimes.filter fun x => x.1 ≠ pair) ++ [(pair, now)] } else gr

/-- What follows a group's retirement: its handed groups end, its tiles retire, its references go (R76, R170, R172,
R280, R281, R300). -/
def retireGroup (s : State) (k : Nat) (g : Group) : State :=
  let s := (flushGroup s g).1
  let s := { s with groups := s.groups.map fun h => match h.phase with
    | .handed n _ => if n = g.serial then { h with phase := .handedEnding n } else h
    | _ => h }
  let s := endHanded s g.serial
  let s := freeBanks (updGroup s g.serial fun g => { g with phase := .retired, core := none, banks := [] }) k g.serial
  let s := retireAcquired (retireExternal s g (beginRetire g.ctx)) g
  let s := releaseAll s g.serial
  let now := s.time.toNat
  let enabled := s.policyGlobal.getLsbD 0
  settlePass (updGraph s g.ctx fun gr => setLastTime enabled gr (pairOf k) now) g.ctx g.stage

/-- GROUP_RETIRE (R76): a group whose threads have exited, whose effects have completed and whose stores have left
retires.  The groups handed to one that has retired, or that has fetched again, end once its writes are performed (R300). -/
def execGroupRetire (n : Nat) (s : State) : Out :=
  .next (match findGroup s n with
    | none => s
    | some g => match g.core with
      | some k => if mayRetire s g then retireGroup s k g else s
      | none => match g.phase with
        | .retired => endHanded s n
        | .handedEnding issuer => endHanded s issuer
        | _ => s)

/-! ## GRAPH_END (R286), with its budget shift (R349) -/

/-- The pair whose last time is latest; ties go to the lower number. -/
def latestPair (ts : List (Nat × Nat)) : Option Nat :=
  (ts.foldl (fun best x => match best with
    | none => some x
    | some b => if b.2 < x.2 || (b.2 = x.2 && x.1 < b.1) then some x else some b) none).map Prod.fst

/-- The pair of a die whose last time is earliest; ties go to the lower number. -/
def earliestPair (die : Nat) (ts : List (Nat × Nat)) : Option Nat :=
  ((ts.filter fun x => x.1 / 8 = die).foldl (fun best x => match best with
    | none => some x
    | some b => if x.2 < b.2 || (x.2 = b.2 && x.1 < b.1) then some x else some b) none).map Prod.fst

def shiftMax (s : State) : Int := ((s.policyGlobal.extractLsb' 1 3).toNat : Int)

/-- Graphs of a queue by the index of their commands, the most recent first. -/
def insertGraph (x : Nat × List (Nat × Nat)) : List (Nat × List (Nat × Nat)) → List (Nat × List (Nat × Nat))
  | [] => [x]
  | y :: rest => if y.1 ≤ x.1 then x :: y :: rest else y :: insertGraph x rest

/-- The last times of the graphs submitted on a queue, ended, rejected, active or waiting, the most recently submitted
first. -/
def submitted (s : State) (queue : Nat) : List (List (Nat × Nat)) :=
  let ended := (s.ended.filter fun e => e.1 = queue).map Prod.snd
  let active := (s.graphs.filter fun g => g.queue = queue).map fun g => (g.index, g.lastTimes)
  let waiting := (s.waiting.filter fun w => w.queue = queue).map fun w => (w.index, [])
  ((ended ++ active ++ waiting).foldr insertGraph []).map Prod.snd

/-- BUDGET_SHIFT (R349): the two graphs most recently submitted on the queue had their latest last time on one pair; `ts` are
the last times of the graph that ends. -/
def budgetShift (s : State) (queue : Nat) (ts : List (Nat × Nat)) : State :=
  match (submitted s queue).head?.bind latestPair, ((submitted s queue)[1]?).bind latestPair with
  | some l, some m =>
    if l ≠ m || !s.policyGlobal.getLsbD 0 then s
    else match earliestPair (l / 8) ts with
      | some e =>
        let up := (s.pairs.getD l Pair.reset).shift
        let down := (s.pairs.getD e Pair.reset).shift
        if e ≠ l && up < shiftMax s && -shiftMax s < down then
          updPair (updPair s l fun p => { p with shift := p.shift + 1 }) e fun p => { p with shift := p.shift - 1 }
        else s
      | none => s
  | _, _ => s

/-- Every pass has had all its groups retire or has been ended, and every entry is freed (R286). -/
def graphDone (s : State) (gr : Graph) : Bool :=
  gr.passes.all (fun p => p.life = .ended || (p.life = .open && allRetired s gr.ctx p.stage)) &&
    gr.entries.all fun e => e.phase = .freed

def graphStatus (gr : Graph) : Nat := if gr.endedByHost then 3 else if gr.passes.any Pass.failed then 2 else 0

/-- GRAPH_END (R286): the graph gives back its rings and entries, its completion record is written with a system-scope
release (R268), which waits until every write is performed at both dies, and its command completes. -/
def execGraphEnd (ctx : Nat) (s : State) : Out :=
  .next (match findGraph s ctx with
    | none => s
    | some gr =>
      let s := if graphDone s gr then toAll s else s
      if !graphDone s gr || !allDone s then s
      else
        let s := { s with
          graphs := s.graphs.filter fun g => g.ctx ≠ ctx, groups := s.groups.filter fun g => g.ctx ≠ ctx }
        let s := writeCompletion s gr.completion (graphStatus gr) ⟨0, nowhere, nowhere⟩ (gr.passes.map Pass.failed)
        let s := finishCommand s gr.queue gr.index gr.irq 0
        budgetShift { s with ended := (gr.queue, gr.index, gr.lastTimes) :: s.ended } gr.queue gr.lastTimes)

end Sys2Proof.Machine
end

