-- ==== Sys2Proof/Machine/Placement.lean ====
section
/-!
DEFINITION. Placement: what a core accepts (R183, R292-R295), the queues (R291), placing and re-placing a group
(R14, R182, R201, R211, R272, R311, R327), batch passes and gangs (R298, R301), work fetch (R299), partitions
(R288-R290), eviction (R200, R201) and migration (R296, R340, R341).
-/

namespace Sys2Proof.Machine

/-! ## What stands on a core (R183, R293) -/

/-- The groups that take room on a core: those on it, and those that have reserved it as their target (R340). -/
def occupants (s : State) (k : Nat) : List Group :=
  s.groups.filter fun g => g.core = some k || g.phase = .migrating k

def passOfGroup (s : State) (g : Group) : Option Pass := findPass s g.ctx g.stage

/-- Thread places and registers taken on lane `l` of a core. -/
def laneUse (s : State) (k l : Nat) : Nat × Nat :=
  (occupants s k).foldl (fun (a, b) g => match passOfGroup s g with
    | some p => if l < p.lanes then (a + p.rows, b + p.rows * p.regs) else (a, b)
    | none => (a, b)) (0, 0)

/-- Every lane the group uses has room (R183, R292). -/
def lanesFit (s : State) (p : Pass) (k : Nat) : Bool :=
  (List.range p.lanes).all fun l =>
    let (a, b) := laneUse s k l
    a + p.rows ≤ 32 && b + p.rows * p.regs ≤ 3072

/-- Banks that are, or may become, scratchpad of a new group: at least 4 banks stay cache, and at most 24 are scratchpad
(R215, R292). -/
def banksFree (s : State) (k : Nat) : Nat :=
  let c := getCore s k
  let pads := (c.banks.filter fun b => b.role = .pad && b.owner.isNone).length
  let more := min (cacheBanks c - 4) (24 - (padBanks c + padsComing s k))
  let incoming := ((s.groups.filter fun g => g.phase = .migrating k).map fun g =>
    ((passOfGroup s g).map Pass.scratchBanks).getD 0).sum
  pads + more - incoming

def groupCharge (p : Pass) : Nat := p.rows * p.lanes * p.regs / 32

/-- The charge of a cluster (R293). -/
def clusterCharge (s : State) (cluster : Nat) : Nat :=
  ((List.range 4).map fun i => ((occupants s (4 * cluster + i)).map fun g =>
    ((passOfGroup s g).map groupCharge).getD 0).sum).sum

def residentThreads (s : State) (k : Nat) : Nat :=
  ((occupants s k).map fun g => (g.threads.filter fun th => th.status ≠ .exited).length).sum

/-- The charges of a cluster and of its pair partner after a placement on core `k`. -/
def chargesAfter (s : State) (p : Pass) (k : Nat) : Nat × Nat :=
  let c := clusterOf k
  let partner := if c % 2 = 0 then c + 1 else c - 1
  (clusterCharge s c + groupCharge p, clusterCharge s partner)

def absDiff (a b : Nat) : Nat := (a - b) + (b - a)

/-- The pair condition (R293). -/
def pairAccepts (s : State) (p : Pass) (k : Nat) : Bool :=
  let (a, b) := chargesAfter s p k
  absDiff a b ≤ max (8 * max a b / 100) 12288

/-! ## The vault condition (R294) -/

def refillRate (band : Nat) : Nat :=
  match band with
  | 0 => 1536
  | 1 => 1472
  | 2 => 1344
  | _ => 0

def creditCap (band : Nat) : Nat :=
  match band with
  | 0 => 6291456
  | 1 => 6029312
  | 2 => 5505024
  | _ => 0

/-- A vault's credit brought up to the present. -/
def refill (v : Vault) (now : Nat) : Vault :=
  { v with credit := max v.credit (min (creditCap v.band) (v.credit + refillRate v.band * (now - v.refilled)))
           refilled := now }

def vaultNow (s : State) (v : Nat) : Vault := refill (s.vaults.getD v Vault.reset) s.time.toNat

/-- Whether the page at an address is mapped to a stack-tier frame of vault `v`, or to none. -/
def inVault (s : State) (v va : Nat) : Bool :=
  match leafOf s va with
  | some a => !(pte s a).getLsbD 0 || ((pte s a).extractLsb' 16 32).toNat * 65536 / 2 ^ 32 = v
  | none => true

/-- Whether a page lies in a memory segment of a pass record (R207, R270). -/
def Pass.reaches (p : Pass) (va : Nat) : Bool :=
  p.segs.any fun g => segKind g = 1 && va < segBase g + segLimit g && segBase g < va + 65536

/-- The pages of a pass that have moved from vault `v` and stand elsewhere now (R297, log 50). -/
def movedPages (s : State) (p : Pass) (v : Nat) : Nat :=
  ((vaultNow s v).movedOut.filter fun va => p.reaches va && !inVault s v va).length

/-- What a group of a pass costs a vault (R294): its pages that have moved away are charged no more (R297, log 50). -/
def vaultCost (s : State) (p : Pass) (v : Nat) : Nat :=
  min (p.vaultBytes - 65536 * movedPages s p v) (creditCap (vaultNow s v).band)

def vaultAccepts (s : State) (p : Pass) (k : Nat) : Bool :=
  let v := vaultOf k
  (vaultNow s v).band < 3 && vaultCost s p v ≤ (vaultNow s v).credit

def chargeVault (s : State) (p : Pass) (k : Nat) : State :=
  let cost := vaultCost s p (vaultOf k)
  let now := s.time.toNat
  updVault s (vaultOf k) fun v => let v := refill v now; { v with credit := v.credit - cost }

/-- VAULT_CREDIT_REFILL (R294). -/
def execVaultCreditRefill (vault : Nat) (s : State) : Out :=
  match s.vaults[vault]? with
  | none => .fault .noSuchAgent
  | some _ =>
    let now := s.time.toNat
    .next (updVault s vault fun v => refill v now)

/-! ## Acceptance (R292) -/

/-- Conditions of R292 on the core itself: its partition, no drain, a pair that is up, a vault not shut down. -/
def coreOpen (s : State) (part k : Nat) : Bool :=
  let c := getCore s k
  let p := s.pairs.getD (pairOf k) Pair.reset
  c.part = part && !c.draining && !c.fatal && p.state < 2 && p.stateEff < 2 && (vaultNow s (vaultOf k)).band < 3

def accepts (s : State) (p : Pass) (k : Nat) : Bool :=
  coreOpen s p.part k && lanesFit s p k && p.scratchBanks ≤ banksFree s k && pairAccepts s p k && vaultAccepts s p k

/-- The vault of the ring that gives a pass its home die (R291). -/
def homeDie (s : State) (g : Group) : Option Nat :=
  match findGraph s g.ctx with
  | none => none
  | some gr => match gr.passes[g.stage]? with
    | none => none
    | some p =>
      let ring := fun res => match gr.resources[res]? with
        | some r => if r.external then none else some (r.vault / 4)
        | none => none
      match p.writes.head?.bind ring with
      | some d => some d
      | none => (p.reads.head?.map ReadDecl.res).bind ring

/-- The order in which R292 prefers accepting cores. -/
def corePreferred (s : State) (p : Pass) (home : Option Nat) (a b : Nat) : Bool :=
  let far := fun k => match home with
    | some d => if dieOf k = d then 0 else 1
    | none => 0
  let left := fun k => (vaultNow s (vaultOf k)).credit - vaultCost s p (vaultOf k)
  let gap : Nat → Nat := fun k => absDiff (chargesAfter s p k).1 (chargesAfter s p k).2
  let busy := residentThreads s
  if far a ≠ far b then far a < far b
  else if left a ≠ left b then left b < left a
  else if gap a ≠ gap b then gap a < gap b
  else if busy a ≠ busy b then busy a < busy b
  else a < b

/-! ## The queues (R291) -/

/-- The rank of a waiting group: re-queued groups first, by their time; then released ones, by their time, stage and
linear index. -/
def queueRank (p : Pass) (g : Group) : Option (List Nat) :=
  match g.phase with
  | .saved n => some [0, n, g.serial]
  | .queued n => some [1, n, g.stage, g.x + p.gridX * (g.y + p.gridY * g.z), g.serial]
  | _ => none

def rankBefore : List Nat → List Nat → Bool
  | a :: as, b :: bs => a < b || (a = b && rankBefore as bs)
  | _, _ => true

def insertRank (x : List Nat × Group × Pass) : List (List Nat × Group × Pass) → List (List Nat × Group × Pass)
  | [] => [x]
  | y :: rest => if rankBefore x.1 y.1 then x :: y :: rest else y :: insertRank x rest

/-- The queue of a partition, in order. -/
def queueOfPart (s : State) (part : Nat) : List (Group × Pass) :=
  ((s.groups.filterMap fun g => match passOfGroup s g with
    | some p =>
      if p.part = part && p.life = .open && !p.preempted then (queueRank p g).map fun r => (r, g, p) else none
    | none => none).foldr insertRank []).map Prod.snd

/-- The group that replaces the one evicted from the core a pass records (R200). -/
def owedGroup (s : State) (ctx : Nat) (p : Pass) : Option Group :=
  ((queueOfPart s p.part).find? fun x => x.1.ctx = ctx && x.1.stage = p.stage && x.1.lcore.isNone).map Prod.fst

/-- The core that a pass keeps for a replacement: not one that has left the partition, drains or has failed meanwhile, which
can take none (R200, R289, R337; DESIGN CHOICE, log 49). -/
def keptFor (s : State) (p : Pass) : Option Nat :=
  p.replaces.filter fun k => (getCore s k).part = p.part && !(getCore s k).draining && !(getCore s k).fatal

/-- A core that an eviction has left keeps the room for the replacement, which waits on it for credit (R200). -/
def owed (s : State) (k : Nat) : Bool :=
  s.graphs.any fun gr => gr.passes.any fun p => keptFor s p = some k && (owedGroup s gr.ctx p).isSome

/-- A core that a waiting gang has planned takes no group of another pass (R301). -/
def planned (s : State) (ctx stage k : Nat) : Bool :=
  s.graphs.any fun gr => gr.passes.mapIdx (fun i p => (i, p)) |>.any fun (i, p) =>
    p.life = .open && p.plan.contains k && !(gr.ctx = ctx && i = stage)

/-- Whether a core accepts a group of a pass, and is kept for no other (R200, R292, R301). -/
def takes (s : State) (g : Group) (p : Pass) (k : Nat) : Bool :=
  accepts s p k && !owed s k && !planned s g.ctx g.stage k

/-- The core of a list that R292 chooses for a group. -/
def bestCore (s : State) (g : Group) (p : Pass) (cores : List Nat) : Option Nat :=
  (cores.filter (takes s g p)).foldl (fun best k => match best with
    | none => some k
    | some b => if corePreferred s p (homeDie s g) k b then some k else some b) none

/-! ## Placing a group (R14, R182, R272, R311, R327) -/

/-- A thread at the start of its group (R14): it begins at the entry point, code offset 0 (log 8). -/
def newThread (p : Pass) (now row lane : Nat) : Thread :=
  let mask : BitVec 128 := BitVec.ofNat 128 (2 ^ p.lanes - 1)
  { row := row, lane := lane, v := List.replicate p.regs 0, p := 1, k := List.replicate 8 mask, marks := []
    status := .ready, pc := 0, hdr := 0, seg := Segment.empty 0 0, buffer := [], waiting := none, record := none
    notice := none, late := [], inHandler := false, memStatus := 0, faultInfo := 0, faultPc := 0, faultHdr := 0
    data0 := 0, data1 := 0, split := false, readyAt := now, failedRet := false, saw := [], commit := 0, held := false
    rewait := false }

/-- A row at the start of its group: the preload words from s16 on, zero elsewhere (R272). -/
def newRow (p : Pass) : Row :=
  ⟨List.replicate 16 0 ++ p.preload ++ List.replicate (48 - p.preload.length) 0, 0, [], []⟩

/-- The state a group receives when it is first placed (R14, R215, R272). -/
def freshGroup (p : Pass) (now : Nat) (g : Group) : Group :=
  { g with
    threads := (List.range p.rows).flatMap fun r => (List.range p.lanes).map fun l => newThread p now r l
    rows := List.replicate p.rows (newRow p), b := p.bufs, g := p.segs, marks := [], pad := []
    tags := List.replicate (16 * p.scratchBanks) 0, padPoison := [], padSyndromes := [], tiles := [] }

/-- Takes scratchpad banks of a core for a group: banks already in that role first, then cache banks (R216, R292). -/
def takeBanks (s : State) (k group : Nat) : Nat → State
  | 0 => s
  | n + 1 =>
    let s := takeBanks s k group n
    let c := getCore s k
    let own := fun (s : State) (i : Nat) => updGroup (updBank s k i fun b => { b with owner := some group }) group
      fun g => { g with banks := g.banks ++ [i] }
    match c.banks.findIdx? fun b => b.role = .pad && b.owner.isNone with
    | some i => own s i
    | none => match c.banks.findIdx? Bank.caches with
      | some i => own (switchBank s k i .pad) i
      | none => s

/-- Handle records that came with a group take their numbers on its core, in the state known (R311). -/
def installHandles (c : Core) (hs : List (Nat × Handle)) : Core :=
  hs.foldl (fun c (n, h) => let c := dropResidency c n; { c with handles := c.handles.set n (some { h with image := [] }) }) c

/-- A wait whose group has arrived is issued now: its timeout runs for the cycles it had left (R201). -/
def arriveThread (now : Nat) (th : Thread) : Thread :=
  { th with readyAt := now, waiting := th.waiting.map (Effect.reissued now) }

/-- A wait whose group leaves its core keeps the cycles it has left (R201). -/
def departEffect (now : Nat) : Effect → Effect
  | .wait ty cond loc va cmp (some c) guard issued pc hdr =>
    .wait ty cond loc va cmp (some (BitVec.ofNat 32 (c.toNat - (now - issued)))) guard now pc hdr
  | e => e

def departThread (now : Nat) (th : Thread) : Thread :=
  { th with waiting := th.waiting.map (departEffect now), held := false }

/-- Every live thread of a group enters the block waiting table of its core. -/
def joinAll (s : State) (group : Nat) : State :=
  match findGroup s group with
  | none => s
  | some g => (g.threads.filter fun th => th.status ≠ .exited).foldl (fun s th => joinTable s (refOf g th)) s

/-- The group stands on core `k`: its banks, its handle records, its rank of arrival, its threads in the table. -/
def settleOn (s : State) (group k scratch : Nat) : State :=
  let c := getCore s k
  let now := c.cycles.toNat
  let at_ := refCycles s
  let carried := ((findGroup s group).map Group.carried).getD []
  let s := updCore s k fun c => { installHandles c carried with arrivals := c.arrivals + 1 }
  let s := updGroup s group fun g =>
    { g with phase := .resident, core := some k, lcore := some (g.lcore.getD k), arrival := c.arrivals + 1, idle := none
             banks := [], carried := [], placedAt := at_, threads := g.threads.map (arriveThread now) }
  joinAll (takeBanks s k group scratch) group

/-- A pass none of whose groups is on a core fetches its code anew: what stores wrote while no group was resident is
executed (R13). -/
def renewCode (s : State) (ctx stage : Nat) : State :=
  if (passGroups s ctx stage).any fun g => g.core.isSome then s
  else { s with cores := s.cores.map fun c => { c with iCache := [] } }

/-- The next chunk of a batch pass (R298): the coordinates of the group that stands for the undealt records, and a
group for those still left; its bytes are hinted toward the stack cache of the core that takes it. -/
def dealChunk (s : State) (g : Group) (p : Pass) (k : Nat) : State :=
  if !p.batch then s
  else
    let cores := (s.cores.filter fun c => c.part = p.part && !c.draining).length
    let remaining := p.batchCount - p.first
    let size := max 1 (remaining / (2 * cores))
    let s := hintBytes s k (p.batchArgs + p.first * p.batchRecBytes) (size * p.batchRecBytes)
    let s := updGroup s g.serial fun g => { g with x := p.first, y := size, z := 0 }
    let s := updPass s g.ctx g.stage fun p => { p with first := p.first + size }
    if p.first + size < p.batchCount then
      let since := match g.phase with
        | .queued n => n
        | _ => refCycles s
      { s with serial := s.serial + 1
               groups := s.groups ++ [{ newGroup (s.serial + 1) g.ctx g.stage 0 0 0 with phase := .queued since }] }
    else s

/-- Places a group on a core: it is charged, the range list is loaded, its state is fresh or the one it was saved with,
and its core's caches hold nothing older than what a saved group or a consumer has seen (R14, R201, R211, R251, R280,
R294). -/
def placeGroup (s : State) (g : Group) (p : Pass) (k : Nat) : State :=
  let s := renewCode (chargeVault s p k) g.ctx g.stage
  let fresh := match g.phase with
    | .saved _ => false
    | _ => true
  let s := if fresh then dealChunk s g p k else s
  let now := (getCore s k).cycles.toNat
  let ranges := s.rangeList.take 32
  let s := updCore s k fun c => { c with ranges := ranges }
  let s := if fresh then updGroup s g.serial (freshGroup p now) else s
  let s := if fresh && p.reads.isEmpty then s else seeTiles s k
  let s := { s with blocks := s.blocks.map fun b => if b = some g.serial then none else b }
  settleOn s g.serial k p.scratchBanks

/-! ## The scan (R291, R292) -/

/-- The group that blocks a partition's queue, while it waits there (R292). -/
def blocker (s : State) (part : Nat) : Option Group :=
  (s.blocks.getD part none).bind fun n => ((queueOfPart s part).find? fun x => x.1.serial = n).map Prod.fst

/-- How many of the first 16 groups of a queue are among those given. -/
def amongFirst (s : State) (part : Nat) (serials : List Nat) : Nat :=
  (((queueOfPart s part).take 16).filter fun x => serials.contains x.1.serial).length

/-- What a die scans: the first 16 groups, and none behind one that blocks the queue (R292).  Both dies scan the queue as
the cycle finds it: the groups that the other die's placement of this cycle took of the 16 were among them. -/
def scanned (s : State) (die part : Nat) : List (Group × Pass) :=
  let q := queueOfPart s part
  let other := getDie s (1 - die)
  (match blocker s part with
    | some g => q.take ((q.findIdx fun (x : Group × Pass) => x.1.serial = g.serial) + 1)
    | none => q).take (if other.placed = some (refCycles s) && other.drawn = some part then 16 - other.drew else 16)

def dieCores (die : Nat) : List Nat := (List.range 64).map (64 * die + ·)

/-- The groups of a scan that some core of a die accepts, each with its core; a gang is not placed this way. -/
def offers (s : State) (die part : Nat) : List (Group × Pass × Nat) :=
  (scanned s die part).filterMap fun (g, p) =>
    if p.gang then none else (bestCore s g p (dieCores die)).map fun k => (g, p, k)

/-- Whether a die has had its placement of the present cycle (R292). -/
def hasPlaced (s : State) (die : Nat) : Bool := (getDie s die).placed = some (refCycles s)

/-- A die has its placement of the present cycle, of groups that still stand in the queue of a partition in state `before`. -/
def markPlaced (before s : State) (die part : Nat) (serials : List Nat) : State :=
  updDie s die fun d =>
    { d with placed := some (refCycles s), drawn := some part, drew := amongFirst before part serials }

/-- Whether a group that both dies want goes to this one (R292). -/
def dieWins (s : State) (die : Nat) (g : Group) : Bool := (homeDie s g).getD 0 = die

/-- Whether a group of the pass is still to leave a core. -/
def leaving (s : State) (ctx stage k : Nat) : Bool :=
  (passGroups s ctx stage).any fun g => g.core = some k && match g.phase with
    | .saving _ => true
    | _ => false

/-- The replacement that an eviction owes a core of the die, once the evicted group has left and that core accepts it
(R200).  It goes ahead of every other group of its queue, also of a waiting gang that has planned the core (R301; DESIGN
CHOICE, log 49). -/
def replacement (s : State) (die : Nat) : Option (Group × Pass × Nat) :=
  (s.graphs.flatMap fun gr => gr.passes.map fun p => (gr.ctx, p)).findSome? fun (ctx, p) => match keptFor s p with
    | some k =>
      if dieOf k ≠ die || leaving s ctx p.stage k then none
      else (owedGroup s ctx p).bind fun g => if accepts s p k then some (g, p, k) else none
    | none => none

/-- The group that the scan of a die takes first, if the die still places one in this cycle. -/
def firstWanted (s : State) (die : Nat) : Option Nat :=
  if hasPlaced s die || (replacement s die).isSome then none
  else [0, 1].findSome? fun part => (offers s die part).head?.map fun x => x.1.serial

/-- What a die places of a partition's queue: its first accepted group, or the next when that one is the other die's. -/
def dieChoice (s : State) (die part : Nat) : Option (Group × Pass × Nat) :=
  match offers s die part with
  | [] => none
  | x :: rest => if firstWanted s (1 - die) = some x.1.serial && !dieWins s die x.1 then rest.head? else some x

/-- Whether a core may take a member of a gang, but for the pair condition, which all members meet together (R301): the
vault condition only sums up, so that each member meets it after those before it. -/
def gangOpen (s : State) (g : Group) (p : Pass) (k : Nat) : Bool :=
  coreOpen s p.part k && lanesFit s p k && p.scratchBanks ≤ banksFree s k && vaultAccepts s p k && !owed s k &&
    !planned s g.ctx g.stage k

/-- Whether the pair condition holds of a cluster and its partner as they stand (R293). -/
def balanced (s : State) (cluster : Nat) : Bool :=
  let a := clusterCharge s cluster
  let b := clusterCharge s (if cluster % 2 = 0 then cluster + 1 else cluster - 1)
  absDiff a b ≤ max (8 * max a b / 100) 12288

/-- The core of one more member, after members on the cores `ks` (R292, R301): first one that levels a pair that those have
put out of balance, then one that keeps its pair in balance, then any (DESIGN CHOICE, log 49). -/
def gangCore (s : State) (g : Group) (p : Pass) (ks : List Nat) : Option Nat :=
  let here := (List.range 128).filter (gangOpen s g p)
  let lighter := fun (k : Nat) => (chargesAfter s p k).1 ≤ (chargesAfter s p k).2 + groupCharge p
  let levels := here.filter fun k => !balanced s (clusterOf k) && lighter k && ks.any fun j => pairOf j = pairOf k
  let even := here.filter (pairAccepts s p)
  let from_ := if !levels.isEmpty then levels else if !even.isEmpty then even else here
  from_.foldl (fun best k => match best with
    | none => some k
    | some b => if corePreferred s p (homeDie s g) k b then some k else some b) none

/-- The members of a gang placed one after another, each on the next core of the plan while there is one, and else on the
core found for it (R301).  Answers the cores that took one, and the plan: a planned core that cannot take a member now
stays in it. -/
def placeGang (s : State) (plan ks : List Nat) : List (Group × Pass) → State × List Nat × List Nat
  | [] => (s, ks, [])
  | (g, p) :: rest => match plan with
    | k :: plan =>
      let (s, ks, left) := if gangOpen s g p k then placeGang (placeGroup s g p k) plan (k :: ks) rest
        else placeGang s plan ks rest
      (s, ks, k :: left)
    | [] => match gangCore s g p ks with
      | some k =>
        let (s, ks, left) := placeGang (placeGroup s g p k) [] (k :: ks) rest
        (s, ks, k :: left)
      | none => placeGang s [] ks rest

/-- The cores a gang has planned and that can still take its members once their room is free (R301). -/
def keptPlan (s : State) (p : Pass) : List Nat := p.plan.filter (coreOpen s p.part)

/-- The members of a gang at the head of a queue, once every one of them has been released or saved (R301, log 49). -/
def headGang (s : State) (die part : Nat) : Option (Group × Pass × List (Group × Pass)) :=
  match scanned s die part with
  | (g, p) :: _ =>
    let ready := (passGroups s g.ctx g.stage).all fun h => match h.phase with
      | .queued _ | .saved _ | .retired => true
      | _ => false
    if p.gang && ready then
      some (g, p, (queueOfPart s part).filter fun x => x.1.ctx = g.ctx && x.1.stage = g.stage)
    else none
  | [] => none

/-- A gang at the head of its queue is placed whole, when it can be (R301): every member has a core, the pair condition holds
of all of them together, and no die on which one is placed has had its placement of the cycle (R292). -/
def gangAtHead (s : State) (die part : Nat) : Option State :=
  (headGang s die part).bind fun (g, p, members) =>
    let (t, ks, _) := placeGang s (keptPlan s p) [] members
    if ks.length = members.length && ks.all fun k => balanced t (clusterOf k) && !hasPlaced s (dieOf k) then
      let t := updPass t g.ctx g.stage fun p => { p with plan := [] }
      let serials := members.map fun x => x.1.serial
      some (([0, 1].filter fun d => ks.any fun k => dieOf k = d).foldl (fun t d => markPlaced s t d part serials) t)
    else none

/-- A gang that cannot be placed yet keeps the cores it has planned, and plans those that would take its other members now
(R301, log 49).  A plan for all of them that breaks the pair condition is no plan: of it only the cores stay on whose pair the
condition holds. -/
def planHead (die : Nat) (s : State) (part : Nat) : State :=
  match headGang s die part with
  | some (g, p, members) =>
    let (t, ks, plan) := placeGang s (keptPlan s p) [] members
    let plan := if ks.length = members.length then plan.filter fun k => !ks.contains k || balanced t (clusterOf k) else plan
    updPass s g.ctx g.stage fun p' => { p' with plan := plan }
  | none => s

/-- What a die's scan places: a gang at the head that has to wait plans its cores, and the first group that a core of the die
accepts is placed (R292, R301). -/
def placeScanned (die : Nat) (s : State) : State :=
  let s := [0, 1].foldl (planHead die) s
  match [0, 1].findSome? (dieChoice s die) with
  | some (g, p, k) => placeGroup (markPlaced s s die p.part [g.serial]) g p k
  | none => s

/-- GROUP_PLACE (R292): a die places one group: a replacement owed, or a gang at the head of a queue, or the group
its scan chooses; a gang all of whose members landed on the other die leaves the die its own placement. -/
def execGroupPlace (die : Nat) (s : State) : Out :=
  if 2 ≤ die then .fault .noSuchAgent
  else if hasPlaced s die then .next s
  else .next (match replacement s die with
    | some (g, p, k) =>
      placeGroup (updPass (markPlaced s s die p.part [g.serial]) g.ctx g.stage fun p => { p with replaces := none }) g p k
    | none => match [0, 1].findSome? (gangAtHead s die) with
      | some t => if hasPlaced t die then t else placeScanned die t
      | none => placeScanned die s)

/-- Since when a group has waited for its placement. -/
def waitingSince (g : Group) : Option Nat :=
  match g.phase with
  | .saved n | .queued n => some n
  | _ => none

/-- PLACEMENT_BLOCK (R292): a group that no core has accepted for 65,536 cycles blocks its queue. -/
def execPlacementBlock (part : Nat) (s : State) : Out :=
  .next (if (blocker s part).isSome then s
    else match (queueOfPart s part).find? fun (g, _) => match waitingSince g with
        | some n => n + 65536 ≤ refCycles s
        | none => false with
      | some (g, _) => { s with blocks := s.blocks.set part (some g.serial) }
      | none => s)

/-! ## Work fetch (R167, R299) -/

/-- The mailbox words: the coordinates first, then the ready word (R167). -/
def writeMailbox (s : State) (k group offset ready : Nat) (xyz : Option (Nat × Nat × Nat)) : State :=
  let word := fun (s : State) (o x : Nat) => storePad s k [] group (cellsAt o (toBytes (BitVec.ofNat 32 x) 4))
  let s := match xyz with
    | some (x, y, z) => word (word (word s (offset + 4) x) (offset + 8) y) (offset + 12) z
    | none => s
  word s offset ready

/-- The first group of a grid in queue order that has been released and never placed. -/
def nextUnplaced (s : State) (g : Group) (p : Pass) : Option Group :=
  ((queueOfPart s p.part).find? fun x => x.1.ctx = g.ctx && x.1.stage = g.stage && x.1.lcore.isNone).map Prod.fst

/-- Whether undispatched groups of a grid remain. -/
def undispatched (s : State) (g : Group) : Bool :=
  (passGroups s g.ctx g.stage).any fun h => match h.phase with
    | .undispatched | .queued _ => true
    | _ => false

def endFwork (s : State) (id : Nat) : State := { s with fworks := s.fworks.filter fun r => r.id ≠ id }

/-- A group is withdrawn for a mailbox, where placement does not see it; for a batch pass it is the next chunk (R298,
R299). -/
def withdraw (s : State) (id : Nat) (p : Pass) (h : Group) (k : Nat) : State :=
  updGroup (dealChunk s h p k) h.serial fun h => { h with phase := .handHeld id }

/-- A withdrawn group is handed over: charged as a placement on the issuing group's core and taking its die's placement
of the cycle (R292), once the vault's credit suffices (R299).  A core that a waiting gang has planned takes none (R301). -/
def handOver (s : State) (id : Nat) (issuer : Group) (p : Pass) (k mailbox : Nat) (h : Group) : State :=
  if hasPlaced s (dieOf k) || planned s issuer.ctx issuer.stage k || !(coreOpen s p.part k && vaultAccepts s p k) then s
  else
    let s := chargeVault (markPlaced s s (dieOf k) p.part [h.serial]) p k
    let s := updGroup s h.serial fun h => { h with phase := .handed issuer.serial mailbox }
    let s := if p.reads.isEmpty then s else seeTiles s k
    let h := (findGroup s h.serial).getD h
    endFwork (writeMailbox s k issuer.serial mailbox 1 (some (h.x, h.y, h.z))) id

/-- FWORK_ANSWER (R167, R299): the groups whose mailbox is fetched again end (R300); then the request is answered, or
waits. -/
def execFworkAnswer (id : Nat) (s : State) : Out :=
  .next (match s.fworks.find? fun r => r.id = id with
    | none => s
    | some r => match findGroup s r.group with
      | none => endFwork s id
      | some g => match g.core, passOfGroup s g with
        | some k, some p =>
          let s := endHanded s r.group
          if !p.persistent then endFwork (writeMailbox s k r.group r.mailbox 3 none) id
          else if p.gang then endFwork (writeMailbox s k r.group r.mailbox 2 none) id
          else match s.groups.find? fun h => h.phase = .handHeld id with
            | some h => handOver s id g p k r.mailbox h
            | none => match nextUnplaced s g p with
              | some h => handOver (withdraw s id p h k) id g p k r.mailbox h
              | none =>
                if undispatched s g then s else endFwork (writeMailbox s k r.group r.mailbox 2 none) id
        | _, _ => s)

/-! ## Partitions (R288-R290) -/

/-- `compute_cores`: the compute cores of a die, draining ones excluded (R288). -/
def computeCores (s : State) (die : Nat) : Nat :=
  ((dieCores die).filter fun k => (getCore s k).part = 1 && !(getCore s k).draining).length

/-- The cores of a partition on a die: a draining core is in its partition until it flips (R289). -/
def partCores (s : State) (die part : Nat) : Nat := ((dieCores die).filter fun k => (getCore s k).part = part).length

/-- Released unplaced groups of a partition whose home die is this one or none (R290). -/
def backlog (s : State) (die part : Nat) : Nat :=
  ((queueOfPart s part).filter fun x => (homeDie s x.1).getD die = die).length

/-- What the Sheet of a die wants: 1 toward compute, -1 toward graphics (R290). -/
def sheetWant (s : State) (die : Nat) (d : Die) : Int :=
  if !d.sheet then
    if computeCores s die < d.target then 1 else if d.target < computeCores s die then -1 else 0
  else
    let bg := backlog s die 0
    let bc := backlog s die 1
    let up : Int := if 0 < bc && bg = 0 && d.minGraphics < partCores s die 0 then 1 else 0
    if 0 < bg && bc = 0 && d.minCompute < partCores s die 1 then -1 else up

/-- Whether a waiting gang has planned the core (R301). -/
def inPlan (s : State) (k : Nat) : Bool :=
  s.graphs.any fun gr => gr.passes.any fun p => p.life = .open && p.plan.contains k

/-- Whether the core has accepted a group in the present cycle. -/
def justTaken (s : State) (k : Nat) : Bool := (occupants s k).any fun g => g.placedAt = refCycles s

/-- The core that starts to drain: one without groups first, then the fewest threads, then the highest number; none that
a waiting gang has planned, and none that has accepted a group in the same cycle (R289, R290, R301). -/
def drainChoice (s : State) (die donor : Nat) : Option Nat :=
  let busy := fun k => (if (occupants s k).isEmpty then 0 else 1, residentThreads s k)
  ((dieCores die).filter fun k => (getCore s k).part = donor && !inPlan s k && !justTaken s k).foldl (fun best k => match best with
    | none => some k
    | some b =>
      let x := busy k
      let y := busy b
      if x.1 < y.1 || (x.1 = y.1 && x.2 ≤ y.2) then some k else some b) none

/-- The direction in which a draining core moves. -/
def drainDirection (c : Core) : Int := if c.part = 0 then 1 else -1

/-- SHEET_EVAL (R290): every 4,096 ns a die's Sheet abandons a move it no longer wants and starts the one it wants. -/
def execSheetEval (die : Nat) (s : State) : Out :=
  match s.dies[die]? with
  | none => .fault .noSuchAgent
  | some d =>
    if s.time.toNat < d.sheetAt + 4096 then .next s
    else
      let now := s.time.toNat
      let want := sheetWant s die d
      let s := updDie s die fun d => { d with sheetAt := now }
      let s := (dieCores die).foldl (fun s k => updCore s k fun c =>
        if c.draining && drainDirection c ≠ want then { c with draining := false } else c) s
      let draining := (dieCores die).any fun k => (getCore s k).draining
      .next (if want = 0 || draining then s
        else match drainChoice s die (if want = 1 then 0 else 1) with
          | some k => updCore s k fun c => { c with draining := true }
          | none => s)

/-- Whether an effect of any group is outstanding on a core. -/
def coreEffects (s : State) (k : Nat) : Bool :=
  let c := getCore s k
  !c.mxQueue.isEmpty || c.mxRun.isSome || s.reductions.any (fun r => r.core = k) ||
    s.bankRequests.any (fun r => (r.request.extractLsb' 7 7).toNat = k || (findGroup s r.group).bind Group.core = some k) ||
    c.banks.any fun b => !b.parked.isEmpty

/-- PARTITION_FLIP (R289): a draining core that holds nothing changes its partition. -/
def execPartitionFlip (core : Nat) (s : State) : Out :=
  onCore s core fun s c =>
    if c.draining && (occupants s core).isEmpty && !coreEffects s core then
      updCore s core fun c => { c with draining := false, part := 1 - c.part }
    else s

/-- The cores a partition could have at most: all of a die but those the Sheet leaves to the other (R288). -/
def partitionMost (s : State) (part : Nat) : Nat :=
  (s.dies.map fun d => if d.sheet then 64 - (if part = 0 then d.minCompute else d.minGraphics)
    else if part = 1 then d.target else 64 - d.target).sum

/-- How many groups of a pass an empty core holds (R183). -/
def groupsPerCore (p : Pass) : Nat :=
  let byPlaces := 32 / p.rows
  let byRegs := 3072 / (p.rows * p.regs)
  let byBanks := if p.scratchBanks = 0 then 32 else 24 / p.scratchBanks
  min byPlaces (min byRegs byBanks)

/-- Whether a pass waits for cores its partition does not have, or is a gang that can never fit (R290, R301). -/
def starving (s : State) (p : Pass) : Bool :=
  s.cores.all (fun c => c.part ≠ p.part) ||
    (p.gang && partitionMost s p.part * groupsPerCore p < p.gridX * p.gridY * p.gridZ)

/-- PARTITION_STARVATION (R290, R301): a pass with a group that waits for cores its partition does not have sends one
notice, 2^20 cycles after that wait began. -/
def execPartitionStarvation (ctx stage : Nat) (s : State) : Out :=
  .next (match findPass s ctx stage with
    | none => s
    | some p =>
      let waits := (passGroups s ctx stage).any fun g => (waitingSince g).isSome
      let short := if waits && starving s p then some (p.short.getD (refCycles s)) else none
      let due := match short with
        | some n => n + 2 ^ 20 ≤ refCycles s
        | none => false
      let s := updPass s ctx stage fun p => { p with short := short }
      if p.starved || !due then s
      else (notify (updPass s ctx stage fun p => { p with starved := true }) (.starvation stage) none).1)

/-! ## Leaving a core (R200, R201, R251, R339) -/

/-- Whether a live thread is parked in `waita`, or is ready, in the table or spilled, at the evaluation of one again (R124,
R200). -/
def waitsInWaita (th : Thread) : Bool :=
  th.status = .exited || (th.status = .ready && th.rewait) || (th.status = .parkedEffect && match th.waiting with
    | some (.wait ..) => true
    | _ => false)

/-- Condition 2 of R200 for a group. -/
def allWaiting (g : Group) : Bool := g.threads.all waitsInWaita && g.threads.any fun th => th.status ≠ .exited

/-- Keeps, for each group on a core, the core cycle from which condition 2 has held. -/
def markIdle (s : State) : State :=
  { s with groups := s.groups.map fun g => match g.core with
      | some k =>
        if allWaiting g then { g with idle := some (g.idle.getD (getCore s k).cycles.toNat) }
        else { g with idle := none }
      | none => g }

/-- For how many cycles of its core condition 2 has held. -/
def idleFor (s : State) (g : Group) : Nat :=
  match g.core, g.idle with
  | some k, some n => (getCore s k).cycles.toNat - n
  | _, _ => 0

/-- The group R200 evicts: idle longest, then the lowest logical core.  Two groups of one logical core, which R200 does not
order, go in the order of their numbers (DESIGN CHOICE, log 49). -/
def evictChoice (s : State) (gs : List Group) : Option Group :=
  gs.foldl (fun best g => match best with
    | none => some g
    | some b =>
      if idleFor s b < idleFor s g || (idleFor s g = idleFor s b && g.lcore.getD 0 < b.lcore.getD 0) then some g
      else some b) none

/-- GROUP_EVICT (R200): a grid all of whose groups on cores have waited for 65,536 cycles while a released group has
never been placed gives up one of them, and the core it leaves is the replacement's. -/
def execGroupEvict (ctx stage : Nat) (s : State) : Out :=
  .next (match findPass s ctx stage with
    | none => s
    | some p =>
      let here := (passGroups s ctx stage).filter fun g => g.core.isSome
      let unplaced := (passGroups s ctx stage).any fun g => match g.phase with
        | .queued _ => true
        | _ => false
      if p.gang || !unplaced || (keptFor s p).isSome || !here.all (fun g => allWaiting g && 65536 ≤ idleFor s g) then s
      else match evictChoice s (here.filter fun g => g.phase = .resident) with
        | some g =>
          let s := updGroup s g.serial fun g => { g with phase := .saving false }
          updPass s ctx stage fun p => { p with replaces := g.core }
        | none => s)

/-- Nothing of the group runs, and no effect is outstanding that must end before it leaves (R196, R201, R340). -/
def stillActive (g : Group) : Bool :=
  g.threads.any fun th => th.status = .running || th.status = .committing || (th.status = .parkedEffect &&
    match th.waiting with
    | some (.atomic ..) | some (.fence ..) | some (.xfence ..) | some (.spwf _) | some (.mxdrop _) => true
    | some (.tile .done _ _ _) | some (.tile .release _ _ _) => true
    | _ => false)

/-- The group's operations in the matrix queue of its core. -/
def matrixBusy (s : State) (k : Nat) (g : Group) : Bool :=
  let c := getCore s k
  c.mxQueue.any (fun i => i.thread.group = g.serial) ||
    (c.mxRun.map fun r => decide (r.item.thread.group = g.serial)).getD false

/-- The group's copies and tier moves. -/
def transfersBusy (s : State) (g : Group) : Bool :=
  s.copies.any (fun c => c.thread.group = g.serial) || s.moves.any fun m => match m.mover with
    | .thread n _ _ _ => n = g.serial
    | .host .. => false

/-- The handle records a group wrote last (R311). -/
def ownHandles (c : Core) (g : Group) : List (Nat × Handle) :=
  (c.handles.mapIdx fun i h => (i, h)).filterMap fun (i, h) => match h with
    | some h => if h.owner = g.serial then some (i, h) else none
    | none => none

/-- The group leaves core `k`: its wait entries, its places in the table, its handle records and its banks (R201,
R311, R340). -/
def departCore (s : State) (k : Nat) (g : Group) : State :=
  let now := (getCore s k).cycles.toNat
  let hs := ownHandles (getCore s k) g
  let s := (threadRefs g).foldl (fun s t => unspill (updCore s k fun c => leaveTable (leaveWaits c t) t) k) s
  let s := updCore s k fun c => forgetHandles c (hs.map Prod.fst)
  let s := updGroup s g.serial fun g =>
    { g with carried := hs, banks := [], core := none, threads := g.threads.map (departThread now) }
  freeBanks s k g.serial

/-- GROUP_SAVE (R201, R339): once its effects are done, a leaving group acts as after `fence.dev.ar` (R251), is saved
and frees its core; an evicted group is re-queued, a pre-empted one is held. -/
def execGroupSave (n : Nat) (s : State) : Out :=
  .next (match findGroup s n with
    | none => s
    | some g => match g.core, g.phase with
      | some k, .saving preempt =>
        if stillActive g || matrixBusy s k g || transfersBusy s g then s
        else
          let (s, done) := flushGroup s g
          if !done then s
          else
            let now := refCycles s
            let s := departCore s k ((findGroup s n).getD g)
            updGroup s n fun g => { g with phase := if preempt then .preempted else .saved now }
      | _, _ => s)

/-! ## Migration (R296, R328, R339-R341) -/

/-- A migration is decided: the target is reserved and charged (R340 step 1). -/
def startMigration (s : State) (g : Group) (p : Pass) (k : Nat) : State :=
  updGroup (chargeVault s p k) g.serial fun g => { g with phase := .migrating k, placedAt := refCycles s }

/-- The group of a vault that R296 moves: the most vault bytes, then the lowest logical core. -/
def migrateChoice (s : State) (vault : Nat) : Option (Group × Pass) :=
  (s.groups.filterMap fun g => match g.core, passOfGroup s g with
    | some k, some p =>
      if g.phase = .resident && vaultOf k = vault && p.persistent && !p.gang then some (g, p) else none
    | _, _ => none).foldl (fun best x => match best with
      | none => some x
      | some b =>
        if b.2.vaultBytes < x.2.vaultBytes ||
            (b.2.vaultBytes = x.2.vaultBytes && x.1.lcore.getD 0 < b.1.lcore.getD 0) then some x else some b) none

/-- VAULT_MIGRATE (R296, R328): at 4x refresh one attempt per 10,000 ns, counted from the sample that raised the vault, which
moves a group where the policy permits it; none moves a group within 10,000 ns of the last move. -/
def execVaultMigrate (vault : Nat) (s : State) : Out :=
  match s.vaults[vault]? with
  | none => .fault .noSuchAgent
  | some v =>
    let now := s.time.toNat
    let due := match v.movedGroup with
      | none => true
      | some n => n + 10000 ≤ now
    if v.band ≠ 2 || !due then .next s
    else
      let s := updVault s vault fun v => { v with movedGroup := some now }
      let early := match v.lastGroup with
        | none => false
        | some n => now < n + 10000
      .next (if early || !(s.policy.getD 2 0).getLsbD 3 then s else match migrateChoice s vault with
        | some (g, p) => match bestCore s g p ((List.range 128).filter fun k => vaultOf k ≠ vault) with
          | some k => updVault (startMigration s g p k) vault fun v => { v with lastGroup := some now }
          | none => s
        | none => s)

/-- The remap entry of the group's copies in flight (R341): the one it holds is updated, or one of the 32 of the source
core's die is taken, which is free again at once when no copy is in flight; none when none is free. -/
def takeRemap (s : State) (die : Nat) (g : Group) (target : Nat) : Option State :=
  let flying := (s.copies.filter fun c => c.thread.group = g.serial).map Copy.id
  let turn := fun (r : Remap) => if r.group = g.serial then { r with target := target, copies := flying } else r
  if s.dies.any fun d => d.remaps.any fun r => r.group = g.serial then
    some { s with dies := s.dies.map fun d =>
      { d with remaps := (d.remaps.map turn).filter fun r => !r.copies.isEmpty } }
  else if 32 ≤ (getDie s die).remaps.length then none
  else if flying.isEmpty then some s
  else some (updDie s die fun d => { d with remaps := d.remaps ++ [⟨g.serial, target, false, flying⟩] })

/-- MIGRATION_TRANSFER (R340): once nothing of the group runs and its effects that must end have ended, its writes are
performed, its state moves to the target, and its copies in flight go there; a target that an error has stopped meanwhile,
or whose vault has shut down, takes no group, which is then saved and re-queued (R291, R295, R337). -/
def execMigrationTransfer (n : Nat) (s : State) : Out :=
  .next (match findGroup s n with
    | none => s
    | some g => match g.core, g.phase, passOfGroup s g with
      | some k, .migrating target, some p =>
        if (getCore s target).fatal || (vaultNow s (vaultOf target)).band = 3 then
          updGroup s n fun g => { g with phase := .saving false }
        else if stillActive g || matrixBusy s k g then s
        else
          let (s, done) := flushGroup s g
          if !done then s
          else match takeRemap s (dieOf k) g target with
            | none => s
            | some s =>
              let s := departCore s k ((findGroup s n).getD g)
              let ranges := s.rangeList.take 32
              let s := updCore (seeTiles s target) target fun c => { c with ranges := ranges }
              settleOn s n target p.scratchBanks
      | _, _, _ => s)

end Sys2Proof.Machine
end

