-- ==== Sys2Proof/Machine/Ending.lean ====
section
/-!
DEFINITION. Ending a pass (R336), uncorrectable errors (R337, R338), pre-emption and migration by the host (R339), the
host's answers (R334), and the commands that wait for their effect (R354).
-/

namespace Sys2Proof.Machine

/-! ## Ending a pass (R282, R336) -/

/-- A pass is ordered to end. -/
def orderEnd (s : State) (ctx stage : Nat) : State :=
  updPass s ctx stage fun p => if p.life = .open then { p with life := .ordered } else p

/-- A thread goes from everything that waits for it: the wait table, the banks, the scoreboard (R336). -/
def withdrawThread (s : State) (t : ThreadRef) : State :=
  let s := exitThread s t
  { s with
    cores := s.cores.map fun c =>
      { leaveWaits c t with banks := c.banks.map fun b => { b with parked := b.parked.filter (· ≠ t) } }
    graphs := s.graphs.map fun gr => { gr with requests := gr.requests.filter fun q => q.thread ≠ t } }

/-- The threads of a pass that do not run are removed; a running one goes when its segment has executed, or at once when
its core issues no further instruction (R185, R336, R337). -/
def removeThreads (s : State) (ctx stage : Nat) : State :=
  ((passGroups s ctx stage).flatMap fun g =>
    let stopped := match g.core with
      | some k => (getCore s k).fatal
      | none => false
    (g.threads.filter fun th => (th.status ≠ .running || stopped) && th.status ≠ .exited).map (refOf g)).foldl withdrawThread s

/-- Matrix operations of a pass that have not started complete with status 6 (R163, R336). -/
def dropMatrix (s : State) (mine : Nat → Bool) : State :=
  (List.range s.cores.length).foldl (fun s k =>
    let gone := (getCore s k).mxQueue.filter fun i => mine i.thread.group
    let s := updCore s k fun c => { c with mxQueue := c.mxQueue.filter fun i => !mine i.thread.group }
    gone.foldl (fun s i => match i.work with
      | .load .. | .op _ => writeToken s i.thread.group i.thread.row i.token (tokenWord 0 false false 6)
      | .drop _ | .unload _ => s) s) s

/-- Groups of an ending pass that are not on a core are dropped; those about to leave stay (R336, R341). -/
def dropGroup (s : State) (g : Group) : State :=
  match g.phase with
  | .undispatched | .queued _ | .saved _ | .preempted | .handHeld _ =>
    updGroup (releaseAll s g.serial) g.serial fun g => { g with phase := .retired, threads := [] }
  | .saving _ | .migrating _ => updGroup s g.serial fun g => { g with phase := .resident }
  | .handed .. | .handedEnding _ | .resident | .retired => s

/-- The tiles of a pass's written resources whose entry satisfies `p`. -/
def tilesOf (s : State) (ctx stage : Nat) (p : Entry → Bool) : List (Nat × Nat) :=
  match findGraph s ctx with
  | none => []
  | some gr => match gr.passes[stage]? with
    | none => []
    | some x => (gr.entries.filter fun e => x.writes.contains e.res && p e).map fun e => (e.res, e.tile)

def neverHeld (e : Entry) : Bool :=
  match e.phase with
  | .free | .stalled _ => true
  | _ => false

/-- PASS_END (R336 steps 1-3): the tiles nobody holds are poisoned, the groups off the cores are dropped, the threads
that do not run are removed, and the outstanding effects are cut short. -/
def execPassEnd (ctx stage : Nat) (s : State) : Out :=
  .next (match findPass s ctx stage with
    | none => s
    | some p =>
      if p.life ≠ .ordered then s
      else
        let s := updPass s ctx stage fun p => { p with life := .stopping, replaces := none }
        let s := poisonFrom s ctx (tilesOf s ctx stage neverHeld)
        let s := (passGroups s ctx stage).foldl dropGroup s
        let s := removeThreads s ctx stage
        let mine := fun n => (passGroups s ctx stage).any fun g => g.serial = n
        let s := dropMatrix s mine
        { s with
          copies := s.copies.map fun c => if mine c.thread.group then { c with cancelled := true } else c
          fworks := s.fworks.filter fun r => !mine r.group })

/-- Everything a group wrote is performed; whether it may be released (R336 step 4). -/
def releasable (s : State) (g : Group) : State × Bool :=
  if g.core.isNone then (s, true)
  else
    let (s, done) := flushGroup s g
    (s, done && !effectsOut s g && g.threads.all fun th => th.status = .exited)

def releasableAll (s : State) : List Group → State × Bool
  | [] => (s, true)
  | g :: rest =>
    let (s, a) := releasable s g
    let (s, b) := releasableAll s rest
    (s, a && b)

/-- A group of an ended pass gives back its core and its references. -/
def releaseGroup (s : State) (g : Group) : State :=
  let s := match g.core with
    | some k => freeBanks s k g.serial
    | none => s
  updGroup (releaseAll s g.serial) g.serial fun g => { g with phase := .retired, core := none, banks := [] }

/-- PASS_END_RELEASE (R336 steps 4-5): once every thread has gone, every effect has reported and every store is
performed, the groups release what they hold, the tiles that have not retired are poisoned, and the pass has failed. -/
def execPassEndRelease (ctx stage : Nat) (s : State) : Out :=
  .next (match findPass s ctx stage with
    | none => s
    | some p =>
      if p.life ≠ .stopping then s
      else
        let s := removeThreads s ctx stage
        let (s, done) := releasableAll s (passGroups s ctx stage)
        if !done then s
        else
          let s := (passGroups s ctx stage).foldl releaseGroup s
          let s := updPass s ctx stage fun p => { p with life := .ended, failed := true }
          poisonFrom s ctx (tilesOf s ctx stage fun e => !e.retired))

/-! ## Errors in a core (R337, R338) -/

/-- The register is poisoned until it is next written. -/
def poisonRegister (s : State) (t : ThreadRef) (r : RegName) : State :=
  match r with
  | .v _ | .p _ | .k _ => updThread s t fun th => { th with marks := if th.marks.contains r then th.marks else r :: th.marks }
  | .s i => updGroup s t.group fun g => g.updRow t.row fun w => { w with marks := insertMark w.marks i }
  | .b _ | .g _ => updGroup s t.group fun g => { g with marks := if g.marks.contains r then g.marks else r :: g.marks }

/-- The 128-byte sector of a FIFO bank that holds entry `index` is poisoned (R319, R337). -/
def poisonFifo (s : State) (k bank index : Nat) : State :=
  updBank s k bank fun b => { b with bad := insertMark b.bad ((b.popped + index) % 4096 / 32) }

/-- Whether a pass has a group on a core. -/
def passesOn (s : State) (k : Nat) (p : Pass → Bool) : List (Nat × Nat) :=
  (s.groups.filterMap fun g => match g.core, passOfGroup s g with
    | some c, some x => if c = k && p x then some (g.ctx, g.stage) else none
    | _, _ => none).dedup

/-- The core issues no further instruction: its threads stop where they are, until their pass is ended (R337). -/
def stopCore (s : State) (k : Nat) : State := updCore s k fun c => { c with fatal := true, burst := none, chosen := none }

/-- The number that names the structure in a core-error notice. -/
def siteCode : EccSite → Nat
  | .register .. => 0
  | .scratchpad .. => 1
  | .fifo .. => 2
  | .l1 _ => 3
  | .control => 4

/-- ECC_UNCORRECTABLE (R337, R338): the register or the sector is poisoned, or the core fails and the passes on it
end; a gang with a member on the core is stopped; the host gets one notice. -/
def execEccUncorrectable (core : Nat) (site : EccSite) (s : State) : Out :=
  onCore s core fun s _ =>
    let fatal := site = .control
    let s := match site with
      | .register t r => poisonRegister s t r
      | .scratchpad g o => updGroup s g fun g => { g with padPoison := insertMark g.padPoison (sectorOf o) }
      | .fifo bank index => poisonFifo s core bank index
      | .l1 a => updCore s core fun c => if holdsLine c (lineOf a) then { c with l1Flaws := c.l1Flaws.addPoison a } else c
      | .control => stopCore s core
    let ending := passesOn s core fun p => fatal || p.gang
    let s := ending.foldl (fun s x => orderEnd s x.1 x.2) s
    (notify s (.coreError core (siteCode site) fatal) none).1

/-- ECC_CORRECTED (R337, R363). -/
def execEccCorrected (core : Nat) (s : State) : Out := onCore s core fun s _ => bump s core 18 none 1

/-- RESET_CORE (R337): a core that holds no group may be used again. -/
def execResetCore (c : Cmd) (core : Nat) (s : State) : Out :=
  runCommand s c true false (core < 128) fun s _ =>
    if (occupants s core).isEmpty then
      (updCore s core fun x => { x with
        fatal := false, burst := none, chosen := none, table := [], spill := [], waits := [], reserved := []
        refused := [], mxQueue := [], mxRun := none }, .done 0)
    else (s, .done 2)

/-! ## Commands on passes and groups (R285, R336, R339) -/

/-- END_PASS (R336). -/
def execEndPass (c : Cmd) (ctx stage : Nat) (s : State) : Out :=
  runCommand s c true false (ctx < 4 && stage < 256) fun s _ =>
    match findPass s ctx stage with
    | none => (s, .done 2)
    | some _ => (orderEnd s ctx stage, .waits (.passEnded ctx stage))

/-- END_GRAPH (R285): every pass of the graph is ended, one all of whose groups have retired too (R268, R336). -/
def execEndGraph (c : Cmd) (ctx : Nat) (s : State) : Out :=
  runCommand s c true false (ctx < 4) fun s _ =>
    match findGraph s ctx with
    | none => (s, .done 2)
    | some gr =>
      let s := updGraph s ctx fun g => { g with endedByHost := true }
      let s := (List.range gr.passes.length).foldl (fun s i => orderEnd s ctx i) s
      (s, .waits (.graphEnded gr.queue gr.index))

/-- Every resident group of a pass is to be saved and held (R339). -/
def preempt (s : State) (ctx stage : Nat) : State :=
  let s := updPass s ctx stage fun p => { p with preempted := true }
  { s with groups := s.groups.map fun g =>
      if g.ctx = ctx && g.stage = stage then match g.phase with
        | .resident | .saving _ | .migrating _ => { g with phase := .saving true }
        | .saved _ => { g with phase := .preempted }
        | _ => g
      else g }

/-- PREEMPT_PASS (R339). -/
def execPreemptPass (c : Cmd) (ctx stage : Nat) (s : State) : Out :=
  runCommand s c true false (ctx < 4 && stage < 256) fun s _ =>
    match findPass s ctx stage with
    | none => (s, .done 2)
    | some _ => (preempt s ctx stage, .waits (.preempted ctx stage))

/-- RESUME_PASS (R339): the saved groups are re-queued; one that has not yet left its core stays there, but a member of a
gang, which is placed again with the others (R301). -/
def execResumePass (c : Cmd) (ctx stage : Nat) (s : State) : Out :=
  runCommand s c true false (ctx < 4 && stage < 256) fun s _ =>
    match findPass s ctx stage with
    | none => (s, .done 2)
    | some p =>
      if !p.preempted then (s, .done 2)
      else
        let now := refCycles s
        let s := updPass s ctx stage fun p => { p with preempted := false }
        ({ s with groups := s.groups.map fun g =>
            if g.ctx = ctx && g.stage = stage then match g.phase with
              | .preempted => { g with phase := .saved now }
              | .saving true => { g with phase := if p.gang then .saving false else .resident }
              | _ => g
            else g }, .done 0)

/-- MIGRATE_GROUP (R339): a gang member, a group that is not resident, or a core that does not accept it is refused. -/
def execMigrateGroup (c : Cmd) (ctx stage x y z target : Nat) (s : State) : Out :=
  runCommand s c true false (ctx < 4 && stage < 256 && target < 128) fun s _ =>
    match (passGroups s ctx stage).find? (fun g => g.phase = .resident && g.x = x && g.y = y && g.z = z),
        findPass s ctx stage with
    | some g, some p =>
      if p.gang || g.core = some target || !takes s g p target then (s, .done 2)
      else (startMigration s g p target, .waits (.migrated g.serial target))
    | _, _ => (s, .done 2)

/-! ## Answers to fault notices (R334) -/

/-- The threads in parked-fault that wait on a notice. -/
def noticeThreads (s : State) (n : Nat) : List ThreadRef :=
  s.groups.flatMap fun g => (g.threads.filter fun th => th.status = .parkedFault && th.notice = some n).map (refOf g)

/-- The passes with a copy piece that waits on a notice. -/
def noticePasses (s : State) (n : Nat) : List (Nat × Nat) :=
  s.copies.filterMap fun c => if c.fixups.any fun f => f.2 = some n then
      (findGroup s c.thread.group).map fun g => (g.ctx, g.stage)
    else none

/-- The passes of the threads in parked-host whose fault the notice tells: the answer end pass ends these too (R334). -/
def hostPasses (s : State) (n : Nat) : List (Nat × Nat) :=
  (s.groups.filter fun g => g.threads.any fun th => th.status = .parkedHost && th.notice = some n).map fun g => (g.ctx, g.stage)

def isFault : Payload → Bool
  | .fault .. => true
  | _ => false

/-- Answers an outstanding fault notice; any other notice refuses an answer. -/
def answerNotice (s : State) (c : Cmd) (n : Nat) (a : Answer) (f : State → State) : Out :=
  runCommand s c true false true fun s _ =>
    match s.notices[n]? with
    | some x =>
      if !isFault x.payload || x.answer.isSome then (s, .done 2)
      else
        (f { s with notices := s.notices.map fun y => if y.index = n then { y with answer := some a } else y }, .done 0)
    | none => (s, .done 2)

/-- ANSWER_RETRY (R334): the waiting threads are ready at their `pc`; copy pieces are replayed (R342). -/
def execAnswerRetry (c : Cmd) (notice : Nat) (s : State) : Out :=
  answerNotice s c notice .retry fun s => (noticeThreads s notice).foldl resumeThread s

/-- ANSWER_DELIVER (R334): the pending records take the vector route; copy pieces fail (R342). -/
def execAnswerDeliver (c : Cmd) (notice : Nat) (s : State) : Out :=
  answerNotice s c notice .deliver fun s => (noticeThreads s notice).foldl (fun s t =>
    match (findThread s t).bind fun x => x.2.record with
    | some r => routeVector s t r
    | none => s) s

/-- ANSWER_END_PASS (R334): the passes of the waiting threads and copy pieces are ended, and those of threads in parked-host
that the notice is about. -/
def execAnswerEndPass (c : Cmd) (notice : Nat) (s : State) : Out :=
  answerNotice s c notice .endPass fun s =>
    let passes := (noticeThreads s notice).filterMap (fun t => (findGroup s t.group).map fun g => (g.ctx, g.stage)) ++
      noticePasses s notice ++ hostPasses s notice
    passes.dedup.foldl (fun s x => orderEnd s x.1 x.2) s

/-! ## RESUME_THREAD (R153, R157, R334) -/

/-- The thread at a place of a core. -/
def threadAt (s : State) (core place : Nat) : Option ThreadRef :=
  ((s.groups.filter fun g => g.core = some core && g.phase ≠ .retired).flatMap fun g => g.threads.map fun th =>
    (g, refOf g th)).findSome? fun (g, t) => if threadPlace s g t = place then some t else none

/-- A resume whose values fail: the record is rewritten and a new notice is sent (R334). -/
def refuseResume (s : State) (g : Group) (t : ThreadRef) (bad : Word) : State :=
  match findThread s t with
  | none => s
  | some (_, th) =>
    let r : Record := ⟨Code.clauseFormat.bits, th.failedRet, th.pc, th.hdr, bad, th.pc, none⟩
    let (s, n) := notify s (faultPayload s g t r) (some (.thread t, r.code))
    updThread s t fun th => { th.writeRecord r with record := some r, notice := some n }

/-- The thread goes on at a place that passed the checks; a failed `trapret` is complete. -/
def resumeAt (s : State) (t : ThreadRef) (pc hdr : Word) : State :=
  makeReady (continueAt (updThread (endNotices s t) t fun th =>
    { th with inHandler := th.inHandler && !th.failedRet, failedRet := false, record := none, notice := none
              waiting := none }) t pc hdr) t

/-- RESUME_THREAD (R334): a thread in parked-host goes on at new values, at its recorded place, after its `halt`, or
where its `trapret` leads. -/
def execResumeThread (c : Cmd) (core place : Nat) (target : Option (BitVec 32 × BitVec 32)) (s : State) : Out :=
  runCommand s c true false (core < 128 && place < 4096) fun s _ =>
    match (threadAt s core place).bind fun t => (findThread s t).bind fun (g, th) =>
        (passOfGroup s g).map fun p => (t, g, th, p) with
    | none => (s, .done 2)
    | some (t, g, th, p) =>
      if th.status ≠ .parkedHost then (s, .done 2)
      else match target, th.failedRet with
        | none, false => (hostResume s t, .done 0)
        | _, _ =>
          let (pc, hdr) := target.getD (th.pc, th.hdr)
          match resumeBad s core g p pc hdr with
          | some bad => (refuseResume s g t bad, .done 2)
          | none => (resumeAt s t pc hdr, .done 0)

/-! ## Commands that wait (R354) -/

/-- The status of a waiting command, once its effect is done. -/
def commandStatus (s : State) : CmdWait → Option Nat
  | .passEnded ctx stage => match findPass s ctx stage with
    | some p => if p.life = .ended then some 0 else none
    | none => some 0
  | .preempted ctx stage =>
    if (passGroups s ctx stage).any fun g => g.phase = .saving true then none else some 0
  | .migrated group target => match findGroup s group with
    | some g => if g.phase = .migrating target then none else some (if g.core = some target then 0 else 2)
    | none => some 0
  | .graphEnded queue index => if s.graphs.any fun g => g.queue = queue && g.index = index then none else some 0
  | .storesGone ts =>
    let gone := ts.all fun t => match findThread s t with
      | some (_, th) => th.buffer.isEmpty && th.seg.stores.isEmpty
      | none => true
    if gone && !hostPending s then some 0 else none

/-- Makes the flushes that are still owed, and completes the waiting commands whose effect is done (R213, R226, R354). -/
def settleCommands (s : State) : State :=
  let s := settleFlushes s
  s.commands.foldl (fun s c => match commandStatus s c.wait with
    | some status =>
      finishCommand { s with commands := s.commands.filter (· ≠ c) } c.queue c.index c.irq status
    | none => s) s

end Sys2Proof.Machine
end

