-- ==== Sys2Proof/Machine/Power.lean ====
section
/-!
DEFINITION. Power and heat: pair states, ceilings and voltage (R344-R346, R350, R356), the policy table and the vaults'
temperature (R294, R295, R347), droop (R348) and gating (R345).
-/

namespace Sys2Proof.Machine

/-! ## Droop (R197, R348) -/

/-- A step of one cluster; there are 32 (R1). -/
def onCluster (s : State) (n : Nat) (f : State → Cluster → State) : Out :=
  match s.clusters[n]? with
  | some c => .next (f s c)
  | none => .fault .noSuchAgent

def clusterCores (n : Nat) : List Nat := (List.range 4).map (4 * n + ·)

/-- DROOP_DETECT (R348): the window begins, its cores count it, and a running matrix operation is suspect (R314). -/
def execDroopDetect (cluster : Nat) (s : State) : Out :=
  onCluster s cluster fun s c =>
    let s := if c.droop then s else (clusterCores cluster).foldl (fun s k => bump s k 9 none 1) s
    let s := (clusterCores cluster).foldl (fun s k => updCore s k fun c =>
      { c with mxRun := c.mxRun.map fun r => { r with suspect := true } }) s
    updCluster s cluster fun c => { c with droop := true, recover := none }

/-- DROOP_SUPPLY_RECOVERED (R348): the 64 recovery cycles begin. -/
def execDroopSupplyRecovered (cluster : Nat) (s : State) : Out :=
  onCluster s cluster fun s c =>
    if c.droop && c.recover.isNone then updCluster s cluster fun c => { c with recover := some 64 } else s

/-- DROOP_WINDOW_END (R348): the window ends when its recovery cycles have run. -/
def execDroopWindowEnd (cluster : Nat) (s : State) : Out :=
  onCluster s cluster fun s c =>
    if c.droop && c.recover = some 0 then
      let now := (getCore s (4 * cluster)).cycles.toNat
      updCluster s cluster fun c => { c with droop := false, recover := none, quietSince := now }
    else s

/-! ## Ceilings (R346) -/

/-- The least voltage of a ceiling code (R344). -/
def leastVoltage (code : Nat) : Nat :=
  match code with
  | 0 => 850
  | 1 => 800
  | 2 => 760
  | 3 => 720
  | 4 => 690
  | 5 => 660
  | 6 => 630
  | _ => 600

/-- The fastest code a die voltage carries. -/
def voltageCode (mv : Nat) : Nat := ((List.range 8).find? fun c => leastVoltage c ≤ mv).getD 7

/-- The thermal cap of the band a vault is in (R347). -/
def thermalCap (s : State) (vault : Nat) : Nat :=
  ((s.policy.getD (s.vaults.getD vault Vault.reset).band 0).extractLsb' 0 3).toNat

/-- The vaults beneath a pair's two clusters (R287). -/
def pairVaults (pair : Nat) : List Nat := [vaultOf (8 * pair), vaultOf (8 * pair + 4)]

/-- The ceiling in force (R346). -/
def ceilingOf (s : State) (n : Nat) (p : Pair) : Nat :=
  let c : Int := max (p.ceiling - p.shift) (((pairVaults n).map (thermalCap s)).foldl max 0 : Nat)
  (min 7 (max c (voltageCode (getDie s (n / 8)).mv : Nat))).toNat

def onPair (s : State) (n : Nat) (f : State → Pair → State) : Out :=
  match s.pairs[n]? with
  | some p => .next (f s p)
  | none => .fault .noSuchAgent

def pairCores (n : Nat) : List Nat := (List.range 8).map (8 * n + ·)

/-- CEILING_APPLY (R346): a changed ceiling takes effect, never during a burst. -/
def execCeilingApply (pair : Nat) (s : State) : Out :=
  onPair s pair fun s p =>
    if (pairCores pair).any fun k => (getCore s k).burst.isSome then s
    else updPair s pair fun q => { q with ceilingEff := ceilingOf s pair p }

/-! ## Gating and waking (R345) -/

/-- Whether a core holds a group or an outstanding effect (R345). -/
def coreInUse (s : State) (k : Nat) : Bool :=
  !(occupants s k).isEmpty || coreEffects s k || s.copies.any fun c => match findGroup s c.thread.group with
    | some g => g.core = some k
    | none => false

/-- `state_eff` follows the clusters of a clocked pair. -/
def showGating (s : State) (pair : Nat) : State :=
  let gated := fun n => (s.clusters.getD n Cluster.reset).gated
  updPair s pair fun p =>
    if p.stateEff < 2 then { p with stateEff := if gated (2 * pair) && gated (2 * pair + 1) then 1 else 0 } else p

/-- CLUSTER_GATE (R345): an IDLE cluster that holds nothing is gated. -/
def execClusterGate (cluster : Nat) (s : State) : Out :=
  onCluster s cluster fun s _ =>
    let p := s.pairs.getD (cluster / 2) Pair.reset
    if p.state = 1 && p.stateEff < 2 && !(clusterCores cluster).any (coreInUse s) then
      showGating (updCluster s cluster fun c => { c with gated := true }) (cluster / 2)
    else s

/-- CLUSTER_CLOCKED_AGAIN (R345): a gated cluster that holds a group is clocked. -/
def execClusterClockedAgain (cluster : Nat) (s : State) : Out :=
  onCluster s cluster fun s c =>
    if c.gated && (clusterCores cluster).any (coreInUse s) then
      showGating (updCluster s cluster fun c => { c with gated := false }) (cluster / 2)
    else s

/-- PAIR_WAKE_DONE (R345): 20 µs after leaving OFF the pair is clocked. -/
def execPairWakeDone (pair : Nat) (s : State) : Out :=
  onPair s pair fun s p => match p.wakeAt with
    | some t => if t ≤ s.time.toNat then updPair s pair fun p => { p with stateEff := 0, wakeAt := none } else s
    | none => s

/-! ## WRITE_PAIR_CONTROL (R344, R345, R350) -/

/-- Why a pair may not go OFF: status 1 when nothing but a placement of this cycle stands against it, else 2. -/
def offRefused (s : State) (pair : Nat) : Option Nat :=
  let fifo := (pairCores pair).any fun k => (getCore s k).banks.any fun b => b.role = .fifo && !b.entries.isEmpty
  let groups := (pairCores pair).flatMap (occupants s)
  let early := groups.any fun g => g.placedAt ≠ refCycles s || match g.phase with
    | .migrating k => pairOf k ≠ pair
    | _ => false
  if !((pairCores pair).any (coreInUse s)) && !fifo then none
  else if !groups.isEmpty && !early && !fifo && !(pairCores pair).any (coreEffects s) then some 1
  else some 2

/-- Power goes: dirty bytes are written back and every bank returns to the cache role (R345). -/
def powerOff (s : State) (pair : Nat) : State :=
  let s := (pairCores pair).foldl (fun s k =>
    let s := invalidateL1 (writeBack s k fun _ => true) k
    let s := updCore s k fun c =>
      { c with banks := List.replicate 32 Bank.reset, sCache := [], aCache := [], mCache := [], iCache := [], tlb := [] }
    (List.range 32).foldl (fun s b => setRoleCopies s k b .cache) s) s
  updPair s pair fun p => { p with state := 2, stateEff := 2, wakeAt := none }

/-- Every shift of a die returns to 0 (R349). -/
def clearShifts (s : State) (die : Nat) : State :=
  { s with pairs := s.pairs.mapIdx fun i p => if i / 8 = die then { p with shift := 0 } else p }

/-- The pair enters ACTIVE or IDLE; one that leaves OFF wakes for 20 µs (R345). -/
def powerOn (s : State) (pair state : Nat) : State :=
  let now := s.time.toNat
  let s := updPair s pair fun p =>
    if p.stateEff = 2 then { p with state := state, stateEff := 3, wakeAt := some (now + 20000) }
    else { p with state := state }
  if state = 0 then
    let s := [2 * pair, 2 * pair + 1].foldl (fun s n => updCluster s n fun c => { c with gated := false }) s
    showGating s pair
  else s

/-- WRITE_PAIR_CONTROL (R344): state 3 is ignored, and a command to OFF may be refused or deferred; a write of the
ceiling clears the shifts of its die. -/
def execWritePairControl (c : Cmd) (pair : Nat) (value : BitVec 32) (s : State) : Out :=
  runCommand s c true false (pair < 16) fun s _ =>
    let state := (value.extractLsb' 0 2).toNat
    let ceiling := (value.extractLsb' 2 3).toNat
    let set := fun (s : State) => clearShifts (updPair s pair fun p => { p with ceiling := ceiling }) (pair / 8)
    if state = 3 then (s, .done 2)
    else if state = 2 then match offRefused s pair with
      | some n => (s, .done n)
      | none => (powerOff (set s) pair, .done 0)
    else (powerOn (set s) pair state, .done 0)

/-- WRITE_DIE_VOLTAGE (R344): a value outside 600 to 900 mV is ignored. -/
def execWriteDieVoltage (c : Cmd) (die : Nat) (value : BitVec 32) (s : State) : Out :=
  runCommand s c true false (die < 2) fun s _ =>
    let mv := (value.extractLsb' 0 10).toNat
    if 600 ≤ mv && mv ≤ 900 then (updDie s die fun d => { d with mv := mv }, .done 0) else (s, .done 2)

/-- WRITE_PARTITION_CONTROL (R288): a write whose minima exceed 64 together is ignored whole. -/
def execWritePartitionControl (c : Cmd) (die : Nat) (value : BitVec 64) (s : State) : Out :=
  let g := (value.extractLsb' 0 7).toNat
  let k := (value.extractLsb' 7 7).toNat
  let target := (value.extractLsb' 16 7).toNat
  runCommand s c true false (die < 2 && target ≤ 64) fun s _ =>
    if 64 < g + k then (s, .done 2)
    else (updDie s die fun d =>
      { d with minGraphics := g, minCompute := k, sheet := value.getLsbD 14, target := target }, .done 0)

/-- WRITE_POLICY_TABLE (R347): entries 0 to 3, or the global word at index 4; disabling shifts clears them all
(R349). -/
def execWritePolicyTable (c : Cmd) (index : Nat) (value : BitVec 16) (s : State) : Out :=
  runCommand s c true false (index < 5) fun s _ =>
    if index < 4 then ({ s with policy := s.policy.set index (value &&& 0x3F) }, .done 0)
    else
      let s := { s with policyGlobal := value &&& 0xF }
      (if value.getLsbD 0 then s else clearShifts (clearShifts s 0) 1, .done 0)

/-! ## VAULT_TEMP_SAMPLE (R294, R295, R347) -/

/-- The thresholds of R294, in degrees Celsius, below which bands 0, 1 and 2 lie. -/
def thresholds : List Int := [85, 95, 105]

/-- The band after a sample: it rises at a threshold, and falls 2 °C below it. -/
def bandAfter (band : Nat) (t : Int) : Nat :=
  let up := (thresholds.filter fun x => x < t).length
  let stay := ((thresholds.take band).filter fun x => x - 2 < t).length
  max up stay

/-- The passes with a group beneath a vault. -/
def passesBeneath (s : State) (vault : Nat) : List (Nat × Nat) :=
  (s.groups.filterMap fun g => match g.core with
    | some k => if vaultOf k = vault then some (g.ctx, g.stage) else none
    | none => none).dedup

/-- A vault enters shutdown: its passes are pre-empted or ended as the policy says (R347). -/
def shutDown (s : State) (vault : Nat) : State :=
  (passesBeneath s vault).foldl (fun s x =>
    if (s.policy.getD 3 0).getLsbD 5 then orderEnd s x.1 x.2 else preempt s x.1 x.2) s

/-- VAULT_TEMP_SAMPLE (R294): every 1,000 ns the hottest sensor sets a vault's band; a lower cap cuts the credit, and
leaving shutdown resets it.  The sample that raises a vault to 4x starts the attempts of R328 afresh. -/
def execVaultTempSample (vault : Nat) (s : State) : Out :=
  match s.vaults[vault]? with
  | none => .fault .noSuchAgent
  | some v =>
    let now := s.time.toNat
    if now < v.sampled + 1000 then .next s
    else
      let band := bandAfter v.band (vaultTemp s vault)
      let s := updVault s vault fun v =>
        let v := refill v now
        { v with band := band, sampled := now - now % 1000
                 movedGroup := if band = 2 && v.band ≠ 2 then none else v.movedGroup
                 credit := if v.band = 3 && band < 3 then creditCap band else min v.credit (max (creditCap band)
                   (if band < v.band then v.credit else creditCap band)) }
      let s := if band = 3 && v.band < 3 then shutDown s vault else s
      .next (if (band = 3) = (v.band = 3) then s else (notify s (.thermal vault band) none).1)

end Sys2Proof.Machine
end

