-- ==== Sys2Proof/Machine/Host.lean ====
section
/-!
DEFINITION. Reset, firmware and identity (R7, R358-R361), and the host's reads and writes of state (R276, R315, R355,
R362).
-/

namespace Sys2Proof.Machine

/-! ## Firmware (R358, R359) -/

/-- Bytes 0x000 of an image up to the end of its code: what both signatures cover. -/
def signedBytes (f : Firmware) : List Byte :=
  toBytes f.mark 4 ++ toBytes f.codeSize 4 ++ toBytes f.rollback 4 ++ toBytes f.keySlot 4 ++ f.reserved ++ f.modulus ++
    f.slhKey ++ f.code

def keyHash (f : Firmware) : BitVec 384 := Config.shake256 48 (f.modulus ++ f.slhKey)

/-- The key slot condition (R358, R359). -/
def keyAccepted (s : State) (f : Firmware) : Bool :=
  (match s.keySlots[f.keySlot.toNat]? with
    | some k => k.programmed && !k.revoked && k.value = keyHash f
    | none => false) ||
  (s.keySlots.all (fun k => !k.programmed) && f.keySlot = 0 && keyHash f = Config.shippingValue)

/-- The first check of R358 that an image fails, by its place in the list: 1 mark, sizes and reserved bytes, 2 key
slot, 3 signatures, 4 rollback. -/
def bootFailure (s : State) (f : Firmware) : Option Nat :=
  if f.mark ≠ 0x57444657 || f.reserved ≠ List.replicate 48 0 || f.codeSize.toNat % 64 ≠ 0 ||
      f.code.length ≠ f.codeSize.toNat || 63 < f.rollback.toNat || 3 < f.keySlot.toNat then some 1
  else if !keyAccepted s f then some 2
  else if !(Config.rsaVerify f.modulus (signedBytes f) f.rsaSig && Config.slhVerify f.slhKey (signedBytes f) f.slhSig) then
    some 3
  else if f.rollback.toNat < s.rollback then some 4
  else none

/-- A stack-cache part is 512 MiB to 4 GiB in steps of 256 MiB (R219). -/
def splitOk (n : Nat) : Bool := 2 ≤ n && n ≤ 16

/-- What the boot configuration sets (R209, R219, R316).  A split or a table size outside its range sets nothing (DESIGN
CHOICE, log 7). -/
def applyBoot (s : State) (b : BootConfig) : State :=
  { s with
    vaults := s.vaults.mapIdx fun i v =>
      { v with cacheSteps := if splitOk (b.cacheSteps.getD i 0) then b.cacheSteps.getD i 0 else v.cacheSteps }
    deepBytes := b.deepBytes, tensorBase := b.tensorBase
    tensorCount := if b.tensorCount ≤ 2 ^ 20 then b.tensorCount else s.tensorCount
    bootConfig := some b }

/-- The boot ROM starts an image that passes every check; otherwise the device stays in recovery, and a notice names
the failed check (R358). -/
def startImage (s : State) (f : Firmware) : State :=
  match bootFailure s f with
  | none => { s with running := some f }
  | some n => (notify { s with running := none } (.boot n 0) none).1

/-- DEVICE_RESET (R7, R358, R359, R364): everything but the fuses and the host's own memory returns to its reset value,
written bytes are forgotten, the boot configuration places queue 0 and the image is verified.  The counts that tell
free values and groups apart go on. -/
def execDeviceReset (image : Firmware) (boot : BootConfig) (s : State) : Out :=
  let fresh : State := { State.reset with
    keySlots := s.keySlots, rollback := s.rollback, hostMem := s.hostMem, pageRoot := s.pageRoot
    rangeList := s.rangeList, epoch := s.epoch + 1, freeCount := s.freeCount, serial := s.serial, focus := s.focus
    agenda := s.agenda }
  let s := applyBoot fresh boot
  let s := { s with queues := s.queues.set 0 (some (newQueue true boot.queue0Ring Config.queue0Entries)) }
  .next (startImage s image)

/-- FIRMWARE_RELOAD (R358): in recovery, queue 0 accepts another image; the splits hold until device reset (R219). -/
def execFirmwareReload (image : Firmware) (boot : BootConfig) (s : State) : Out :=
  .next (if s.running.isSome || (getQueue s 0).isNone then s
    else startImage (applyBoot s { boot with cacheSteps := s.vaults.map Vault.cacheSteps }) image)

/-! ## Fuses (R359) -/

/-- ENROL_KEY (R359). -/
def execEnrolKey (c : Cmd) (slot : Nat) (value : BitVec 384) (s : State) : Out :=
  runCommand s c true false (slot < 4) fun s _ =>
    let k := s.keySlots.getD slot KeySlot.reset
    if k.programmed || k.revoked then (s, .done 2)
    else ({ s with keySlots := s.keySlots.set slot ⟨true, false, value⟩ }, .done 0)

def inForce (k : KeySlot) : Bool := k.programmed && !k.revoked

/-- REVOKE_KEY (R359): the last slot in force cannot be revoked. -/
def execRevokeKey (c : Cmd) (slot : Nat) (s : State) : Out :=
  runCommand s c true false (slot < 4) fun s _ =>
    let k := s.keySlots.getD slot KeySlot.reset
    if inForce k && (s.keySlots.filter inForce).length ≤ 1 then (s, .done 2)
    else ({ s with keySlots := s.keySlots.set slot { k with revoked := true } }, .done 0)

/-- RAISE_ROLLBACK (R359). -/
def execRaiseRollback (c : Cmd) (s : State) : Out :=
  runCommand s c true false true fun s _ => match s.running with
    | some f =>
      if f.rollback.toNat < s.rollback then (s, .done 2) else ({ s with rollback := f.rollback.toNat }, .done 0)
    | none => (s, .done 2)

/-! ## ATTEST (R361) -/

/-- The programmed and revoked bits of the four slots. -/
def slotBits (s : State) : Nat :=
  (s.keySlots.mapIdx fun i k => (if k.programmed then 2 ^ i else 0) + (if k.revoked then 2 ^ (i + 4) else 0)).sum

def bootHash (s : State) : BitVec 384 :=
  match s.bootConfig with
  | some b => Config.sha384 (Config.bootBytes b.cacheSteps b.deepBytes b.tensorBase b.tensorCount b.queue0Ring)
  | none => 0

/-- The fields of a report: the nonce, the hash of the running image, its key slot, the rollback counter, the hash of the
boot configuration, the bits of the slots and the time (R361). -/
def reportFields (s : State) (f : Firmware) (nonce : BitVec 256) : List (List Byte) :=
  [toBytes nonce 32, toBytes (Config.sha384 (signedBytes f)) 48, natBytes 1 f.keySlot.toNat, natBytes 1 s.rollback,
    toBytes (bootHash s) 48, natBytes 1 (slotBits s), toBytes s.time 8]

/-- The 256 bytes of a report: its fields at places that the spec leaves open, and zero elsewhere (R361, log 7). -/
def reportBytes (s : State) (f : Firmware) (nonce : BitVec 256) : List Byte :=
  layOut 256 Config.reportPlace (reportFields s f nonce)

/-- A signature of a given length. -/
def padTo (n : Nat) (bytes : List Byte) : List Byte := (List.range n).map fun i => bytes.getD i 0

/-- ATTEST (R361): the report and its two signatures. -/
def execAttest (c : Cmd) (nonce : BitVec 256) (result : BitVec 64) (s : State) : Out :=
  runCommand s c false false true fun s _ => match s.running with
    | some f =>
      let r := reportBytes s f nonce
      (writeHost s result.toNat (r ++ padTo 384 (Config.identityRsaSign r) ++ padTo 16224 (Config.identitySlhSign r)),
        .done 0)
    | none => (s, .done 2)

/-! ## Reading state (R276, R315, R344, R355, R362) -/

/-- A pair control word (R344). -/
def pairWord (p : Pair) : Word :=
  BitVec.ofNat 32 (p.state + p.ceiling * 2 ^ 2 + p.ceilingEff * 2 ^ 5 + p.stateEff * 2 ^ 8) |||
    ((BitVec.ofInt 4 p.shift).setWidth 32 <<< 10)

/-- A partition control word (R288). -/
def partitionWord (s : State) (n : Nat) (d : Die) : Wide :=
  BitVec.ofNat 64 (d.minGraphics + d.minCompute * 2 ^ 7 + (if d.sheet then 2 ^ 14 else 0) + d.target * 2 ^ 16 +
    computeCores s n * 2 ^ 23)

/-- A control word, lowest byte first; none when the target is out of range. -/
def controlBytes (s : State) : ControlWord → Option (List Byte)
  | .pairControl n => (s.pairs[n]?).map fun p => toBytes (pairWord p) 4
  | .dieVoltage n => (s.dies[n]?).map fun d => toBytes (BitVec.ofNat 32 d.mv) 4
  | .partitionControl n => (s.dies[n]?).map fun d => toBytes (partitionWord s n d) 8
  | .policy n => if n = 4 then some (toBytes s.policyGlobal 2) else (s.policy[n]?).map fun x => toBytes x 2
  | .counterConfig core n => (s.cores[core]?).bind fun c => (c.cntCfg[n]?).map fun x => toBytes x 4
  | .tensorTableSize => some (toBytes (BitVec.ofNat 32 s.tensorCount) 4)

/-- A read-state command: the bytes go to the result address in host memory. -/
def readState (s : State) (c : Cmd) (result : Wide) (valid : Bool) (f : State → Option (List Byte)) : Out :=
  runCommand s c true false valid fun s _ => match f s with
    | some bytes => (writeHost s result.toNat bytes, .done 0)
    | none => (s, .done 2)

/-- READ_STATE_CONTROL_WORD (R355). -/
def execReadStateControlWord (c : Cmd) (target : ControlWord) (result : BitVec 64) (s : State) : Out :=
  readState s c result (controlBytes s target).isSome fun s => controlBytes s target

def bit (b : Bool) : Nat := if b then 1 else 0

/-- A scoreboard entry (R276). -/
def entryWord (e : Entry) : Wide :=
  BitVec.ofNat 64 (bit e.retired + 2 * bit e.poisoned + 4 * bit e.placed + 8 * bit e.inOverflow + 16 * bit e.empty +
    (if e.placed && !e.inOverflow then e.slot * 2 ^ 6 else 0) + (if e.inOverflow then e.place * 2 ^ 12 else 0) +
    e.readers * 2 ^ 32)

/-- READ_STATE_SCOREBOARD (R276): the entry of a context, producer stage, resource and tile. -/
def execReadStateScoreboard (c : Cmd) (ctx stage res tile : Nat) (result : BitVec 64) (s : State) : Out :=
  readState s c result (ctx < 4 && stage < 256 && res < 512) fun s => (findGraph s ctx).bind fun gr =>
    if ((gr.passes[stage]?).map fun p => p.writes.contains res).getD false then
      (gr.entry res tile).map fun e => toBytes (entryWord e) 8
    else none

/-- The matrix health word (R315). -/
def healthWord (c : Core) : Wide :=
  BitVec.ofNat 64 ((c.macs.mapIdx fun i m => (condCode m.cond + m.fenced * 4) * 2 ^ (8 * i)).sum +
    c.testsFailed.toNat * 2 ^ 32 + c.reexecutions.toNat * 2 ^ 48)

/-- READ_STATE_MATRIX_HEALTH (R315). -/
def execReadStateMatrixHealth (c : Cmd) (core : Nat) (result : BitVec 64) (s : State) : Out :=
  readState s c result (core < 128) fun s => some (toBytes (healthWord (getCore s core)) 8)

/-- READ_STATE_COUNTER (R362). -/
def execReadStateCounter (c : Cmd) (core index : Nat) (result : BitVec 64) (s : State) : Out :=
  readState s c result (core < 128 && index < 16) fun s =>
    some (toBytes ((getCore s core).counters.getD index 0) 8)

/-- READ_STATE_GLOBAL_TIME (R355). -/
def execReadStateGlobalTime (c : Cmd) (result : BitVec 64) (s : State) : Out :=
  readState s c result true fun s => some (toBytes s.time 8)

/-! ## Writing state (R316, R362) -/

/-- WRITE_COUNTER_CONFIG (R362). -/
def execWriteCounterConfig (c : Cmd) (core index : Nat) (value : BitVec 32) (s : State) : Out :=
  runCommand s c true false (core < 128 && index < 16) fun s _ => (setCntCfg s core index value, .done 0)

/-- WRITE_TENSOR_TABLE_SIZE (R316, R355). -/
def execWriteTensorTableSize (c : Cmd) (size : Nat) (s : State) : Out :=
  runCommand s c true false (size ≤ 2 ^ 20) fun s _ => ({ s with tensorCount := size }, .done 0)

/-! ## Reading a ring (R353, R355) -/

/-- The number that `n` operand bytes from byte `i` of an entry form; operand bytes are counted from bit 64 (R355). -/
def operandNat (entry : List Byte) (i n : Nat) : Nat := ofBytes ((entry.drop (8 + i)).take n)

/-- Write control, by the number of its target (R355, log 9). -/
def ringWrite (c : Cmd) (o : Nat → Nat) : State → Out :=
  match o 0 with
  | 0 => execWritePairControl c (o 1) (BitVec.ofNat 32 (o 3))
  | 1 => execWriteDieVoltage c (o 1) (BitVec.ofNat 32 (o 3))
  | 2 => execWritePartitionControl c (o 1) (BitVec.ofNat 64 (o 3))
  | 3 => execWritePolicyTable c (o 1) (BitVec.ofNat 16 (o 3))
  | 4 => execWriteCounterConfig c (o 1) (o 2) (BitVec.ofNat 32 (o 3))
  | 5 => execWriteTensorTableSize c (o 3)
  | _ => fun s => runCommand s c true false false fun s _ => (s, .done 4)

/-- Read state, by the number of its target (R355, log 9). -/
def ringRead (c : Cmd) (o : Nat → Nat) : State → Out :=
  let at_ := BitVec.ofNat 64 (o 5)
  match o 0 with
  | 0 => execReadStateControlWord c (.pairControl (o 1)) at_
  | 1 => execReadStateControlWord c (.dieVoltage (o 1)) at_
  | 2 => execReadStateControlWord c (.partitionControl (o 1)) at_
  | 3 => execReadStateControlWord c (.policy (o 1)) at_
  | 4 => execReadStateControlWord c (.counterConfig (o 1) (o 2)) at_
  | 5 => execReadStateControlWord c .tensorTableSize at_
  | 6 => execReadStateScoreboard c (o 1) (o 2) (o 3) (o 4) at_
  | 7 => execReadStateMatrixHealth c (o 1) at_
  | 8 => execReadStateCounter c (o 1) (o 2) at_
  | 9 => execReadStateGlobalTime c at_
  | _ => fun s => runCommand s c true false false fun s _ => (s, .done 4)

/-- Answer notice: 0 retry, 1 deliver, 2 end pass (R334, R355). -/
def ringAnswer (c : Cmd) (o : Nat → Nat) : State → Out :=
  match o 1 with
  | 0 => execAnswerRetry c (o 0)
  | 1 => execAnswerDeliver c (o 0)
  | 2 => execAnswerEndPass c (o 0)
  | _ => fun s => runCommand s c true false false fun s _ => (s, .done 4)

/-- The next entry of a queue's ring is read from host memory: `op`, `irq`, `after`, the reserved bits, and the operands: at
the bytes where R355 places them, and else at places that the spec leaves open (log 9); an `op` of 0x00 or 0x16-0xFF is
malformed. -/
def ringStep (s : State) (q : Nat) : Out :=
  match getQueue s q with
  | none => .next s
  | some x =>
    let e := hostBytes s (x.ring.toNat + 64 * (x.started % x.size)) 64
    let w := ofBytes (e.take 4)
    let c : Cmd := ⟨q, w.testBit 8, w.testBit 9, BitVec.ofNat 22 (w / 2 ^ 10)⟩
    let o := fun (field : Nat) => Config.operandOf (w % 256) field e
    if !mayStart s c x then .next s
    else match w % 256 with
      | 0x01 => execSubmitGraph c (BitVec.ofNat 64 (operandNat e 0 8)) s
      | 0x02 => execEndPass c (o 0) (o 1) s
      | 0x03 => execEndGraph c (o 0) s
      | 0x04 => execPreemptPass c (o 0) (o 1) s
      | 0x05 => execResumePass c (o 0) (o 1) s
      | 0x06 => execMigrateGroup c (o 0) (o 1) (o 2) (o 3) (o 4) (o 5) s
      | 0x07 => ringAnswer c o s
      | 0x08 => execResumeThread c (o 0) (o 1)
          (if o 2 = 0 then none else some (BitVec.ofNat 32 (o 3), BitVec.ofNat 32 (o 4))) s
      | 0x09 => execTranslationInvalidate c (o 0) (BitVec.ofNat 48 (o 1)) (o 2) s
      | 0x0A => execMapSync c s
      | 0x0B => execTierMoveCommand c (BitVec.ofNat 32 (operandNat e 0 4)) (BitVec.ofNat 32 (operandNat e 4 1))
          (BitVec.ofNat 64 (operandNat e 8 8)) s
      | 0x0C => execAddFrames c (o 0) (BitVec.ofNat 64 (o 1)) (o 2) s
      | 0x0D => ringWrite c o s
      | 0x0E => ringRead c o s
      | 0x0F => execResetCore c (o 0) s
      | 0x10 => execRegisterQueue c (BitVec.ofNat 64 (o 0)) (o 1) (o 2 ≠ 0) s
      | 0x11 => execAttest c (BitVec.ofNat 256 (o 0)) (BitVec.ofNat 64 (o 1)) s
      | 0x12 => execEnrolKey c (operandNat e 0 1) (BitVec.ofNat 384 (operandNat e 8 48)) s
      | 0x13 => execRevokeKey c (operandNat e 0 1) s
      | 0x14 => execRaiseRollback c s
      | 0x15 => execRegisterNoticeRing c (BitVec.ofNat 64 (operandNat e 0 8)) (operandNat e 8 4) s
      | _ => runCommand s c false false false fun s _ => (s, .done 4)

end Sys2Proof.Machine
end

