-- ==== Sys2Proof/Machine/Dispatch.lean ====
section
/-!
DEFINITION. What each instruction and each step does: one arm for every constructor of `Instr`.
-/

namespace Sys2Proof.Machine

def exec (i : Instr) (s : State) : Host.Outcome State Fault Refusal :=
  match i with
  | .nop w => Sys2Proof.Machine.execNop w s
  | .iadd w => Sys2Proof.Machine.execIadd w s
  | .iaddImm w => Sys2Proof.Machine.execIaddImm w s
  | .isub w => Sys2Proof.Machine.execIsub w s
  | .isubImm w => Sys2Proof.Machine.execIsubImm w s
  | .imul w => Sys2Proof.Machine.execImul w s
  | .imulImm w => Sys2Proof.Machine.execImulImm w s
  | .imulhi w => Sys2Proof.Machine.execImulhi w s
  | .imulhiImm w => Sys2Proof.Machine.execImulhiImm w s
  | .imad w => Sys2Proof.Machine.execImad w s
  | .iaddc w => Sys2Proof.Machine.execIaddc w s
  | .isubc w => Sys2Proof.Machine.execIsubc w s
  | .imin w => Sys2Proof.Machine.execImin w s
  | .iminImm w => Sys2Proof.Machine.execIminImm w s
  | .imax w => Sys2Proof.Machine.execImax w s
  | .imaxImm w => Sys2Proof.Machine.execImaxImm w s
  | .iabs w => Sys2Proof.Machine.execIabs w s
  | .ineg w => Sys2Proof.Machine.execIneg w s
  | .and w => Sys2Proof.Machine.execAnd w s
  | .andImm w => Sys2Proof.Machine.execAndImm w s
  | .or w => Sys2Proof.Machine.execOr w s
  | .orImm w => Sys2Proof.Machine.execOrImm w s
  | .xor w => Sys2Proof.Machine.execXor w s
  | .xorImm w => Sys2Proof.Machine.execXorImm w s
  | .andn w => Sys2Proof.Machine.execAndn w s
  | .andnImm w => Sys2Proof.Machine.execAndnImm w s
  | .not w => Sys2Proof.Machine.execNot w s
  | .shl w => Sys2Proof.Machine.execShl w s
  | .shlImm w => Sys2Proof.Machine.execShlImm w s
  | .shr w => Sys2Proof.Machine.execShr w s
  | .shrImm w => Sys2Proof.Machine.execShrImm w s
  | .rotl w => Sys2Proof.Machine.execRotl w s
  | .rotlImm w => Sys2Proof.Machine.execRotlImm w s
  | .bfext w => Sys2Proof.Machine.execBfext w s
  | .bfextImm w => Sys2Proof.Machine.execBfextImm w s
  | .bfins w => Sys2Proof.Machine.execBfins w s
  | .popc w => Sys2Proof.Machine.execPopc w s
  | .clz w => Sys2Proof.Machine.execClz w s
  | .brev w => Sys2Proof.Machine.execBrev w s
  | .sel w => Sys2Proof.Machine.execSel w s
  | .mov w => Sys2Proof.Machine.execMov w s
  | .movImm w => Sys2Proof.Machine.execMovImm w s
  | .lea w => Sys2Proof.Machine.execLea w s
  | .icmp w => Sys2Proof.Machine.execIcmp w s
  | .icmpImm w => Sys2Proof.Machine.execIcmpImm w s
  | .fcmp w => Sys2Proof.Machine.execFcmp w s
  | .pand w => Sys2Proof.Machine.execPand w s
  | .por w => Sys2Proof.Machine.execPor w s
  | .pxor w => Sys2Proof.Machine.execPxor w s
  | .pnot w => Sys2Proof.Machine.execPnot w s
  | .pmov w => Sys2Proof.Machine.execPmov w s
  | .kset w => Sys2Proof.Machine.execKset w s
  | .ksetCopy w => Sys2Proof.Machine.execKsetCopy w s
  | .kget w => Sys2Proof.Machine.execKget w s
  | .fadd w => Sys2Proof.Machine.execFadd w s
  | .fsub w => Sys2Proof.Machine.execFsub w s
  | .fmul w => Sys2Proof.Machine.execFmul w s
  | .ffma w => Sys2Proof.Machine.execFfma w s
  | .fmin w => Sys2Proof.Machine.execFmin w s
  | .fmax w => Sys2Proof.Machine.execFmax w s
  | .fabs w => Sys2Proof.Machine.execFabs w s
  | .fneg w => Sys2Proof.Machine.execFneg w s
  | .frcp w => Sys2Proof.Machine.execFrcp w s
  | .frsq w => Sys2Proof.Machine.execFrsq w s
  | .fsqrt w => Sys2Proof.Machine.execFsqrt w s
  | .fdiv w => Sys2Proof.Machine.execFdiv w s
  | .fexp2 w => Sys2Proof.Machine.execFexp2 w s
  | .flog2 w => Sys2Proof.Machine.execFlog2 w s
  | .fsin w => Sys2Proof.Machine.execFsin w s
  | .fcos w => Sys2Proof.Machine.execFcos w s
  | .ffrac w => Sys2Proof.Machine.execFfrac w s
  | .frnd w => Sys2Proof.Machine.execFrnd w s
  | .fclamp w => Sys2Proof.Machine.execFclamp w s
  | .fscale w => Sys2Proof.Machine.execFscale w s
  | .cvtf w => Sys2Proof.Machine.execCvtf w s
  | .cvti w => Sys2Proof.Machine.execCvti w s
  | .qnt w => Sys2Proof.Machine.execQnt w s
  | .dqnt w => Sys2Proof.Machine.execDqnt w s
  | .sclx w => Sys2Proof.Machine.execSclx w s
  | .sclenc w => Sys2Proof.Machine.execSclenc w s
  | .dot8 w => Sys2Proof.Machine.execDot8 w s
  | .dot4 w => Sys2Proof.Machine.execDot4 w s
  | .hpack w => Sys2Proof.Machine.execHpack w s
  | .hunpk w => Sys2Proof.Machine.execHunpk w s
  | .ld w => Sys2Proof.Machine.execLd w s
  | .st w => Sys2Proof.Machine.execSt w s
  | .ldro w => Sys2Proof.Machine.execLdro w s
  | .smp w => Sys2Proof.Machine.execSmp w s
  | .smpl w => Sys2Proof.Machine.execSmpl w s
  | .ldbr w => Sys2Proof.Machine.execLdbr w s
  | .pref w => Sys2Proof.Machine.execPref w s
  | .resh w => Sys2Proof.Machine.execResh w s
  | .aadd w => Sys2Proof.Machine.execAadd w s
  | .amin w => Sys2Proof.Machine.execAmin w s
  | .amax w => Sys2Proof.Machine.execAmax w s
  | .aand w => Sys2Proof.Machine.execAand w s
  | .aor w => Sys2Proof.Machine.execAor w s
  | .axor w => Sys2Proof.Machine.execAxor w s
  | .axchg w => Sys2Proof.Machine.execAxchg w s
  | .acas w => Sys2Proof.Machine.execAcas w s
  | .redadd w => Sys2Proof.Machine.execRedadd w s
  | .redmin w => Sys2Proof.Machine.execRedmin w s
  | .redmax w => Sys2Proof.Machine.execRedmax w s
  | .redand w => Sys2Proof.Machine.execRedand w s
  | .redor w => Sys2Proof.Machine.execRedor w s
  | .redxor w => Sys2Proof.Machine.execRedxor w s
  | .waita w => Sys2Proof.Machine.execWaita w s
  | .waitaTo w => Sys2Proof.Machine.execWaitaTo w s
  | .fence w => Sys2Proof.Machine.execFence w s
  | .xfence w => Sys2Proof.Machine.execXfence w s
  | .cpy1 w => Sys2Proof.Machine.execCpy1 w s
  | .cpy2 w => Sys2Proof.Machine.execCpy2 w s
  | .spwf w => Sys2Proof.Machine.execSpwf w s
  | .qpush w => Sys2Proof.Machine.execQpush w s
  | .qpop w => Sys2Proof.Machine.execQpop w s
  | .tmove w => Sys2Proof.Machine.execTmove w s
  | .shfi w => Sys2Proof.Machine.execShfi w s
  | .shfx w => Sys2Proof.Machine.execShfx w s
  | .shfu w => Sys2Proof.Machine.execShfu w s
  | .shfd w => Sys2Proof.Machine.execShfd w s
  | .ballot w => Sys2Proof.Machine.execBallot w s
  | .vote w => Sys2Proof.Machine.execVote w s
  | .elect w => Sys2Proof.Machine.execElect w s
  | .lred w => Sys2Proof.Machine.execLred w s
  | .mxldb w => Sys2Proof.Machine.execMxldb w s
  | .mxop w => Sys2Proof.Machine.execMxop w s
  | .mxq w => Sys2Proof.Machine.execMxq w s
  | .mxdrop w => Sys2Proof.Machine.execMxdrop w s
  | .fwork w => Sys2Proof.Machine.execFwork w s
  | .tlacq w => Sys2Proof.Machine.execTlacq w s
  | .tldone w => Sys2Proof.Machine.execTldone w s
  | .tlrd w => Sys2Proof.Machine.execTlrd w s
  | .tlrel w => Sys2Proof.Machine.execTlrel w s
  | .occstep w => Sys2Proof.Machine.execOccstep w s
  | .hgrid w => Sys2Proof.Machine.execHgrid w s
  | .rbox w => Sys2Proof.Machine.execRbox w s
  | .rtri w => Sys2Proof.Machine.execRtri w s
  | .rhit w => Sys2Proof.Machine.execRhit w s
  | .br w => Sys2Proof.Machine.execBr w s
  | .call w => Sys2Proof.Machine.execCall w s
  | .ret w => Sys2Proof.Machine.execRet w s
  | .jmpi w => Sys2Proof.Machine.execJmpi w s
  | .calli w => Sys2Proof.Machine.execCalli w s
  | .exit w => Sys2Proof.Machine.execExit w s
  | .trap w => Sys2Proof.Machine.execTrap w s
  | .trapret w => Sys2Proof.Machine.execTrapret w s
  | .brk w => Sys2Proof.Machine.execBrk w s
  | .sysrd w => Sys2Proof.Machine.execSysrd w s
  | .syswr w => Sys2Proof.Machine.execSyswr w s
  | .memStatusClear w => Sys2Proof.Machine.execMemStatusClear w s
  | .cntCfgWrite w => Sys2Proof.Machine.execCntCfgWrite w s
  | .cntrd w => Sys2Proof.Machine.execCntrd w s
  | .clkrd w => Sys2Proof.Machine.execClkrd w s
  | .segset w => Sys2Proof.Machine.execSegset w s
  | .banksw w => Sys2Proof.Machine.execBanksw w s
  | .halt w => Sys2Proof.Machine.execHalt w s
  | .clauseEnter core => Sys2Proof.Machine.execClauseEnter core s
  | .burstSelect core => Sys2Proof.Machine.execBurstSelect core s
  | .loadReturn t => Sys2Proof.Machine.execLoadReturn t s
  | .segmentCommit t => Sys2Proof.Machine.execSegmentCommit t s
  | .droopHoldRelease cluster => Sys2Proof.Machine.execDroopHoldRelease cluster s
  | .storeDrain t => Sys2Proof.Machine.execStoreDrain t s
  | .atomicPerform t => Sys2Proof.Machine.execAtomicPerform t s
  | .reductionPerform id => Sys2Proof.Machine.execReductionPerform id s
  | .waitaReeval t => Sys2Proof.Machine.execWaitaReeval t s
  | .waitaTimeout t => Sys2Proof.Machine.execWaitaTimeout t s
  | .waitaPoll t => Sys2Proof.Machine.execWaitaPoll t s
  | .wakeAdmit die => Sys2Proof.Machine.execWakeAdmit die s
  | .fenceComplete t => Sys2Proof.Machine.execFenceComplete t s
  | .xfenceComplete t => Sys2Proof.Machine.execXfenceComplete t s
  | .queueServe core bank => Sys2Proof.Machine.execQueueServe core bank s
  | .copyPiece id => Sys2Proof.Machine.execCopyPiece id s
  | .copyFixupResolve id => Sys2Proof.Machine.execCopyFixupResolve id s
  | .copyComplete id => Sys2Proof.Machine.execCopyComplete id s
  | .bankSwitch id => Sys2Proof.Machine.execBankSwitch id s
  | .mxOpStart core => Sys2Proof.Machine.execMxOpStart core s
  | .mxOpComplete core => Sys2Proof.Machine.execMxOpComplete core s
  | .mxIdleSelfTest core mac => Sys2Proof.Machine.execMxIdleSelfTest core mac s
  | .tierMoveStart tensor => Sys2Proof.Machine.execTierMoveStart tensor s
  | .tierMoveSwitch tensor => Sys2Proof.Machine.execTierMoveSwitch tensor s
  | .tileOpProcess ctx res => Sys2Proof.Machine.execTileOpProcess ctx res s
  | .tileRetire ctx res tile => Sys2Proof.Machine.execTileRetire ctx res tile s
  | .ringStallThreshold ctx res => Sys2Proof.Machine.execRingStallThreshold ctx res s
  | .ringStallNotice ctx res => Sys2Proof.Machine.execRingStallNotice ctx res s
  | .groupRetire g => Sys2Proof.Machine.execGroupRetire g s
  | .graphAccept q => Sys2Proof.Machine.execGraphAccept q s
  | .graphEnd ctx => Sys2Proof.Machine.execGraphEnd ctx s
  | .groupPlace die => Sys2Proof.Machine.execGroupPlace die s
  | .placementBlock part => Sys2Proof.Machine.execPlacementBlock part s
  | .fworkAnswer id => Sys2Proof.Machine.execFworkAnswer id s
  | .sheetEval die => Sys2Proof.Machine.execSheetEval die s
  | .partitionFlip core => Sys2Proof.Machine.execPartitionFlip core s
  | .partitionStarvation ctx stage => Sys2Proof.Machine.execPartitionStarvation ctx stage s
  | .vaultTempSample vault => Sys2Proof.Machine.execVaultTempSample vault s
  | .vaultMigrate vault => Sys2Proof.Machine.execVaultMigrate vault s
  | .hotPageMove vault => Sys2Proof.Machine.execHotPageMove vault s
  | .groupEvict ctx stage => Sys2Proof.Machine.execGroupEvict ctx stage s
  | .groupSave g => Sys2Proof.Machine.execGroupSave g s
  | .migrationTransfer g => Sys2Proof.Machine.execMigrationTransfer g s
  | .passEnd ctx stage => Sys2Proof.Machine.execPassEnd ctx stage s
  | .passEndRelease ctx stage => Sys2Proof.Machine.execPassEndRelease ctx stage s
  | .eccUncorrectable core site => Sys2Proof.Machine.execEccUncorrectable core site s
  | .eccCorrected core => Sys2Proof.Machine.execEccCorrected core s
  | .droopDetect cluster => Sys2Proof.Machine.execDroopDetect cluster s
  | .droopWindowEnd cluster => Sys2Proof.Machine.execDroopWindowEnd cluster s
  | .dieExport die index => Sys2Proof.Machine.execDieExport die index s
  | .dieApply die src => Sys2Proof.Machine.execDieApply die src s
  | .clusterGate cluster => Sys2Proof.Machine.execClusterGate cluster s
  | .pairWakeDone pair => Sys2Proof.Machine.execPairWakeDone pair s
  | .ceilingApply pair => Sys2Proof.Machine.execCeilingApply pair s
  | .noticeWrite => Sys2Proof.Machine.execNoticeWrite s
  | .hostReadRequest m => Sys2Proof.Machine.execHostReadRequest m s
  | .hostWrite m q data => Sys2Proof.Machine.execHostWrite m q data s
  | .doorbell q tail => Sys2Proof.Machine.execDoorbell q tail s
  | .readCompletion m data => Sys2Proof.Machine.execReadCompletion m data s
  | .writeCompletion m => Sys2Proof.Machine.execWriteCompletion m s
  | .reservedTypeMessage m => Sys2Proof.Machine.execReservedTypeMessage m s
  | .deviceReset image boot => Sys2Proof.Machine.execDeviceReset image boot s
  | .firmwareReload image boot => Sys2Proof.Machine.execFirmwareReload image boot s
  | .submitGraph c addr => Sys2Proof.Machine.execSubmitGraph c addr s
  | .endPass c ctx stage => Sys2Proof.Machine.execEndPass c ctx stage s
  | .endGraph c ctx => Sys2Proof.Machine.execEndGraph c ctx s
  | .preemptPass c ctx stage => Sys2Proof.Machine.execPreemptPass c ctx stage s
  | .resumePass c ctx stage => Sys2Proof.Machine.execResumePass c ctx stage s
  | .migrateGroup c ctx stage x y z target => Sys2Proof.Machine.execMigrateGroup c ctx stage x y z target s
  | .answerRetry c notice => Sys2Proof.Machine.execAnswerRetry c notice s
  | .answerDeliver c notice => Sys2Proof.Machine.execAnswerDeliver c notice s
  | .answerEndPass c notice => Sys2Proof.Machine.execAnswerEndPass c notice s
  | .resumeThread c core place target => Sys2Proof.Machine.execResumeThread c core place target s
  | .translationInvalidate c space va len => Sys2Proof.Machine.execTranslationInvalidate c space va len s
  | .mapSync c => Sys2Proof.Machine.execMapSync c s
  | .tierMoveCommand c handle tier result => Sys2Proof.Machine.execTierMoveCommand c handle tier result s
  | .addFrames c tier list count => Sys2Proof.Machine.execAddFrames c tier list count s
  | .unassignedOpcode word => Sys2Proof.Machine.execUnassignedOpcode word s
  | .vaultCreditRefill vault => Sys2Proof.Machine.execVaultCreditRefill vault s
  | .clusterClockedAgain cluster => Sys2Proof.Machine.execClusterClockedAgain cluster s
  | .droopSupplyRecovered cluster => Sys2Proof.Machine.execDroopSupplyRecovered cluster s
  | .pageMoveSwitch id => Sys2Proof.Machine.execPageMoveSwitch id s
  | .writePairControl c pair value => Sys2Proof.Machine.execWritePairControl c pair value s
  | .writeDieVoltage c die value => Sys2Proof.Machine.execWriteDieVoltage c die value s
  | .writePartitionControl c die value => Sys2Proof.Machine.execWritePartitionControl c die value s
  | .writePolicyTable c index value => Sys2Proof.Machine.execWritePolicyTable c index value s
  | .writeCounterConfig c core index value => Sys2Proof.Machine.execWriteCounterConfig c core index value s
  | .writeTensorTableSize c size => Sys2Proof.Machine.execWriteTensorTableSize c size s
  | .readStateControlWord c target result => Sys2Proof.Machine.execReadStateControlWord c target result s
  | .readStateScoreboard c ctx stage res tile result => Sys2Proof.Machine.execReadStateScoreboard c ctx stage res tile result s
  | .readStateMatrixHealth c core result => Sys2Proof.Machine.execReadStateMatrixHealth c core result s
  | .readStateCounter c core index result => Sys2Proof.Machine.execReadStateCounter c core index result s
  | .readStateGlobalTime c result => Sys2Proof.Machine.execReadStateGlobalTime c result s
  | .resetCore c core => Sys2Proof.Machine.execResetCore c core s
  | .registerQueue c ring size priv => Sys2Proof.Machine.execRegisterQueue c ring size priv s
  | .attest c nonce result => Sys2Proof.Machine.execAttest c nonce result s
  | .enrolKey c slot value => Sys2Proof.Machine.execEnrolKey c slot value s
  | .revokeKey c slot => Sys2Proof.Machine.execRevokeKey c slot s
  | .raiseRollback c => Sys2Proof.Machine.execRaiseRollback c s
  | .registerNoticeRing c ring count => Sys2Proof.Machine.execRegisterNoticeRing c ring count s

end Sys2Proof.Machine
end

