-- ==== Sys2Proof/Machine/Schedule.lean ====
section
/-!
DEFINITION. What happens next: the passing of time (R344, R345, R348, R362), the world's own steps, the round of
steps that the agents take in each nanosecond, the fetch of an instruction word (R12, R58), and the placing of a word
where the next step fetches it.  Log 3.
-/

namespace Sys2Proof.Machine

/-! ## Time (R344, R345, R348, R363) -/

/-- Tenths of a core cycle in a nanosecond, by ceiling code (R344). -/
def clockTenths (code : Nat) : Nat :=
  match code with
  | 0 => 21
  | 1 => 19
  | 2 => 17
  | 3 => 15
  | 4 => 13
  | 5 => 11
  | 6 => 9
  | _ => 6

/-- The rate of a cluster's clock: none while it is gated or off; in a droop window any rate from half the nominal one
to the nominal one, by a free value (R348). -/
def clusterRate (s : State) (n : Nat) : Nat :=
  if !coreClocked s (4 * n) then 0
  else
    let r := clockTenths (s.pairs.getD (n / 2) Pair.reset).ceilingEff
    if (s.clusters.getD n Cluster.reset).droop then
      r - (Config.freeValue (s.freeCount + n)).toNat % (r / 2 + 1)
    else r

/-- Whether a gather closure of the core still waits for members (R142, event 17). -/
def closureArriving (s : State) (k : Nat) : Bool :=
  (getCore s k).table.any fun e => e.members.any fun m => match findThread s m.1 with
    | some (g, th) =>
      g.core = some k && selectable g th && atGather s k g th &&
        !assembled (getCore s k) g th (closureOf g (clauseLaneSets s k g th.hdr.toNat) th)
    | none => false

/-- One nanosecond of a core at a rate. -/
def tickCore (rate : Nat) (s : State) (k : Nat) : State :=
  let n := ((getCore s k).phase + rate) / 10
  let arriving := closureArriving s k
  let s := updCore s k fun c =>
    { c with cycles := c.cycles + BitVec.ofNat 64 n, phase := (c.phase + rate) % 10 }
  let s := bump (bump s k 1 none n) k 2 none 1
  if arriving then bump s k 17 none n else s

/-- One nanosecond of a cluster: its cores' cycles, and its recovery cycles (R348). -/
def tickCluster (s : State) (n : Nat) : State :=
  let rate := clusterRate s n
  let cycles := ((getCore s (4 * n)).phase + rate) / 10
  let s := (clusterCores n).foldl (tickCore rate) s
  updCluster s n fun c => { c with recover := c.recover.map fun r => r - cycles }

/-! ## A round of the agents -/

/-- The steps a thread may be due for, by its state; those of a `waita` come later in the round. -/
def threadEvents (g : Group) (th : Thread) : List Instr :=
  let t := refOf g th
  (if th.buffer.isEmpty then [] else [.storeDrain t]) ++
  (if th.seg.loads.isEmpty then [] else [.loadReturn t]) ++
  match th.status, th.waiting with
  | .committing, _ => [.segmentCommit t]
  | .parkedEffect, some (.atomic ..) => [.atomicPerform t]
  | .parkedEffect, some (.fence ..) => [.fenceComplete t]
  | .parkedEffect, some (.xfence ..) => [.xfenceComplete t]
  | _, _ => []

/-- The threads of a group that are parked in `waita`. -/
def waiters (g : Group) : List ThreadRef :=
  (g.threads.filter fun th => th.status = .parkedEffect && match th.waiting with
    | some (.wait ..) => true
    | _ => false).map (refOf g)

/-- The evaluations that are due (R124, R125): after everything in the nanosecond that may write what the threads wait for, and
once more, since an evaluation first performs the stores of its own thread. So all the waits that one write ends have ended
before the slew limiter admits any of their clusters (R351). -/
def waitEvents (gs : List Group) : List Instr :=
  let ts := gs.flatMap waiters
  ts.flatMap (fun t => [.waitaTimeout t, .waitaReeval t, .waitaPoll t]) ++ ts.map .waitaReeval

def groupEvents (g : Group) : List Instr :=
  g.threads.flatMap (threadEvents g) ++ match g.phase with
    | .resident | .handedEnding _ => [.groupRetire g.serial]
    | .saving _ => [.groupSave g.serial]
    | .migrating _ => [.migrationTransfer g.serial]
    | _ => []

def entryEvents (ctx : Nat) (e : Entry) : List Instr := if e.phase = .retiring then [.tileRetire ctx e.res e.tile] else []

/-- Overflow places are given after everything that frees a slot in the nanosecond, so that a slot freed in the cycle of a
threshold wins (R283). -/
def graphEvents (g : Graph) : List Instr :=
  (List.range g.resources.length).flatMap (fun r =>
    (g.requests.filter fun q => q.res = r).map fun _ => .tileOpProcess g.ctx r) ++
  g.entries.flatMap (entryEvents g.ctx) ++
  (List.range g.passes.length).flatMap (fun i =>
    [.passEnd g.ctx i, .passEndRelease g.ctx i, .groupEvict g.ctx i, .partitionStarvation g.ctx i]) ++
  (List.range g.resources.length).flatMap (fun r => [.ringStallThreshold g.ctx r, .ringStallNotice g.ctx r]) ++
  [.graphEnd g.ctx]

/-- Whether the ceiling in force of a core's pair has changed and the change has not taken effect (R346). -/
def ceilingPending (s : State) (k : Nat) : Bool :=
  match s.pairs[pairOf k]? with
  | some p => p.ceilingEff ≠ ceilingOf s (pairOf k) p
  | none => false

/-- The steps of a core.  No burst begins on a pair whose ceiling is about to change, so that the change, which never takes
effect during a burst, does within its 2 µs (R346; log 30). -/
def coreEvents (s : State) (k : Nat) (c : Core) : List Instr :=
  (if ceilingPending s k then [] else [.burstSelect k]) ++ [.mxOpStart k, .mxOpComplete k, .partitionFlip k] ++
  (List.range 4).map (.mxIdleSelfTest k) ++
  ((List.range c.banks.length).filter fun b => !(c.banks.getD b Bank.reset).parked.isEmpty).map (.queueServe k)

/-- The physical core of a work fetch. -/
def fworkCore (s : State) (r : FworkRequest) : Nat := ((findGroup s r.group).bind Group.core).getD 128

def insertFwork (s : State) (r : FworkRequest) : List FworkRequest → List FworkRequest
  | [] => [r]
  | x :: rest => if fworkCore s r ≤ fworkCore s x then r :: x :: rest else x :: insertFwork s r rest

/-- What a nanosecond's placements depend on, in the order of the rules: samples before any placement or migration (R294),
a drain from the cycle in which it begins (R289), handovers in ascending physical core before placements (R292, R299), and
both before what a retirement frees (R292). -/
def placementEvents (s : State) : List Instr :=
  (List.range s.vaults.length).map .vaultTempSample ++
  (List.range s.dies.length).map .sheetEval ++
  (List.range s.vaults.length).map .vaultMigrate ++
  ((s.fworks.foldr (insertFwork s) []).map fun r => .fworkAnswer r.id) ++
  (List.range s.dies.length).map .groupPlace

/-- The steps of the engines outside the cores. -/
def engineEvents (s : State) : List Instr :=
  s.copies.flatMap (fun c => [.copyPiece c.id, .copyFixupResolve c.id, .copyComplete c.id]) ++
  s.reductions.map (fun r => .reductionPerform r.id) ++
  s.bankRequests.map (fun r => .bankSwitch r.id) ++
  s.pageMoves.map (fun m => .pageMoveSwitch m.id) ++
  (s.moves.map TierMove.handle).dedup.flatMap fun h => [.tierMoveStart h, .tierMoveSwitch h]

/-- A die exports first the writes that have waited for 65,536 ns, and otherwise in the order it performed them
(R242). -/
def dieEvents (n : Nat) (d : Die) : List Instr :=
  [.wakeAdmit n] ++ (if d.pending.isEmpty then [] else [.dieExport n 0]) ++
    [.dieApply n .host, .dieApply n .die0, .dieApply n .die1]

def otherEvents (s : State) : List Instr :=
  (List.range s.vaults.length).flatMap (fun v =>
    [.vaultCreditRefill v, .hotPageMove v]) ++
  (List.range s.clusters.length).flatMap (fun n =>
    [.droopWindowEnd n, .droopHoldRelease n, .clusterGate n, .clusterClockedAgain n]) ++
  (List.range s.pairs.length).flatMap (fun n => [.pairWakeDone n, .ceilingApply n]) ++
  (List.range s.queues.length).map .graphAccept ++ [.placementBlock 0, .placementBlock 1, .noticeWrite]

/-- Everything that may be due in this nanosecond, once each; a step that is not due does nothing.  The commands of the host
follow the samples and the placements of the nanosecond: a sample takes effect before a migration (R294), and a placement wins
over the command that turns its pair off (R350). -/
def roundOf (s : State) : List Action :=
  ((s.cores.mapIdx fun k c => if c.burst.isSome && coreClocked s k then [Action.fetch k] else []).flatten) ++
  (placementEvents s).map Action.event ++
  ((List.range s.queues.length).filter fun q => (getQueue s q).isSome).map Action.ring ++
  ((s.groups.flatMap groupEvents ++ engineEvents s ++ s.graphs.flatMap graphEvents ++ waitEvents s.groups ++
    (s.dies.mapIdx dieEvents).flatten ++ (s.cores.mapIdx (coreEvents s)).flatten ++ otherEvents s).map Action.event)

/-- Accesses are kept for the 4,096 ns that R297 looks back. -/
def forgetAccesses (s : State) : State :=
  { s with accesses := s.accesses.filter fun a => decide (s.time.toNat ≤ a.1 + 4096) }

/-- A nanosecond passes: the clocks advance, writes that have waited long enough are exported (R242), poison that has come
to a tensor is recorded (R316), commands whose effect is done complete, and a new round is due. -/
def elapse (s : State) : State :=
  let s := { s with time := s.time + 1 }
  let s := (List.range s.clusters.length).foldl tickCluster s
  let s := { s with freeCount := s.freeCount + s.clusters.length }
  let s := forgetAccesses (markTensors (exportOverdue (exportOverdue s 0) 1))
  let s := settleCommands (markIdle (retryHost s))
  { s with agenda := s.agenda ++ roundOf s }

/-! ## The world (R217, R247, R287, R313, R319-R323, R352) -/

/-- A line of a group's scratchpad as it has been performed: its bytes are as new as anything yet written. -/
def scratchLine (s : State) (g : Group) (key : Nat) : CacheLine :=
  ⟨lineOf key, (padRead g (lineOf key % 2 ^ 50) 128).map (fun b => (b, s.stamp)), padFlaws g (key % 2 ^ 50)⟩

/-- The line of a key: of the scratchpad of a group that stands on the core, or of storage. -/
def lineAt (s : State) (k key : Nat) : Option CacheLine :=
  if key < 2 ^ 50 then some (homeLine s (dieOf k) key)
  else match findGroup s (key / 2 ^ 50 - 1) with
    | some g => if g.core = some k then some (scratchLine s g key) else none
    | none => none

/-- A line enters a cache of a core (R217, R247).  No access looks it up, so none misses (event 12 of R363). -/
def fillLine (s : State) (k : Nat) (p : Path) (key : Nat) : State :=
  match p, lineAt s k key with
  | .v, _ => fillL1 s k key false false
  | .s, _ => fillS s k key
  | .a, some l => updCore s k fun c => { c with aCache := addLine c.aCache l }
  | .m, some l => updCore s k fun c => { c with mCache := addLine c.mCache l }
  | _, _ => s

/-- A line leaves a cache of a core. -/
def uncacheLine (s : State) (k : Nat) (p : Path) (key : Nat) : State :=
  let rest := fun cache => dropLines [key] cache
  match p with
  | .v => evictLine s k (lineOf key)
  | .s => updCore s k fun c => { c with sCache := rest c.sCache }
  | .a => updCore s k fun c => { c with aCache := rest c.aCache }
  | .m => updCore s k fun c => { c with mCache := rest c.mCache }
  | .g | .h => s

/-- A home slice writes a sector back (R242, R323); what a stack cache holds of it is clean from then on. -/
def sectorWriteBack (s : State) (d sector : Nat) : State :=
  let s := dramWrite (homeWriteBack s d sector) d sector
  updDie s d fun x => { x with sectors := x.sectors.map fun y => if y.addr = sector then { y with dirty := false } else y }

/-- The device writes deep-tier bytes back to the host, with the clock of the die that writes them (R242; die 0, log 12): a
poisoned sector or a mismatch is marked at the egress, and a mismatch also sends an integrity notice (R323, R352). -/
def writeLink (s : State) (m : LinkHead) : State :=
  let a := m.addr.toNat
  let n := 16 * m.chunks.toNat
  let wrong := (mismatchAt s 0 (tierBase 2 + a) n).isSome
  let head := { m with
    type := 2, poison := wrong || (poisonAt s 0 (tierBase 2 + a) n).isSome, clock := (getDie s 0).clock }
  let s := writeHost { s with linkWrites := s.linkWrites ++ [head] } a (sysBytes s (tierBase 2 + a) n)
  if wrong then (notify s (.integrity a) none).1 else s

/-- Whether a word of a segment is one that a later version may replace by itself: constant data, which lie in segment 0 with
the code (R48), or a word of a descriptor that a level-of-detail record of the group names (R223). -/
def versionedWord (g : Group) (seg off : Nat) : Bool :=
  seg = 0 || g.b.any fun b =>
    let r := bufRec b
    r.lod && !r.ring && r.seg = seg && r.base ≤ off && off < r.base + 64 + 16 * 16

/-- A 64-bit word of a line that a core holds, for code or for path S, is read anew: after a write that the rules forbid,
each word of code, of constant data or of a descriptor is the old one or the new one (R13, R48, R223).  No other word is, since
an access is one event (R222). -/
def refreshWord (s : State) (k group seg off : Nat) (code : Bool) : State :=
  match findGroup s group with
  | none => s
  | some g => match translate s k (segBase (g.g.getD seg 0) + off / 8 * 8) .read with
    | .ok a _ => updCore s k fun c =>
      if g.core ≠ some k || !(code || versionedWord g seg (off / 8 * 8)) then c
      else if code then { c with iCache := refreshLine s (dieOf k) a c.iCache }
      else { c with sCache := refreshLine s (dieOf k) a c.sCache }
    | _ => s

/-- An input of the world, or a step of a cache or of the link that the spec leaves to the implementation. -/
def worldStep (s : State) : Action → State
  | .sense n t => updCluster s n fun c => { c with temp := t }
  | .fill k p line => fillLine s k p line
  | .evict k p line => uncacheLine s k p line
  | .fillCode k line => updCore s k fun c => { c with iCache := addLine c.iCache (homeLine s (dieOf k) line) }
  | .copyRole j k bank => updCore s j fun c => c.copyRole k bank (getBank s k bank).role
  | .evictCode k line => updCore s k fun c => { c with iCache := dropLines [line] c.iCache }
  | .writeBack k line => writeBack s k fun a => lineOf a = lineOf line
  | .poisonSector a => updFlaws s fun f => f.addPoison a
  | .homeWriteBack d line => sectorWriteBack s d (sectorOf line)
  | .evictSector d a => evictSector s d (sectorOf a)
  | .settleLate order => settleLate s fun l => l.order ≤ order
  | .refreshWord k g seg off code => refreshWord s k g seg off code
  | .corruptBlock a e => updFlaws s fun f => { f with syndromes := addSyndrome f.syndromes (blockOf a) e }
  | .corruptLine k a e => updCore s k fun c => if holdsLine c (lineOf a) then
      { c with l1Flaws := { c.l1Flaws with syndromes := addSyndrome c.l1Flaws.syndromes (blockOf a) e } } else c
  | .corruptPad g o e => updGroup s g fun g => { g with padSyndromes := addSyndrome g.padSyndromes (blockOf o) e }
  | .mendBlock d a => updDie s d fun x => { x with flaws := x.flaws.mend (· = blockOf a) }
  | .mendPad g o => updGroup s g fun g => { g with padSyndromes := dropSyndromes g.padSyndromes (· = blockOf o) }
  | .breakSubarray k m sub col e => updCore s k fun c =>
      { c with macs := c.macs.modify m fun x => { x with errors := x.errors ++ [(sub, col, e)] } }
  | .linkRead m => { s with linkReads := s.linkReads ++ [{ m with poison := false }] }
  | .linkWrite m => writeLink s m
  | .hostMemory cells => { s with hostMem := Memory.writeAll s.hostMem cells }
  | .fetch _ | .event _ | .elapse | .ring _ | .unknownCommand _ => s

/-! ## Fetching a word (R12, R25, R58) -/

/-- The instruction at the burst's place: its word, and the literal word it calls for. -/
def fetchInstr (s : State) (k : Nat) (b : Burst) : Instr :=
  let w := burstWord s k b b.pc.toNat
  let i := decodeWith w none
  if i.needsLiteral then decodeWith w (some (burstWord s k b (b.pc.toNat + 8))) else i

/-- A core's burst takes its next step: it enters its clause, or it executes the instruction at its place. -/
def fetchStep (s : State) (k : Nat) : Out :=
  match s.cores[k]? with
  | none => .fault .noSuchAgent
  | some c =>
    let s := { s with focus := k }
    match c.burst with
    | none => .next s
    | some b => if b.entered then exec (fetchInstr s k b) s else exec (.clauseEnter k) s

/-- One entry of the agenda. -/
def act (s : State) : Action → Out
  | .fetch k => fetchStep s k
  | .event i => exec i s
  | .elapse => .next (elapse s)
  | .ring q => ringStep s q
  | .unknownCommand c => runCommand s c false false false fun s _ => (s, .done 4)
  | a => .next (worldStep s a)

/-! ## Placing a word where the next step fetches it -/

/-- Where the placed code stands: the last 64 KiB of the board tier. -/
def placeOffset : Nat := 2 ^ 36 - 65536

/-- The pass of the placed group: one row of one lane, 32 registers, no scratchpad. -/
def placedPass : Pass :=
  let g0 : BitVec 128 := BitVec.ofNat 128 (boardVa + placeOffset + 65536 * 2 ^ 48 + 2 ^ 96)
  { passOf 0 with gridX := 1, gridY := 1, gridZ := 1, trapVector := 0xFFFF_FFFF, segs := g0 :: List.replicate 7 0 }

def placedGraph : Graph := ⟨4, 0, 0, false, 0, [placedPass], [], [], [], false, []⟩

/-- The placed group: one thread, running, in the first issue group of core 0's burst. -/
def placedGroup (serial : Nat) : Group :=
  let g := freshGroup placedPass 0 (newGroup serial 4 0 0 0 0)
  { g with
    phase := .resident, core := some 0, lcore := some 0
    threads := g.threads.map fun th => { th with status := .running, seg := { th.seg with ig := 1 } } }

def placedBurst (serial : Nat) : Burst := ⟨⟨4, 0, boardVa + placeOffset⟩, [[⟨serial, 0, 0⟩]], 0, 8, true, 0,
  boardVa + placeOffset, [], []⟩

/-- The header of the placed clause: its class is the instruction's, and it holds one word or two. -/
def placedHeader (i : Instr) : Wide :=
  BitVec.ofNat 64 (0xC * 2 ^ 60 + (i.engineClass.getD 0) * 2 ^ 57 + (if i.needsLiteral then 2 ^ 53 else 0) + 2 ^ 52 +
    (if i.engineClass = some 2 then 2 ^ 51 else 0))

/-- The bytes of the clause: header, word and literal word. -/
def placedBytes (w : Nat) : List Byte :=
  let word := BitVec.ofNat 64 w
  toBytes (placedHeader (decodeWith word none)) 8 ++ toBytes word 8 ++ toBytes (BitVec.ofNat 64 (w / 2 ^ 64)) 8

/-- The bytes at both dies' home slices. -/
def placeCode (s : State) (w : Nat) : State :=
  let cells := cellsAt (tierBase 1 + placeOffset) (placedBytes w)
  { s with dies := s.dies.map fun d => { d with mem := Memory.writeAll d.mem cells } }

/-- The state with an instruction placed in a burst of core 0, which the next step fetches. -/
def placeWord (s : State) (w : Nat) : State :=
  let n := s.serial + 1
  let s := placeCode s w
  let s := updCore s 0 fun c =>
    { c with burst := some (placedBurst n)
             ranges := ⟨boardVa + placeOffset, 65536, tierBase 1 + placeOffset, true, false⟩ :: c.ranges }
  { s with
    serial := n, groups := placedGroup n :: s.groups, graphs := placedGraph :: s.graphs
    agenda := .fetch 0 :: s.agenda }

end Sys2Proof.Machine
end

