-- ==== Sys2Proof/Machine/Step.lean ====
section
/-!
DEFINITION. One step of the machine: the next entry of the agenda, or the next nanosecond when the agenda is empty.
-/

namespace Sys2Proof.Machine

def step (s : State) : Host.Outcome State Fault Refusal :=
  match s.agenda with
  | a :: rest => act { s with agenda := rest } a
  | [] => act s .elapse

/-- The state with the instruction whose bits are `w` stored where `step` fetches its next instruction: an instruction
is one word of 64 bits, or two with a literal word. -/
def State.withFetchWord (s : State) (nbits w : Nat) : State := placeWord s (w % 2 ^ nbits)

end Sys2Proof.Machine
end

