-- ==== Sys2Proof/WellFormed.lean ====
section
/-!
DEFINITION. Well-formed instructions: the terms of `Instr` that some words of the spec's encoding, or some agent of
the device, stand for.  A word that R58 answers with a fault is well formed: it is issued and takes that fault.
-/

namespace Sys2Proof

/-! ## Instruction words -/

/-- The literal word is there exactly when an operand calls for it (R36). -/
def Instr.literalOk (i : Instr) : Bool := i.literal.isSome == i.needsLiteral

/-- The assigned opcodes of R52, as runs of a first opcode and a count. -/
def opcodeRuns : List (Nat × Nat) :=
  [(0x000, 1), (0x010, 11), (0x020, 23), (0x038, 2), (0x040, 20), (0x060, 10), (0x100, 22), (0x118, 3), (0x120, 6),
   (0x1C0, 8), (0x200, 4), (0x210, 1), (0x218, 4), (0x220, 5), (0x280, 6), (0x288, 3), (0x290, 4), (0x2C0, 3)]

def opcodeAssigned (n : Nat) : Bool := opcodeRuns.any fun r => r.1 ≤ n && n < r.1 + r.2

/-- The constructor is the one that the `imm` bit selects (R29). -/
def Instr.immOk : Instr → Bool
  | .iadd w | .isub w | .imul w | .imulhi w | .imin w | .imax w | .and w | .or w | .xor w | .andn w
  | .shl w | .shr w | .rotl w | .bfext w | .mov w => !w.m.imm
  | .iaddImm w | .isubImm w | .imulImm w | .imulhiImm w | .iminImm w | .imaxImm w | .andImm w | .orImm w | .xorImm w
  | .andnImm w | .shlImm w | .shrImm w | .rotlImm w | .bfextImm w | .movImm w => w.m.imm
  | .icmp w => !w.m.imm
  | .icmpImm w => w.m.imm
  | _ => true

/-- The constructor is the one that `.to` (R106), the kind of operand a of `kset` (R139) or the system register
number (R108, R362) selects. -/
def Instr.variantOk : Instr → Bool
  | .waita w => !w.m.timed
  | .waitaTo w => w.m.timed
  | .kset w => match w.a with
    | .k _ => false
    | _ => true
  | .ksetCopy w => match w.a with
    | .k _ => true
    | _ => false
  | .syswr w => w.d ≠ 0x001 && !(0x030 ≤ w.d.toNat && w.d.toNat < 0x040)
  | .memStatusClear w => w.d = 0x001
  | .cntCfgWrite w => 0x030 ≤ w.d.toNat && w.d.toNat < 0x040
  | _ => true

/-- An unassigned opcode names no instruction of R52. -/
def Instr.opcodeOk : Instr → Bool
  | .unassignedOpcode w => !opcodeAssigned (wordOpcode w)
  | _ => true

/-! ## Steps of the device's agents -/

/-- A thread of R182. -/
def ThreadRef.ok (t : ThreadRef) : Bool := t.row < 32 && t.lane < 128

/-- The agent that a step names is one the device has (R1, R287). -/
def Instr.agentOk : Instr → Bool
  | .clauseEnter k | .burstSelect k | .mxOpStart k | .mxOpComplete k | .partitionFlip k | .eccUncorrectable k _
  | .eccCorrected k => k < 128
  | .queueServe k b => k < 128 && b < 32
  | .mxIdleSelfTest k m => k < 128 && m < 4
  | .loadReturn t | .segmentCommit t | .storeDrain t | .atomicPerform t | .waitaReeval t | .waitaTimeout t
  | .waitaPoll t | .fenceComplete t | .xfenceComplete t => t.ok
  | .droopHoldRelease n | .droopDetect n | .droopWindowEnd n | .droopSupplyRecovered n | .clusterGate n
  | .clusterClockedAgain n => n < 32
  | .wakeAdmit d | .groupPlace d | .sheetEval d | .dieExport d _ | .dieApply d _ => d < 2
  | .vaultTempSample v | .vaultMigrate v | .hotPageMove v | .vaultCreditRefill v => v < 8
  | .pairWakeDone p | .ceilingApply p => p < 16
  | .graphAccept q | .doorbell q _ | .hostWrite _ q _ => q < 16
  | .placementBlock part => part < 2
  | _ => true

/-- A well-formed instruction. -/
def Instr.wf (i : Instr) : Bool := i.literalOk && i.immOk && i.variantOk && i.opcodeOk && i.agentOk

/-- The rows of the opcode table that are instruction words. -/
def Instr.isWord (i : Instr) : Bool := i.word.isSome

end Sys2Proof
end

