-- ==== Sys2Proof/Safety.lean ====
section
/-!
DEFINITION. The terms in which claims about the machine are stated: the invariant of the device's parts and memories,
what it is for a thread to pass the checks of R58, what a word leaves of a thread, and what an instruction leaves
unchanged.
-/

namespace Sys2Proof.Machine

/-! ## The invariant -/

/-- The device has the parts that R1 and R287 give it. -/
def State.shaped (s : State) : Bool :=
  s.cores.length = 128 && s.clusters.length = 32 && s.pairs.length = 16 && s.dies.length = 2 && s.vaults.length = 8

/-- The device is whole, and every memory of it is a strictly ascending list of bytes. -/
structure State.Inv (s : State) : Prop where
  shaped : s.shaped = true
  memory : s.memoryWf = true

/-- Whether an outcome is a next state with a property. -/
def Goes (o : Out) (p : State → Prop) : Prop := ∃ t, o = .next t ∧ p t

/-! ## A word at an issue group -/

/-- The core in focus runs burst `b`, and no thread stands twice in the issue group whose turn it is (R190). -/
abbrev AtWord (s : State) (b : Burst) : Prop :=
  s.cores[s.focus]?.bind Core.burst = some b ∧ (b.groups.getD b.turn []).Nodup

/-- The guard field of the word (R26). -/
def Site.guard (x : Site) : BitVec 4 := x.word.extractLsb' 9 4

/-- The guard is no reserved one, and its register is neither poisoned nor awaited (R58 step 2). -/
def guardRead (x : Site) : Bool :=
  x.guard ≠ 8 && (x.guard = 0 || (!regPoisoned x.g x.th (guardReg x.guard) && regReady x.g x.th (guardReg x.guard)))

/-- An enabled thread passes every check that R58 asks of all instructions: the guard enables it, the opcode, the
modifiers, the operand fields and the privilege are in order, and every source is in range, sound and there. -/
def Clear (i : Instr) (x : Site) : Bool :=
  guardRead x && guardOn x x.guard && match i.view with
    | none => false
    | some v =>
      modifierPasses i x.pass && (badField x.pass.regs v).isNone && privilegePasses i x &&
      (sourceDistances i v).all (fun n => (x.th.seg.distance n).isSome) &&
      (sourceRegs i v).all (fun r => !regPoisoned x.g x.th r) &&
      operandsReady i v x

/-- The guard disables the word for the thread, and the destination, which a distance will supply, has arrived
(R27, R37). -/
def Disabled (i : Instr) (x : Site) : Bool :=
  guardRead x && !guardOn x x.guard && match i.view with
    | none => true
    | some v => (destRegs i v).all (regReady x.g x.th)

/-- The thread's word faults at a check of R58. -/
def Faults (i : Instr) (x : Site) : Bool :=
  match verdict i x with
  | .fault _ => true
  | _ => false

/-- The thread's word needs nothing that is still to come: it executes, is disabled, or faults at a check. -/
def Proceeds (i : Instr) (x : Site) : Bool := Clear i x || Disabled i x || Faults i x

/-- A thread's uncommitted work. -/
def segOf (s : State) (t : ThreadRef) : Option Segment := (findThread s t).map fun p => p.2.seg

/-- The results that a thread's segment holds, newest first. -/
def resultsOf (s : State) (t : ThreadRef) : Option (List Result) := (segOf s t).map Segment.results

/-- The effect that a thread's segment holds until it commits (R39). -/
def effectOf (s : State) (t : ThreadRef) : Option Effect := (segOf s t).bind Segment.effect

/-- How a thread's segment ends, once a control transfer has said so (R38). -/
def endingOf (s : State) (t : ThreadRef) : Option Ending := (segOf s t).bind Segment.ending

/-- A result whose data is there and that counts for distances. -/
def done (r : List RegWrite × Wide) : Result := ⟨0, true, true, r.1, r.2⟩

/-- No thread of a gather segment faults at the word, at its checks or at `own`, those of the instruction itself: such a
fault would park the threads of its closure with it (R144). -/
def NoneParks (i : Instr) (own : Site → Prop) (xs : List Site) : Prop :=
  ∀ x ∈ xs, x.th.seg.gather = true → Faults i x = false ∧ (Clear i x → own x)

/-- The word completes for the issue group: for every thread that passes its checks, and `own`, the checks of the
instruction itself, the next state satisfies `p`. -/
def Completes (i : Instr) (own : Site → Prop) (p : State → Site → Prop) : Prop :=
  ∀ s b, AtWord s b → (∀ x ∈ turnSites s s.focus b i, Proceeds i x) → NoneParks i own (turnSites s s.focus b i) →
    Goes (exec i s) fun t => ∀ x ∈ turnSites s s.focus b i, Clear i x → own x → p t x

/-- The word completes and leaves each thread that passes its checks the result `f` gives, as the newest of its
segment. -/
def Delivers (i : Instr) (f : Site → List RegWrite × Wide) : Prop :=
  Completes i (fun _ => True) fun t x => resultsOf t x.t = some (done (f x) :: x.th.seg.results)

/-- The same for a word with a memory access, which waits while `held` says that the access of a running thread must wait
for a reduction of that thread or for a move of its page (R214, R236, R317). -/
def CompletesUnheld (i : Instr) (held : Site → Bool) (own : Site → Prop) (p : State → Site → Prop) : Prop :=
  ∀ s b, AtWord s b → (∀ x ∈ turnSites s s.focus b i, Proceeds i x) → NoneParks i own (turnSites s s.focus b i) →
    (∀ x ∈ turnSites s s.focus b i, Clear i x → held x = false) →
    Goes (exec i s) fun t => ∀ x ∈ turnSites s s.focus b i, Clear i x → own x → p t x

/-- An effect instruction whose checks pass holds its effect in the thread's segment until the segment commits (R39). -/
def Issues (i : Instr) (held : Site → Bool) (e : Site → Option Effect) : Prop :=
  CompletesUnheld i held (fun x => (e x).isSome) fun t x => effectOf t x.t = e x

/-- The effect of an element access that passes its checks, given the place and the address of its first byte. -/
def accessed (acc : Except Trouble (BufRec × List Spot)) (f : Loc → Nat → Effect) : Option Effect :=
  match acc with
  | .ok (_, p :: _) => some (f p.loc p.va)
  | _ => none

/-- A key of the line of a thread's row at a `.line` word (R113): the line of the first byte of the access of the lowest lane
of the row that executes the word and whose access passes its checks. -/
def RowLine (i : Instr) (acc : Site → Except Trouble (BufRec × List Spot)) (x : Site) (key : Bool × Nat) : Prop :=
  let goes := fun (y : Site) => y ∈ currentSites { x.before with focus := x.core } i ∧ x.t.group = y.t.group ∧
    x.t.row = y.t.row ∧ Clear i y = true
  ∃ y r p ps, goes y ∧ acc y = .ok (r, p :: ps) ∧ lineKey p = key ∧
    ∀ z r' p' ps', goes z → acc z = .ok (r', p' :: ps') → y.t.lane ≤ z.t.lane

/-- A `.line` access lies in its row's line: it is not split, and every byte of it lies there (R113, R333). -/
def InLine (i : Instr) (acc : Site → Except Trouble (BufRec × List Spot)) (width : Nat) (x : Site) (ps : List Spot) : Prop :=
  (∀ p, ps.head? = some p → p.va % width = 0) ∧ ∀ p ∈ ps, RowLine i acc x (lineKey p)

/-- `sys.mem_status` after an access: bit 0 is set by a read of a discarded page (R108, R220), bit 1 by a `.line` access
outside its line (R113), and every other bit stays. -/
def MemStatus (old new : Word) (discarded outside : Prop) : Prop :=
  (new.getLsbD 0 = true ↔ old.getLsbD 0 = true ∨ discarded) ∧ (new.getLsbD 1 = true ↔ old.getLsbD 1 = true ∨ outside) ∧
    ∀ i, 2 ≤ i → new.getLsbD i = old.getLsbD i

/-- What a successful check gives. -/
def passed {α : Type} : Except Trouble α → Option α
  | .ok a => some a
  | .error _ => none

/-! ## Cross-lane words -/

/-- The effective mask of a thread at a cross-lane word: the lane set it names, of the live lanes of its row (R140,
R142). -/
def Site.effective (i : Instr) (x : Site) : BitVec 128 :=
  match i.view with
  | some v => x.lanes (Operand.ofCode v.c.code) &&& liveLanes x.g x.t.row
  | none => 0

/-- Threads of one row of one group. -/
def Site.beside (x y : Site) : Bool := x.t.group = y.t.group && x.t.row = y.t.row

/-- No participant is in a conflict (R143): each is in its own mask, and of two in one row with different masks neither
mask holds the other. -/
def Agreed (i : Instr) (xs : List Site) : Prop :=
  ∀ x ∈ xs, Clear i x = true → (x.effective i).getLsbD x.t.lane = true ∧
    ∀ y ∈ xs, Clear i y = true → x.beside y = true → x.effective i ≠ y.effective i →
      (x.effective i).getLsbD y.t.lane = false ∧ (y.effective i).getLsbD x.t.lane = false

/-- No participant names the lane of a thread that a fault of this segment has parked (R144). -/
def Present (b : Burst) (i : Instr) (xs : List Site) : Prop :=
  ∀ x ∈ xs, Clear i x = true → ∀ q ∈ b.parked, q.1.group = x.t.group → q.1.row = x.t.row →
    (x.effective i).getLsbD q.1.lane = false

/-- The thread of the issue group in a lane of a thread's row. -/
def inLane (xs : List Site) (x : Site) (l : Nat) : Option Site := xs.find? fun y => x.beside y && y.t.lane = l

/-- The participants in a thread's effective mask, in ascending lane order (R146). -/
def participantsOf (i : Instr) (xs : List Site) (x : Site) : List Site :=
  ((List.range 128).filterMap (inLane xs x)).filter fun y => Clear i y && (x.effective i).getLsbD y.t.lane

/-- A cross-lane word whose threads wait for nothing, meet no fault and are in no conflict leaves each thread that its
guard enables the result `f` gives, as the newest of its segment; `sound` is what the word asks of a disabled thread. -/
def DeliversTogether (i : Instr) (sound : Site → Bool) (f : List Site → Site → List RegWrite × Wide) : Prop :=
  ∀ s b, AtWord s b →
    (∀ x ∈ turnSites s s.focus b i, (Clear i x || Disabled i x) = true ∧ supplyReady i x = true ∧ sound x = true) →
    Agreed i (turnSites s s.focus b i) → Present b i (turnSites s s.focus b i) →
    Goes (exec i s) fun t => ∀ x ∈ turnSites s s.focus b i, Clear i x = true →
      resultsOf t x.t = some (done (f (turnSites s s.focus b i) x) :: x.th.seg.results)

/-! ## Values as the rules state them -/

/-- A source of width W read as a number: two's complement or unsigned (R60). -/
def number (w sgn : Bool) (x : Wide) : Int :=
  match w, sgn with
  | true, true => x.toInt
  | true, false => x.toNat
  | false, true => (x.setWidth 32).toInt
  | false, false => (x.setWidth 32).toNat

/-- The least and the greatest number of lo..hi (R60). -/
def least (w sgn : Bool) : Int := if sgn then (if w then -0x8000_0000_0000_0000 else -0x8000_0000) else 0
def greatest (w sgn : Bool) : Int :=
  match w, sgn with
  | true, true => 0x7FFF_FFFF_FFFF_FFFF
  | true, false => 0xFFFF_FFFF_FFFF_FFFF
  | false, true => 0x7FFF_FFFF
  | false, false => 0xFFFF_FFFF

/-- The low W bits of an exact result, after the clamp of `sat` (R60). -/
def resultWord (m : ModIN) (t : Int) : Wide :=
  let t := if m.sat then (if t < least m.w m.sgn then least m.w m.sgn else if greatest m.w m.sgn < t then greatest m.w m.sgn else t) else t
  if m.w then BitVec.ofInt 64 t else (BitVec.ofInt 32 t).setWidth 64

/-- The low W bits of a word. -/
def lowWord (w : Bool) (x : Wide) : Wide := if w then x else (x.setWidth 32).setWidth 64

/-- The 20-bit immediate in place of a source (R29, R61). -/
def immWide (signed : Bool) (imm : BitVec 20) : Wide := if signed then imm.signExtend 64 else imm.setWidth 64

/-- A magnitude of a standard format, as a number: the pattern without its sign bit, counted from 0 (R78). The value after
the largest finite one is that of the next power of two. -/
def magnitude (fmt code : Nat) : Rat :=
  if code < 2 ^ fracBits fmt then (code : Rat) * 2 ^ (fmtLow fmt)
  else ((2 ^ fracBits fmt + code % 2 ^ fracBits fmt : Nat) : Rat) * 2 ^ (fmtLow fmt + (code / 2 ^ fracBits fmt : Nat) - 1)

/-- How a number stands to the exact result: the exact result is `q`, or the square root of `q`. -/
def exactly (q : Rat) (y : Rat) : Ordering := compare y q
def rootOf (q : Rat) (y : Rat) : Ordering := compare (y * y) q

/-- Whether rounding goes to the upper of two neighbouring magnitudes, the lower of code `c`: `middle` is how the point
half-way between them stands to the exact result (R81). -/
def goesUp (rnd : Nat) (neg : Bool) (c : Nat) (middle : Ordering) : Bool :=
  match rnd with
  | 0 => middle = .lt || (middle = .eq && c % 2 = 1)
  | 1 => false
  | 2 => !neg
  | _ => neg

/-- `bits` is the exact result of sign `neg`, rounded once in mode `rnd` (R81): it overflows at the first magnitude beyond
the largest finite one, and otherwise lies at or above a magnitude and below the next. -/
def RoundsTo (fmt rnd : Nat) (neg : Bool) (exact : Rat → Ordering) (bits : Nat) : Prop :=
  (exact (magnitude fmt (infBits fmt)) ≠ .gt ∧ bits = overflowBits fmt rnd neg) ∨
  ∃ c, c < infBits fmt ∧ exact (magnitude fmt c) ≠ .gt ∧ exact (magnitude fmt (c + 1)) = .gt ∧
    bits = if exact (magnitude fmt c) = .eq then signBit fmt neg + c
      else if goesUp rnd neg c (exact ((magnitude fmt c + magnitude fmt (c + 1)) / 2)) then
        (if c + 1 = infBits fmt then overflowBits fmt rnd neg else signBit fmt neg + (c + 1))
      else signBit fmt neg + c

/-- A finite value as a number. -/
def FVal.number : FVal → Rat
  | .fin neg m e => (if neg then -1 else 1) * (m : Rat) * 2 ^ e
  | _ => 0

/-- An exact sum of two values, rounded once (R80, R81): a zero sum keeps the sign of two zeros of one sign, and is
otherwise -0 only when rounding down. -/
def SumRounds (fmt rnd : Nat) (a b : FVal) (bits : Nat) : Prop :=
  match a, b with
  | .nan, _ | _, .nan => bits = canonicalNan fmt
  | .inf p, .inf q => bits = if p = q then signBit fmt p + infBits fmt else canonicalNan fmt
  | .inf p, .fin _ _ _ | .fin _ _ _, .inf p => bits = signBit fmt p + infBits fmt
  | .fin p m _, .fin q n _ =>
    let t := a.number + b.number
    if t = 0 then bits = signBit fmt (if m = 0 && n = 0 && p = q then p else rnd = 3)
    else RoundsTo fmt rnd (decide (t < 0)) (exactly |t|) bits

/-- An exact product of two values, rounded once (R80, R81). -/
def ProductRounds (fmt rnd : Nat) (a b : FVal) (bits : Nat) : Prop :=
  match a, b with
  | .nan, _ | _, .nan => bits = canonicalNan fmt
  | .inf p, .inf q => bits = signBit fmt (p != q) + infBits fmt
  | .inf p, .fin q m _ | .fin q m _, .inf p => bits = if m = 0 then canonicalNan fmt else signBit fmt (p != q) + infBits fmt
  | .fin p _ _, .fin q _ _ => RoundsTo fmt rnd (p != q) (exactly |a.number * b.number|) bits

/-- An exact quotient of two values, rounded once (R80, R81, R91). -/
def QuotientRounds (fmt rnd : Nat) (a b : FVal) (bits : Nat) : Prop :=
  match a, b with
  | .nan, _ | _, .nan => bits = canonicalNan fmt
  | .inf _, .inf _ => bits = canonicalNan fmt
  | .inf p, .fin q _ _ => bits = signBit fmt (p != q) + infBits fmt
  | .fin p _ _, .inf q => bits = signBit fmt (p != q)
  | .fin p m _, .fin q n _ =>
    if n = 0 then bits = if m = 0 then canonicalNan fmt else signBit fmt (p != q) + infBits fmt
    else RoundsTo fmt rnd (p != q) (exactly |a.number / b.number|) bits

/-- An exact square root, rounded once (R81, R91, R94). -/
def RootRounds (fmt rnd : Nat) (a : FVal) (bits : Nat) : Prop :=
  match a with
  | .nan => bits = canonicalNan fmt
  | .inf neg => bits = if neg then canonicalNan fmt else infBits fmt
  | .fin neg m _ =>
    if m = 0 then bits = signBit fmt neg
    else if neg then bits = canonicalNan fmt
    else RoundsTo fmt rnd false (rootOf a.number) bits

/-- A value rounded once to a format; a zero keeps its sign (R81). -/
def ValueRounds (fmt rnd : Nat) (a : FVal) (bits : Nat) : Prop :=
  match a with
  | .nan => bits = canonicalNan fmt
  | .inf neg => bits = signBit fmt neg + infBits fmt
  | .fin neg _ _ => RoundsTo fmt rnd neg (exactly |a.number|) bits

/-- A number rounded to an integer in mode `rnd`: to nearest with ties to even, toward zero, up, down (R81, R97). -/
def roundRat (rnd : Nat) (q : Rat) : Int :=
  match rnd with
  | 0 =>
    let f := q - q.floor
    if f < 1 / 2 then q.floor else if 1 / 2 < f then q.floor + 1 else if q.floor % 2 = 0 then q.floor else q.floor + 1
  | 1 => if q < 0 then q.ceil else q.floor
  | 2 => q.ceil
  | _ => q.floor

/-- `bits` is a finite value of a format that lies within `bound` of `exact`. -/
def FiniteWithin (fmt bits : Nat) (exact bound : ℝ) : Prop :=
  ∃ neg m e, unpack fmt bits = .fin neg m e ∧ |((FVal.fin neg m e).number : ℝ) - exact| ≤ bound

/-- `bits` is a finite value of a format that lies within `k` units in the last place of `exact` (R93). -/
def WithinUlps (fmt bits k : Nat) (exact : ℝ) : Prop :=
  FiniteWithin fmt bits exact
    (k * (2 : ℝ) ^ (if exact = 0 then fmtLow fmt else max (Int.log 2 |exact| - fracBits fmt) (fmtLow fmt)))

/-- `code` is the one of the ascending values `value 0` to `value top` that `q` is rounded to in mode `rnd`: the end beyond
which `q` lies, or the neighbour that R81 chooses, ties to the code whose bit 0 is 0. -/
def RoundsAmong (value : Nat → Rat) (top rnd : Nat) (neg : Bool) (q : Rat) (code : Nat) : Prop :=
  (q ≤ value 0 ∧ code = 0) ∨ (value top ≤ q ∧ code = top) ∨
  ∃ c < top, value c ≤ q ∧ q < value (c + 1) ∧
    code = if q = value c then c else if goesUp rnd neg c (exactly q ((value c + value (c + 1)) / 2)) then c + 1 else c

/-! ## The march of `occstep` -/

/-- One step of the march reads a cell: the least of the end and the crossings of the three axes (R177). -/
def nextTime (g : March) (cell : List Nat) : Nat :=
  ((List.range 3).filterMap fun i => crossing g i (cell.getD i 0)).foldl (pickBits 0 false) g.te

/-- The cells after a step: every axis whose crossing is the step's time goes on by one in the direction of the ray. -/
def nextCell (g : March) (cell : List Nat) : List Int :=
  (List.range 3).map fun i =>
    if ((crossing g i (cell.getD i 0)).map fun v => fcmpHolds 0 0 v (nextTime g cell)) = some true then
      (if g.r.getD i 0 < 2 ^ 31 then (cell.getD i 0 : Int) + 1 else (cell.getD i 0 : Int) - 1)
    else (cell.getD i 0 : Int)

/-- The loop of R177 from a time and a cell, with the steps made and the start found so far, and what it leaves with: the
start, the time and whether there is more. -/
inductive Marches (g : March) (occupied : List Nat → Bool) :
    Nat → Nat → List Nat → Option Nat → Option Nat × Nat × Bool → Prop where
  | leaves (steps t cell start) : occupied cell = false → start.isSome = true →
      Marches g occupied steps t cell start (start, t, fcmpHolds 0 2 t g.te)
  | arrives (steps t cell start) : (occupied cell = false → start = none) → fcmpHolds 0 3 g.te (nextTime g cell) = true →
      Marches g occupied steps t cell start (if occupied cell then start.or (some t) else start, nextTime g cell, false)
  | tires (t cell start) : (occupied cell = false → start = none) → fcmpHolds 0 3 g.te (nextTime g cell) = false →
      Marches g occupied 63 t cell start (if occupied cell then start.or (some t) else start, nextTime g cell, true)
  | exits (steps t cell start) : (occupied cell = false → start = none) → fcmpHolds 0 3 g.te (nextTime g cell) = false →
      steps ≠ 63 → (∃ c ∈ nextCell g cell, c < 0 ∨ (2 ^ g.n : Int) ≤ c) →
      Marches g occupied steps t cell start (if occupied cell then start.or (some t) else start, nextTime g cell, false)
  | goesOn (steps t cell start next r) : (occupied cell = false → start = none) →
      fcmpHolds 0 3 g.te (nextTime g cell) = false → steps ≠ 63 → next.map Int.ofNat = nextCell g cell →
      (∀ c ∈ next, c < 2 ^ g.n) →
      Marches g occupied (steps + 1) (nextTime g cell) next (if occupied cell then start.or (some t) else start) r →
      Marches g occupied steps t cell start r

/-! ## What an instruction leaves unchanged -/

/-- What a thread's registers hold, as committed. -/
def Thread.kept (th : Thread) : Nat × Nat × List Word × BitVec 8 × List (BitVec 128) := (th.row, th.lane, th.v, th.p, th.k)

/-- The committed registers of every group: v, p and k of its threads, s of its rows, b and g. -/
structure SameRegisters (s t : State) : Prop where
  threads : ∀ n, (findGroup t n).map (fun g => g.threads.map Thread.kept) = (findGroup s n).map fun g => g.threads.map Thread.kept
  rows    : ∀ n, (findGroup t n).map Group.rows = (findGroup s n).map Group.rows
  b       : ∀ n, (findGroup t n).map Group.b = (findGroup s n).map Group.b
  g       : ∀ n, (findGroup t n).map Group.g = (findGroup s n).map Group.g

/-- Every byte of storage at either die's home slices, every byte a core holds dirty, and every scratchpad byte. -/
structure SameMemory (s t : State) : Prop where
  homes : ∀ d a, homeByte t d a = homeByte s d a
  dirty : ∀ k a, Memory.read (getCore t k).l1Dirty a = Memory.read (getCore s k).l1Dirty a
  pads  : ∀ n o, (findGroup t n).map (fun g => padByte g o) = (findGroup s n).map fun g => padByte g o

def padByteOf (s : State) (group o : Nat) : Byte := ((findGroup s group).map fun g => padByte g o).getD 0

/-- A byte as the next operation at a place reads it: a byte the core holds dirty, the home slice of its die, or the
scratchpad. -/
def byteAtPlace (s : State) (k group : Nat) (loc : Loc) (i : Nat) : Byte :=
  match loc with
  | .mem a => (Memory.read (getCore s k).l1Dirty (a + i)).getD (homeByte s (dieOf k) (a + i))
  | .pad o => padByteOf s group (o + i)

/-- Memory after a `.line` load of core `k`, or one that displaces lines: dirty bytes of the core may have gone to its home
slices, and nothing that the core reads has changed (R111, R113). -/
structure OnlyWritesBack (s t : State) (k : Nat) : Prop where
  reads : ∀ n a, byteAtPlace t k n (.mem a) 0 = byteAtPlace s k n (.mem a) 0
  homes : ∀ d a, homeByte t d a = homeByte s d a ∨ (d = dieOf k ∧ Memory.read (getCore s k).l1Dirty a = some (homeByte t d a))
  dirty : ∀ j a, Memory.read (getCore t j).l1Dirty a = Memory.read (getCore s j).l1Dirty a ∨
    (j = k ∧ Memory.read (getCore t j).l1Dirty a = none)
  pads  : ∀ n o, (findGroup t n).map (fun g => padByte g o) = (findGroup s n).map fun g => padByte g o

/-- What a thread's system registers hold (R148, R150). -/
def Thread.system (th : Thread) : Bool × Word × Word × Word × Word × Word × Word :=
  (th.inHandler, th.memStatus, th.faultInfo, th.faultPc, th.faultHdr, th.data0, th.data1)

/-- The system registers of every thread and core, and the handles of the matrix engines. -/
structure SameSystem (s t : State) : Prop where
  threads : ∀ u, (findThread t u).map (fun p => p.2.system) = (findThread s u).map fun p => p.2.system
  config  : ∀ k, (getCore t k).cntCfg = (getCore s k).cntCfg
  drops   : ∀ k, (getCore t k).hintDrops = (getCore s k).hintDrops
  handles : ∀ k, (getCore t k).handles = (getCore s k).handles

/-! ## After commit -/

/-- A thread, if the state has it. -/
def threadAtRef (s : State) (t : ThreadRef) : Option Thread := (findThread s t).map Prod.snd

/-- Whether a thread, if it is there, has a property. -/
def ThreadIs (s : State) (t : ThreadRef) (p : Thread → Prop) : Prop := ∃ th, threadAtRef s t = some th ∧ p th

/-- Whether every thread of this reference has a property. -/
def IfThread (s : State) (t : ThreadRef) (p : Thread → Prop) : Prop := ∀ th, threadAtRef s t = some th → p th

/-- The newest value that a segment's writes give a register. -/
def newestOf {α : Type} (seg : Segment) (pick : RegWrite → Option α) : Option α :=
  (seg.results.flatMap fun r => r.writes.reverse).findSome? pick

def RegWrite.toV (i : Nat) : RegWrite → Option Word
  | .v j x => if j = i then some x else none
  | _ => none
def RegWrite.toS (i : Nat) : RegWrite → Option Word
  | .s j x => if j = i then some x else none
  | _ => none
def RegWrite.toP (i : Nat) : RegWrite → Option Bool
  | .p j x => if j = i then some x else none
  | _ => none
def RegWrite.toK (i : Nat) : RegWrite → Option (BitVec 128)
  | .k j x => if j = i then some x else none
  | _ => none
def RegWrite.toB (i : Nat) : RegWrite → Option (BitVec 128)
  | .b j x => if j = i then some x else none
  | _ => none
def RegWrite.isG : RegWrite → Bool
  | .g _ _ => true
  | _ => false
def RegWrite.isSys : RegWrite → Bool
  | .sys _ _ => true
  | _ => false

/-- A scalar register of a row, a record register and a segment register of a group. -/
def scalarOf (s : State) (group row i : Nat) : Word :=
  (((findGroup s group).bind fun g => g.rows[row]?).map fun r => r.s.getD i 0).getD 0
def pendingOf (s : State) (group row i : Nat) : Bool :=
  (((findGroup s group).bind fun g => g.rows[row]?).map fun r => r.pend.getLsbD i).getD false
def recordOfGroup (s : State) (group i : Nat) : BitVec 128 := ((findGroup s group).map fun g => g.b.getD i 0).getD 0
def segmentOfGroup (s : State) (group i : Nat) : BitVec 128 := ((findGroup s group).map fun g => g.g.getD i 0).getD 0

/-- The row has a scalar register of this number. -/
def hasScalar (s : State) (group row i : Nat) : Prop :=
  ∃ g r, findGroup s group = some g ∧ g.rows[row]? = some r ∧ i < r.s.length

/-- A committing thread that may commit now: its core runs, its pass is not being ended, nothing of it is to be replayed,
and the conditions of R194 hold. -/
structure Commits (s : State) (t : ThreadRef) (g : Group) (th : Thread) (k : Nat) (e : Ending) : Prop where
  found : findThread s t = some (g, th)
  core  : g.core = some k
  there : k < s.cores.length
  state : th.status = .committing
  works : (getCore s k).fatal = false
  goes  : passStopping s g = false
  sure  : replayDue s g th t = false
  may   : mayCommit s g th t = true
  ending : th.seg.ending = some e
  alone : th.seg.gather = false

/-- A notice of a key and a code that the host has not answered (R332). -/
def outstanding (s : State) (key : FaultKey) (code : BitVec 8) : Bool :=
  s.notices.any fun n => n.key = some (key, code) && n.answer.isNone

/-- A thread parked in an effect on its core. -/
structure Parked (s : State) (t : ThreadRef) (g : Group) (th : Thread) (k : Nat) (e : Effect) : Prop where
  found : findThread s t = some (g, th)
  core  : g.core = some k
  there : k < s.cores.length
  state : th.status = .parkedEffect
  waits : th.waiting = some e

/-- Nothing of a thread is on its way: its store buffer is empty and it has no reduction in flight. -/
def Quiet (s : State) (t : ThreadRef) : Prop :=
  (∀ th, threadAtRef s t = some th → th.buffer = []) ∧ ∀ r ∈ s.reductions, r.thread ≠ t

/-- No poisoned sector and no mismatching block anywhere: in storage, in a cache, or in a scratchpad. -/
def Unmarked (s : State) : Prop :=
  s.poison = [] ∧ s.mismatch = [] ∧ (∀ g ∈ s.groups, g.padPoison = [] ∧ g.padMismatch = []) ∧
    ∀ c ∈ s.cores, c.l1Flaws = .none ∧ ∀ l ∈ c.sCache ++ c.aCache ++ c.mCache, l.flaws = .none

/-- A byte as an operation of a scope reads it: at device scope and wider, at the home slice of the owner die (R243). -/
def atomicByte (s : State) (k group scope va : Nat) (loc : Loc) (i : Nat) : Byte :=
  match loc with
  | .mem a => if 4 ≤ scope then homeByte s (ownerDie va) (a + i) else byteAtPlace s k group (.mem a) i
  | .pad o => padByteOf s group (o + i)

/-- A byte as an operation of a thread reads it: in the scratchpad, with the engine writes whose completion the thread has
read (R133, R163, R249). -/
def seenByte (s : State) (k : Nat) (g : Group) (th : Thread) (scope va : Nat) (loc : Loc) (i : Nat) : Byte :=
  match loc with
  | .mem _ => atomicByte s k g.serial scope va loc i
  | .pad o => padSeen s g th (o + i)

/-- No engine write to the scratchpad whose completion the thread has read is still unseen by the others. -/
def SeesNoMore (s : State) (t : ThreadRef) : Prop :=
  IfThread s t fun th => ∀ l ∈ s.late, l.by_.group = t.group → th.saw.contains l.id = true → l.pad = []

/-- Nothing is on its way over the die link. -/
def LinkIdle (s : State) : Prop := ∀ d, (getDie s d).pending = [] ∧ (getDie s d).from_ = []

/-- An operation of core `k` finds what its scope needs already performed: the scope is no wider than a die, or the core
holds nothing dirty and the link is idle. -/
def WithinReach (s : State) (k scope : Nat) : Prop := scope < 4 ∨ (LinkIdle s ∧ (getCore s k).l1Dirty = [])

def wordAtPlace (s : State) (k group : Nat) (loc : Loc) (n : Nat) : Wide :=
  wideOf ((List.range n).map (byteAtPlace s k group loc))

/-- The next command of a queue may start: the device runs firmware and the entry's reserved field is zero (R353, R354,
R358). -/
structure Starts (s : State) (c : Cmd) (x : Queue) : Prop where
  queue   : getQueue s c.queue = some x
  may     : mayStart s c x = true
  running : s.running.isSome = true
  rsv     : c.rsv = 0

/-- Where the status word of the command a queue starts next stands in host memory (R354). -/
def statusAt (x : Queue) : Nat := x.ring.toNat + 64 * (x.started % x.size) + 4

/-- The command has completed with a status: its status word is written, the completed index goes on, and an interrupt is
sent if the entry asks for one (R354). -/
def Finished (s' : State) (c : Cmd) (x : Queue) (status : Nat) : Prop :=
  hostWord s' (statusAt x) = BitVec.ofNat 32 status ∧
  getQueue s' c.queue = some { x with
    started := x.started + 1, completed := x.completed + 1, statuses := x.statuses ++ [⟨x.started, status⟩]
    interrupts := x.interrupts + (if c.irq then 1 else 0) }

/-- The command has started and is completed later. -/
def Pends (s s' : State) (c : Cmd) (x : Queue) (w : CmdWait) : Prop :=
  getQueue s' c.queue = some { x with started := x.started + 1 } ∧
  s'.commands = s.commands ++ [⟨c.queue, x.started, c.irq, w⟩]

/-- Bytes in host memory, but for a status word written after them. -/
def HostHolds (s' : State) (x : Queue) (a : Nat) (bytes : List Byte) : Prop :=
  ∀ i, i < bytes.length → (a + i < statusAt x ∨ statusAt x + 4 ≤ a + i) → hostByte s' (a + i) = bytes.getD i 0

/-- The writes on their way between the dies: not yet exported, or not yet applied (R242). -/
def onTheWay (s : State) : List (Nat × List Host.Cell) :=
  s.dies.flatMap fun d => (d.pending ++ d.from_.map Prod.snd).map fun w => (w.stamp, w.bytes)

/-- The same memory, translated alike, with no write on its way that was not on its way before. -/
structure SameStore (s t : State) : Prop where
  memory : SameMemory s t
  places : ∀ va acc, translateH t va acc = translateH s va acc
  ways   : ∀ w ∈ onTheWay t, w ∈ onTheWay s

/-- `t` is `s` after feedback entries have been appended to their rings one after another (R227), memory being otherwise as it
was. -/
def Appended : List (Nat × Wide) → State → State → Prop
  | [], s, t => SameStore s t
  | f :: rest, s, t => ∃ u, SameStore s u ∧ Appended rest (feedbackAppend u f.1 f.2) t

/-- The ring and the feedback entry that a thread asks for with a sampled load or `resh` (R115, R116, R118). -/
def feedbackDue (x : Site) : Instr → Option (Nat × Wide)
  | .smp w => if lodFlag x w.buf then
      lodFeedback x w.buf.toNat ((x.read32 w.a).toInt + w.off.toInt) 0 (typeWidth w.m.type.toNat) else none
  | .smpl w => if lodFlag x w.buf then
      lodFeedback x w.buf.toNat (x.pairElement w.a w.off.toInt) (x.wantedLevel w.a) (typeWidth w.m.type.toNat) else none
  | .resh w => if lodFlag x w.buf then ((passed (reshFeedback x w)).bind id) else none
  | _ => none

/-- No thread of the issue group faults at a check of R58. -/
abbrev NoneFaults (s : State) (b : Burst) (i : Instr) : Prop := ∀ x ∈ turnSites s s.focus b i, Faults i x = false

end Sys2Proof.Machine
end

