-- ==== Sys2Proof/Certificates/Slice0/Obligations.lean ====
section
/-!
DEFINITION. The statements about the machine, for the provers. Each docstring names the rules of the spec it formalises.
-/

open Sys2Proof Sys2Proof.Machine

/-! ## The encoding -/

/-- Every well-formed instruction word, with its literal word and whatever words follow, decodes to itself, with every
operand at every value its field admits, and leaves the words that follow (R25-R31, R36, R52, R55). -/
def Obligations.EncodedWordsDecode : Prop :=
  ∀ (i : Instr) (rest : List Wide), i.isWord = true → i.wf = true → decodeWords (encode i ++ rest) = .ok (i, rest)

/-- Whatever the decoder reads, it reads every bit of: encoding the instruction gives back the words it was read from, and
the instruction is well formed (R25, R36, R59). -/
def Obligations.DecodingKeepsEveryBit : Prop :=
  ∀ (ws rest : List Wide) (i : Instr), decodeWords ws = .ok (i, rest) → encode i ++ rest = ws ∧ i.wf = true ∧ i.isWord = true

/-- A word is read as an unassigned opcode exactly when its opcode is none of R52, and then no literal word follows it and
every enabled thread takes ILLEGAL_OPCODE with the whole word in the record (R57), unless its segment is to be replayed
because a load has returned data of a mismatching block (log 43). -/
def Obligations.UnassignedOpcodesFault : Prop :=
  ∀ w : Wide,
    (decodeWith w none = .unassignedOpcode w ↔ opcodeAssigned (wordOpcode w) = false) ∧
    (Instr.unassignedOpcode w).needsLiteral = false ∧
    (∀ x : Site, x.word = w → guardRead x = true → guardOn x x.guard = true →
      ∃ tr, verdict (.unassignedOpcode w) x = .fault tr ∧ tr.code = .illegalOpcode ∧
        tr.data1 ++ tr.data0 = w) ∧
    ∀ s b, AtWord s b → (∀ y ∈ turnSites s s.focus b (.unassignedOpcode w), Proceeds (.unassignedOpcode w) y = true) →
      Goes (exec (.unassignedOpcode w) s) fun t => ∀ y ∈ turnSites s s.focus b (.unassignedOpcode w),
        guardRead y = true → guardOn y y.guard = true → y.th.seg.missed = false → ThreadIs t y.t fun th =>
          th.seg.results = [] ∧ th.faultInfo = 0x001 ∧ th.data1 ++ th.data0 = w ∧
          (th.status = .ready ∨ th.status = .parkedHost)

/-- Words written out from the spec's examples decode to the instructions they stand for: `imulhi v2, v1, 349496` (R64),
the all-zero word `nop` (R158), `iadd v3, v1, v2`, and `br` with its literal word (R70). -/
def Obligations.WorkedWordsDecode : Prop :=
  decodeWords [0x0260_1002_AAA7_0008] =
    .ok (.imulhiImm ⟨⟨false, 0, none⟩, ⟨false, false, false, true, 0⟩, .v 2, .v 1, 349496⟩, []) ∧
  decodeWords [0] = .ok (.nop ⟨⟨false, 0, none⟩, ⟨0⟩, .v 0, .v 0, .v 0, .v 0⟩, []) ∧
  decodeWords [0x0200_1802_0100_0000] =
    .ok (.iadd ⟨⟨false, 0, none⟩, ⟨false, false, false, false, 0⟩, .v 3, .v 1, .v 2, .v 0⟩, []) ∧
  decodeWords [0x5000_077E_0000_0200, 0x38] =
    .ok (.br ⟨⟨false, 1, some 0x38⟩, ⟨0⟩, .v 0, .literal, .v 0, .v 0⟩, [])

/-! ## Steps -/

/-- A step takes the first entry of the agenda, and an empty agenda lets a nanosecond pass (the model's schedule, log 3);
an event of the agenda is `exec` of it. -/
def Obligations.StepTakesTheAgenda : Prop :=
  (∀ s : State, s.agenda = [] → step s = .next (elapse s)) ∧
  (∀ (s : State) (i : Instr) (rest : List Action), s.agenda = .event i :: rest → step s = exec i { s with agenda := rest }) ∧
  ∀ s : State, (elapse s).time = s.time + 1

/-- When a core's turn comes and its burst stands at a word, the step runs the instruction that the code holds there: the
word at the burst's address, and the word after it when the instruction calls for a literal; the core comes into focus. -/
def Obligations.StepRunsTheDecodedInstruction : Prop :=
  ∀ (s : State) (k : Nat) (c : Core) (b : Burst) (rest : List Action) (i : Instr) (tail : List Wide),
    s.agenda = .fetch k :: rest → s.cores[k]? = some c → c.burst = some b → b.entered = true →
    (let s' := { s with agenda := rest, focus := k }
     decodeWords [burstWord s' k b b.pc.toNat, burstWord s' k b (b.pc.toNat + 8)] = .ok (i, tail)) →
    step s = exec i { s with agenda := rest, focus := k }

/-- No instruction is refused.
No step of a device that has all its parts, at a core, die, vault, pair or cluster the device has, stops the machine:
`exec` of a well-formed instruction answers a next state. -/
def Obligations.WellFormedStepsGoOn : Prop :=
  (
   ∀ (i : Instr) (s : State) (r : Refusal), exec i s ≠ .refused r) ∧
  (
    ∀ (i : Instr) (s : State), s.shaped = true → s.focus < 128 → i.wf = true → Goes (exec i s) fun _ => True)

/-- Every step keeps the device whole and every memory of it in its canonical form: strictly ascending addresses.  The form is
the model's choice (log 1). -/
def Obligations.StepKeepsTheInvariant : Prop := ∀ s t : State, s.Inv → step s = .next t → t.Inv

/-- The invariant holds after reset.  The form of memory is the model's choice (log 1). -/
def Obligations.ResetHasTheInvariant : Prop := State.reset.Inv

/-- What the spec gives at device reset: the global time and every core's cycle counter are 0 (R348), the performance
counters and their configurations are 0 (R362), all 32 banks of a core are cache (R215), every macro is clean and every
handle unknown (R310), the pair control words, the policy table and its global word are 0 and the die voltage control
words 850 (R344, R347).  That no graph is active, that no queue is registered yet (queue 0 is registered by the boot
configuration of a device reset, O56) and that no command is outstanding are `State.reset`'s own choices (logs 4 and 5). -/
def Obligations.ResetValues : Prop :=
  State.reset.time = 0 ∧
  (∀ c ∈ State.reset.cores, c.cycles = 0 ∧ c.counters = List.replicate 16 0 ∧ c.cntCfg = List.replicate 16 0 ∧
    c.hintDrops = 0 ∧ c.banks = List.replicate 32 ⟨.cache, none, [], [], [], 0, [], false⟩ ∧ c.handles = List.replicate 16 none ∧
    (∀ m ∈ c.macs, m.cond = .clean) ∧ c.burst = none) ∧
  (∀ p ∈ State.reset.pairs, p.state = 0 ∧ p.ceiling = 0 ∧ p.shift = 0) ∧
  (∀ d ∈ State.reset.dies, d.mv = 850 ∧ d.minGraphics = 0 ∧ d.minCompute = 0 ∧ d.sheet = false) ∧
  State.reset.policy = [0, 0, 0, 0] ∧ State.reset.policyGlobal = 0 ∧
  State.reset.groups = [] ∧ State.reset.graphs = [] ∧ State.reset.queues = List.replicate 16 none ∧
  State.reset.commands = []

/-! ## Issuing a word -/

/-- The checks of R58 in their order: a thread executes a word exactly when it passes all of them, and a disabled thread
is off exactly when its guard is read and its destination has arrived (R27, R37).  The first check that fails gives its code:
ILLEGAL_MODIFIER for guard 8 and POISON for a poisoned guard predicate (step 2), then, for a thread that the guard enables,
ILLEGAL_OPCODE, ILLEGAL_MODIFIER for a bad modifier or an invalid slot, ILLEGAL_OPERAND for the first bad field, PRIVILEGED,
DISTANCE_RANGE for a distance past the start of the segment, and POISON for a poisoned source (steps 3 to 7); a thread that
passes them all and lacks an operand waits (R37).  That step 7 is the same for `pref`, `resh` and `mxq`, whose own rules list
POISON alone (R118, R165), is log 54 (DEDUCED from R58). -/
def Obligations.ChecksDecideTheVerdict : Prop :=
  ∀ (i : Instr) (x : Site),
    (verdict i x = .run ↔ Clear i x = true) ∧ (verdict i x = .off ↔ Disabled i x = true) ∧
    (let faults := fun (c : Code) => ∃ tr, verdict i x = .fault tr ∧ tr.code = c
     let poisonedGuard := x.guard ≠ 8 ∧ x.guard ≠ 0 ∧ regPoisoned x.g x.th (.p (x.guard.toNat % 8)) = true
     (x.guard = 8 → verdict i x = .fault x.badModifier ∧ faults .illegalModifier) ∧
     (poisonedGuard → faults .poison) ∧
     (guardRead x = true → guardOn x x.guard = true →
       (i.view = none → faults .illegalOpcode) ∧
       ∀ v, i.view = some v →
         let far := ∃ n ∈ sourceDistances i v, x.th.seg.distance n = none
         let bad := ∃ r ∈ sourceRegs i v, regPoisoned x.g x.th r = true
         (modifierPasses i x.pass = false → faults .illegalModifier) ∧
         (modifierPasses i x.pass = true →
           (∀ n c, badField x.pass.regs v = some (n, c) → verdict i x = .fault (x.badOperand n c) ∧ faults .illegalOperand) ∧
           (badField x.pass.regs v = none →
             (privilegePasses i x = false → faults .privileged) ∧
             (privilegePasses i x = true →
               (far → faults .distanceRange) ∧ (¬far → bad → faults .poison) ∧
               (¬far → ¬bad → operandsReady i v x = false → verdict i x = .stall))))))

/-- While any thread of the issue group waits for a guard, a source or a destination, the word is not issued and nothing
changes (R19, R37).
A disabled thread takes no fault, has no effect and writes nothing; a word with a destination still counts for its
distances, with the destination's current value (R27).  In a gather segment a fault of another thread may park it as a member
of its closure (R144), so that clause is about the other segments. -/
def Obligations.WaitingAndDisabledThreads : Prop :=
  (
    ∀ (i : Instr) (s : State) (b : Burst) (x : Site), i.isWord = true → AtWord s b → x ∈ turnSites s s.focus b i →
      Proceeds i x = false → exec i s = .next s) ∧
  (
    ∀ (i : Instr) (s t : State) (b : Burst) (x : Site), i.isWord = true → AtWord s b → x ∈ turnSites s s.focus b i →
      (∀ y ∈ turnSites s s.focus b i, Proceeds i y = true) → exec i s = .next t → t ≠ s → Disabled i x = true →
      (∀ y ∈ turnSites s s.focus b i, y.th.seg.gather = false) → x.th.seg.mates = 0 →
      ∃ th, (findThread t x.t).map Prod.snd = some th ∧
        th.seg.effect = x.th.seg.effect ∧ th.seg.stores = x.th.seg.stores ∧ th.seg.loads = x.th.seg.loads ∧
        th.record = x.th.record ∧
        th.seg.results = (match i.view with
          | some v => if writesResult i then [(⟨0, true, true, [], currentDest v x⟩ : Result)] else []
          | none => []) ++ x.th.seg.results)

/-- A thread that fails a check takes the fault it meets: its segment is discarded, with its results, stores and effect,
and no register of it changes (R41, R196); a fault delivered to the trap vector, to the host or to the command processor
leaves it parked or ready at the vector, never running.  Outside a gather segment no other thread changes; in one, every
other participant of the closure is parked with LANESET_MISMATCH and the faulting lane and code in its record (R144, R331),
and no thread beyond it changes.  That the closure is the least set of lanes that holds the faulting lane, the lanes its
thread has named in the segment so far, and those that each participant in it has named, whatever the word, is the model's
reading (DEDUCED, log 43).
After a load has returned data of a mismatching block a thread takes no fault of its own: it leaves the word out as a disabled
one does, and is replayed when its segment has ended (R107, R197; the model's reading, log 43). -/
def Obligations.AFaultDiscardsTheSegment : Prop :=
  ∀ (s : State) (k : Nat) (t : ThreadRef) (tr : Trouble) (g : Group) (th : Thread),
    findThread s t = some (g, th) →
    let s' := faultThread s k t tr
    let same := ∀ u, u ≠ t → threadAtRef s' u = threadAtRef s u
    (th.seg.missed = false → ThreadIs s' t fun th' =>
      th'.seg.results = [] ∧ th'.seg.stores = [] ∧ th'.seg.loads = [] ∧ th'.seg.effect = none ∧ th'.seg.ending = none ∧
      th'.v = th.v ∧ th'.p = th.p ∧ th'.k = th.k ∧
      (th'.status = .ready ∨ th'.status = .parkedHost ∨ th'.status = .parkedFault)) ∧
    (th.seg.gather = false → same) ∧
    (th.seg.missed = true → s' = s ∧
      ∀ (i : Instr) (s t : State) (b : Burst) (x : Site), i.isWord = true → AtWord s b → x ∈ turnSites s s.focus b i →
        (∀ y ∈ turnSites s s.focus b i, Proceeds i y = true ∧ y.th.seg.gather = false) → exec i s = .next t → t ≠ s →
        Faults i x = true → x.th.seg.missed = true →
        ThreadIs t x.t fun u => (u.status = .running ∨ u.status = .committing) ∧
          u.seg.effect = x.th.seg.effect ∧ u.seg.stores = x.th.seg.stores ∧ u.seg.loads = x.th.seg.loads ∧
          u.seg.results = (match i.view with
            | some v => if writesResult i then [(⟨0, true, true, [], currentDest v x⟩ : Result)] else []
            | none => []) ++ x.th.seg.results) ∧
    (th.seg.gather = true → th.seg.missed = false → th.lane < 128 → (g.threads.map fun u => (u.row, u.lane)).Nodup →
      let peer := fun (u : Thread) => u.row = th.row ∧ u.seg.ig = th.seg.ig ∧ u.seg.gather = true ∧ u.seg.mates ≠ 0 ∧
        (u.status = .running ∨ u.status = .committing)
      let within := fun (m n : BitVec 128) => m &&& n = m
      let joined := fun (u : Thread) => peer u ∧ u.lane ≠ th.lane ∧ ∀ m : BitVec 128, m.getLsbD th.lane = true →
        within th.seg.mates m → (∀ v ∈ g.threads, peer v → m.getLsbD v.lane = true → within v.seg.mates m) →
        m.getLsbD u.lane = true
      (∀ u ∈ g.threads, joined u → ThreadIs s' (refOf g u) fun u' =>
        u'.seg.results = [] ∧ u'.seg.stores = [] ∧ u'.seg.loads = [] ∧ u'.seg.effect = none ∧
        u'.v = u.v ∧ u'.p = u.p ∧ u'.k = u.k ∧ (u'.status = .ready ∨ u'.status = .parkedHost) ∧
        u'.faultInfo = 0x005 ∧ u'.data0 = BitVec.ofNat 32 th.lane + 256 * (tr.code.bits.setWidth 32) ∧
        u'.data1 = th.seg.startHdr) ∧
      ∀ r, r ≠ t → (∀ u ∈ g.threads, refOf g u = r → ¬joined u) → threadAtRef s' r = threadAtRef s r)

/-! ## Integer instructions -/

/-- `iaddc` and `isubc` read bit 0 of operand c.  A v or s destination receives the low W bits of the sum or the
difference, a p destination the carry (t at least 2^W) or the borrow (t below 0) directly (R64). -/
def Obligations.CarriesAndBorrows : Prop :=
  (∀ w, Delivers (.iaddc w) fun x =>
    let t : Int := number w.m.w false (x.read w.m.w w.a) + number w.m.w false (x.read w.m.w w.b) +
      if (x.read w.m.w w.c).getLsbD 0 then 1 else 0
    match w.d with
    | .p _ => destWrites false (if 2 ^ (if w.m.w then 64 else 32) ≤ t then 1 else 0) w.d
    | _ => destWrites w.m.w (if w.m.w then BitVec.ofInt 64 t else (BitVec.ofInt 32 t).setWidth 64) w.d) ∧
  ∀ w, Delivers (.isubc w) fun x =>
    let t : Int := number w.m.w false (x.read w.m.w w.a) - number w.m.w false (x.read w.m.w w.b) -
      if (x.read w.m.w w.c).getLsbD 0 then 1 else 0
    match w.d with
    | .p _ => destWrites false (if t < 0 then 1 else 0) w.d
    | _ => destWrites w.m.w (if w.m.w then BitVec.ofInt 64 t else (BitVec.ofInt 32 t).setWidth 64) w.d

/-- `iadd` and `isub`, with a register or the sign-extended immediate for b: the exact sum or difference of the sources
as numbers, clamped under `sat`, its low W bits in d (R60, R61, R63).
`imul`, `imulhi` and `imad`: the exact product, the floor of the product over 2^W, and the product plus c (R60, R61,
R63).
`imin`, `imax`, `iabs` and `ineg` (R60, R61, R63). -/
def Obligations.IntegerArithmetic : Prop :=
  (
    (∀ w, Delivers (.iadd w) fun x => destWrites w.m.w
      (resultWord w.m (number w.m.w w.m.sgn (x.read w.m.w w.a) + number w.m.w w.m.sgn (x.read w.m.w w.b))) w.d) ∧
    (∀ w, Delivers (.iaddImm w) fun x => destWrites w.m.w
      (resultWord w.m (number w.m.w w.m.sgn (x.read w.m.w w.a) + number w.m.w w.m.sgn (immWide true w.imm))) w.d) ∧
    (∀ w, Delivers (.isub w) fun x => destWrites w.m.w
      (resultWord w.m (number w.m.w w.m.sgn (x.read w.m.w w.a) - number w.m.w w.m.sgn (x.read w.m.w w.b))) w.d) ∧
    ∀ w, Delivers (.isubImm w) fun x => destWrites w.m.w
      (resultWord w.m (number w.m.w w.m.sgn (x.read w.m.w w.a) - number w.m.w w.m.sgn (immWide true w.imm))) w.d) ∧
  (
    (∀ w, Delivers (.imul w) fun x => destWrites w.m.w
      (resultWord w.m (number w.m.w w.m.sgn (x.read w.m.w w.a) * number w.m.w w.m.sgn (x.read w.m.w w.b))) w.d) ∧
    (∀ w, Delivers (.imulImm w) fun x => destWrites w.m.w
      (resultWord w.m (number w.m.w w.m.sgn (x.read w.m.w w.a) * number w.m.w w.m.sgn (immWide true w.imm))) w.d) ∧
    (∀ w, Delivers (.imulhi w) fun x => destWrites w.m.w
      (resultWord w.m (number w.m.w w.m.sgn (x.read w.m.w w.a) * number w.m.w w.m.sgn (x.read w.m.w w.b) /
        2 ^ (if w.m.w then 64 else 32))) w.d) ∧
    (∀ w, Delivers (.imulhiImm w) fun x => destWrites w.m.w
      (resultWord w.m (number w.m.w w.m.sgn (x.read w.m.w w.a) * number w.m.w w.m.sgn (immWide w.m.sgn w.imm) /
        2 ^ (if w.m.w then 64 else 32))) w.d) ∧
    ∀ w, Delivers (.imad w) fun x => destWrites w.m.w
      (resultWord w.m (number w.m.w w.m.sgn (x.read w.m.w w.a) * number w.m.w w.m.sgn (x.read w.m.w w.b) +
        number w.m.w w.m.sgn (x.read w.m.w w.c))) w.d) ∧
  (
    (∀ w, Delivers (.imin w) fun x => destWrites w.m.w
      (resultWord w.m (min (number w.m.w w.m.sgn (x.read w.m.w w.a)) (number w.m.w w.m.sgn (x.read w.m.w w.b)))) w.d) ∧
    (∀ w, Delivers (.iminImm w) fun x => destWrites w.m.w
      (resultWord w.m (min (number w.m.w w.m.sgn (x.read w.m.w w.a)) (number w.m.w w.m.sgn (immWide w.m.sgn w.imm)))) w.d) ∧
    (∀ w, Delivers (.imax w) fun x => destWrites w.m.w
      (resultWord w.m (max (number w.m.w w.m.sgn (x.read w.m.w w.a)) (number w.m.w w.m.sgn (x.read w.m.w w.b)))) w.d) ∧
    (∀ w, Delivers (.imaxImm w) fun x => destWrites w.m.w
      (resultWord w.m (max (number w.m.w w.m.sgn (x.read w.m.w w.a)) (number w.m.w w.m.sgn (immWide w.m.sgn w.imm)))) w.d) ∧
    (∀ w, Delivers (.iabs w) fun x => destWrites w.m.w
      (resultWord w.m |number w.m.w w.m.sgn (x.read w.m.w w.a)|) w.d) ∧
    ∀ w, Delivers (.ineg w) fun x => destWrites w.m.w
      (resultWord w.m (-number w.m.w w.m.sgn (x.read w.m.w w.a))) w.d)

/-- `bfext` and `bfins` take pos = b[5:0] and len = b[14:8]; a field is cut at bit W-1, and is empty at or beyond W (R66). -/
def Obligations.BitFields : Prop :=
  let size := fun (w : Bool) (b : Wide) =>
    let bits := if w then 64 else 32
    let pos := (b.extractLsb' 0 6).toNat
    if bits ≤ pos then 0 else min (b.extractLsb' 8 7).toNat (bits - pos)
  let pick := fun (w sgn : Bool) (a b : Wide) =>
    let f := a.extractLsb' (b.extractLsb' 0 6).toNat (size w b)
    lowWord w (if sgn && 0 < size w b then f.signExtend 64 else f.setWidth 64)
  let put := fun (w : Bool) (a b c : Wide) =>
    let pos := (b.extractLsb' 0 6).toNat
    let mask : Wide := (if size w b = 64 then BitVec.allOnes 64 else 1#64 <<< size w b - 1) <<< pos
    lowWord w ((c &&& ~~~mask) ||| (a <<< pos &&& mask))
  (∀ w, Delivers (.bfext w) fun x => destWrites w.m.w (pick w.m.w w.m.sgn (x.read w.m.w w.a) (x.read w.m.w w.b)) w.d) ∧
  (∀ w, Delivers (.bfextImm w) fun x => destWrites w.m.w (pick w.m.w w.m.sgn (x.read w.m.w w.a) (immWide false w.imm)) w.d) ∧
  ∀ w, Delivers (.bfins w) fun x => destWrites w.m.w
    (put w.m.w (x.read w.m.w w.a) (x.read w.m.w w.b) (x.read w.m.w w.c)) w.d

/-- The logic instructions, with a register or the zero-extended immediate for b (R61, R65).
The shifts and the rotation: the count is b[4:0] at 32 bits and b[5:0] at 64, and higher bits of b are ignored (R61,
R65).
`popc`, `clz`, `brev`, `sel`, `mov` and `lea` (R61, R65). -/
def Obligations.BitwiseResults : Prop :=
  (
    (∀ w, Delivers (.and w) fun x => destWrites w.m.w (lowWord w.m.w (x.read w.m.w w.a &&& x.read w.m.w w.b)) w.d) ∧
    (∀ w, Delivers (.andImm w) fun x => destWrites w.m.w (lowWord w.m.w (x.read w.m.w w.a &&& immWide false w.imm)) w.d) ∧
    (∀ w, Delivers (.or w) fun x => destWrites w.m.w (lowWord w.m.w (x.read w.m.w w.a ||| x.read w.m.w w.b)) w.d) ∧
    (∀ w, Delivers (.orImm w) fun x => destWrites w.m.w (lowWord w.m.w (x.read w.m.w w.a ||| immWide false w.imm)) w.d) ∧
    (∀ w, Delivers (.xor w) fun x => destWrites w.m.w (lowWord w.m.w (x.read w.m.w w.a ^^^ x.read w.m.w w.b)) w.d) ∧
    (∀ w, Delivers (.xorImm w) fun x => destWrites w.m.w (lowWord w.m.w (x.read w.m.w w.a ^^^ immWide false w.imm)) w.d) ∧
    (∀ w, Delivers (.andn w) fun x => destWrites w.m.w (lowWord w.m.w (x.read w.m.w w.a &&& ~~~ x.read w.m.w w.b)) w.d) ∧
    (∀ w, Delivers (.andnImm w) fun x => destWrites w.m.w (lowWord w.m.w (x.read w.m.w w.a &&& ~~~ immWide false w.imm)) w.d) ∧
    ∀ w, Delivers (.not w) fun x => destWrites w.m.w (lowWord w.m.w (~~~ x.read w.m.w w.a)) w.d) ∧
  (
    let left := fun (w : Bool) (a b : Wide) => lowWord w (a <<< (b.toNat % (if w then 64 else 32)))
    let right := fun (w sgn : Bool) (a b : Wide) =>
      let n := b.toNat % (if w then 64 else 32)
      if w then (if sgn then a.sshiftRight n else a >>> n)
      else (if sgn then (a.setWidth 32).sshiftRight n else (a.setWidth 32) >>> n).setWidth 64
    let round := fun (w : Bool) (a b : Wide) =>
      if w then a.rotateLeft (b.toNat % 64) else ((a.setWidth 32).rotateLeft (b.toNat % 32)).setWidth 64
    (∀ w, Delivers (.shl w) fun x => destWrites w.m.w (left w.m.w (x.read w.m.w w.a) (x.read w.m.w w.b)) w.d) ∧
    (∀ w, Delivers (.shlImm w) fun x => destWrites w.m.w (left w.m.w (x.read w.m.w w.a) (immWide false w.imm)) w.d) ∧
    (∀ w, Delivers (.shr w) fun x => destWrites w.m.w (right w.m.w w.m.sgn (x.read w.m.w w.a) (x.read w.m.w w.b)) w.d) ∧
    (∀ w, Delivers (.shrImm w) fun x => destWrites w.m.w (right w.m.w w.m.sgn (x.read w.m.w w.a) (immWide false w.imm)) w.d) ∧
    (∀ w, Delivers (.rotl w) fun x => destWrites w.m.w (round w.m.w (x.read w.m.w w.a) (x.read w.m.w w.b)) w.d) ∧
    ∀ w, Delivers (.rotlImm w) fun x => destWrites w.m.w (round w.m.w (x.read w.m.w w.a) (immWide false w.imm)) w.d) ∧
  (
    (∀ w, Delivers (.popc w) fun x => destWrites w.m.w
      (BitVec.ofNat 64 ((List.range (if w.m.w then 64 else 32)).countP fun i => (x.read w.m.w w.a).getLsbD i)) w.d) ∧
    (∀ w, Delivers (.clz w) fun x => destWrites w.m.w
      (BitVec.ofNat 64 (if w.m.w then (x.read true w.a).clz.toNat else (x.read32 w.a).clz.toNat)) w.d) ∧
    (∀ w, Delivers (.brev w) fun x => destWrites w.m.w
      (if w.m.w then (x.read true w.a).reverse else (x.read32 w.a).reverse.setWidth 64) w.d) ∧
    (∀ w, Delivers (.sel w) fun x => destWrites w.m.w
      (lowWord w.m.w (if x.read w.m.w w.c ≠ 0 then x.read w.m.w w.a else x.read w.m.w w.b)) w.d) ∧
    (∀ w, Delivers (.mov w) fun x => destWrites w.m.w (lowWord w.m.w (x.read w.m.w w.a)) w.d) ∧
    (∀ w, Delivers (.movImm w) fun _ => destWrites w.m.w (lowWord w.m.w (immWide true w.imm)) w.d) ∧
    ∀ w, Delivers (.lea w) fun x => destWrites w.m.w
      (lowWord w.m.w (x.read w.m.w w.a + x.read w.m.w w.b * 2 ^ (x.read w.m.w w.c).toNat.mod 8)) w.d)

/-- `icmp` compares its sources as numbers: a p destination receives the result, a v or s destination the 32-bit value 1
or 0 (R68); a condition of 6 or 7, which ILLEGAL_MODIFIER stops, holds for nothing.
The predicate instructions: each computes one bit from the truth of its sources (R69).
`kset` with two sources gives exactly the lanes l with a ≤ l < a + b, lanes above 127 dropped; `kset` of a lane set
copies it; `kget` reads 32 of its lanes, chosen by b[1:0] (R139). -/
def Obligations.ComparisonsAndPredicates : Prop :=
  (
    let holds := fun (cond : BitVec 3) (a b : Int) =>
      match cond.toNat with
      | 0 => decide (a = b)
      | 1 => decide (a ≠ b)
      | 2 => decide (a < b)
      | 3 => decide (a ≤ b)
      | 4 => decide (b < a)
      | 5 => decide (b ≤ a)
      | _ => false
    (∀ w, Delivers (.icmp w) fun x => destWrites false
      (if holds w.m.cond (number w.m.w w.m.sgn (x.read w.m.w w.a)) (number w.m.w w.m.sgn (x.read w.m.w w.b)) then 1 else 0) w.d) ∧
    ∀ w, Delivers (.icmpImm w) fun x => destWrites false
      (if holds w.m.cond (number w.m.w w.m.sgn (x.read w.m.w w.a)) (number w.m.w w.m.sgn (immWide w.m.sgn w.imm)) then 1 else 0) w.d) ∧
  (
    let truth := fun (x : Site) (o : Operand) => decide (x.read false o ≠ 0)
    (∀ w, Delivers (.pand w) fun x => destWrites false (if truth x w.a && truth x w.b then 1 else 0) w.d) ∧
    (∀ w, Delivers (.por w) fun x => destWrites false (if truth x w.a || truth x w.b then 1 else 0) w.d) ∧
    (∀ w, Delivers (.pxor w) fun x => destWrites false (if truth x w.a ≠ truth x w.b then 1 else 0) w.d) ∧
    (∀ w, Delivers (.pnot w) fun x => destWrites false (if truth x w.a then 0 else 1) w.d) ∧
    ∀ w, Delivers (.pmov w) fun x => destWrites false (if truth x w.a then 1 else 0) w.d) ∧
  (
    (∀ w, ∃ f : Site → BitVec 128,
      (∀ x l, (f x).getLsbD l = (decide ((x.read32 w.a).toNat ≤ l) && decide (l < (x.read32 w.a).toNat + (x.read32 w.b).toNat) &&
        decide (l < 128))) ∧
      Completes (.kset w) (fun _ => True) fun t x =>
        ∃ i, w.d = .k i ∧ resultsOf t x.t = some (⟨0, true, true, [.k i.val (f x)], (f x).setWidth 64⟩ :: x.th.seg.results)) ∧
    (∀ w, Completes (.ksetCopy w) (fun _ => True) fun t x =>
      ∃ i j, w.d = .k i ∧ w.a = .k j ∧
        resultsOf t x.t = some (⟨0, true, true, [.k i.val (regNow x.g x.th (.k j.val))],
          (regNow x.g x.th (.k j.val)).setWidth 64⟩ :: x.th.seg.results)) ∧
    ∀ w, Completes (.kget w) (fun _ => True) fun t x =>
      ∃ j, w.a = .k j ∧ resultsOf t x.t = some (done (destWrites false
        (((regNow x.g x.th (.k j.val)).extractLsb' (32 * ((x.read32 w.b).toNat % 4)) 32).setWidth 64) w.d) :: x.th.seg.results))

/-- What a destination receives: a v or s register takes the low 32 bits, or with its successor all 64; a p register takes
whether the value is nonzero in the width of the operation, and p0 discards the write and reads true (R16, R18, R60). -/
def Obligations.DestinationsReceive : Prop :=
  (∀ (v : Wide) (i : Fin 768), (destWrites false v (.v i)).1 = [.v i.val (v.setWidth 32)] ∧
    (destWrites true v (.v i)).1 = [.v i.val (v.setWidth 32), .v (i.val + 1) (v.extractLsb' 32 32)]) ∧
  (∀ (v : Wide) (i : Fin 64), (destWrites false v (.s i)).1 = [.s i.val (v.setWidth 32)] ∧
    (destWrites true v (.s i)).1 = [.s i.val (v.setWidth 32), .s (i.val + 1) (v.extractLsb' 32 32)]) ∧
  (∀ (v : Wide) (i : Fin 8), i ≠ 0 → (destWrites false v (.p i)).1 = [.p i.val (v.setWidth 32 ≠ 0)] ∧
    (destWrites true v (.p i)).1 = [.p i.val (v ≠ 0)]) ∧
  (∀ (w : Bool) (v : Wide), (destWrites w v (.p 0)).1 = []) ∧
  ∀ (g : Group) (th : Thread), committedReg g th (.p 0) = 1

/-- `nop` completes without an effect on a thread: its results, effect, loads and stores stay as they were, and no register
changes and no byte of memory.  It passes its checks only with every operand field and the modifier 0, and the all-zero word
is `nop` (R158). -/
def Obligations.NopDoesNothing : Prop :=
  (∀ w, Completes (.nop w) (fun _ => True) fun t x => ∃ seg, segOf t x.t = some seg ∧ seg.results = x.th.seg.results ∧
    seg.effect = x.th.seg.effect ∧ seg.loads = x.th.seg.loads ∧ seg.stores = x.th.seg.stores) ∧
  (∀ w s t, exec (.nop w) s = .next t → SameRegisters s t ∧ SameMemory s t) ∧
  (∀ w x, Clear (.nop w) x = true → w.m.rsv = 0 ∧ w.d.code = 0 ∧ w.a.code = 0 ∧ w.b.code = 0 ∧ w.c.code = 0) ∧
  (∀ w x, Clear (.nop w) x = true → writesResult (.nop w) = false) ∧
  decodeWords [0] = .ok (.nop ⟨⟨false, 0, none⟩, ⟨0⟩, .v 0, .v 0, .v 0, .v 0⟩, [])

/-! ## Float instructions -/

/-- How a float source is read: a register supplies its low 32 or 16 bits, and in a packed operation element 1 lies in bits
[31:16]; an FP32 constant is the pattern of R33 (R33, R79, R90).
Rounding is correct: any finite value becomes the magnitude that R81 chooses between its two neighbours, or the
overflow of R81, and every pattern of a format is the rounding of its own value. -/
def Obligations.SourcesAndRounding : Prop :=
  (
    (∀ (x : Site) (m : ModFL) (i : Fin 768) (j : Nat), j < 2 →
      elemAt m (x.fl m (.v i)) j =
        (if m.x2 then ((x.reg (.v i.val)).extractLsb' (16 * j) 16).toNat
         else (x.reg (.v i.val)).toNat % 2 ^ fmtWidth m.fmt.toNat)) ∧
    ∀ (x : Site) (m : ModFL) (i : Fin 16), m.fmt = 0 → m.x2 = false → elemAt m (x.fl m (.flt i)) 0 = (fltPattern i.val).toNat) ∧
  (
    (∀ (fmt rnd : Nat) (neg : Bool) (m : Nat) (e : Int), fmt < 3 → rnd < 4 →
      RoundsTo fmt rnd neg (exactly ((m : Rat) * 2 ^ e)) (packVal fmt rnd (.fin neg m e))) ∧
    ∀ (fmt rnd x : Nat), fmt < 3 → x < 2 ^ fmtWidth fmt → isNan fmt x = false → packVal fmt rnd (unpack fmt x) = x)

/-- A result word holds the one element, or in a packed operation element 0 in its low half and element 1 in its high half;
`sat` makes NaN and every value below +0 a +0 and every value above 1.0 a 1.0 (R79, R82).
`fadd`, `fsub`, `fmul` and `ffma`: each element of the result is the exact sum, difference, product, or product plus c,
rounded once; `sat` clamps it afterwards (R79-R82, R91).
`fdiv`, `frcp`, `fsqrt` and `fscale`: the exact quotient, reciprocal, square root or product with a power of two, rounded
once, with the special results of R94 (R80, R81, R91).
`frnd` gives the integral value of R81's direction, exactly, with the sign of the source; `ffrac` gives a - floor(a)
rounded toward zero, and NaN for an infinity (R91, R94). -/
def Obligations.FloatArithmetic : Prop :=
  (
    let one := fun fmt => fmtBias fmt * 2 ^ fracBits fmt
    (∀ fmt < 3, ∀ bits < 2 ^ fmtWidth fmt, satBits fmt bits = match unpack fmt bits with
      | .nan | .inf true | .fin true _ _ => 0
      | .inf false => one fmt
      | .fin false m e => if (FVal.fin false m e).number ≤ 1 then bits else one fmt) ∧
    ∀ (m : ModFL) (r : Nat → Nat) (d : Operand), (m.x2 = true → m.fmt ≠ 0) → (∀ j < 2, r j < 2 ^ fmtWidth m.fmt.toNat) →
      let last := fun j => if m.sat then satBits m.fmt.toNat (r j) else r j
      flResult m r d = destWrites false (if m.x2
        then (BitVec.ofNat 16 (last 1) ++ BitVec.ofNat 16 (last 0) : Word).setWidth 64
        else BitVec.ofNat 64 (last 0)) d) ∧
  (
    (∀ w, Completes (.fadd w) (fun _ => True) fun t x => ∃ r : Nat → Nat,
      (∀ j < 2, SumRounds w.m.fmt.toNat w.m.rnd.toNat (elemFl w.m (x.fl w.m w.a) j) (elemFl w.m (x.fl w.m w.b) j) (r j)) ∧
      resultsOf t x.t = some (done (flResult w.m r w.d) :: x.th.seg.results)) ∧
    (∀ w, Completes (.fsub w) (fun _ => True) fun t x => ∃ r : Nat → Nat,
      (∀ j < 2, SumRounds w.m.fmt.toNat w.m.rnd.toNat (elemFl w.m (x.fl w.m w.a) j) (negVal (elemFl w.m (x.fl w.m w.b) j)) (r j)) ∧
      resultsOf t x.t = some (done (flResult w.m r w.d) :: x.th.seg.results)) ∧
    (∀ w, Completes (.fmul w) (fun _ => True) fun t x => ∃ r : Nat → Nat,
      (∀ j < 2, ProductRounds w.m.fmt.toNat w.m.rnd.toNat (elemFl w.m (x.fl w.m w.a) j) (elemFl w.m (x.fl w.m w.b) j) (r j)) ∧
      resultsOf t x.t = some (done (flResult w.m r w.d) :: x.th.seg.results)) ∧
    ∀ w, Completes (.ffma w) (fun _ => True) fun t x => ∃ r : Nat → Nat,
      (∀ j < 2, SumRounds w.m.fmt.toNat w.m.rnd.toNat
        (mulVal (elemFl w.m (x.fl w.m w.a) j) (elemFl w.m (x.fl w.m w.b) j)) (elemFl w.m (x.fl w.m w.c) j) (r j)) ∧
      resultsOf t x.t = some (done (flResult w.m r w.d) :: x.th.seg.results)) ∧
  (
    (∀ w, Completes (.fdiv w) (fun _ => True) fun t x => ∃ r : Nat → Nat,
      (∀ j < 2, QuotientRounds w.m.fmt.toNat w.m.rnd.toNat (elemFl w.m (x.fl w.m w.a) j) (elemFl w.m (x.fl w.m w.b) j) (r j)) ∧
      resultsOf t x.t = some (done (flResult w.m r w.d) :: x.th.seg.results)) ∧
    (∀ w, Completes (.frcp w) (fun _ => True) fun t x => ∃ r : Nat → Nat,
      (∀ j < 2, QuotientRounds w.m.fmt.toNat w.m.rnd.toNat (.fin false 1 0) (elemFl w.m (x.fl w.m w.a) j) (r j)) ∧
      resultsOf t x.t = some (done (flResult w.m r w.d) :: x.th.seg.results)) ∧
    (∀ w, Completes (.fsqrt w) (fun _ => True) fun t x => ∃ r : Nat → Nat,
      (∀ j < 2, RootRounds w.m.fmt.toNat w.m.rnd.toNat (elemFl w.m (x.fl w.m w.a) j) (r j)) ∧
      resultsOf t x.t = some (done (flResult w.m r w.d) :: x.th.seg.results)) ∧
    ∀ w, Completes (.fscale w) (fun _ => True) fun t x => ∃ r : Nat → Nat,
      (∀ j < 2,
        let n : Int := if w.m.x2 then ((x.read32 w.b).extractLsb' (16 * j) 16).toInt else (x.read32 w.b).toInt
        match elemFl w.m (x.fl w.m w.a) j with
        | .fin neg m e => RoundsTo w.m.fmt.toNat w.m.rnd.toNat neg (exactly ((m : Rat) * 2 ^ (e + n))) (r j)
        | v => ValueRounds w.m.fmt.toNat w.m.rnd.toNat v (r j)) ∧
      resultsOf t x.t = some (done (flResult w.m r w.d) :: x.th.seg.results)) ∧
  (
    (∀ w, Completes (.frnd w) (fun _ => True) fun t x => ∃ r : Nat → Nat,
      (∀ j < 2, match elemFl w.m (x.fl w.m w.a) j with
        | .fin neg m e => ∃ c < infBits w.m.fmt.toNat, r j = signBit w.m.fmt.toNat neg + c ∧
            magnitude w.m.fmt.toNat c = |(roundRat w.m.rnd.toNat (FVal.fin neg m e).number : Rat)|
        | v => ValueRounds w.m.fmt.toNat 0 v (r j)) ∧
      resultsOf t x.t = some (done (flResult w.m r w.d) :: x.th.seg.results)) ∧
    ∀ w, Completes (.ffrac w) (fun _ => True) fun t x => ∃ r : Nat → Nat,
      (∀ j < 2, match elemFl w.m (x.fl w.m w.a) j with
        | .fin neg m e =>
          let q := (FVal.fin neg m e).number
          RoundsTo w.m.fmt.toNat 1 false (exactly (q - q.floor)) (r j)
        | _ => r j = canonicalNan w.m.fmt.toNat) ∧
      resultsOf t x.t = some (done (flResult w.m r w.d) :: x.th.seg.results))

/-- The five approximating instructions complete, and their special sources give the results of R94: zeros, infinities,
negative sources and NaN, and for `fsin` an integral source (R91, R94); the bounds of R93 are `ApproximationBounds`. -/
def Obligations.ApproximationsAndSpecialSources : Prop :=
  (∀ w, Delivers (.frsq w) fun x => flResult w.m (fun j => rsqrtBits w.m.fmt.toNat (elemAt w.m (x.fl w.m w.a) j)) w.d) ∧
  (∀ w, Delivers (.fexp2 w) fun x => flResult w.m (fun j => exp2Bits w.m.fmt.toNat (elemAt w.m (x.fl w.m w.a) j)) w.d) ∧
  (∀ w, Delivers (.flog2 w) fun x => flResult w.m (fun j => log2Bits w.m.fmt.toNat (elemAt w.m (x.fl w.m w.a) j)) w.d) ∧
  (∀ w, Delivers (.fsin w) fun x => flResult w.m (fun j => trigBits false w.m.fmt.toNat (elemAt w.m (x.fl w.m w.a) j)) w.d) ∧
  (∀ w, Delivers (.fcos w) fun x => flResult w.m (fun j => trigBits true w.m.fmt.toNat (elemAt w.m (x.fl w.m w.a) j)) w.d) ∧
  ∀ fmt < 3,
    let one := fmtBias fmt * 2 ^ fracBits fmt
    let plus := infBits fmt
    let minus := signBit fmt true + infBits fmt
    let minusZero := signBit fmt true
    let nan := canonicalNan fmt
    (rsqrtBits fmt 0 = plus ∧ rsqrtBits fmt minusZero = minus ∧ rsqrtBits fmt plus = 0 ∧ rsqrtBits fmt minus = nan) ∧
    (exp2Bits fmt 0 = one ∧ exp2Bits fmt minusZero = one ∧ exp2Bits fmt plus = plus ∧ exp2Bits fmt minus = 0) ∧
    (log2Bits fmt 0 = minus ∧ log2Bits fmt minusZero = minus ∧ log2Bits fmt plus = plus ∧ log2Bits fmt minus = nan) ∧
    (trigBits false fmt 0 = 0 ∧ trigBits false fmt minusZero = minusZero ∧ trigBits false fmt plus = nan ∧ trigBits false fmt minus = nan) ∧
    (trigBits true fmt 0 = one ∧ trigBits true fmt minusZero = one ∧ trigBits true fmt plus = nan ∧ trigBits true fmt minus = nan) ∧
    (∀ x, isNan fmt x = true → rsqrtBits fmt x = nan ∧ exp2Bits fmt x = nan ∧ log2Bits fmt x = nan ∧
      trigBits false fmt x = nan ∧ trigBits true fmt x = nan) ∧
    (∀ x m e, unpack fmt x = .fin true m e → m ≠ 0 → rsqrtBits fmt x = nan ∧ log2Bits fmt x = nan) ∧
    ∀ x neg m e, unpack fmt x = .fin neg m e → (FVal.fin neg m e).number.den = 1 → trigBits false fmt x = signBit fmt neg

/-- `fmin`, `fmax` and `fclamp` write one of their sources bit for bit, or the canonical NaN: -0 is below +0, and a single
NaN source gives the other source.  `fabs` and `fneg` act on the sign bit alone (R91, R92).
`fcmp`: zeros compare equal; a NaN source makes only `ne` and `un` true; otherwise the sources are compared as numbers
(R95).  For all of them -infinity lies below and +infinity above every finite value. -/
def Obligations.FloatChoices : Prop :=
  (
    (∀ w, Delivers (.fmin w) fun x => flResult w.m (fun j =>
      pickBits w.m.fmt.toNat false (elemAt w.m (x.fl w.m w.a) j) (elemAt w.m (x.fl w.m w.b) j)) w.d) ∧
    (∀ w, Delivers (.fmax w) fun x => flResult w.m (fun j =>
      pickBits w.m.fmt.toNat true (elemAt w.m (x.fl w.m w.a) j) (elemAt w.m (x.fl w.m w.b) j)) w.d) ∧
    (∀ w, Delivers (.fclamp w) fun x => flResult w.m (fun j =>
      pickBits w.m.fmt.toNat false
        (pickBits w.m.fmt.toNat true (elemAt w.m (x.fl w.m w.a) j) (elemAt w.m (x.fl w.m w.b) j))
        (elemAt w.m (x.fl w.m w.c) j)) w.d) ∧
    (∀ w, Delivers (.fabs w) fun x => flResult w.m (fun j =>
      elemAt w.m (x.fl w.m w.a) j % 2 ^ (fmtWidth w.m.fmt.toNat - 1)) w.d) ∧
    (∀ w, Delivers (.fneg w) fun x => flResult w.m (fun j =>
      (elemAt w.m (x.fl w.m w.a) j) ^^^ 2 ^ (fmtWidth w.m.fmt.toNat - 1)) w.d) ∧
    ∀ (fmt a b : Nat) (greater : Bool), fmt < 3 → a < 2 ^ fmtWidth fmt → b < 2 ^ fmtWidth fmt →
      (isNan fmt a = true → isNan fmt b = true → pickBits fmt greater a b = canonicalNan fmt) ∧
      (isNan fmt a = true → isNan fmt b = false → pickBits fmt greater a b = b) ∧
      (isNan fmt a = false → isNan fmt b = true → pickBits fmt greater a b = a) ∧
      (∀ p m e q n f, unpack fmt a = .fin p m e → unpack fmt b = .fin q n f →
        pickBits fmt greater a b =
          (if (FVal.fin p m e).number < (FVal.fin q n f).number then (if greater then b else a)
           else if (FVal.fin q n f).number < (FVal.fin p m e).number then (if greater then a else b)
           else if p then (if greater then b else a) else (if greater then a else b))) ∧
      (∀ p, unpack fmt a = .inf p → isNan fmt b = false → pickBits fmt greater a b = if p = greater then b else a) ∧
      (∀ q, unpack fmt b = .inf q → isNan fmt a = false → pickBits fmt greater a b = if q = greater then a else b)) ∧
  (
    (∀ w, Delivers (.fcmp w) fun x => destWrites false
      (if fcmpHolds w.m.fmt.toNat w.m.cond.toNat (x.float w.m.fmt.toNat false w.a) (x.float w.m.fmt.toNat false w.b)
       then 1 else 0) w.d) ∧
    (∀ (fmt cond a b : Nat), fmt < 3 → cond < 8 → a < 2 ^ fmtWidth fmt → b < 2 ^ fmtWidth fmt →
      (isNan fmt a = true ∨ isNan fmt b = true) → fcmpHolds fmt cond a b = decide (cond = 1 ∨ cond = 6)) ∧
    ∀ (fmt a b : Nat) p m e q n f, fmt < 3 → a < 2 ^ fmtWidth fmt → b < 2 ^ fmtWidth fmt →
      unpack fmt a = .fin p m e → unpack fmt b = .fin q n f →
      let u := (FVal.fin p m e).number
      let v := (FVal.fin q n f).number
      fcmpHolds fmt 0 a b = decide (u = v) ∧ fcmpHolds fmt 1 a b = decide (u ≠ v) ∧ fcmpHolds fmt 2 a b = decide (u < v) ∧
      fcmpHolds fmt 3 a b = decide (u ≤ v) ∧ fcmpHolds fmt 4 a b = decide (v < u) ∧ fcmpHolds fmt 5 a b = decide (v ≤ u) ∧
      fcmpHolds fmt 6 a b = false ∧ fcmpHolds fmt 7 a b = true) ∧
  ∀ (fmt a b : Nat) (p : Bool), fmt < 3 → a < 2 ^ fmtWidth fmt → b < 2 ^ fmtWidth fmt → unpack fmt a = .inf p →
    (∀ cond, fcmpHolds fmt cond a a = decide (cond ∉ [1, 2, 4, 6])) ∧
    (isNan fmt b = false → b ≠ a →
      fcmpHolds fmt 0 a b = false ∧ fcmpHolds fmt 1 a b = true ∧ fcmpHolds fmt 2 a b = p ∧ fcmpHolds fmt 3 a b = p ∧
      fcmpHolds fmt 4 a b = (!p) ∧ fcmpHolds fmt 5 a b = (!p) ∧ fcmpHolds fmt 6 a b = false ∧ fcmpHolds fmt 7 a b = true ∧
      fcmpHolds fmt 0 b a = false ∧ fcmpHolds fmt 1 b a = true ∧ fcmpHolds fmt 2 b a = (!p) ∧ fcmpHolds fmt 3 b a = (!p) ∧
      fcmpHolds fmt 4 b a = p ∧ fcmpHolds fmt 5 b a = p ∧ fcmpHolds fmt 6 b a = false ∧ fcmpHolds fmt 7 b a = true)

/-- `cvtf` rounds an integer or a float once to the destination format (R96); `cvti` rounds a float to an integer in the
direction `rnd`, clamps it under `sat` and otherwise reduces it modulo 2^n, with NaN 0 and the infinities at the ends of
the range or 0, and extends it to the destination (R97).
`dqnt` and `sclx`: the exact product of the element and its scale, or the scale itself, rounded once; an invalid scale or
an F8 NaN gives the canonical NaN (R83-R86, R98, R100, R101).  `qnt` and `sclenc` complete with the codes of R99 and R102. -/
def Obligations.ConversionsRound : Prop :=
  (
    (∀ w, Completes (.cvtf w) (fun _ => True) fun t x => ∃ bits : Nat,
      (let a := x.read (wideType w.m.src) w.a
       match w.m.src.toNat with
       | 0 => RoundsTo w.m.dst.toNat w.m.rnd.toNat ((a.setWidth 8).toInt < 0) (exactly |((a.setWidth 8).toInt : Rat)|) bits
       | 1 => RoundsTo w.m.dst.toNat w.m.rnd.toNat ((a.setWidth 16).toInt < 0) (exactly |((a.setWidth 16).toInt : Rat)|) bits
       | 2 => RoundsTo w.m.dst.toNat w.m.rnd.toNat ((a.setWidth 32).toInt < 0) (exactly |((a.setWidth 32).toInt : Rat)|) bits
       | 3 => RoundsTo w.m.dst.toNat w.m.rnd.toNat (a.toInt < 0) (exactly |(a.toInt : Rat)|) bits
       | 4 => RoundsTo w.m.dst.toNat w.m.rnd.toNat false (exactly ((a.setWidth 8).toNat : Rat)) bits
       | 5 => RoundsTo w.m.dst.toNat w.m.rnd.toNat false (exactly ((a.setWidth 16).toNat : Rat)) bits
       | 6 => RoundsTo w.m.dst.toNat w.m.rnd.toNat false (exactly ((a.setWidth 32).toNat : Rat)) bits
       | 7 => RoundsTo w.m.dst.toNat w.m.rnd.toNat false (exactly (a.toNat : Rat)) bits
       | 8 => ValueRounds w.m.dst.toNat w.m.rnd.toNat (unpack 1 (x.float 1 false w.a)) bits
       | 9 => ValueRounds w.m.dst.toNat w.m.rnd.toNat (unpack 2 (x.float 2 false w.a)) bits
       | _ => ValueRounds w.m.dst.toNat w.m.rnd.toNat (unpack 0 (x.float 0 false w.a)) bits) ∧
      resultsOf t x.t = some (done (destWrites false (BitVec.ofNat 64 bits) w.d) :: x.th.seg.results)) ∧
    ∀ w, Delivers (.cvti w) fun x =>
      let n := 8 * 2 ^ (w.m.dst.toNat % 4)
      let signed := w.m.dst.toNat < 4
      let lo : Int := if signed then -2 ^ (n - 1) else 0
      let hi : Int := if signed then 2 ^ (n - 1) - 1 else 2 ^ n - 1
      let i : Int := match unpack w.m.src.toNat (x.float w.m.src.toNat false w.a) with
        | .nan => 0
        | .inf neg => if w.m.sat then (if neg then lo else hi) else 0
        | .fin neg m e =>
          let k := roundRat w.m.rnd.toNat (FVal.fin neg m e).number
          if w.m.sat then max lo (min hi k)
          else if signed then (k + 2 ^ (n - 1)) % 2 ^ n - 2 ^ (n - 1) else k % 2 ^ n
      destWrites (wideType w.m.dst) (if n = 64 then BitVec.ofInt 64 i else (BitVec.ofInt 32 i).setWidth 64) w.d) ∧
  (
    let scale := fun (slot : Wide) (code : Nat) =>
      if slot.getLsbD 6 then (1 + (code % 8 : Nat) / 8 : Rat) * 2 ^ ((code / 8 : Nat) - 15 : Int) else (2 : Rat) ^ ((code : Int) - 127)
    (∀ w, Completes (.dqnt w) (fun _ => True) fun t x => ∃ bits : Nat,
      (let slot := x.pass.slots.getD w.m.slot.toNat 0
       let code := (x.read32 w.b).toNat % 256
       if code = 0xFF then bits = canonicalNan w.m.fmt.toNat
       else match elemVal (slot.extractLsb' 1 3).toNat (x.read32 w.a).toNat with
         | .fin neg m e => RoundsTo w.m.fmt.toNat w.m.rnd.toNat neg (exactly ((m : Rat) * 2 ^ e * scale slot code)) bits
         | _ => bits = canonicalNan w.m.fmt.toNat) ∧
      resultsOf t x.t = some (done (destWrites false (BitVec.ofNat 64 bits) w.d) :: x.th.seg.results)) ∧
    (∀ w, Completes (.sclx w) (fun _ => True) fun t x => ∃ bits : Nat,
      (let slot := x.pass.slots.getD w.m.slot.toNat 0
       let code := (x.read32 w.a).toNat % 256
       if code = 0xFF then bits = canonicalNan w.m.fmt.toNat
       else RoundsTo w.m.fmt.toNat w.m.rnd.toNat false (exactly (scale slot code)) bits) ∧
      resultsOf t x.t = some (done (destWrites false (BitVec.ofNat 64 bits) w.d) :: x.th.seg.results)) ∧
    (∀ w, Delivers (.qnt w) fun x => destWrites false (BitVec.ofNat 64
      (qntCode (x.pass.slots.getD w.m.slot.toNat 0) w.m.fmt.toNat w.m.rnd.toNat (x.float w.m.fmt.toNat false w.a)
        (x.read32 w.b).toNat)) w.d) ∧
    ∀ w, Delivers (.sclenc w) fun x => destWrites false (BitVec.ofNat 64
      (sclencCode (x.pass.slots.getD w.m.slot.toNat 0) w.m.fmt.toNat w.m.rnd.toNat (x.float w.m.fmt.toNat false w.a))) w.d)

/-- The codes that `qnt` and `sclenc` write (R99, R102): an invalid scale or a NaN source gives the invalid code; an integer
element is the exact quotient rounded once and clamped; an F4 or F8 element is the exact quotient rounded once to the values of
its format, the largest one beyond its range, with its sign, also that of a zero; an infinity saturates.  A scale of a zero, a
negative source, NaN or an infinity is as the rule lists it, and a positive finite source is rounded once to the scales of the
codes 0x00 to 0xFE, the ends beyond their range. -/
def Obligations.QuantisedCodes : Prop :=
  (∀ (slot : Wide) (fmt rnd a b : Nat), (slot.extractLsb' 1 3).toNat < 4 →
    (b % 256 = 0xFF ∨ unpack fmt a = .nan) → qntCode slot fmt rnd a b = if (slot.extractLsb' 1 3).toNat = 3 then 0x7F else 0) ∧
  (∀ (slot : Wide) (fmt rnd a b : Nat) neg m e k f, (slot.extractLsb' 1 3).toNat < 2 → rnd < 4 →
    unpack fmt a = .fin neg m e → scaleOf (slot.getLsbD 6) b = some (k, f) →
    let n := 4 * (1 + (slot.extractLsb' 1 3).toNat)
    let q := (FVal.fin neg m e).number / ((k : Rat) * 2 ^ f)
    qntCode slot fmt rnd a b = (max (-2 ^ (n - 1)) (min (2 ^ (n - 1) - 1) (roundRat rnd q)) % 2 ^ n : Int).toNat) ∧
  (∀ (slot : Wide) (fmt rnd a b el : Nat) neg m e k f, (slot.extractLsb' 1 3).toNat = el → el = 2 ∨ el = 3 → rnd < 4 →
    unpack fmt a = .fin neg m e → scaleOf (slot.getLsbD 6) b = some (k, f) →
    ∃ c, RoundsAmong (fun c => (elemVal el c).number) (if el = 2 then 7 else 0x7E) rnd neg
        (|(FVal.fin neg m e).number| / ((k : Rat) * 2 ^ f)) c ∧
      qntCode slot fmt rnd a b = c + if neg then (if el = 2 then 8 else 0x80) else 0) ∧
  (∀ (slot : Wide) (fmt rnd a b : Nat) neg, b % 256 ≠ 0xFF → unpack fmt a = .inf neg →
    qntCode slot fmt rnd a b = match (slot.extractLsb' 1 3).toNat with
      | 0 => if neg then 8 else 7
      | 1 => if neg then 0x80 else 0x7F
      | 2 => if neg then 0xF else 7
      | _ => if neg then 0xFE else 0x7E) ∧
  (∀ (slot : Wide) (fmt rnd a : Nat), match unpack fmt a with
    | .nan => sclencCode slot fmt rnd a = 0xFF
    | .inf neg => sclencCode slot fmt rnd a = if neg then 0xFF else 0xFE
    | .fin neg m _ => (m = 0 → sclencCode slot fmt rnd a = 0) ∧ (m ≠ 0 → neg = true → sclencCode slot fmt rnd a = 0xFF) ∧
        sclencCode slot fmt rnd a ≤ 0xFF) ∧
  ∀ (slot : Wide) (fmt rnd a : Nat) m e, rnd < 4 → unpack fmt a = .fin false m e → m ≠ 0 →
    RoundsAmong (fun c => if slot.getLsbD 6 then (1 + (c % 8 : Nat) / 8 : Rat) * 2 ^ ((c / 8 : Nat) - 15 : Int)
      else (2 : Rat) ^ ((c : Int) - 127)) 0xFE rnd false ((m : Rat) * 2 ^ e) (sclencCode slot fmt rnd a)

/-- `dot8` and `dot4`: c as a signed number plus the exact sum of the products of the elements, clamped under `sat`, its low
32 bits in d (R103); `hpack` and `hunpk` move half-words, and leave operand c unused (R104). -/
def Obligations.DotProductsAndHalves : Prop :=
  let dot := fun (n : Nat) (m : ModDT) (a b c : Word) =>
    let elem := fun (sgn : Bool) (x : Word) (j : Nat) =>
      if sgn then (x.extractLsb' (n * j) n).toInt else ((x.extractLsb' (n * j) n).toNat : Int)
    let t : Int := c.toInt + ((List.range (32 / n)).map fun j => elem m.sa a j * elem m.sb b j).sum
    BitVec.ofInt 32 (if m.sat then max (-0x8000_0000) (min 0x7FFF_FFFF t) else t)
  (∀ w, Delivers (.dot8 w) fun x =>
    destWrites false ((dot 4 w.m (x.read32 w.a) (x.read32 w.b) (x.read32 w.c)).setWidth 64) w.d) ∧
  (∀ w, Delivers (.dot4 w) fun x =>
    destWrites false ((dot 8 w.m (x.read32 w.a) (x.read32 w.b) (x.read32 w.c)).setWidth 64) w.d) ∧
  (∀ w, Delivers (.hpack w) fun x => destWrites false
    (((x.read32 w.b).setWidth 16 ++ (x.read32 w.a).setWidth 16 : Word).setWidth 64) w.d) ∧
  (∀ w, Delivers (.hunpk w) fun x => destWrites false
    ((if (x.read32 w.b).getLsbD 0 then (x.read32 w.a).extractLsb' 16 16 else (x.read32 w.a).extractLsb' 0 16).setWidth 64) w.d) ∧
  (∀ w x, Clear (.hpack w) x = true → w.c.code = 0) ∧ ∀ w x, Clear (.hunpk w) x = true → w.c.code = 0

/-! ## Memory instructions -/

/-- The element access (R107): when it passes, the record is defined, not poisoned and no foreign ring record, the element
lies in its extent, the bytes end within the segment's limit, a write meets no read-only record and no discarded page, and
the address is a multiple of the width unless the access is split; the bytes lie at consecutive addresses from
base + e × stride in the record's segment.  A split read ends early only where a byte before the end has bad data (R333).
The access faults with the code of the first check that fails (R107, R331): a poisoned record POISON, a ring record of
no tile of the group RING_VIOLATION, an undefined record or an element outside the extent BOUNDS, bytes beyond the segment
SEGMENT_LIMIT, an address that is no multiple of the width MISALIGNED. -/
def Obligations.ElementAccesses : Prop :=
  (
    ∀ (s : State) (x : Site) (n : Nat) (e : Int) (width : Nat) (u : Use) (r : BufRec) (ps : List Spot), 0 < width →
      elementAccess s x n e width u = .ok (r, ps) →
      r = bufRec (x.record n) ∧ regPoisoned x.g x.th (.b n) = false ∧ recDefined r = true ∧
      (r.ring = true → inTileTable x.g (x.record n) = true) ∧ (r.lod = true → u.lod = true) ∧
      (writes u.acc = true → r.ro = false) ∧ 0 ≤ e ∧ e < r.extent ∧
      (let seg := regNow x.g x.th (.g r.seg)
       let off := r.base + e.toNat * r.stride
       let addr := if r.ring then off else segBase seg + off
       (r.ring = false → off + width ≤ effLimit (padBytes x.pass) seg) ∧
       (addr % width = 0 ∨ (u.splits = true ∧ x.th.split = true)) ∧
       (ps.length = width ∨ (u.acc = .read ∧ addr % width ≠ 0 ∧ ps.length < width ∧
         (firstBad s x (if r.ro || u.sampler then .s else .v) ps).isSome = true)) ∧
       (∀ i < ps.length, ∃ p, ps[i]? = some p ∧ p.va = addr + i ∧
         (inPad x r = true → p.loc = .pad (addr + i)) ∧ (p.discarded = true → writes u.acc = false)))) ∧
  (
    ∀ (s : State) (x : Site) (n : Nat) (e : Int) (width : Nat) (u : Use), 0 < width →
      let b := x.record n
      let r := bufRec b
      let code := fun (c : Code) => ∃ tr, elementAccess s x n e width u = .error tr ∧ tr.code = c
      let seg := regNow x.g x.th (.g r.seg)
      let off := r.base + e.toNat * r.stride
      (regPoisoned x.g x.th (.b n) = true → code .poison) ∧
      (regPoisoned x.g x.th (.b n) = false → r.ring = true → inTileTable x.g b = false → code .ringViolation) ∧
      (regPoisoned x.g x.th (.b n) = false → r.ring = false → recDefined r = false → code .bounds) ∧
      (checkRecord x n e u = .ok r → (e < 0 ∨ (r.extent : Int) ≤ e) → code .bounds) ∧
      (checkRecord x n e u = .ok r → 0 ≤ e → e < r.extent → r.ring = false → regPoisoned x.g x.th (.g r.seg) = false →
        effLimit (padBytes x.pass) seg < off + width → code .segmentLimit) ∧
      (checkRecord x n e u = .ok r → 0 ≤ e → e < r.extent → r.ring = false → regPoisoned x.g x.th (.g r.seg) = false →
        off + width ≤ effLimit (padBytes x.pass) seg → (segBase seg + off) % width ≠ 0 →
        ¬(u.splits = true ∧ x.th.split = true) → code .misaligned))

/-- `st` whose access passes: the bytes of the source, lowest first, wait in the thread's segment for its commit, at the
places of the element, as one store or, for a split access, as one for each byte (R109, R110, R333); nothing is written
to memory.  It places its lines by its own policy, or by the record's (R111); a `.line` store in its row's line is one event
with the row's others, and one outside it sets bit 1 of `sys.mem_status` (R113).  That the row's line is that of the lowest lane
whose access passes its checks is log 22 (DEDUCED; R113 says the lowest enabled lane). -/
def Obligations.StoresWaitForCommit : Prop :=
  ∀ w : MemWord ModMM,
    let acc := fun x : Site => elementAccess x.before x w.buf.toNat ((x.read32 w.a).toInt + w.off.toInt)
      (typeWidth w.m.type.toNat) ⟨.write, false, true, false⟩
    let data := fun x : Site => if w.m.type = 11 then toBytes (quad (x.run 4 w.d)) 16
      else toBytes (x.read (wideType w.m.type) w.d) (typeWidth w.m.type.toNat)
    CompletesUnheld (.st w) (accessHeld acc) (fun x => (passed (acc x)).isSome) fun t x =>
      ∃ r ps th event, acc x = .ok (r, ps) ∧ threadAtRef t x.t = some th ∧
        let inside := w.m.line = true ∧ InLine (.st w) acc (typeWidth w.m.type.toNat) x ps
        let keep := decide (w.m.pol = 2 ∨ (w.m.pol = 0 ∧ r.policy = 2))
        let low := decide (w.m.pol = 1 ∨ (w.m.pol = 0 ∧ r.policy = 1))
        (inside → event = some x.before.serial) ∧ (¬inside → event = none) ∧
        th.seg.results = x.th.seg.results ∧ MemStatus x.th.memStatus th.memStatus False (w.m.line = true ∧ ¬inside) ∧
        th.seg.stores = x.th.seg.stores ++
          (if ps.head?.any fun p => p.va % typeWidth w.m.type.toNat ≠ 0
           then ((ps.map Spot.loc).zip (data x)).map fun c => ⟨[c], none, 0, keep, low, false⟩
           else [⟨(ps.map Spot.loc).zip (data x), event, 0, keep, low, false⟩])

/-- `ld`, `ldro` and `ldbr` whose access passes: the load reads its bytes and awaits its return; its result counts for
distances (not that of `ldbr`), is not ready yet, and names the destination.  The bytes are those the
thread sees: its own buffered stores first, then the copy of its path, V or S (R109-R112, R117; of its committed stores that
are still in the buffer, path S reads those that the thread has read there before, log 22, DEDUCED), with the first poisoned and
the first mismatching byte of the access, or, of a split access, its first bad byte (R107, R333).  A `.line` access that lies
in its row's line reads past the cache of its path: on path V what the core holds dirty and else the home slices hold, on
path S what the home slices hold: this, and that the row's line is that of the lowest lane whose access passes its checks, is
log 22 (DEDUCED from R113).  A read of a discarded page sets bit 0 of `sys.mem_status` (R108), a `.line` access
outside its line bit 1 (R113).
Loads and stores of a word of type code t move 1, 2, 4, 8 or 16 bytes; a loaded value of code 0 or 1 is sign-extended to
32 bits and one of the other codes zero-extended (R54, R109).  The returned bytes are written to d: one register, or a pair
for the 64-bit types, or four v registers for b128; those of `ldbr` to b[m] (R109, R117). -/
def Obligations.LoadsReadAndReturn : Prop :=
  (
    let loads := fun (t : State) (x : Site) (path : Path) (kind : LoadKind) (line inLine : Prop) (width : Nat)
        (ps : List Spot) =>
      ∃ th bytes ws marks, threadAtRef t x.t = some th ∧ bytes.length = ps.length ∧
        (¬(line ∧ inLine) → bytes = ps.map (spotByte x.before x path)) ∧
        (line → inLine → x.before.Inv → (∃ l, ∀ p ∈ ps, ∀ a, p.loc = .mem a → lineOf a = l) →
          ∀ j p, ps[j]? = some p →
            (p.discarded = true → bytes.getD j 0 = 0) ∧
            (p.discarded = false → ∀ b, bufferedByte x.th path p.loc = some b → bytes.getD j 0 = b) ∧
            (p.discarded = false → bufferedByte x.th path p.loc = none → match p.loc with
              | .pad o => bytes.getD j 0 = padSeen x.before x.g x.th o
              | .mem a =>
                (path = .v → bytes.getD j 0 = byteAtPlace x.before x.core x.t.group (.mem a) 0) ∧
                (path = .s → Memory.read (getCore x.before x.core).l1Dirty a = none →
                  bytes.getD j 0 = homeByte x.before (dieOf x.core) a))) ∧
        (¬(line ∧ inLine) → marks = if ps.head?.any fun p => p.va % width ≠ 0 then byteMarks x.before x path ps
            else ⟨firstPoison x.before x path ps, firstMismatch x.before x path ps⟩) ∧
        (Unmarked x.before → marks.poison = none ∧ marks.mismatch = none) ∧
        MemStatus x.th.memStatus th.memStatus (∃ p ∈ ps, p.discarded = true) (line ∧ ¬inLine) ∧
        th.seg.results = ⟨x.th.seg.results.length, loadCounts kind, false, ws, 0⟩ :: x.th.seg.results ∧
        th.seg.loads = x.th.seg.loads ++ [⟨x.th.seg.results.length, kind, bytes, marks.poison, marks.mismatch, isPaged ps⟩]
    (∀ w : MemWord ModMM,
      let acc := fun x : Site => elementAccess x.before x w.buf.toNat ((x.read32 w.a).toInt + w.off.toInt)
        (typeWidth w.m.type.toNat) ⟨.read, false, true, false⟩
      CompletesUnheld (.ld w) (accessHeld acc) (fun x => (passed (acc x)).isSome) fun t x =>
        ∃ r ps, acc x = .ok (r, ps) ∧ loads t x (if r.ro then .s else .v) (.plain w.d w.m.type.toNat) (w.m.line = true)
          (InLine (.ld w) acc (typeWidth w.m.type.toNat) x ps) (typeWidth w.m.type.toNat) ps) ∧
    (∀ w : MemWord ModMM,
      let acc := fun x : Site => elementAccess x.before x w.buf.toNat ((x.read32 w.a).toInt + w.off.toInt)
        (typeWidth w.m.type.toNat) ⟨.read, false, true, true⟩
      CompletesUnheld (.ldro w) (accessHeld acc) (fun x => (passed (acc x)).isSome) fun t x =>
        ∃ r ps, acc x = .ok (r, ps) ∧ loads t x .s (.plain w.d w.m.type.toNat) (w.m.line = true)
          (InLine (.ldro w) acc (typeWidth w.m.type.toNat) x ps) (typeWidth w.m.type.toNat) ps) ∧
    ∀ w : RawMemWord ModMM,
      let acc := fun x : Site => elementAccess x.before x w.buf.toNat ((x.read32 w.a).toInt + w.off.toInt) 16 ⟨.read, false, true, false⟩
      CompletesUnheld (.ldbr w) (accessHeld acc) (fun x => (passed (acc x)).isSome) fun t x =>
        ∃ r ps, acc x = .ok (r, ps) ∧ loads t x (if r.ro then .s else .v) (.record w.d.toNat) (w.m.line = true)
          (InLine (.ldbr w) acc (typeWidth w.m.type.toNat) x ps) (typeWidth w.m.type.toNat) ps) ∧
  (
    (∀ bytes : List Byte, bytes.length = 1 → loadedValue 0 bytes = ((BitVec.ofNat 8 (ofBytes bytes)).signExtend 32).setWidth 64 ∧
      loadedValue 4 bytes = BitVec.ofNat 64 (ofBytes bytes)) ∧
    (∀ bytes : List Byte, bytes.length = 2 → loadedValue 1 bytes = ((BitVec.ofNat 16 (ofBytes bytes)).signExtend 32).setWidth 64) ∧
    (∀ (x : BitVec 16) (t : Nat), t = 5 ∨ t = 8 ∨ t = 9 → loadedValue t (toBytes x 2) = x.setWidth 64) ∧
    (∀ (t : Nat) (d : Operand) (bytes : List Byte), t < 11 →
      returnWrites (.plain d t) bytes = destWrites (t = 3 ∨ t = 7) (loadedValue t bytes) d) ∧
    (∀ (q : BitVec 128) (i : Fin 768), (returnWrites (.plain (.v i) 11) (toBytes q 16)).1 =
      [.v i.val (q.extractLsb' 0 32), .v (i.val + 1) (q.extractLsb' 32 32), .v (i.val + 2) (q.extractLsb' 64 32),
        .v (i.val + 3) (q.extractLsb' 96 32)]) ∧
    (∀ (q : BitVec 128) (b : Nat), returnWrites (.record b) (toBytes q 16) = ([.b b q], 0)) ∧
    (∀ (t : Nat) (i : Fin 768) (st : Word) (bytes : List Byte), (returnWrites (.sampled (.v i) t st) bytes).1 =
      [.v i.val ((loadedValue t bytes).setWidth 32), .v (i.val + 1) st]) ∧
    (∀ (x : Wide) (t : Nat), t = 3 ∨ t = 7 → loadedValue t (toBytes x (typeWidth t)) = x) ∧
    (∀ (x : Word) (t : Nat), t = 2 ∨ t = 6 ∨ t = 10 → loadedValue t (toBytes x (typeWidth t)) = x.setWidth 64) ∧
    typeWidth 0 = 1 ∧ typeWidth 1 = 2 ∧ typeWidth 2 = 4 ∧ typeWidth 3 = 8 ∧ typeWidth 4 = 1 ∧ typeWidth 5 = 2 ∧
    typeWidth 6 = 4 ∧ typeWidth 7 = 8 ∧ typeWidth 8 = 2 ∧ typeWidth 9 = 2 ∧ typeWidth 10 = 4 ∧ typeWidth 11 = 16)

/-- `smp` and `smpl` through a record without a level-of-detail flag read the element as `ldro` does, on path S; `smpl` adds a
status word: code 0 for a wanted level of 0 and 3 otherwise, served level 0 (R114, R115).  Through a level-of-detail record
that passes its checks they read, on path S, the element of the first level, from the wanted one or the coarsest down, whose
page is resident, or nothing where none is, which a register receives as 0; the status names the served and the wanted level
(R115, R225).  A read of a discarded page of the element sets bit 0 of `sys.mem_status` (R108); that one of the descriptor or
the map does too is log 26 (DEDUCED).  `pref` and `resh` that pass the checks of R58 complete whatever their address: they leave
no result, no access, no effect and no fault but POISON of a register (R118), and each of them that cannot be performed is
counted in `sys.hint_drops` (R119); that `resh` through a level-of-detail record whose page is absent appends its entry and is
not counted is log 26 (DESIGN CHOICE). -/
def Obligations.SampledLoads : Prop :=
  let zero := fun (x : Site) (th : Thread) (ps : List Spot) =>
    MemStatus x.th.memStatus th.memStatus (∃ p ∈ ps, p.discarded = true) False
  let marked := fun (x : Site) (th : Thread) (h : LodHit) => MemStatus x.th.memStatus th.memStatus
    ((∃ p ∈ h.desc.spots ++ h.spots, p.discarded = true) ∨
      ∃ n ∈ h.bits, ∃ a, translate x.before x.core (h.desc.map_ + n / 8) .read = .ok a true) False
  (∀ w : MemWord ModMM,
    let e := fun x : Site => (x.read32 w.a).toInt + w.off.toInt
    let width := typeWidth w.m.type.toNat
    CompletesUnheld (.smp w) (sampleHeld w.buf w.m.type.toNat e fun _ => 0)
      (fun x => if lodFlag x w.buf then (passed (lodAccess x w.buf.toNat (e x) 0 width)).isSome
        else (passed (plainSample x w.buf (e x) w.m.type.toNat)).isSome) fun t x =>
      ∃ th load ws, threadAtRef t x.t = some th ∧ load.kind = .plain w.d w.m.type.toNat ∧
        th.seg.results = ⟨x.th.seg.results.length, true, false, ws, 0⟩ :: x.th.seg.results ∧
        th.seg.loads = x.th.seg.loads ++ [load] ∧ load.id = x.th.seg.results.length ∧
        if lodFlag x w.buf then ∃ h, lodAccess x w.buf.toNat (e x) 0 width = .ok h ∧
          load.bytes = h.spots.map (spotByte x.before x .s) ∧ marked x th h
        else ∃ r ps, plainSample x w.buf (e x) w.m.type.toNat = .ok (r, ps) ∧
          load.bytes = ps.map (spotByte x.before x .s) ∧ zero x th ps) ∧
  (∀ w : MemWord ModMM,
    let pair := fun x : Site => x.run 2 w.a
    let e := fun x : Site => ((pair x).getD 0 0).toInt + w.off.toInt
    let l := fun x : Site => ((pair x).getD 1 0).toNat % 16
    let width := typeWidth w.m.type.toNat
    CompletesUnheld (.smpl w) (sampleHeld w.buf w.m.type.toNat e l)
      (fun x => if lodFlag x w.buf then (passed (lodAccess x w.buf.toNat (e x) (l x) width)).isSome
        else (passed (plainSample x w.buf (e x) w.m.type.toNat)).isSome) fun t x =>
      ∃ th load ws st, threadAtRef t x.t = some th ∧ load.kind = .sampled w.d w.m.type.toNat st ∧
        th.seg.results = ⟨x.th.seg.results.length, true, false, ws, 0⟩ :: x.th.seg.results ∧
        th.seg.loads = x.th.seg.loads ++ [load] ∧ load.id = x.th.seg.results.length ∧
        if lodFlag x w.buf then ∃ h, lodAccess x w.buf.toNat (e x) (l x) width = .ok h ∧ st = h.status ∧
          load.bytes = h.spots.map (spotByte x.before x .s) ∧ marked x th h
        else st = BitVec.ofNat 32 ((if l x = 0 then 0 else 3) + 256 * l x) ∧
          ∃ r ps, plainSample x w.buf (e x) w.m.type.toNat = .ok (r, ps) ∧
            load.bytes = ps.map (spotByte x.before x .s) ∧ zero x th ps) ∧
  (∀ (x : Site) (n : Nat) (e : Int) (wanted width : Nat) (h : LodHit), lodAccess x n e wanted width = .ok h →
    let d := h.desc
    let l := min wanted d.coarsest
    let coarser := fun p : Nat × Nat × Nat =>
      (p.1 + 1, min (p.2.1 / 2) (d.w (p.1 + 1) - 1), min (p.2.2 / 2) (d.h (p.1 + 1) - 1))
    let at_ := fun j => coarser^[j] (l, e.toNat % d.w l, e.toNat / d.w l)
    let served := fun j => lodServed x.before x h.rec_ d width (at_ j).1 (at_ j).2.1 (at_ j).2.2 = true
    (∃ j, l + j ≤ d.coarsest ∧ served j ∧ (∀ i < j, ¬served i) ∧
      h.status = BitVec.ofNat 32 ((if j = 0 then (if d.coarsest < wanted then 3 else 0) else 1) + 16 * (l + j) + 256 * wanted) ∧
      ∃ addr, segmentAddr x h.rec_ (d.offset h.rec_.stride (at_ j).1 (at_ j).2.1 (at_ j).2.2) width = .ok addr ∧
        placeBytes x.before x h.rec_ addr width ⟨.read, true, true, true⟩ = .ok h.spots) ∨
    ((∀ j, l + j ≤ d.coarsest → ¬served j) ∧ h.status = BitVec.ofNat 32 (2 + 16 * 15 + 256 * wanted) ∧ h.spots = [])) ∧
  (∀ t d st, returnWrites (.plain d t) [] = returnWrites (.plain d t) (List.replicate (typeWidth t) 0) ∧
    returnWrites (.sampled d t st) [] = runWrites [0, st] d) ∧
  let hint := fun (i : Instr) (held : Site → Bool) (own : Site → Prop) (drops : Site → Bool) =>
    CompletesUnheld i held own (fun t x => ThreadIs t x.t fun th => th.seg.results = x.th.seg.results ∧
      th.seg.loads = x.th.seg.loads ∧ th.seg.stores = x.th.seg.stores ∧ th.seg.effect = x.th.seg.effect ∧
      th.system = x.th.system ∧ (th.status = x.th.status ∨ th.status = .committing)) ∧
    ∀ s b, AtWord s b → (∀ x ∈ turnSites s s.focus b i, Proceeds i x) → NoneParks i own (turnSites s s.focus b i) →
      (∀ x ∈ turnSites s s.focus b i, Clear i x → held x = false) →
      Goes (exec i s) fun t => (getCore t s.focus).hintDrops = (getCore s s.focus).hintDrops +
        BitVec.ofNat 32 ((turnSites s s.focus b i).countP fun x => Clear i x && drops x)
  let failing := fun {α : Type} (a : Except Trouble α) (bad : α → Bool) => match a with
    | .error tr => decide (tr.code ≠ .poison)
    | .ok v => bad v
  let plain := fun (w : MemWord ModMM) (x : Site) => elementAccess x.before x w.buf.toNat
    ((x.read32 w.a).toInt + w.off.toInt) (typeWidth w.m.type.toNat) ⟨.read, true, false, true⟩
  (∀ w, hint (.pref w) (prefHeld w) (fun x => ∀ tr, prefSpots w x = .error tr → tr.code ≠ .poison)
    fun x => failing (prefSpots w x) fun ps => ps.any Spot.discarded) ∧
  ∀ w, hint (.resh w) (reshHeld w)
    (fun x => if lodFlag x w.buf then ∀ tr, reshFeedback x w = .error tr → tr.code ≠ .poison
      else ∀ tr, plain w x = .error tr → tr.code ≠ .poison)
    fun x => if lodFlag x w.buf then failing (reshFeedback x w) fun _ => false
      else failing (plain w x) fun r => r.2.any Spot.discarded

/-- The approximating instructions meet the bounds of R93 for every finite source in their domain: `frsq` of a positive
source within 1 ulp; `fexp2` within 2 ulp in FP32 and 1 in FP16 and BF16, where the result lies within the format (beyond it
R93 states none, log 6); `flog2` within 2 and 1 ulp, but within 2^-22 in FP32 for sources from 0.5 to 2; `fsin` and `fcos` of
2 pi times the source within 2^-22, 2^-10 and 2^-7. -/
def Obligations.ApproximationBounds : Prop :=
  ∀ fmt < 3, ∀ src < 2 ^ fmtWidth fmt, ∀ neg m e, unpack fmt src = .fin neg m e →
    let a : ℝ := ((FVal.fin neg m e).number : ℝ)
    let k := if fmt = 0 then 2 else 1
    let small : ℝ := if fmt = 0 then 2 ^ (-22 : Int) else if fmt = 1 then 2 ^ (-10 : Int) else 2 ^ (-7 : Int)
    (0 < a → WithinUlps fmt (rsqrtBits fmt src) 1 (1 / Real.sqrt a)) ∧
    (a < fmtBias fmt + 1 → WithinUlps fmt (exp2Bits fmt src) k ((2 : ℝ) ^ a)) ∧
    (0 < a → if fmt = 0 ∧ 1 / 2 ≤ a ∧ a ≤ 2 then FiniteWithin fmt (log2Bits fmt src) (Real.logb 2 a) small
      else WithinUlps fmt (log2Bits fmt src) k (Real.logb 2 a)) ∧
    FiniteWithin fmt (trigBits false fmt src) (Real.sin (2 * Real.pi * a)) small ∧
    FiniteWithin fmt (trigBits true fmt src) (Real.cos (2 * Real.pi * a)) small

/-! ## Effect instructions -/

/-- The eight atomics: an access that passes its checks becomes an effect of the segment, with the operation, the type, the
scope and the ordering of its modifier, the place of the element, the data read from d, and the instruction's own address
(R120, R121, R123).
The six reductions, likewise; they return nothing (R120, R123). -/
def Obligations.AtomicsAndReductionsIssueAtCommit : Prop :=
  (
    let acc := fun (w : MemWord ModAT) (x : Site) => elementAccess x.before x w.buf.toNat
      ((x.read32 w.a).toInt + w.off.toInt) (typeWidth w.m.type.toNat) ⟨.atomic, false, false, false⟩
    let effect := fun (op : AtomicOp) (w : MemWord ModAT) (x : Site) => accessed (acc w x) fun loc va =>
      .atomic op w.m.type.toNat w.m.scope.toNat w.m.ord.toNat loc va (x.read (wideType w.m.type) w.d) 0 w.d
        x.before.serial x.pc x.hdr
    (∀ w, Issues (.aadd w) (accessHeld (acc w)) (effect .add w)) ∧ (∀ w, Issues (.amin w) (accessHeld (acc w)) (effect .min w)) ∧
    (∀ w, Issues (.amax w) (accessHeld (acc w)) (effect .max w)) ∧ (∀ w, Issues (.aand w) (accessHeld (acc w)) (effect .and w)) ∧
    (∀ w, Issues (.aor w) (accessHeld (acc w)) (effect .or w)) ∧ (∀ w, Issues (.axor w) (accessHeld (acc w)) (effect .xor w)) ∧
    (∀ w, Issues (.axchg w) (accessHeld (acc w)) (effect .xchg w)) ∧
    ∀ w, Issues (.acas w) (accessHeld (acc w)) fun x => accessed (acc w x) fun loc va =>
      let four := x.run 4 w.d
      let pair := x.read true w.d
      .atomic .cas w.m.type.toNat w.m.scope.toNat w.m.ord.toNat loc va
        (if wideType w.m.type then four.getD 1 0 ++ four.getD 0 0 else (pair.setWidth 32).setWidth 64)
        (if wideType w.m.type then four.getD 3 0 ++ four.getD 2 0 else pair >>> 32) w.d x.before.serial x.pc x.hdr) ∧
  (
    let acc := fun (w : MemWord ModAT) (x : Site) => elementAccess x.before x w.buf.toNat
      ((x.read32 w.a).toInt + w.off.toInt) (typeWidth w.m.type.toNat) ⟨.atomic, false, false, false⟩
    let effect := fun (op : AtomicOp) (w : MemWord ModAT) (x : Site) => accessed (acc w x) fun loc va =>
      .reduction op w.m.type.toNat w.m.scope.toNat w.m.ord.toNat loc va (x.read (wideType w.m.type) w.d) x.before.serial
    (∀ w, Issues (.redadd w) (accessHeld (acc w)) (effect .add w)) ∧ (∀ w, Issues (.redmin w) (accessHeld (acc w)) (effect .min w)) ∧
    (∀ w, Issues (.redmax w) (accessHeld (acc w)) (effect .max w)) ∧ (∀ w, Issues (.redand w) (accessHeld (acc w)) (effect .and w)) ∧
    (∀ w, Issues (.redor w) (accessHeld (acc w)) (effect .or w)) ∧ ∀ w, Issues (.redxor w) (accessHeld (acc w)) (effect .xor w))

/-- `waita`, with and without a timeout, `fence` and `xfence`: the condition, the compare value, the timeout of operand c and
the guard predicate that a timeout clears; the scope and the ordering; the two paths (R124, R126, R127). -/
def Obligations.WaitsAndFencesIssueAtCommit : Prop :=
  (∀ w : MemWord ModWA,
    let acc := fun x : Site => elementAccess x.before x w.buf.toNat ((x.read32 w.a).toInt + w.off.toInt)
      (typeWidth w.m.type.toNat) ⟨.read, false, false, false⟩
    Issues (.waita w) (accessHeld acc) fun x => accessed (acc x) fun loc va =>
      .wait w.m.type.toNat w.m.cond.toNat loc va (x.read (wideType w.m.type) w.d) none
        (if w.h.guard.toNat ≤ 7 then w.h.guard.toNat else 0) 0 x.pc x.hdr) ∧
  (∀ w : TimedMemWord ModWA,
    let acc := fun x : Site => elementAccess x.before x w.buf.toNat ((x.read32 w.a).toInt + w.off.toInt)
      (typeWidth w.m.type.toNat) ⟨.read, false, false, false⟩
    Issues (.waitaTo w) (accessHeld acc) fun x => accessed (acc x) fun loc va =>
      .wait w.m.type.toNat w.m.cond.toNat loc va (x.read (wideType w.m.type) w.d) (some (x.read32 w.c))
        (if w.h.guard.toNat ≤ 7 then w.h.guard.toNat else 0) 0 x.pc x.hdr) ∧
  (∀ w, Issues (.fence w) (fun _ => false) fun _ => some (.fence w.m.scope.toNat w.m.ord.toNat)) ∧
  ∀ w, Issues (.xfence w) (fun _ => false) fun _ =>
    some (.xfence w.m.scope.toNat (pathOf w.m.src) (pathOf w.m.dst))

/-- `cpy1` and `cpy2` whose checks of R129 pass hold the moves of their rows, each of the row's bytes, and where completion
is reported: a token scalar of the row, or the arrival word of R132 when it lies in the scratchpad at a multiple of 4.
The rows together hold at most 2^24 bytes, in multiples of 16. -/
def Obligations.CopiesIssueAtCommit : Prop :=
  let effect := fun (m : ModCP) (d : Operand) (src dst : Nat) (sh : CopyShape) (x : Site) =>
    (passed (copyMoves x sh src dst)).bind fun moves =>
      if m.arrive then
        if (x.read32 d).toNat % 4 = 0 ∧ (x.read32 d).toNat + 4 ≤ padBytes x.pass
        then some (Effect.copy moves (.word (x.read32 d).toNat)) else none
      else some (Effect.copy moves (.token x.t.row (tokenOf d)))
  (∀ w, Issues (.cpy1 w) (fun _ => false) fun x =>
    effect w.m w.d w.src.toNat w.dst.toNat (copyShape x false w.a w.c) x) ∧
  (∀ w, Issues (.cpy2 w) (fun _ => false) fun x =>
    effect w.m w.d w.src.toNat w.dst.toNat (copyShape x true w.a w.c) x) ∧
  ∀ (x : Site) (sh : CopyShape) (src dst : Nat) (moves : List Move), copyMoves x sh src dst = .ok moves →
    (∀ m ∈ moves, m.len = sh.bytes) ∧ moves.length = (if sh.bytes = 0 then 0 else sh.rows) ∧
    sh.bytes * sh.rows ≤ 2 ^ 24 ∧ sh.bytes % 16 = 0

/-- `spwf`, `qpush`, `qpop`, `tmove`, `banksw`, `segset` and `halt`: the effect each holds until commit.  A queue id names a
bank and a core, and may be used when the core's copy of the roles says FIFO (R134, R135, R137, R155, R156, R157). -/
def Obligations.OtherEffectsIssueAtCommit : Prop :=
  let target := fun (x : Site) (id : Word) =>
    if id.toNat / 4096 = 0 ∧ copiedRole (getCore x.before x.core) (id.toNat / 32 % 128) (id.toNat % 32) = .fifo
    then some (id.toNat % 32, id.toNat / 32 % 128) else none
  (∀ w, Issues (.spwf w) (fun _ => false) fun x => some (.spwf ((x.read32 w.a).setWidth 16))) ∧
  (∀ w, Issues (.qpush w) (fun _ => false) fun x => (target x (x.read32 w.a)).map fun (bank, core) =>
    .push bank core w.m.w w.m.try_ (x.read w.m.w w.d) w.m.scope.toNat (if w.h.guard.toNat ≤ 7 then w.h.guard.toNat else 0)) ∧
  (∀ w, Issues (.qpop w) (fun _ => false) fun x => (target x (x.read32 w.a)).map fun (bank, core) =>
    .pop bank core w.m.w w.m.try_ w.d w.m.scope.toNat (if w.h.guard.toNat ≤ 7 then w.h.guard.toNat else 0)) ∧
  (∀ w, Issues (.tmove w) (fun _ => false) fun x => some (.tmove x.t.row (tokenOf w.d) (x.read32 w.a) w.m.tier.toNat)) ∧
  (∀ w, Issues (.banksw w) (fun _ => false) fun x => some (.banksw x.t.row (tokenOf w.d) (x.read32 w.a))) ∧
  (∀ w, Issues (.segset w) (fun _ => false) fun x =>
    let g := quad (x.run 4 w.a)
    if g.extractLsb' 98 30 = 0 ∧ g.extractLsb' 96 2 ≠ 3 ∧
        (g.extractLsb' 96 2 = 1 → (g.extractLsb' 0 48).toNat + (g.extractLsb' 48 48).toNat ≤ 2 ^ 48)
    then some (.segset w.d.toNat g) else none) ∧
  ∀ w, Issues (.halt w) (fun _ => false) fun _ => some .halt

/-- `mxldb`, `mxop` and `mxdrop` whose checks pass hold their descriptor, their parameter block or their mask (R161, R162,
R166); `mxq` reads the state of a handle (R165).
`fwork` and the four tile instructions whose checks pass hold their effect: a mailbox of 16 bytes in the scratchpad, and
the operation, the resource and the tile (R167, R168).  A write names a resource the pass writes and a tile in its range;
a read keeps to a declared offset from a tile of the group. -/
def Obligations.MatrixAndTileWordsIssueAtCommit : Prop :=
  (
    (∀ w, Issues (.mxldb w) (fun _ => false) fun x => (passed (mxldbDesc x (x.read32 w.a) (x.read32 w.b))).map fun d =>
      .mxldb x.t.row (tokenOf w.d) (x.read32 w.a).toNat d) ∧
    (∀ w, Issues (.mxop w) (fun _ => false) fun x => (passed (mxopBlock x (x.read32 w.a))).map fun b =>
      .mxop x.t.row (tokenOf w.d) b) ∧
    (∀ w, Issues (.mxdrop w) (fun _ => false) fun x => some (.mxdrop ((x.read32 w.a).setWidth 16))) ∧
    (∀ w, Delivers (.mxq w) fun x =>
      let c := getCore x.before x.core
      let h := (x.read32 w.a).toNat % 16
      destWrites false (match c.handles.getD h none with
        | none => 0
        | some r => BitVec.ofNat 64 (1 + (if (c.macs.any fun m => m.holds = some h) then
            2 + 4 * (c.macs.findIdx fun m => m.holds = some h) else 0) +
          16 * (mxDesc r.desc).width + 64 * (mxDesc r.desc).slot)) w.d) ∧
    ∀ (x : Site) (a b : Word) (d : BitVec 128), mxldbDesc x a b = .ok d →
      a.toNat < 16 ∧ b.toNat % 16 = 0 ∧ b.toNat + 16 ≤ padBytes x.pass ∧ (mxDesc d).rsv = 0 ∧ (mxDesc d).width ≠ 3) ∧
  (
    (∀ w, Issues (.fwork w) (fun _ => false) fun x =>
      if (x.read32 w.a).toNat % 16 = 0 ∧ (x.read32 w.a).toNat + 16 ≤ padBytes x.pass
      then some (.fwork (x.read32 w.a).toNat) else none) ∧
    (∀ w, Issues (.tlacq w) (fun _ => false) fun x => if tileWriteCheck x (x.read32 w.a) (x.read32 w.b) = none
      then some (.tile (.acquire w.d.toNat) (x.read32 w.a).toNat (x.read32 w.b) x.pc) else none) ∧
    (∀ w, Issues (.tldone w) (fun _ => false) fun x => if tileWriteCheck x (x.read32 w.a) (x.read32 w.b) = none
      then some (.tile .done (x.read32 w.a).toNat (x.read32 w.b) x.pc) else none) ∧
    (∀ w, Issues (.tlrd w) (fun _ => false) fun x => if tileReadCheck x (x.read32 w.a) (x.read32 w.b) = none
      then some (.tile (.open w.d.toNat) (x.read32 w.a).toNat (x.read32 w.b) x.pc) else none) ∧
    (∀ w, Issues (.tlrel w) (fun _ => false) fun x => if tileReadCheck x (x.read32 w.a) (x.read32 w.b) = none
      then some (.tile .release (x.read32 w.a).toNat (x.read32 w.b) x.pc) else none) ∧
    (∀ x a b, tileWriteCheck x a b = none → a.toNat < 512 ∧ x.pass.writes.contains a.toNat = true ∧
      ∃ gr r, findGraph x.before x.g.ctx = some gr ∧ gr.resources[a.toNat]? = some r ∧
        0 ≤ tileX b ∧ tileX b < r.tilesX ∧ 0 ≤ tileY b ∧ tileY b < r.tilesY) ∧
    ∀ x a b, tileReadCheck x a b = none → ∃ h ∈ x.g.family x.before, ∃ r ∈ x.pass.reads, r.res = a.toNat ∧
      (tileX b - (h.x + x.pass.originX : Nat), tileY b - (h.y + x.pass.originY : Nat)) ∈ r.offsets)

/-! ## Field unit -/

/-- `rbox` misses a box with a NaN source, with inverted bounds, or that an infinite inverse direction leaves outside; for
finite crossings it gives the greatest of tmin and the entries, rounded down, and the least of tmax and the exits, rounded
up, or a miss where they cross (the sign of a zero bound is open, log 42); elsewhere it completes with two words, free ones
where an exact crossing is no number (logs 2 and 25).  `rtri` computes the products, sums and quotients of R175 in its order,
each rounded once; a determinant that is a zero, an infinity or NaN is a miss.  `rhit` copies the record that R176 lets win
(R174-R176).
`occstep` and `hgrid` whose checks pass start a load of the field unit: it counts for distances, its bytes are those of
the cells or corners on path S, and it returns the words computed from them.
`occstep` takes BOUNDS for a bad resolution; a NaN or a ray that misses the unit cube gives +inf, -inf and tmax (for a NaN
start t the model's reading, log 42); otherwise it marches from the cell of the entry, at most 64 cells, while no byte read is
bad.  `hgrid` takes BOUNDS for a bad level word and interpolates the eight corner words of the point's cell, x first.  Words
that no rule fixes are free (logs 2 and 25) (R177-R179). -/
def Obligations.FieldUnitResults : Prop :=
  (
  (∀ w, Completes (.rbox w) (fun _ => True) fun t x => ∃ near far : Word,
    (∀ p, rboxResult (x.run 8 w.a) (x.run 6 w.b) = some p → near = BitVec.ofNat 32 p.1 ∧ far = BitVec.ofNat 32 p.2) ∧
    resultsOf t x.t = some (done (runWrites [near, far] w.d) :: x.th.seg.results)) ∧
  (∀ w, Delivers (.rtri w) fun x => runWrites (rtriResult (x.run 8 w.a) (x.run 9 w.b)) w.d) ∧
  (∀ w, Delivers (.rhit w) fun x =>
    runWrites (if secondWins (x.run 4 w.a) (x.run 4 w.b) then x.run 4 w.b else x.run 4 w.a) w.d) ∧
  (∀ a b : List Word,
    let n := fun (l : List Word) (i : Nat) => (l.getD i 0).toNat
    let infinite := fun v : Nat => unpack 0 v = .inf false ∨ unpack 0 v = .inf true
    let finite := fun v : Nat => ∃ p m e, unpack 0 v = .fin p m e
    let le := fun u v => fcmpHolds 0 3 u v = true
    let inside := fun i => le (n b i) (n a i) ∧ le (n a i) (n b (i + 3))
    let missed := rboxResult a b = some (0x7F80_0000, 0xFF80_0000)
    ((∃ v ∈ a ++ b, isNan 0 v.toNat = true) → missed) ∧
    ((∃ i < 3, fcmpHolds 0 2 (n b (i + 3)) (n b i) = true) → missed) ∧
    ((∃ i < 3, infinite (n a (i + 3)) ∧ ¬inside i) → missed) ∧
    ((∀ v ∈ a ++ b, isNan 0 v.toNat = false) → (∀ i < 3, fcmpHolds 0 2 (n b (i + 3)) (n b i) = false) →
      (∀ i < 3, (infinite (n a (i + 3)) ∧ inside i) ∨
        (finite (n a (i + 3)) ∧ finite (n a i) ∧ finite (n b i) ∧ finite (n b (i + 3)))) →
      ∃ entry exit_ : Nat → Nat,
        (∀ i < 3, (infinite (n a (i + 3)) → entry i = 0xFF80_0000 ∧ exit_ i = 0x7F80_0000) ∧
          (finite (n a (i + 3)) →
            let value := fun v => (unpack 0 v).number
            let u := (value (n b i) - value (n a i)) * value (n a (i + 3))
            let v := (value (n b (i + 3)) - value (n a i)) * value (n a (i + 3))
            let rounds := fun (rnd : Nat) (q : Rat) (bits : Nat) =>
              ∃ neg, (q ≠ 0 → neg = decide (q < 0)) ∧ RoundsTo 0 rnd neg (exactly |q|) bits
            rounds 3 (min u v) (entry i) ∧ rounds 2 (max u v) (exit_ i))) ∧
        let near := (List.range 3).foldl (fun t i => pickBits 0 true t (entry i)) (n a 6)
        let far := (List.range 3).foldl (fun t i => pickBits 0 false t (exit_ i)) (n a 7)
        rboxResult a b = some (if fcmpHolds 0 2 far near then (0x7F80_0000, 0xFF80_0000) else (near, far)))) ∧
  (∀ u v w : Nat, u < 2 ^ 32 → v < 2 ^ 32 → w < 2 ^ 32 →
    ProductRounds 0 0 (unpack 0 u) (unpack 0 v) (mul32 u v) ∧ SumRounds 0 0 (unpack 0 u) (unpack 0 v) (add32 u v) ∧
    SumRounds 0 0 (unpack 0 u) (negVal (unpack 0 v)) (sub32 u v) ∧ QuotientRounds 0 0 (unpack 0 u) (unpack 0 v) (div32 u v) ∧
    SumRounds 0 0 (mulVal (unpack 0 u) (unpack 0 v)) (unpack 0 w) (fma32 u v w)) ∧
  (∀ a b : List Word,
    let n := fun (l : List Word) (i : Nat) => (l.getD i 0).toNat
    let dot := fun u v : Nat → Nat => fma32 (u 0) (v 0) (fma32 (u 1) (v 1) (mul32 (u 2) (v 2)))
    let cross := fun (u v : Nat → Nat) (i : Nat) =>
      fma32 (u ((i + 1) % 3)) (v ((i + 2) % 3)) (Nat.xor (mul32 (u ((i + 2) % 3)) (v ((i + 1) % 3))) 0x8000_0000)
    let e1 := fun i => sub32 (n b (3 + i)) (n b i)
    let e2 := fun i => sub32 (n b (6 + i)) (n b i)
    let ray := fun i => n a (3 + i)
    let det := dot e1 (cross ray e2)
    let tv := fun i => sub32 (n a i) (n b i)
    let qv := cross tv e1
    let u := div32 (dot tv (cross ray e2)) det
    let v := div32 (dot ray qv) det
    let t := div32 (dot e2 qv) det
    let le := fun u v => fcmpHolds 0 3 u v
    match unpack 0 det with
    | .nan | .inf _ | .fin _ 0 _ => rtriResult a b = [0x7F80_0000, 0, 0, 0]
    | .fin neg _ _ => rtriResult a b =
        if le 0 u && le 0 v && le (add32 u v) 0x3F80_0000 && le (n a 6) t && le t (n a 7)
        then [BitVec.ofNat 32 t, BitVec.ofNat 32 u, BitVec.ofNat 32 v, if neg then 3 else 1] else [0x7F80_0000, 0, 0, 0]) ∧
  ∀ a b : List Word,
    let ta := (a.getD 0 0).toNat
    let tb := (b.getD 0 0).toNat
    (isNan 0 tb = true → secondWins a b = false) ∧ (isNan 0 ta = true → isNan 0 tb = false → secondWins a b = true) ∧
    (fcmpHolds 0 2 tb ta = true → secondWins a b = true) ∧ (fcmpHolds 0 2 ta tb = true → secondWins a b = false) ∧
    (fcmpHolds 0 0 ta tb = true → secondWins a b =
      decide (b.getD 1 0 < a.getD 1 0 ∨ (b.getD 1 0 = a.getD 1 0 ∧ b.getD 2 0 < a.getD 2 0)))) ∧
  let loads := fun (t : State) (x : Site) (d : Operand) (ws : List Word) (ps : List Spot) =>
    ∃ seg load, segOf t x.t = some seg ∧ seg.loads = x.th.seg.loads ++ [load] ∧ load.id = x.th.seg.results.length ∧
      load.kind = .unit (runWrites ws d).1 (runWrites ws d).2 ∧ load.bytes = ps.map (spotByte x.before x .s) ∧
      ∃ dest, seg.results = ⟨load.id, true, false, dest, 0⟩ :: x.th.seg.results
  let value := fun v => (unpack 0 v).number
  let finite := fun v : Nat => ∃ p m e, unpack 0 v = .fin p m e
  let one := 0x3F80_0000
  (∀ w, CompletesUnheld (.occstep w) (occstepHeld w) (fun x => (passed (occstepFind w x)).isSome) fun t x =>
    ∃ found, occstepFind w x = .ok found ∧ match found with
      | .open_ => ∃ ws, ws.length = 4 ∧ loads t x w.d ws []
      | .missed end_ => loads t x w.d [0x7F80_0000, 0xFF80_0000, end_, 0] []
      | .marched m => loads t x w.d [BitVec.ofNat 32 (m.start.getD 0x7F80_0000),
          BitVec.ofNat 32 (if m.start.isSome then m.t else 0xFF80_0000), BitVec.ofNat 32 m.t,
          BitVec.ofNat 32 ((if m.start.isSome then 1 else 0) + (if m.more then 2 else 0))] m.spots) ∧
  (∀ (w : RawBWord ModZ) (x : Site),
    let a := fun i => ((x.run 9 w.a).getD i 0).toNat
    let n := a 8
    ((n = 0 ∨ 10 < n) → ∃ tr, occstepFind w x = .error tr ∧ tr.code = .bounds) ∧
    (0 < n → n ≤ 10 → (∃ v ∈ (x.run 9 w.a).take 8, isNan 0 v.toNat = true) →
      occstepFind w x = .ok (.missed ((x.run 9 w.a).getD 7 0))) ∧
    ((∀ i < 6, finite (a i)) → isNan 0 (a 6) = false → isNan 0 (a 7) = false → 0 < n → n ≤ 10 →
      let outside := ∃ i < 3, value (a (i + 3)) = 0 ∧ (value (a i) < 0 ∨ 1 < value (a i))
      ∃ entry exit_ : Nat → Nat,
        (∀ i < 3, if value (a (i + 3)) = 0 then entry i = 0xFF80_0000 ∧ exit_ i = 0x7F80_0000
          else
            let away := value (a (i + 3)) < 0
            QuotientRounds 0 3 (addVal 0 (unpack 0 (if away then one else 0)) (negVal (unpack 0 (a i)))) (unpack 0 (a (i + 3)))
              (entry i) ∧
            QuotientRounds 0 2 (addVal 0 (unpack 0 (if away then 0 else one)) (negVal (unpack 0 (a i)))) (unpack 0 (a (i + 3)))
              (exit_ i)) ∧
        let near := (List.range 3).foldl (fun t i => pickBits 0 true t (entry i)) (pickBits 0 true (a 6) 0)
        let far := (List.range 3).foldl (fun t i => pickBits 0 false t (exit_ i)) (a 7)
        ((outside ∨ fcmpHolds 0 2 far near = true) → occstepFind w x = .ok (.missed ((x.run 9 w.a).getD 7 0))) ∧
        (¬outside → fcmpHolds 0 2 far near = false →
          let g : March := ⟨[a 0, a 1, a 2], [a 3, a 4, a 5], n, far⟩
          let at_ := fun i => fma32 near (a (i + 3)) (a i)
          let bit := fun (cell : List Nat) => cell.getD 0 0 + 2 ^ n * (cell.getD 1 0 + 2 ^ n * cell.getD 2 0)
          (∃ tr, occstepFind w x = .error tr) ∨ occstepFind w x = .ok .open_ ∨
          ∃ m cell occupied, occstepFind w x = .ok (.marched m) ∧ cell.length = 3 ∧
            (∀ i < 3, finite (at_ i) ∧ (cell.getD i 0 : Int) = max 0 (min (2 ^ n - 1) ⌊value (at_ i) * 2 ^ n⌋)) ∧
            (∀ c r p, elementAccess x.before x w.b.toNat (bit c / 8 : Nat) 1 ⟨.read, false, false, false⟩ = .ok (r, [p]) →
              occupied c = (spotByte x.before x .s p).getLsbD (bit c % 8)) ∧
            (firstBad x.before x .s m.spots = none → Marches g occupied 0 near cell none (m.start, m.t, m.more))))) ∧
  (∀ (g : March) (i cell : Nat),
    (∀ p e, unpack 0 (g.r.getD i 0) = .fin p 0 e → crossing g i cell = none) ∧
    (∀ p m e, unpack 0 (g.r.getD i 0) = .fin p m e → m ≠ 0 → ∃ v, crossing g i cell = some v ∧
      QuotientRounds 0 0 (addVal 0 (.fin false (cell + if g.r.getD i 0 < 2 ^ 31 then 1 else 0) (-(g.n : Int)))
        (negVal (unpack 0 (g.o.getD i 0)))) (unpack 0 (g.r.getD i 0)) v)) ∧
  (∀ w, CompletesUnheld (.hgrid w) (hgridHeld w) (fun x => (passed (hgridFind w x)).isSome) fun t x =>
    ∃ wx wy wz ps, hgridFind w x = .ok (wx, wy, wz, ps) ∧
      let lerp := fun (w u v : Nat) => fma32 w (sub32 v u) u
      let whole := fun (half : Nat) (weights : Nat × Nat × Nat) =>
        let f := fun i => packVal 0 0 (unpack 1 (ofBytes ((ps.getD i []).map (spotByte x.before x .s)) / 65536 ^ half % 65536))
        BitVec.ofNat 32 (lerp weights.2.2
          (lerp weights.2.1 (lerp weights.1 (f 0) (f 1)) (lerp weights.1 (f 2) (f 3)))
          (lerp weights.2.1 (lerp weights.1 (f 4) (f 5)) (lerp weights.1 (f 6) (f 7))))
      ∃ ws, loads t x w.d ws ps.flatten ∧
        (firstBad x.before x .s ps.flatten = none → ws = [whole 0 (wx, wy, wz), whole 1 (wx, wy, wz)])) ∧
  ∀ (w : RawBWord ModZ) (x : Site),
    let level := x.read32 w.c
    let res := level.toNat % 65536
    let size := level.toNat / 65536 % 32
    let p := fun i => ((x.run 3 w.a).getD i 0).toNat
    ((res = 0 ∨ size < 10 ∨ 24 < size ∨ 2 ^ 21 ≤ level.toNat) → ∃ tr, hgridFind w x = .error tr ∧ tr.code = .bounds) ∧
    ∀ wx wy wz ps, hgridFind w x = .ok (wx, wy, wz, ps) →
      ∃ cell weight scaled : Nat → Nat, weight 0 = wx ∧ weight 1 = wy ∧ weight 2 = wz ∧
        (∀ i < 3, ProductRounds 0 0 (unpack 0 (pickBits 0 false (pickBits 0 true (p i) 0) one)) (.fin false res 0) (scaled i) ∧
          (cell i : Int) = min ⌊value (scaled i)⌋ (res - 1) ∧ value (weight i) = value (scaled i) - cell i) ∧
        (firstBad x.before x .s ps.flatten = none → ps.length = 8 ∧ ∀ j < 8,
          let gx := cell 0 + j % 2
          let gy := cell 1 + j / 2 % 2
          let gz := cell 2 + j / 4
          let index := if (res + 1) ^ 3 ≤ 2 ^ size then gx + (res + 1) * (gy + (res + 1) * gz)
            else ((BitVec.ofNat 32 gx ^^^ BitVec.ofNat 32 gy * 0xA3C5_9AC3 ^^^ BitVec.ofNat 32 gz * 0x6E2F_19B7 : Word)).toNat
              % 2 ^ size
          ∃ r, elementAccess x.before x w.b.toNat index 4 ⟨.read, false, false, false⟩ = .ok (r, ps.getD j []))

/-! ## Cross-lane words, control transfer and system access -/

/-- The shuffles, `ballot`, `vote`, `elect` and `lred` over the participants of a thread's effective mask (R140, R142, R143,
R146): a shuffle whose source is no lane of the mask keeps the thread's own value, and a source that its guard disables
supplies what it holds; `ballot` sets the lanes whose condition is not zero; `elect` is 1 for the lowest participant; `lred`
goes in ascending lane order.
Where masks conflict, every thread of every closure that holds a conflict is parked with LANESET_MISMATCH, with its row's
lowest conflicting lane and the code 0x05 in its record, and the other participants go on (R143, R144, R331).  That a closure
reaches through the lanes its threads have named with earlier words of the segment, and holds threads that this word disables
when they have taken part before, is the model's reading (DEDUCED, log 43). -/
def Obligations.CrossLaneResults : Prop :=
  let shuffle := fun (w : OpWord ModXL) (src : Site → Int) (xs : List Site) (x : Site) =>
    let from_ := if 0 ≤ src x ∧ src x ≤ 127 ∧ (x.effective (.shfi w)).getLsbD (src x).toNat = true
      then (inLane xs x (src x).toNat).getD x else x
    destWrites w.m.w (from_.read w.m.w w.a) w.d
  let sound := fun (w : OpWord ModXL) (x : Site) =>
    (namedRegs ⟨.src w.m.w, w.a.code⟩).all fun r => !regPoisoned x.g x.th r
  let b := fun (w : OpWord ModXL) (x : Site) => (x.read32 w.b).toNat
  let step := fun (m : ModXL) (u v : Wide) => match m.op.toNat with
    | 0 => lowWord m.w (u + v)
    | 1 => if number m.w m.sgn v < number m.w m.sgn u then v else u
    | 2 => if number m.w m.sgn u < number m.w m.sgn v then v else u
    | 3 => u &&& v
    | 4 => u ||| v
    | 5 => u ^^^ v
    | _ => BitVec.ofNat 64 (packVal 0 0 (addVal 0 (unpack 0 u.toNat) (unpack 0 v.toNat)))
  let values := fun (i : Instr) (w : OpWord ModXL) (wide : Bool) (xs : List Site) (x : Site) =>
    (participantsOf i xs x).map fun y => y.read wide w.a
  (∀ w, DeliversTogether (.shfi w) (sound w) (shuffle w fun x => ((b w x % 128 : Nat) : Int))) ∧
  (∀ w, DeliversTogether (.shfx w) (sound w) (shuffle w fun x => ((Nat.xor x.t.lane (b w x % 128) : Nat) : Int))) ∧
  (∀ w, DeliversTogether (.shfu w) (sound w) (shuffle w fun x => (x.t.lane : Int) - b w x)) ∧
  (∀ w, DeliversTogether (.shfd w) (sound w) (shuffle w fun x => (x.t.lane : Int) + b w x)) ∧
  (∀ w, DeliversTogether (.ballot w) (fun _ => true) fun xs x =>
    let mask := (participantsOf (.ballot w) xs x).foldl
      (fun (m : BitVec 128) (y : Site) => if y.read false w.a = (0 : Wide) then m else m ||| (1#128 <<< y.t.lane)) 0
    match w.d with
    | .k _ => kWrites mask w.d
    | _ => runWrites [mask.extractLsb' 0 32, mask.extractLsb' 32 32, mask.extractLsb' 64 32, mask.extractLsb' 96 32] w.d) ∧
  (∀ w, DeliversTogether (.vote w) (fun _ => true) fun xs x =>
    let vs := values (.vote w) w false xs x
    destBool (match w.m.op.toNat with
      | 0 => vs.any fun v => v ≠ 0
      | 1 => vs.all fun v => v ≠ 0
      | _ => vs.all fun v => some v = vs.head?) w.d) ∧
  (∀ w, DeliversTogether (.elect w) (fun _ => true) fun xs x =>
    destBool (decide (((participantsOf (.elect w) xs x).head?.map Site.t) = some x.t)) w.d) ∧
  (∀ w, DeliversTogether (.lred w) (fun _ => true) fun xs x =>
    destWrites w.m.w (match values (.lred w) w w.m.w xs x with
      | [] => 0
      | v :: rest => rest.foldl (step w.m) v) w.d) ∧
  ∀ w : OpWord ModXL, ∀ i ∈ [Instr.shfi w, .shfx w, .shfu w, .shfd w, .ballot w, .vote w, .elect w, .lred w], ∀ s b, AtWord s b →
    let xs := turnSites s s.focus b i
    (∀ x ∈ xs, (Clear i x || Disabled i x) = true ∧ supplyReady i x = true ∧ sound w x = true) → Present b i xs →
    let conflict := fun x : Site => Clear i x = true ∧ ((x.effective i).getLsbD x.t.lane = false ∨
      ∃ y ∈ xs, Clear i y = true ∧ x.beside y = true ∧ x.effective i ≠ y.effective i ∧
        ((x.effective i).getLsbD y.t.lane = true ∨ (y.effective i).getLsbD x.t.lane = true))
    let named := fun x : Site => if Clear i x then x.th.seg.mates ||| x.effective i ||| 1#128 <<< x.t.lane else x.th.seg.mates
    let takes := fun x : Site => Clear i x = true ∨ x.th.seg.mates ≠ 0
    let parked := fun x : Site => takes x ∧ ∀ p : ThreadRef → Prop, (∀ y ∈ xs, conflict y → p y.t) →
      (∀ y ∈ xs, ∀ z ∈ xs, takes y → takes z → p y.t → y.beside z = true → (named y).getLsbD z.t.lane = true → p z.t) → p x.t
    Goes (exec i s) fun t => ∀ x ∈ xs,
      (parked x → ThreadIs t x.t fun th => th.seg.results = [] ∧ th.seg.stores = [] ∧ th.seg.effect = none ∧
        (th.status = .ready ∨ th.status = .parkedHost) ∧ th.faultInfo = 0x005 ∧ th.data1 = x.hdr ∧
        ∀ y ∈ xs, conflict y → x.beside y = true → y.t.lane < 128 →
          (∀ z ∈ xs, conflict z → x.beside z = true → y.t.lane ≤ z.t.lane) →
          th.data0 = BitVec.ofNat 32 y.t.lane + 0x500) ∧
      (¬parked x → Clear i x = true → ∃ r, resultsOf t x.t = some (r :: x.th.seg.results))

/-- The transfers end the thread's segment: `br`, `ret`, `jmpi`, `call` and `calli` at a target that passes R73, the calls
with the address after their words in d; `exit`, `trap`, `brk` and `trapret` as R75, R152 and R153 say (R70, R71, R74).  A
target passes when it is a multiple of 8, its header lies within the limit of g0, and the word there is a header that starts
a segment (R73).  A thread whose guard disables the transfer, the last word of its clause, continues after it (R74). -/
def Obligations.TransfersEndTheSegment : Prop :=
  let good := fun (x : Site) (a : Operand) => targetFault x.before x.core x.g x.pass (x.read32 a).toNat = none
  let after := fun (x : Site) => x.pc + (if x.lit.isSome then 16 else 8)
  let goes := fun (x : Site) (a : Operand) => Ending.go (x.read32 a) (x.read32 a)
  (∀ w, Completes (.br w) (good · w.a) fun t x => endingOf t x.t = some (goes x w.a)) ∧
  (∀ w, Completes (.ret w) (good · w.a) fun t x => endingOf t x.t = some (goes x w.a)) ∧
  (∀ w, Completes (.jmpi w) (good · w.a) fun t x => endingOf t x.t = some (goes x w.a)) ∧
  (∀ w, Completes (.call w) (good · w.a) fun t x => endingOf t x.t = some (goes x w.a) ∧
    resultsOf t x.t = some (done (destWrites false ((after x).setWidth 64) w.d) :: x.th.seg.results)) ∧
  (∀ w, Completes (.calli w) (good · w.a) fun t x => endingOf t x.t = some (goes x w.a) ∧
    resultsOf t x.t = some (done (destWrites false ((after x).setWidth 64) w.d) :: x.th.seg.results)) ∧
  (∀ w, Completes (.exit w) (fun _ => True) fun t x => endingOf t x.t = some .exit) ∧
  (∀ w, Completes (.trap w) (fun _ => True) fun t x => endingOf t x.t = some (.trap false (after x) (x.read32 w.a))) ∧
  (∀ w, Completes (.brk w) (fun _ => True) fun t x => endingOf t x.t = some (.trap true (after x) (x.read32 w.a))) ∧
  (∀ w, Completes (.trapret w) (fun _ => True) fun t x => endingOf t x.t = some (.trapret x.pc)) ∧
  (∀ (s : State) (k : Nat) (g : Group) (p : Pass) (n : Nat), targetFault s k g p n = none ↔
    n % 8 = 0 ∧ n + 8 ≤ effLimit (padBytes p) (g.g.getD 0 0) ∧ hdrMark (codeWord s k g n) = 0xC ∧
      hdrBlock (codeWord s k g n) = true) ∧
  ∀ (i : Instr) s b h, i.isTransfer = true → AtWord s b → (∀ x ∈ turnSites s s.focus b i, Proceeds i x = true) →
    (∀ x ∈ turnSites s s.focus b i, x.th.seg.gather = false) →
    b.words.find? (fun w => w.1 = b.hdr.toNat) = some h →
    b.pc.toNat + (if i.literal.isSome then 16 else 8) = b.hdr.toNat + 8 + 8 * hdrCount h.2 →
    Goes (exec i s) fun t => ∀ x ∈ turnSites s s.focus b i, Disabled i x = true → x.th.seg.ending = none →
      endingOf t x.t = some (.go (after x) (after x))

/-- System registers: `sysrd` reads the register of R148 as the thread's own held writes leave it (R151): the newest of them,
without the bits that read as zero, or, of `sys.mem_status`, what none of them clears; `syswr` holds its write until
commit, where a status bit written 1 clears, `sys.fault_info` keeps nine bits, and a counter configuration keeps 18 bits and
clears its counter; `cntrd` and `clkrd` sample a counter, the global time or the core cycle counter (R6, R108, R148-R151,
R362). -/
def Obligations.SystemRegisters : Prop :=
  let held := fun (n : BitVec 10) (a : Operand) (t : State) (x : Site) =>
    resultsOf t x.t = some (⟨0, false, true, [.sys n.toNat (x.read32 a)], 0⟩ :: x.th.seg.results)
  (∀ w, Delivers (.sysrd w) fun x => destWrites false ((sysValue x w.a.toNat).setWidth 64) w.d) ∧
  (∀ w, Completes (.syswr w) (fun _ => True) (held w.d w.a)) ∧
  (∀ w, Completes (.memStatusClear w) (fun _ => True) (held w.d w.a)) ∧
  (∀ w, Completes (.cntCfgWrite w) (fun _ => True) (held w.d w.a)) ∧
  (∀ w, Delivers (.cntrd w) fun x =>
    destWrites true ((getCore x.before x.core).counters.getD ((x.read32 w.a).toNat % 16) 0) w.d) ∧
  (∀ w, Delivers (.clkrd w) fun x =>
    destWrites true (if (x.read32 w.a).getLsbD 0 then (getCore x.before x.core).cycles else x.before.time) w.d) ∧
  (∀ (s : State) (k : Nat) (t : ThreadRef) (th : Thread) (x : Word), threadAtRef s t = some th →
    threadAtRef (applyWrite k t s (.sys 0x001 x)) t = some { th with memStatus := th.memStatus &&& ~~~x } ∧
    threadAtRef (applyWrite k t s (.sys 0x008 x)) t = some { th with faultInfo := x &&& 0x1FF } ∧
    threadAtRef (applyWrite k t s (.sys 0x009 x)) t = some { th with faultPc := x } ∧
    threadAtRef (applyWrite k t s (.sys 0x00A x)) t = some { th with faultHdr := x } ∧
    threadAtRef (applyWrite k t s (.sys 0x00B x)) t = some { th with data0 := x } ∧
    threadAtRef (applyWrite k t s (.sys 0x00C x)) t = some { th with data1 := x }) ∧
  (∀ (s : State) (k : Nat) (t : ThreadRef) (c : Core) (x : Word), s.cores[k]? = some c →
    (applyWrite k t s (.sys 0x020 x)).cores[k]? = some { c with hintDrops := x } ∧
    ∀ i, i < 16 → (applyWrite k t s (.sys (0x030 + i) x)).cores[k]? =
      some { c with cntCfg := c.cntCfg.set i (x &&& 0x3FFFF), counters := c.counters.set i 0 }) ∧
  (∀ (seg : Segment) (r : Result) (n : Nat), { seg with results := [] }.sysWrites n = [] ∧
    { seg with results := r :: seg.results }.sysWrites n = seg.sysWrites n ++ r.writes.filterMap fun w => match w with
      | .sys m v => if m = n then some v else none
      | _ => none) ∧
  ∀ (x : Site), sysValue x 0x000 = (if x.pass.privileged then 1 else 0) ||| (if x.th.inHandler then 2 else 0) ∧
    (∀ i, (sysValue x 0x001).getLsbD i =
      (x.th.memStatus.getLsbD i && (x.th.seg.sysWrites 0x001).all fun v => !v.getLsbD i)) ∧
    (∀ n, x.th.seg.sysWrites n = [] →
      (n = 0x008 → sysValue x n = x.th.faultInfo) ∧ (n = 0x009 → sysValue x n = x.th.faultPc) ∧
      (n = 0x00A → sysValue x n = x.th.faultHdr) ∧ (n = 0x00B → sysValue x n = x.th.data0) ∧
      (n = 0x00C → sysValue x n = x.th.data1) ∧ (n = 0x020 → sysValue x n = (getCore x.before x.core).hintDrops) ∧
      ∀ i, i < 16 → n = 0x030 + i → sysValue x n = (getCore x.before x.core).cntCfg.getD i 0) ∧
    ∀ n vs v, x.th.seg.sysWrites n = vs ++ [v] →
      (n = 0x008 → sysValue x n = v &&& 0x1FF) ∧ (n ∈ [0x009, 0x00A, 0x00B, 0x00C, 0x020] → sysValue x n = v) ∧
      (0x030 ≤ n → n < 0x040 → sysValue x n = v &&& 0x3FFFF)


/-! ## Commit, traps and the selector -/

/-- A segment that may commit makes its writes architectural in the order of its words: each register holds the newest write
the segment gives it, the stores join the store buffer in order, no register of another thread changes, and the thread goes
on at its continuation (R17, R110, R194).  Then its effect issues: the thread parks, or the effect starts and the thread is
ready (R19, R39, R195); a push or a pop waits behind an earlier one of its kind, and one with `.try` never waits (R136).  The
threads of a gather segment that commit with one of them commit together, in lane order (R144, R194). -/
def Obligations.SegmentsCommitInOrder : Prop :=
  (∀ s t g th k pc hdr, Commits s t g th k (.go pc hdr) → th.seg.effect = none →
    Goes (exec (.segmentCommit t) s) fun s' =>
      ThreadIs s' t (fun th' => th'.status = .ready ∧ th'.pc = pc ∧ th'.hdr = hdr ∧ th'.seg = Segment.empty pc hdr ∧
        th'.buffer = th.buffer ++ th.seg.stores.map (fun st => { st with order := s.serial + 1 }) ∧
        (∀ i, i < th.v.length → th'.v.getD i 0 = (newestOf th.seg (RegWrite.toV i)).getD (th.v.getD i 0)) ∧
        (∀ i, i < 8 → th'.p.getLsbD i = (newestOf th.seg (RegWrite.toP i)).getD (th.p.getLsbD i)) ∧
        ∀ i, i < th.k.length → th'.k.getD i 0 = (newestOf th.seg (RegWrite.toK i)).getD (th.k.getD i 0)) ∧
      (∀ i, hasScalar s t.group t.row i →
        scalarOf s' t.group t.row i = (newestOf th.seg (RegWrite.toS i)).getD (scalarOf s t.group t.row i)) ∧
      (∀ i, i < g.b.length →
        recordOfGroup s' t.group i = (newestOf th.seg (RegWrite.toB i)).getD (recordOfGroup s t.group i)) ∧
      ∀ u, u ≠ t → (threadAtRef s' u).map Thread.kept = (threadAtRef s u).map Thread.kept) ∧
  (∀ s t g th k, Commits s t g th k .exit →
    Goes (exec (.segmentCommit t) s) fun s' => ThreadIs s' t fun th' => th'.status = .exited ∧ th'.seg.results = []) ∧
  (∀ s t g th k pc hdr e, Commits s t g th k (.go pc hdr) → th.seg.effect = some e →
    Goes (exec (.segmentCommit t) s) fun s' =>
      let ready := ThreadIs s' t fun th' => th'.status = .ready ∧ th'.pc = pc ∧ th'.hdr = hdr
      let parks := ThreadIs s' t fun th' => th'.status = .parkedEffect ∧ th'.waiting = some e ∧ th'.pc = pc ∧ th'.hdr = hdr
      let behind := fun (core bank : Nat) (push : Bool) => ∃ u ∈ (getBank s core bank).parked, u ≠ t ∧
        ∃ o, parkedOp s u = some o ∧ isPush o.2 = push
      match e with
      | .atomic .. | .fence .. | .xfence .. | .tile .. | .spwf _ | .mxdrop _ => parks
      | .wait type cond loc va cmp timeout guard _ pc' hdr' => ThreadIs s' t fun th' => th'.status = .parkedEffect ∧
          th'.waiting = some (.wait type cond loc va cmp timeout guard (getCore s k).cycles.toNat pc' hdr')
      | .reduction op type scope ord loc va data batch => ready ∧
          s'.reductions = s.reductions ++ [⟨s.serial + 2, t, k, op, type, scope, ord, loc, va, data, batch⟩]
      | .copy moves arrival => ready ∧ ((moves.map Move.len).sum ≠ 0 → s'.copies =
          s.copies ++ [⟨s.serial + 2, t, arrival, moves, [], [], 0, (moves.map Move.len).sum, false⟩])
      | .push bank core _ try_ _ _ _ => if try_ then ready else (parks ∨ ready) ∧ (behind core bank true → parks)
      | .pop bank core _ try_ _ _ _ =>
        let done_ := ThreadIs s' t fun th' => th'.status ≠ .parkedEffect
        if try_ then done_ else (parks ∨ done_) ∧ (behind core bank false → parks)
      | .tmove row token handle tier => ready ∧ ∃ user, s'.moves =
          s.moves ++ [⟨handle.toNat, tier, .thread t.group row token user, false, 0, []⟩]
      | .mxldb _ token handle desc => ready ∧
          (getCore s' k).mxQueue = (getCore s k).mxQueue ++ [⟨t, s.serial + 2, token, .load handle desc⟩]
      | .mxop _ token block => ready ∧
          (getCore s' k).mxQueue = (getCore s k).mxQueue ++ [⟨t, s.serial + 2, token, .op block⟩]
      | .fwork offset => ready ∧ s'.fworks = s.fworks ++ [⟨s.serial + 2, t.group, offset⟩]
      | .segset n x => ready ∧ (n < g.g.length → segmentOfGroup s' t.group n = x)
      | .banksw row token request => ready ∧
          s'.bankRequests = s.bankRequests ++ [⟨s.serial + 2, t.group, row, token, request, 0⟩]
      | .halt => s'.notices.length = s.notices.length + 1 ∧ ThreadIs s' t fun th' => th'.status = .parkedHost) ∧
  ∀ s t g th k, findThread s t = some (g, th) → g.core = some k → k < s.cores.length → th.status = .committing →
    th.seg.gather = true → (getCore s k).fatal = false → passStopping s g = false → replayDue s g th t = false →
    mayCommit s g th t = true → (∀ u ∈ commitSet s g th t, (findPass s u.1.ctx u.1.stage).isSome = true) →
    ((commitSet s g th t).map fun u => u.2.lane).Pairwise (· ≤ ·) ∧ (g, th) ∈ commitSet s g th t ∧
    Goes (exec (.segmentCommit t) s) fun s' => ∀ u ∈ commitSet s g th t,
      IfThread s' (refOf u.1 u.2) fun th' => th'.status ≠ .committing

/-- A committed `trap` or `brk` takes the thread to the trap vector with its record in the fault registers, or parks it for
the host when it is in its handler, the vector is not usable or the pass sends `brk` to the host, with a notice unless one is
outstanding (R332); `trapret` goes back to the saved place and leaves the handler, and one whose place fails the checks of
R153 parks the thread for the host with a CLAUSE_FORMAT record: the place, committed, the value that failed and the
`trapret`'s own address (R150, R152, R153, R331). -/
def Obligations.TrapsAndReturns : Prop :=
  let noSeg := fun (th : Thread) => ∀ r ∈ th.seg.results, ∀ w ∈ r.writes, w.isG = false
  let saved := fun (brk : Bool) (ret data : Word) (th' : Thread) =>
    th'.faultInfo = (if brk then 0x141 else 0x140) ∧ th'.faultPc = ret ∧ th'.faultHdr = ret ∧ th'.data0 = data ∧ th'.data1 = 0
  (∀ s t g th k brk ret data p, Commits s t g th k (.trap brk ret data) → findPass s g.ctx g.stage = some p → noSeg th →
    vectorUsable s g p = true → th.inHandler = false → (brk = true → p.brkToHost = false) →
    Goes (exec (.segmentCommit t) s) fun s' => ThreadIs s' t fun th' =>
      th'.status = .ready ∧ th'.pc = p.trapVector ∧ th'.hdr = p.trapVector ∧ th'.inHandler = true ∧ saved brk ret data th') ∧
  (∀ s t g th k brk ret data p, Commits s t g th k (.trap brk ret data) → findPass s g.ctx g.stage = some p → noSeg th →
    vectorUsable s g p = false ∨ th.inHandler = true ∨ (brk = true ∧ p.brkToHost = true) →
    Goes (exec (.segmentCommit t) s) fun s' => s'.notices.length = s.notices.length +
        (if outstanding s (.thread t) (if brk then 0x41 else 0x40) then 0 else 1) ∧ ThreadIs s' t fun th' =>
      th'.status = .parkedHost ∧ saved brk ret data th') ∧
  (∀ s t g th k at_ p bad, Commits s t g th k (.trapret at_) → findPass s g.ctx g.stage = some p → noSeg th →
    (∀ r ∈ th.seg.results, ∀ w ∈ r.writes, w.isSys = false) → resumeBad s k g p th.faultPc th.faultHdr = some bad →
    Goes (exec (.segmentCommit t) s) fun s' => s'.notices.length = s.notices.length +
        (if outstanding s (.thread t) 0x03 then 0 else 1) ∧ ThreadIs s' t fun th' =>
      th'.status = .parkedHost ∧ th'.failedRet = true ∧ th'.inHandler = th.inHandler ∧ th'.faultInfo = 0x103 ∧
      th'.faultPc = th.faultPc ∧ th'.faultHdr = th.faultHdr ∧ th'.data0 = bad ∧ th'.data1 = at_) ∧
  (∀ s k g p pc hdr bad, resumeBad s k g p pc hdr = some bad → bad = hdr ∨ bad = pc) ∧
  (∀ s t g th k at_ p, Commits s t g th k (.trapret at_) → findPass s g.ctx g.stage = some p → noSeg th →
    (∀ r ∈ th.seg.results, ∀ w ∈ r.writes, w.isSys = false) → resumeBad s k g p th.faultPc th.faultHdr = none →
    Goes (exec (.segmentCommit t) s) fun s' => ThreadIs s' t fun th' =>
      th'.status = .ready ∧ th'.pc = th.faultPc ∧ th'.hdr = th.faultHdr ∧ th'.inHandler = false ∧
      th'.faultInfo = th.faultInfo) ∧
  (∀ s k g p pc hdr, resumeBad s k g p pc hdr = none ↔
    (hdr.toNat % 8 = 0 ∧ hdr.toNat + 8 ≤ effLimit (padBytes p) (g.g.getD 0 0) ∧ hdrMark (codeWord s k g hdr.toNat) = 0xC ∧
      (pc = hdr ∨ (pc.toNat % 8 = 0 ∧ hdr.toNat + 8 ≤ pc.toNat ∧
        pc.toNat < hdr.toNat + 8 + 8 * hdrCount (codeWord s k g hdr.toNat)))))

/-- Taking a fault discards the thread's segment and changes no v, p or k register.  In its handler the thread parks for the
host; a misaligned access that the supervisor splits goes on at the record's place with the split flag; page, discarded,
poison and check codes park it on a notice with its fault registers untouched; every other code goes to the trap vector, or
to the host when the vector is not usable, with the record in the fault registers (R41, R330-R333). -/
def Obligations.FaultsTakeTheirRoute : Prop :=
  ∀ (s : State) (t : ThreadRef) (g : Group) (th : Thread) (p : Pass) (r : Record) (split : Bool),
    findThread s t = some (g, th) → findPass s g.ctx g.stage = some p →
    let processor := [0x13#8, 0x14#8, 0x15#8, 0x18#8, 0x19#8].contains r.code
    let saved := fun (th' : Thread) => th'.faultInfo = (if r.committed then 0x100 else 0) ||| r.code.setWidth 32 ∧
      th'.faultPc = r.pc ∧ th'.faultHdr = r.hdr ∧ th'.data0 = r.data0 ∧ th'.data1 = r.data1
    ThreadIs (takeFault s t r split) t fun th' =>
      th'.v = th.v ∧ th'.p = th.p ∧ th'.k = th.k ∧ th'.seg.results = [] ∧ th'.seg.stores = [] ∧ th'.seg.effect = none ∧
      if th.inHandler then th'.status = .parkedHost ∧ saved th'
      else if split then th'.status = .ready ∧ th'.pc = r.pc ∧ th'.hdr = r.hdr ∧ th'.split = true ∧ th'.faultInfo = th.faultInfo
      else if processor then
        th'.status = .parkedFault ∧ th'.pc = r.pc ∧ th'.record = some r ∧ th'.notice.isSome ∧ th'.faultInfo = th.faultInfo
      else if vectorUsable s g p then
        th'.status = .ready ∧ th'.pc = p.trapVector ∧ th'.hdr = p.trapVector ∧ th'.inHandler = true ∧ saved th'
      else th'.status = .parkedHost ∧ saved th'

/-- The selector and the clause entry (R22, R58, R188-R191), the return of a load (R107, R110), the one replay of a segment
that has read a mismatching block (R107, R197; it happens when the segment would commit, and what its further loads return
raises nothing: log 43) and the replay of threads held after repeated droop (R198).  The clause stands at the burst's own base
(log 43). -/
def Obligations.CoresSelectEnterAndReplay : Prop :=
  (∀ s core c b, s.cores[core]? = some c → c.burst = some b → b.entered = false → b.groups.flatten ≠ [] →
    clauseMoves s core b = false →
    (∀ t ∈ b.groups.flatten, heldAtClause s core b t = false ∧ ∃ g th p, findThread s t = some (g, th) ∧
      findPass s g.ctx g.stage = some p ∧ clauseTrouble s core (g.via b.base) p t b.hdr.toNat = none) →
    Goes (exec (.clauseEnter core) s) fun s' => (getCore s' core).burst =
      some { b with entered := true, turn := 0, pc := (if b.pc = b.hdr then b.hdr + 8 else b.pc)
                    words := clauseWords s core b }) ∧
  (∀ s core b g, b.groups.flatten ≠ [] → (∀ t ∈ b.groups.flatten, findGroup s t.group = some g) →
    let h := codeWord s core (g.via b.base) b.hdr.toNat
    (g.g ≠ [] → b.base < 2 ^ 48 → segBase ((g.via b.base).g.getD 0 0) = b.base) ∧
    clauseWords s core b = (b.hdr.toNat, h) :: (List.range (hdrCount h)).map fun i =>
      (b.hdr.toNat + 8 * (i + 1), codeWord s core (g.via b.base) (b.hdr.toNat + 8 * (i + 1)))) ∧
  (∀ s core c b t g th p x, s.cores[core]? = some c → c.burst = some b → b.entered = false → b.groups.flatten = [t] →
    clauseMoves s core b = false → heldAtClause s core b t = false → findThread s t = some (g, th) →
    findPass s g.ctx g.stage = some p → clauseTrouble s core (g.via b.base) p t b.hdr.toNat = some x →
    Goes (exec (.clauseEnter core) s) fun s' => (getCore s' core).burst = none ∧ ThreadIs s' t fun th' =>
      th'.seg.results = [] ∧ th'.v = th.v) ∧
  (∀ s k g p t hdr, clauseTrouble s k g p t hdr = none →
    hdrOk (codeWord s k g hdr) = true ∧
    hdr + 8 + 8 * hdrCount (codeWord s k g hdr) ≤ effLimit (padBytes p) (g.g.getD 0 0)) ∧
  (∀ s core c e us pc hdr, s.cores[core]? = some c → c.fatal = false → coreClocked s core = true → lateThreads s core = [] →
    c.burst = none → c.chosen = none → chooseEntry s core none = some (e, us) →
    (sortPicks us).head?.bind (pickPlace s) = some (pc, hdr) →
    Goes (exec (.burstSelect core) s) fun s' => ∃ b, (getCore s' core).burst = some b ∧ b.key = e.key ∧ b.hdr = hdr ∧
      b.pc = pc ∧ b.entered = false ∧ b.groups.length ≤ 32 ∧
      ∀ u ∈ b.groups.flatten, IfThread s' u fun th => th.status = .running) ∧
  (∀ s k e us, chooseEntry s k none = some (e, us) → e ∈ (getCore s k).table ∧ unitsOf s k e = us ∧ us ≠ [] ∧
    ∀ e' ∈ (getCore s k).table, unitsOf s k e' ≠ [] →
      entryBeats (getCore s k).cycles.toNat (e', unitsOf s k e') (e, us) = false) ∧
  (∀ s t g th l rest, findThread s t = some (g, th) → th.seg.loads = l :: rest → l.poison = none → l.mismatch = none →
    Goes (exec (.loadReturn t) s) fun s' => ThreadIs s' t fun th' =>
      th'.seg.loads = rest ∧ th'.v = th.v ∧ th'.seg.results.length = th.seg.results.length ∧
      ∀ r ∈ th.seg.results, r.id = l.id → r.ready = false →
        { r with ready := true, writes := (returnWrites l.kind l.bytes).1, value := (returnWrites l.kind l.bytes).2 }
          ∈ th'.seg.results) ∧
  (∀ s t g th l rest va, findThread s t = some (g, th) → th.seg.loads = l :: rest → l.poison = none →
    l.mismatch = some va → th.seg.checked = false →
    Goes (exec (.loadReturn t) s) fun s' => ThreadIs s' t fun th' => th'.seg.missed = true ∧ th'.seg.loads = rest ∧
      th'.status = th.status ∧ th'.v = th.v ∧ th'.seg.results.length = th.seg.results.length) ∧
  (∀ s t g th l rest, findThread s t = some (g, th) → th.seg.loads = l :: rest → l.poison.isSome = true →
    th.seg.missed = true →
    Goes (exec (.loadReturn t) s) fun s' => ThreadIs s' t fun th' => th'.seg.missed = true ∧ th'.seg.loads = rest ∧
      th'.status = th.status ∧ th'.v = th.v ∧ th'.seg.results.length = th.seg.results.length) ∧
  (∀ s t g th k, findThread s t = some (g, th) → g.core = some k → th.status = .committing → (getCore s k).fatal = false →
    passStopping s g = false → th.seg.gather = false → th.seg.loads = [] → th.seg.held = false → th.seg.again = false →
    th.seg.suspect = false → th.seg.missed = true →
    Goes (exec (.segmentCommit t) s) fun s' => ThreadIs s' t fun th' => th'.status = .committing ∧ th'.seg.again = true ∧
      th'.pc = th.seg.startPc ∧ th'.hdr = th.seg.startHdr ∧ th'.seg.results = [] ∧ th'.seg.loads = [] ∧
      th'.seg.stores = [] ∧ th'.seg.effect = none ∧ th'.seg.checked = true ∧ th'.seg.missed = false ∧
      th'.v = th.v ∧ th'.p = th.p ∧ th'.k = th.k) ∧
  ∀ s cluster c, s.clusters[cluster]? = some c → c.droop = false →
    c.quietSince + 256 ≤ (getCore s (4 * cluster)).cycles.toNat →
    Goes (exec (.droopHoldRelease cluster) s) fun s' => ∀ g ∈ s.groups, ∀ th ∈ g.threads, ∀ k,
      findThread s (refOf g th) = some (g, th) → g.core = some k → clusterOf k = cluster → th.status = .committing →
      th.seg.held = true → ThreadIs s' (refOf g th) fun th' =>
        th'.status = .committing ∧ th'.seg.again = true ∧ th'.pc = th.seg.startPc ∧ th'.hdr = th.seg.startHdr ∧
        th'.seg.results = []


/-! ## Stores, atomics, waits, fences and queues -/

/-- The oldest committed store of a thread leaves its store buffer unless an earlier reduction of the thread to its bytes
holds it back; its bytes enter L1 or the scratchpad and are what its core reads from then on, and no other byte changes; only
where L1 has no room for their lines may a line it evicts, with its dirty bytes written back, read as the home slice holds it.
A store that a load of its thread on path S has read is at the home slice when it leaves, and path S holds nothing older (R236;
log 22, DEDUCED).
The bytes of a `.line` event, which leaves as one when every thread's part is at the head of its buffer, are performed at the
home slice (R110, R113, R217, R235, R236). -/
def Obligations.StoresDrain : Prop :=
  let cell := fun (l : List Host.Cell) (a : Nat) => (l.reverse.find? fun c => c.1 = a).map Prod.snd
  (∀ s t g th k st rest, findThread s t = some (g, th) → g.core = some k → s.Inv → k < 128 → th.buffer = st :: rest →
    storeBlocked s t st = false → st.event = none →
    Goes (exec (.storeDrain t) s) fun s' =>
      ThreadIs s' t (fun th' => th'.buffer = rest) ∧
      (∀ a, match cell (memCells st.bytes) a with
        | some b => vByte s' k a = b
        | none => vByte s' k a = vByte s k a ∨ vByte s' k a = homeByte s (dieOf k) a) ∧
      ((∀ c ∈ memCells st.bytes, hasRoom (getCore s k) (lineOf c.1) = true) →
        (∀ a, cell (memCells st.bytes) a = none → vByte s' k a = vByte s k a) ∧
        ∀ a d j, j ≠ k → (st.seen = false ∨ cell (memCells st.bytes) a = none) →
          vByte s' j a = vByte s j a ∧ homeByte s' d a = homeByte s d a) ∧
      (st.seen = true → ∀ a b, cell (memCells st.bytes) a = some b → homeByte s' (dieOf k) a = b ∧ sByte s' k a = b) ∧
      (∀ a d, d ≠ dieOf k → homeByte s' d a = homeByte s d a) ∧
      (∀ o, padByteOf s' t.group o = (cell (padCells st.bytes) o).getD (padByteOf s t.group o)) ∧
      ∀ n o, n ≠ t.group → padByteOf s' n o = padByteOf s n o) ∧
  (∀ s t g th k st rest n, findThread s t = some (g, th) → g.core = some k → s.Inv → k < 128 →
    th.buffer = st :: rest → storeBlocked s t st = false → st.event = some n → lineReady g t.row n = true →
    (g.threads.map fun u => (u.row, u.lane)).Nodup →
    Goes (exec (.storeDrain t) s) fun s' =>
      let bytes := (lineMembers g t.row n).flatMap fun u => ((headStore u).map Store.bytes).getD []
      ThreadIs s' t (fun th' => th'.buffer = rest) ∧
      (∀ a, match cell (memCells bytes) a with
        | some b => homeByte s' (dieOf k) a = b
        | none => homeByte s' (dieOf k) a = homeByte s (dieOf k) a) ∧
      ∀ a d, d ≠ dieOf k → homeByte s' d a = homeByte s d a) ∧
  ∀ s t g th st rest, findThread s t = some (g, th) → th.buffer = st :: rest → storeBlocked s t st = true →
    exec (.storeDrain t) s = .next s

/-- The atomics of one word on one place are performed as one event, in lane order: each thread receives the value it saw,
and the place holds the last result; a reduction does the same and returns nothing (R120-R123, R244).  At device scope and
wider the place is the home slice of the owner die (R243); in a scratchpad a wider scope acts as group (R123), and the
operation reads what its thread sees there (R249).  The new value is the one R120 gives.  That a scalar which a later commit
has written keeps that value is the model's reading of R17 (DEDUCED, logs 23 and 40). -/
def Obligations.AtomicsPerform : Prop :=
  (∀ s t g th k op type scope ord loc va data new d batch pc hdr,
    Parked s t g th k (.atomic op type scope ord loc va data new d batch pc hdr) → s.Inv → k < 128 → Unmarked s →
    let sc := placeScope loc scope
    let n := typeWidth type
    let wide := decide (n = 8)
    let ops := atomicsOf s g batch loc
    WithinReach s k sc → batchPending s g batch loc = false → (ops.map AtomicOne.thread).Nodup →
    (∀ a ∈ ops, Quiet s a.thread ∧ destPending s a.thread wide d = false ∧ (a.thread = t ∨ SeesNoMore s a.thread)) →
    Goes (exec (.atomicPerform t) s) fun s' =>
      let out := applyAtomics type (wideOf ((List.range n).map (seenByte s k g th sc va loc))) ops
      (∀ i, i < n → atomicByte s' k g.serial sc va loc i = (toBytes out.1 n).getD i 0) ∧
      ∀ p ∈ out.2, IfThread s' p.1 fun th' => th'.status = .ready ∧
        (∀ i, d = .v i → (i.val < th'.v.length → th'.v.getD i.val 0 = p.2.setWidth 32) ∧
          (wide = true → i.val + 1 < th'.v.length → th'.v.getD (i.val + 1) 0 = p.2.extractLsb' 32 32)) ∧
        ∀ i, d = .s i → ops.length = 1 →
          let receives := fun (j : Nat) (x : Word) => hasScalar s p.1.group p.1.row j →
            scalarOf s' p.1.group p.1.row j = if overtaken s p.1 (.s j 0) then scalarOf s p.1.group p.1.row j else x
          receives i.val (p.2.setWidth 32) ∧ (wide = true → receives (i.val + 1) (p.2.extractLsb' 32 32))) ∧
  (∀ s r g th, s.reductions = [r] → findThread s r.thread = some (g, th) → s.Inv → r.core < 128 → Unmarked s →
    let sc := placeScope r.loc r.scope
    let n := typeWidth r.type
    WithinReach s r.core sc → batchPending s g r.batch r.loc = false → th.buffer = [] →
    Goes (exec (.reductionPerform r.id) s) fun s' => s'.reductions = [] ∧
      ∀ i, i < n → atomicByte s' r.core g.serial sc r.va r.loc i =
        (toBytes (atomicNew r.op r.type (wideOf ((List.range n).map (seenByte s r.core g th sc r.va r.loc))) r.data 0)
          n).getD i 0) ∧
  (∀ va, ownerDie va = ((List.range 36).countP fun i => va.testBit (12 + i)) % 2) ∧
  (∀ (m v n : Wide), m.toNat < 2 ^ 32 → v.toNat < 2 ^ 32 →
    (∃ r, SumRounds 0 0 (unpack 0 m.toNat) (unpack 0 v.toNat) r ∧ atomicNew .add 10 m v n = BitVec.ofNat 64 r) ∧
    atomicNew .min 10 m v n = BitVec.ofNat 64 (pickBits 0 false m.toNat v.toNat) ∧
    atomicNew .max 10 m v n = BitVec.ofNat 64 (pickBits 0 true m.toNat v.toNat)) ∧
  ∀ (type : Nat) (m v n : Wide),
    let w := decide (type = 3 ∨ type = 7)
    let sgn := decide (type = 2 ∨ type = 3)
    (type ≠ 10 → atomicNew .add type m v n = lowWord w (m + v) ∧
      atomicNew .min type m v n = (if number w sgn v < number w sgn m then v else m) ∧
      atomicNew .max type m v n = (if number w sgn m < number w sgn v then v else m)) ∧
    atomicNew .and type m v n = m &&& v ∧ atomicNew .or type m v n = m ||| v ∧ atomicNew .xor type m v n = m ^^^ v ∧
    atomicNew .xchg type m v n = v ∧ atomicNew .cas type m v n = if m = v then n else m

/-- `waita` reads its bytes at the home slice, or in the scratchpad as its thread sees them, and 0 on a discarded page (R124,
R220, R249).  It ends when its condition holds, at once or when the slew limiter admits its cluster, or when its timeout has run
out, which clears its guard predicate; otherwise it waits in the wait table or its refusal queue (R124, R125, R351).  That a
wait which holds at its first evaluation is not held back by the limiter is read from R351 (log 24).  Fences complete when
the thread's writes have, and drop what an acquire drops (R126); that a release of scope die or wider writes back every dirty
byte of the core is log 22 (DEDUCED from R126 and R217); an `xfence` leaves no engine write of its source path
unperformed in its scope, and no copy older than the writes it orders in the caches of the other path (R127, R248).  A bank
serves its oldest pusher or popper (R136). -/
def Obligations.WaitsFencesAndQueues : Prop :=
  let clean := fun (s : State) (k : Nat) (loc : Loc) (n : Nat) => match loc with
    | .mem a => ∀ i, i < n → Memory.read (getCore s k).l1Dirty (a + i) = none
    | .pad _ => True
  let holds := fun (s : State) (k : Nat) (g : Group) (th : Thread) (type cond : Nat) (loc : Loc) (va : Nat) (cmp : Wide) =>
    let value := if waitDiscarded s k loc va then 0 else wideOf ((List.range (typeWidth type)).map fun i => match loc with
      | .mem a => homeByte s (dieOf k) (a + i)
      | .pad o => padSeen s g th (o + i))
    condHolds cond (numOf (typeWidth type = 8) (type = 2 || type = 3) value)
      (numOf (typeWidth type = 8) (type = 2 || type = 3) cmp)
  (∀ s t g th k type cond loc va cmp timeout guard issued pc hdr,
    Parked s t g th k (.wait type cond loc va cmp timeout guard issued pc hdr) → findGroup s g.serial = some g →
    th.held = false → th.buffer = [] → Unmarked s → clean s k loc (typeWidth type) → isRefused (getCore s k) t = false →
    Goes (exec (.waitaReeval t) s) fun s' =>
      (holds s k g th type cond loc va cmp = true → ThreadIs s' t fun th' =>
        if holdsEntry (getCore s k) t && quietCluster s (clusterOf k) then th'.status = .parkedEffect ∧ th'.held = true
        else th'.status = .ready) ∧
      (holds s k g th type cond loc va cmp = false → timeout = none → ThreadIs s' t (fun th' =>
        th'.status = .parkedEffect ∧ th'.waiting = th.waiting) ∧
        (holdsEntry (getCore s' k) t = true ∨ isRefused (getCore s' k) t = true))) ∧
  (∀ s t g th k type cond loc va cmp c guard issued pc hdr,
    Parked s t g th k (.wait type cond loc va cmp (some c) guard issued pc hdr) → findGroup s g.serial = some g →
    th.held = false → th.buffer = [] → Unmarked s → clean s k loc (typeWidth type) →
    issued + c.toNat ≤ (getCore s k).cycles.toNat → holds s k g th type cond loc va cmp = false →
    Goes (exec (.waitaTimeout t) s) fun s' => ThreadIs s' t fun th' => th'.status = .ready ∧
      (0 < guard → guard < 8 → th'.p.getLsbD guard = false)) ∧
  (∀ s t g th k type cond loc va cmp guard issued pc hdr m,
    Parked s t g th k (.wait type cond loc va cmp none guard issued pc hdr) → findGroup s g.serial = some g →
    th.held = false → th.buffer = [] → Unmarked s → clean s k loc (typeWidth type) →
    ((getCore s k).refused.find? fun r => r.1 = t) = some m → m.2 + 256 ≤ (getCore s k).cycles.toNat →
    Goes (exec (.waitaPoll t) s) fun s' =>
      (holds s k g th type cond loc va cmp = true → quietCluster s (clusterOf k) = false →
        ThreadIs s' t fun th' => th'.status = .ready) ∧
      (holds s k g th type cond loc va cmp = false → (t, (getCore s k).cycles.toNat) ∈ (getCore s' k).refused)) ∧
  (∀ s die d n, s.dies[die]? = some d → d.slewUsed = 0 →
    (admitOrder die d.slewLast).find? (fun c => !(heldThreads s c).isEmpty) = some n →
    Goes (exec (.wakeAdmit die) s) fun s' => (∀ u ∈ heldThreads s n, IfThread s' u fun th => th.status = .ready) ∧
      (getDie s' die).slewUsed ≤ 8 ∧ (getDie s' die).slewAt = refCycles s) ∧
  (∀ s t g th k scope ord, Parked s t g th k (.fence scope ord) → Quiet s t →
    ((ord = 2 ∨ ord = 3) → scopeDone (releaseWork s t k scope) k scope = true) →
    Goes (exec (.fenceComplete t) s) fun s' => ThreadIs s' t (fun th' => th'.status = .ready) ∧
      ((ord = 1 ∨ ord = 3) → 3 ≤ scope → (getCore s' k).l1Clean = []) ∧
      ((ord = 2 ∨ ord = 3) → 3 ≤ scope → (getCore s' k).l1Dirty = [])) ∧
  (∀ s t g th k scope src dst, Parked s t g th k (.xfence scope src dst) → Quiet s t → (∀ c ∈ s.copies, c.thread ≠ t) →
    (∀ i ∈ (getCore s k).mxQueue, i.thread ≠ t) → (∀ r, (getCore s k).mxRun = some r → r.item.thread ≠ t) →
    (scope < 4 ∨ (LinkIdle s ∧ (getCore s k).l1Dirty = [] ∧ s.late = [])) →
    Goes (exec (.xfenceComplete t) s) fun s' => ThreadIs s' t (fun th' => th'.status = .ready) ∧
      (∀ l ∈ s'.late, l.path = src → coreInScope scope k l.core = false) ∧
      ∀ j, coreInScope scope k j = true →
        let fresh := fun (cache : List CacheLine) => ∀ l ∈ cache, staleLine s' (writtenIn scope k src) l = false
        (dst = .v → (getCore s' j).l1Clean = []) ∧ (dst = .s → fresh (getCore s' j).sCache) ∧
        (dst = .a → fresh (getCore s' j).aCache) ∧ (dst = .m → fresh (getCore s' j).mCache)) ∧
  (∀ s t g th k core bank wide try_ data scope guard,
    Parked s t g th k (.push bank core wide try_ data scope guard) → Quiet s t → core < s.cores.length →
    bank < (getCore s core).banks.length → queueScope scope k core < 4 → firstParked s core bank true = some t →
    (getBank s core bank).entries.length + (if wide then 2 else 1) ≤ 4096 →
    Goes (exec (.queueServe core bank) s) fun s' => ThreadIs s' t (fun th' => th'.status = .ready) ∧
      (getBank s' core bank).parked = (getBank s core bank).parked.filter (fun u => u ≠ t) ∧
      (getBank s' core bank).entries = (getBank s core bank).entries ++
        (if wide then [data.setWidth 32, data.extractLsb' 32 32] else [data.setWidth 32])) ∧
  ∀ s t g th k core bank wide try_ d scope guard,
    Parked s t g th k (.pop bank core wide try_ d scope guard) → core < s.cores.length →
    bank < (getCore s core).banks.length → firstParked s core bank true = none → firstParked s core bank false = some t →
    (getBank s core bank).holds = [] → (getBank s core bank).bad = [] → destPending s t wide d = false →
    (if wide then 2 else 1) ≤ (getBank s core bank).entries.length →
    Goes (exec (.queueServe core bank) s) fun s' =>
      let e := fun (i : Nat) => (getBank s core bank).entries.getD i 0
      ThreadIs s' t (fun th' => th'.status = .ready ∧ ∀ i, d = .v i →
        (i.val < th'.v.length → th'.v.getD i.val 0 = e 0) ∧
        (wide = true → i.val + 1 < th'.v.length → th'.v.getD (i.val + 1) 0 = e 1)) ∧
      (getBank s' core bank).parked = (getBank s core bank).parked.filter (fun u => u ≠ t) ∧
      (getBank s' core bank).entries = (getBank s core bank).entries.drop (if wide then 2 else 1)


/-! ## Copy, bank, matrix and tier engines -/

/-- A piece of a copy moves the bytes of all its runs on path A, through the swizzle of a scratchpad end, and nothing else, and
sets the tags of the scratchpad it writes; a piece of which an end does not translate joins the fix-up list, where it waits on
the notice of its page; a listed piece whose notice is
answered otherwise than by retry, or which finds its page still absent after a retry, fails with status 1; the end of a copy
reports the bytes moved and the status to its token
or its arrival word (R130-R132, R221, R332, R342).  That the bytes written are held back on path A, and that all other readers
see what stood there, until a crossing or an `xfence`, is the model's reading of R247 (DEDUCED, log 27); so is the size of a
piece, which is every run of the copy that lies in its translation units.  A bank changes its role in the steps of R216: a cache bank stops
allocating, its lines leave and its role changes, every core's copy follows and the token is written; or the request is
refused with a status (R156).  That a request for a bank which is leaving already waits is log 16. -/
def Obligations.CopiesAndBankSwitches : Prop :=
  let copy := fun (s : State) (id : Nat) => s.copies.find? fun c => c.id = id
  let place := fun (z : Nat) (loc : Loc) (i : Nat) => match loc with
    | .mem a => Loc.mem (a + i)
    | .pad o => Loc.pad (swizzled z (o + i))
  let lands := fun (s : State) (k : Nat) (m : Move) (i : Nat) (p : Loc) =>
    ∃ dst z, placeEnd s k .write m.dst = .ok (dst, z) ∧ place m.dst.swizzle dst i = p
  (∀ s id c g k runs left, copy s id = some c → findGroup s c.thread.group = some g → g.core = some k →
    c.todo ≠ [] → takePiece s k c.todo = (runs, left) → c.fixups.length < 16 → storesBefore s c.thread c.id = false →
    (∀ m ∈ runs, moveWaits s m = false ∧ (∃ src, placeEnd s k .read m.src = .ok src) ∧ ∃ dst, placeEnd s k .write m.dst = .ok dst) →
    Unmarked s → (getCore s k).aCache = [] →
    (∀ m ∈ runs, ∀ a zero, placeEnd s k .read m.src = .ok (.mem a, zero) →
      ∀ i < m.len, Memory.read (getCore s k).l1Dirty (a + i) = none) →
    Goes (exec (.copyPiece id) s) fun s' =>
      (∃ c', copy s' id = some c' ∧ c'.todo = left ∧ c'.moved = c.moved + (runs.map Move.len).sum) ∧
      (∀ p, (∀ m ∈ runs, ∀ i < m.len, ¬lands s k m i p) → aByte s' k g p = aByte s k g p) ∧
      (∀ m ∈ runs, ∀ i < m.len, ∀ p src zero, lands s k m i p → placeEnd s k .read m.src = .ok (src, zero) →
        (∀ n ∈ runs, ∀ j < n.len, lands s k n j p → n = m ∧ j = i) →
        aByte s' k g p = if zero then 0 else aByte s k g (place m.src.swizzle src i)) ∧
      (∀ x d, homeByte s' d x = homeByte s d x) ∧ (∀ n o, padByteOf s' n o = padByteOf s n o) ∧
      ∀ m ∈ runs, (∀ n ∈ runs, n.dst.swizzle = m.dst.swizzle) → ∀ o z i, placeEnd s k .write m.dst = .ok (.pad o, z) →
        i < m.len → (o + i) / 1024 < g.tags.length →
        (findGroup s' g.serial).map (fun h => h.tags.getD ((o + i) / 1024) 0) = some m.dst.swizzle) ∧
  (∀ s id c g k m runs left n e, copy s id = some c → findGroup s c.thread.group = some g → g.core = some k →
    takePiece s k c.todo = (m :: runs, left) → c.fixups.length < 16 → storesBefore s c.thread c.id = false →
    (∀ r ∈ m :: runs, moveWaits s r = false) → n ∈ m :: runs →
    (placeEnd s k .read n.src = .error e ∨ placeEnd s k .write n.dst = .error e) →
    Goes (exec (.copyPiece id) s) fun s' => ∃ c', copy s' id = some c' ∧ c'.todo = left ∧ c'.moved = c.moved ∧
      c'.fixups = c.fixups ++ [(m :: runs, (absentPage s k m).bind fun p => openNotice s (.page p, 0x13))]) ∧
  (∀ s id c g k ms n rest a, copy s id = some c → findGroup s c.thread.group = some g → g.core = some k →
    c.fixups = (ms, some n) :: rest → pieceAnswer s n = some a → a ≠ .retry →
    Goes (exec (.copyFixupResolve id) s) fun s' => ∃ c', copy s' id = some c' ∧ c'.fixups = rest ∧
      c'.failed = c.failed ++ ms.map fun m => (m.dst.order, 1)) ∧
  (∀ s id c g k m n rest, copy s id = some c → findGroup s c.thread.group = some g → g.core = some k →
    c.fixups = ([m], some n) :: rest → pieceAnswer s n = some .retry → moveWaits s m = false →
    (∀ va, placeEnd s k .read m.src = .error (.absent va) →
      Goes (exec (.copyFixupResolve id) s) fun s' => ∃ c', copy s' id = some c' ∧ c'.fixups = rest ∧
        c'.failed = c.failed ++ [(m.dst.order, 1)]) ∧
    ∀ src dst, placeEnd s k .read m.src = .ok src → placeEnd s k .write m.dst = .ok dst → Unmarked s →
      Goes (exec (.copyFixupResolve id) s) fun s' => ∃ c', copy s' id = some c' ∧ c'.fixups = rest ∧
        c'.failed = c.failed ∧ c'.moved = c.moved + m.len) ∧
  (∀ s id c g k m rest va, copy s id = some c → findGroup s c.thread.group = some g → g.core = some k →
    c.fixups = ([m], none) :: rest → moveWaits s m = false → placeEnd s k .read m.src = .error (.absent va) →
    Goes (exec (.copyFixupResolve id) s) fun s' => ∃ c' n, copy s' id = some c' ∧
      c'.fixups.head? = some ([m], some n) ∧ c'.fixups.map Prod.fst = c.fixups.map Prod.fst ∧
      outstanding s' (.page (va / 65536)) 0x13 = true) ∧
  (∀ s id c g k row n, copy s id = some c → findGroup s c.thread.group = some g → g.core = some k → c.todo = [] →
    c.fixups = [] → c.cancelled = false → c.arrival = .token row n → n < 16 → hasScalar s g.serial row n →
    Goes (exec (.copyComplete id) s) fun s' => copy s' id = none ∧ pendingOf s' g.serial row n = false ∧
      scalarOf s' g.serial row n = BitVec.ofNat 32 (c.moved % 2 ^ 25 + copyStatus c * 2 ^ 28)) ∧
  (∀ s id c g k o, copy s id = some c → findGroup s c.thread.group = some g → g.core = some k → c.todo = [] →
    c.fixups = [] → c.cancelled = false → c.arrival = .word o → s.Inv →
    Goes (exec (.copyComplete id) s) fun s' => copy s' id = none ∧
      (findGroup s' g.serial).map (fun h => padWord h o) = some
        (if copyStatus c = 0 then padWord g o + BitVec.ofNat 32 c.moved else padWord g o ||| 0x8000_0000)) ∧
  (∀ c : Copy, c.failed ≠ [] → ∃ x ∈ c.failed, copyStatus c = x.2 ∧ ∀ y ∈ c.failed, x.1 ≤ y.1) ∧
  ∀ (s : State) (id : Nat) (r : BankRequest), (s.bankRequests.find? fun x => x.id = id) = some r →
    hasScalar s r.group r.row r.token →
    let bank := (r.request.extractLsb' 0 5).toNat
    let k := (r.request.extractLsb' 7 7).toNat
    let gone := fun (s' : State) => ∀ x ∈ s'.bankRequests, x.id ≠ id
    let goesTo := fun (s' : State) (n : Nat) => (s'.bankRequests.find? fun x => x.id = id) = some { r with stage := n }
    let token := fun (s' : State) => scalarOf s' r.group r.row r.token
    (r.request.toNat / 2 ^ 14 ≠ 0 ∨ (r.request.extractLsb' 5 2).toNat = 3 →
      Goes (exec (.bankSwitch id) s) fun s' => gone s' ∧ token s' = 0x5000_0000) ∧
    ∀ role, [(0, BankRole.cache), (1, .pad), (2, .fifo)].contains ((r.request.extractLsb' 5 2).toNat, role) = true →
      r.request.toNat / 2 ^ 14 = 0 → k < s.cores.length → bank < (getCore s k).banks.length →
      let old := getBank s k bank
      (r.stage = 0 → old.leaving = true → exec (.bankSwitch id) s = .next s) ∧
      (∀ n, r.stage = 0 → old.leaving = false → bankRefused s k bank role = some n →
        Goes (exec (.bankSwitch id) s) fun s' => gone s' ∧ token s' = BitVec.ofNat 32 (n * 2 ^ 28) ∧ getBank s' k bank = old) ∧
      (r.stage = 0 → old.leaving = false → bankRefused s k bank role = none → old.role = .cache →
        Goes (exec (.bankSwitch id) s) fun s' => goesTo s' 1 ∧ getBank s' k bank = { old with leaving := true }) ∧
      (r.stage = 1 ∨ (r.stage = 0 ∧ old.leaving = false ∧ bankRefused s k bank role = none ∧ old.role ≠ .cache) →
        Goes (exec (.bankSwitch id) s) fun s' => goesTo s' 2 ∧ getBank s' k bank = ⟨role, none, [], [], [], 0, [], false⟩ ∧
          (old.role = .cache → ∀ l ∈ (getCore s' k).l1Lines, l.bank ≠ bank)) ∧
      (2 ≤ r.stage → Goes (exec (.bankSwitch id) s) fun s' => gone s' ∧ token s' = 0 ∧
        ∀ c ∈ s'.cores, c.roleCopy.find? (fun x => x.1 = k && x.2.1 = bank) =
          if role = .cache then none else some (k, bank, role))

/-- The matrix engine takes the next operation of its queue: an `mxop` computes every element of D from the rows of A, the
columns of B, which it loads when they are not resident, and C, as it reads them on path M (R160, R163), by the function of
R164: the exact group sums, aligned to the greatest exponent, cut off 24 bits below it and rounded once.  An execution with no
failure writes its token, and D, which a
thread that has read the token sees, a suspect one is executed again, four times at most; an idle test fences what fails, the
sub-arrays of which a column's outputs for the test planes differ from its check sums (R160, R161, R163, R164, R166, R308,
R310, R312-R314).  That the separate scales of B are read through b_swizzle and those of A linearly, and that a handle counts as
it stands at the start, is log 44 (DESIGN CHOICE). -/
def Obligations.MatrixEngineRuns : Prop :=
  (∀ s core c i rest, s.cores[core]? = some c → c.mxRun = none → c.mxQueue = i :: rest → c.fatal = false →
    storesBefore s i.thread i.order = false →
    Goes (exec (.mxOpStart core) s) fun s' => (getCore s' core).mxQueue = rest ∧
      match i.work with
      | .drop mask => IfThread s' i.thread (fun th => th.status = .ready) ∧
          ∀ h, h < 16 → mask.getLsbD h = true → (getCore s' core).handles.getD h none = none
      | .unload mask => IfThread s' i.thread (fun th => th.status = .ready) ∧
          ∀ h, h < 16 → mask.getLsbD h = true → isResident (getCore s' core) h = false
      | .load h d => (∃ r, (getCore s' core).mxRun = some r ∧ r.item = i ∧ r.executions = 1) ∧
          (h < c.handles.length → ∃ x, (getCore s' core).handles.getD h none = some x ∧ x.desc = d)
      | .op _ => ∃ r, (getCore s' core).mxRun = some r ∧ r.item = i ∧ r.executions = 1) ∧
  (∀ s core c i rest b h g, s.cores[core]? = some c → c.mxRun = none → c.mxQueue = i :: rest → c.fatal = false →
    storesBefore s i.thread i.order = false → i.work = .op b → c.mCache = [] → findGroup s i.thread.group = some g →
    let p := mxBlock b
    c.handles.getD p.handle none = some h →
    let q := mxDesc h.desc
    (isResident c p.handle = true ∨ (chooseRun c q.width).isSome = true) →
    let saw := ((findThread s i.thread).map fun u => u.2.saw).getD []
    let byte := fun (z o : Nat) =>
      (lateByte s g.serial (fun l => (l.path = .m && l.core = core) || saw.contains l.id) (.pad (swizzled z o))).getD
        (padByte g (swizzled z o))
    let image := if isResident c p.handle then h.image else (List.range (columnsOf h.slotWord q.width)).map
      (readVec (byte q.swizzle) (byte q.swizzle) h.slotWord q.addr q.pitch q.scales)
    let slot := (groupSlots s g.serial).getD p.slot 0
    Goes (exec (.mxOpStart core) s) fun s' => ∃ r, (getCore s' core).mxRun = some r ∧
      r.d.length = p.rows * image.length ∧ ∀ m < p.rows, ∀ n < image.length,
        let acc : Word := if p.cZero then 0
          else BitVec.ofNat 32 (ofBytes ((List.range 4).map fun j => byte p.swizzle (p.c + m * p.cPitch + 4 * n + j)))
        r.d[m * image.length + n]? = some (p.d + m * p.dPitch + 4 * n, mxElement slot h.slotWord
          (readVec (byte p.swizzle) (byte 0) slot p.a p.aPitch p.aScales m) (image.getD n ⟨[], []⟩) acc)) ∧
  (∀ s core c r b, s.cores[core]? = some c → c.mxRun = some r → r.item.work = .op b → r.status = 0 → r.misses = [] →
    r.suspect = false → (∀ i ∈ r.run, failingSubs c i = []) → r.item.token < 16 →
    hasScalar s r.item.thread.group r.item.thread.row r.item.token →
    Goes (exec (.mxOpComplete core) s) fun s' => (getCore s' core).mxRun = none ∧
      pendingOf s' r.item.thread.group r.item.thread.row r.item.token = false ∧
      scalarOf s' r.item.thread.group r.item.thread.row r.item.token =
        tokenWord r.d.length r.reloaded (decide (1 < r.executions)) 0 ∧
      ∀ o x i, i < 4 → (o, x) ∈ r.d → (∀ q ∈ r.d, q = (o, x) ∨ q.1 + 4 ≤ o ∨ o + 4 ≤ q.1) →
        ∀ g th, g.serial = r.item.thread.group → th.saw.contains r.item.order = true →
          padSeen s' g th (o + i) = (toBytes x 4).getD i 0) ∧
  (∀ s core c r b, s.cores[core]? = some c → c.mxRun = some r → r.item.work = .op b → r.status = 0 → r.misses = [] →
    r.suspect = true → (∀ i ∈ r.run, failingSubs c i = []) → r.executions < 4 →
    Goes (exec (.mxOpComplete core) s) fun s' => ∃ r', (getCore s' core).mxRun = some r' ∧ r'.item = r.item ∧
      r'.executions = r.executions + 1) ∧
  (∀ s core c mac m, s.cores[core]? = some c → c.macs[mac]? = some m → m.holds.isSome = true → c.mxRun = none →
    m.touched + 65536 ≤ refCycles s → failingSubs c mac = [] →
    Goes (exec (.mxIdleSelfTest core mac) s) fun s' => s'.notices = s.notices ∧
      (getCore s' core).macs[mac]? = some { m with touched := refCycles s }) ∧
  (∀ s core c mac m sub, s.cores[core]? = some c → c.macs[mac]? = some m → m.holds.isSome = true → c.mxRun = none →
    m.touched + 65536 ≤ refCycles s → failingSubs c mac = [sub] →
    Goes (exec (.mxIdleSelfTest core mac) s) fun s' => s'.notices.length = s.notices.length + 1 ∧
      (getCore s' core).testsFailed = stop16 c.testsFailed 1 ∧
      ∃ m', (getCore s' core).macs[mac]? = some m' ∧ m'.holds = none ∧
        m'.errors = m.errors.filter (fun e => e.1 ≠ sub) ∧ m'.cond = if m.cond = .clean then .spared else .out) ∧
  (∀ c mac m, c.macs[mac]? = some m → m.sums = (heldColumns c mac).2.map (columnSums (heldColumns c mac).1) →
    ∀ sub < 8, sub ∈ failingSubs c mac ↔ ∃ column < (heldColumns c mac).2.length,
      ((m.errors.filter fun e => e.1 = sub && e.2.1 = column).map fun e => e.2.2).sum ≠ 0) ∧
  ∀ (sa sb : Wide) (a b : MxVec) (c : Word),
    ((mxInvalid sa a = true ∨ mxInvalid sb b = true) → mxElement sa sb a b c = 0x7FC0_0000) ∧
    (isNan 0 c.toNat = true → mxElement sa sb a b c = 0x7FC0_0000) ∧
    (mxInvalid sa a = false → mxInvalid sb b = false → (∀ g, g < 8 → mxGroupSum (slotElem sa) (slotElem sb) a b g = 0) →
      isNan 0 c.toNat = false → mxElement sa sb a b c = c) ∧
    (mxInvalid sa a = false → mxInvalid sb b = false → ∀ p, unpack 0 c.toNat = .inf p → mxElement sa sb a b c = c) ∧
    (mxInvalid sa a = false → mxInvalid sb b = false → ∀ p m e, unpack 0 c.toNat = .fin p m e →
      let elem := fun (slot : Wide) (v : MxVec) (k : Nat) => (elemVal (slotElem slot) (v.elems.getD k 0)).number
      let scale := fun (slot : Wide) (v : MxVec) (g : Nat) => match scaleOf (slotSm8 slot) (v.scales.getD g 0) with
        | some (k, f) => (k : Rat) * 2 ^ f
        | none => 0
      let T := fun (i : Nat) => if i = 8 then (FVal.fin p m e).number
        else ((List.range 32).map fun j => elem sa a (32 * i + j) * elem sb b (32 * i + j)).sum * scale sa a i * scale sb b i
      ((∀ i < 9, T i = 0) → mxElement sa sb a b c = c) ∧
      ∀ emax : Int, (∃ i < 9, T i ≠ 0 ∧ Int.log 2 |T i| = emax) → (∀ i < 9, T i ≠ 0 → Int.log 2 |T i| ≤ emax) →
        let S : Int := ((List.range 9).map fun i => ⌊T i * 2 ^ (24 - emax)⌋).sum
        ∃ r, RoundsTo 0 0 (decide (S < 0)) (exactly |(S : Rat) * 2 ^ (emax - 24)|) r ∧
          mxElement sa sb a b c = BitVec.ofNat 32 r)

/-- Moves between the tiers: a move is decided with a status, or takes frames of the pool and begins; at its switch the entry
names the new tier and the mover hears of it (R137, R316-R318, R320).  That the table stands in the board tier at the base the
host has set is log 11 (DEDUCED); that a move waits while stores hold frames of the pool translated is log 41.  Where an accessed page of a vault at 4x refresh is mapped and another vault of
the die has a free frame, the page most accessed in the last 4,096 ns begins to move to the coolest such vault, and its switch
frees the old frame (R214, R297; the choice among pages accessed equally often is log 50). -/
def Obligations.TierMovesAndHotPages : Prop :=
  let told := fun (s s' : State) (tensor group row token units status : Nat) =>
    s'.moves = dropFirstMove tensor s.moves ∧ scalarOf s' group row token = moveToken units status
  (∀ s tensor m group row token user, firstMove s tensor = some m → m.started = false →
    m.mover = .thread group row token user → hasScalar s group row token →
    Goes (exec (.tierMoveStart tensor) s) fun s' =>
      let e := tensorOf s tensor
      if tensorOk s tensor e = false then told s s' tensor group row token 0 4
      else if user = true ∧ e.userOk = false then told s s' tensor group row token 0 5
      else if e.home = m.tier then told s s' tensor group row token 0 1
      else if (poolOf s m.tier).length < e.units then told s s' tensor group row token 0 3
      else if (usable s m.tier).length < e.units then s' = s
      else
        let frames := (usable s m.tier).take e.units
        poolOf s' m.tier = ((poolOf s m.tier).filter fun f => f ∉ frames) ∧
        firstMove s' tensor = some { m with started := true, dest := e.range m.tier, frames := frames }) ∧
  (∀ s tier f, f ∈ usable s tier ↔ f ∈ poolOf s tier ∧ frameHeld s (tierBase tier + f) = false) ∧
  (∀ s tensor m group row token user, firstMove s tensor = some m → m.started = true → s.Inv → m.tier < 3 →
    m.mover = .thread group row token user → hasScalar s group row token →
    (s.moves.filter fun x => x.handle = tensor) = [m] →
    Goes (exec (.tierMoveSwitch tensor) s) fun s' =>
      (s'.moves.filter fun x => x.handle = tensor) = [] ∧
      ((homeByte s' 0 (tensorOf s tensor).at_).extractLsb' 2 2).toNat = m.tier ∧
      (scalarOf s' group row token = moveToken m.frames.length 0 ∨ scalarOf s' group row token = moveToken m.frames.length 2)) ∧
  (∀ s vault v, s.vaults[vault]? = some v → v.band = 2 → (s.policy.getD 2 0).getLsbD 4 = true →
    (∀ n, v.movedPage = some n → n + 10000 ≤ s.time.toNat) →
    Goes (exec (.hotPageMove vault) s) fun s' => s'.vaults[vault]? = some { v with movedPage := some s.time.toNat } ∧
      (vaultPages s vault = [] ∨ coolestVault s vault = none → s'.pageMoves = s.pageMoves ∧ s'.pools = s.pools) ∧
      ∀ w, coolestVault s vault = some w → vaultPages s vault ≠ [] →
        (∀ x ∈ s.pageMoves, ∀ p ∈ vaultPages s vault, x.va ≠ p.1) →
        ∃ id va src dst, s'.pageMoves = s.pageMoves ++ [⟨id, va, src, dst⟩] ∧ (va, src) ∈ vaultPages s vault ∧
          (∀ p ∈ vaultPages s vault, pageUse s p.2 ≤ pageUse s src) ∧ (freeIn s w).head? = some dst ∧
          poolOf s' 0 = (poolOf s 0).filter (· ≠ dst)) ∧
  (∀ s v,
    let candidate := fun (u : Nat) => u / 4 = v / 4 ∧ u ≠ v ∧ freeIn s u ≠ []
    (coolestVault s v = none ↔ ∀ u, ¬candidate u) ∧
    ∀ w, coolestVault s v = some w → candidate w ∧ ∀ u, candidate u → vaultTemp s w ≤ vaultTemp s u) ∧
  (∀ s v p, p ∈ vaultPages s v → p.2 / 2 ^ 32 = v ∧ p.2 ∈ s.accesses.map Prod.snd) ∧
  ∀ s id m, (s.pageMoves.find? fun x => x.id = id) = some m → s.pools ≠ [] →
    Goes (exec (.pageMoveSwitch id) s) fun s' => s'.pageMoves = s.pageMoves.filter (fun x => x.id ≠ id) ∧
      poolOf s' 0 = poolOf s 0 ++ [m.src]


/-! ## Tiles, groups, graphs and passes -/

/-- The scoreboard decides tile operations in order: a free tile takes the lowest free slot, whose record its acquirer
receives, a tile that is not yet retired gives the same slot again, `tldone` begins its retirement, and a tile in another state
faults its thread; once the writes are performed a tile retires with its readers counted, and the threads parked in `tldone`
and `tlrd` go on; the longest stall takes an overflow place or is told to the host (R168-R171, R277, R279, R280, R283, R285).
A group retires, a graph is accepted and ends, and a pass is stopped, and released once its threads have gone and its writes
are performed, as R76, R275, R276, R286 and R336 say. -/
def Obligations.TilesGroupsAndGraphs : Prop :=
  let entry := fun (s : State) (ctx res tile : Nat) => (findGraph s ctx).bind fun gr => gr.entry res tile
  (∀ s ctx gr q rest r tile e g th b slot slots, findGraph s ctx = some gr → gr.requests = q :: rest →
    gr.resources[q.res]? = some r → r.external = false → tileNumber r (tileX q.b) (tileY q.b) = some tile →
    gr.entry q.res tile = some e → findThread s q.thread = some (g, th) → th.status = .parkedEffect →
    q.op = .acquire b → e.phase = .free → r.freeSlots = slot :: slots → longestStalled gr q.res (fun _ => true) = none →
    Goes (exec (.tileOpProcess ctx q.res) s) fun s' => ∃ e', entry s' ctx q.res tile = some e' ∧
      e'.phase = .acquired ∧ e'.placed = true ∧ e'.inOverflow = false ∧ e'.slot = slot ∧
      ∀ pc, th.waiting = some (.tile q.op q.res q.b pc) → (∀ x ∈ rest, x.thread ≠ q.thread) → g.ctx = ctx → b < g.b.length →
        ThreadIs s' q.thread (fun th' => th'.status = .ready) ∧ recordOfGroup s' q.thread.group b = entryRecord r e' false) ∧
  (∀ s ctx gr q rest r tile e g th b, findGraph s ctx = some gr → gr.requests = q :: rest →
    gr.resources[q.res]? = some r → r.external = false → tileNumber r (tileX q.b) (tileY q.b) = some tile →
    gr.entry q.res tile = some e → findThread s q.thread = some (g, th) → th.status = .parkedEffect →
    q.op = .acquire b → (e.phase = .acquired ∨ e.phase = .retiring) → b < g.b.length →
    Goes (exec (.tileOpProcess ctx q.res) s) fun s' => ThreadIs s' q.thread (fun th' => th'.status = .ready) ∧
      recordOfGroup s' q.thread.group b = entryRecord r e false) ∧
  (∀ s ctx gr q rest r tile e g th, findGraph s ctx = some gr → gr.requests = q :: rest →
    gr.resources[q.res]? = some r → r.external = false → tileNumber r (tileX q.b) (tileY q.b) = some tile →
    gr.entry q.res tile = some e → findThread s q.thread = some (g, th) → th.status = .parkedEffect →
    q.op = .done → e.phase = .acquired →
    Goes (exec (.tileOpProcess ctx q.res) s) fun s' =>
      ∃ e', entry s' ctx q.res tile = some e' ∧ e'.phase = .retiring ∧ e'.holder = some q.thread.group) ∧
  (∀ s ctx gr q rest r tile e g th pc, findGraph s ctx = some gr → gr.requests = q :: rest →
    gr.resources[q.res]? = some r → r.external = false → tileNumber r (tileX q.b) (tileY q.b) = some tile →
    gr.entry q.res tile = some e → findThread s q.thread = some (g, th) → th.status = .parkedEffect →
    th.waiting = some (.tile q.op q.res q.b pc) →
    (q.op = .done ∧ e.phase ≠ .acquired) ∨ (∃ b, q.op = .acquire b ∧ (e.phase = .retired ∨ e.phase = .freed)) →
    Goes (exec (.tileOpProcess ctx q.res) s) fun s' => ThreadIs s' q.thread fun th' =>
      th'.waiting = none ∧ (th'.status = .parkedHost ∨ th'.status = .ready) ∧ th'.faultInfo = 0x131) ∧
  (∀ s ctx res tile gr r e, findGraph s ctx = some gr → gr.resources[res]? = some r → gr.entry res tile = some e →
    e.phase = .retiring →
    ((e.holder.bind (findGroup s) = none ∧ allDone (toAll s) = true) ∨
      ∃ g, e.holder.bind (findGroup s) = some g ∧ (flushGroup s g).2 = true ∧ copiesTo s g.serial (moveInto r e) = false) →
    Goes (exec (.tileRetire ctx res tile) s) fun s' =>
      (∃ e', entry s' ctx res tile = some e' ∧ e'.retired = true ∧ e'.empty = false ∧
        e'.readers = countRefs s ctx res tile ∧ e'.phase = if countRefs s ctx res tile = 0 then .freed else .retired) ∧
      ∀ x ∈ parkedOn s ctx res tile isDone ++ parkedOn s ctx res tile isOpen,
        IfThread s' x.1 fun th' => th'.status = .ready) ∧
  (∀ s ctx res gr r p rest e, findGraph s ctx = some gr → gr.resources[res]? = some r → r.overflow = true →
    r.freePlaces = p :: rest → longestStalled gr res (fun n => n + r.threshold ≤ refCycles s) = some e →
    Goes (exec (.ringStallThreshold ctx res) s) fun s' => ∃ e', entry s' ctx res e.tile = some e' ∧
      e'.phase = .acquired ∧ e'.inOverflow = true ∧ e'.place = p) ∧
  (∀ s ctx res gr r e, findGraph s ctx = some gr → gr.resources[res]? = some r → r.noticed = false →
    r.lastFree + 2 ^ 20 ≤ refCycles s → longestStalled gr res (fun n => n + 2 ^ 20 ≤ refCycles s) = some e →
    Goes (exec (.ringStallNotice ctx res) s) fun s' =>
      (s'.notices.getLast?.map Notice.payload) = some (.ringStall ctx res e.tile) ∧
      s'.notices.length = s.notices.length + 1) ∧
  (∀ s n g k, findGroup s n = some g → g.core = some k → mayRetire s g = true →
    Goes (exec (.groupRetire n) s) fun s' => ∃ g', findGroup s' n = some g' ∧ g'.phase = .retired ∧ g'.core = none) ∧
  (∀ s q w ctx, (s.waiting.find? fun w => w.queue = q) = some w → freeContext s = some ctx →
    tileCount (s.graphs.flatMap Graph.resources) + tileCount w.graph.resources ≤ 262144 →
    (reserveRings s w.graph.passes 0 (s.graphs.flatMap Graph.resources) w.graph.resources).isSome = true →
    Goes (exec (.graphAccept q) s) fun s' => ∃ gr, findGraph s' ctx = some gr ∧ gr.passes = w.graph.passes ∧
      gr.queue = w.graph.queue ∧ gr.entries.length = tileCount w.graph.resources ∧ w ∉ s'.waiting ∧
      s'.groups.length = s.groups.length + (w.graph.passes.map fun p => p.gridX * p.gridY * p.gridZ).sum) ∧
  (∀ s ctx gr x, findGraph s ctx = some gr → graphDone s gr = true → getQueue s gr.queue = some x →
    Goes (exec (.graphEnd ctx) s) fun s' => findGraph s' ctx = none ∧ (∀ g ∈ s'.groups, g.ctx ≠ ctx) ∧
      ∃ x', getQueue s' gr.queue = some x' ∧ x'.completed = x.completed + 1 ∧
        x'.statuses = x.statuses ++ [⟨gr.index, 0⟩] ∧ x'.interrupts = x.interrupts + (if gr.irq then 1 else 0)) ∧
  (∀ s ctx stage p, findPass s ctx stage = some p → p.life = .ordered →
    Goes (exec (.passEnd ctx stage) s) fun s' => (∃ p', findPass s' ctx stage = some p' ∧ p'.life = .stopping) ∧
      ∀ g ∈ passGroups s' ctx stage, ∀ th ∈ g.threads, ∀ u, u = refOf g th → findThread s' u = some (g, th) →
        th.status = .running ∨ th.status = .exited) ∧
  ∀ s ctx stage p, findPass s ctx stage = some p → p.life = .stopping →
    (let s := removeThreads s ctx stage
     (releasableAll s (passGroups s ctx stage)).2 = true) →
    Goes (exec (.passEndRelease ctx stage) s) fun s' =>
      (∃ p', findPass s' ctx stage = some p' ∧ p'.life = .ended ∧ p'.failed = true) ∧
      ∀ g ∈ passGroups s' ctx stage, g.phase = .retired ∧ g.core = none


/-! ## Placement, heat, power and errors -/

/-- The Steward places what a die chooses; a queue is blocked by a group that waited 65,536 cycles; a work fetch hands over a
group or tells that none is left; the Sheet starts a core draining and a drained core changes its partition; starvation is
told once, 2^20 cycles after it began; an idle group leaves its core, which its replacement is owed, is saved once its writes
are performed, or moves to its target with its registers; a target that an error has stopped, or whose vault has shut down,
takes none (R167, R200, R201, R289, R290, R292, R295, R296, R299, R328, R337, R339-R341).  An attempt of a vault to migrate
counts whether the policy permits the move or not (R328).  Code offset 0 for a new thread, the order of choice, that a core kept
for a replacement is free again once it can take none, and that a failed
migration ends in a save, are the model's readings (logs 8, 30 and 49). -/
def Obligations.PlacementMovesGroups : Prop :=
  (∀ s die g p k, s.shaped = true → die < 2 → hasPlaced s die = false → replacement s die = none →
    [0, 1].findSome? (gangAtHead s die) = none →
    [0, 1].findSome? (dieChoice ([0, 1].foldl (planHead die) s) die) = some (g, p, k) → findGroup s g.serial = some g →
    Goes (exec (.groupPlace die) s) fun s' => hasPlaced s' die = true ∧
      ∃ g', findGroup s' g.serial = some g' ∧ g'.phase = .resident ∧ g'.core = some k ∧ g'.lcore = some (g.lcore.getD k) ∧
        ((∀ n, g.phase ≠ .saved n) → ∀ th ∈ g'.threads, th.status = .ready ∧ th.pc = 0 ∧ th.hdr = 0 ∧ th.p = 1 ∧
          th.v = List.replicate p.regs 0 ∧ th.inHandler = false)) ∧
  (∀ s part g p, part < s.blocks.length → s.blocks.getD part none = none →
    (queueOfPart s part).find? (fun x => match waitingSince x.1 with
      | some n => n + 65536 ≤ refCycles s
      | none => false) = some (g, p) →
    Goes (exec (.placementBlock part) s) fun s' => s'.blocks = s.blocks.set part (some g.serial)) ∧
  (∀ s id r g k p, (s.fworks.find? fun x => x.id = id) = some r → findGroup s r.group = some g → g.core = some k →
    passOfGroup s g = some p → (∀ h ∈ s.groups, h.phase ≠ .handedEnding r.group) →
    (p.persistent = false → Goes (exec (.fworkAnswer id) s) fun s' => (∀ x ∈ s'.fworks, x.id ≠ id) ∧
      (findGroup s' r.group).map (fun g' => padWord g' r.mailbox) = some 3) ∧
    (p.persistent = true → p.gang = false → (∀ h ∈ s.groups, h.phase ≠ .handHeld id) → nextUnplaced s g p = none →
      undispatched s g = false → Goes (exec (.fworkAnswer id) s) fun s' => (∀ x ∈ s'.fworks, x.id ≠ id) ∧
        (findGroup s' r.group).map (fun g' => padWord g' r.mailbox) = some 2) ∧
    ∀ h, p.persistent = true → p.gang = false → p.batch = false → (∀ x ∈ s.groups, x.phase ≠ .handHeld id) →
      nextUnplaced s g p = some h → findGroup s h.serial = some h → h.serial ≠ r.group → hasPlaced s (dieOf k) = false →
      coreOpen s p.part k = true → vaultAccepts s p k = true → planned s g.ctx g.stage k = false →
      Goes (exec (.fworkAnswer id) s) fun s' => (∀ x ∈ s'.fworks, x.id ≠ id) ∧
        (findGroup s' h.serial).map Group.phase = some (.handed r.group r.mailbox) ∧
        (findGroup s' r.group).map (fun g' => [padWord g' r.mailbox, padWord g' (r.mailbox + 4),
          padWord g' (r.mailbox + 8), padWord g' (r.mailbox + 12)]) =
          some [1, BitVec.ofNat 32 h.x, BitVec.ofNat 32 h.y, BitVec.ofNat 32 h.z]) ∧
  (∀ s die d k, s.dies[die]? = some d → s.shaped = true → d.sheetAt + 4096 ≤ s.time.toNat → sheetWant s die d ≠ 0 →
    (∀ j ∈ dieCores die, (getCore s j).draining = false) →
    drainChoice s die (if sheetWant s die d = 1 then 0 else 1) = some k →
    Goes (exec (.sheetEval die) s) fun s' => (getCore s' k).draining = true ∧ (getDie s' die).sheetAt = s.time.toNat) ∧
  (∀ s core c, s.cores[core]? = some c → c.draining = true → occupants s core = [] → coreEffects s core = false →
    Goes (exec (.partitionFlip core) s) fun s' => (getCore s' core).part = 1 - c.part ∧ (getCore s' core).draining = false) ∧
  (∀ s ctx stage p g, findPass s ctx stage = some p → p.short = none → g ∈ passGroups s ctx stage →
    (waitingSince g).isSome = true → starving s p = true →
    Goes (exec (.partitionStarvation ctx stage) s) fun s' => s'.notices = s.notices ∧
      (findPass s' ctx stage).map Pass.short = some (some (refCycles s))) ∧
  (∀ s ctx stage p g n, findPass s ctx stage = some p → p.starved = false → g ∈ passGroups s ctx stage →
    (waitingSince g).isSome = true → starving s p = true → p.short = some n → n + 2 ^ 20 ≤ refCycles s →
    Goes (exec (.partitionStarvation ctx stage) s) fun s' =>
      (s'.notices.getLast?.map Notice.payload) = some (.starvation stage) ∧ s'.notices.length = s.notices.length + 1 ∧
      (findPass s' ctx stage).map Pass.starved = some true) ∧
  (∀ s vault v, s.vaults[vault]? = some v → v.band = 2 → (s.policy.getD 2 0).getLsbD 3 = true →
    (∀ n, (v.movedGroup = some n ∨ v.lastGroup = some n) → n + 10000 ≤ s.time.toNat) →
    let s1 := updVault s vault fun v => { v with movedGroup := some s.time.toNat }
    ∀ g p k, migrateChoice s1 vault = some (g, p) → findGroup s g.serial = some g →
      bestCore s1 g p ((List.range 128).filter fun k => vaultOf k ≠ vault) = some k →
      Goes (exec (.vaultMigrate vault) s) fun s' => (findGroup s' g.serial).map Group.phase = some (.migrating k) ∧
        (s'.vaults[vault]?).map (fun v => (v.movedGroup, v.lastGroup)) =
          some (some s.time.toNat, some s.time.toNat)) ∧
  (∀ s vault v, s.vaults[vault]? = some v → v.band = 2 → (s.policy.getD 2 0).getLsbD 3 = false →
    (∀ n, v.movedGroup = some n → n + 10000 ≤ s.time.toNat) →
    Goes (exec (.vaultMigrate vault) s) fun s' => s'.groups = s.groups ∧
      s'.vaults[vault]? = some { v with movedGroup := some s.time.toNat }) ∧
  (∀ s ctx stage p g, findPass s ctx stage = some p → p.gang = false → keptFor s p = none →
    ((passGroups s ctx stage).any fun h => match h.phase with
      | .queued _ => true
      | _ => false) = true →
    (∀ h ∈ passGroups s ctx stage, h.core.isSome = true → allWaiting h = true ∧ 65536 ≤ idleFor s h) →
    evictChoice s (((passGroups s ctx stage).filter fun h => h.core.isSome).filter fun h => h.phase = .resident) = some g →
    findGroup s g.serial = some g →
    Goes (exec (.groupEvict ctx stage) s) fun s' => (findGroup s' g.serial).map Group.phase = some (.saving false) ∧
      (findPass s' ctx stage).map Pass.replaces = some g.core) ∧
  (∀ s n g k preempt, findGroup s n = some g → g.core = some k → g.phase = .saving preempt → stillActive g = false →
    matrixBusy s k g = false → transfersBusy s g = false → (flushGroup s g).2 = true →
    Goes (exec (.groupSave n) s) fun s' => ∃ g', findGroup s' n = some g' ∧ g'.core = none ∧ g'.banks = [] ∧
      g'.threads.map Thread.kept = g.threads.map Thread.kept ∧
      g'.phase = if preempt then .preempted else .saved (refCycles s)) ∧
  (∀ s n g k target p, findGroup s n = some g → g.core = some k → g.phase = .migrating target → passOfGroup s g = some p →
    ((getCore s target).fatal = true ∨ (vaultNow s (vaultOf target)).band = 3) →
    Goes (exec (.migrationTransfer n) s) fun s' => (findGroup s' n).map Group.phase = some (.saving false)) ∧
  ∀ s n g k target p, findGroup s n = some g → g.core = some k → g.phase = .migrating target → passOfGroup s g = some p →
    (getCore s target).fatal = false → (vaultNow s (vaultOf target)).band ≠ 3 → stillActive g = false → matrixBusy s k g = false → (flushGroup s g).2 = true →
    (takeRemap (flushGroup s g).1 (dieOf k) g target).isSome = true →
    Goes (exec (.migrationTransfer n) s) fun s' => ∃ g', findGroup s' n = some g' ∧ g'.core = some target ∧
      g'.phase = .resident ∧ g'.threads.map Thread.kept = g.threads.map Thread.kept

/-- Vault temperature, credit, droop, gating, waking and ceilings, and errors in a core (R294, R295, R337, R338, R344-R348,
R363).  A sample first refills the credit; one to a band with a lower cap cuts it to that cap, one to a higher cap leaves it,
and one that leaves shutdown resets it to the new cap (R294).  That samples fall on multiples of 1,000 ns is log 32 (DEDUCED),
and the numbers of a core-error notice's structures are log 33's. -/
def Obligations.HeatPowerAndErrors : Prop :=
  (∀ s vault v, s.vaults[vault]? = some v →
    Goes (exec (.vaultCreditRefill vault) s) fun s' => ∃ v', s'.vaults[vault]? = some v' ∧
      v'.refilled = s.time.toNat ∧ v'.credit = max v.credit (min (creditCap v.band)
        (v.credit + refillRate v.band * (s.time.toNat - v.refilled)))) ∧
  refillRate 0 = 1536 ∧ refillRate 1 = 1472 ∧ refillRate 2 = 1344 ∧ refillRate 3 = 0 ∧
  creditCap 0 = 6291456 ∧ creditCap 1 = 6029312 ∧ creditCap 2 = 5505024 ∧ creditCap 3 = 0 ∧
  (∀ s vault v, s.vaults[vault]? = some v → v.sampled + 1000 ≤ s.time.toNat →
    let up : Int → Nat := fun t => if 105 < t then 3 else if 95 < t then 2 else if 85 < t then 1 else 0
    let down : Int → Nat := fun t => if 103 < t then 3 else if 93 < t then 2 else if 83 < t then 1 else 0
    Goes (exec (.vaultTempSample vault) s) fun s' => ∃ v', s'.vaults[vault]? = some v' ∧
      v'.sampled = s.time.toNat - s.time.toNat % 1000 ∧
      v'.band = max (up (vaultTemp s vault)) (min v.band (down (vaultTemp s vault))) ∧
      (let credit := max v.credit (min (creditCap v.band) (v.credit + refillRate v.band * (s.time.toNat - v.refilled)))
       (v.band < v'.band → v'.credit = min credit (creditCap v'.band)) ∧
       (v'.band < v.band → v.band ≠ 3 → v'.credit = credit) ∧ (v'.band < 3 → v.band = 3 → v'.credit = creditCap v'.band) ∧
       v'.refilled = s.time.toNat) ∧
      ((v'.band = 3 ∧ v.band ≠ 3 ∨ v'.band ≠ 3 ∧ v.band = 3) →
        s'.notices.getLast?.map Notice.payload = some (.thermal vault v'.band))) ∧
  (∀ s n c, s.clusters[n]? = some c → Goes (exec (.droopDetect n) s) fun s' =>
    (s'.clusters[n]?).map Cluster.droop = some true ∧ (s'.clusters[n]?).map Cluster.recover = some none ∧
    ∀ k r, 4 * n ≤ k → k < 4 * n + 4 → (getCore s' k).mxRun = some r → r.suspect = true) ∧
  (∀ s n c, s.clusters[n]? = some c → c.droop = true → c.recover = none →
    Goes (exec (.droopSupplyRecovered n) s) fun s' => (s'.clusters[n]?).map Cluster.recover = some (some 64)) ∧
  (∀ s n c, s.clusters[n]? = some c → c.droop = true → c.recover = some 0 →
    Goes (exec (.droopWindowEnd n) s) fun s' => s'.clusters[n]? =
      some { c with droop := false, recover := none, quietSince := (getCore s (4 * n)).cycles.toNat }) ∧
  (∀ s n c, s.clusters[n]? = some c → (s.pairs.getD (n / 2) Pair.reset).state = 1 →
    (s.pairs.getD (n / 2) Pair.reset).stateEff < 2 → (clusterCores n).any (coreInUse s) = false →
    Goes (exec (.clusterGate n) s) fun s' => (s'.clusters[n]?).map Cluster.gated = some true) ∧
  (∀ s n c, s.clusters[n]? = some c → c.gated = true → (clusterCores n).any (coreInUse s) = true →
    Goes (exec (.clusterClockedAgain n) s) fun s' => (s'.clusters[n]?).map Cluster.gated = some false) ∧
  (∀ s n p t, s.pairs[n]? = some p → p.wakeAt = some t → t ≤ s.time.toNat →
    Goes (exec (.pairWakeDone n) s) fun s' => s'.pairs[n]? = some { p with stateEff := 0, wakeAt := none }) ∧
  (∀ s n p, s.pairs[n]? = some p → (∀ k ∈ pairCores n, (getCore s k).burst = none) →
    Goes (exec (.ceilingApply n) s) fun s' => s'.pairs[n]? = some { p with ceilingEff := ceilingOf s n p } ∧
      ceilingOf s n p ≤ 7 ∧ (∀ v ∈ pairVaults n, thermalCap s v ≤ ceilingOf s n p) ∧
      (p.ceiling - p.shift ≤ 7 → p.ceiling - p.shift ≤ ceilingOf s n p)) ∧
  (∀ s core c, s.cores[core]? = some c → Goes (exec (.eccCorrected core) s) fun s' =>
    ∀ (i : Nat) (x : Wide) (cfg : Word), c.counters[i]? = some x → c.cntCfg[i]? = some cfg → (getCore s' core).counters[i]? =
      some (if (cfg.extractLsb' 0 8).toNat = 18 ∧ cfg.getLsbD 8 = true then x + 1 else x)) ∧
  (∀ s core c, s.cores[core]? = some c → Goes (exec (.eccUncorrectable core .control) s) fun s' =>
    (getCore s' core).fatal = true ∧ (getCore s' core).burst = none ∧
    s'.notices.getLast?.map Notice.payload = some (.coreError core 4 true) ∧
    ∀ g ∈ s.groups, ∀ p, g.core = some core → passOfGroup s g = some p → p.life = .open →
      (findPass s' g.ctx g.stage).map Pass.life = some .ordered) ∧
  ∀ s core c t th i, s.cores[core]? = some c → threadAtRef s t = some th →
    Goes (exec (.eccUncorrectable core (.register t (.v i))) s) fun s' =>
      ThreadIs s' t (fun th' => .v i ∈ th'.marks ∧ th'.v = th.v) ∧
      s'.notices.getLast?.map Notice.payload = some (.coreError core 0 false)


/-! ## The host link, the die link and reset -/

/-- What the host and the other die send and the device answers, and the notices it writes (R242, R250, R319, R320, R323,
R352, R353, R357).  A write waits while its range is on the move, while a die has still to apply 2^20 writes of the host, and
behind an earlier write of its queue (R214, R242, R250, R317).  That the host reaches memory through die 0 is the model's choice (log 12), and so are the readings of the
link (log 34) and the places of the fields of a notice (log 9). -/
def Obligations.LinkMessages : Prop :=
  (∀ s q x tail, getQueue s q = some x →
    Goes (exec (.doorbell q tail) s) fun s' => getQueue s' q = some { x with tail := tail }) ∧
  (∀ s m, m.type = 0 → m.chunks.toNat ≤ 8 → (∀ i, i < 16 * m.chunks.toNat → onTheMove s (m.addr.toNat + i) = false) →
    Goes (exec (.hostReadRequest m) s) fun s' => ∃ head bytes,
    s'.linkReplies = s.linkReplies ++ [(head, bytes)] ∧ head.type = 1 ∧ head.tag = m.tag ∧ head.addr = m.addr ∧
    head.chunks = m.chunks ∧ head.rsvLow = 0 ∧ head.rsvMid = 0 ∧ head.rsvHigh = 0 ∧
    bytes.length = 16 * m.chunks.toNat ∧
    (head.poison = true ↔ ∃ i, i < 16 * m.chunks.toNat ∧ ((linkBad s m.addr.toNat i).1 = true ∨ (linkBad s m.addr.toNat i).2 = true)) ∧
    ∀ i a, i < 16 * m.chunks.toNat →
      (translateH s (m.addr.toNat + i) .read = .ok a false → bytes.getD i 0 = homeByte s 0 a) ∧
      (translateH s (m.addr.toNat + i) .read = .ok a true → bytes.getD i 0 = 0)) ∧
  (∀ s m q data d die, m.type = 2 → m.chunks.toNat ≤ 8 → data.length = 16 * m.chunks.toNat → q < 16 → s.dies[d]? = some die →
    let cells := hostCells s m.addr.toNat data
    let waits := (∃ e ∈ s.dies, 2 ^ 20 ≤ (e.from_.filter fun w => w.1 = .host).length) ∨
      (∃ i, i < data.length ∧ onTheMove s (m.addr.toNat + i) = true) ∨ ∃ w ∈ s.hostHeld, w.2.1 = q
    (waits → Goes (exec (.hostWrite m q data) s) fun s' => s'.hostHeld = s.hostHeld ++ [(m, q, data)] ∧
      s'.dies = s.dies ∧ s'.linkReplies = s.linkReplies) ∧
    (¬waits → Goes (exec (.hostWrite m q data) s) fun s' => s'.stamp = s.stamp + 1 ∧ (getDie s' d).mem = die.mem ∧
      s'.linkReplies = s.linkReplies ++ [(answerHead m 3 0 false, [])] ∧
      ∃ w, (getDie s' d).from_ = die.from_ ++ [(.host, w)] ∧ w.tag = m.clock ∧ w.stamp = s.stamp + 1 ∧ w.bytes = cells ∧
        w.clears = true ∧ ∀ a, w.flaws.wrong a = false ∧
          (w.flaws.poisoned a = true ↔ m.poison = true ∧ ∃ c ∈ cells, sectorOf c.1 = sectorOf a))) ∧
  (∀ s m data r, (s.linkReads.find? fun r => r.tag = m.tag) = some r → m.type = 1 → m.poison = false →
    Goes (exec (.readCompletion m data) s) fun s' => s'.linkReads = s.linkReads.filter (fun x => x.tag ≠ m.tag) ∧
      (∀ i, i < data.length → hostByte s' (r.addr.toNat + i) = data.getD i 0) ∧
      ∀ a, a < r.addr.toNat ∨ r.addr.toNat + data.length ≤ a → hostByte s' a = hostByte s a) ∧
  (∀ s m data r, (s.linkReads.find? fun r => r.tag = m.tag) = some r → m.type = 1 → m.poison = true → r.poison = false →
    Goes (exec (.readCompletion m data) s) fun s' => s'.hostMem = s.hostMem ∧ s'.poison = s.poison ∧
      (s'.linkReads.find? fun r => r.tag = m.tag) = some { r with poison := true }) ∧
  (∀ s m data r d, (s.linkReads.find? fun r => r.tag = m.tag) = some r → m.type = 1 → m.poison = true → r.poison = true →
    d < s.dies.length → Goes (exec (.readCompletion m data) s) fun s' =>
      ∀ i, i < data.length → hostByte s' (r.addr.toNat + i) = data.getD i 0 ∧
        (homeFlaws s' d).poisoned (tierBase 2 + r.addr.toNat + i) = true) ∧
  (∀ s m, m.type = 3 → Goes (exec (.writeCompletion m) s) fun s' =>
    s'.linkWrites = s.linkWrites.filter fun r => r.tag ≠ m.tag) ∧
  (∀ s m, 7 ≤ m.type.toNat → Goes (exec (.reservedTypeMessage m) s) fun s' => s'.dropped = s.dropped + 1 ∧
    s'.hostMem = s.hostMem ∧ s'.linkReplies = s.linkReplies) ∧
  (∀ s die index w, s.shaped = true → die < 2 → (getDie s die).pending[index]? = some w →
    ((getDie s (1 - die)).from_.filter fun e => e.1 = sourceOfDie die).length < 2 ^ 20 →
    Goes (exec (.dieExport die index) s) fun s' =>
      let clock := setClockEntry (getDie s die).clock (sourceOfDie die)
        (clockEntry (getDie s die).clock (sourceOfDie die) + 1)
      (getDie s' die).clock = clock ∧ (getDie s' die).pending = (getDie s die).pending.eraseIdx index ∧
      (getDie s' (1 - die)).from_ = (getDie s (1 - die)).from_ ++ [(sourceOfDie die, { w with tag := clock })]) ∧
  (∀ s die src e rest, s.shaped = true → die < 2 → (getDie s die).from_ = (src, e) :: rest →
    mayApply (getDie s die) src e.tag = true → (e.bytes.map Prod.fst).Nodup →
    Goes (exec (.dieApply die src) s) fun s' => (getDie s' die).from_ = rest ∧
      (getDie s' die).clock = setClockEntry (getDie s die).clock src (clockEntry e.tag src) ∧
      ∀ a, match e.bytes.find? fun c => c.1 = a with
        | some c => homeByte s' die a = if Stamps.read (getDie s die).stamps a < e.stamp then c.2 else homeByte s die a
        | none => homeByte s' die a = homeByte s die a) ∧
  ∀ s ring count n, s.noticeRing = some (ring, count) → (s.notices.find? fun n => !n.written) = some n →
    let w := hostWord s ring.toNat
    let r := hostWord s (ring.toNat + 4)
    ((w - r).toNat = count → exec .noticeWrite s = .next s) ∧
    ((w - r).toNat ≠ count → Goes (exec .noticeWrite s) fun s' => hostWord s' ring.toNat = w + 1 ∧
      (∀ m ∈ s'.notices, m.index = n.index → m.written = true) ∧
      (∀ i, i < 32 → hostByte s' (ring.toNat + 64 + 32 * (w.toNat % count) + i) = (noticeBytes n).getD i 0) ∧
      (∃ i, i < 32 ∧ (noticeBytes n).getD i 0 = BitVec.ofNat 8 (noticeCode n.payload)) ∧
      ∀ x, getQueue s 0 = some x → getQueue s' 0 = some { x with interrupts := x.interrupts + 1 })

/-- A device reset forgets what ran and what memory held, keeps the fuses and the host's memory, registers queue 0 from the
boot configuration and starts the image that passes the checks of R358; otherwise the device stays in recovery with one
notice, where a reload may bring another image and leaves the splits of the stacks as they are (R7, R219, R316, R358, R359,
R364).  The size of queue 0 (log 15), the number that tells resets apart (log 1), and what a reset keeps and a reload leaves
alone (log 36, DEDUCED) are the model's. -/
def Obligations.ResetAndFirmware : Prop :=
  (∀ s image boot, Goes (exec (.deviceReset image boot) s) fun s' =>
    s'.time = 0 ∧ s'.groups = [] ∧ s'.graphs = [] ∧ s'.hostHeld = [] ∧ s'.poison = [] ∧ s'.mismatch = [] ∧ s'.keySlots = s.keySlots ∧
    s'.rollback = s.rollback ∧ s'.hostMem = s.hostMem ∧ s'.epoch = s.epoch + 1 ∧ (∀ d ∈ s'.dies, d.mem = []) ∧
    s'.cores = State.reset.cores ∧ s'.policy = [0, 0, 0, 0] ∧ s'.deepBytes = boot.deepBytes ∧
    s'.tensorBase = boot.tensorBase ∧ (boot.tensorCount ≤ 2 ^ 20 → s'.tensorCount = boot.tensorCount) ∧
    (∀ i, i < 8 → splitOk (boot.cacheSteps.getD i 0) = true →
      (s'.vaults[i]?).map Vault.cacheSteps = some (boot.cacheSteps.getD i 0)) ∧
    getQueue s' 0 = some (newQueue true boot.queue0Ring Config.queue0Entries) ∧
    s'.running = (if bootFailure s image = none then some image else none) ∧
    s'.notices.length = if bootFailure s image = none then 0 else 1) ∧
  (∀ s image boot x, s.running = none → getQueue s 0 = some x →
    Goes (exec (.firmwareReload image boot) s) fun s' =>
      s'.running = (if bootFailure s image = none then some image else none) ∧
      (boot.tensorCount ≤ 2 ^ 20 → s'.tensorCount = boot.tensorCount) ∧ s'.deepBytes = boot.deepBytes ∧
      s'.vaults.map Vault.cacheSteps = s.vaults.map Vault.cacheSteps) ∧
  (∀ s image boot f, s.running = some f → exec (.firmwareReload image boot) s = .next s) ∧
  ∀ (s : State) (f : Firmware), bootFailure s f = none ↔
    f.mark = 0x57444657 ∧ f.reserved = List.replicate 48 0 ∧ f.codeSize.toNat % 64 = 0 ∧ f.code.length = f.codeSize.toNat ∧
    f.rollback.toNat ≤ 63 ∧ f.keySlot.toNat ≤ 3 ∧ keyAccepted s f = true ∧
    Config.rsaVerify f.modulus (signedBytes f) f.rsaSig = true ∧ Config.slhVerify f.slhKey (signedBytes f) f.slhSig = true ∧
    s.rollback ≤ f.rollback.toNat


/-! ## Host commands -/

/-- How every command of a host queue runs: it starts when the doorbell has passed it, no graph before it waits and, with
`after`, every earlier command has completed; a nonzero reserved field or an operand out of range completes it with status 4,
a command kept from user queues with status 3 there; in recovery only what the recovery accepts runs; an entry of the ring
whose `op` is 0x00 or 0x16 to 0xFF is malformed, and one whose operands R355 places runs its command with those operands
(R353-R355, R358).  That status 2 of recovery comes before status 4, and status 4 before status 3, is the model's order
(log 18, DEDUCED), and the reading of a ring entry, lowest byte first, is log 9's. -/
def Obligations.CommandsRunInOrder : Prop :=
  (∀ s c onlyPrivileged inRecovery valid f x, getQueue s c.queue = some x → mayStart s c x = false →
    runCommand s c onlyPrivileged inRecovery valid f = .next s) ∧
  (∀ s c onlyPrivileged inRecovery valid f x, getQueue s c.queue = some x → mayStart s c x = true →
    (s.running.isSome = true ∨ inRecovery = true) → (c.rsv ≠ 0 ∨ valid = false) →
    Goes (runCommand s c onlyPrivileged inRecovery valid f) fun s' => Finished s' c x 4) ∧
  (∀ s c inRecovery f x, Starts s c x → x.privileged = false →
    Goes (runCommand s c true inRecovery true f) fun s' => Finished s' c x 3) ∧
  (∀ s c onlyPrivileged valid f x, getQueue s c.queue = some x → mayStart s c x = true → s.running = none →
    Goes (runCommand s c onlyPrivileged false valid f) fun s' => Finished s' c x 2) ∧
  (∀ s q x, getQueue s q = some x → s.running.isSome = true →
    let w := ofBytes ((hostBytes s (x.ring.toNat + 64 * (x.started % x.size)) 64).take 4)
    let c : Cmd := ⟨q, w.testBit 8, w.testBit 9, BitVec.ofNat 22 (w / 2 ^ 10)⟩
    (w % 256 = 0 ∨ 0x16 ≤ w % 256) → mayStart s c x = true → Goes (ringStep s q) fun s' => Finished s' c x 4) ∧
  (∀ s q x, getQueue s q = some x →
    let e := hostBytes s (x.ring.toNat + 64 * (x.started % x.size)) 64
    let w := ofBytes (e.take 4)
    let c : Cmd := ⟨q, w.testBit 8, w.testBit 9, BitVec.ofNat 22 (w / 2 ^ 10)⟩
    let operand := fun (i n : Nat) => ofBytes ((e.drop (8 + i)).take n)
    mayStart s c x = true →
    (w % 256 = 0x0A → ringStep s q = exec (.mapSync c) s) ∧
    (w % 256 = 0x0B → ringStep s q = exec (.tierMoveCommand c (BitVec.ofNat 32 (operand 0 4)) (BitVec.ofNat 32 (operand 4 1))
      (BitVec.ofNat 64 (operand 8 8))) s) ∧
    (w % 256 = 0x12 → ringStep s q = exec (.enrolKey c (operand 0 1) (BitVec.ofNat 384 (operand 8 48))) s) ∧
    (w % 256 = 0x13 → ringStep s q = exec (.revokeKey c (operand 0 1)) s) ∧
    (w % 256 = 0x14 → ringStep s q = exec (.raiseRollback c) s) ∧
    (w % 256 = 0x15 → ringStep s q = exec (.registerNoticeRing c (BitVec.ofNat 64 (operand 0 8)) (operand 8 4)) s)) ∧
  ∀ s c x, mayStart s c x = true ↔ BitVec.ofNat 32 x.started ≠ x.tail ∧ (∀ w ∈ s.waiting, w.queue ≠ c.queue) ∧
    (c.after = true → x.completed = x.started)

/-- The commands on graphs, passes, groups, notices, threads, translations, tiers, queues and fuses (R212, R213, R226, R267,
R285, R317, R334, R336, R337, R339, R353-R361).  The 8-byte entries of a frame list (log 10), the result addresses and queue
numbers (log 9) and the order of the checks (log 18) are the model's.  Translation invalidate and map sync wait for the host's
earlier writes, after which they flush anew (R213, R226, R249), and the first for the stores that threads hold (R110). -/
def Obligations.CommandsAct : Prop :=
  (∀ s c x addr sub, Starts s c x → readSubmission s addr.toNat = some sub → rejectOf s (!x.privileged) sub = none →
    Goes (exec (.submitGraph c addr) s) fun s' => getQueue s' c.queue = some { x with started := x.started + 1 } ∧
      ∃ w, s'.waiting = s.waiting ++ [w] ∧ w.queue = c.queue ∧ w.index = x.started ∧
        w.graph.passes = sub.passes.map passOf ∧ w.graph.resources = sub.resources.map resourceOf ∧
        w.graph.completion = sub.completion ∧ w.graph.irq = c.irq) ∧
  (∀ s c x addr, Starts s c x → readSubmission s addr.toNat = none ∨
      (∃ sub r, readSubmission s addr.toNat = some sub ∧ rejectOf s (!x.privileged) sub = some r) →
    Goes (exec (.submitGraph c addr) s) fun s' => Finished s' c x 0 ∧ s'.waiting = s.waiting) ∧
  (∀ s c x ctx stage, Starts s c x → x.privileged = true → ctx < 4 → stage < 256 →
    (findPass s ctx stage = none →
      Goes (exec (.endPass c ctx stage) s) (Finished · c x 2) ∧ Goes (exec (.preemptPass c ctx stage) s) (Finished · c x 2) ∧
      Goes (exec (.resumePass c ctx stage) s) (Finished · c x 2)) ∧
    ∀ p, findPass s ctx stage = some p →
      Goes (exec (.endPass c ctx stage) s) (fun s' => Pends s s' c x (.passEnded ctx stage) ∧
        (p.life = .open → (findPass s' ctx stage).map Pass.life = some .ordered)) ∧
      Goes (exec (.preemptPass c ctx stage) s) (fun s' => Pends s s' c x (.preempted ctx stage) ∧
        ∀ g' ∈ passGroups s' ctx stage, g'.phase ≠ .resident ∧ ∀ n, g'.phase ≠ .saved n) ∧
      (p.preempted = true → Goes (exec (.resumePass c ctx stage) s) (fun s' => Finished s' c x 0 ∧
        (findPass s' ctx stage).map Pass.preempted = some false ∧
        ∀ g' ∈ passGroups s' ctx stage, g'.phase ≠ .preempted))) ∧
  (∀ s c x ctx gr, Starts s c x → x.privileged = true → ctx < 4 → findGraph s ctx = some gr →
    Goes (exec (.endGraph c ctx) s) fun s' => Pends s s' c x (.graphEnded gr.queue gr.index) ∧
      (findGraph s' ctx).map Graph.endedByHost = some true ∧
      ∀ i p, findPass s ctx i = some p → p.life = .open → (findPass s' ctx i).map Pass.life = some .ordered) ∧
  (∀ s c q ctx stage x y z target g p, Starts s c q → q.privileged = true → ctx < 4 → stage < 256 → target < 128 →
    (passGroups s ctx stage).find? (fun g => g.phase = .resident && g.x = x && g.y = y && g.z = z) = some g →
    findPass s ctx stage = some p → p.gang = false → g.core ≠ some target → takes s g p target = true →
    findGroup s g.serial = some g →
    Goes (exec (.migrateGroup c ctx stage x y z target) s) fun s' => Pends s s' c q (.migrated g.serial target) ∧
      (findGroup s' g.serial).map Group.phase = some (.migrating target)) ∧
  (∀ s c x n note, Starts s c x → x.privileged = true → s.notices[n]? = some note → note.index = n →
    isFault note.payload = true → note.answer = none →
    Goes (exec (.answerRetry c n) s) (fun s' => Finished s' c x 0 ∧ (s'.notices[n]?).map Notice.answer = some (some .retry) ∧
      ∀ u ∈ noticeThreads s n, IfThread s' u fun th => th.status = .ready) ∧
    Goes (exec (.answerDeliver c n) s) (fun s' => Finished s' c x 0 ∧
      (s'.notices[n]?).map Notice.answer = some (some .deliver) ∧
      ∀ u ∈ noticeThreads s n, IfThread s u (fun th => th.record.isSome = true) →
        IfThread s' u fun th => th.status = .ready ∧ th.inHandler = true ∨ th.status = .parkedHost) ∧
    Goes (exec (.answerEndPass c n) s) (fun s' => Finished s' c x 0 ∧
      (s'.notices[n]?).map Notice.answer = some (some .endPass) ∧
      (∀ u ∈ noticeThreads s n, ∀ g p, findGroup s u.group = some g → findPass s g.ctx g.stage = some p → p.life = .open →
        (findPass s' g.ctx g.stage).map Pass.life = some .ordered) ∧
      ∀ x ∈ hostPasses s n, ∀ p, findPass s x.1 x.2 = some p → p.life = .open →
        (findPass s' x.1 x.2).map Pass.life = some .ordered)) ∧
  (∀ s c x core place t g th p, Starts s c x → x.privileged = true → core < 128 → place < 4096 →
    threadAt s core place = some t → findThread s t = some (g, th) → passOfGroup s g = some p → th.status = .parkedHost →
    (th.failedRet = false → Goes (exec (.resumeThread c core place none) s) fun s' =>
      Finished s' c x 0 ∧ ThreadIs s' t fun th' => th'.status = .ready ∧ th'.pc = th.pc ∧ th'.hdr = th.hdr) ∧
    (th.failedRet = true → resumeBad s core g p th.pc th.hdr = none → Goes (exec (.resumeThread c core place none) s) fun s' =>
      Finished s' c x 0 ∧ ThreadIs s' t fun th' => th'.status = .ready ∧ th'.pc = th.pc ∧ th'.inHandler = false) ∧
    ∀ pc hdr, (resumeBad s core g p pc hdr = none → Goes (exec (.resumeThread c core place (some (pc, hdr))) s) fun s' =>
        Finished s' c x 0 ∧ ThreadIs s' t fun th' => th'.status = .ready ∧ th'.pc = pc ∧ th'.hdr = hdr) ∧
      ∀ bad, resumeBad s core g p pc hdr = some bad → Goes (exec (.resumeThread c core place (some (pc, hdr))) s) fun s' =>
        Finished s' c x 2 ∧ ThreadIs s' t fun th' => th'.status = .parkedHost ∧ th'.data0 = bad) ∧
  (∀ s c x space va len, Starts s c x → x.privileged = true → space < 4 →
    (∀ g ∈ s.groups, ∀ th ∈ g.threads, th.buffer = [] ∧ th.seg.stores = []) →
    Goes (exec (.translationInvalidate c space va len) s) fun s' =>
      (hostPending s' = false → Finished s' c x 0) ∧ (hostPending s' = true → Pends s s' c x (.storesGone [])) ∧
      (s.hostHeld = [] → (∀ d ∈ s.dies, ∀ e ∈ d.from_, e.1 ≠ .host) → hostPending s' = false) ∧
      ∀ k, ∀ e ∈ (getCore s' k).tlb, e.base + 2 ^ e.bits ≤ va.toNat ∨ va.toNat + len ≤ e.base) ∧
  (∀ s c x, Starts s c x → Goes (exec (.mapSync c) s) fun s' => (∀ d ∈ s'.dies, d.mapCache = []) ∧
    (hostPending s' = false → Finished s' c x 0) ∧ (hostPending s' = true → Pends s s' c x (.storesGone [])) ∧
    (s.hostHeld = [] → (∀ d ∈ s.dies, ∀ e ∈ d.from_, e.1 ≠ .host) → hostPending s' = false)) ∧
  (∀ s, hostPending s = true ↔ s.hostHeld ≠ [] ∨ ∃ d ∈ s.dies, ∃ e ∈ d.from_, e.1 = .host) ∧
  (∀ s f, hostPending s = false → f ∈ s.flushes → (f.maps = true → ∀ d ∈ (settleCommands s).dies, d.mapCache = []) ∧
    (f.maps = false → ∀ k, ∀ e ∈ (getCore (settleCommands s) k).tlb, e.base + 2 ^ e.bits ≤ f.va ∨ f.va + f.len ≤ e.base)) ∧
  (∀ s c x handle tier result, Starts s c x → tier.toNat < 3 → result.toNat % 4 = 0 →
    Goes (exec (.tierMoveCommand c handle tier result) s) fun s' =>
      getQueue s' c.queue = some { x with started := x.started + 1 } ∧ s'.moves = s.moves ++
        [⟨handle.toNat, tier.toNat, .host c.queue x.started c.irq result.toNat false, false, 0, []⟩]) ∧
  (∀ s c x tier list count, Starts s c x → x.privileged = true → tier < 3 → tier < s.pools.length →
    Goes (exec (.addFrames c tier list count) s) fun s' => Finished s' c x 0 ∧ poolOf s' tier = poolOf s tier ++
      (List.range count).map fun i => ofBytes (hostBytes s (list.toNat + 8 * i) 8)) ∧
  (∀ s c x core, Starts s c x → x.privileged = true → core < 128 → s.shaped = true →
    if occupants s core = [] then Goes (exec (.resetCore c core) s) fun s' => Finished s' c x 0 ∧
      (getCore s' core).fatal = false ∧ (getCore s' core).table = [] ∧ (getCore s' core).mxQueue = []
    else Goes (exec (.resetCore c core) s) fun s' => Finished s' c x 2 ∧ s'.cores = s.cores) ∧
  (∀ s c x ring size priv, Starts s c x → x.privileged = true → c.queue = 0 → 0 < size → size < 2 ^ 32 → s.queues.length = 16 →
    Goes (exec (.registerQueue c ring size priv) s) fun s' => match freeQueue s with
      | some i => Finished s' c x 0 ∧ getQueue s' i = some (newQueue priv ring size)
      | none => Finished s' c x 2) ∧
  (∀ s c x ring count, getQueue s c.queue = some x → mayStart s c x = true → c.rsv = 0 → x.privileged = true → c.queue = 0 →
    ring.toNat % 64 = 0 → count = 2 ^ Nat.log2 count → 16 ≤ count → count ≤ 65536 →
    Goes (exec (.registerNoticeRing c ring count) s) fun s' => Finished s' c x 0 ∧ s'.noticeRing = some (ring, count)) ∧
  (∀ s c x slot value, Starts s c x → x.privileged = true → slot < 4 → s.keySlots.length = 4 →
    let k := s.keySlots.getD slot KeySlot.reset
    if k.programmed = true ∨ k.revoked = true then
      Goes (exec (.enrolKey c slot value) s) fun s' => Finished s' c x 2 ∧ s'.keySlots = s.keySlots
    else Goes (exec (.enrolKey c slot value) s) fun s' => Finished s' c x 0 ∧
      s'.keySlots = s.keySlots.set slot ⟨true, false, value⟩) ∧
  (∀ s c x slot, Starts s c x → x.privileged = true → slot < 4 → s.keySlots.length = 4 →
    let k := s.keySlots.getD slot KeySlot.reset
    if inForce k = true ∧ (s.keySlots.filter inForce).length ≤ 1 then
      Goes (exec (.revokeKey c slot) s) fun s' => Finished s' c x 2 ∧ s'.keySlots = s.keySlots
    else Goes (exec (.revokeKey c slot) s) fun s' => Finished s' c x 0 ∧
      s'.keySlots = s.keySlots.set slot { k with revoked := true }) ∧
  (∀ s c x f, Starts s c x → x.privileged = true → s.running = some f → s.rollback ≤ f.rollback.toNat →
    Goes (exec (.raiseRollback c) s) fun s' => Finished s' c x 0 ∧ s'.rollback = f.rollback.toNat) ∧
  ∀ s c x f nonce result, Starts s c x → s.running = some f →
    Goes (exec (.attest c nonce result) s) fun s' => Finished s' c x 0 ∧ HostHolds s' x result.toNat
      (reportBytes s f nonce ++ padTo 384 (Config.identityRsaSign (reportBytes s f nonce)) ++
        padTo 16224 (Config.identitySlhSign (reportBytes s f nonce)))

/-- The control words are written and read: pair control and OFF, die voltage, partition control, the policy table, counter
configurations and the tensor table's size; a scoreboard entry, matrix health, a counter and the global time are read into
host memory (R276, R288, R315, R316, R344, R345, R347, R349, R355, R362).  The width in which each is written is the model's
choice (log 9). -/
def Obligations.ControlWordsReadAndWritten : Prop :=
  (∀ s c x n value p, Starts s c x → x.privileged = true → n < 16 → s.pairs[n]? = some p →
    let state := (value.extractLsb' 0 2).toNat
    let ceiling := (value.extractLsb' 2 3).toNat
    (state = 3 → Goes (exec (.writePairControl c n value) s) fun s' => Finished s' c x 2 ∧ s'.pairs = s.pairs) ∧
    (state = 2 → ∀ r, offRefused s n = some r →
      Goes (exec (.writePairControl c n value) s) fun s' => Finished s' c x r ∧ s'.pairs = s.pairs) ∧
    (state = 2 → offRefused s n = none → Goes (exec (.writePairControl c n value) s) fun s' => Finished s' c x 0 ∧
      ∃ p', s'.pairs[n]? = some p' ∧ p'.state = 2 ∧ p'.stateEff = 2 ∧ p'.ceiling = ceiling ∧ p'.shift = 0) ∧
    (state < 2 → Goes (exec (.writePairControl c n value) s) fun s' => Finished s' c x 0 ∧
      ∃ p', s'.pairs[n]? = some p' ∧ p'.state = state ∧ p'.ceiling = ceiling ∧ p'.shift = 0 ∧
        (p.stateEff = 2 → p'.stateEff = 3 ∧ p'.wakeAt = some (s.time.toNat + 20000)))) ∧
  (∀ s c x die d value, Starts s c x → x.privileged = true → die < 2 → s.dies[die]? = some d →
    let mv := (value.extractLsb' 0 10).toNat
    Goes (exec (.writeDieVoltage c die value) s) fun s' =>
      if 600 ≤ mv ∧ mv ≤ 900 then Finished s' c x 0 ∧ (getDie s' die).mv = mv else Finished s' c x 2 ∧ s'.dies = s.dies) ∧
  (∀ s c x die d value, Starts s c x → x.privileged = true → die < 2 → s.dies[die]? = some d →
    (value.extractLsb' 16 7).toNat ≤ 64 →
    let g := (value.extractLsb' 0 7).toNat
    let k := (value.extractLsb' 7 7).toNat
    Goes (exec (.writePartitionControl c die value) s) fun s' =>
      if 64 < g + k then Finished s' c x 2 ∧ s'.dies = s.dies
      else Finished s' c x 0 ∧ (getDie s' die).minGraphics = g ∧ (getDie s' die).minCompute = k ∧
        (getDie s' die).sheet = value.getLsbD 14 ∧ (getDie s' die).target = (value.extractLsb' 16 7).toNat) ∧
  (∀ s c x index value, Starts s c x → x.privileged = true → index < 5 →
    Goes (exec (.writePolicyTable c index value) s) fun s' => Finished s' c x 0 ∧
      if index < 4 then s'.policy = s.policy.set index (value &&& 0x3F) ∧ s'.policyGlobal = s.policyGlobal
      else s'.policyGlobal = value &&& 0xF ∧ s'.policy = s.policy ∧
        (value.getLsbD 0 = false → s.pairs.length = 16 → ∀ p ∈ s'.pairs, p.shift = 0)) ∧
  (∀ s c x core index value k, Starts s c x → x.privileged = true → core < 128 → index < 16 → s.cores[core]? = some k →
    Goes (exec (.writeCounterConfig c core index value) s) fun s' => Finished s' c x 0 ∧
      s'.cores[core]? = some { k with cntCfg := k.cntCfg.set index (value &&& 0x3FFFF), counters := k.counters.set index 0 }) ∧
  (∀ s c x size, Starts s c x → x.privileged = true → size ≤ 2 ^ 20 →
    Goes (exec (.writeTensorTableSize c size) s) fun s' => Finished s' c x 0 ∧ s'.tensorCount = size) ∧
  (∀ s c x target result bytes, Starts s c x → x.privileged = true → controlBytes s target = some bytes →
    Goes (exec (.readStateControlWord c target result) s) fun s' => Finished s' c x 0 ∧ HostHolds s' x result.toNat bytes) ∧
  (∀ s c x ctx stage res tile result gr p e, Starts s c x → x.privileged = true → ctx < 4 → stage < 256 → res < 512 →
    findGraph s ctx = some gr → gr.passes[stage]? = some p → p.writes.contains res = true → gr.entry res tile = some e →
    Goes (exec (.readStateScoreboard c ctx stage res tile result) s) fun s' => Finished s' c x 0 ∧
      HostHolds s' x result.toNat (toBytes (entryWord e) 8)) ∧
  (∀ s c x core result, Starts s c x → x.privileged = true → core < 128 →
    Goes (exec (.readStateMatrixHealth c core result) s) fun s' => Finished s' c x 0 ∧
      HostHolds s' x result.toNat (toBytes (healthWord (getCore s core)) 8)) ∧
  (∀ s c x core index result, Starts s c x → x.privileged = true → core < 128 → index < 16 →
    Goes (exec (.readStateCounter c core index result) s) fun s' => Finished s' c x 0 ∧
      HostHolds s' x result.toNat (toBytes ((getCore s core).counters.getD index 0) 8)) ∧
  (∀ s c x result, Starts s c x → x.privileged = true →
    Goes (exec (.readStateGlobalTime c result) s) fun s' => Finished s' c x 0 ∧
      HostHolds s' x result.toNat (toBytes s.time 8)) ∧
  (∀ (s : State) (n : Nat) (p : Pair) (bytes : List Byte), s.pairs[n]? = some p → controlBytes s (.pairControl n) = some bytes →
    p.state < 4 → p.ceiling < 8 → p.ceilingEff < 8 → p.stateEff < 4 → -8 ≤ p.shift → p.shift < 8 →
    ofBytes bytes = p.state + 4 * p.ceiling + 32 * p.ceilingEff + 256 * p.stateEff + 1024 * (p.shift % 16).toNat) ∧
  ∀ (e : Entry), e.slot < 64 → e.place < 2 ^ 20 → e.readers < 2 ^ 32 →
    (entryWord e).getLsbD 0 = e.retired ∧ (entryWord e).getLsbD 1 = e.poisoned ∧ (entryWord e).getLsbD 2 = e.placed ∧
    (entryWord e).getLsbD 3 = e.inOverflow ∧ (entryWord e).getLsbD 4 = e.empty ∧
    ((entryWord e).extractLsb' 32 32).toNat = e.readers

/-! ## What an instruction leaves unchanged -/

/-- Executing a word changes no committed register of any thread, row or group; it changes no byte of memory, of a core's
dirty bytes or of a scratchpad either, but for the feedback entries that threads of the issue group ask for with a sampled load
or `resh` through a level-of-detail record, each entry once, and each that a thread asks for whose word runs (R115, R116, R118):
an append to a ring with room and a legal capacity writes the entry at its place, 64 bytes and 8 for each index after the header,
and `write_idx` + 1, and another append counts in `drop_count` and writes nothing else (R227); that a ring at an unaligned address
is used where it stands is log 53 (DESIGN CHOICE); and but for the bytes that a `.line` load, or a `.keep` load or prefetch that
finds its set of L1 full, makes its core write back, which read as before (log 22, DEDUCED from R111, R113 and R217); and where no thread of the issue group faults, a word of the arithmetic class changes no
system register, no counter configuration and no matrix handle (R17, R39, R110, R193). -/
def Obligations.WordsOnlyHoldWork : Prop :=
  let keeps := fun (s : State) (i : Instr) (buf : BitVec 5) (m : ModMM) => m.pol = 2 ∨ (m.pol = 0 ∧
    ∃ b, (getCore s s.focus).burst = some b ∧ ∃ x ∈ turnSites s s.focus b i, (bufRec (x.record buf.toNat)).policy = 2)
  (∀ (i : Instr) (s t : State), i.isWord = true → exec i s = .next t →
    SameRegisters s t ∧
    (match i with
      | .smp _ | .smpl _ | .resh _ => ∃ es, Appended es s t ∧ es.Nodup ∧
          ∀ f ∈ es, ∃ b, (getCore s s.focus).burst = some b ∧ ∃ x ∈ turnSites s s.focus b i, feedbackDue x i = some f
      | .ld w => (s.Inv → OnlyWritesBack s t s.focus) ∧ (w.m.line = false → ¬keeps s i w.buf w.m → SameMemory s t)
      | .ldbr w => (s.Inv → OnlyWritesBack s t s.focus) ∧ (w.m.line = false → ¬keeps s i w.buf w.m → SameMemory s t)
      | .pref w => (s.Inv → OnlyWritesBack s t s.focus) ∧ (w.m.pol ≠ 2 → SameMemory s t)
      | _ => SameMemory s t) ∧
    (i.engineClass = some 0 → (∀ b, (getCore s s.focus).burst = some b → NoneFaults s b i) → SameSystem s t)) ∧
  (∀ (i : Instr) (s t : State) (b : Burst) (held : Site → Bool),
    (match i with
      | .smp w => held = sampleHeld w.buf w.m.type.toNat (fun x => (x.read32 w.a).toInt + w.off.toInt) fun _ => 0
      | .smpl w => held = sampleHeld w.buf w.m.type.toNat (fun x => x.pairElement w.a w.off.toInt) fun x => x.wantedLevel w.a
      | .resh w => held = reshHeld w
      | _ => False) →
    AtWord s b → (∀ x ∈ turnSites s s.focus b i, Proceeds i x) → (∀ x ∈ turnSites s s.focus b i, Clear i x → held x = false) →
    exec i s = .next t → ∃ es, Appended es s t ∧ es.Nodup ∧
      ∀ f, f ∈ es ↔ ∃ x ∈ turnSites s s.focus b i, Clear i x = true ∧ feedbackDue x i = some f) ∧
  (∀ s t, Appended [] s t → SameMemory s t) ∧
  (∀ s ring p, (∀ i, i < 16 → translateH s (ring + i) .read = .ok (p + i) false) →
    let word := fun a => ofBytes ((List.range 4).map fun i => homeByte s 0 (a + i))
    ringHead s ring = some ⟨word p, word (p + 4), word (p + 8), word (p + 12)⟩) ∧
  (∀ h : RingHead, h.readIdx < 2 ^ 32 → h.writeIdx < 2 ^ 32 → (h.full = true ↔
    (∀ k, 4 ≤ k → k ≤ 24 → h.capacity ≠ 2 ^ k) ∨ h.capacity ≤ (h.writeIdx + 2 ^ 32 - h.readIdx) % 2 ^ 32)) ∧
  (∀ s ring entry, ringHead s ring = none → feedbackAppend s ring entry = s) ∧
  ∀ s ring entry h p, s.shaped = true → s.memoryWf = true → ringHead s ring = some h →
    (∀ i, i < 16 → translateH s (ring + i) .write = .ok (p + i) false) →
    let t := feedbackAppend s ring entry
    let holds := fun (a n : Nat) (x : Nat) => ∀ i, i < n → homeByte t 0 (a + i) = BitVec.ofNat 8 (x / 2 ^ (8 * i))
    (h.full = true → holds (p + 12) 4 (h.drops + 1) ∧
      ∀ a, a < p + 12 ∨ p + 16 ≤ a → homeByte t 0 a = homeByte s 0 a) ∧
    ∀ q, h.full = false →
      (∀ i, i < 8 → translateH s (ring + 64 + 8 * (h.writeIdx % h.capacity) + i) .write = .ok (q + i) false) →
      (∀ i, i < 4 → translateH (hWrite s (ring + 64 + 8 * (h.writeIdx % h.capacity)) (toBytes entry 8)) (ring + 4 + i) .write =
        .ok (p + 4 + i) false) → q + 8 ≤ p ∨ p + 16 ≤ q →
      holds q 8 entry.toNat ∧ holds (p + 4) 4 (h.writeIdx + 1) ∧
      ∀ a, a < q ∨ q + 8 ≤ a → a < p + 4 ∨ p + 8 ≤ a → homeByte t 0 a = homeByte s 0 a
end

