-- ==== Sys2Proof/Laws/Encoding.lean ====
section
/-!
SUPPORT. The encoder and the decoder agree on every field of an instruction word (R25, R29-R31, R55).
-/

namespace Sys2Proof

/-! ## The fields of a packed word -/

theorem packHead_bit (h : Head) (op d a b c : BitVec 10) (m : BitVec 9) (i : Nat) :
    (packHead h op d a b c m).getLsbD i =
      if i < 9 then m.getLsbD i else if i < 13 then h.guard.getLsbD (i - 9)
      else if i < 23 then c.getLsbD (i - 13) else if i < 33 then b.getLsbD (i - 23)
      else if i < 43 then a.getLsbD (i - 33) else if i < 53 then d.getLsbD (i - 43)
      else if i < 63 then op.getLsbD (i - 53) else (BitVec.ofBool h.sw).getLsbD (i - 63) := by
  show (BitVec.ofBool h.sw ++ op ++ d ++ a ++ b ++ c ++ h.guard ++ m : BitVec (1 + 10 + 10 + 10 + 10 + 10 + 4 + 9)).getLsbD i = _
  simp only [BitVec.getLsbD_append, Nat.sub_sub]
  split_ifs <;> first | rfl | (exfalso; omega)

section
variable (h : Head) (op d a b c : BitVec 10) (m : BitVec 9) (lit : Option Wide)

@[simp] theorem wordOpcode_packHead : wordOpcode (packHead h op d a b c m) = op.toNat := by
  unfold wordOpcode
  congr 1
  ext i hi
  simp only [BitVec.getElem_extractLsb', packHead_bit]
  split_ifs <;> first | omega | simp [BitVec.getLsbD_eq_getElem, hi]

@[simp] theorem wordMod_packHead : wordMod (packHead h op d a b c m) = m := by
  ext i hi
  simp only [wordMod, BitVec.getElem_extractLsb', packHead_bit]
  split_ifs <;> first | omega | simp [BitVec.getLsbD_eq_getElem, hi]

@[simp] theorem codeD_packHead : codeD (packHead h op d a b c m) = d := by
  ext i hi
  simp only [codeD, BitVec.getElem_extractLsb', packHead_bit]
  split_ifs <;> first | omega | simp [BitVec.getLsbD_eq_getElem, hi]

@[simp] theorem codeA_packHead : codeA (packHead h op d a b c m) = a := by
  ext i hi
  simp only [codeA, BitVec.getElem_extractLsb', packHead_bit]
  split_ifs <;> first | omega | simp [BitVec.getLsbD_eq_getElem, hi]

@[simp] theorem codeB_packHead : codeB (packHead h op d a b c m) = b := by
  ext i hi
  simp only [codeB, BitVec.getElem_extractLsb', packHead_bit]
  split_ifs <;> first | omega | simp [BitVec.getLsbD_eq_getElem, hi]

@[simp] theorem codeC_packHead : codeC (packHead h op d a b c m) = c := by
  ext i hi
  simp only [codeC, BitVec.getElem_extractLsb', packHead_bit]
  split_ifs <;> first | omega | simp [BitVec.getLsbD_eq_getElem, hi]

@[simp] theorem wordHead_packHead : wordHead (packHead h op d a b c m) lit = ⟨h.sw, h.guard, lit⟩ := by
  unfold wordHead
  congr 1
  · rw [packHead_bit]
    simp
  · ext i hi
    simp only [BitVec.getElem_extractLsb', packHead_bit]
    split_ifs <;> first | omega | simp [BitVec.getLsbD_eq_getElem, hi]

/-- The 20-bit immediate of R29. -/
@[simp] theorem imm_packHead (x : BitVec 20) :
    (packHead h op d a (x.extractLsb' 10 10) (x.extractLsb' 0 10) m).extractLsb' 13 20 = x := by
  ext i hi
  simp only [BitVec.getElem_extractLsb', packHead_bit, BitVec.getLsbD_extractLsb']
  rw [← BitVec.getLsbD_eq_getElem]
  split_ifs
  all_goals first
    | omega
    | (have h1 : 13 + i - 13 < 10 := by omega
       have h2 : 0 + (13 + i - 13) = i := by omega
       simp only [h1, h2, decide_true, Bool.true_and])
    | (have h1 : 13 + i - 23 < 10 := by omega
       have h2 : 10 + (13 + i - 23) = i := by omega
       simp only [h1, h2, decide_true, Bool.true_and])

/-- The buffer register and the offset of R30. -/
@[simp] theorem buf_packHead (x : BitVec 5) (y : BitVec 5) :
    (packHead h op d a (y ++ x) c m).extractLsb' 23 5 = x := by
  ext i hi
  simp only [BitVec.getElem_extractLsb', packHead_bit, BitVec.getLsbD_append]
  split_ifs <;> first | omega | simp [BitVec.getLsbD_eq_getElem, hi]

@[simp] theorem high_packHead (x : BitVec 5) (y : BitVec 5) :
    (packHead h op d a (y ++ x) c m).extractLsb' 28 5 = y := by
  ext i hi
  simp only [BitVec.getElem_extractLsb', packHead_bit, BitVec.getLsbD_append]
  rw [← BitVec.getLsbD_eq_getElem]
  split_ifs
  all_goals first
    | omega
    | (congr 1; omega)

@[simp] theorem low_packHead : (packHead h op d a b c m).extractLsb' 13 10 = c := codeC_packHead h op d a b c m

theorem offset_join (x : BitVec 15) : (x.extractLsb' 10 5 ++ x.extractLsb' 0 10 : BitVec 15) = x := by
  ext i hi
  simp only [← BitVec.getLsbD_eq_getElem, BitVec.getLsbD_append, BitVec.getLsbD_extractLsb']
  split_ifs with q
  · simp [q]
  · have : i - 10 < 5 := by omega
    simp [this]
    congr 1
    omega

end

/-! ## Operand codes -/

@[simp] theorem ofCode_code (o : Operand) : Operand.ofCode o.code = o := by
  cases o with
  | literal => decide +kernel
  | v i =>
    have hi := i.isLt
    have hn : (Operand.v i).code.toNat = i.val := by simp only [Operand.code, BitVec.toNat_ofNat]; omega
    unfold Operand.ofCode
    simp only [hn]
    rw [dif_pos hi]
  | dist i =>
    have hi := i.isLt
    have hn : (Operand.dist i).code.toNat = 768 + i.val := by simp only [Operand.code, BitVec.toNat_ofNat]; omega
    unfold Operand.ofCode
    simp only [hn]
    rw [dif_neg (by omega), dif_pos (by omega)]
    simp
  | reservedLow i =>
    have hi := i.isLt
    have hn : (Operand.reservedLow i).code.toNat = 776 + i.val := by simp only [Operand.code, BitVec.toNat_ofNat]; omega
    unfold Operand.ofCode
    simp only [hn]
    rw [dif_neg (by omega), dif_neg (by omega), dif_pos (by omega)]
    simp
  | s i =>
    have hi := i.isLt
    have hn : (Operand.s i).code.toNat = 784 + i.val := by simp only [Operand.code, BitVec.toNat_ofNat]; omega
    unfold Operand.ofCode
    simp only [hn]
    rw [dif_neg (by omega), dif_neg (by omega), dif_neg (by omega), dif_pos (by omega)]
    simp
  | p i =>
    have hi := i.isLt
    have hn : (Operand.p i).code.toNat = 848 + i.val := by simp only [Operand.code, BitVec.toNat_ofNat]; omega
    unfold Operand.ofCode
    simp only [hn]
    rw [dif_neg (by omega), dif_neg (by omega), dif_neg (by omega), dif_neg (by omega), dif_pos (by omega)]
    simp
  | k i =>
    have hi := i.isLt
    have hn : (Operand.k i).code.toNat = 856 + i.val := by simp only [Operand.code, BitVec.toNat_ofNat]; omega
    unfold Operand.ofCode
    simp only [hn]
    rw [dif_neg (by omega), dif_neg (by omega), dif_neg (by omega), dif_neg (by omega), dif_neg (by omega), dif_pos (by omega)]
    simp
  | int i =>
    have hi := i.isLt
    have hn : (Operand.int i).code.toNat = 864 + i.val := by simp only [Operand.code, BitVec.toNat_ofNat]; omega
    unfold Operand.ofCode
    simp only [hn]
    rw [dif_neg (by omega), dif_neg (by omega), dif_neg (by omega), dif_neg (by omega), dif_neg (by omega), dif_neg (by omega), dif_pos (by omega)]
    simp
  | flt i =>
    have hi := i.isLt
    have hn : (Operand.flt i).code.toNat = 928 + i.val := by simp only [Operand.code, BitVec.toNat_ofNat]; omega
    unfold Operand.ofCode
    simp only [hn]
    rw [dif_neg (by omega), dif_neg (by omega), dif_neg (by omega), dif_neg (by omega), dif_neg (by omega), dif_neg (by omega), dif_neg (by omega), dif_pos (by omega)]
    simp
  | special i =>
    have hi := i.isLt
    have hn : (Operand.special i).code.toNat = 944 + i.val := by simp only [Operand.code, BitVec.toNat_ofNat]; omega
    unfold Operand.ofCode
    simp only [hn]
    rw [dif_neg (by omega), dif_neg (by omega), dif_neg (by omega), dif_neg (by omega), dif_neg (by omega), dif_neg (by omega), dif_neg (by omega), dif_neg (by omega), dif_pos (by omega)]
    simp
  | reservedHigh i =>
    have hi := i.isLt
    have hn : (Operand.reservedHigh i).code.toNat = 960 + i.val := by simp only [Operand.code, BitVec.toNat_ofNat]; omega
    unfold Operand.ofCode
    simp only [hn]
    rw [dif_neg (by omega), dif_neg (by omega), dif_neg (by omega), dif_neg (by omega), dif_neg (by omega), dif_neg (by omega), dif_neg (by omega), dif_neg (by omega), dif_neg (by omega), dif_pos (by omega), if_neg (by omega)]
    simp

/-! ## Modifiers (R55) -/

@[simp] theorem ModIN.ofBits_bits (m : ModIN) : ModIN.ofBits m.bits = m := by
  obtain ⟨x0, x1, x2, x3, x4⟩ := m
  revert x0 x1 x2 x3 x4
  decide +kernel

@[simp] theorem ModCM.ofBits_bits (m : ModCM) : ModCM.ofBits m.bits = m := by
  obtain ⟨x0, x1, x2, x3, x4, x5⟩ := m
  revert x0 x1 x2 x3 x4 x5
  decide +kernel

@[simp] theorem ModFL.ofBits_bits (m : ModFL) : ModFL.ofBits m.bits = m := by
  obtain ⟨x0, x1, x2, x3, x4⟩ := m
  revert x0 x1 x2 x3 x4
  decide +kernel

@[simp] theorem ModCF.ofBits_bits (m : ModCF) : ModCF.ofBits m.bits = m := by
  obtain ⟨x0, x1, x2, x3⟩ := m
  revert x0 x1 x2 x3
  decide +kernel

@[simp] theorem ModCI.ofBits_bits (m : ModCI) : ModCI.ofBits m.bits = m := by
  obtain ⟨x0, x1, x2, x3⟩ := m
  revert x0 x1 x2 x3
  decide +kernel

@[simp] theorem ModQS.ofBits_bits (m : ModQS) : ModQS.ofBits m.bits = m := by
  obtain ⟨x0, x1, x2, x3⟩ := m
  revert x0 x1 x2 x3
  decide +kernel

@[simp] theorem ModDT.ofBits_bits (m : ModDT) : ModDT.ofBits m.bits = m := by
  obtain ⟨x0, x1, x2, x3⟩ := m
  revert x0 x1 x2 x3
  decide +kernel

@[simp] theorem ModMM.ofBits_bits (m : ModMM) : ModMM.ofBits m.bits = m := by
  obtain ⟨x0, x1, x2, x3⟩ := m
  revert x0 x1 x2 x3
  decide +kernel

@[simp] theorem ModAT.ofBits_bits (m : ModAT) : ModAT.ofBits m.bits = m := by
  obtain ⟨x0, x1, x2⟩ := m
  revert x0 x1 x2
  decide +kernel

@[simp] theorem ModWA.ofBits_bits (m : ModWA) : ModWA.ofBits m.bits = m := by
  obtain ⟨x0, x1, x2, x3⟩ := m
  revert x0 x1 x2 x3
  decide +kernel

@[simp] theorem ModFN.ofBits_bits (m : ModFN) : ModFN.ofBits m.bits = m := by
  obtain ⟨x0, x1, x2⟩ := m
  revert x0 x1 x2
  decide +kernel

@[simp] theorem ModXF.ofBits_bits (m : ModXF) : ModXF.ofBits m.bits = m := by
  obtain ⟨x0, x1, x2⟩ := m
  revert x0 x1 x2
  decide +kernel

@[simp] theorem ModCP.ofBits_bits (m : ModCP) : ModCP.ofBits m.bits = m := by
  obtain ⟨x0, x1, x2⟩ := m
  revert x0 x1 x2
  decide +kernel

@[simp] theorem ModQU.ofBits_bits (m : ModQU) : ModQU.ofBits m.bits = m := by
  obtain ⟨x0, x1, x2, x3⟩ := m
  revert x0 x1 x2 x3
  decide +kernel

@[simp] theorem ModTM.ofBits_bits (m : ModTM) : ModTM.ofBits m.bits = m := by
  obtain ⟨x0, x1⟩ := m
  revert x0 x1
  decide +kernel

@[simp] theorem ModXL.ofBits_bits (m : ModXL) : ModXL.ofBits m.bits = m := by
  obtain ⟨x0, x1, x2, x3⟩ := m
  revert x0 x1 x2 x3
  decide +kernel

@[simp] theorem ModZ.ofBits_bits (m : ModZ) : ModZ.ofBits m.bits = m := by
  obtain ⟨x0⟩ := m
  revert x0
  decide +kernel

/-! ## Words by shape -/

section
variable {μ : Type} (f : BitVec 9 → μ) (op : BitVec 10) (m : BitVec 9) (lit : Option Wide)

@[simp] theorem wordOpcode_pack_OpWord (w : OpWord μ) : wordOpcode (w.pack op m) = op.toNat := by
  simp [OpWord.pack]

@[simp] theorem wordMod_pack_OpWord (w : OpWord μ) : wordMod (w.pack op m) = m := by
  simp [OpWord.pack]

@[simp] theorem opWord_pack (w : OpWord μ) (hl : lit = w.h.lit) (hf : f m = w.m) : opWord f (w.pack op m) lit = w := by
  subst hl
  obtain ⟨⟨sw, guard, l⟩, wm⟩ := w
  simp_all [opWord, OpWord.pack]

@[simp] theorem wordOpcode_pack_ImmWord (w : ImmWord μ) : wordOpcode (w.pack op m) = op.toNat := by
  simp [ImmWord.pack]

@[simp] theorem wordMod_pack_ImmWord (w : ImmWord μ) : wordMod (w.pack op m) = m := by
  simp [ImmWord.pack]

@[simp] theorem immWord_pack (w : ImmWord μ) (hl : lit = w.h.lit) (hf : f m = w.m) : immWord f (w.pack op m) lit = w := by
  subst hl
  obtain ⟨⟨sw, guard, l⟩, wm⟩ := w
  simp_all [immWord, ImmWord.pack]

@[simp] theorem wordOpcode_pack_MemWord (w : MemWord μ) : wordOpcode (w.pack op m) = op.toNat := by
  simp [MemWord.pack]

@[simp] theorem wordMod_pack_MemWord (w : MemWord μ) : wordMod (w.pack op m) = m := by
  simp [MemWord.pack]

@[simp] theorem memWord_pack (w : MemWord μ) (hl : lit = w.h.lit) (hf : f m = w.m) : memWord f (w.pack op m) lit = w := by
  subst hl
  obtain ⟨⟨sw, guard, l⟩, wm⟩ := w
  simp_all [memWord, MemWord.pack, offset_join]

@[simp] theorem wordOpcode_pack_RawMemWord (w : RawMemWord μ) : wordOpcode (w.pack op m) = op.toNat := by
  simp [RawMemWord.pack]

@[simp] theorem wordMod_pack_RawMemWord (w : RawMemWord μ) : wordMod (w.pack op m) = m := by
  simp [RawMemWord.pack]

@[simp] theorem rawMemWord_pack (w : RawMemWord μ) (hl : lit = w.h.lit) (hf : f m = w.m) : rawMemWord f (w.pack op m) lit = w := by
  subst hl
  obtain ⟨⟨sw, guard, l⟩, wm⟩ := w
  simp_all [rawMemWord, RawMemWord.pack, offset_join]

@[simp] theorem wordOpcode_pack_TimedMemWord (w : TimedMemWord μ) : wordOpcode (w.pack op m) = op.toNat := by
  simp [TimedMemWord.pack]

@[simp] theorem wordMod_pack_TimedMemWord (w : TimedMemWord μ) : wordMod (w.pack op m) = m := by
  simp [TimedMemWord.pack]

@[simp] theorem timedMemWord_pack (w : TimedMemWord μ) (hl : lit = w.h.lit) (hf : f m = w.m) : timedMemWord f (w.pack op m) lit = w := by
  subst hl
  obtain ⟨⟨sw, guard, l⟩, wm⟩ := w
  simp_all [timedMemWord, TimedMemWord.pack]

@[simp] theorem wordOpcode_pack_CopyWord (w : CopyWord μ) : wordOpcode (w.pack op m) = op.toNat := by
  simp [CopyWord.pack]

@[simp] theorem wordMod_pack_CopyWord (w : CopyWord μ) : wordMod (w.pack op m) = m := by
  simp [CopyWord.pack]

@[simp] theorem copyWord_pack (w : CopyWord μ) (hl : lit = w.h.lit) (hf : f m = w.m) : copyWord f (w.pack op m) lit = w := by
  subst hl
  obtain ⟨⟨sw, guard, l⟩, wm⟩ := w
  simp_all [copyWord, CopyWord.pack]

@[simp] theorem wordOpcode_pack_RawDWord (w : RawDWord μ) : wordOpcode (w.pack op m) = op.toNat := by
  simp [RawDWord.pack]

@[simp] theorem wordMod_pack_RawDWord (w : RawDWord μ) : wordMod (w.pack op m) = m := by
  simp [RawDWord.pack]

@[simp] theorem rawDWord_pack (w : RawDWord μ) (hl : lit = w.h.lit) (hf : f m = w.m) : rawDWord f (w.pack op m) lit = w := by
  subst hl
  obtain ⟨⟨sw, guard, l⟩, wm⟩ := w
  simp_all [rawDWord, RawDWord.pack]

@[simp] theorem wordOpcode_pack_RawAWord (w : RawAWord μ) : wordOpcode (w.pack op m) = op.toNat := by
  simp [RawAWord.pack]

@[simp] theorem wordMod_pack_RawAWord (w : RawAWord μ) : wordMod (w.pack op m) = m := by
  simp [RawAWord.pack]

@[simp] theorem rawAWord_pack (w : RawAWord μ) (hl : lit = w.h.lit) (hf : f m = w.m) : rawAWord f (w.pack op m) lit = w := by
  subst hl
  obtain ⟨⟨sw, guard, l⟩, wm⟩ := w
  simp_all [rawAWord, RawAWord.pack]

@[simp] theorem wordOpcode_pack_RawBWord (w : RawBWord μ) : wordOpcode (w.pack op m) = op.toNat := by
  simp [RawBWord.pack]

@[simp] theorem wordMod_pack_RawBWord (w : RawBWord μ) : wordMod (w.pack op m) = m := by
  simp [RawBWord.pack]

@[simp] theorem rawBWord_pack (w : RawBWord μ) (hl : lit = w.h.lit) (hf : f m = w.m) : rawBWord f (w.pack op m) lit = w := by
  subst hl
  obtain ⟨⟨sw, guard, l⟩, wm⟩ := w
  simp_all [rawBWord, RawBWord.pack]

end

end Sys2Proof
end

