-- ==== Sys2Proof/Laws/State.lean ====
section
/-!
SUPPORT. What each update of a part of the state leaves in every field of the state.
-/

namespace Sys2Proof.Machine

variable (s : State)

/-! ## `updCore` -/

@[simp] theorem updCore_time (k : Nat) (f : Core → Core) : (updCore s k f).time = s.time := rfl
@[simp] theorem updCore_cores (k : Nat) (f : Core → Core) : (updCore s k f).cores = s.cores.modify k f := rfl
@[simp] theorem updCore_clusters (k : Nat) (f : Core → Core) : (updCore s k f).clusters = s.clusters := rfl
@[simp] theorem updCore_pairs (k : Nat) (f : Core → Core) : (updCore s k f).pairs = s.pairs := rfl
@[simp] theorem updCore_dies (k : Nat) (f : Core → Core) : (updCore s k f).dies = s.dies := rfl
@[simp] theorem updCore_vaults (k : Nat) (f : Core → Core) : (updCore s k f).vaults = s.vaults := rfl
@[simp] theorem updCore_groups (k : Nat) (f : Core → Core) : (updCore s k f).groups = s.groups := rfl
@[simp] theorem updCore_graphs (k : Nat) (f : Core → Core) : (updCore s k f).graphs = s.graphs := rfl
@[simp] theorem updCore_waiting (k : Nat) (f : Core → Core) : (updCore s k f).waiting = s.waiting := rfl
@[simp] theorem updCore_copies (k : Nat) (f : Core → Core) : (updCore s k f).copies = s.copies := rfl
@[simp] theorem updCore_reductions (k : Nat) (f : Core → Core) : (updCore s k f).reductions = s.reductions := rfl
@[simp] theorem updCore_moves (k : Nat) (f : Core → Core) : (updCore s k f).moves = s.moves := rfl
@[simp] theorem updCore_pools (k : Nat) (f : Core → Core) : (updCore s k f).pools = s.pools := rfl
@[simp] theorem updCore_bankRequests (k : Nat) (f : Core → Core) : (updCore s k f).bankRequests = s.bankRequests := rfl
@[simp] theorem updCore_fworks (k : Nat) (f : Core → Core) : (updCore s k f).fworks = s.fworks := rfl
@[simp] theorem updCore_pageMoves (k : Nat) (f : Core → Core) : (updCore s k f).pageMoves = s.pageMoves := rfl
@[simp] theorem updCore_poison (k : Nat) (f : Core → Core) : (updCore s k f).poison = s.poison := rfl
@[simp] theorem updCore_mismatch (k : Nat) (f : Core → Core) : (updCore s k f).mismatch = s.mismatch := rfl
@[simp] theorem updCore_hostHeld (k : Nat) (f : Core → Core) : (updCore s k f).hostHeld = s.hostHeld := rfl
@[simp] theorem updCore_late (k : Nat) (f : Core → Core) : (updCore s k f).late = s.late := rfl
@[simp] theorem updCore_reported (k : Nat) (f : Core → Core) : (updCore s k f).reported = s.reported := rfl
@[simp] theorem updCore_policy (k : Nat) (f : Core → Core) : (updCore s k f).policy = s.policy := rfl
@[simp] theorem updCore_policyGlobal (k : Nat) (f : Core → Core) : (updCore s k f).policyGlobal = s.policyGlobal := rfl
@[simp] theorem updCore_tensorBase (k : Nat) (f : Core → Core) : (updCore s k f).tensorBase = s.tensorBase := rfl
@[simp] theorem updCore_tensorCount (k : Nat) (f : Core → Core) : (updCore s k f).tensorCount = s.tensorCount := rfl
@[simp] theorem updCore_deepBytes (k : Nat) (f : Core → Core) : (updCore s k f).deepBytes = s.deepBytes := rfl
@[simp] theorem updCore_pageRoot (k : Nat) (f : Core → Core) : (updCore s k f).pageRoot = s.pageRoot := rfl
@[simp] theorem updCore_rangeList (k : Nat) (f : Core → Core) : (updCore s k f).rangeList = s.rangeList := rfl
@[simp] theorem updCore_notices (k : Nat) (f : Core → Core) : (updCore s k f).notices = s.notices := rfl
@[simp] theorem updCore_noticeRing (k : Nat) (f : Core → Core) : (updCore s k f).noticeRing = s.noticeRing := rfl
@[simp] theorem updCore_queues (k : Nat) (f : Core → Core) : (updCore s k f).queues = s.queues := rfl
@[simp] theorem updCore_commands (k : Nat) (f : Core → Core) : (updCore s k f).commands = s.commands := rfl
@[simp] theorem updCore_flushes (k : Nat) (f : Core → Core) : (updCore s k f).flushes = s.flushes := rfl
@[simp] theorem updCore_blocks (k : Nat) (f : Core → Core) : (updCore s k f).blocks = s.blocks := rfl
@[simp] theorem updCore_hostMem (k : Nat) (f : Core → Core) : (updCore s k f).hostMem = s.hostMem := rfl
@[simp] theorem updCore_linkReads (k : Nat) (f : Core → Core) : (updCore s k f).linkReads = s.linkReads := rfl
@[simp] theorem updCore_linkWrites (k : Nat) (f : Core → Core) : (updCore s k f).linkWrites = s.linkWrites := rfl
@[simp] theorem updCore_linkReplies (k : Nat) (f : Core → Core) : (updCore s k f).linkReplies = s.linkReplies := rfl
@[simp] theorem updCore_dropped (k : Nat) (f : Core → Core) : (updCore s k f).dropped = s.dropped := rfl
@[simp] theorem updCore_keySlots (k : Nat) (f : Core → Core) : (updCore s k f).keySlots = s.keySlots := rfl
@[simp] theorem updCore_rollback (k : Nat) (f : Core → Core) : (updCore s k f).rollback = s.rollback := rfl
@[simp] theorem updCore_running (k : Nat) (f : Core → Core) : (updCore s k f).running = s.running := rfl
@[simp] theorem updCore_bootConfig (k : Nat) (f : Core → Core) : (updCore s k f).bootConfig = s.bootConfig := rfl
@[simp] theorem updCore_ended (k : Nat) (f : Core → Core) : (updCore s k f).ended = s.ended := rfl
@[simp] theorem updCore_accesses (k : Nat) (f : Core → Core) : (updCore s k f).accesses = s.accesses := rfl
@[simp] theorem updCore_slotGen (k : Nat) (f : Core → Core) : (updCore s k f).slotGen = s.slotGen := rfl
@[simp] theorem updCore_epoch (k : Nat) (f : Core → Core) : (updCore s k f).epoch = s.epoch := rfl
@[simp] theorem updCore_stamp (k : Nat) (f : Core → Core) : (updCore s k f).stamp = s.stamp := rfl
@[simp] theorem updCore_writes (k : Nat) (f : Core → Core) : (updCore s k f).writes = s.writes := rfl
@[simp] theorem updCore_serial (k : Nat) (f : Core → Core) : (updCore s k f).serial = s.serial := rfl
@[simp] theorem updCore_freeCount (k : Nat) (f : Core → Core) : (updCore s k f).freeCount = s.freeCount := rfl
@[simp] theorem updCore_focus (k : Nat) (f : Core → Core) : (updCore s k f).focus = s.focus := rfl
@[simp] theorem updCore_agenda (k : Nat) (f : Core → Core) : (updCore s k f).agenda = s.agenda := rfl

/-! ## `updDie` -/

@[simp] theorem updDie_time (k : Nat) (f : Die → Die) : (updDie s k f).time = s.time := rfl
@[simp] theorem updDie_cores (k : Nat) (f : Die → Die) : (updDie s k f).cores = s.cores := rfl
@[simp] theorem updDie_clusters (k : Nat) (f : Die → Die) : (updDie s k f).clusters = s.clusters := rfl
@[simp] theorem updDie_pairs (k : Nat) (f : Die → Die) : (updDie s k f).pairs = s.pairs := rfl
@[simp] theorem updDie_dies (k : Nat) (f : Die → Die) : (updDie s k f).dies = s.dies.modify k f := rfl
@[simp] theorem updDie_vaults (k : Nat) (f : Die → Die) : (updDie s k f).vaults = s.vaults := rfl
@[simp] theorem updDie_groups (k : Nat) (f : Die → Die) : (updDie s k f).groups = s.groups := rfl
@[simp] theorem updDie_graphs (k : Nat) (f : Die → Die) : (updDie s k f).graphs = s.graphs := rfl
@[simp] theorem updDie_waiting (k : Nat) (f : Die → Die) : (updDie s k f).waiting = s.waiting := rfl
@[simp] theorem updDie_copies (k : Nat) (f : Die → Die) : (updDie s k f).copies = s.copies := rfl
@[simp] theorem updDie_reductions (k : Nat) (f : Die → Die) : (updDie s k f).reductions = s.reductions := rfl
@[simp] theorem updDie_moves (k : Nat) (f : Die → Die) : (updDie s k f).moves = s.moves := rfl
@[simp] theorem updDie_pools (k : Nat) (f : Die → Die) : (updDie s k f).pools = s.pools := rfl
@[simp] theorem updDie_bankRequests (k : Nat) (f : Die → Die) : (updDie s k f).bankRequests = s.bankRequests := rfl
@[simp] theorem updDie_fworks (k : Nat) (f : Die → Die) : (updDie s k f).fworks = s.fworks := rfl
@[simp] theorem updDie_pageMoves (k : Nat) (f : Die → Die) : (updDie s k f).pageMoves = s.pageMoves := rfl
@[simp] theorem updDie_hostHeld (k : Nat) (f : Die → Die) : (updDie s k f).hostHeld = s.hostHeld := rfl
@[simp] theorem updDie_late (k : Nat) (f : Die → Die) : (updDie s k f).late = s.late := rfl
@[simp] theorem updDie_reported (k : Nat) (f : Die → Die) : (updDie s k f).reported = s.reported := rfl
@[simp] theorem updDie_policy (k : Nat) (f : Die → Die) : (updDie s k f).policy = s.policy := rfl
@[simp] theorem updDie_policyGlobal (k : Nat) (f : Die → Die) : (updDie s k f).policyGlobal = s.policyGlobal := rfl
@[simp] theorem updDie_tensorBase (k : Nat) (f : Die → Die) : (updDie s k f).tensorBase = s.tensorBase := rfl
@[simp] theorem updDie_tensorCount (k : Nat) (f : Die → Die) : (updDie s k f).tensorCount = s.tensorCount := rfl
@[simp] theorem updDie_deepBytes (k : Nat) (f : Die → Die) : (updDie s k f).deepBytes = s.deepBytes := rfl
@[simp] theorem updDie_pageRoot (k : Nat) (f : Die → Die) : (updDie s k f).pageRoot = s.pageRoot := rfl
@[simp] theorem updDie_rangeList (k : Nat) (f : Die → Die) : (updDie s k f).rangeList = s.rangeList := rfl
@[simp] theorem updDie_notices (k : Nat) (f : Die → Die) : (updDie s k f).notices = s.notices := rfl
@[simp] theorem updDie_noticeRing (k : Nat) (f : Die → Die) : (updDie s k f).noticeRing = s.noticeRing := rfl
@[simp] theorem updDie_queues (k : Nat) (f : Die → Die) : (updDie s k f).queues = s.queues := rfl
@[simp] theorem updDie_commands (k : Nat) (f : Die → Die) : (updDie s k f).commands = s.commands := rfl
@[simp] theorem updDie_flushes (k : Nat) (f : Die → Die) : (updDie s k f).flushes = s.flushes := rfl
@[simp] theorem updDie_blocks (k : Nat) (f : Die → Die) : (updDie s k f).blocks = s.blocks := rfl
@[simp] theorem updDie_hostMem (k : Nat) (f : Die → Die) : (updDie s k f).hostMem = s.hostMem := rfl
@[simp] theorem updDie_linkReads (k : Nat) (f : Die → Die) : (updDie s k f).linkReads = s.linkReads := rfl
@[simp] theorem updDie_linkWrites (k : Nat) (f : Die → Die) : (updDie s k f).linkWrites = s.linkWrites := rfl
@[simp] theorem updDie_linkReplies (k : Nat) (f : Die → Die) : (updDie s k f).linkReplies = s.linkReplies := rfl
@[simp] theorem updDie_dropped (k : Nat) (f : Die → Die) : (updDie s k f).dropped = s.dropped := rfl
@[simp] theorem updDie_keySlots (k : Nat) (f : Die → Die) : (updDie s k f).keySlots = s.keySlots := rfl
@[simp] theorem updDie_rollback (k : Nat) (f : Die → Die) : (updDie s k f).rollback = s.rollback := rfl
@[simp] theorem updDie_running (k : Nat) (f : Die → Die) : (updDie s k f).running = s.running := rfl
@[simp] theorem updDie_bootConfig (k : Nat) (f : Die → Die) : (updDie s k f).bootConfig = s.bootConfig := rfl
@[simp] theorem updDie_ended (k : Nat) (f : Die → Die) : (updDie s k f).ended = s.ended := rfl
@[simp] theorem updDie_accesses (k : Nat) (f : Die → Die) : (updDie s k f).accesses = s.accesses := rfl
@[simp] theorem updDie_slotGen (k : Nat) (f : Die → Die) : (updDie s k f).slotGen = s.slotGen := rfl
@[simp] theorem updDie_epoch (k : Nat) (f : Die → Die) : (updDie s k f).epoch = s.epoch := rfl
@[simp] theorem updDie_stamp (k : Nat) (f : Die → Die) : (updDie s k f).stamp = s.stamp := rfl
@[simp] theorem updDie_writes (k : Nat) (f : Die → Die) : (updDie s k f).writes = s.writes := rfl
@[simp] theorem updDie_serial (k : Nat) (f : Die → Die) : (updDie s k f).serial = s.serial := rfl
@[simp] theorem updDie_freeCount (k : Nat) (f : Die → Die) : (updDie s k f).freeCount = s.freeCount := rfl
@[simp] theorem updDie_focus (k : Nat) (f : Die → Die) : (updDie s k f).focus = s.focus := rfl
@[simp] theorem updDie_agenda (k : Nat) (f : Die → Die) : (updDie s k f).agenda = s.agenda := rfl

/-! ## `updVault` -/

@[simp] theorem updVault_time (k : Nat) (f : Vault → Vault) : (updVault s k f).time = s.time := rfl
@[simp] theorem updVault_cores (k : Nat) (f : Vault → Vault) : (updVault s k f).cores = s.cores := rfl
@[simp] theorem updVault_clusters (k : Nat) (f : Vault → Vault) : (updVault s k f).clusters = s.clusters := rfl
@[simp] theorem updVault_pairs (k : Nat) (f : Vault → Vault) : (updVault s k f).pairs = s.pairs := rfl
@[simp] theorem updVault_dies (k : Nat) (f : Vault → Vault) : (updVault s k f).dies = s.dies := rfl
@[simp] theorem updVault_vaults (k : Nat) (f : Vault → Vault) : (updVault s k f).vaults = s.vaults.modify k f := rfl
@[simp] theorem updVault_groups (k : Nat) (f : Vault → Vault) : (updVault s k f).groups = s.groups := rfl
@[simp] theorem updVault_graphs (k : Nat) (f : Vault → Vault) : (updVault s k f).graphs = s.graphs := rfl
@[simp] theorem updVault_waiting (k : Nat) (f : Vault → Vault) : (updVault s k f).waiting = s.waiting := rfl
@[simp] theorem updVault_copies (k : Nat) (f : Vault → Vault) : (updVault s k f).copies = s.copies := rfl
@[simp] theorem updVault_reductions (k : Nat) (f : Vault → Vault) : (updVault s k f).reductions = s.reductions := rfl
@[simp] theorem updVault_moves (k : Nat) (f : Vault → Vault) : (updVault s k f).moves = s.moves := rfl
@[simp] theorem updVault_pools (k : Nat) (f : Vault → Vault) : (updVault s k f).pools = s.pools := rfl
@[simp] theorem updVault_bankRequests (k : Nat) (f : Vault → Vault) : (updVault s k f).bankRequests = s.bankRequests := rfl
@[simp] theorem updVault_fworks (k : Nat) (f : Vault → Vault) : (updVault s k f).fworks = s.fworks := rfl
@[simp] theorem updVault_pageMoves (k : Nat) (f : Vault → Vault) : (updVault s k f).pageMoves = s.pageMoves := rfl
@[simp] theorem updVault_poison (k : Nat) (f : Vault → Vault) : (updVault s k f).poison = s.poison := rfl
@[simp] theorem updVault_mismatch (k : Nat) (f : Vault → Vault) : (updVault s k f).mismatch = s.mismatch := rfl
@[simp] theorem updVault_hostHeld (k : Nat) (f : Vault → Vault) : (updVault s k f).hostHeld = s.hostHeld := rfl
@[simp] theorem updVault_late (k : Nat) (f : Vault → Vault) : (updVault s k f).late = s.late := rfl
@[simp] theorem updVault_reported (k : Nat) (f : Vault → Vault) : (updVault s k f).reported = s.reported := rfl
@[simp] theorem updVault_policy (k : Nat) (f : Vault → Vault) : (updVault s k f).policy = s.policy := rfl
@[simp] theorem updVault_policyGlobal (k : Nat) (f : Vault → Vault) : (updVault s k f).policyGlobal = s.policyGlobal := rfl
@[simp] theorem updVault_tensorBase (k : Nat) (f : Vault → Vault) : (updVault s k f).tensorBase = s.tensorBase := rfl
@[simp] theorem updVault_tensorCount (k : Nat) (f : Vault → Vault) : (updVault s k f).tensorCount = s.tensorCount := rfl
@[simp] theorem updVault_deepBytes (k : Nat) (f : Vault → Vault) : (updVault s k f).deepBytes = s.deepBytes := rfl
@[simp] theorem updVault_pageRoot (k : Nat) (f : Vault → Vault) : (updVault s k f).pageRoot = s.pageRoot := rfl
@[simp] theorem updVault_rangeList (k : Nat) (f : Vault → Vault) : (updVault s k f).rangeList = s.rangeList := rfl
@[simp] theorem updVault_notices (k : Nat) (f : Vault → Vault) : (updVault s k f).notices = s.notices := rfl
@[simp] theorem updVault_noticeRing (k : Nat) (f : Vault → Vault) : (updVault s k f).noticeRing = s.noticeRing := rfl
@[simp] theorem updVault_queues (k : Nat) (f : Vault → Vault) : (updVault s k f).queues = s.queues := rfl
@[simp] theorem updVault_commands (k : Nat) (f : Vault → Vault) : (updVault s k f).commands = s.commands := rfl
@[simp] theorem updVault_flushes (k : Nat) (f : Vault → Vault) : (updVault s k f).flushes = s.flushes := rfl
@[simp] theorem updVault_blocks (k : Nat) (f : Vault → Vault) : (updVault s k f).blocks = s.blocks := rfl
@[simp] theorem updVault_hostMem (k : Nat) (f : Vault → Vault) : (updVault s k f).hostMem = s.hostMem := rfl
@[simp] theorem updVault_linkReads (k : Nat) (f : Vault → Vault) : (updVault s k f).linkReads = s.linkReads := rfl
@[simp] theorem updVault_linkWrites (k : Nat) (f : Vault → Vault) : (updVault s k f).linkWrites = s.linkWrites := rfl
@[simp] theorem updVault_linkReplies (k : Nat) (f : Vault → Vault) : (updVault s k f).linkReplies = s.linkReplies := rfl
@[simp] theorem updVault_dropped (k : Nat) (f : Vault → Vault) : (updVault s k f).dropped = s.dropped := rfl
@[simp] theorem updVault_keySlots (k : Nat) (f : Vault → Vault) : (updVault s k f).keySlots = s.keySlots := rfl
@[simp] theorem updVault_rollback (k : Nat) (f : Vault → Vault) : (updVault s k f).rollback = s.rollback := rfl
@[simp] theorem updVault_running (k : Nat) (f : Vault → Vault) : (updVault s k f).running = s.running := rfl
@[simp] theorem updVault_bootConfig (k : Nat) (f : Vault → Vault) : (updVault s k f).bootConfig = s.bootConfig := rfl
@[simp] theorem updVault_ended (k : Nat) (f : Vault → Vault) : (updVault s k f).ended = s.ended := rfl
@[simp] theorem updVault_accesses (k : Nat) (f : Vault → Vault) : (updVault s k f).accesses = s.accesses := rfl
@[simp] theorem updVault_slotGen (k : Nat) (f : Vault → Vault) : (updVault s k f).slotGen = s.slotGen := rfl
@[simp] theorem updVault_epoch (k : Nat) (f : Vault → Vault) : (updVault s k f).epoch = s.epoch := rfl
@[simp] theorem updVault_stamp (k : Nat) (f : Vault → Vault) : (updVault s k f).stamp = s.stamp := rfl
@[simp] theorem updVault_writes (k : Nat) (f : Vault → Vault) : (updVault s k f).writes = s.writes := rfl
@[simp] theorem updVault_serial (k : Nat) (f : Vault → Vault) : (updVault s k f).serial = s.serial := rfl
@[simp] theorem updVault_freeCount (k : Nat) (f : Vault → Vault) : (updVault s k f).freeCount = s.freeCount := rfl
@[simp] theorem updVault_focus (k : Nat) (f : Vault → Vault) : (updVault s k f).focus = s.focus := rfl
@[simp] theorem updVault_agenda (k : Nat) (f : Vault → Vault) : (updVault s k f).agenda = s.agenda := rfl

/-! ## `updPair` -/

@[simp] theorem updPair_time (k : Nat) (f : Pair → Pair) : (updPair s k f).time = s.time := rfl
@[simp] theorem updPair_cores (k : Nat) (f : Pair → Pair) : (updPair s k f).cores = s.cores := rfl
@[simp] theorem updPair_clusters (k : Nat) (f : Pair → Pair) : (updPair s k f).clusters = s.clusters := rfl
@[simp] theorem updPair_pairs (k : Nat) (f : Pair → Pair) : (updPair s k f).pairs = s.pairs.modify k f := rfl
@[simp] theorem updPair_dies (k : Nat) (f : Pair → Pair) : (updPair s k f).dies = s.dies := rfl
@[simp] theorem updPair_vaults (k : Nat) (f : Pair → Pair) : (updPair s k f).vaults = s.vaults := rfl
@[simp] theorem updPair_groups (k : Nat) (f : Pair → Pair) : (updPair s k f).groups = s.groups := rfl
@[simp] theorem updPair_graphs (k : Nat) (f : Pair → Pair) : (updPair s k f).graphs = s.graphs := rfl
@[simp] theorem updPair_waiting (k : Nat) (f : Pair → Pair) : (updPair s k f).waiting = s.waiting := rfl
@[simp] theorem updPair_copies (k : Nat) (f : Pair → Pair) : (updPair s k f).copies = s.copies := rfl
@[simp] theorem updPair_reductions (k : Nat) (f : Pair → Pair) : (updPair s k f).reductions = s.reductions := rfl
@[simp] theorem updPair_moves (k : Nat) (f : Pair → Pair) : (updPair s k f).moves = s.moves := rfl
@[simp] theorem updPair_pools (k : Nat) (f : Pair → Pair) : (updPair s k f).pools = s.pools := rfl
@[simp] theorem updPair_bankRequests (k : Nat) (f : Pair → Pair) : (updPair s k f).bankRequests = s.bankRequests := rfl
@[simp] theorem updPair_fworks (k : Nat) (f : Pair → Pair) : (updPair s k f).fworks = s.fworks := rfl
@[simp] theorem updPair_pageMoves (k : Nat) (f : Pair → Pair) : (updPair s k f).pageMoves = s.pageMoves := rfl
@[simp] theorem updPair_poison (k : Nat) (f : Pair → Pair) : (updPair s k f).poison = s.poison := rfl
@[simp] theorem updPair_mismatch (k : Nat) (f : Pair → Pair) : (updPair s k f).mismatch = s.mismatch := rfl
@[simp] theorem updPair_hostHeld (k : Nat) (f : Pair → Pair) : (updPair s k f).hostHeld = s.hostHeld := rfl
@[simp] theorem updPair_late (k : Nat) (f : Pair → Pair) : (updPair s k f).late = s.late := rfl
@[simp] theorem updPair_reported (k : Nat) (f : Pair → Pair) : (updPair s k f).reported = s.reported := rfl
@[simp] theorem updPair_policy (k : Nat) (f : Pair → Pair) : (updPair s k f).policy = s.policy := rfl
@[simp] theorem updPair_policyGlobal (k : Nat) (f : Pair → Pair) : (updPair s k f).policyGlobal = s.policyGlobal := rfl
@[simp] theorem updPair_tensorBase (k : Nat) (f : Pair → Pair) : (updPair s k f).tensorBase = s.tensorBase := rfl
@[simp] theorem updPair_tensorCount (k : Nat) (f : Pair → Pair) : (updPair s k f).tensorCount = s.tensorCount := rfl
@[simp] theorem updPair_deepBytes (k : Nat) (f : Pair → Pair) : (updPair s k f).deepBytes = s.deepBytes := rfl
@[simp] theorem updPair_pageRoot (k : Nat) (f : Pair → Pair) : (updPair s k f).pageRoot = s.pageRoot := rfl
@[simp] theorem updPair_rangeList (k : Nat) (f : Pair → Pair) : (updPair s k f).rangeList = s.rangeList := rfl
@[simp] theorem updPair_notices (k : Nat) (f : Pair → Pair) : (updPair s k f).notices = s.notices := rfl
@[simp] theorem updPair_noticeRing (k : Nat) (f : Pair → Pair) : (updPair s k f).noticeRing = s.noticeRing := rfl
@[simp] theorem updPair_queues (k : Nat) (f : Pair → Pair) : (updPair s k f).queues = s.queues := rfl
@[simp] theorem updPair_commands (k : Nat) (f : Pair → Pair) : (updPair s k f).commands = s.commands := rfl
@[simp] theorem updPair_flushes (k : Nat) (f : Pair → Pair) : (updPair s k f).flushes = s.flushes := rfl
@[simp] theorem updPair_blocks (k : Nat) (f : Pair → Pair) : (updPair s k f).blocks = s.blocks := rfl
@[simp] theorem updPair_hostMem (k : Nat) (f : Pair → Pair) : (updPair s k f).hostMem = s.hostMem := rfl
@[simp] theorem updPair_linkReads (k : Nat) (f : Pair → Pair) : (updPair s k f).linkReads = s.linkReads := rfl
@[simp] theorem updPair_linkWrites (k : Nat) (f : Pair → Pair) : (updPair s k f).linkWrites = s.linkWrites := rfl
@[simp] theorem updPair_linkReplies (k : Nat) (f : Pair → Pair) : (updPair s k f).linkReplies = s.linkReplies := rfl
@[simp] theorem updPair_dropped (k : Nat) (f : Pair → Pair) : (updPair s k f).dropped = s.dropped := rfl
@[simp] theorem updPair_keySlots (k : Nat) (f : Pair → Pair) : (updPair s k f).keySlots = s.keySlots := rfl
@[simp] theorem updPair_rollback (k : Nat) (f : Pair → Pair) : (updPair s k f).rollback = s.rollback := rfl
@[simp] theorem updPair_running (k : Nat) (f : Pair → Pair) : (updPair s k f).running = s.running := rfl
@[simp] theorem updPair_bootConfig (k : Nat) (f : Pair → Pair) : (updPair s k f).bootConfig = s.bootConfig := rfl
@[simp] theorem updPair_ended (k : Nat) (f : Pair → Pair) : (updPair s k f).ended = s.ended := rfl
@[simp] theorem updPair_accesses (k : Nat) (f : Pair → Pair) : (updPair s k f).accesses = s.accesses := rfl
@[simp] theorem updPair_slotGen (k : Nat) (f : Pair → Pair) : (updPair s k f).slotGen = s.slotGen := rfl
@[simp] theorem updPair_epoch (k : Nat) (f : Pair → Pair) : (updPair s k f).epoch = s.epoch := rfl
@[simp] theorem updPair_stamp (k : Nat) (f : Pair → Pair) : (updPair s k f).stamp = s.stamp := rfl
@[simp] theorem updPair_writes (k : Nat) (f : Pair → Pair) : (updPair s k f).writes = s.writes := rfl
@[simp] theorem updPair_serial (k : Nat) (f : Pair → Pair) : (updPair s k f).serial = s.serial := rfl
@[simp] theorem updPair_freeCount (k : Nat) (f : Pair → Pair) : (updPair s k f).freeCount = s.freeCount := rfl
@[simp] theorem updPair_focus (k : Nat) (f : Pair → Pair) : (updPair s k f).focus = s.focus := rfl
@[simp] theorem updPair_agenda (k : Nat) (f : Pair → Pair) : (updPair s k f).agenda = s.agenda := rfl

/-! ## `updCluster` -/

@[simp] theorem updCluster_time (k : Nat) (f : Cluster → Cluster) : (updCluster s k f).time = s.time := rfl
@[simp] theorem updCluster_cores (k : Nat) (f : Cluster → Cluster) : (updCluster s k f).cores = s.cores := rfl
@[simp] theorem updCluster_clusters (k : Nat) (f : Cluster → Cluster) : (updCluster s k f).clusters = s.clusters.modify k f := rfl
@[simp] theorem updCluster_pairs (k : Nat) (f : Cluster → Cluster) : (updCluster s k f).pairs = s.pairs := rfl
@[simp] theorem updCluster_dies (k : Nat) (f : Cluster → Cluster) : (updCluster s k f).dies = s.dies := rfl
@[simp] theorem updCluster_vaults (k : Nat) (f : Cluster → Cluster) : (updCluster s k f).vaults = s.vaults := rfl
@[simp] theorem updCluster_groups (k : Nat) (f : Cluster → Cluster) : (updCluster s k f).groups = s.groups := rfl
@[simp] theorem updCluster_graphs (k : Nat) (f : Cluster → Cluster) : (updCluster s k f).graphs = s.graphs := rfl
@[simp] theorem updCluster_waiting (k : Nat) (f : Cluster → Cluster) : (updCluster s k f).waiting = s.waiting := rfl
@[simp] theorem updCluster_copies (k : Nat) (f : Cluster → Cluster) : (updCluster s k f).copies = s.copies := rfl
@[simp] theorem updCluster_reductions (k : Nat) (f : Cluster → Cluster) : (updCluster s k f).reductions = s.reductions := rfl
@[simp] theorem updCluster_moves (k : Nat) (f : Cluster → Cluster) : (updCluster s k f).moves = s.moves := rfl
@[simp] theorem updCluster_pools (k : Nat) (f : Cluster → Cluster) : (updCluster s k f).pools = s.pools := rfl
@[simp] theorem updCluster_bankRequests (k : Nat) (f : Cluster → Cluster) : (updCluster s k f).bankRequests = s.bankRequests := rfl
@[simp] theorem updCluster_fworks (k : Nat) (f : Cluster → Cluster) : (updCluster s k f).fworks = s.fworks := rfl
@[simp] theorem updCluster_pageMoves (k : Nat) (f : Cluster → Cluster) : (updCluster s k f).pageMoves = s.pageMoves := rfl
@[simp] theorem updCluster_poison (k : Nat) (f : Cluster → Cluster) : (updCluster s k f).poison = s.poison := rfl
@[simp] theorem updCluster_mismatch (k : Nat) (f : Cluster → Cluster) : (updCluster s k f).mismatch = s.mismatch := rfl
@[simp] theorem updCluster_hostHeld (k : Nat) (f : Cluster → Cluster) : (updCluster s k f).hostHeld = s.hostHeld := rfl
@[simp] theorem updCluster_late (k : Nat) (f : Cluster → Cluster) : (updCluster s k f).late = s.late := rfl
@[simp] theorem updCluster_reported (k : Nat) (f : Cluster → Cluster) : (updCluster s k f).reported = s.reported := rfl
@[simp] theorem updCluster_policy (k : Nat) (f : Cluster → Cluster) : (updCluster s k f).policy = s.policy := rfl
@[simp] theorem updCluster_policyGlobal (k : Nat) (f : Cluster → Cluster) : (updCluster s k f).policyGlobal = s.policyGlobal := rfl
@[simp] theorem updCluster_tensorBase (k : Nat) (f : Cluster → Cluster) : (updCluster s k f).tensorBase = s.tensorBase := rfl
@[simp] theorem updCluster_tensorCount (k : Nat) (f : Cluster → Cluster) : (updCluster s k f).tensorCount = s.tensorCount := rfl
@[simp] theorem updCluster_deepBytes (k : Nat) (f : Cluster → Cluster) : (updCluster s k f).deepBytes = s.deepBytes := rfl
@[simp] theorem updCluster_pageRoot (k : Nat) (f : Cluster → Cluster) : (updCluster s k f).pageRoot = s.pageRoot := rfl
@[simp] theorem updCluster_rangeList (k : Nat) (f : Cluster → Cluster) : (updCluster s k f).rangeList = s.rangeList := rfl
@[simp] theorem updCluster_notices (k : Nat) (f : Cluster → Cluster) : (updCluster s k f).notices = s.notices := rfl
@[simp] theorem updCluster_noticeRing (k : Nat) (f : Cluster → Cluster) : (updCluster s k f).noticeRing = s.noticeRing := rfl
@[simp] theorem updCluster_queues (k : Nat) (f : Cluster → Cluster) : (updCluster s k f).queues = s.queues := rfl
@[simp] theorem updCluster_commands (k : Nat) (f : Cluster → Cluster) : (updCluster s k f).commands = s.commands := rfl
@[simp] theorem updCluster_flushes (k : Nat) (f : Cluster → Cluster) : (updCluster s k f).flushes = s.flushes := rfl
@[simp] theorem updCluster_blocks (k : Nat) (f : Cluster → Cluster) : (updCluster s k f).blocks = s.blocks := rfl
@[simp] theorem updCluster_hostMem (k : Nat) (f : Cluster → Cluster) : (updCluster s k f).hostMem = s.hostMem := rfl
@[simp] theorem updCluster_linkReads (k : Nat) (f : Cluster → Cluster) : (updCluster s k f).linkReads = s.linkReads := rfl
@[simp] theorem updCluster_linkWrites (k : Nat) (f : Cluster → Cluster) : (updCluster s k f).linkWrites = s.linkWrites := rfl
@[simp] theorem updCluster_linkReplies (k : Nat) (f : Cluster → Cluster) : (updCluster s k f).linkReplies = s.linkReplies := rfl
@[simp] theorem updCluster_dropped (k : Nat) (f : Cluster → Cluster) : (updCluster s k f).dropped = s.dropped := rfl
@[simp] theorem updCluster_keySlots (k : Nat) (f : Cluster → Cluster) : (updCluster s k f).keySlots = s.keySlots := rfl
@[simp] theorem updCluster_rollback (k : Nat) (f : Cluster → Cluster) : (updCluster s k f).rollback = s.rollback := rfl
@[simp] theorem updCluster_running (k : Nat) (f : Cluster → Cluster) : (updCluster s k f).running = s.running := rfl
@[simp] theorem updCluster_bootConfig (k : Nat) (f : Cluster → Cluster) : (updCluster s k f).bootConfig = s.bootConfig := rfl
@[simp] theorem updCluster_ended (k : Nat) (f : Cluster → Cluster) : (updCluster s k f).ended = s.ended := rfl
@[simp] theorem updCluster_accesses (k : Nat) (f : Cluster → Cluster) : (updCluster s k f).accesses = s.accesses := rfl
@[simp] theorem updCluster_slotGen (k : Nat) (f : Cluster → Cluster) : (updCluster s k f).slotGen = s.slotGen := rfl
@[simp] theorem updCluster_epoch (k : Nat) (f : Cluster → Cluster) : (updCluster s k f).epoch = s.epoch := rfl
@[simp] theorem updCluster_stamp (k : Nat) (f : Cluster → Cluster) : (updCluster s k f).stamp = s.stamp := rfl
@[simp] theorem updCluster_writes (k : Nat) (f : Cluster → Cluster) : (updCluster s k f).writes = s.writes := rfl
@[simp] theorem updCluster_serial (k : Nat) (f : Cluster → Cluster) : (updCluster s k f).serial = s.serial := rfl
@[simp] theorem updCluster_freeCount (k : Nat) (f : Cluster → Cluster) : (updCluster s k f).freeCount = s.freeCount := rfl
@[simp] theorem updCluster_focus (k : Nat) (f : Cluster → Cluster) : (updCluster s k f).focus = s.focus := rfl
@[simp] theorem updCluster_agenda (k : Nat) (f : Cluster → Cluster) : (updCluster s k f).agenda = s.agenda := rfl

/-! ## `updGroup` -/

@[simp] theorem updGroup_time (k : Nat) (f : Group → Group) : (updGroup s k f).time = s.time := rfl
@[simp] theorem updGroup_cores (k : Nat) (f : Group → Group) : (updGroup s k f).cores = s.cores := rfl
@[simp] theorem updGroup_clusters (k : Nat) (f : Group → Group) : (updGroup s k f).clusters = s.clusters := rfl
@[simp] theorem updGroup_pairs (k : Nat) (f : Group → Group) : (updGroup s k f).pairs = s.pairs := rfl
@[simp] theorem updGroup_dies (k : Nat) (f : Group → Group) : (updGroup s k f).dies = s.dies := rfl
@[simp] theorem updGroup_vaults (k : Nat) (f : Group → Group) : (updGroup s k f).vaults = s.vaults := rfl
@[simp] theorem updGroup_groups (k : Nat) (f : Group → Group) : (updGroup s k f).groups = s.groups.map fun g => if g.serial = k then f g else g := rfl
@[simp] theorem updGroup_graphs (k : Nat) (f : Group → Group) : (updGroup s k f).graphs = s.graphs := rfl
@[simp] theorem updGroup_waiting (k : Nat) (f : Group → Group) : (updGroup s k f).waiting = s.waiting := rfl
@[simp] theorem updGroup_copies (k : Nat) (f : Group → Group) : (updGroup s k f).copies = s.copies := rfl
@[simp] theorem updGroup_reductions (k : Nat) (f : Group → Group) : (updGroup s k f).reductions = s.reductions := rfl
@[simp] theorem updGroup_moves (k : Nat) (f : Group → Group) : (updGroup s k f).moves = s.moves := rfl
@[simp] theorem updGroup_pools (k : Nat) (f : Group → Group) : (updGroup s k f).pools = s.pools := rfl
@[simp] theorem updGroup_bankRequests (k : Nat) (f : Group → Group) : (updGroup s k f).bankRequests = s.bankRequests := rfl
@[simp] theorem updGroup_fworks (k : Nat) (f : Group → Group) : (updGroup s k f).fworks = s.fworks := rfl
@[simp] theorem updGroup_pageMoves (k : Nat) (f : Group → Group) : (updGroup s k f).pageMoves = s.pageMoves := rfl
@[simp] theorem updGroup_poison (k : Nat) (f : Group → Group) : (updGroup s k f).poison = s.poison := rfl
@[simp] theorem updGroup_mismatch (k : Nat) (f : Group → Group) : (updGroup s k f).mismatch = s.mismatch := rfl
@[simp] theorem updGroup_hostHeld (k : Nat) (f : Group → Group) : (updGroup s k f).hostHeld = s.hostHeld := rfl
@[simp] theorem updGroup_late (k : Nat) (f : Group → Group) : (updGroup s k f).late = s.late := rfl
@[simp] theorem updGroup_reported (k : Nat) (f : Group → Group) : (updGroup s k f).reported = s.reported := rfl
@[simp] theorem updGroup_policy (k : Nat) (f : Group → Group) : (updGroup s k f).policy = s.policy := rfl
@[simp] theorem updGroup_policyGlobal (k : Nat) (f : Group → Group) : (updGroup s k f).policyGlobal = s.policyGlobal := rfl
@[simp] theorem updGroup_tensorBase (k : Nat) (f : Group → Group) : (updGroup s k f).tensorBase = s.tensorBase := rfl
@[simp] theorem updGroup_tensorCount (k : Nat) (f : Group → Group) : (updGroup s k f).tensorCount = s.tensorCount := rfl
@[simp] theorem updGroup_deepBytes (k : Nat) (f : Group → Group) : (updGroup s k f).deepBytes = s.deepBytes := rfl
@[simp] theorem updGroup_pageRoot (k : Nat) (f : Group → Group) : (updGroup s k f).pageRoot = s.pageRoot := rfl
@[simp] theorem updGroup_rangeList (k : Nat) (f : Group → Group) : (updGroup s k f).rangeList = s.rangeList := rfl
@[simp] theorem updGroup_notices (k : Nat) (f : Group → Group) : (updGroup s k f).notices = s.notices := rfl
@[simp] theorem updGroup_noticeRing (k : Nat) (f : Group → Group) : (updGroup s k f).noticeRing = s.noticeRing := rfl
@[simp] theorem updGroup_queues (k : Nat) (f : Group → Group) : (updGroup s k f).queues = s.queues := rfl
@[simp] theorem updGroup_commands (k : Nat) (f : Group → Group) : (updGroup s k f).commands = s.commands := rfl
@[simp] theorem updGroup_flushes (k : Nat) (f : Group → Group) : (updGroup s k f).flushes = s.flushes := rfl
@[simp] theorem updGroup_blocks (k : Nat) (f : Group → Group) : (updGroup s k f).blocks = s.blocks := rfl
@[simp] theorem updGroup_hostMem (k : Nat) (f : Group → Group) : (updGroup s k f).hostMem = s.hostMem := rfl
@[simp] theorem updGroup_linkReads (k : Nat) (f : Group → Group) : (updGroup s k f).linkReads = s.linkReads := rfl
@[simp] theorem updGroup_linkWrites (k : Nat) (f : Group → Group) : (updGroup s k f).linkWrites = s.linkWrites := rfl
@[simp] theorem updGroup_linkReplies (k : Nat) (f : Group → Group) : (updGroup s k f).linkReplies = s.linkReplies := rfl
@[simp] theorem updGroup_dropped (k : Nat) (f : Group → Group) : (updGroup s k f).dropped = s.dropped := rfl
@[simp] theorem updGroup_keySlots (k : Nat) (f : Group → Group) : (updGroup s k f).keySlots = s.keySlots := rfl
@[simp] theorem updGroup_rollback (k : Nat) (f : Group → Group) : (updGroup s k f).rollback = s.rollback := rfl
@[simp] theorem updGroup_running (k : Nat) (f : Group → Group) : (updGroup s k f).running = s.running := rfl
@[simp] theorem updGroup_bootConfig (k : Nat) (f : Group → Group) : (updGroup s k f).bootConfig = s.bootConfig := rfl
@[simp] theorem updGroup_ended (k : Nat) (f : Group → Group) : (updGroup s k f).ended = s.ended := rfl
@[simp] theorem updGroup_accesses (k : Nat) (f : Group → Group) : (updGroup s k f).accesses = s.accesses := rfl
@[simp] theorem updGroup_slotGen (k : Nat) (f : Group → Group) : (updGroup s k f).slotGen = s.slotGen := rfl
@[simp] theorem updGroup_epoch (k : Nat) (f : Group → Group) : (updGroup s k f).epoch = s.epoch := rfl
@[simp] theorem updGroup_stamp (k : Nat) (f : Group → Group) : (updGroup s k f).stamp = s.stamp := rfl
@[simp] theorem updGroup_writes (k : Nat) (f : Group → Group) : (updGroup s k f).writes = s.writes := rfl
@[simp] theorem updGroup_serial (k : Nat) (f : Group → Group) : (updGroup s k f).serial = s.serial := rfl
@[simp] theorem updGroup_freeCount (k : Nat) (f : Group → Group) : (updGroup s k f).freeCount = s.freeCount := rfl
@[simp] theorem updGroup_focus (k : Nat) (f : Group → Group) : (updGroup s k f).focus = s.focus := rfl
@[simp] theorem updGroup_agenda (k : Nat) (f : Group → Group) : (updGroup s k f).agenda = s.agenda := rfl

/-! ## `updThread` -/

@[simp] theorem updThread_time (k : ThreadRef) (f : Thread → Thread) : (updThread s k f).time = s.time := rfl
@[simp] theorem updThread_cores (k : ThreadRef) (f : Thread → Thread) : (updThread s k f).cores = s.cores := rfl
@[simp] theorem updThread_clusters (k : ThreadRef) (f : Thread → Thread) : (updThread s k f).clusters = s.clusters := rfl
@[simp] theorem updThread_pairs (k : ThreadRef) (f : Thread → Thread) : (updThread s k f).pairs = s.pairs := rfl
@[simp] theorem updThread_dies (k : ThreadRef) (f : Thread → Thread) : (updThread s k f).dies = s.dies := rfl
@[simp] theorem updThread_vaults (k : ThreadRef) (f : Thread → Thread) : (updThread s k f).vaults = s.vaults := rfl
@[simp] theorem updThread_groups (k : ThreadRef) (f : Thread → Thread) : (updThread s k f).groups = (updGroup s k.group fun g => g.updThread k.row k.lane f).groups := rfl
@[simp] theorem updThread_graphs (k : ThreadRef) (f : Thread → Thread) : (updThread s k f).graphs = s.graphs := rfl
@[simp] theorem updThread_waiting (k : ThreadRef) (f : Thread → Thread) : (updThread s k f).waiting = s.waiting := rfl
@[simp] theorem updThread_copies (k : ThreadRef) (f : Thread → Thread) : (updThread s k f).copies = s.copies := rfl
@[simp] theorem updThread_reductions (k : ThreadRef) (f : Thread → Thread) : (updThread s k f).reductions = s.reductions := rfl
@[simp] theorem updThread_moves (k : ThreadRef) (f : Thread → Thread) : (updThread s k f).moves = s.moves := rfl
@[simp] theorem updThread_pools (k : ThreadRef) (f : Thread → Thread) : (updThread s k f).pools = s.pools := rfl
@[simp] theorem updThread_bankRequests (k : ThreadRef) (f : Thread → Thread) : (updThread s k f).bankRequests = s.bankRequests := rfl
@[simp] theorem updThread_fworks (k : ThreadRef) (f : Thread → Thread) : (updThread s k f).fworks = s.fworks := rfl
@[simp] theorem updThread_pageMoves (k : ThreadRef) (f : Thread → Thread) : (updThread s k f).pageMoves = s.pageMoves := rfl
@[simp] theorem updThread_poison (k : ThreadRef) (f : Thread → Thread) : (updThread s k f).poison = s.poison := rfl
@[simp] theorem updThread_mismatch (k : ThreadRef) (f : Thread → Thread) : (updThread s k f).mismatch = s.mismatch := rfl
@[simp] theorem updThread_hostHeld (k : ThreadRef) (f : Thread → Thread) : (updThread s k f).hostHeld = s.hostHeld := rfl
@[simp] theorem updThread_late (k : ThreadRef) (f : Thread → Thread) : (updThread s k f).late = s.late := rfl
@[simp] theorem updThread_reported (k : ThreadRef) (f : Thread → Thread) : (updThread s k f).reported = s.reported := rfl
@[simp] theorem updThread_policy (k : ThreadRef) (f : Thread → Thread) : (updThread s k f).policy = s.policy := rfl
@[simp] theorem updThread_policyGlobal (k : ThreadRef) (f : Thread → Thread) : (updThread s k f).policyGlobal = s.policyGlobal := rfl
@[simp] theorem updThread_tensorBase (k : ThreadRef) (f : Thread → Thread) : (updThread s k f).tensorBase = s.tensorBase := rfl
@[simp] theorem updThread_tensorCount (k : ThreadRef) (f : Thread → Thread) : (updThread s k f).tensorCount = s.tensorCount := rfl
@[simp] theorem updThread_deepBytes (k : ThreadRef) (f : Thread → Thread) : (updThread s k f).deepBytes = s.deepBytes := rfl
@[simp] theorem updThread_pageRoot (k : ThreadRef) (f : Thread → Thread) : (updThread s k f).pageRoot = s.pageRoot := rfl
@[simp] theorem updThread_rangeList (k : ThreadRef) (f : Thread → Thread) : (updThread s k f).rangeList = s.rangeList := rfl
@[simp] theorem updThread_notices (k : ThreadRef) (f : Thread → Thread) : (updThread s k f).notices = s.notices := rfl
@[simp] theorem updThread_noticeRing (k : ThreadRef) (f : Thread → Thread) : (updThread s k f).noticeRing = s.noticeRing := rfl
@[simp] theorem updThread_queues (k : ThreadRef) (f : Thread → Thread) : (updThread s k f).queues = s.queues := rfl
@[simp] theorem updThread_commands (k : ThreadRef) (f : Thread → Thread) : (updThread s k f).commands = s.commands := rfl
@[simp] theorem updThread_flushes (k : ThreadRef) (f : Thread → Thread) : (updThread s k f).flushes = s.flushes := rfl
@[simp] theorem updThread_blocks (k : ThreadRef) (f : Thread → Thread) : (updThread s k f).blocks = s.blocks := rfl
@[simp] theorem updThread_hostMem (k : ThreadRef) (f : Thread → Thread) : (updThread s k f).hostMem = s.hostMem := rfl
@[simp] theorem updThread_linkReads (k : ThreadRef) (f : Thread → Thread) : (updThread s k f).linkReads = s.linkReads := rfl
@[simp] theorem updThread_linkWrites (k : ThreadRef) (f : Thread → Thread) : (updThread s k f).linkWrites = s.linkWrites := rfl
@[simp] theorem updThread_linkReplies (k : ThreadRef) (f : Thread → Thread) : (updThread s k f).linkReplies = s.linkReplies := rfl
@[simp] theorem updThread_dropped (k : ThreadRef) (f : Thread → Thread) : (updThread s k f).dropped = s.dropped := rfl
@[simp] theorem updThread_keySlots (k : ThreadRef) (f : Thread → Thread) : (updThread s k f).keySlots = s.keySlots := rfl
@[simp] theorem updThread_rollback (k : ThreadRef) (f : Thread → Thread) : (updThread s k f).rollback = s.rollback := rfl
@[simp] theorem updThread_running (k : ThreadRef) (f : Thread → Thread) : (updThread s k f).running = s.running := rfl
@[simp] theorem updThread_bootConfig (k : ThreadRef) (f : Thread → Thread) : (updThread s k f).bootConfig = s.bootConfig := rfl
@[simp] theorem updThread_ended (k : ThreadRef) (f : Thread → Thread) : (updThread s k f).ended = s.ended := rfl
@[simp] theorem updThread_accesses (k : ThreadRef) (f : Thread → Thread) : (updThread s k f).accesses = s.accesses := rfl
@[simp] theorem updThread_slotGen (k : ThreadRef) (f : Thread → Thread) : (updThread s k f).slotGen = s.slotGen := rfl
@[simp] theorem updThread_epoch (k : ThreadRef) (f : Thread → Thread) : (updThread s k f).epoch = s.epoch := rfl
@[simp] theorem updThread_stamp (k : ThreadRef) (f : Thread → Thread) : (updThread s k f).stamp = s.stamp := rfl
@[simp] theorem updThread_writes (k : ThreadRef) (f : Thread → Thread) : (updThread s k f).writes = s.writes := rfl
@[simp] theorem updThread_serial (k : ThreadRef) (f : Thread → Thread) : (updThread s k f).serial = s.serial := rfl
@[simp] theorem updThread_freeCount (k : ThreadRef) (f : Thread → Thread) : (updThread s k f).freeCount = s.freeCount := rfl
@[simp] theorem updThread_focus (k : ThreadRef) (f : Thread → Thread) : (updThread s k f).focus = s.focus := rfl
@[simp] theorem updThread_agenda (k : ThreadRef) (f : Thread → Thread) : (updThread s k f).agenda = s.agenda := rfl

/-! ## `updGraph` -/

@[simp] theorem updGraph_time (k : Nat) (f : Graph → Graph) : (updGraph s k f).time = s.time := rfl
@[simp] theorem updGraph_cores (k : Nat) (f : Graph → Graph) : (updGraph s k f).cores = s.cores := rfl
@[simp] theorem updGraph_clusters (k : Nat) (f : Graph → Graph) : (updGraph s k f).clusters = s.clusters := rfl
@[simp] theorem updGraph_pairs (k : Nat) (f : Graph → Graph) : (updGraph s k f).pairs = s.pairs := rfl
@[simp] theorem updGraph_dies (k : Nat) (f : Graph → Graph) : (updGraph s k f).dies = s.dies := rfl
@[simp] theorem updGraph_vaults (k : Nat) (f : Graph → Graph) : (updGraph s k f).vaults = s.vaults := rfl
@[simp] theorem updGraph_groups (k : Nat) (f : Graph → Graph) : (updGraph s k f).groups = s.groups := rfl
@[simp] theorem updGraph_graphs (k : Nat) (f : Graph → Graph) : (updGraph s k f).graphs = s.graphs.map fun g => if g.ctx = k then f g else g := rfl
@[simp] theorem updGraph_waiting (k : Nat) (f : Graph → Graph) : (updGraph s k f).waiting = s.waiting := rfl
@[simp] theorem updGraph_copies (k : Nat) (f : Graph → Graph) : (updGraph s k f).copies = s.copies := rfl
@[simp] theorem updGraph_reductions (k : Nat) (f : Graph → Graph) : (updGraph s k f).reductions = s.reductions := rfl
@[simp] theorem updGraph_moves (k : Nat) (f : Graph → Graph) : (updGraph s k f).moves = s.moves := rfl
@[simp] theorem updGraph_pools (k : Nat) (f : Graph → Graph) : (updGraph s k f).pools = s.pools := rfl
@[simp] theorem updGraph_bankRequests (k : Nat) (f : Graph → Graph) : (updGraph s k f).bankRequests = s.bankRequests := rfl
@[simp] theorem updGraph_fworks (k : Nat) (f : Graph → Graph) : (updGraph s k f).fworks = s.fworks := rfl
@[simp] theorem updGraph_pageMoves (k : Nat) (f : Graph → Graph) : (updGraph s k f).pageMoves = s.pageMoves := rfl
@[simp] theorem updGraph_poison (k : Nat) (f : Graph → Graph) : (updGraph s k f).poison = s.poison := rfl
@[simp] theorem updGraph_mismatch (k : Nat) (f : Graph → Graph) : (updGraph s k f).mismatch = s.mismatch := rfl
@[simp] theorem updGraph_hostHeld (k : Nat) (f : Graph → Graph) : (updGraph s k f).hostHeld = s.hostHeld := rfl
@[simp] theorem updGraph_late (k : Nat) (f : Graph → Graph) : (updGraph s k f).late = s.late := rfl
@[simp] theorem updGraph_reported (k : Nat) (f : Graph → Graph) : (updGraph s k f).reported = s.reported := rfl
@[simp] theorem updGraph_policy (k : Nat) (f : Graph → Graph) : (updGraph s k f).policy = s.policy := rfl
@[simp] theorem updGraph_policyGlobal (k : Nat) (f : Graph → Graph) : (updGraph s k f).policyGlobal = s.policyGlobal := rfl
@[simp] theorem updGraph_tensorBase (k : Nat) (f : Graph → Graph) : (updGraph s k f).tensorBase = s.tensorBase := rfl
@[simp] theorem updGraph_tensorCount (k : Nat) (f : Graph → Graph) : (updGraph s k f).tensorCount = s.tensorCount := rfl
@[simp] theorem updGraph_deepBytes (k : Nat) (f : Graph → Graph) : (updGraph s k f).deepBytes = s.deepBytes := rfl
@[simp] theorem updGraph_pageRoot (k : Nat) (f : Graph → Graph) : (updGraph s k f).pageRoot = s.pageRoot := rfl
@[simp] theorem updGraph_rangeList (k : Nat) (f : Graph → Graph) : (updGraph s k f).rangeList = s.rangeList := rfl
@[simp] theorem updGraph_notices (k : Nat) (f : Graph → Graph) : (updGraph s k f).notices = s.notices := rfl
@[simp] theorem updGraph_noticeRing (k : Nat) (f : Graph → Graph) : (updGraph s k f).noticeRing = s.noticeRing := rfl
@[simp] theorem updGraph_queues (k : Nat) (f : Graph → Graph) : (updGraph s k f).queues = s.queues := rfl
@[simp] theorem updGraph_commands (k : Nat) (f : Graph → Graph) : (updGraph s k f).commands = s.commands := rfl
@[simp] theorem updGraph_flushes (k : Nat) (f : Graph → Graph) : (updGraph s k f).flushes = s.flushes := rfl
@[simp] theorem updGraph_blocks (k : Nat) (f : Graph → Graph) : (updGraph s k f).blocks = s.blocks := rfl
@[simp] theorem updGraph_hostMem (k : Nat) (f : Graph → Graph) : (updGraph s k f).hostMem = s.hostMem := rfl
@[simp] theorem updGraph_linkReads (k : Nat) (f : Graph → Graph) : (updGraph s k f).linkReads = s.linkReads := rfl
@[simp] theorem updGraph_linkWrites (k : Nat) (f : Graph → Graph) : (updGraph s k f).linkWrites = s.linkWrites := rfl
@[simp] theorem updGraph_linkReplies (k : Nat) (f : Graph → Graph) : (updGraph s k f).linkReplies = s.linkReplies := rfl
@[simp] theorem updGraph_dropped (k : Nat) (f : Graph → Graph) : (updGraph s k f).dropped = s.dropped := rfl
@[simp] theorem updGraph_keySlots (k : Nat) (f : Graph → Graph) : (updGraph s k f).keySlots = s.keySlots := rfl
@[simp] theorem updGraph_rollback (k : Nat) (f : Graph → Graph) : (updGraph s k f).rollback = s.rollback := rfl
@[simp] theorem updGraph_running (k : Nat) (f : Graph → Graph) : (updGraph s k f).running = s.running := rfl
@[simp] theorem updGraph_bootConfig (k : Nat) (f : Graph → Graph) : (updGraph s k f).bootConfig = s.bootConfig := rfl
@[simp] theorem updGraph_ended (k : Nat) (f : Graph → Graph) : (updGraph s k f).ended = s.ended := rfl
@[simp] theorem updGraph_accesses (k : Nat) (f : Graph → Graph) : (updGraph s k f).accesses = s.accesses := rfl
@[simp] theorem updGraph_slotGen (k : Nat) (f : Graph → Graph) : (updGraph s k f).slotGen = s.slotGen := rfl
@[simp] theorem updGraph_epoch (k : Nat) (f : Graph → Graph) : (updGraph s k f).epoch = s.epoch := rfl
@[simp] theorem updGraph_stamp (k : Nat) (f : Graph → Graph) : (updGraph s k f).stamp = s.stamp := rfl
@[simp] theorem updGraph_writes (k : Nat) (f : Graph → Graph) : (updGraph s k f).writes = s.writes := rfl
@[simp] theorem updGraph_serial (k : Nat) (f : Graph → Graph) : (updGraph s k f).serial = s.serial := rfl
@[simp] theorem updGraph_freeCount (k : Nat) (f : Graph → Graph) : (updGraph s k f).freeCount = s.freeCount := rfl
@[simp] theorem updGraph_focus (k : Nat) (f : Graph → Graph) : (updGraph s k f).focus = s.focus := rfl
@[simp] theorem updGraph_agenda (k : Nat) (f : Graph → Graph) : (updGraph s k f).agenda = s.agenda := rfl

end Sys2Proof.Machine
end

