-- ==== Sys2Proof/Laws/Threads.lean ====
section
/-!
SUPPORT. Finding a thread after an operation on the state: what changes one thread leaves every other as it was, and
what changes cores, notices and tables leaves all of them.
-/

namespace Sys2Proof.Machine

/-- A thread by its reference. -/
def threadOf (s : State) (t : ThreadRef) : Option Thread := (findThread s t).map Prod.snd

/-- A change of a thread that leaves its place in its group. -/
def KeepsPlace (f : Thread → Thread) : Prop := ∀ th, (f th).row = th.row ∧ (f th).lane = th.lane

theorem findGroup_congr {s t : State} (h : t.groups = s.groups) (n : Nat) : findGroup t n = findGroup s n := by
  simp [findGroup, h]

theorem findThread_congr {s t : State} (h : t.groups = s.groups) (u : ThreadRef) : findThread t u = findThread s u := by
  simp [findThread, findGroup_congr h]

theorem threadOf_congr {s t : State} (h : t.groups = s.groups) (u : ThreadRef) : threadOf t u = threadOf s u := by
  simp [threadOf, findThread_congr h]

theorem find?_map_serial (l : List Group) (n m : Nat) (f : Group → Group) (hf : ∀ g, (f g).serial = g.serial) :
    (l.map fun g => if g.serial = n then f g else g).find? (fun g => g.serial = m) =
      (l.find? fun g => g.serial = m).map fun g => if g.serial = n then f g else g := by
  rw [List.find?_map]
  congr 2
  funext g
  have e : (if g.serial = n then f g else g).serial = g.serial := by split <;> simp [hf]
  simp [e]

theorem findGroup_updGroup (s : State) (n m : Nat) (f : Group → Group) (hf : ∀ g, (f g).serial = g.serial) :
    findGroup (updGroup s n f) m = (findGroup s m).map fun g => if g.serial = n then f g else g :=
  find?_map_serial s.groups n m f hf

theorem findGroup_serial {s : State} {n : Nat} {g : Group} (h : findGroup s n = some g) : g.serial = n := by
  simpa using List.find?_some h

theorem thread_place {g : Group} {r l : Nat} {th : Thread} (h : g.thread r l = some th) : th.row = r ∧ th.lane = l := by
  simpa [Group.thread] using List.find?_some h

theorem thread_updThread (g : Group) (r l r' l' : Nat) (f : Thread → Thread) (hf : KeepsPlace f) :
    (g.updThread r l f).thread r' l' =
      (g.thread r' l').map fun th => if th.row = r ∧ th.lane = l then f th else th := by
  simp only [Group.thread, Group.updThread, List.find?_map, Bool.and_eq_true, decide_eq_true_eq]
  congr 2
  funext t
  have e : (if t.row = r ∧ t.lane = l then f t else t).row = t.row ∧
      (if t.row = r ∧ t.lane = l then f t else t).lane = t.lane := by
    split
    · exact hf t
    · exact ⟨rfl, rfl⟩
  simp [e.1, e.2]

/-- A thread after a change of thread `t`. -/
theorem threadOf_updThread (s : State) (t u : ThreadRef) (f : Thread → Thread) (hf : KeepsPlace f) :
    threadOf (updThread s t f) u = if u = t then (threadOf s u).map f else threadOf s u := by
  have hg := findGroup_updGroup s t.group u.group (fun g => g.updThread t.row t.lane f) fun _ => rfl
  have hfind : findGroup (updThread s t f) u.group = _ := hg
  simp only [threadOf, findThread, hfind]
  cases h : findGroup s u.group with
  | none => simp
  | some g =>
    have hs := findGroup_serial h
    simp only [Option.map_some]
    by_cases e : g.serial = t.group
    · simp only [e, if_true]
      rw [thread_updThread _ _ _ _ _ _ hf]
      cases ht : g.thread u.row u.lane with
      | none => simp
      | some th =>
        obtain ⟨hr, hl⟩ := thread_place ht
        have : u = t ↔ (th.row = t.row ∧ th.lane = t.lane) := by
          constructor
          · rintro rfl
            exact ⟨hr, hl⟩
          · rintro ⟨a, b⟩
            cases u
            cases t
            simp_all
        by_cases hut : u = t
        · simp [hut, this.1 hut]
        · have hn : ¬(th.row = t.row ∧ th.lane = t.lane) := fun q => hut (this.2 q)
          simp [hut, hn]
    · have hut : u ≠ t := by
        rintro rfl
        exact e hs
      simp [e, hut]

theorem threadOf_updThread_other (s : State) {t u : ThreadRef} (f : Thread → Thread) (hf : KeepsPlace f) (h : u ≠ t) :
    threadOf (updThread s t f) u = threadOf s u := by
  rw [threadOf_updThread s t u f hf, if_neg h]

theorem threadOf_updThread_same (s : State) (t : ThreadRef) (f : Thread → Thread) (hf : KeepsPlace f) :
    threadOf (updThread s t f) t = (threadOf s t).map f := by
  rw [threadOf_updThread s t t f hf, if_pos rfl]

/-! ## Operations that touch no group -/

@[simp] theorem bump_groups (s : State) (k e : Nat) (st : Option Nat) (n : Nat) : (bump s k e st n).groups = s.groups := rfl

@[simp] theorem unspill_groups (s : State) (k : Nat) : (unspill s k).groups = s.groups := by
  unfold unspill
  dsimp only
  split
  · split <;> rfl
  · rfl

@[simp] theorem newEntry_groups (s : State) (k : Nat) (t : ThreadRef) (key : EntryKey) (pc hdr : Word) :
    (newEntry s k t key pc hdr).groups = s.groups := by
  unfold newEntry
  dsimp only
  split
  · rfl
  · split <;> rfl

@[simp] theorem joinTable_groups (s : State) (t : ThreadRef) : (joinTable s t).groups = s.groups := by
  unfold joinTable
  split
  · rfl
  · split
    · rfl
    · dsimp only
      split
      · rfl
      · split <;> simp

@[simp] theorem leaveCore_groups (s : State) (t : ThreadRef) : (leaveCore s t).groups = s.groups := by
  unfold leaveCore
  split
  · split
    · simp
    · rfl
  · rfl

@[simp] theorem notify_groups (s : State) (p : Payload) (key : Option (FaultKey × BitVec 8)) :
    (notify s p key).1.groups = s.groups := rfl

@[simp] theorem faultNotice_groups (s : State) (p : Payload) (key : FaultKey × BitVec 8) :
    (faultNotice s p key).1.groups = s.groups := by
  unfold faultNotice
  split <;> rfl

@[simp] theorem leaveBurst_groups (s : State) (k : Nat) (t : ThreadRef) : (leaveBurst s k t).groups = s.groups := rfl
@[simp] theorem leaveGather_groups (s : State) (k : Nat) (t : ThreadRef) (x : Word) (m : BitVec 128) :
    (leaveGather s k t x m).groups = s.groups := rfl

@[simp] theorem countIssue_groups (s : State) (k : Nat) (i : Instr) (xs : List Site) :
    (countIssue s k i xs).groups = s.groups := by
  unfold countIssue
  dsimp only
  split <;> rfl

@[simp] theorem tlbFill_groups (s : State) (k va : Nat) : (tlbFill s k va).groups = s.groups := by
  unfold tlbFill
  dsimp only
  split
  · rfl
  · split
    · rfl
    · split <;> rfl

@[simp] theorem performWith_groups (s : State) (d : Nat) (p : Path) (k : Option Nat) (cells : List Host.Cell) (b : Bool)
    (l : List Nat) (f : Flaws) : (performWith s d p k cells b l f).groups = s.groups := rfl

@[simp] theorem writeBack_groups (s : State) (k : Nat) (p : Nat → Bool) : (writeBack s k p).groups = s.groups := by
  unfold writeBack
  dsimp only
  split <;> rfl

@[simp] theorem evictLine_groups (s : State) (k line : Nat) : (evictLine s k line).groups = s.groups := by
  unfold evictLine
  simp

@[simp] theorem makeRoom_groups (s : State) (k line : Nat) (keep : Bool) : (makeRoom s k line keep).groups = s.groups := by
  unfold makeRoom
  split
  · rfl
  · split <;> simp

@[simp] theorem fillL1_groups (s : State) (k a : Nat) (keep low : Bool) : (fillL1 s k a keep low).groups = s.groups := by
  unfold fillL1
  dsimp only
  split <;> split <;> simp
@[simp] theorem fillS_groups (s : State) (k a : Nat) : (fillS s k a).groups = s.groups := rfl

/-! ## Operations on one thread leave every other as it was -/

/-- The operation leaves every thread but `t` as it was. -/
def OnlyThread (t : ThreadRef) (s s' : State) : Prop := ∀ u, u ≠ t → threadOf s' u = threadOf s u

theorem OnlyThread.refl (t : ThreadRef) (s : State) : OnlyThread t s s := fun _ _ => rfl

theorem OnlyThread.trans {t : ThreadRef} {a b c : State} (h : OnlyThread t a b) (g : OnlyThread t b c) :
    OnlyThread t a c := fun u hu => (g u hu).trans (h u hu)

theorem OnlyThread.of_groups {t : ThreadRef} {s s' : State} (h : s'.groups = s.groups) : OnlyThread t s s' :=
  fun u _ => threadOf_congr h u

theorem OnlyThread.upd (s : State) (t : ThreadRef) (f : Thread → Thread) (hf : KeepsPlace f) :
    OnlyThread t s (updThread s t f) := fun _ hu => threadOf_updThread_other s f hf hu

theorem OnlyThread.after_upd {s s' : State} {t : ThreadRef} {f : Thread → Thread} (h : OnlyThread t (updThread s t f) s')
    (hf : KeepsPlace f) : OnlyThread t s s' := (OnlyThread.upd s t f hf).trans h

theorem OnlyThread.after_groups {a b c : State} {t : ThreadRef} (h : OnlyThread t b c) (e : b.groups = a.groups) :
    OnlyThread t a c := (OnlyThread.of_groups e).trans h

theorem keepsPlace_discard (th : Thread) (r : Record) : (th.discard r).row = th.row ∧ (th.discard r).lane = th.lane :=
  ⟨rfl, rfl⟩

theorem onlyThread_makeReady (s : State) (t : ThreadRef) : OnlyThread t s (makeReady s t) := by
  unfold makeReady
  split
  · exact .refl t s
  · exact .after_upd (.of_groups (joinTable_groups _ _)) fun _ => ⟨rfl, rfl⟩

theorem onlyThread_deliver (s : State) (t : ThreadRef) (v : Word) (r : Record) : OnlyThread t s (deliver s t v r) :=
  .after_upd (onlyThread_makeReady _ _) fun _ => ⟨rfl, rfl⟩

theorem onlyThread_parkHost (s : State) (t : ThreadRef) (r : Record) : OnlyThread t s (parkHost s t r) := by
  unfold parkHost
  split
  · exact .refl t s
  · exact .after_groups (.after_upd (.of_groups (joinTable_groups _ _)) fun _ => ⟨rfl, rfl⟩) (faultNotice_groups s _ _)

theorem onlyThread_routeVector (s : State) (t : ThreadRef) (r : Record) : OnlyThread t s (routeVector s t r) := by
  unfold routeVector
  split
  · exact .refl t s
  · split
    · exact onlyThread_parkHost s t r
    · split
      · exact onlyThread_deliver s t _ r
      · exact onlyThread_parkHost s t r

theorem onlyThread_routeProcessor (s : State) (t : ThreadRef) (r : Record) : OnlyThread t s (routeProcessor s t r) := by
  unfold routeProcessor
  split
  · exact .refl t s
  · exact .after_groups (.after_upd (.of_groups (joinTable_groups _ _)) fun _ => ⟨rfl, rfl⟩) (faultNotice_groups s _ _)

theorem onlyThread_routeSupervisor (s : State) (t : ThreadRef) (r : Record) : OnlyThread t s (routeSupervisor s t r) :=
  .after_upd (onlyThread_makeReady _ _) fun _ => ⟨rfl, rfl⟩

/-- Taking a fault changes no other thread (R41). -/
theorem onlyThread_takeFault (s : State) (t : ThreadRef) (r : Record) (split : Bool) :
    OnlyThread t s (takeFault s t r split) := by
  unfold takeFault
  split
  · exact .refl t s
  · rename_i g th _
    refine OnlyThread.after_groups ?_ (bump_groups s (g.core.getD 0) 10 (some g.stage) 1)
    dsimp only
    split
    · exact onlyThread_parkHost _ t r
    · split
      · exact onlyThread_routeSupervisor _ t r
      · split
        · exact onlyThread_routeProcessor _ t r
        all_goals exact onlyThread_routeVector _ t r

theorem onlyThread_parkGather (s : State) (k : Nat) (t : ThreadRef) (tr : Trouble) (x : Word) (m : BitVec 128) :
    OnlyThread t s (parkGather s k t tr x m) := by
  unfold parkGather
  split
  · exact .refl t s
  · exact (OnlyThread.of_groups (leaveGather_groups s k t x _)).trans (onlyThread_takeFault _ t _ _)

/-- A thread's own fault changes no other thread (R41). -/
theorem onlyThread_faultOwn (s : State) (k : Nat) (t : ThreadRef) (tr : Trouble) : OnlyThread t s (faultOwn s k t tr) := by
  unfold faultOwn
  split
  · exact .refl t s
  · split
    · exact .refl t s
    · split
      · exact onlyThread_parkGather _ _ _ _ _ _
      · exact (OnlyThread.of_groups (leaveBurst_groups s k t)).trans (onlyThread_takeFault _ t _ _)

/-- A fault outside a gather segment changes no other thread (R41); in one it parks the closure (R144). -/
theorem onlyThread_faultThread {s : State} {t : ThreadRef} (k : Nat) (tr : Trouble)
    (h : ∀ th, threadOf s t = some th → th.parksMates = false) : OnlyThread t s (faultThread s k t tr) := by
  unfold faultThread
  split
  · exact .refl t s
  · rename_i g th hf
    dsimp only
    rw [if_neg (by simp [h th (by simp [threadOf, hf])])]
    exact onlyThread_faultOwn s k t tr

theorem onlyThread_addResult (s : State) (t : ThreadRef) (r : Result) : OnlyThread t s (addResult s t r) :=
  OnlyThread.upd s t _ fun _ => ⟨rfl, rfl⟩

theorem onlyThread_addDisabled (s : State) (i : Instr) (x : Site) : OnlyThread x.t s (addDisabled s i x) := by
  unfold addDisabled
  split
  · split
    · exact onlyThread_addResult s x.t _
    · exact .refl _ s
  · exact .refl _ s

theorem onlyThread_faultWord (s : State) (i : Instr) (x : Site) (tr : Trouble) : OnlyThread x.t s (faultWord s i x tr) := by
  unfold faultWord
  dsimp only
  split
  · exact (onlyThread_faultOwn s _ x.t tr).trans (onlyThread_addDisabled _ i x)
  · exact onlyThread_faultOwn s _ x.t tr

theorem onlyThread_beginWord (s : State) (i : Instr) (x : Site) (on : Bool) : OnlyThread x.t s (beginWord s i x on) :=
  OnlyThread.upd s x.t _ fun _ => ⟨rfl, rfl⟩

/-- An instruction's rule that changes no thread but the one that executes it. -/
def Body.OwnThread (body : Body) : Prop := ∀ s x s', body s x = .ok s' → OnlyThread x.t s s'

/-- A thread at the beginning of a word: nothing but the suspect mark, the time latch and the tokens read has changed. -/
def Begun (a b : Thread) : Prop :=
  ∃ saw sus hi, b = { a with saw := saw, seg := { a.seg with suspect := sus, timeHigh := hi } }

theorem begun_beginWord {s : State} {i : Instr} {x : Site} {on : Bool} {th : Thread} (h : threadOf s x.t = some th) :
    ∃ th', threadOf (beginWord s i x on) x.t = some th' ∧ Begun th th' := by
  have e : threadOf (beginWord s i x on) x.t = _ := threadOf_updThread_same s x.t _ fun _ => ⟨rfl, rfl⟩
  rw [h] at e
  exact ⟨_, e, _, _, _, rfl⟩

/-- The thread cannot fault at the word: its checks pass or its guard disables it, and the instruction's rule passes. -/
def Sound (i : Instr) (body : Body) (x : Site) : Prop :=
  (∀ tr, verdict i x ≠ .fault tr) ∧ (verdict i x = .run → ∀ s1 th1, threadOf s1 x.t = some th1 → Begun x.th th1 →
    ∃ s2, body s1 x = .ok s2)

/-- A thread's own execution of a word changes no other thread. -/
theorem onlyThread_issueThread (i : Instr) {body : Body} (hb : body.OwnThread) (s : State) (x : Site) :
    OnlyThread x.t s (issueThread i body s x) := by
  unfold issueThread
  split
  · exact .refl _ s
  · exact (onlyThread_beginWord s i x false).trans (onlyThread_addDisabled _ i x)
  · exact onlyThread_faultWord _ _ _ _
  · dsimp only
    split
    · rename_i h
      exact (onlyThread_beginWord s i x true).trans (hb _ x _ h)
    · exact (onlyThread_beginWord s i x true).trans (onlyThread_faultWord _ _ _ _)

/-- Where no thread of a gather segment can fault, no closure is parked. -/
theorem closureFaults_nil (i : Instr) {body : Body} (hb : body.OwnThread) :
    ∀ (xs : List Site) (s : State), (xs.map Site.t).Nodup → (∀ x ∈ xs, threadOf s x.t = some x.th) →
      (∀ x ∈ xs, x.th.seg.gather = true → Sound i body x) → closureFaults i body s xs = []
  | [], _, _, _, _ => rfl
  | x :: xs, s, hn, ht, hg => by
    obtain ⟨hx, hn⟩ := List.nodup_cons.1 (by simpa using hn : (x.t :: xs.map Site.t).Nodup)
    have rest := closureFaults_nil i hb xs (issueThread i body s x) hn
      (fun y hy => (onlyThread_issueThread i hb s x y.t fun e => hx (e ▸ List.mem_map.2 ⟨y, hy, rfl⟩)).trans
        (ht y (List.mem_cons_of_mem _ hy)))
      fun y hy => hg y (List.mem_cons_of_mem _ hy)
    rw [closureFaults, rest, List.append_nil]
    split
    · rename_i hp
      have snd := hg x List.mem_cons_self (by simp [Thread.parksMates] at hp; exact hp.1)
      have none' : faultAt i body s x = none := by
        unfold faultAt
        split
        · rename_i tr hv; exact absurd hv (snd.1 tr)
        · rename_i hv
          obtain ⟨th1, h1, b1⟩ := begun_beginWord (i := i) (on := true) (ht x List.mem_cons_self)
          obtain ⟨s2, h2⟩ := snd.2 hv _ _ h1 b1
          simp [h2]
        · rfl
        · rfl
      simp [none']
    · rfl

/-- Where no thread of a gather segment can fault, the issue group's execution of a word is each thread's own. -/
theorem issueAll_alone (i : Instr) {body : Body} (hb : body.OwnThread) {s : State} {xs : List Site}
    (hn : (xs.map Site.t).Nodup) (ht : ∀ x ∈ xs, threadOf s x.t = some x.th)
    (hg : ∀ x ∈ xs, x.th.seg.gather = true → Sound i body x) :
    issueAll i body s xs = xs.foldl (issueThread i body) s := by
  simp [issueAll, closureFaults_nil i hb xs s hn ht hg]

theorem pureBody_ownThread (f : Site → List RegWrite × Wide) : (pureBody f).OwnThread := by
  intro s x s' h
  cases h
  exact onlyThread_addResult s x.t _

end Sys2Proof.Machine
end

