-- ==== Sys2Proof/Laws/Issue.lean ====
section
/-!
SUPPORT. Issuing a word: what the issue group's threads are after it, for any instruction's rule that changes no other
thread, and for instructions that only compute a result.
-/

namespace Sys2Proof.Machine

/-- The thread's work is the same: only its status, and the ending of a segment that had none, may differ. -/
def SameWork (a b : Thread) : Prop :=
  ∃ st e, b = { a with status := st, seg := { a.seg with ending := e } } ∧ (a.seg.ending.isSome → e = a.seg.ending)

theorem SameWork.refl (a : Thread) : SameWork a a := ⟨a.status, a.seg.ending, rfl, fun _ => rfl⟩

theorem SameWork.trans {a b c : Thread} (h : SameWork a b) (g : SameWork b c) : SameWork a c := by
  obtain ⟨st, e, rfl, he⟩ := h
  obtain ⟨st', e', rfl, he'⟩ := g
  refine ⟨st', e', rfl, fun ha => ?_⟩
  have := he ha
  subst this
  exact he' ha

theorem SameWork.results {a b : Thread} (h : SameWork a b) : b.seg.results = a.seg.results := by
  obtain ⟨_, _, rfl, _⟩ := h; rfl

theorem SameWork.effect {a b : Thread} (h : SameWork a b) : b.seg.effect = a.seg.effect := by
  obtain ⟨_, _, rfl, _⟩ := h; rfl

theorem SameWork.ending {a b : Thread} {e : Ending} (h : SameWork a b) (ha : a.seg.ending = some e) :
    b.seg.ending = some e := by
  obtain ⟨_, _, rfl, he⟩ := h
  exact (he (by simp [ha])).trans ha

/-- Every thread of `s` is in `t` with the same work. -/
def KeepsWork (s t : State) : Prop := ∀ u th, threadOf s u = some th → ∃ th', threadOf t u = some th' ∧ SameWork th th'

theorem KeepsWork.refl (s : State) : KeepsWork s s := fun _ th h => ⟨th, h, .refl th⟩

theorem KeepsWork.trans {a b c : State} (h : KeepsWork a b) (g : KeepsWork b c) : KeepsWork a c := by
  intro u th hu
  obtain ⟨th', h', e⟩ := h u th hu
  obtain ⟨th'', h'', e'⟩ := g u th' h'
  exact ⟨th'', h'', e.trans e'⟩

theorem KeepsWork.of_groups {s t : State} (h : t.groups = s.groups) : KeepsWork s t :=
  fun u th hu => ⟨th, by rw [threadOf_congr h, hu], .refl th⟩

theorem keepsWork_endThread (k : Nat) (b : Burst) (i : Instr) (s : State) (t : ThreadRef) :
    KeepsWork s (endThread k b i s t) := by
  unfold endThread
  split
  · split
    · split
      · intro u th hu
        rw [threadOf_congr (joinTable_groups _ _), threadOf_updThread (hf := by exact fun _ => ⟨rfl, rfl⟩)]
        split
        · refine ⟨_, by rw [hu]; rfl, .committing, _, rfl, fun h => ?_⟩
          obtain ⟨e, he⟩ := Option.isSome_iff_exists.1 h
          simp [he]
        · exact ⟨th, hu, .refl th⟩
      · exact .refl s
    · exact .refl s
  · exact .refl s

theorem keepsWork_endTurn (s : State) (k : Nat) (b : Burst) (i : Instr) : KeepsWork s (endTurn s k b i) := by
  unfold endTurn
  generalize b.groups.getD b.turn [] = ts
  induction ts generalizing s with
  | nil => exact .refl s
  | cons t ts ih => exact (keepsWork_endThread k b i s t).trans (ih _)

theorem keepsWork_advance (s : State) (k : Nat) (i : Instr) : KeepsWork s (advance s k i) := by
  unfold advance
  split
  · exact .refl s
  · rename_i b _
    refine (keepsWork_endTurn s k b i).trans ?_
    dsimp only
    split
    · exact .of_groups rfl
    · unfold nextWord
      dsimp only
      split
      · exact .of_groups rfl
      · split <;> exact .of_groups rfl

/-! ## The threads whose turn it is -/

theorem siteOf_spec {s : State} {k : Nat} {b : Burst} {i : Instr} {t : ThreadRef} {x : Site}
    (h : siteOf s k b i t = some x) : x.t = t ∧ x.before = s ∧ threadOf s t = some x.th := by
  unfold siteOf at h
  split at h
  · cases h
  · rename_i g th hf
    split at h
    · cases h
    · split at h
      · cases h
        exact ⟨rfl, rfl, by simp [threadOf, hf]⟩
      · cases h

theorem turnSites_spec {s : State} {k : Nat} {b : Burst} {i : Instr} {x : Site} (h : x ∈ turnSites s k b i) :
    x.before = s ∧ threadOf s x.t = some x.th := by
  obtain ⟨t, _, h⟩ := List.mem_filterMap.1 h
  obtain ⟨rfl, h1, h2⟩ := siteOf_spec h
  exact ⟨h1, h2⟩

theorem turnSites_nodup {s : State} {k : Nat} {b : Burst} {i : Instr} (h : (b.groups.getD b.turn []).Nodup) :
    ((turnSites s k b i).map Site.t).Nodup := by
  unfold turnSites
  generalize b.groups.getD b.turn [] = l at h
  induction l with
  | nil => simp
  | cons t ts ih =>
    obtain ⟨ht, hts⟩ := List.nodup_cons.1 h
    rw [List.filterMap_cons]
    split
    · exact ih hts
    · rename_i x hx
      rw [List.map_cons, List.nodup_cons]
      refine ⟨fun hm => ?_, ih hts⟩
      obtain ⟨y, hy, e⟩ := List.mem_map.1 hm
      obtain ⟨t', ht', hy⟩ := List.mem_filterMap.1 hy
      rw [(siteOf_spec hy).1, (siteOf_spec hx).1] at e
      exact ht (e ▸ ht')

/-- A list of items of distinct threads, worked through by a step that changes no thread but its item's as long as that
one is as the list found it: each thread meets its step with itself unchanged, and is afterwards as that step left it. -/
theorem foldl_distinct {α : Type} {key : α → ThreadRef} {step : State → α → State} (xs : List α)
    (hn : (xs.map key).Nodup) (s : State)
    (hs : ∀ s' x, x ∈ xs → threadOf s' (key x) = threadOf s (key x) → OnlyThread (key x) s' (step s' x)) (x : α)
    (hx : x ∈ xs) :
    ∃ s0, threadOf s0 (key x) = threadOf s (key x) ∧ threadOf (xs.foldl step s) (key x) = threadOf (step s0 x) (key x) := by
  induction xs generalizing s with
  | nil => cases hx
  | cons y ys ih =>
    obtain ⟨hy, hys⟩ := List.nodup_cons.1 (by simpa using hn : (key y :: ys.map key).Nodup)
    have first : OnlyThread (key y) s (step s y) := hs s y List.mem_cons_self rfl
    have still : ∀ z ∈ ys, threadOf (step s y) (key z) = threadOf s (key z) :=
      fun z hz => first (key z) fun e => hy (e ▸ List.mem_map.2 ⟨z, hz, rfl⟩)
    have rest : ∀ s' z, z ∈ ys → threadOf s' (key z) = threadOf (step s y) (key z) → OnlyThread (key z) s' (step s' z) :=
      fun s' z hz e => hs s' z (List.mem_cons_of_mem _ hz) (e.trans (still z hz))
    rw [List.foldl_cons]
    rcases List.mem_cons.1 hx with rfl | hx'
    · refine ⟨s, rfl, ?_⟩
      have later : ∀ zs : List α, (∀ z ∈ zs, z ∈ ys) → (zs.map key).Nodup → ∀ s' : State,
          (∀ z ∈ zs, threadOf s' (key z) = threadOf (step s x) (key z)) →
          threadOf (zs.foldl step s') (key x) = threadOf s' (key x) := by
        intro zs
        induction zs with
        | nil => exact fun _ _ _ _ => rfl
        | cons z zs ihz =>
          intro hm hd s' hz
          obtain ⟨hz1, hz2⟩ := List.nodup_cons.1 (by simpa using hd : (key z :: zs.map key).Nodup)
          have hzy := hm z List.mem_cons_self
          have one := rest s' z hzy (hz z List.mem_cons_self)
          have hne : key x ≠ key z := fun e => hy (e ▸ List.mem_map.2 ⟨z, hzy, rfl⟩)
          rw [List.foldl_cons, ihz (fun w hw => hm w (List.mem_cons_of_mem _ hw)) hz2 _ (fun w hw => ?_), one (key x) hne]
          rw [one (key w) fun e => hz1 (e ▸ List.mem_map.2 ⟨w, hw, rfl⟩)]
          exact hz w (List.mem_cons_of_mem _ hw)
      exact later ys (fun _ h => h) hys _ fun _ _ => rfl
    · obtain ⟨s0, h0, h1⟩ := ih hys (step s y) rest hx'
      exact ⟨s0, h0.trans (still x hx'), h1⟩

/-! ## Issuing a word -/

theorem proceeds_not_stall {i : Instr} {x : Site} (h : verdict i x = .run ∨ verdict i x = .off ∨ ∃ f, verdict i x = .fault f) :
    verdict i x ≠ .stall := by
  rcases h with h | h | ⟨f, h⟩ <;> simp [h]

/-- A word that waits for nothing is issued, and each thread of the issue group is then as its own execution of the
word left it. -/
theorem issueHeld_next {s : State} {b : Burst} {i : Instr} {held : Site → Bool} {body : Body} (hb : body.OwnThread)
    (h : AtWord s b) (hp : ∀ x ∈ turnSites s s.focus b i, verdict i x ≠ .stall)
    (hg : ∀ x ∈ turnSites s s.focus b i, x.th.seg.gather = true → Sound i body x)
    (hh : ∀ x ∈ turnSites s s.focus b i, verdict i x = .run → held x = false) :
    ∃ t, issueHeld s i held body = .next t ∧ ∀ x ∈ turnSites s s.focus b i, ∃ s0, threadOf s0 x.t = some x.th ∧
      ∀ th, threadOf (issueThread i body s0 x) x.t = some th → ∃ th', threadOf t x.t = some th' ∧ SameWork th th' := by
  obtain ⟨c, hc, hcb⟩ := Option.bind_eq_some_iff.1 h.1
  have hany : ((turnSites s s.focus b i).any fun x => verdict i x = .stall || (verdict i x = .run && held x)) = false := by
    rw [List.any_eq_false]
    intro x hx
    have h1 := hp x hx
    by_cases h2 : verdict i x = .run
    · simp [h2, hh x hx h2]
    · simp [h1, h2]
  have here : ∀ y ∈ turnSites s s.focus b i,
      threadOf (countIssue s s.focus i (turnSites s s.focus b i)) y.t = some y.th := fun y hy => by
    rw [threadOf_congr (countIssue_groups _ _ _ _), (turnSites_spec hy).2]
  refine ⟨_, by
    unfold issueHeld
    simp only [hc, hcb]
    rw [if_neg (by simp [hany]), issueAll_alone i hb (turnSites_nodup h.2) here hg], fun x hx => ?_⟩
  obtain ⟨s0, h0, h1⟩ := foldl_distinct (key := Site.t) (turnSites s s.focus b i) (turnSites_nodup h.2)
    (countIssue s s.focus i (turnSites s s.focus b i))
    (fun s' y _ _ => onlyThread_issueThread i hb s' y) x hx
  refine ⟨s0, ?_, fun th hth => ?_⟩
  · rw [h0, threadOf_congr (countIssue_groups _ _ _ _), (turnSites_spec hx).2]
  · exact keepsWork_advance _ _ _ x.t th (h1.trans hth)

/-- A thread that begins a word keeps its results, effect, loads, stores and ending. -/
theorem threadOf_beginWord {s : State} {i : Instr} {x : Site} {on : Bool} {th : Thread} (h : threadOf s x.t = some th) :
    ∃ th', threadOf (beginWord s i x on) x.t = some th' ∧ th'.seg.results = th.seg.results ∧
      th'.seg.effect = th.seg.effect ∧ th'.seg.ending = th.seg.ending ∧ th'.seg.loads = th.seg.loads ∧
      th'.seg.stores = th.seg.stores ∧ th'.memStatus = th.memStatus := by
  obtain ⟨th', e, _, _, _, rfl⟩ := begun_beginWord (i := i) (on := on) h
  exact ⟨_, e, rfl, rfl, rfl, rfl, rfl, rfl⟩

theorem threadOf_finish {s : State} {x : Site} {th : Thread} (r : List RegWrite × Wide) (h : threadOf s x.t = some th) :
    threadOf (finish s x r) x.t = some (th.push (done r)) := by
  have e := threadOf_updThread_same s x.t (fun th => th.push (done r)) fun _ => ⟨rfl, rfl⟩
  rw [h] at e
  exact e

theorem resultsOf_threadOf (s : State) (t : ThreadRef) : resultsOf s t = (threadOf s t).map fun th => th.seg.results := by
  simp [resultsOf, segOf, threadOf, Function.comp_def]

theorem effectOf_threadOf (s : State) (t : ThreadRef) : effectOf s t = (threadOf s t).bind fun th => th.seg.effect := by
  simp [effectOf, segOf, threadOf, Option.bind_map]

theorem endingOf_threadOf (s : State) (t : ThreadRef) : endingOf s t = (threadOf s t).bind fun th => th.seg.ending := by
  simp [endingOf, segOf, threadOf, Option.bind_map]

/-- A word that waits for nothing is issued, and each thread that runs it has afterwards any property that its own
execution of the word gives it and that the end of a segment keeps. -/
theorem issueHeld_run {s : State} {b : Burst} {i : Instr} {held : Site → Bool} {body : Body} (hb : body.OwnThread)
    (h : AtWord s b) (hp : ∀ x ∈ turnSites s s.focus b i, verdict i x ≠ .stall)
    (hg : ∀ x ∈ turnSites s s.focus b i, x.th.seg.gather = true → Sound i body x)
    (hh : ∀ x ∈ turnSites s s.focus b i, verdict i x = .run → held x = false) :
    ∃ t, issueHeld s i held body = .next t ∧ ∀ x ∈ turnSites s s.focus b i, verdict i x = .run →
      ∀ Q : Thread → Prop, (∀ a c, SameWork a c → Q a → Q c) →
        (∀ s1 th1, threadOf s1 x.t = some th1 → Begun x.th th1 →
          ∃ s2 th2, body s1 x = .ok s2 ∧ threadOf s2 x.t = some th2 ∧ Q th2) →
        ∃ th, threadOf t x.t = some th ∧ Q th := by
  obtain ⟨t, ht, hx⟩ := issueHeld_next hb h hp hg hh
  refine ⟨t, ht, fun x hm hv Q hQ hbody => ?_⟩
  obtain ⟨s0, h0, h1⟩ := hx x hm
  obtain ⟨th1, hb1, hb2⟩ := begun_beginWord (i := i) (on := true) h0
  obtain ⟨s2, th2, e2, h2, q2⟩ := hbody _ th1 hb1 hb2
  obtain ⟨th', h3, h4⟩ := h1 th2 (by unfold issueThread; simp only [hv, e2]; exact h2)
  exact ⟨th', h3, hQ _ _ h4 q2⟩

/-- A word that only computes leaves the computed result as the newest of each thread that runs it. -/
theorem issueWord_pure {s : State} {b : Burst} {i : Instr} {f : Site → List RegWrite × Wide} (h : AtWord s b)
    (hp : ∀ x ∈ turnSites s s.focus b i, verdict i x ≠ .stall)
    (hg : ∀ x ∈ turnSites s s.focus b i, x.th.seg.gather = true → ∀ tr, verdict i x ≠ .fault tr) :
    ∃ t, issueWord s i (pureBody f) = .next t ∧ ∀ x ∈ turnSites s s.focus b i, verdict i x = .run →
      resultsOf t x.t = some (done (f x) :: x.th.seg.results) := by
  obtain ⟨t, ht, hx⟩ := issueHeld_next (held := fun _ => false) (pureBody_ownThread f) h hp
    (fun x hx e => ⟨hg x hx e, fun _ s1 _ _ _ => ⟨_, rfl⟩⟩) fun _ _ _ => rfl
  refine ⟨t, ht, fun x hm hv => ?_⟩
  obtain ⟨s0, h0, h1⟩ := hx x hm
  obtain ⟨th, hb, hr, -⟩ := threadOf_beginWord (i := i) (on := true) h0
  obtain ⟨th', h2, h3⟩ := h1 _ (by
    unfold issueThread
    simp only [hv, pureBody]
    exact threadOf_finish (f x) hb)
  rw [resultsOf_threadOf, h2, Option.map_some, h3.results]
  simp [Thread.push, hr]

/-! ## Effect instructions and control transfers -/

theorem onlyThread_setEffect (s : State) (x : Site) (e : Effect) : OnlyThread x.t s (setEffect s x e) :=
  OnlyThread.upd s x.t _ fun _ => ⟨rfl, rfl⟩

theorem onlyThread_setEnding (s : State) (x : Site) (e : Ending) : OnlyThread x.t s (setEnding s x e) :=
  OnlyThread.upd s x.t _ fun _ => ⟨rfl, rfl⟩

theorem onlyThread_setMemStatus (s : State) (t : ThreadRef) (m : Word) : OnlyThread t s (setMemStatus s t m) :=
  OnlyThread.upd s t _ fun _ => ⟨rfl, rfl⟩

theorem threadOf_setEffect {s : State} {x : Site} {th : Thread} (e : Effect) (h : threadOf s x.t = some th) :
    threadOf (setEffect s x e) x.t = some { th with seg := { th.seg with effect := some e } } := by
  have q := threadOf_updThread_same s x.t (fun th => { th with seg := { th.seg with effect := some e } })
    fun _ => ⟨rfl, rfl⟩
  rw [h] at q
  exact q

theorem threadOf_setEnding {s : State} {x : Site} {th : Thread} (e : Ending) (h : threadOf s x.t = some th) :
    threadOf (setEnding s x e) x.t = some { th with seg := { th.seg with ending := some e } } := by
  have q := threadOf_updThread_same s x.t (fun th => { th with seg := { th.seg with ending := some e } })
    fun _ => ⟨rfl, rfl⟩
  rw [h] at q
  exact q

theorem accessEffect_ownThread (acc : Site → Except Trouble (BufRec × List Spot)) (f : Site → Loc → Nat → Effect) :
    Body.OwnThread fun s x => accessEffect (acc x) (f x) s x := by
  intro s x s' h
  dsimp only [accessEffect] at h
  split at h
  · cases h
  · split at h
    · cases h
      exact .refl _ _
    · cases h
      split
      · exact (onlyThread_setMemStatus _ _ _).trans (onlyThread_setEffect _ _ _)
      · exact onlyThread_setEffect _ _ _

/-! ## Cross-lane words -/

theorem onlyThread_joinMates (s : State) (m : Member) : OnlyThread m.site.t s (joinMates s m) :=
  OnlyThread.upd s m.site.t _ fun _ => ⟨rfl, rfl⟩

theorem onlyThread_gatherThread (i : Instr) (f : List Member → Member → List RegWrite × Wide) (ms : List Member)
    (parked : List ThreadRef) (s : State) (m : Member) : OnlyThread m.site.t s (gatherThread i f ms parked s m) := by
  unfold gatherThread
  split
  · split
    · exact onlyThread_addDisabled _ i m.site
    · exact onlyThread_parkGather _ _ _ _ _ _
  · split
    · exact onlyThread_parkGather _ _ _ _ _ _
    · split
      · exact ((onlyThread_beginWord s i m.site true).trans (onlyThread_joinMates _ m)).trans (onlyThread_addResult _ _ _)
      · exact (onlyThread_beginWord s i m.site false).trans (onlyThread_addDisabled _ i m.site)

theorem memberOf_site (i : Instr) (x : Site) : (memberOf i x).site = x := by
  unfold memberOf
  dsimp only
  split <;> rfl

theorem membersOf_sites (b : Burst) (i : Instr) (own : List Member → Member → Option Trouble) (xs : List Site) :
    (membersOf b i own xs).map Member.site = xs := by
  simp [membersOf, Function.comp_def, memberOf_site]

/-- A cross-lane word that waits for nothing is issued, and each member that is enabled, has no fault and stands in no
parked closure has its result as the newest. -/
theorem issueGather_next {s : State} {b : Burst} {i : Instr} {own : List Member → Member → Option Trouble}
    {f : List Member → Member → List RegWrite × Wide} (h : AtWord s b)
    (hp : ∀ x ∈ turnSites s s.focus b i, verdict i x ≠ .stall ∧ supplyReady i x = true) :
    ∃ t, issueGather s i own f = .next t ∧ ∀ m ∈ membersOf b i own (turnSites s s.focus b i), m.on = true → m.own = none →
      (let ms := membersOf b i own (turnSites s s.focus b i)
       m.site.t ∉ closeOver ms ms.length (gatherSeed ms)) →
      resultsOf t m.site.t = some (done (f (membersOf b i own (turnSites s s.focus b i)) m) :: m.site.th.seg.results) := by
  obtain ⟨c, hc, hcb⟩ := Option.bind_eq_some_iff.1 h.1
  have hany : ((turnSites s s.focus b i).any fun x => verdict i x = .stall || !supplyReady i x) = false := by
    rw [List.any_eq_false]
    intro x hx
    have := hp x hx
    simp [this.1, this.2]
  refine ⟨_, by unfold issueGather; simp only [hc, hcb]; rw [if_neg (by simp [hany])], fun m hm hon hown hpark => ?_⟩
  have hn : ((membersOf b i own (turnSites s s.focus b i)).map fun m => m.site.t).Nodup := by
    have := membersOf_sites b i own (turnSites s s.focus b i)
    rw [show (fun m : Member => m.site.t) = Site.t ∘ Member.site from rfl, ← List.map_map, this]
    exact turnSites_nodup h.2
  have hsite : m.site ∈ turnSites s s.focus b i := by
    rw [← membersOf_sites b i own (turnSites s s.focus b i)]
    exact List.mem_map.2 ⟨m, hm, rfl⟩
  obtain ⟨s0, h0, h1⟩ := foldl_distinct (key := fun m : Member => m.site.t) _ hn
    (countIssue s s.focus i (turnSites s s.focus b i))
    (fun s' m _ _ => onlyThread_gatherThread i f (membersOf b i own (turnSites s s.focus b i)) _ s' m) m hm
  rw [threadOf_congr (countIssue_groups _ _ _ _), (turnSites_spec hsite).2] at h0
  obtain ⟨th, hb, hr, -⟩ := threadOf_beginWord (i := i) (on := true) h0
  have joined : threadOf (joinMates (beginWord s0 i m.site true) m) m.site.t = _ :=
    threadOf_updThread_same _ m.site.t _ fun _ => ⟨rfl, rfl⟩
  rw [hb, Option.map_some] at joined
  obtain ⟨th', h2, h3⟩ := keepsWork_advance _ s.focus i m.site.t _ (h1.trans (by
    unfold gatherThread
    simp only [hown]
    rw [if_neg (by simpa using hpark), if_pos (by simp [hon])]
    exact threadOf_finish _ joined))
  rw [resultsOf_threadOf]
  refine (congrArg _ h2).trans ?_
  rw [Option.map_some, h3.results]
  simp [Thread.push, hr]

end Sys2Proof.Machine
end

