-- ==== Sys2Proof/Laws/Memory.lean ====
section
/-!
SUPPORT. Memory: a read after a write, and that every operation keeps the list of written bytes strictly ascending.
-/

namespace Sys2Proof.Machine

theorem Memory.read_write_same (m : List Host.Cell) (a : Nat) (b : Byte) :
    Memory.read (Memory.write m a b) a = some b := by
  induction m with
  | nil => simp [Memory.write, Memory.read]
  | cons c m ih =>
    obtain ⟨k, x⟩ := c
    unfold Memory.write
    split
    · simp [Memory.read]
    · split
      · simp [Memory.read]
      · rename_i h
        simpa [Memory.read, Ne.symm h] using ih

theorem Memory.read_write_other (m : List Host.Cell) {a a' : Nat} (b : Byte) (h : a' ≠ a) :
    Memory.read (Memory.write m a b) a' = Memory.read m a' := by
  induction m with
  | nil => simp [Memory.write, Memory.read, h.symm]
  | cons c m ih =>
    obtain ⟨k, x⟩ := c
    unfold Memory.write
    split
    · simp [Memory.read, h.symm]
    · split
      · rename_i e
        subst e
        simp [Memory.read, h.symm]
      · simp [Memory.read, ih]

theorem Memory.read_writeAll_other (cells : List Host.Cell) (m : List Host.Cell) {a : Nat}
    (h : ∀ c ∈ cells, c.1 ≠ a) : Memory.read (Memory.writeAll m cells) a = Memory.read m a := by
  induction cells generalizing m with
  | nil => rfl
  | cons c cells ih =>
    have hc := h c (by simp)
    have := ih (Memory.write m c.1 c.2) fun d hd => h d (by simp [hd])
    rw [Memory.writeAll, List.foldl_cons] at *
    rw [this, Memory.read_write_other m c.2 hc.symm]

/-- Strictly ascending, as a relation between neighbours. -/
theorem ascending_iff (l : List Nat) : ascending l = true ↔ l.Pairwise (· < ·) := by
  induction l with
  | nil => simp [ascending]
  | cons a l ih =>
    cases l with
    | nil => simp [ascending]
    | cons b l =>
      simp only [ascending, Bool.and_eq_true, decide_eq_true_eq, ih, List.pairwise_cons, List.mem_cons]
      constructor
      · rintro ⟨h, hb, hl⟩
        exact ⟨fun c hc => hc.elim (fun e => e ▸ h) fun hc => lt_trans h (hb c hc), hb, hl⟩
      · rintro ⟨ha, hb, hl⟩
        exact ⟨ha b (.inl rfl), hb, hl⟩

theorem Memory.wf_iff (m : List Host.Cell) : Memory.wf m = true ↔ m.Pairwise (fun a b => a.1 < b.1) := by
  simp [Memory.wf, ascending_iff, List.pairwise_map]

theorem Memory.mem_write {m : List Host.Cell} {a : Nat} {b : Byte} {c : Host.Cell}
    (h : c ∈ Memory.write m a b) : c = (a, b) ∨ c ∈ m := by
  induction m with
  | nil => simpa [Memory.write] using h
  | cons d m ih =>
    obtain ⟨k, x⟩ := d
    unfold Memory.write at h
    split at h
    · simpa using h
    · split at h
      · rcases List.mem_cons.1 h with h | h
        · exact .inl h
        · exact .inr (List.mem_cons_of_mem _ h)
      · rcases List.mem_cons.1 h with h | h
        · exact .inr (h ▸ List.mem_cons_self)
        · exact (ih h).imp_right (List.mem_cons_of_mem _)

theorem Memory.wf_write {m : List Host.Cell} (a : Nat) (b : Byte) (h : Memory.wf m = true) :
    Memory.wf (Memory.write m a b) = true := by
  rw [Memory.wf_iff] at *
  induction m with
  | nil => simp [Memory.write]
  | cons d m ih =>
    obtain ⟨k, x⟩ := d
    obtain ⟨hk, hm⟩ := List.pairwise_cons.1 h
    unfold Memory.write
    split
    · rename_i ha
      refine List.pairwise_cons.2 ⟨fun c hc => ?_, h⟩
      rcases List.mem_cons.1 hc with rfl | hc
      · exact ha
      · exact lt_trans ha (hk c hc)
    · split
      · rename_i e
        subst e
        exact List.pairwise_cons.2 ⟨hk, hm⟩
      · refine List.pairwise_cons.2 ⟨fun c hc => ?_, ih hm⟩
        rcases Memory.mem_write hc with rfl | hc
        · show k < a
          omega
        · exact hk c hc

theorem Memory.wf_writeAll {m : List Host.Cell} (cells : List Host.Cell) (h : Memory.wf m = true) :
    Memory.wf (Memory.writeAll m cells) = true := by
  induction cells generalizing m with
  | nil => exact h
  | cons c cells ih => exact ih (Memory.wf_write c.1 c.2 h)

theorem Memory.wf_filter {m : List Host.Cell} (p : Host.Cell → Bool) (h : Memory.wf m = true) :
    Memory.wf (m.filter p) = true := by
  rw [Memory.wf_iff] at *
  exact h.filter p

theorem Memory.wf_drop {m : List Host.Cell} (p : Nat → Bool) (h : Memory.wf m = true) :
    Memory.wf (Memory.drop m p) = true := Memory.wf_filter _ h

theorem Stamps.mem_write {m : List (Nat × Nat)} {a n : Nat} {c : Nat × Nat}
    (h : c ∈ Stamps.write m a n) : c = (a, n) ∨ c ∈ m := by
  induction m with
  | nil => simpa [Stamps.write] using h
  | cons d m ih =>
    obtain ⟨k, x⟩ := d
    unfold Stamps.write at h
    split at h
    · simpa using h
    · split at h
      · rcases List.mem_cons.1 h with h | h
        · exact .inl h
        · exact .inr (List.mem_cons_of_mem _ h)
      · rcases List.mem_cons.1 h with h | h
        · exact .inr (h ▸ List.mem_cons_self)
        · exact (ih h).imp_right (List.mem_cons_of_mem _)

theorem Stamps.ascending_write {m : List (Nat × Nat)} (a n : Nat) (h : ascending (m.map Prod.fst) = true) :
    ascending ((Stamps.write m a n).map Prod.fst) = true := by
  rw [ascending_iff, List.pairwise_map] at *
  induction m with
  | nil => simp [Stamps.write]
  | cons d m ih =>
    obtain ⟨k, x⟩ := d
    obtain ⟨hk, hm⟩ := List.pairwise_cons.1 h
    unfold Stamps.write
    split
    · rename_i ha
      refine List.pairwise_cons.2 ⟨fun c hc => ?_, h⟩
      rcases List.mem_cons.1 hc with rfl | hc
      · exact ha
      · exact lt_trans ha (hk c hc)
    · split
      · rename_i e
        subst e
        exact List.pairwise_cons.2 ⟨hk, hm⟩
      · refine List.pairwise_cons.2 ⟨fun c hc => ?_, ih hm⟩
        rcases Stamps.mem_write hc with rfl | hc
        · show k < a
          omega
        · exact hk c hc

/-! ## The memories of the state -/

theorem memoryWf_iff (s : State) : s.memoryWf = true ↔
    (∀ d ∈ s.dies, Memory.wf d.mem = true ∧ ascending (d.stamps.map Prod.fst) = true) ∧
    (∀ g ∈ s.groups, Memory.wf g.pad = true) ∧
    (∀ c ∈ s.cores, Memory.wf c.l1Clean = true ∧ Memory.wf c.l1Dirty = true) ∧
    Memory.wf s.hostMem = true := by
  simp [State.memoryWf, and_assoc]

theorem mem_modify {α : Type} {l : List α} {k : Nat} {f : α → α} {x : α} (h : x ∈ l.modify k f) :
    x ∈ l ∨ ∃ y ∈ l, x = f y := by
  induction l generalizing k with
  | nil => simp at h
  | cons a l ih =>
    cases k with
    | zero =>
      rcases List.mem_cons.1 (by simpa using h) with h | h
      · exact .inr ⟨a, by simp, h⟩
      · exact .inl (by simp [h])
    | succ k =>
      rcases List.mem_cons.1 (by simpa using h) with h | h
      · exact .inl (by simp [h])
      · rcases ih h with h | ⟨y, hy, e⟩
        · exact .inl (by simp [h])
        · exact .inr ⟨y, by simp [hy], e⟩

/-- A change of a core that keeps its caches in form keeps every memory in form. -/
theorem memoryWf_updCore {s : State} (k : Nat) (f : Core → Core) (h : s.memoryWf = true)
    (hf : ∀ c ∈ s.cores, Memory.wf (f c).l1Clean = true ∧ Memory.wf (f c).l1Dirty = true) : (updCore s k f).memoryWf = true := by
  rw [memoryWf_iff] at *
  obtain ⟨hd, hg, hc, hh⟩ := h
  refine ⟨hd, hg, fun c hm => ?_, hh⟩
  rcases mem_modify (by simpa using hm) with hm | ⟨y, hy, rfl⟩
  · exact hc c hm
  · exact hf y hy

/-- The same for a die. -/
theorem memoryWf_updDie {s : State} (k : Nat) (f : Die → Die) (h : s.memoryWf = true)
    (hf : ∀ d ∈ s.dies, Memory.wf (f d).mem = true ∧ ascending ((f d).stamps.map Prod.fst) = true) :
    (updDie s k f).memoryWf = true := by
  rw [memoryWf_iff] at *
  obtain ⟨hd, hg, hc, hh⟩ := h
  refine ⟨fun d hm => ?_, hg, hc, hh⟩
  rcases mem_modify (by simpa using hm) with hm | ⟨y, hy, rfl⟩
  · exact hd d hm
  · exact hf y hy

/-- The same for a group and its scratchpad. -/
theorem memoryWf_updGroup {s : State} (n : Nat) (f : Group → Group) (h : s.memoryWf = true)
    (hf : ∀ g ∈ s.groups, Memory.wf (f g).pad = true) : (updGroup s n f).memoryWf = true := by
  rw [memoryWf_iff] at *
  obtain ⟨hd, hg, hc, hh⟩ := h
  refine ⟨hd, fun g hm => ?_, hc, hh⟩
  obtain ⟨y, hy, e⟩ := List.mem_map.1 (by simpa using hm)
  rw [← e]
  split
  · exact hf y hy
  · exact hg y hy

/-- A change of a thread touches no memory. -/
theorem memoryWf_updThread {s : State} (t : ThreadRef) (f : Thread → Thread) (h : s.memoryWf = true) :
    (updThread s t f).memoryWf = true :=
  memoryWf_updGroup _ _ h fun g hg => ((memoryWf_iff s).1 h).2.1 g hg

end Sys2Proof.Machine
end

