-- ==== Sys2Proof/Laws/PerInstr.lean ====
section
/-!
SUPPORT. One lemma for each constructor of `Instr`: the decoder reads the constructor's word as that constructor, with
every field as it was encoded.
-/

namespace Sys2Proof.Laws.Decodes

-- One lemma after another: each waits for the kernel, and hundreds at once would each hold a thread.
set_option Elab.async false

/-- A well-formed instruction word, with its literal word, decodes to the instruction. -/
def Statement (i : Instr) : Prop := i.wf = true → ∀ w, i.word = some w → decodeWith w i.literal = i

theorem immOk_of_wf {i : Instr} (h : i.wf = true) : i.immOk = true := by
  simp only [Instr.wf, Bool.and_eq_true] at h
  exact h.1.1.1.2

theorem variantOk_of_wf {i : Instr} (h : i.wf = true) : i.variantOk = true := by
  simp only [Instr.wf, Bool.and_eq_true] at h
  exact h.1.1.2

theorem opcodeOk_of_wf {i : Instr} (h : i.wf = true) : i.opcodeOk = true := by
  simp only [Instr.wf, Bool.and_eq_true] at h
  exact h.1.2

set_option maxHeartbeats 1000000 in
/-- The opcode map has one arm for each assigned opcode, and all others end in its last arm. -/
theorem decode_unassigned (w : Wide) (n : Nat) (hn : wordOpcode w = n) (ho : opcodeAssigned n = false) :
    decodeWith w none = .unassignedOpcode w := by
  unfold decodeWith
  rw [hn]
  split
  all_goals first
    | rfl
    | exact absurd ho (by decide)

/-- A step that is no instruction word. -/
theorem no_word {i : Instr} (h : i.word = none) : Statement i := by
  intro _ w hw
  rw [h] at hw
  cases hw

theorem nop (w : OpWord ModZ) : Statement (.nop w) := by
  intro h x hx
  cases hx
  have ho : wordOpcode (w.pack 0x000 w.m.bits) = 0x000 := wordOpcode_pack_OpWord ..
  unfold decodeWith
  rw [ho]
  exact congrArg Instr.nop (opWord_pack _ _ _ _ _ rfl (ModZ.ofBits_bits _))

theorem iadd (w : OpWord ModIN) : Statement (.iadd w) := by
  intro h x hx
  cases hx
  have hi : w.m.imm = false := by simpa [Instr.immOk] using immOk_of_wf h
  have ho : wordOpcode (w.pack 0x010 w.m.bits) = 0x010 := wordOpcode_pack_OpWord ..
  unfold decodeWith
  rw [ho]
  simp only [wordMod_pack_OpWord, ModIN.ofBits_bits, hi]
  exact congrArg Instr.iadd (opWord_pack _ _ _ _ _ rfl (ModIN.ofBits_bits _))

theorem iaddImm (w : ImmWord ModIN) : Statement (.iaddImm w) := by
  intro h x hx
  cases hx
  have hi : w.m.imm = true := by simpa [Instr.immOk] using immOk_of_wf h
  have ho : wordOpcode (w.pack 0x010 w.m.bits) = 0x010 := wordOpcode_pack_ImmWord ..
  unfold decodeWith
  rw [ho]
  simp only [wordMod_pack_ImmWord, ModIN.ofBits_bits, hi]
  exact congrArg Instr.iaddImm (immWord_pack _ _ _ _ _ rfl (ModIN.ofBits_bits _))

theorem isub (w : OpWord ModIN) : Statement (.isub w) := by
  intro h x hx
  cases hx
  have hi : w.m.imm = false := by simpa [Instr.immOk] using immOk_of_wf h
  have ho : wordOpcode (w.pack 0x011 w.m.bits) = 0x011 := wordOpcode_pack_OpWord ..
  unfold decodeWith
  rw [ho]
  simp only [wordMod_pack_OpWord, ModIN.ofBits_bits, hi]
  exact congrArg Instr.isub (opWord_pack _ _ _ _ _ rfl (ModIN.ofBits_bits _))

theorem isubImm (w : ImmWord ModIN) : Statement (.isubImm w) := by
  intro h x hx
  cases hx
  have hi : w.m.imm = true := by simpa [Instr.immOk] using immOk_of_wf h
  have ho : wordOpcode (w.pack 0x011 w.m.bits) = 0x011 := wordOpcode_pack_ImmWord ..
  unfold decodeWith
  rw [ho]
  simp only [wordMod_pack_ImmWord, ModIN.ofBits_bits, hi]
  exact congrArg Instr.isubImm (immWord_pack _ _ _ _ _ rfl (ModIN.ofBits_bits _))

theorem imul (w : OpWord ModIN) : Statement (.imul w) := by
  intro h x hx
  cases hx
  have hi : w.m.imm = false := by simpa [Instr.immOk] using immOk_of_wf h
  have ho : wordOpcode (w.pack 0x012 w.m.bits) = 0x012 := wordOpcode_pack_OpWord ..
  unfold decodeWith
  rw [ho]
  simp only [wordMod_pack_OpWord, ModIN.ofBits_bits, hi]
  exact congrArg Instr.imul (opWord_pack _ _ _ _ _ rfl (ModIN.ofBits_bits _))

theorem imulImm (w : ImmWord ModIN) : Statement (.imulImm w) := by
  intro h x hx
  cases hx
  have hi : w.m.imm = true := by simpa [Instr.immOk] using immOk_of_wf h
  have ho : wordOpcode (w.pack 0x012 w.m.bits) = 0x012 := wordOpcode_pack_ImmWord ..
  unfold decodeWith
  rw [ho]
  simp only [wordMod_pack_ImmWord, ModIN.ofBits_bits, hi]
  exact congrArg Instr.imulImm (immWord_pack _ _ _ _ _ rfl (ModIN.ofBits_bits _))

theorem imulhi (w : OpWord ModIN) : Statement (.imulhi w) := by
  intro h x hx
  cases hx
  have hi : w.m.imm = false := by simpa [Instr.immOk] using immOk_of_wf h
  have ho : wordOpcode (w.pack 0x013 w.m.bits) = 0x013 := wordOpcode_pack_OpWord ..
  unfold decodeWith
  rw [ho]
  simp only [wordMod_pack_OpWord, ModIN.ofBits_bits, hi]
  exact congrArg Instr.imulhi (opWord_pack _ _ _ _ _ rfl (ModIN.ofBits_bits _))

theorem imulhiImm (w : ImmWord ModIN) : Statement (.imulhiImm w) := by
  intro h x hx
  cases hx
  have hi : w.m.imm = true := by simpa [Instr.immOk] using immOk_of_wf h
  have ho : wordOpcode (w.pack 0x013 w.m.bits) = 0x013 := wordOpcode_pack_ImmWord ..
  unfold decodeWith
  rw [ho]
  simp only [wordMod_pack_ImmWord, ModIN.ofBits_bits, hi]
  exact congrArg Instr.imulhiImm (immWord_pack _ _ _ _ _ rfl (ModIN.ofBits_bits _))

theorem imad (w : OpWord ModIN) : Statement (.imad w) := by
  intro h x hx
  cases hx
  have ho : wordOpcode (w.pack 0x014 w.m.bits) = 0x014 := wordOpcode_pack_OpWord ..
  unfold decodeWith
  rw [ho]
  exact congrArg Instr.imad (opWord_pack _ _ _ _ _ rfl (ModIN.ofBits_bits _))

theorem iaddc (w : OpWord ModIN) : Statement (.iaddc w) := by
  intro h x hx
  cases hx
  have ho : wordOpcode (w.pack 0x015 w.m.bits) = 0x015 := wordOpcode_pack_OpWord ..
  unfold decodeWith
  rw [ho]
  exact congrArg Instr.iaddc (opWord_pack _ _ _ _ _ rfl (ModIN.ofBits_bits _))

theorem isubc (w : OpWord ModIN) : Statement (.isubc w) := by
  intro h x hx
  cases hx
  have ho : wordOpcode (w.pack 0x016 w.m.bits) = 0x016 := wordOpcode_pack_OpWord ..
  unfold decodeWith
  rw [ho]
  exact congrArg Instr.isubc (opWord_pack _ _ _ _ _ rfl (ModIN.ofBits_bits _))

theorem imin (w : OpWord ModIN) : Statement (.imin w) := by
  intro h x hx
  cases hx
  have hi : w.m.imm = false := by simpa [Instr.immOk] using immOk_of_wf h
  have ho : wordOpcode (w.pack 0x017 w.m.bits) = 0x017 := wordOpcode_pack_OpWord ..
  unfold decodeWith
  rw [ho]
  simp only [wordMod_pack_OpWord, ModIN.ofBits_bits, hi]
  exact congrArg Instr.imin (opWord_pack _ _ _ _ _ rfl (ModIN.ofBits_bits _))

theorem iminImm (w : ImmWord ModIN) : Statement (.iminImm w) := by
  intro h x hx
  cases hx
  have hi : w.m.imm = true := by simpa [Instr.immOk] using immOk_of_wf h
  have ho : wordOpcode (w.pack 0x017 w.m.bits) = 0x017 := wordOpcode_pack_ImmWord ..
  unfold decodeWith
  rw [ho]
  simp only [wordMod_pack_ImmWord, ModIN.ofBits_bits, hi]
  exact congrArg Instr.iminImm (immWord_pack _ _ _ _ _ rfl (ModIN.ofBits_bits _))

theorem imax (w : OpWord ModIN) : Statement (.imax w) := by
  intro h x hx
  cases hx
  have hi : w.m.imm = false := by simpa [Instr.immOk] using immOk_of_wf h
  have ho : wordOpcode (w.pack 0x018 w.m.bits) = 0x018 := wordOpcode_pack_OpWord ..
  unfold decodeWith
  rw [ho]
  simp only [wordMod_pack_OpWord, ModIN.ofBits_bits, hi]
  exact congrArg Instr.imax (opWord_pack _ _ _ _ _ rfl (ModIN.ofBits_bits _))

theorem imaxImm (w : ImmWord ModIN) : Statement (.imaxImm w) := by
  intro h x hx
  cases hx
  have hi : w.m.imm = true := by simpa [Instr.immOk] using immOk_of_wf h
  have ho : wordOpcode (w.pack 0x018 w.m.bits) = 0x018 := wordOpcode_pack_ImmWord ..
  unfold decodeWith
  rw [ho]
  simp only [wordMod_pack_ImmWord, ModIN.ofBits_bits, hi]
  exact congrArg Instr.imaxImm (immWord_pack _ _ _ _ _ rfl (ModIN.ofBits_bits _))

theorem iabs (w : OpWord ModIN) : Statement (.iabs w) := by
  intro h x hx
  cases hx
  have ho : wordOpcode (w.pack 0x019 w.m.bits) = 0x019 := wordOpcode_pack_OpWord ..
  unfold decodeWith
  rw [ho]
  exact congrArg Instr.iabs (opWord_pack _ _ _ _ _ rfl (ModIN.ofBits_bits _))

theorem ineg (w : OpWord ModIN) : Statement (.ineg w) := by
  intro h x hx
  cases hx
  have ho : wordOpcode (w.pack 0x01A w.m.bits) = 0x01A := wordOpcode_pack_OpWord ..
  unfold decodeWith
  rw [ho]
  exact congrArg Instr.ineg (opWord_pack _ _ _ _ _ rfl (ModIN.ofBits_bits _))

theorem and (w : OpWord ModIN) : Statement (.and w) := by
  intro h x hx
  cases hx
  have hi : w.m.imm = false := by simpa [Instr.immOk] using immOk_of_wf h
  have ho : wordOpcode (w.pack 0x020 w.m.bits) = 0x020 := wordOpcode_pack_OpWord ..
  unfold decodeWith
  rw [ho]
  simp only [wordMod_pack_OpWord, ModIN.ofBits_bits, hi]
  exact congrArg Instr.and (opWord_pack _ _ _ _ _ rfl (ModIN.ofBits_bits _))

theorem andImm (w : ImmWord ModIN) : Statement (.andImm w) := by
  intro h x hx
  cases hx
  have hi : w.m.imm = true := by simpa [Instr.immOk] using immOk_of_wf h
  have ho : wordOpcode (w.pack 0x020 w.m.bits) = 0x020 := wordOpcode_pack_ImmWord ..
  unfold decodeWith
  rw [ho]
  simp only [wordMod_pack_ImmWord, ModIN.ofBits_bits, hi]
  exact congrArg Instr.andImm (immWord_pack _ _ _ _ _ rfl (ModIN.ofBits_bits _))

theorem or (w : OpWord ModIN) : Statement (.or w) := by
  intro h x hx
  cases hx
  have hi : w.m.imm = false := by simpa [Instr.immOk] using immOk_of_wf h
  have ho : wordOpcode (w.pack 0x021 w.m.bits) = 0x021 := wordOpcode_pack_OpWord ..
  unfold decodeWith
  rw [ho]
  simp only [wordMod_pack_OpWord, ModIN.ofBits_bits, hi]
  exact congrArg Instr.or (opWord_pack _ _ _ _ _ rfl (ModIN.ofBits_bits _))

theorem orImm (w : ImmWord ModIN) : Statement (.orImm w) := by
  intro h x hx
  cases hx
  have hi : w.m.imm = true := by simpa [Instr.immOk] using immOk_of_wf h
  have ho : wordOpcode (w.pack 0x021 w.m.bits) = 0x021 := wordOpcode_pack_ImmWord ..
  unfold decodeWith
  rw [ho]
  simp only [wordMod_pack_ImmWord, ModIN.ofBits_bits, hi]
  exact congrArg Instr.orImm (immWord_pack _ _ _ _ _ rfl (ModIN.ofBits_bits _))

theorem xor (w : OpWord ModIN) : Statement (.xor w) := by
  intro h x hx
  cases hx
  have hi : w.m.imm = false := by simpa [Instr.immOk] using immOk_of_wf h
  have ho : wordOpcode (w.pack 0x022 w.m.bits) = 0x022 := wordOpcode_pack_OpWord ..
  unfold decodeWith
  rw [ho]
  simp only [wordMod_pack_OpWord, ModIN.ofBits_bits, hi]
  exact congrArg Instr.xor (opWord_pack _ _ _ _ _ rfl (ModIN.ofBits_bits _))

theorem xorImm (w : ImmWord ModIN) : Statement (.xorImm w) := by
  intro h x hx
  cases hx
  have hi : w.m.imm = true := by simpa [Instr.immOk] using immOk_of_wf h
  have ho : wordOpcode (w.pack 0x022 w.m.bits) = 0x022 := wordOpcode_pack_ImmWord ..
  unfold decodeWith
  rw [ho]
  simp only [wordMod_pack_ImmWord, ModIN.ofBits_bits, hi]
  exact congrArg Instr.xorImm (immWord_pack _ _ _ _ _ rfl (ModIN.ofBits_bits _))

theorem andn (w : OpWord ModIN) : Statement (.andn w) := by
  intro h x hx
  cases hx
  have hi : w.m.imm = false := by simpa [Instr.immOk] using immOk_of_wf h
  have ho : wordOpcode (w.pack 0x023 w.m.bits) = 0x023 := wordOpcode_pack_OpWord ..
  unfold decodeWith
  rw [ho]
  simp only [wordMod_pack_OpWord, ModIN.ofBits_bits, hi]
  exact congrArg Instr.andn (opWord_pack _ _ _ _ _ rfl (ModIN.ofBits_bits _))

theorem andnImm (w : ImmWord ModIN) : Statement (.andnImm w) := by
  intro h x hx
  cases hx
  have hi : w.m.imm = true := by simpa [Instr.immOk] using immOk_of_wf h
  have ho : wordOpcode (w.pack 0x023 w.m.bits) = 0x023 := wordOpcode_pack_ImmWord ..
  unfold decodeWith
  rw [ho]
  simp only [wordMod_pack_ImmWord, ModIN.ofBits_bits, hi]
  exact congrArg Instr.andnImm (immWord_pack _ _ _ _ _ rfl (ModIN.ofBits_bits _))

theorem not (w : OpWord ModIN) : Statement (.not w) := by
  intro h x hx
  cases hx
  have ho : wordOpcode (w.pack 0x024 w.m.bits) = 0x024 := wordOpcode_pack_OpWord ..
  unfold decodeWith
  rw [ho]
  exact congrArg Instr.not (opWord_pack _ _ _ _ _ rfl (ModIN.ofBits_bits _))

theorem shl (w : OpWord ModIN) : Statement (.shl w) := by
  intro h x hx
  cases hx
  have hi : w.m.imm = false := by simpa [Instr.immOk] using immOk_of_wf h
  have ho : wordOpcode (w.pack 0x025 w.m.bits) = 0x025 := wordOpcode_pack_OpWord ..
  unfold decodeWith
  rw [ho]
  simp only [wordMod_pack_OpWord, ModIN.ofBits_bits, hi]
  exact congrArg Instr.shl (opWord_pack _ _ _ _ _ rfl (ModIN.ofBits_bits _))

theorem shlImm (w : ImmWord ModIN) : Statement (.shlImm w) := by
  intro h x hx
  cases hx
  have hi : w.m.imm = true := by simpa [Instr.immOk] using immOk_of_wf h
  have ho : wordOpcode (w.pack 0x025 w.m.bits) = 0x025 := wordOpcode_pack_ImmWord ..
  unfold decodeWith
  rw [ho]
  simp only [wordMod_pack_ImmWord, ModIN.ofBits_bits, hi]
  exact congrArg Instr.shlImm (immWord_pack _ _ _ _ _ rfl (ModIN.ofBits_bits _))

theorem shr (w : OpWord ModIN) : Statement (.shr w) := by
  intro h x hx
  cases hx
  have hi : w.m.imm = false := by simpa [Instr.immOk] using immOk_of_wf h
  have ho : wordOpcode (w.pack 0x026 w.m.bits) = 0x026 := wordOpcode_pack_OpWord ..
  unfold decodeWith
  rw [ho]
  simp only [wordMod_pack_OpWord, ModIN.ofBits_bits, hi]
  exact congrArg Instr.shr (opWord_pack _ _ _ _ _ rfl (ModIN.ofBits_bits _))

theorem shrImm (w : ImmWord ModIN) : Statement (.shrImm w) := by
  intro h x hx
  cases hx
  have hi : w.m.imm = true := by simpa [Instr.immOk] using immOk_of_wf h
  have ho : wordOpcode (w.pack 0x026 w.m.bits) = 0x026 := wordOpcode_pack_ImmWord ..
  unfold decodeWith
  rw [ho]
  simp only [wordMod_pack_ImmWord, ModIN.ofBits_bits, hi]
  exact congrArg Instr.shrImm (immWord_pack _ _ _ _ _ rfl (ModIN.ofBits_bits _))

theorem rotl (w : OpWord ModIN) : Statement (.rotl w) := by
  intro h x hx
  cases hx
  have hi : w.m.imm = false := by simpa [Instr.immOk] using immOk_of_wf h
  have ho : wordOpcode (w.pack 0x027 w.m.bits) = 0x027 := wordOpcode_pack_OpWord ..
  unfold decodeWith
  rw [ho]
  simp only [wordMod_pack_OpWord, ModIN.ofBits_bits, hi]
  exact congrArg Instr.rotl (opWord_pack _ _ _ _ _ rfl (ModIN.ofBits_bits _))

theorem rotlImm (w : ImmWord ModIN) : Statement (.rotlImm w) := by
  intro h x hx
  cases hx
  have hi : w.m.imm = true := by simpa [Instr.immOk] using immOk_of_wf h
  have ho : wordOpcode (w.pack 0x027 w.m.bits) = 0x027 := wordOpcode_pack_ImmWord ..
  unfold decodeWith
  rw [ho]
  simp only [wordMod_pack_ImmWord, ModIN.ofBits_bits, hi]
  exact congrArg Instr.rotlImm (immWord_pack _ _ _ _ _ rfl (ModIN.ofBits_bits _))

theorem bfext (w : OpWord ModIN) : Statement (.bfext w) := by
  intro h x hx
  cases hx
  have hi : w.m.imm = false := by simpa [Instr.immOk] using immOk_of_wf h
  have ho : wordOpcode (w.pack 0x028 w.m.bits) = 0x028 := wordOpcode_pack_OpWord ..
  unfold decodeWith
  rw [ho]
  simp only [wordMod_pack_OpWord, ModIN.ofBits_bits, hi]
  exact congrArg Instr.bfext (opWord_pack _ _ _ _ _ rfl (ModIN.ofBits_bits _))

theorem bfextImm (w : ImmWord ModIN) : Statement (.bfextImm w) := by
  intro h x hx
  cases hx
  have hi : w.m.imm = true := by simpa [Instr.immOk] using immOk_of_wf h
  have ho : wordOpcode (w.pack 0x028 w.m.bits) = 0x028 := wordOpcode_pack_ImmWord ..
  unfold decodeWith
  rw [ho]
  simp only [wordMod_pack_ImmWord, ModIN.ofBits_bits, hi]
  exact congrArg Instr.bfextImm (immWord_pack _ _ _ _ _ rfl (ModIN.ofBits_bits _))

theorem bfins (w : OpWord ModIN) : Statement (.bfins w) := by
  intro h x hx
  cases hx
  have ho : wordOpcode (w.pack 0x029 w.m.bits) = 0x029 := wordOpcode_pack_OpWord ..
  unfold decodeWith
  rw [ho]
  exact congrArg Instr.bfins (opWord_pack _ _ _ _ _ rfl (ModIN.ofBits_bits _))

theorem popc (w : OpWord ModIN) : Statement (.popc w) := by
  intro h x hx
  cases hx
  have ho : wordOpcode (w.pack 0x02A w.m.bits) = 0x02A := wordOpcode_pack_OpWord ..
  unfold decodeWith
  rw [ho]
  exact congrArg Instr.popc (opWord_pack _ _ _ _ _ rfl (ModIN.ofBits_bits _))

theorem clz (w : OpWord ModIN) : Statement (.clz w) := by
  intro h x hx
  cases hx
  have ho : wordOpcode (w.pack 0x02B w.m.bits) = 0x02B := wordOpcode_pack_OpWord ..
  unfold decodeWith
  rw [ho]
  exact congrArg Instr.clz (opWord_pack _ _ _ _ _ rfl (ModIN.ofBits_bits _))

theorem brev (w : OpWord ModIN) : Statement (.brev w) := by
  intro h x hx
  cases hx
  have ho : wordOpcode (w.pack 0x02C w.m.bits) = 0x02C := wordOpcode_pack_OpWord ..
  unfold decodeWith
  rw [ho]
  exact congrArg Instr.brev (opWord_pack _ _ _ _ _ rfl (ModIN.ofBits_bits _))

theorem sel (w : OpWord ModIN) : Statement (.sel w) := by
  intro h x hx
  cases hx
  have ho : wordOpcode (w.pack 0x02D w.m.bits) = 0x02D := wordOpcode_pack_OpWord ..
  unfold decodeWith
  rw [ho]
  exact congrArg Instr.sel (opWord_pack _ _ _ _ _ rfl (ModIN.ofBits_bits _))

theorem mov (w : OpWord ModIN) : Statement (.mov w) := by
  intro h x hx
  cases hx
  have hi : w.m.imm = false := by simpa [Instr.immOk] using immOk_of_wf h
  have ho : wordOpcode (w.pack 0x02E w.m.bits) = 0x02E := wordOpcode_pack_OpWord ..
  unfold decodeWith
  rw [ho]
  simp only [wordMod_pack_OpWord, ModIN.ofBits_bits, hi]
  exact congrArg Instr.mov (opWord_pack _ _ _ _ _ rfl (ModIN.ofBits_bits _))

theorem movImm (w : ImmWord ModIN) : Statement (.movImm w) := by
  intro h x hx
  cases hx
  have hi : w.m.imm = true := by simpa [Instr.immOk] using immOk_of_wf h
  have ho : wordOpcode (w.pack 0x02E w.m.bits) = 0x02E := wordOpcode_pack_ImmWord ..
  unfold decodeWith
  rw [ho]
  simp only [wordMod_pack_ImmWord, ModIN.ofBits_bits, hi]
  exact congrArg Instr.movImm (immWord_pack _ _ _ _ _ rfl (ModIN.ofBits_bits _))

theorem lea (w : OpWord ModIN) : Statement (.lea w) := by
  intro h x hx
  cases hx
  have ho : wordOpcode (w.pack 0x02F w.m.bits) = 0x02F := wordOpcode_pack_OpWord ..
  unfold decodeWith
  rw [ho]
  exact congrArg Instr.lea (opWord_pack _ _ _ _ _ rfl (ModIN.ofBits_bits _))

theorem icmp (w : OpWord ModCM) : Statement (.icmp w) := by
  intro h x hx
  cases hx
  have hi : w.m.imm = false := by simpa [Instr.immOk] using immOk_of_wf h
  have ho : wordOpcode (w.pack 0x030 w.m.bits) = 0x030 := wordOpcode_pack_OpWord ..
  unfold decodeWith
  rw [ho]
  simp only [wordMod_pack_OpWord, ModCM.ofBits_bits, hi]
  exact congrArg Instr.icmp (opWord_pack _ _ _ _ _ rfl (ModCM.ofBits_bits _))

theorem icmpImm (w : ImmWord ModCM) : Statement (.icmpImm w) := by
  intro h x hx
  cases hx
  have hi : w.m.imm = true := by simpa [Instr.immOk] using immOk_of_wf h
  have ho : wordOpcode (w.pack 0x030 w.m.bits) = 0x030 := wordOpcode_pack_ImmWord ..
  unfold decodeWith
  rw [ho]
  simp only [wordMod_pack_ImmWord, ModCM.ofBits_bits, hi]
  exact congrArg Instr.icmpImm (immWord_pack _ _ _ _ _ rfl (ModCM.ofBits_bits _))

theorem fcmp (w : OpWord ModCM) : Statement (.fcmp w) := by
  intro h x hx
  cases hx
  have ho : wordOpcode (w.pack 0x031 w.m.bits) = 0x031 := wordOpcode_pack_OpWord ..
  unfold decodeWith
  rw [ho]
  exact congrArg Instr.fcmp (opWord_pack _ _ _ _ _ rfl (ModCM.ofBits_bits _))

theorem pand (w : OpWord ModZ) : Statement (.pand w) := by
  intro h x hx
  cases hx
  have ho : wordOpcode (w.pack 0x032 w.m.bits) = 0x032 := wordOpcode_pack_OpWord ..
  unfold decodeWith
  rw [ho]
  exact congrArg Instr.pand (opWord_pack _ _ _ _ _ rfl (ModZ.ofBits_bits _))

theorem por (w : OpWord ModZ) : Statement (.por w) := by
  intro h x hx
  cases hx
  have ho : wordOpcode (w.pack 0x033 w.m.bits) = 0x033 := wordOpcode_pack_OpWord ..
  unfold decodeWith
  rw [ho]
  exact congrArg Instr.por (opWord_pack _ _ _ _ _ rfl (ModZ.ofBits_bits _))

theorem pxor (w : OpWord ModZ) : Statement (.pxor w) := by
  intro h x hx
  cases hx
  have ho : wordOpcode (w.pack 0x034 w.m.bits) = 0x034 := wordOpcode_pack_OpWord ..
  unfold decodeWith
  rw [ho]
  exact congrArg Instr.pxor (opWord_pack _ _ _ _ _ rfl (ModZ.ofBits_bits _))

theorem pnot (w : OpWord ModZ) : Statement (.pnot w) := by
  intro h x hx
  cases hx
  have ho : wordOpcode (w.pack 0x035 w.m.bits) = 0x035 := wordOpcode_pack_OpWord ..
  unfold decodeWith
  rw [ho]
  exact congrArg Instr.pnot (opWord_pack _ _ _ _ _ rfl (ModZ.ofBits_bits _))

theorem pmov (w : OpWord ModZ) : Statement (.pmov w) := by
  intro h x hx
  cases hx
  have ho : wordOpcode (w.pack 0x036 w.m.bits) = 0x036 := wordOpcode_pack_OpWord ..
  unfold decodeWith
  rw [ho]
  exact congrArg Instr.pmov (opWord_pack _ _ _ _ _ rfl (ModZ.ofBits_bits _))

theorem kset (w : OpWord ModZ) : Statement (.kset w) := by
  intro h x hx
  cases hx
  have hv := variantOk_of_wf h
  simp only [Instr.variantOk] at hv
  have ho : wordOpcode (w.pack 0x038 w.m.bits) = 0x038 := wordOpcode_pack_OpWord ..
  have ha : Operand.ofCode (codeA (w.pack 0x038 w.m.bits)) = w.a := by simp [OpWord.pack]
  unfold decodeWith
  rw [ho]
  simp only [ha]
  split at hv
  · cases hv
  rename_i hk
  try (split; · rename_i i e; exact absurd e (hk i))
  exact congrArg Instr.kset (opWord_pack _ _ _ _ _ rfl (ModZ.ofBits_bits _))

theorem ksetCopy (w : OpWord ModZ) : Statement (.ksetCopy w) := by
  intro h x hx
  cases hx
  have hv := variantOk_of_wf h
  simp only [Instr.variantOk] at hv
  have ho : wordOpcode (w.pack 0x038 w.m.bits) = 0x038 := wordOpcode_pack_OpWord ..
  have ha : Operand.ofCode (codeA (w.pack 0x038 w.m.bits)) = w.a := by simp [OpWord.pack]
  unfold decodeWith
  rw [ho]
  simp only [ha]
  split at hv
  swap
  · cases hv
  rename_i i e
  try simp only [e]
  exact congrArg Instr.ksetCopy (opWord_pack _ _ _ _ _ rfl (ModZ.ofBits_bits _))

theorem kget (w : OpWord ModZ) : Statement (.kget w) := by
  intro h x hx
  cases hx
  have ho : wordOpcode (w.pack 0x039 w.m.bits) = 0x039 := wordOpcode_pack_OpWord ..
  unfold decodeWith
  rw [ho]
  exact congrArg Instr.kget (opWord_pack _ _ _ _ _ rfl (ModZ.ofBits_bits _))

theorem fadd (w : OpWord ModFL) : Statement (.fadd w) := by
  intro h x hx
  cases hx
  have ho : wordOpcode (w.pack 0x040 w.m.bits) = 0x040 := wordOpcode_pack_OpWord ..
  unfold decodeWith
  rw [ho]
  exact congrArg Instr.fadd (opWord_pack _ _ _ _ _ rfl (ModFL.ofBits_bits _))

theorem fsub (w : OpWord ModFL) : Statement (.fsub w) := by
  intro h x hx
  cases hx
  have ho : wordOpcode (w.pack 0x041 w.m.bits) = 0x041 := wordOpcode_pack_OpWord ..
  unfold decodeWith
  rw [ho]
  exact congrArg Instr.fsub (opWord_pack _ _ _ _ _ rfl (ModFL.ofBits_bits _))

theorem fmul (w : OpWord ModFL) : Statement (.fmul w) := by
  intro h x hx
  cases hx
  have ho : wordOpcode (w.pack 0x042 w.m.bits) = 0x042 := wordOpcode_pack_OpWord ..
  unfold decodeWith
  rw [ho]
  exact congrArg Instr.fmul (opWord_pack _ _ _ _ _ rfl (ModFL.ofBits_bits _))

theorem ffma (w : OpWord ModFL) : Statement (.ffma w) := by
  intro h x hx
  cases hx
  have ho : wordOpcode (w.pack 0x043 w.m.bits) = 0x043 := wordOpcode_pack_OpWord ..
  unfold decodeWith
  rw [ho]
  exact congrArg Instr.ffma (opWord_pack _ _ _ _ _ rfl (ModFL.ofBits_bits _))

theorem fmin (w : OpWord ModFL) : Statement (.fmin w) := by
  intro h x hx
  cases hx
  have ho : wordOpcode (w.pack 0x044 w.m.bits) = 0x044 := wordOpcode_pack_OpWord ..
  unfold decodeWith
  rw [ho]
  exact congrArg Instr.fmin (opWord_pack _ _ _ _ _ rfl (ModFL.ofBits_bits _))

theorem fmax (w : OpWord ModFL) : Statement (.fmax w) := by
  intro h x hx
  cases hx
  have ho : wordOpcode (w.pack 0x045 w.m.bits) = 0x045 := wordOpcode_pack_OpWord ..
  unfold decodeWith
  rw [ho]
  exact congrArg Instr.fmax (opWord_pack _ _ _ _ _ rfl (ModFL.ofBits_bits _))

theorem fabs (w : OpWord ModFL) : Statement (.fabs w) := by
  intro h x hx
  cases hx
  have ho : wordOpcode (w.pack 0x046 w.m.bits) = 0x046 := wordOpcode_pack_OpWord ..
  unfold decodeWith
  rw [ho]
  exact congrArg Instr.fabs (opWord_pack _ _ _ _ _ rfl (ModFL.ofBits_bits _))

theorem fneg (w : OpWord ModFL) : Statement (.fneg w) := by
  intro h x hx
  cases hx
  have ho : wordOpcode (w.pack 0x047 w.m.bits) = 0x047 := wordOpcode_pack_OpWord ..
  unfold decodeWith
  rw [ho]
  exact congrArg Instr.fneg (opWord_pack _ _ _ _ _ rfl (ModFL.ofBits_bits _))

theorem frcp (w : OpWord ModFL) : Statement (.frcp w) := by
  intro h x hx
  cases hx
  have ho : wordOpcode (w.pack 0x048 w.m.bits) = 0x048 := wordOpcode_pack_OpWord ..
  unfold decodeWith
  rw [ho]
  exact congrArg Instr.frcp (opWord_pack _ _ _ _ _ rfl (ModFL.ofBits_bits _))

theorem frsq (w : OpWord ModFL) : Statement (.frsq w) := by
  intro h x hx
  cases hx
  have ho : wordOpcode (w.pack 0x049 w.m.bits) = 0x049 := wordOpcode_pack_OpWord ..
  unfold decodeWith
  rw [ho]
  exact congrArg Instr.frsq (opWord_pack _ _ _ _ _ rfl (ModFL.ofBits_bits _))

theorem fsqrt (w : OpWord ModFL) : Statement (.fsqrt w) := by
  intro h x hx
  cases hx
  have ho : wordOpcode (w.pack 0x04A w.m.bits) = 0x04A := wordOpcode_pack_OpWord ..
  unfold decodeWith
  rw [ho]
  exact congrArg Instr.fsqrt (opWord_pack _ _ _ _ _ rfl (ModFL.ofBits_bits _))

theorem fdiv (w : OpWord ModFL) : Statement (.fdiv w) := by
  intro h x hx
  cases hx
  have ho : wordOpcode (w.pack 0x04B w.m.bits) = 0x04B := wordOpcode_pack_OpWord ..
  unfold decodeWith
  rw [ho]
  exact congrArg Instr.fdiv (opWord_pack _ _ _ _ _ rfl (ModFL.ofBits_bits _))

theorem fexp2 (w : OpWord ModFL) : Statement (.fexp2 w) := by
  intro h x hx
  cases hx
  have ho : wordOpcode (w.pack 0x04C w.m.bits) = 0x04C := wordOpcode_pack_OpWord ..
  unfold decodeWith
  rw [ho]
  exact congrArg Instr.fexp2 (opWord_pack _ _ _ _ _ rfl (ModFL.ofBits_bits _))

theorem flog2 (w : OpWord ModFL) : Statement (.flog2 w) := by
  intro h x hx
  cases hx
  have ho : wordOpcode (w.pack 0x04D w.m.bits) = 0x04D := wordOpcode_pack_OpWord ..
  unfold decodeWith
  rw [ho]
  exact congrArg Instr.flog2 (opWord_pack _ _ _ _ _ rfl (ModFL.ofBits_bits _))

theorem fsin (w : OpWord ModFL) : Statement (.fsin w) := by
  intro h x hx
  cases hx
  have ho : wordOpcode (w.pack 0x04E w.m.bits) = 0x04E := wordOpcode_pack_OpWord ..
  unfold decodeWith
  rw [ho]
  exact congrArg Instr.fsin (opWord_pack _ _ _ _ _ rfl (ModFL.ofBits_bits _))

theorem fcos (w : OpWord ModFL) : Statement (.fcos w) := by
  intro h x hx
  cases hx
  have ho : wordOpcode (w.pack 0x04F w.m.bits) = 0x04F := wordOpcode_pack_OpWord ..
  unfold decodeWith
  rw [ho]
  exact congrArg Instr.fcos (opWord_pack _ _ _ _ _ rfl (ModFL.ofBits_bits _))

theorem ffrac (w : OpWord ModFL) : Statement (.ffrac w) := by
  intro h x hx
  cases hx
  have ho : wordOpcode (w.pack 0x050 w.m.bits) = 0x050 := wordOpcode_pack_OpWord ..
  unfold decodeWith
  rw [ho]
  exact congrArg Instr.ffrac (opWord_pack _ _ _ _ _ rfl (ModFL.ofBits_bits _))

theorem frnd (w : OpWord ModFL) : Statement (.frnd w) := by
  intro h x hx
  cases hx
  have ho : wordOpcode (w.pack 0x051 w.m.bits) = 0x051 := wordOpcode_pack_OpWord ..
  unfold decodeWith
  rw [ho]
  exact congrArg Instr.frnd (opWord_pack _ _ _ _ _ rfl (ModFL.ofBits_bits _))

theorem fclamp (w : OpWord ModFL) : Statement (.fclamp w) := by
  intro h x hx
  cases hx
  have ho : wordOpcode (w.pack 0x052 w.m.bits) = 0x052 := wordOpcode_pack_OpWord ..
  unfold decodeWith
  rw [ho]
  exact congrArg Instr.fclamp (opWord_pack _ _ _ _ _ rfl (ModFL.ofBits_bits _))

theorem fscale (w : OpWord ModFL) : Statement (.fscale w) := by
  intro h x hx
  cases hx
  have ho : wordOpcode (w.pack 0x053 w.m.bits) = 0x053 := wordOpcode_pack_OpWord ..
  unfold decodeWith
  rw [ho]
  exact congrArg Instr.fscale (opWord_pack _ _ _ _ _ rfl (ModFL.ofBits_bits _))

theorem cvtf (w : OpWord ModCF) : Statement (.cvtf w) := by
  intro h x hx
  cases hx
  have ho : wordOpcode (w.pack 0x060 w.m.bits) = 0x060 := wordOpcode_pack_OpWord ..
  unfold decodeWith
  rw [ho]
  exact congrArg Instr.cvtf (opWord_pack _ _ _ _ _ rfl (ModCF.ofBits_bits _))

theorem cvti (w : OpWord ModCI) : Statement (.cvti w) := by
  intro h x hx
  cases hx
  have ho : wordOpcode (w.pack 0x061 w.m.bits) = 0x061 := wordOpcode_pack_OpWord ..
  unfold decodeWith
  rw [ho]
  exact congrArg Instr.cvti (opWord_pack _ _ _ _ _ rfl (ModCI.ofBits_bits _))

theorem qnt (w : OpWord ModQS) : Statement (.qnt w) := by
  intro h x hx
  cases hx
  have ho : wordOpcode (w.pack 0x062 w.m.bits) = 0x062 := wordOpcode_pack_OpWord ..
  unfold decodeWith
  rw [ho]
  exact congrArg Instr.qnt (opWord_pack _ _ _ _ _ rfl (ModQS.ofBits_bits _))

theorem dqnt (w : OpWord ModQS) : Statement (.dqnt w) := by
  intro h x hx
  cases hx
  have ho : wordOpcode (w.pack 0x063 w.m.bits) = 0x063 := wordOpcode_pack_OpWord ..
  unfold decodeWith
  rw [ho]
  exact congrArg Instr.dqnt (opWord_pack _ _ _ _ _ rfl (ModQS.ofBits_bits _))

theorem sclx (w : OpWord ModQS) : Statement (.sclx w) := by
  intro h x hx
  cases hx
  have ho : wordOpcode (w.pack 0x064 w.m.bits) = 0x064 := wordOpcode_pack_OpWord ..
  unfold decodeWith
  rw [ho]
  exact congrArg Instr.sclx (opWord_pack _ _ _ _ _ rfl (ModQS.ofBits_bits _))

theorem sclenc (w : OpWord ModQS) : Statement (.sclenc w) := by
  intro h x hx
  cases hx
  have ho : wordOpcode (w.pack 0x065 w.m.bits) = 0x065 := wordOpcode_pack_OpWord ..
  unfold decodeWith
  rw [ho]
  exact congrArg Instr.sclenc (opWord_pack _ _ _ _ _ rfl (ModQS.ofBits_bits _))

theorem dot8 (w : OpWord ModDT) : Statement (.dot8 w) := by
  intro h x hx
  cases hx
  have ho : wordOpcode (w.pack 0x066 w.m.bits) = 0x066 := wordOpcode_pack_OpWord ..
  unfold decodeWith
  rw [ho]
  exact congrArg Instr.dot8 (opWord_pack _ _ _ _ _ rfl (ModDT.ofBits_bits _))

theorem dot4 (w : OpWord ModDT) : Statement (.dot4 w) := by
  intro h x hx
  cases hx
  have ho : wordOpcode (w.pack 0x067 w.m.bits) = 0x067 := wordOpcode_pack_OpWord ..
  unfold decodeWith
  rw [ho]
  exact congrArg Instr.dot4 (opWord_pack _ _ _ _ _ rfl (ModDT.ofBits_bits _))

theorem hpack (w : OpWord ModZ) : Statement (.hpack w) := by
  intro h x hx
  cases hx
  have ho : wordOpcode (w.pack 0x068 w.m.bits) = 0x068 := wordOpcode_pack_OpWord ..
  unfold decodeWith
  rw [ho]
  exact congrArg Instr.hpack (opWord_pack _ _ _ _ _ rfl (ModZ.ofBits_bits _))

theorem hunpk (w : OpWord ModZ) : Statement (.hunpk w) := by
  intro h x hx
  cases hx
  have ho : wordOpcode (w.pack 0x069 w.m.bits) = 0x069 := wordOpcode_pack_OpWord ..
  unfold decodeWith
  rw [ho]
  exact congrArg Instr.hunpk (opWord_pack _ _ _ _ _ rfl (ModZ.ofBits_bits _))

theorem ld (w : MemWord ModMM) : Statement (.ld w) := by
  intro h x hx
  cases hx
  have ho : wordOpcode (w.pack 0x100 w.m.bits) = 0x100 := wordOpcode_pack_MemWord ..
  unfold decodeWith
  rw [ho]
  exact congrArg Instr.ld (memWord_pack _ _ _ _ _ rfl (ModMM.ofBits_bits _))

theorem st (w : MemWord ModMM) : Statement (.st w) := by
  intro h x hx
  cases hx
  have ho : wordOpcode (w.pack 0x101 w.m.bits) = 0x101 := wordOpcode_pack_MemWord ..
  unfold decodeWith
  rw [ho]
  exact congrArg Instr.st (memWord_pack _ _ _ _ _ rfl (ModMM.ofBits_bits _))

theorem ldro (w : MemWord ModMM) : Statement (.ldro w) := by
  intro h x hx
  cases hx
  have ho : wordOpcode (w.pack 0x102 w.m.bits) = 0x102 := wordOpcode_pack_MemWord ..
  unfold decodeWith
  rw [ho]
  exact congrArg Instr.ldro (memWord_pack _ _ _ _ _ rfl (ModMM.ofBits_bits _))

theorem smp (w : MemWord ModMM) : Statement (.smp w) := by
  intro h x hx
  cases hx
  have ho : wordOpcode (w.pack 0x103 w.m.bits) = 0x103 := wordOpcode_pack_MemWord ..
  unfold decodeWith
  rw [ho]
  exact congrArg Instr.smp (memWord_pack _ _ _ _ _ rfl (ModMM.ofBits_bits _))

theorem smpl (w : MemWord ModMM) : Statement (.smpl w) := by
  intro h x hx
  cases hx
  have ho : wordOpcode (w.pack 0x104 w.m.bits) = 0x104 := wordOpcode_pack_MemWord ..
  unfold decodeWith
  rw [ho]
  exact congrArg Instr.smpl (memWord_pack _ _ _ _ _ rfl (ModMM.ofBits_bits _))

theorem ldbr (w : RawMemWord ModMM) : Statement (.ldbr w) := by
  intro h x hx
  cases hx
  have ho : wordOpcode (w.pack 0x105 w.m.bits) = 0x105 := wordOpcode_pack_RawMemWord ..
  unfold decodeWith
  rw [ho]
  exact congrArg Instr.ldbr (rawMemWord_pack _ _ _ _ _ rfl (ModMM.ofBits_bits _))

theorem pref (w : MemWord ModMM) : Statement (.pref w) := by
  intro h x hx
  cases hx
  have ho : wordOpcode (w.pack 0x106 w.m.bits) = 0x106 := wordOpcode_pack_MemWord ..
  unfold decodeWith
  rw [ho]
  exact congrArg Instr.pref (memWord_pack _ _ _ _ _ rfl (ModMM.ofBits_bits _))

theorem resh (w : MemWord ModMM) : Statement (.resh w) := by
  intro h x hx
  cases hx
  have ho : wordOpcode (w.pack 0x107 w.m.bits) = 0x107 := wordOpcode_pack_MemWord ..
  unfold decodeWith
  rw [ho]
  exact congrArg Instr.resh (memWord_pack _ _ _ _ _ rfl (ModMM.ofBits_bits _))

theorem aadd (w : MemWord ModAT) : Statement (.aadd w) := by
  intro h x hx
  cases hx
  have ho : wordOpcode (w.pack 0x108 w.m.bits) = 0x108 := wordOpcode_pack_MemWord ..
  unfold decodeWith
  rw [ho]
  exact congrArg Instr.aadd (memWord_pack _ _ _ _ _ rfl (ModAT.ofBits_bits _))

theorem amin (w : MemWord ModAT) : Statement (.amin w) := by
  intro h x hx
  cases hx
  have ho : wordOpcode (w.pack 0x109 w.m.bits) = 0x109 := wordOpcode_pack_MemWord ..
  unfold decodeWith
  rw [ho]
  exact congrArg Instr.amin (memWord_pack _ _ _ _ _ rfl (ModAT.ofBits_bits _))

theorem amax (w : MemWord ModAT) : Statement (.amax w) := by
  intro h x hx
  cases hx
  have ho : wordOpcode (w.pack 0x10A w.m.bits) = 0x10A := wordOpcode_pack_MemWord ..
  unfold decodeWith
  rw [ho]
  exact congrArg Instr.amax (memWord_pack _ _ _ _ _ rfl (ModAT.ofBits_bits _))

theorem aand (w : MemWord ModAT) : Statement (.aand w) := by
  intro h x hx
  cases hx
  have ho : wordOpcode (w.pack 0x10B w.m.bits) = 0x10B := wordOpcode_pack_MemWord ..
  unfold decodeWith
  rw [ho]
  exact congrArg Instr.aand (memWord_pack _ _ _ _ _ rfl (ModAT.ofBits_bits _))

theorem aor (w : MemWord ModAT) : Statement (.aor w) := by
  intro h x hx
  cases hx
  have ho : wordOpcode (w.pack 0x10C w.m.bits) = 0x10C := wordOpcode_pack_MemWord ..
  unfold decodeWith
  rw [ho]
  exact congrArg Instr.aor (memWord_pack _ _ _ _ _ rfl (ModAT.ofBits_bits _))

theorem axor (w : MemWord ModAT) : Statement (.axor w) := by
  intro h x hx
  cases hx
  have ho : wordOpcode (w.pack 0x10D w.m.bits) = 0x10D := wordOpcode_pack_MemWord ..
  unfold decodeWith
  rw [ho]
  exact congrArg Instr.axor (memWord_pack _ _ _ _ _ rfl (ModAT.ofBits_bits _))

theorem axchg (w : MemWord ModAT) : Statement (.axchg w) := by
  intro h x hx
  cases hx
  have ho : wordOpcode (w.pack 0x10E w.m.bits) = 0x10E := wordOpcode_pack_MemWord ..
  unfold decodeWith
  rw [ho]
  exact congrArg Instr.axchg (memWord_pack _ _ _ _ _ rfl (ModAT.ofBits_bits _))

theorem acas (w : MemWord ModAT) : Statement (.acas w) := by
  intro h x hx
  cases hx
  have ho : wordOpcode (w.pack 0x10F w.m.bits) = 0x10F := wordOpcode_pack_MemWord ..
  unfold decodeWith
  rw [ho]
  exact congrArg Instr.acas (memWord_pack _ _ _ _ _ rfl (ModAT.ofBits_bits _))

theorem redadd (w : MemWord ModAT) : Statement (.redadd w) := by
  intro h x hx
  cases hx
  have ho : wordOpcode (w.pack 0x110 w.m.bits) = 0x110 := wordOpcode_pack_MemWord ..
  unfold decodeWith
  rw [ho]
  exact congrArg Instr.redadd (memWord_pack _ _ _ _ _ rfl (ModAT.ofBits_bits _))

theorem redmin (w : MemWord ModAT) : Statement (.redmin w) := by
  intro h x hx
  cases hx
  have ho : wordOpcode (w.pack 0x111 w.m.bits) = 0x111 := wordOpcode_pack_MemWord ..
  unfold decodeWith
  rw [ho]
  exact congrArg Instr.redmin (memWord_pack _ _ _ _ _ rfl (ModAT.ofBits_bits _))

theorem redmax (w : MemWord ModAT) : Statement (.redmax w) := by
  intro h x hx
  cases hx
  have ho : wordOpcode (w.pack 0x112 w.m.bits) = 0x112 := wordOpcode_pack_MemWord ..
  unfold decodeWith
  rw [ho]
  exact congrArg Instr.redmax (memWord_pack _ _ _ _ _ rfl (ModAT.ofBits_bits _))

theorem redand (w : MemWord ModAT) : Statement (.redand w) := by
  intro h x hx
  cases hx
  have ho : wordOpcode (w.pack 0x113 w.m.bits) = 0x113 := wordOpcode_pack_MemWord ..
  unfold decodeWith
  rw [ho]
  exact congrArg Instr.redand (memWord_pack _ _ _ _ _ rfl (ModAT.ofBits_bits _))

theorem redor (w : MemWord ModAT) : Statement (.redor w) := by
  intro h x hx
  cases hx
  have ho : wordOpcode (w.pack 0x114 w.m.bits) = 0x114 := wordOpcode_pack_MemWord ..
  unfold decodeWith
  rw [ho]
  exact congrArg Instr.redor (memWord_pack _ _ _ _ _ rfl (ModAT.ofBits_bits _))

theorem redxor (w : MemWord ModAT) : Statement (.redxor w) := by
  intro h x hx
  cases hx
  have ho : wordOpcode (w.pack 0x115 w.m.bits) = 0x115 := wordOpcode_pack_MemWord ..
  unfold decodeWith
  rw [ho]
  exact congrArg Instr.redxor (memWord_pack _ _ _ _ _ rfl (ModAT.ofBits_bits _))

theorem waita (w : MemWord ModWA) : Statement (.waita w) := by
  intro h x hx
  cases hx
  have hi : w.m.timed = false := by simpa [Instr.variantOk] using variantOk_of_wf h
  have ho : wordOpcode (w.pack 0x118 w.m.bits) = 0x118 := wordOpcode_pack_MemWord ..
  unfold decodeWith
  rw [ho]
  simp only [wordMod_pack_MemWord, ModWA.ofBits_bits, hi]
  exact congrArg Instr.waita (memWord_pack _ _ _ _ _ rfl (ModWA.ofBits_bits _))

theorem waitaTo (w : TimedMemWord ModWA) : Statement (.waitaTo w) := by
  intro h x hx
  cases hx
  have hi : w.m.timed = true := by simpa [Instr.variantOk] using variantOk_of_wf h
  have ho : wordOpcode (w.pack 0x118 w.m.bits) = 0x118 := wordOpcode_pack_TimedMemWord ..
  unfold decodeWith
  rw [ho]
  simp only [wordMod_pack_TimedMemWord, ModWA.ofBits_bits, hi]
  exact congrArg Instr.waitaTo (timedMemWord_pack _ _ _ _ _ rfl (ModWA.ofBits_bits _))

theorem fence (w : OpWord ModFN) : Statement (.fence w) := by
  intro h x hx
  cases hx
  have ho : wordOpcode (w.pack 0x119 w.m.bits) = 0x119 := wordOpcode_pack_OpWord ..
  unfold decodeWith
  rw [ho]
  exact congrArg Instr.fence (opWord_pack _ _ _ _ _ rfl (ModFN.ofBits_bits _))

theorem xfence (w : OpWord ModXF) : Statement (.xfence w) := by
  intro h x hx
  cases hx
  have ho : wordOpcode (w.pack 0x11A w.m.bits) = 0x11A := wordOpcode_pack_OpWord ..
  unfold decodeWith
  rw [ho]
  exact congrArg Instr.xfence (opWord_pack _ _ _ _ _ rfl (ModXF.ofBits_bits _))

theorem cpy1 (w : CopyWord ModCP) : Statement (.cpy1 w) := by
  intro h x hx
  cases hx
  have ho : wordOpcode (w.pack 0x120 w.m.bits) = 0x120 := wordOpcode_pack_CopyWord ..
  unfold decodeWith
  rw [ho]
  exact congrArg Instr.cpy1 (copyWord_pack _ _ _ _ _ rfl (ModCP.ofBits_bits _))

theorem cpy2 (w : CopyWord ModCP) : Statement (.cpy2 w) := by
  intro h x hx
  cases hx
  have ho : wordOpcode (w.pack 0x121 w.m.bits) = 0x121 := wordOpcode_pack_CopyWord ..
  unfold decodeWith
  rw [ho]
  exact congrArg Instr.cpy2 (copyWord_pack _ _ _ _ _ rfl (ModCP.ofBits_bits _))

theorem spwf (w : OpWord ModZ) : Statement (.spwf w) := by
  intro h x hx
  cases hx
  have ho : wordOpcode (w.pack 0x122 w.m.bits) = 0x122 := wordOpcode_pack_OpWord ..
  unfold decodeWith
  rw [ho]
  exact congrArg Instr.spwf (opWord_pack _ _ _ _ _ rfl (ModZ.ofBits_bits _))

theorem qpush (w : OpWord ModQU) : Statement (.qpush w) := by
  intro h x hx
  cases hx
  have ho : wordOpcode (w.pack 0x123 w.m.bits) = 0x123 := wordOpcode_pack_OpWord ..
  unfold decodeWith
  rw [ho]
  exact congrArg Instr.qpush (opWord_pack _ _ _ _ _ rfl (ModQU.ofBits_bits _))

theorem qpop (w : OpWord ModQU) : Statement (.qpop w) := by
  intro h x hx
  cases hx
  have ho : wordOpcode (w.pack 0x124 w.m.bits) = 0x124 := wordOpcode_pack_OpWord ..
  unfold decodeWith
  rw [ho]
  exact congrArg Instr.qpop (opWord_pack _ _ _ _ _ rfl (ModQU.ofBits_bits _))

theorem tmove (w : OpWord ModTM) : Statement (.tmove w) := by
  intro h x hx
  cases hx
  have ho : wordOpcode (w.pack 0x125 w.m.bits) = 0x125 := wordOpcode_pack_OpWord ..
  unfold decodeWith
  rw [ho]
  exact congrArg Instr.tmove (opWord_pack _ _ _ _ _ rfl (ModTM.ofBits_bits _))

theorem shfi (w : OpWord ModXL) : Statement (.shfi w) := by
  intro h x hx
  cases hx
  have ho : wordOpcode (w.pack 0x1C0 w.m.bits) = 0x1C0 := wordOpcode_pack_OpWord ..
  unfold decodeWith
  rw [ho]
  exact congrArg Instr.shfi (opWord_pack _ _ _ _ _ rfl (ModXL.ofBits_bits _))

theorem shfx (w : OpWord ModXL) : Statement (.shfx w) := by
  intro h x hx
  cases hx
  have ho : wordOpcode (w.pack 0x1C1 w.m.bits) = 0x1C1 := wordOpcode_pack_OpWord ..
  unfold decodeWith
  rw [ho]
  exact congrArg Instr.shfx (opWord_pack _ _ _ _ _ rfl (ModXL.ofBits_bits _))

theorem shfu (w : OpWord ModXL) : Statement (.shfu w) := by
  intro h x hx
  cases hx
  have ho : wordOpcode (w.pack 0x1C2 w.m.bits) = 0x1C2 := wordOpcode_pack_OpWord ..
  unfold decodeWith
  rw [ho]
  exact congrArg Instr.shfu (opWord_pack _ _ _ _ _ rfl (ModXL.ofBits_bits _))

theorem shfd (w : OpWord ModXL) : Statement (.shfd w) := by
  intro h x hx
  cases hx
  have ho : wordOpcode (w.pack 0x1C3 w.m.bits) = 0x1C3 := wordOpcode_pack_OpWord ..
  unfold decodeWith
  rw [ho]
  exact congrArg Instr.shfd (opWord_pack _ _ _ _ _ rfl (ModXL.ofBits_bits _))

theorem ballot (w : OpWord ModXL) : Statement (.ballot w) := by
  intro h x hx
  cases hx
  have ho : wordOpcode (w.pack 0x1C4 w.m.bits) = 0x1C4 := wordOpcode_pack_OpWord ..
  unfold decodeWith
  rw [ho]
  exact congrArg Instr.ballot (opWord_pack _ _ _ _ _ rfl (ModXL.ofBits_bits _))

theorem vote (w : OpWord ModXL) : Statement (.vote w) := by
  intro h x hx
  cases hx
  have ho : wordOpcode (w.pack 0x1C5 w.m.bits) = 0x1C5 := wordOpcode_pack_OpWord ..
  unfold decodeWith
  rw [ho]
  exact congrArg Instr.vote (opWord_pack _ _ _ _ _ rfl (ModXL.ofBits_bits _))

theorem elect (w : OpWord ModXL) : Statement (.elect w) := by
  intro h x hx
  cases hx
  have ho : wordOpcode (w.pack 0x1C6 w.m.bits) = 0x1C6 := wordOpcode_pack_OpWord ..
  unfold decodeWith
  rw [ho]
  exact congrArg Instr.elect (opWord_pack _ _ _ _ _ rfl (ModXL.ofBits_bits _))

theorem lred (w : OpWord ModXL) : Statement (.lred w) := by
  intro h x hx
  cases hx
  have ho : wordOpcode (w.pack 0x1C7 w.m.bits) = 0x1C7 := wordOpcode_pack_OpWord ..
  unfold decodeWith
  rw [ho]
  exact congrArg Instr.lred (opWord_pack _ _ _ _ _ rfl (ModXL.ofBits_bits _))

theorem mxldb (w : OpWord ModZ) : Statement (.mxldb w) := by
  intro h x hx
  cases hx
  have ho : wordOpcode (w.pack 0x200 w.m.bits) = 0x200 := wordOpcode_pack_OpWord ..
  unfold decodeWith
  rw [ho]
  exact congrArg Instr.mxldb (opWord_pack _ _ _ _ _ rfl (ModZ.ofBits_bits _))

theorem mxop (w : OpWord ModZ) : Statement (.mxop w) := by
  intro h x hx
  cases hx
  have ho : wordOpcode (w.pack 0x201 w.m.bits) = 0x201 := wordOpcode_pack_OpWord ..
  unfold decodeWith
  rw [ho]
  exact congrArg Instr.mxop (opWord_pack _ _ _ _ _ rfl (ModZ.ofBits_bits _))

theorem mxq (w : OpWord ModZ) : Statement (.mxq w) := by
  intro h x hx
  cases hx
  have ho : wordOpcode (w.pack 0x202 w.m.bits) = 0x202 := wordOpcode_pack_OpWord ..
  unfold decodeWith
  rw [ho]
  exact congrArg Instr.mxq (opWord_pack _ _ _ _ _ rfl (ModZ.ofBits_bits _))

theorem mxdrop (w : OpWord ModZ) : Statement (.mxdrop w) := by
  intro h x hx
  cases hx
  have ho : wordOpcode (w.pack 0x203 w.m.bits) = 0x203 := wordOpcode_pack_OpWord ..
  unfold decodeWith
  rw [ho]
  exact congrArg Instr.mxdrop (opWord_pack _ _ _ _ _ rfl (ModZ.ofBits_bits _))

theorem fwork (w : OpWord ModZ) : Statement (.fwork w) := by
  intro h x hx
  cases hx
  have ho : wordOpcode (w.pack 0x210 w.m.bits) = 0x210 := wordOpcode_pack_OpWord ..
  unfold decodeWith
  rw [ho]
  exact congrArg Instr.fwork (opWord_pack _ _ _ _ _ rfl (ModZ.ofBits_bits _))

theorem tlacq (w : RawDWord ModZ) : Statement (.tlacq w) := by
  intro h x hx
  cases hx
  have ho : wordOpcode (w.pack 0x218 w.m.bits) = 0x218 := wordOpcode_pack_RawDWord ..
  unfold decodeWith
  rw [ho]
  exact congrArg Instr.tlacq (rawDWord_pack _ _ _ _ _ rfl (ModZ.ofBits_bits _))

theorem tldone (w : OpWord ModZ) : Statement (.tldone w) := by
  intro h x hx
  cases hx
  have ho : wordOpcode (w.pack 0x219 w.m.bits) = 0x219 := wordOpcode_pack_OpWord ..
  unfold decodeWith
  rw [ho]
  exact congrArg Instr.tldone (opWord_pack _ _ _ _ _ rfl (ModZ.ofBits_bits _))

theorem tlrd (w : RawDWord ModZ) : Statement (.tlrd w) := by
  intro h x hx
  cases hx
  have ho : wordOpcode (w.pack 0x21A w.m.bits) = 0x21A := wordOpcode_pack_RawDWord ..
  unfold decodeWith
  rw [ho]
  exact congrArg Instr.tlrd (rawDWord_pack _ _ _ _ _ rfl (ModZ.ofBits_bits _))

theorem tlrel (w : OpWord ModZ) : Statement (.tlrel w) := by
  intro h x hx
  cases hx
  have ho : wordOpcode (w.pack 0x21B w.m.bits) = 0x21B := wordOpcode_pack_OpWord ..
  unfold decodeWith
  rw [ho]
  exact congrArg Instr.tlrel (opWord_pack _ _ _ _ _ rfl (ModZ.ofBits_bits _))

theorem occstep (w : RawBWord ModZ) : Statement (.occstep w) := by
  intro h x hx
  cases hx
  have ho : wordOpcode (w.pack 0x220 w.m.bits) = 0x220 := wordOpcode_pack_RawBWord ..
  unfold decodeWith
  rw [ho]
  exact congrArg Instr.occstep (rawBWord_pack _ _ _ _ _ rfl (ModZ.ofBits_bits _))

theorem hgrid (w : RawBWord ModZ) : Statement (.hgrid w) := by
  intro h x hx
  cases hx
  have ho : wordOpcode (w.pack 0x221 w.m.bits) = 0x221 := wordOpcode_pack_RawBWord ..
  unfold decodeWith
  rw [ho]
  exact congrArg Instr.hgrid (rawBWord_pack _ _ _ _ _ rfl (ModZ.ofBits_bits _))

theorem rbox (w : OpWord ModZ) : Statement (.rbox w) := by
  intro h x hx
  cases hx
  have ho : wordOpcode (w.pack 0x222 w.m.bits) = 0x222 := wordOpcode_pack_OpWord ..
  unfold decodeWith
  rw [ho]
  exact congrArg Instr.rbox (opWord_pack _ _ _ _ _ rfl (ModZ.ofBits_bits _))

theorem rtri (w : OpWord ModZ) : Statement (.rtri w) := by
  intro h x hx
  cases hx
  have ho : wordOpcode (w.pack 0x223 w.m.bits) = 0x223 := wordOpcode_pack_OpWord ..
  unfold decodeWith
  rw [ho]
  exact congrArg Instr.rtri (opWord_pack _ _ _ _ _ rfl (ModZ.ofBits_bits _))

theorem rhit (w : OpWord ModZ) : Statement (.rhit w) := by
  intro h x hx
  cases hx
  have ho : wordOpcode (w.pack 0x224 w.m.bits) = 0x224 := wordOpcode_pack_OpWord ..
  unfold decodeWith
  rw [ho]
  exact congrArg Instr.rhit (opWord_pack _ _ _ _ _ rfl (ModZ.ofBits_bits _))

theorem br (w : OpWord ModZ) : Statement (.br w) := by
  intro h x hx
  cases hx
  have ho : wordOpcode (w.pack 0x280 w.m.bits) = 0x280 := wordOpcode_pack_OpWord ..
  unfold decodeWith
  rw [ho]
  exact congrArg Instr.br (opWord_pack _ _ _ _ _ rfl (ModZ.ofBits_bits _))

theorem call (w : OpWord ModZ) : Statement (.call w) := by
  intro h x hx
  cases hx
  have ho : wordOpcode (w.pack 0x281 w.m.bits) = 0x281 := wordOpcode_pack_OpWord ..
  unfold decodeWith
  rw [ho]
  exact congrArg Instr.call (opWord_pack _ _ _ _ _ rfl (ModZ.ofBits_bits _))

theorem ret (w : OpWord ModZ) : Statement (.ret w) := by
  intro h x hx
  cases hx
  have ho : wordOpcode (w.pack 0x282 w.m.bits) = 0x282 := wordOpcode_pack_OpWord ..
  unfold decodeWith
  rw [ho]
  exact congrArg Instr.ret (opWord_pack _ _ _ _ _ rfl (ModZ.ofBits_bits _))

theorem jmpi (w : OpWord ModZ) : Statement (.jmpi w) := by
  intro h x hx
  cases hx
  have ho : wordOpcode (w.pack 0x283 w.m.bits) = 0x283 := wordOpcode_pack_OpWord ..
  unfold decodeWith
  rw [ho]
  exact congrArg Instr.jmpi (opWord_pack _ _ _ _ _ rfl (ModZ.ofBits_bits _))

theorem calli (w : OpWord ModZ) : Statement (.calli w) := by
  intro h x hx
  cases hx
  have ho : wordOpcode (w.pack 0x284 w.m.bits) = 0x284 := wordOpcode_pack_OpWord ..
  unfold decodeWith
  rw [ho]
  exact congrArg Instr.calli (opWord_pack _ _ _ _ _ rfl (ModZ.ofBits_bits _))

theorem exit (w : OpWord ModZ) : Statement (.exit w) := by
  intro h x hx
  cases hx
  have ho : wordOpcode (w.pack 0x285 w.m.bits) = 0x285 := wordOpcode_pack_OpWord ..
  unfold decodeWith
  rw [ho]
  exact congrArg Instr.exit (opWord_pack _ _ _ _ _ rfl (ModZ.ofBits_bits _))

theorem trap (w : OpWord ModZ) : Statement (.trap w) := by
  intro h x hx
  cases hx
  have ho : wordOpcode (w.pack 0x288 w.m.bits) = 0x288 := wordOpcode_pack_OpWord ..
  unfold decodeWith
  rw [ho]
  exact congrArg Instr.trap (opWord_pack _ _ _ _ _ rfl (ModZ.ofBits_bits _))

theorem trapret (w : OpWord ModZ) : Statement (.trapret w) := by
  intro h x hx
  cases hx
  have ho : wordOpcode (w.pack 0x289 w.m.bits) = 0x289 := wordOpcode_pack_OpWord ..
  unfold decodeWith
  rw [ho]
  exact congrArg Instr.trapret (opWord_pack _ _ _ _ _ rfl (ModZ.ofBits_bits _))

theorem brk (w : OpWord ModZ) : Statement (.brk w) := by
  intro h x hx
  cases hx
  have ho : wordOpcode (w.pack 0x28A w.m.bits) = 0x28A := wordOpcode_pack_OpWord ..
  unfold decodeWith
  rw [ho]
  exact congrArg Instr.brk (opWord_pack _ _ _ _ _ rfl (ModZ.ofBits_bits _))

theorem sysrd (w : RawAWord ModZ) : Statement (.sysrd w) := by
  intro h x hx
  cases hx
  have ho : wordOpcode (w.pack 0x290 w.m.bits) = 0x290 := wordOpcode_pack_RawAWord ..
  unfold decodeWith
  rw [ho]
  exact congrArg Instr.sysrd (rawAWord_pack _ _ _ _ _ rfl (ModZ.ofBits_bits _))

theorem syswr (w : RawDWord ModZ) : Statement (.syswr w) := by
  intro h x hx
  cases hx
  have hv := variantOk_of_wf h
  simp only [Instr.variantOk] at hv
  have ho : wordOpcode (w.pack 0x291 w.m.bits) = 0x291 := wordOpcode_pack_RawDWord ..
  have hd : codeD (w.pack 0x291 w.m.bits) = w.d := by simp [RawDWord.pack]
  have h1 : ¬ w.d = 0x001 := by simp at hv; exact hv.1
  have h2 : ¬ (0x030 ≤ w.d.toNat ∧ w.d.toNat < 0x040) := by simp at hv; omega
  unfold decodeWith
  rw [ho]
  simp only [hd, h1, h2, if_false]
  exact congrArg Instr.syswr (rawDWord_pack _ _ _ _ _ rfl (ModZ.ofBits_bits _))

theorem memStatusClear (w : RawDWord ModZ) : Statement (.memStatusClear w) := by
  intro h x hx
  cases hx
  have hv := variantOk_of_wf h
  simp only [Instr.variantOk] at hv
  have ho : wordOpcode (w.pack 0x291 w.m.bits) = 0x291 := wordOpcode_pack_RawDWord ..
  have hd : codeD (w.pack 0x291 w.m.bits) = w.d := by simp [RawDWord.pack]
  have h1 : w.d = 0x001 := by simpa using hv
  unfold decodeWith
  rw [ho]
  simp only [hd, h1, if_true]
  exact congrArg Instr.memStatusClear (rawDWord_pack _ _ _ _ _ rfl (ModZ.ofBits_bits _))

theorem cntCfgWrite (w : RawDWord ModZ) : Statement (.cntCfgWrite w) := by
  intro h x hx
  cases hx
  have hv := variantOk_of_wf h
  simp only [Instr.variantOk] at hv
  have ho : wordOpcode (w.pack 0x291 w.m.bits) = 0x291 := wordOpcode_pack_RawDWord ..
  have hd : codeD (w.pack 0x291 w.m.bits) = w.d := by simp [RawDWord.pack]
  have h2 : 0x030 ≤ w.d.toNat ∧ w.d.toNat < 0x040 := by simpa using hv
  have h1 : ¬ w.d = 0x001 := by intro e; rw [e] at h2; simp at h2
  unfold decodeWith
  rw [ho]
  simp only [hd, h1, h2, if_false, and_self, if_true]
  exact congrArg Instr.cntCfgWrite (rawDWord_pack _ _ _ _ _ rfl (ModZ.ofBits_bits _))

theorem cntrd (w : OpWord ModZ) : Statement (.cntrd w) := by
  intro h x hx
  cases hx
  have ho : wordOpcode (w.pack 0x292 w.m.bits) = 0x292 := wordOpcode_pack_OpWord ..
  unfold decodeWith
  rw [ho]
  exact congrArg Instr.cntrd (opWord_pack _ _ _ _ _ rfl (ModZ.ofBits_bits _))

theorem clkrd (w : OpWord ModZ) : Statement (.clkrd w) := by
  intro h x hx
  cases hx
  have ho : wordOpcode (w.pack 0x293 w.m.bits) = 0x293 := wordOpcode_pack_OpWord ..
  unfold decodeWith
  rw [ho]
  exact congrArg Instr.clkrd (opWord_pack _ _ _ _ _ rfl (ModZ.ofBits_bits _))

theorem segset (w : RawDWord ModZ) : Statement (.segset w) := by
  intro h x hx
  cases hx
  have ho : wordOpcode (w.pack 0x2C0 w.m.bits) = 0x2C0 := wordOpcode_pack_RawDWord ..
  unfold decodeWith
  rw [ho]
  exact congrArg Instr.segset (rawDWord_pack _ _ _ _ _ rfl (ModZ.ofBits_bits _))

theorem banksw (w : OpWord ModZ) : Statement (.banksw w) := by
  intro h x hx
  cases hx
  have ho : wordOpcode (w.pack 0x2C1 w.m.bits) = 0x2C1 := wordOpcode_pack_OpWord ..
  unfold decodeWith
  rw [ho]
  exact congrArg Instr.banksw (opWord_pack _ _ _ _ _ rfl (ModZ.ofBits_bits _))

theorem halt (w : OpWord ModZ) : Statement (.halt w) := by
  intro h x hx
  cases hx
  have ho : wordOpcode (w.pack 0x2C2 w.m.bits) = 0x2C2 := wordOpcode_pack_OpWord ..
  unfold decodeWith
  rw [ho]
  exact congrArg Instr.halt (opWord_pack _ _ _ _ _ rfl (ModZ.ofBits_bits _))

theorem clauseEnter a0 : Statement (.clauseEnter a0) := no_word rfl

theorem burstSelect a0 : Statement (.burstSelect a0) := no_word rfl

theorem loadReturn a0 : Statement (.loadReturn a0) := no_word rfl

theorem segmentCommit a0 : Statement (.segmentCommit a0) := no_word rfl

theorem droopHoldRelease a0 : Statement (.droopHoldRelease a0) := no_word rfl

theorem storeDrain a0 : Statement (.storeDrain a0) := no_word rfl

theorem atomicPerform a0 : Statement (.atomicPerform a0) := no_word rfl

theorem reductionPerform a0 : Statement (.reductionPerform a0) := no_word rfl

theorem waitaReeval a0 : Statement (.waitaReeval a0) := no_word rfl

theorem waitaTimeout a0 : Statement (.waitaTimeout a0) := no_word rfl

theorem waitaPoll a0 : Statement (.waitaPoll a0) := no_word rfl

theorem wakeAdmit a0 : Statement (.wakeAdmit a0) := no_word rfl

theorem fenceComplete a0 : Statement (.fenceComplete a0) := no_word rfl

theorem xfenceComplete a0 : Statement (.xfenceComplete a0) := no_word rfl

theorem queueServe a0 a1 : Statement (.queueServe a0 a1) := no_word rfl

theorem copyPiece a0 : Statement (.copyPiece a0) := no_word rfl

theorem copyFixupResolve a0 : Statement (.copyFixupResolve a0) := no_word rfl

theorem copyComplete a0 : Statement (.copyComplete a0) := no_word rfl

theorem bankSwitch a0 : Statement (.bankSwitch a0) := no_word rfl

theorem mxOpStart a0 : Statement (.mxOpStart a0) := no_word rfl

theorem mxOpComplete a0 : Statement (.mxOpComplete a0) := no_word rfl

theorem mxIdleSelfTest a0 a1 : Statement (.mxIdleSelfTest a0 a1) := no_word rfl

theorem tierMoveStart a0 : Statement (.tierMoveStart a0) := no_word rfl

theorem tierMoveSwitch a0 : Statement (.tierMoveSwitch a0) := no_word rfl

theorem tileOpProcess a0 a1 : Statement (.tileOpProcess a0 a1) := no_word rfl

theorem tileRetire a0 a1 a2 : Statement (.tileRetire a0 a1 a2) := no_word rfl

theorem ringStallThreshold a0 a1 : Statement (.ringStallThreshold a0 a1) := no_word rfl

theorem ringStallNotice a0 a1 : Statement (.ringStallNotice a0 a1) := no_word rfl

theorem groupRetire a0 : Statement (.groupRetire a0) := no_word rfl

theorem graphAccept a0 : Statement (.graphAccept a0) := no_word rfl

theorem graphEnd a0 : Statement (.graphEnd a0) := no_word rfl

theorem groupPlace a0 : Statement (.groupPlace a0) := no_word rfl

theorem placementBlock a0 : Statement (.placementBlock a0) := no_word rfl

theorem fworkAnswer a0 : Statement (.fworkAnswer a0) := no_word rfl

theorem sheetEval a0 : Statement (.sheetEval a0) := no_word rfl

theorem partitionFlip a0 : Statement (.partitionFlip a0) := no_word rfl

theorem partitionStarvation a0 a1 : Statement (.partitionStarvation a0 a1) := no_word rfl

theorem vaultTempSample a0 : Statement (.vaultTempSample a0) := no_word rfl

theorem vaultMigrate a0 : Statement (.vaultMigrate a0) := no_word rfl

theorem hotPageMove a0 : Statement (.hotPageMove a0) := no_word rfl

theorem groupEvict a0 a1 : Statement (.groupEvict a0 a1) := no_word rfl

theorem groupSave a0 : Statement (.groupSave a0) := no_word rfl

theorem migrationTransfer a0 : Statement (.migrationTransfer a0) := no_word rfl

theorem passEnd a0 a1 : Statement (.passEnd a0 a1) := no_word rfl

theorem passEndRelease a0 a1 : Statement (.passEndRelease a0 a1) := no_word rfl

theorem eccUncorrectable a0 a1 : Statement (.eccUncorrectable a0 a1) := no_word rfl

theorem eccCorrected a0 : Statement (.eccCorrected a0) := no_word rfl

theorem droopDetect a0 : Statement (.droopDetect a0) := no_word rfl

theorem droopWindowEnd a0 : Statement (.droopWindowEnd a0) := no_word rfl

theorem dieExport a0 a1 : Statement (.dieExport a0 a1) := no_word rfl

theorem dieApply a0 a1 : Statement (.dieApply a0 a1) := no_word rfl

theorem clusterGate a0 : Statement (.clusterGate a0) := no_word rfl

theorem pairWakeDone a0 : Statement (.pairWakeDone a0) := no_word rfl

theorem ceilingApply a0 : Statement (.ceilingApply a0) := no_word rfl

theorem noticeWrite : Statement (.noticeWrite) := no_word rfl

theorem hostReadRequest a0 : Statement (.hostReadRequest a0) := no_word rfl

theorem hostWrite a0 a1 a2 : Statement (.hostWrite a0 a1 a2) := no_word rfl

theorem doorbell a0 a1 : Statement (.doorbell a0 a1) := no_word rfl

theorem readCompletion a0 a1 : Statement (.readCompletion a0 a1) := no_word rfl

theorem writeCompletion a0 : Statement (.writeCompletion a0) := no_word rfl

theorem reservedTypeMessage a0 : Statement (.reservedTypeMessage a0) := no_word rfl

theorem deviceReset a0 a1 : Statement (.deviceReset a0 a1) := no_word rfl

theorem firmwareReload a0 a1 : Statement (.firmwareReload a0 a1) := no_word rfl

theorem submitGraph a0 a1 : Statement (.submitGraph a0 a1) := no_word rfl

theorem endPass a0 a1 a2 : Statement (.endPass a0 a1 a2) := no_word rfl

theorem endGraph a0 a1 : Statement (.endGraph a0 a1) := no_word rfl

theorem preemptPass a0 a1 a2 : Statement (.preemptPass a0 a1 a2) := no_word rfl

theorem resumePass a0 a1 a2 : Statement (.resumePass a0 a1 a2) := no_word rfl

theorem migrateGroup a0 a1 a2 a3 a4 a5 a6 : Statement (.migrateGroup a0 a1 a2 a3 a4 a5 a6) := no_word rfl

theorem answerRetry a0 a1 : Statement (.answerRetry a0 a1) := no_word rfl

theorem answerDeliver a0 a1 : Statement (.answerDeliver a0 a1) := no_word rfl

theorem answerEndPass a0 a1 : Statement (.answerEndPass a0 a1) := no_word rfl

theorem resumeThread a0 a1 a2 a3 : Statement (.resumeThread a0 a1 a2 a3) := no_word rfl

theorem translationInvalidate a0 a1 a2 a3 : Statement (.translationInvalidate a0 a1 a2 a3) := no_word rfl

theorem mapSync a0 : Statement (.mapSync a0) := no_word rfl

theorem tierMoveCommand a0 a1 a2 a3 : Statement (.tierMoveCommand a0 a1 a2 a3) := no_word rfl

theorem addFrames a0 a1 a2 a3 : Statement (.addFrames a0 a1 a2 a3) := no_word rfl

theorem unassignedOpcode (w : Wide) : Statement (.unassignedOpcode w) := by
  intro h x hx
  cases hx
  have ho := opcodeOk_of_wf h
  exact decode_unassigned w _ rfl (by simpa [Instr.opcodeOk] using ho)

theorem vaultCreditRefill a0 : Statement (.vaultCreditRefill a0) := no_word rfl

theorem clusterClockedAgain a0 : Statement (.clusterClockedAgain a0) := no_word rfl

theorem droopSupplyRecovered a0 : Statement (.droopSupplyRecovered a0) := no_word rfl

theorem pageMoveSwitch a0 : Statement (.pageMoveSwitch a0) := no_word rfl

theorem writePairControl a0 a1 a2 : Statement (.writePairControl a0 a1 a2) := no_word rfl

theorem writeDieVoltage a0 a1 a2 : Statement (.writeDieVoltage a0 a1 a2) := no_word rfl

theorem writePartitionControl a0 a1 a2 : Statement (.writePartitionControl a0 a1 a2) := no_word rfl

theorem writePolicyTable a0 a1 a2 : Statement (.writePolicyTable a0 a1 a2) := no_word rfl

theorem writeCounterConfig a0 a1 a2 a3 : Statement (.writeCounterConfig a0 a1 a2 a3) := no_word rfl

theorem writeTensorTableSize a0 a1 : Statement (.writeTensorTableSize a0 a1) := no_word rfl

theorem readStateControlWord a0 a1 a2 : Statement (.readStateControlWord a0 a1 a2) := no_word rfl

theorem readStateScoreboard a0 a1 a2 a3 a4 a5 : Statement (.readStateScoreboard a0 a1 a2 a3 a4 a5) := no_word rfl

theorem readStateMatrixHealth a0 a1 a2 : Statement (.readStateMatrixHealth a0 a1 a2) := no_word rfl

theorem readStateCounter a0 a1 a2 a3 : Statement (.readStateCounter a0 a1 a2 a3) := no_word rfl

theorem readStateGlobalTime a0 a1 : Statement (.readStateGlobalTime a0 a1) := no_word rfl

theorem resetCore a0 a1 : Statement (.resetCore a0 a1) := no_word rfl

theorem registerQueue a0 a1 a2 a3 : Statement (.registerQueue a0 a1 a2 a3) := no_word rfl

theorem attest a0 a1 a2 : Statement (.attest a0 a1 a2) := no_word rfl

theorem enrolKey a0 a1 a2 : Statement (.enrolKey a0 a1 a2) := no_word rfl

theorem revokeKey a0 a1 : Statement (.revokeKey a0 a1) := no_word rfl

theorem raiseRollback a0 : Statement (.raiseRollback a0) := no_word rfl

theorem registerNoticeRing a0 a1 a2 : Statement (.registerNoticeRing a0 a1 a2) := no_word rfl

end Sys2Proof.Laws.Decodes
end

