-- ==== Sys2Proof/Tests/Slice0.lean ====
section
/-!
SUPPORT. Tests of the model: what `WellFormed` refuses, words written out from the spec's encodings and examples, single
steps with the results the spec prints, and for each statement states that meet its hypotheses.
-/

open Sys2Proof Sys2Proof.Machine

namespace Sys2Proof.Tests

-- One theorem after another: each waits for the kernel, and many at once would each hold a thread.
set_option Elab.async false

/-! ## What `WellFormed` refuses, one term for each check -/

abbrev plain : Head := ⟨false, 0, none⟩
abbrev modIN : ModIN := ⟨false, false, false, false, 0⟩

theorem test_wf_literal_missing : (Instr.mov ⟨plain, modIN, .v 1, .literal, .zero, .zero⟩).wf = false := by decide
theorem test_wf_literal_spare : (Instr.mov ⟨⟨false, 0, some 5⟩, modIN, .v 1, .v 2, .zero, .zero⟩).wf = false := by decide
theorem test_wf_imm : (Instr.iadd ⟨plain, { modIN with imm := true }, .v 1, .v 2, .v 3, .zero⟩).wf = false := by decide
theorem test_wf_imm_form : (Instr.iaddImm ⟨plain, modIN, .v 1, .v 2, 3⟩).wf = false := by decide
theorem test_wf_icmp_imm : (Instr.icmp ⟨plain, ⟨0, false, false, true, 0, 0⟩, .p 1, .v 2, .v 3, .zero⟩).wf = false := by decide
theorem test_wf_kset_variant : (Instr.kset ⟨plain, ⟨0⟩, .k 1, .k 2, .zero, .zero⟩).wf = false := by decide
theorem test_wf_syswr_variant : (Instr.syswr ⟨plain, ⟨0⟩, 0x001, .v 2, .zero, .zero⟩).wf = false := by decide
theorem test_wf_waita_variant : (Instr.waita ⟨plain, ⟨6, 0, true, 0⟩, .v 1, .v 2, 0, 0⟩).wf = false := by decide
theorem test_wf_assigned_opcode : (Instr.unassignedOpcode 0x0200_1802_0100_0000).wf = false := by decide
theorem test_wf_core : (Instr.burstSelect 128).wf = false ∧ (Instr.burstSelect 127).wf = true := by decide
theorem test_wf_bank : (Instr.queueServe 0 32).wf = false ∧ (Instr.queueServe 127 31).wf = true := by decide
theorem test_wf_macro : (Instr.mxIdleSelfTest 0 4).wf = false ∧ (Instr.mxIdleSelfTest 0 3).wf = true := by decide
theorem test_wf_thread : (Instr.segmentCommit ⟨1, 32, 0⟩).wf = false ∧ (Instr.segmentCommit ⟨1, 31, 128⟩).wf = false := by decide
theorem test_wf_cluster : (Instr.droopDetect 32).wf = false ∧ (Instr.droopDetect 31).wf = true := by decide
theorem test_wf_die : (Instr.groupPlace 2).wf = false ∧ (Instr.groupPlace 1).wf = true := by decide
theorem test_wf_vault : (Instr.vaultTempSample 8).wf = false ∧ (Instr.vaultTempSample 7).wf = true := by decide
theorem test_wf_pair : (Instr.ceilingApply 16).wf = false ∧ (Instr.ceilingApply 15).wf = true := by decide
theorem test_wf_queue : (Instr.graphAccept 16).wf = false ∧ (Instr.graphAccept 15).wf = true := by decide
theorem test_wf_partition : (Instr.placementBlock 2).wf = false ∧ (Instr.placementBlock 1).wf = true := by decide

/-! ## Decoding: words of the spec, and words written out from its encodings (R25, R29-R31, R52, R55) -/

theorem test_decode_nop : decodeWords [0] = .ok (.nop ⟨plain, ⟨0⟩, .v 0, .v 0, .v 0, .v 0⟩, []) := by decide +kernel
theorem test_decode_iadd : decodeWords [0x0200_1802_0100_0000] = .ok (.iadd ⟨plain, modIN, .v 3, .v 1, .v 2, .v 0⟩, []) := by decide +kernel
theorem test_decode_iadd_sw : decodeWords [0x8200_2601_B280_1600] =
    .ok (.iadd ⟨⟨true, 11, none⟩, modIN, .v 4, .dist 0, .int 5, .v 0⟩, []) := by decide +kernel
theorem test_decode_imulhi : decodeWords [0x0260_1002_AAA7_0008] =
    .ok (.imulhiImm ⟨plain, { modIN with imm := true }, .v 2, .v 1, 349496⟩, []) := by decide +kernel
theorem test_decode_ffma : decodeWords [0x0860_5016_0601_A416] =
    .ok (.ffma ⟨⟨false, 2, none⟩, ⟨2, 1, true, false, 0⟩, .v 10, .v 11, .v 12, .v 13⟩, []) := by decide +kernel
theorem test_decode_qnt : decodeWords [0x0C40_2808_0300_0002] =
    .ok (.qnt ⟨plain, ⟨2, 0, 0, 0⟩, .v 5, .v 4, .v 6, .v 0⟩, []) := by decide +kernel
theorem test_decode_dot8 : decodeWords [0x0CC0_4802_0101_2003] =
    .ok (.dot8 ⟨plain, ⟨true, true, false, 0⟩, .v 9, .v 1, .v 2, .v 9⟩, []) := by decide +kernel
theorem test_decode_ldro_line : decodeWords [0x2040_4004_0184_0016] =
    .ok (.ldro ⟨plain, ⟨6, true, 0, 0⟩, .v 8, .v 2, 3, 32⟩, []) := by decide +kernel
theorem test_decode_smp : decodeWords [0x2060_2004_0100_000A] =
    .ok (.smp ⟨plain, ⟨10, false, 0, 0⟩, .v 4, .v 2, 2, 0⟩, []) := by decide +kernel
theorem test_decode_aadd : decodeWords [0xA100_2EC0_0080_01C6] =
    .ok (.aadd ⟨⟨true, 0, none⟩, ⟨6, 4, 3⟩, .v 5, .int 0, 1, 0⟩, []) := by decide +kernel
theorem test_decode_redadd : decodeWords [0xA21B_0EC0_0080_0146] =
    .ok (.redadd ⟨⟨true, 0, none⟩, ⟨6, 4, 2⟩, .int 1, .int 0, 1, 0⟩, []) := by decide +kernel
theorem test_decode_waita : decodeWords [0xA31D_FEC0_0080_0006, 0x40] =
    .ok (.waita ⟨⟨true, 0, some 0x40⟩, ⟨6, 0, false, 0⟩, .literal, .int 0, 1, 0⟩, []) := by decide +kernel
theorem test_decode_xfence : decodeWords [0xA340_0000_0000_00C4] =
    .ok (.xfence ⟨⟨true, 0, none⟩, ⟨4, 0, 3⟩, .v 0, .v 0, .v 0, .v 0⟩, []) := by decide +kernel
theorem test_decode_cpy1 : decodeWords [0xA418_9804_1077_E200, 0x1000] =
    .ok (.cpy1 ⟨⟨true, 1, some 0x1000⟩, ⟨false, 0, 0⟩, .s 3, .v 2, 0, 1, .literal⟩, []) := by decide +kernel
theorem test_decode_tmove : decodeWords [0xA4B8_8E44_0000_0A00] =
    .ok (.tmove ⟨⟨true, 5, none⟩, ⟨0, 0⟩, .s 1, .s 18, .v 0, .v 0⟩, []) := by decide +kernel
theorem test_decode_shfx : decodeWords [0x3820_1003_B0EB_0000] =
    .ok (.shfx ⟨plain, ⟨0, false, false, 0⟩, .v 2, .v 1, .int 1, .k 0⟩, []) := by decide +kernel
theorem test_decode_ballot : decodeWords [0x3880_46A2_006B_0000] =
    .ok (.ballot ⟨plain, ⟨0, false, false, 0⟩, .v 8, .p 1, .v 0, .k 0⟩, []) := by decide +kernel
theorem test_decode_mxop : decodeWords [0xC038_A00E_0000_0000] =
    .ok (.mxop ⟨⟨true, 0, none⟩, ⟨0⟩, .s 4, .v 7, .v 0, .v 0⟩, []) := by decide +kernel
theorem test_decode_mxldb : decodeWords [0xC018_9EC0_1400_0000] =
    .ok (.mxldb ⟨⟨true, 0, none⟩, ⟨0⟩, .s 3, .int 0, .v 40, .v 0⟩, []) := by decide +kernel
theorem test_decode_fwork : decodeWords [0xC200_06C0_0000_0A00] =
    .ok (.fwork ⟨⟨true, 5, none⟩, ⟨0⟩, .v 0, .int 0, .v 0, .v 0⟩, []) := by decide +kernel
theorem test_decode_tlacq : decodeWords [0xC300_06C0_0100_0000] =
    .ok (.tlacq ⟨⟨true, 0, none⟩, ⟨0⟩, 0, .int 0, .v 2, .v 0⟩, []) := by decide +kernel
theorem test_decode_tlrd : decodeWords [0xC340_06C0_0380_0000] =
    .ok (.tlrd ⟨⟨true, 0, none⟩, ⟨0⟩, 0, .int 0, .v 7, .v 0⟩, []) := by decide +kernel
theorem test_decode_br : decodeWords [0x5000_077E_0000_0200, 0x38] =
    .ok (.br ⟨⟨false, 1, some 0x38⟩, ⟨0⟩, .v 0, .literal, .v 0, .v 0⟩, []) := by decide +kernel
theorem test_decode_sysrd : decodeWords [0x5200_1010_0000_0000] =
    .ok (.sysrd ⟨plain, ⟨0⟩, .v 2, 0x008, .v 0, .v 0⟩, []) := by decide +kernel
theorem test_decode_clkrd : decodeWords [0x5260_D6C2_0000_0A00] =
    .ok (.clkrd ⟨⟨false, 5, none⟩, ⟨0⟩, .v 26, .int 1, .v 0, .v 0⟩, []) := by decide +kernel
/-- The layout of R55 and R106: `waita.ge` of 129 on element v43 of b5, its operands at the places of R25. -/
theorem test_decode_waita_ge : decodeWords [0xA31D_F856_0280_0056, 0x81] =
    .ok (.waita ⟨⟨true, 0, some 0x81⟩, ⟨6, 5, false, 0⟩, .literal, .v 43, 5, 0⟩, []) := by decide +kernel
/-- R57: opcode 0x3FF is not assigned, and its word decodes to itself. -/
theorem test_decode_unassigned : decodeWords [0x7FE0_0000_0000_0000] = .ok (.unassignedOpcode 0x7FE0_0000_0000_0000, []) := by decide +kernel
/-- R36: a word that calls for a literal word, with none there, decodes to nothing. -/
theorem test_decode_no_literal : ∃ e, decodeWords [0x5000_077E_0000_0200] = .error e := ⟨_, rfl⟩
/-- Bits numbered as the opcode table numbers them. -/
theorem test_decode_table : decodeTableWord 128 (0x38 * 2 ^ 64 + 0x5000_077E_0000_0200) =
    some (.br ⟨⟨false, 1, some 0x38⟩, ⟨0⟩, .v 0, .literal, .v 0, .v 0⟩) := by decide +kernel

/-! ## A state for single words: one thread of a privileged pass with data in the board tier and two scratchpad banks -/

/-- The running thread. -/
abbrev T : ThreadRef := ⟨1, 0, 0⟩

def segMem : BitVec 128 := BitVec.ofNat 128 (boardVa + 65536 * 2 ^ 48 + 2 ^ 96)
def segPad : BitVec 128 := BitVec.ofNat 128 (32768 * 2 ^ 48 + 2 * 2 ^ 96)

/-- A buffer record (R208). -/
def record (base stride extent seg flags : Nat) : BitVec 128 :=
  BitVec.ofNat 128 (base + stride * 2 ^ 48 + extent * 2 ^ 64 + seg * 2 ^ 96 + flags)

/-- b0 and b3 in memory, b1 and b4 in the scratchpad, b2 read-only, b5 bytes. -/
def records : List (BitVec 128) :=
  [record 0 4 1024 1 0, record 8192 4 1024 2 0, record 0 4 1024 1 (2 ^ 103), record 0 16 64 1 0, record 8192 16 64 2 0,
   record 0 1 4096 1 0] ++ List.replicate 26 0

/-- The scratchpad: a descriptor at 0 and a parameter block at 64 (R161, R162). -/
def padCellsAt : List Host.Cell :=
  ((List.range 128).map fun i => (i, 0)) |> fun l => l.map fun c =>
    (c.1, if c.1 = 65 then 0x04 else if c.1 = 69 then 0x06 else if c.1 = 81 then 0x10 else if c.1 = 89 then 0x20 else 0)

def richPass : Pass :=
  { placedPass with
    privileged := true, userCounters := true, regs := 64, scratchBanks := 2, trapVector := 0
    slots := List.replicate 8 0xD3, segs := [placedPass.segs.headD 0, segMem, segPad] ++ List.replicate 5 0
    bufs := records, reads := [⟨0, [(0, 0)]⟩], writes := [1] }

/-- A resource of 4 by 4 tiles in a ring of two slots (R273, R275). -/
def ring : Resource := ⟨false, 6, 0, 4, 4, 4, 2, 0, false, 0, 0, 0, 0, [0, 1], [], 0, false⟩

def richGraph : Graph := ⟨4, 0, 0, false, 0, [richPass], [ring, ring], [], [], false, []⟩

def richGroup (f : Thread → Thread) : Group :=
  let g := freshGroup richPass 0 (newGroup 1 4 0 0 0 0)
  { g with
    phase := .resident, core := some 0, lcore := some 0, pad := padCellsAt
    threads := g.threads.map fun th => f { th with status := .running, seg := { th.seg with ig := 1 } } }

/-- The device with the bits of an instruction placed, and the rich group in place of the placed one. -/
def stateOf (w : Nat) (f : Thread → Thread) : State :=
  let s := placeWord State.reset w
  let s := updCore s 0 fun c =>
    { c with ranges := ⟨boardVa, 65536, tierBase 1, true, true⟩ :: c.ranges
             roleCopy := [(0, 31, .fifo)], banks := c.banks.set 31 ⟨.fifo, none, [], [], [], 0, [], false⟩
             handles := c.handles.set 0 (some ⟨0, 0xD3, 1, []⟩) }
  { s with
    groups := [richGroup f], graphs := [richGraph]
    dies := s.dies.map fun d => { d with mem := Memory.writeAll d.mem (cellsAt (tierBase 1) (List.replicate 16 0)) } }

def bitsOf (i : Instr) : Nat :=
  match encode i with
  | [w] => w.toNat
  | [w, l] => w.toNat + l.toNat * 2 ^ 64
  | _ => 0

/-- Presets of vector registers. -/
def vs (l : List (Nat × Word)) (th : Thread) : Thread := { th with v := l.foldl (fun v x => v.set x.1 x.2) th.v }

def stateAt (i : Instr) (f : Thread → Thread := id) : State := stateOf (bitsOf i) f

def B : Burst := placedBurst 1

/-- The hypotheses of the statements about a word: the core runs the burst, every thread proceeds, none is held, and some
thread that passes its checks passes the instruction's own. -/
def Meets (i : Instr) (f : Thread → Thread := id) (held own : Site → Bool := fun _ => false) : Bool :=
  let s := stateAt i f
  let xs := turnSites s s.focus B i
  decide (AtWord s B) && xs.all (Proceeds i) && xs.all (fun x => !Clear i x || !held x) && xs.any fun x => Clear i x && own x

/-- The same with nothing asked besides the checks. -/
def Plain (i : Instr) : Bool := Meets i id (fun _ => false) (fun _ => true)

def op (d a b : Operand := .zero) (c : Operand := .zero) : OpWord ModZ := ⟨plain, ⟨0⟩, d, a, b, c⟩
def opIN (d a : Operand) (b : Operand := .zero) (c : Operand := .zero) : OpWord ModIN := ⟨plain, modIN, d, a, b, c⟩
def imm (d a : Operand) (n : BitVec 20) : ImmWord ModIN := ⟨plain, { modIN with imm := true }, d, a, n⟩
def opFL (b : Operand := .v 2) (c : Operand := .zero) : OpWord ModFL := ⟨plain, ⟨0, 0, false, false, 0⟩, .v 3, .v 1, b, c⟩
def opQS (b : Operand := .zero) : OpWord ModQS := ⟨plain, ⟨0, 0, 0, 0⟩, .v 3, .v 1, b, .zero⟩
def opXL (d a b : Operand) : OpWord ModXL := ⟨plain, ⟨0, false, false, 0⟩, d, a, b, .k 0⟩
def eff : Head := ⟨true, 0, none⟩
def opE (d a : Operand) (b : Operand := .zero) : OpWord ModZ := ⟨eff, ⟨0⟩, d, a, b, .zero⟩
def mem (t : BitVec 4) (buf : BitVec 5) (d : Operand := .v 4) (a : Operand := .v 1) : MemWord ModMM := ⟨plain, ⟨t, false, 0, 0⟩, d, a, buf, 0⟩
def atom (d : Operand := .v 4) : MemWord ModAT := ⟨eff, ⟨6, 4, 3⟩, d, .v 1, 0, 0⟩
def redn : MemWord ModAT := ⟨eff, ⟨6, 4, 2⟩, .v 4, .v 1, 0, 0⟩

theorem witness_integer : ([
    .nop (op), .iadd (opIN (.v 3) (.v 1) (.v 2)), .iaddImm (imm (.v 3) (.v 1) 5), .isub (opIN (.v 3) (.v 1) (.v 2)),
    .isubImm (imm (.v 3) (.v 1) 5), .imul (opIN (.v 3) (.v 1) (.v 2)), .imulImm (imm (.v 3) (.v 1) 5),
    .imulhi (opIN (.v 3) (.v 1) (.v 2)), .imulhiImm (imm (.v 3) (.v 1) 5), .imad (opIN (.v 3) (.v 1) (.v 2) (.v 4)),
    .iaddc (opIN (.p 1) (.v 1) (.v 2) (.int 1)), .isubc (opIN (.v 3) (.v 1) (.v 2) (.p 1)), .imin (opIN (.v 3) (.v 1) (.v 2)),
    .iminImm (imm (.v 3) (.v 1) 5), .imax (opIN (.v 3) (.v 1) (.v 2)), .imaxImm (imm (.v 3) (.v 1) 5),
    .iabs ⟨plain, { modIN with sgn := true }, .v 3, .v 1, .zero, .zero⟩, .ineg ⟨plain, { modIN with sgn := true }, .v 3, .v 1, .zero, .zero⟩, .and (opIN (.v 3) (.v 1) (.v 2)),
    .andImm (imm (.v 3) (.v 1) 5), .or (opIN (.v 3) (.v 1) (.v 2)), .orImm (imm (.v 3) (.v 1) 5), .xor (opIN (.v 3) (.v 1) (.v 2)),
    .xorImm (imm (.v 3) (.v 1) 5), .andn (opIN (.v 3) (.v 1) (.v 2)), .andnImm (imm (.v 3) (.v 1) 5), .not (opIN (.v 3) (.v 1)),
    .shl (opIN (.v 3) (.v 1) (.v 2)), .shlImm (imm (.v 3) (.v 1) 5), .shr (opIN (.v 3) (.v 1) (.v 2)), .shrImm (imm (.v 3) (.v 1) 5),
    .rotl (opIN (.v 3) (.v 1) (.v 2)), .rotlImm (imm (.v 3) (.v 1) 5), .bfext (opIN (.v 3) (.v 1) (.v 2)),
    .bfextImm (imm (.v 3) (.v 1) 0x804), .bfins (opIN (.v 3) (.v 1) (.v 2) (.v 4)), .popc (opIN (.v 3) (.v 1)),
    .clz (opIN (.v 3) (.v 1)), .brev (opIN (.v 3) (.v 1)), .sel (opIN (.v 3) (.v 1) (.v 2) (.p 1)), .mov (opIN (.v 3) (.p 1)),
    .movImm (imm (.v 3) .zero 5), .lea (opIN (.v 3) (.v 1) (.v 2) (.int 3)),
    .icmp ⟨plain, ⟨0, false, false, false, 0, 0⟩, .p 1, .v 1, .v 2, .zero⟩,
    .icmpImm ⟨plain, ⟨5, true, false, true, 0, 0⟩, .v 3, .v 1, 7⟩,
    .pand (op (.p 1) (.p 2) (.p 3)), .por (op (.p 1) (.p 2) (.p 3)), .pxor (op (.p 1) (.p 2) (.p 3)), .pnot (op (.p 1) (.p 0)),
    .pmov (op (.p 0) (.p 2)), .kset (op (.k 1) (.v 1) (.v 2)), .ksetCopy (op (.k 1) (.k 2)), .kget (op (.v 3) (.k 0) (.v 1))]
    : List Instr).all Plain = true := by decide +kernel

theorem witness_float : ([
    .fadd (opFL), .fsub (opFL), .fmul (opFL), .ffma (opFL (.v 2) (.v 4)), .fmin (opFL), .fmax (opFL), .fabs (opFL .zero),
    .fneg (opFL .zero), .frcp (opFL .zero), .frsq (opFL .zero), .fsqrt (opFL .zero), .fdiv (opFL), .fexp2 (opFL .zero),
    .flog2 (opFL .zero), .fsin (opFL .zero), .fcos (opFL .zero), .ffrac (opFL .zero), .frnd (opFL .zero),
    .fclamp (opFL (.v 2) (.v 4)), .fscale (opFL),
    .fcmp ⟨plain, ⟨6, false, false, false, 0, 0⟩, .p 1, .v 1, .v 2, .zero⟩, .cvtf ⟨plain, ⟨0, 2, 0, 0⟩, .v 3, .v 1, .zero, .zero⟩,
    .cvti ⟨plain, ⟨0, 0, 3, true⟩, .v 4, .v 1, .zero, .zero⟩, .qnt (opQS (.v 2)), .dqnt (opQS (.v 2)), .sclx (opQS), .sclenc (opQS),
    .dot8 ⟨plain, ⟨true, true, false, 0⟩, .v 9, .v 1, .v 2, .v 9⟩, .dot4 ⟨plain, ⟨true, false, true, 0⟩, .v 9, .v 1, .v 2, .v 9⟩,
    .hpack (op (.v 3) (.v 1) (.v 2)), .hunpk (op (.v 3) (.v 1) (.v 2))] : List Instr).all Plain = true := by decide +kernel

/-- The hypotheses about `st`, `ld`, `ldro` and `ldbr` in memory and in the scratchpad; the own check is an access that passes. -/
def MeetsAccess (i : Instr) (w : MemWord ModMM) (acc : Access) (f : Thread → Thread := id) : Bool :=
  let a := fun x : Site => elementAccess x.before x w.buf.toNat ((x.read32 w.a).toInt + w.off.toInt)
    (typeWidth w.m.type.toNat) ⟨acc, false, true, match i with
      | .ldro _ => true
      | _ => false⟩
  Meets i f (accessHeld a) fun x => (passed (a x)).isSome

theorem witness_stores : MeetsAccess (.st (mem 6 0)) (mem 6 0) .write = true ∧
    MeetsAccess (.st (mem 11 4)) (mem 11 4) .write (vs [(1, 63)]) = true ∧
    MeetsAccess (.st (mem 4 5)) (mem 4 5) .write (vs [(1, 4095)]) = true := by decide +kernel

/-- The split flag lets an access that is not aligned pass (R333): element 1 of width 4 at stride 1. -/
theorem witness_split_store : MeetsAccess (.st (mem 6 5)) (mem 6 5) .write (fun th => vs [(1, 1)] { th with split := true }) = true := by
  decide +kernel

theorem witness_loads : MeetsAccess (.ld (mem 6 0)) (mem 6 0) .read = true ∧
    MeetsAccess (.ld (mem 0 2)) (mem 0 2) .read (vs [(1, 1023)]) = true ∧
    MeetsAccess (.ldro (mem 6 0)) (mem 6 0) .read = true ∧
    Meets (.ldbr ⟨plain, ⟨11, false, 0, 0⟩, 7, .v 1, 3, 0⟩) id
      (accessHeld fun x => elementAccess x.before x 3 (x.read32 (.v 1)).toInt 16 ⟨.read, false, true, false⟩)
      (fun x => (passed (elementAccess x.before x 3 (x.read32 (.v 1)).toInt 16 ⟨.read, false, true, false⟩)).isSome) = true := by
  decide +kernel

/-- A `.line` load of thread T, the only one of its row: its line is that of its first byte (R113). -/
def lineLoad : MemWord ModMM := ⟨plain, ⟨6, true, 0, 0⟩, .v 4, .v 1, 0, 0⟩
def lineAccess (x : Site) : Except Trouble (BufRec × List Spot) :=
  elementAccess x.before x 0 (x.read32 (.v 1)).toInt 4 ⟨.read, false, true, false⟩
def lineSite : Site :=
  (turnSites (stateAt (.ld lineLoad)) (stateAt (.ld lineLoad)).focus B (.ld lineLoad)).head (by decide +kernel)
def lineSpots : List Spot := (List.range 4).map fun i => ⟨.mem (tierBase 1 + i), boardVa + i, false⟩

theorem witness_line_load : Meets (.ld lineLoad) id (accessHeld lineAccess) (fun x => (passed (lineAccess x)).isSome) = true ∧
    (passed (lineAccess lineSite)).map Prod.snd = some lineSpots := by decide +kernel

theorem lineMates_ne : currentSites { lineSite.before with focus := lineSite.core } (.ld lineLoad) ≠ [] := by decide +kernel
def lineMate : Site := (currentSites { lineSite.before with focus := lineSite.core } (.ld lineLoad)).head lineMates_ne

theorem witness_in_line : InLine (.ld lineLoad) lineAccess 4 lineSite lineSpots := by
  refine ⟨by decide +kernel, fun p hp => ?_⟩
  refine ⟨lineMate, bufRec (record 0 4 1024 1 0), ⟨.mem (tierBase 1), boardVa, false⟩, lineSpots.drop 1,
    ⟨List.head_mem lineMates_ne, by decide +kernel, by decide +kernel, by decide +kernel⟩, by decide +kernel, ?_, ?_⟩
  · exact (by decide +kernel : ∀ p ∈ lineSpots, lineKey ⟨.mem (tierBase 1), boardVa, false⟩ = lineKey p) p hp
  · intro z _ _ _ _ _
    exact le_of_eq_of_le (by decide +kernel : lineMate.t.lane = 0) (Nat.zero_le _)

theorem witness_sampled : Meets (.smp (mem 10 2)) id (sampleHeld 2 10 (fun x => (x.read32 (.v 1)).toInt) fun _ => 0)
      (fun x => !lodFlag x 2 && (passed (plainSample x 2 (x.read32 (.v 1)).toInt 10)).isSome) = true ∧
    Meets (.smpl (mem 10 2 (.v 4) (.v 2))) id
      (sampleHeld 2 10 (fun x => ((x.run 2 (.v 2)).getD 0 0).toInt) fun x => ((x.run 2 (.v 2)).getD 1 0).toNat % 16)
      (fun x => !lodFlag x 2 && (passed (plainSample x 2 ((x.run 2 (.v 2)).getD 0 0).toInt 10)).isSome) = true := by decide +kernel

/-- A descriptor of one level of 4 by 4 elements at segment offset 4,096, its map at 8,192 and its elements at 12,288 (R223). -/
def lodState (i : Instr) (map : Byte) : State :=
  let cells := cellsAt (tierBase 1 + 4096) (toBytes (BitVec.ofNat 128 (4 * 2 ^ 32 + 4 * 2 ^ 48 + (boardVa + 8192) * 2 ^ 64)) 16 ++
    List.replicate 48 0 ++ toBytes (BitVec.ofNat 128 12288) 16) ++ [(tierBase 1 + 8192, map)] ++
    cellsAt (tierBase 1 + 12288) [1, 2, 3, 4]
  let s := stateAt i
  { s with dies := s.dies.map fun d => { d with mem := Memory.writeAll d.mem cells }
           groups := s.groups.map fun g => { g with b := g.b.set 6 (record 4096 4 16 1 (2 ^ 104)) } }

/-- `smp` through that record at a resident page and at one that is not (R115, R225). -/
theorem witness_level_of_detail : ([1, 0] : List Byte).map (fun map =>
    let i := Instr.smp (mem 6 6 (.v 4) .zero)
    let s := lodState i map
    let xs := turnSites s s.focus B i
    decide (AtWord s B) && xs.all (Proceeds i) && xs.any (fun x => Clear i x && lodFlag x 6) &&
      (xs.all fun x => !Clear i x || !sampleHeld 6 6 (fun x => (x.read32 .zero).toInt) (fun _ => 0) x) &&
      match (xs.find? (Clear i)).map fun x => lodAccess x 6 0 0 4 with
      | some (.ok h) => decide (h.status = if map = 1 then 0 else 0xF2) && h.spots.length = (if map = 1 then 4 else 0)
      | _ => false) = [true, true] := by decide +kernel

theorem witness_hints : Meets (.pref (mem 6 0 .zero)) id (prefHeld (mem 6 0 .zero)) (fun x => (passed (prefSpots (mem 6 0 .zero) x)).isSome) = true ∧
    Meets (.resh (mem 6 0 .zero)) id (fun _ => false) (fun x => !lodFlag x 0 &&
      (passed (elementAccess x.before x 0 (x.read32 (.v 1)).toInt 4 ⟨.read, true, false, true⟩)).isSome) = true := by decide +kernel

/-- The hypotheses about the atomics and reductions: the access passes. -/
def MeetsAtomic (i : Instr) (n : BitVec 5) (f : Thread → Thread := id) : Bool :=
  let acc := fun x : Site => elementAccess x.before x n.toNat (x.read32 (.v 1)).toInt 4 ⟨.atomic, false, false, false⟩
  Meets i f (accessHeld acc) fun x => (accessed (acc x) fun _ _ => Effect.halt).isSome

theorem witness_atomics : ([.aadd (atom), .amin (atom), .amax (atom), .aand (atom), .aor (atom), .axor (atom), .axchg (atom),
    .acas (atom), .redadd redn, .redmin redn, .redmax redn, .redand redn, .redor redn, .redxor redn] : List Instr).all
      (MeetsAtomic · 0) = true := by decide +kernel

theorem witness_waits :
    (let acc := fun x : Site => elementAccess x.before x 0 (x.read32 (.v 1)).toInt 4 ⟨.read, false, false, false⟩
     Meets (.waita ⟨eff, ⟨6, 0, false, 0⟩, .v 4, .v 1, 0, 0⟩) id (accessHeld acc) (fun x => (accessed (acc x) fun _ _ => Effect.halt).isSome) &&
     Meets (.waitaTo ⟨eff, ⟨6, 0, true, 0⟩, .v 4, .v 1, 0, 0, .v 5⟩) id (accessHeld acc)
       (fun x => (accessed (acc x) fun _ _ => Effect.halt).isSome)) = true ∧
    Plain (.fence ⟨eff, ⟨4, 3, 0⟩, .zero, .zero, .zero, .zero⟩) = true ∧
    Plain (.xfence ⟨eff, ⟨4, 0, 3⟩, .zero, .zero, .zero, .zero⟩) = true := by decide +kernel

/-- 64 bytes from memory element 0 to scratchpad element 0, by token and by arrival word (R129, R132). -/
theorem witness_copies :
    (let w := fun (a : Bool) (d : Operand) => (⟨eff, ⟨a, 0, 0⟩, d, .v 2, 0, 1, .v 6⟩ : CopyWord ModCP)
     let own := fun two x => (passed (copyMoves x (copyShape x two (.v 2) (.v 6)) 0 1)).isSome
     Meets (.cpy1 (w false (.s 3))) (vs [(6, 64)]) (fun _ => false) (own false) &&
     Meets (.cpy1 (w true (.int 4))) (vs [(6, 0)]) (fun _ => false) (own false)) = true ∧
    Meets (.cpy2 ⟨eff, ⟨false, 0, 0⟩, .s 3, .v 2, 3, 4, .v 6⟩) (vs [(6, 0x0002_0010)]) (fun _ => false)
      (fun x => (passed (copyMoves x (copyShape x true (.v 2) (.v 6)) 3 4)).isSome) = true := by decide +kernel

/-- Bank 31 of core 0 is a queue (R135), and an empty segment of kind none is valid (R155). -/
theorem witness_other_effects : Plain (.spwf (opE .zero (.v 1))) = true ∧
    Meets (.qpush ⟨eff, ⟨3, false, false, 0⟩, .v 4, .v 1, .zero, .zero⟩) (vs [(1, 31)]) (fun _ => false)
      (fun x => (x.read32 (.v 1)).toNat / 4096 = 0 && copiedRole (getCore x.before x.core) ((x.read32 (.v 1)).toNat / 32 % 128)
        ((x.read32 (.v 1)).toNat % 32) = .fifo) = true ∧
    Meets (.qpop ⟨eff, ⟨3, false, false, 0⟩, .v 4, .v 1, .zero, .zero⟩) (vs [(1, 31)]) (fun _ => false)
      (fun x => copiedRole (getCore x.before x.core) 0 31 = .fifo) = true ∧
    Plain (.tmove ⟨eff, ⟨1, 0⟩, .s 1, .v 1, .zero, .zero⟩) = true ∧ Plain (.banksw (opE (.s 1) (.v 1))) = true ∧
    Meets (.segset ⟨eff, ⟨0⟩, 2, .v 4, .zero, .zero⟩) id (fun _ => false)
      (fun x => let g := quad (x.run 4 (.v 4)); g.extractLsb' 98 30 = 0 && g.extractLsb' 96 2 ≠ 3) = true ∧
    Plain (.halt (opE .zero .zero)) = true := by decide +kernel

theorem witness_matrix : Meets (.mxldb (opE (.s 3) (.v 1) (.v 2))) id (fun _ => false)
      (fun x => (passed (mxldbDesc x (x.read32 (.v 1)) (x.read32 (.v 2)))).isSome) = true ∧
    Meets (.mxop (opE (.s 4) (.v 1))) (vs [(1, 64)]) (fun _ => false) (fun x => (passed (mxopBlock x (x.read32 (.v 1)))).isSome) = true ∧
    Plain (.mxdrop (opE .zero (.v 1))) = true ∧ Plain (.mxq (op (.v 3) (.v 1))) = true := by decide +kernel

theorem witness_tiles : Meets (.fwork (opE .zero (.v 1))) (vs [(1, 32752)]) (fun _ => false)
      (fun x => (x.read32 (.v 1)).toNat % 16 = 0 && (x.read32 (.v 1)).toNat + 16 ≤ padBytes x.pass) = true ∧
    Meets (.tlacq ⟨eff, ⟨0⟩, 7, .int 1, .v 2, .zero⟩) (vs [(2, 0x0003_0003)]) (fun _ => false)
      (fun x => (tileWriteCheck x (x.read32 (.int 1)) (x.read32 (.v 2))).isNone) = true ∧
    Meets (.tldone (opE .zero (.int 1) (.v 2))) id (fun _ => false)
      (fun x => (tileWriteCheck x (x.read32 (.int 1)) (x.read32 (.v 2))).isNone) = true ∧
    Meets (.tlrd ⟨eff, ⟨0⟩, 31, .int 0, .v 2, .zero⟩) id (fun _ => false)
      (fun x => (tileReadCheck x (x.read32 (.int 0)) (x.read32 (.v 2))).isNone) = true ∧
    Meets (.tlrel (opE .zero (.int 0) (.v 2))) id (fun _ => false)
      (fun x => (tileReadCheck x (x.read32 (.int 0)) (x.read32 (.v 2))).isNone) = true := by decide +kernel

theorem witness_field : Plain (.rbox (op (.v 4) (.v 8) (.v 16))) = true ∧ Plain (.rtri (op (.v 4) (.v 8) (.v 16))) = true ∧
    Plain (.rhit (op (.v 4) (.v 8) (.v 16))) = true ∧
    Meets (.occstep ⟨plain, ⟨0⟩, .v 4, .v 8, 5, .zero⟩) (vs [(16, 10)]) (occstepHeld ⟨plain, ⟨0⟩, .v 4, .v 8, 5, .zero⟩)
      (fun x => (passed (occstepFind ⟨plain, ⟨0⟩, .v 4, .v 8, 5, .zero⟩ x)).isSome) = true ∧
    Meets (.hgrid ⟨plain, ⟨0⟩, .v 4, .v 8, 0, .v 1⟩) (vs [(1, 0x000A_0001)]) (hgridHeld ⟨plain, ⟨0⟩, .v 4, .v 8, 0, .v 1⟩)
      (fun x => (passed (hgridFind ⟨plain, ⟨0⟩, .v 4, .v 8, 0, .v 1⟩ x)).isSome) = true := by decide +kernel

/-- A NaN among the inputs of a box, and a triangle of one point. -/
theorem witness_field_values : isNan 0 (0x7FC0_0000 : Word).toNat = true ∧
    (∀ i < 9, ([1, 2, 3, 1, 2, 3, 1, 2, 3] : List Word).getD i 0 = ([1, 2, 3, 1, 2, 3, 1, 2, 3] : List Word).getD (i % 3) 0) := by
  decide

/-- The hypotheses about the cross-lane words. -/
def MeetsTogether (i : Instr) (sound : Site → Bool := fun _ => true) : Bool :=
  let s := stateAt i
  let xs := turnSites s s.focus B i
  decide (AtWord s B) && xs.all (fun x => (Clear i x || Disabled i x) && supplyReady i x && sound x) && xs.any (Clear i) &&
    xs.all fun x => !Clear i x || ((x.effective i).getLsbD x.t.lane &&
      xs.all fun y => !Clear i y || !x.beside y || x.effective i = y.effective i ||
        (!(x.effective i).getLsbD y.t.lane && !(y.effective i).getLsbD x.t.lane))

theorem witness_cross_lane : ([.shfi (opXL (.v 3) (.v 1) (.v 2)), .shfx (opXL (.v 3) (.v 1) (.int 1)), .shfu (opXL (.v 3) (.v 1) (.int 1)),
    .shfd (opXL (.v 3) (.v 1) (.int 1)), .ballot (opXL (.v 8) (.p 1) .zero), .ballot (opXL (.k 2) (.p 1) .zero),
    .vote (opXL (.p 2) (.p 1) .zero), .elect (opXL (.p 2) .zero .zero), .lred (opXL (.v 3) (.v 1) .zero)] : List Instr).all
      (MeetsTogether ·) = true := by decide +kernel

/-- A thread whose mask does not hold its own lane conflicts with itself, and is parked with its record (R143). -/
theorem witness_conflict :
    (let i := Instr.shfi ⟨plain, ⟨0, false, false, 0⟩, .v 3, .v 1, .v 2, .k 1⟩
     let s := stateAt i fun th => { th with k := th.k.set 1 0 }
     let xs := turnSites s s.focus B i
     decide (AtWord s B) && xs.all (fun x => (Clear i x || Disabled i x) && supplyReady i x) &&
       xs.any (fun x => Clear i x && !(x.effective i).getLsbD x.t.lane) &&
       match exec i s with
       | .next t => ((threadAtRef t T).map fun th =>
           decide (th.status = .ready) && th.faultInfo = 0x005 && th.data0 = 0x500 && th.seg.results.isEmpty).getD false
       | _ => false) = true := by decide +kernel

/-- A hint whose element lies outside its record completes and is counted (R118, R119). -/
theorem witness_hint_dropped :
    (let i := Instr.pref (mem 6 0 .zero)
     Meets i (vs [(1, 9999)]) (prefHeld (mem 6 0 .zero)) (fun x => match prefSpots (mem 6 0 .zero) x with
       | .error tr => decide (tr.code = .bounds)
       | .ok _ => false) &&
       match exec i (stateAt i (vs [(1, 9999)])) with
       | .next t => (getCore t 0).hintDrops = 1
       | _ => false) = true := by decide +kernel

/-- Infinities at the choices and compares (R92, R95), and sources in the domain of every bound of R93. -/
theorem witness_float_values : unpack 0 0x7F80_0000 = .inf false ∧ unpack 0 0xFF80_0000 = .inf true ∧
    isNan 0 0x3F80_0000 = false ∧ pickBits 0 false 0x7F80_0000 0x3F80_0000 = 0x3F80_0000 ∧
    fcmpHolds 0 2 0xFF80_0000 0x3F80_0000 = true ∧ unpack 0 0x3F80_0000 = .fin false 0x80_0000 (-23) ∧
    (0x3F80_0000 : Nat) < 2 ^ fmtWidth 0 ∧ fmtBias 0 = 127 := by decide +kernel

/-- A source that meets the hypotheses of every bound of R93: 1.0 in FP32, positive, below 128 and from 0.5 to 2. -/
theorem witness_approximation_bounds : (0 : Nat) < 3 ∧ (0x3F80_0000 : Nat) < 2 ^ fmtWidth 0 ∧
    unpack 0 0x3F80_0000 = .fin false 0x80_0000 (-23) ∧ (FVal.fin false 0x80_0000 (-23)).number = 1 ∧ fmtBias 0 + 1 = 128 := by
  decide +kernel

/-- A hint that reads a distance with nothing before it takes DISTANCE_RANGE: step 7 of R58 is made for every instruction. -/
theorem test_hint_distance :
    (let i := Instr.pref (mem 6 0 .zero (.dist 0))
     let xs := turnSites (stateAt i) 0 B i
     !xs.isEmpty && xs.all fun x => match verdict i x with
       | .fault tr => tr.code = .distanceRange
       | _ => false) = true := by decide +kernel

/-- The system writes of a segment: none, and two held one after the other (R151). -/
theorem witness_held_writes : (Segment.empty 0 0).sysWrites 0x009 = [] ∧
    ({ Segment.empty 0 0 with results := [⟨0, false, true, [.sys 0x009 7], 0⟩, ⟨0, false, true, [.sys 0x009 5], 0⟩] } : Segment).sysWrites 0x009 =
      [5] ++ [7] := by decide +kernel

/-- A disabled `br` at the end of its clause: the thread continues after it (R74). -/
theorem witness_disabled_transfer :
    (let i := Instr.br ⟨⟨false, 1, some 0⟩, ⟨0⟩, .zero, .literal, .zero, .zero⟩
     let b := { B with words := [(0, placedHeader i)] }
     let s := updCore (stateAt i) 0 fun c => { c with burst := some b }
     let xs := turnSites s s.focus b i
     decide (AtWord s b) && xs.all (Proceeds i) && xs.all (fun x => !x.th.seg.gather && x.th.seg.ending.isNone) &&
       xs.any (Disabled i) && ((b.words.find? fun w => w.1 = b.hdr.toNat).map fun h =>
         decide (b.pc.toNat + 16 = b.hdr.toNat + 8 + 8 * hdrCount h.2)).getD false &&
       match exec i s with
       | .next t => endingOf t T = some (.go 24 24)
       | _ => false) = true := by decide +kernel

/-- The clause placed at code offset 0 starts a segment, so 0 is a good target (R73). -/
theorem witness_transfers : ([.br ⟨⟨false, 0, some 0⟩, ⟨0⟩, .zero, .literal, .zero, .zero⟩,
      .call ⟨⟨false, 0, some 0⟩, ⟨0⟩, .v 3, .literal, .zero, .zero⟩, .ret (op .zero (.v 1)), .jmpi (op .zero (.v 1)),
      .calli (op (.v 3) (.v 1))] : List Instr).all
      (fun i => Meets i id (fun _ => false) fun x => (targetFault x.before x.core x.g x.pass 0).isNone) = true ∧
    ([.exit (op), .trap (op .zero (.v 1)), .brk (op .zero (.v 1))] : List Instr).all Plain = true ∧
    Meets (.trapret (op)) (fun th => { th with inHandler := true }) (fun _ => false) (fun _ => true) = true := by decide +kernel

theorem witness_system : ([.sysrd ⟨plain, ⟨0⟩, .v 3, 0x020, .zero, .zero⟩, .syswr ⟨plain, ⟨0⟩, 0x008, .v 1, .zero, .zero⟩,
    .memStatusClear ⟨plain, ⟨0⟩, 0x001, .v 1, .zero, .zero⟩, .cntCfgWrite ⟨plain, ⟨0⟩, 0x03F, .v 1, .zero, .zero⟩,
    .cntrd (op (.v 4) (.v 1)), .clkrd (op (.v 4) (.int 1))] : List Instr).all Plain = true ∧
    (threadAtRef (stateOf 0 id) T).isSome = true ∧ (stateOf 0 id).cores[0]?.isSome = true := by decide +kernel

/-- A thread whose guard enables an unassigned opcode (R57). -/
theorem witness_unassigned : Meets (.unassignedOpcode 0x7FE0_0000_0000_0000) = false ∧
    (let s := stateOf 0x7FE0_0000_0000_0000 id
     let i := Instr.unassignedOpcode 0x7FE0_0000_0000_0000
     decide (AtWord s B) && (turnSites s s.focus B i).all (Proceeds i) &&
       (turnSites s s.focus B i).any fun x => x.word = 0x7FE0_0000_0000_0000 && guardRead x && guardOn x x.guard) = true := by
  decide +kernel

/-! ## Small states for the steps of the other agents, and for the commit of a segment

Each theorem below shows that the hypotheses of a statement's clauses are met together, with what the one step then does. -/

/-- What one step leaves. -/
def after (i : Instr) (s : State) (p : State → Bool) : Bool :=
  match exec i s with
  | .next t => p t
  | _ => false

def one (s : State) (p : Thread → Bool) : Bool := ((threadAtRef s T).map p).getD false
def core0 (f : Core → Core) (s : State) : State := updCore s 0 f
def group1 (f : Group → Group) (s : State) : State := updGroup s 1 f
def pass0 (f : Pass → Pass) (s : State) : State := updPass s 4 0 f

/-- The state with no burst. -/
def quietState (f : Thread → Thread) : State := core0 (fun c => { c with burst := none }) (stateOf 0 f)

/-- A thread that commits with an ending. -/
def comm (e : Ending) (seg : Segment → Segment := id) (f : Thread → Thread := id) : State :=
  quietState fun th => f { th with status := .committing, seg := seg { Segment.empty 0 0 with ending := some e } }

/-- The hypotheses of `Commits` for thread T. -/
def commitsB (s : State) (g : Group) (th : Thread) (k : Nat) (e : Ending) : Bool :=
  decide (findThread s T = some (g, th)) && decide (g.core = some k) && decide (k < s.cores.length) &&
    decide (th.status = .committing) && !(getCore s k).fatal && !passStopping s g && !replayDue s g th T &&
    mayCommit s g th T && decide (th.seg.ending = some e) && !th.seg.gather

theorem commits_of {s g th k e} (h : commitsB s g th k e = true) : Commits s T g th k e := by
  simp only [commitsB, Bool.and_eq_true, decide_eq_true_eq, Bool.not_eq_true'] at h
  obtain ⟨⟨⟨⟨⟨⟨⟨⟨⟨h1, h2⟩, h3⟩, h4⟩, h5⟩, h6⟩, h7⟩, h8⟩, h9⟩, h10⟩ := h
  exact ⟨h1, h2, h3, h4, h5, h6, h7, h8, h9, h10⟩

/-- A thread parked in an effect. -/
def parkedIn (e : Effect) (f : Thread → Thread := id) : State :=
  quietState fun th => f { th with status := .parkedEffect, waiting := some e, pc := 16, hdr := 16, seg := Segment.empty 16 16 }

def parkedB (s : State) (g : Group) (th : Thread) (k : Nat) (e : Effect) : Bool :=
  decide (findThread s T = some (g, th)) && decide (g.core = some k) && decide (k < s.cores.length) &&
    decide (th.status = .parkedEffect) && decide (th.waiting = some e)

theorem parked_of {s g th k e} (h : parkedB s g th k e = true) : Parked s T g th k e := by
  simp only [parkedB, Bool.and_eq_true, decide_eq_true_eq] at h
  obtain ⟨⟨⟨⟨h1, h2⟩, h3⟩, h4⟩, h5⟩ := h
  exact ⟨h1, h2, h3, h4, h5⟩

/-- Thread T with its group and its core. -/
def atT (s : State) (p : Group → Thread → Nat → Bool) : Bool :=
  match findThread s T with
  | some (g, th) => match g.core with
    | some k => p g th k
    | none => false
  | none => false

def Committing (s : State) (e : Ending) (more : Group → Thread → Bool := fun _ _ => true) : Bool :=
  atT s fun g th k => commitsB s g th k e && more g th
def Waits (s : State) (e : Effect) (more : Group → Thread → Nat → Bool := fun _ _ _ => true) : Bool :=
  atT s fun g th k => parkedB s g th k e && more g th k

/-- A clean wait of thread T at word 0 of memory; `cmp` says whether the condition, equality, holds. -/
def waitFor (cmp : Wide) (timeout : Option Word) : Effect := .wait 6 0 (.mem (tierBase 1)) boardVa cmp timeout 1 0 16 16

def atomicAt (loc : Loc) (scope : Nat := 0) : Effect := .atomic .add 6 scope 3 loc boardVa 5 0 (.v 4) 9 16 16

/-! ## The device's steps as a whole -/

theorem witness_steps : State.reset.agenda = [] ∧
    (stateAt (.nop op)).agenda = [.fetch 0] ∧
    (let s := { stateAt (.nop op) with agenda := [] }
     match s.cores[0]? with
     | some c => match c.burst with
       | some b => b.entered && decide (decodeWords [burstWord { s with focus := 0 } 0 b b.pc.toNat,
           burstWord { s with focus := 0 } 0 b (b.pc.toNat + 8)] = .ok (.nop op, [0]))
       | none => false
     | none => false) = true := by decide +kernel

theorem witness_invariant : (stateAt (.nop op)).shaped = true ∧ (stateAt (.nop op)).memoryWf = true ∧
    (stateAt (.nop op)).focus < 128 ∧ (Instr.nop op).wf = true ∧ (Instr.nop op).isWord = true ∧
    after (.nop op) (stateAt (.nop op)) (fun _ => true) = true ∧
    (match step (stateAt (.nop op)) with
     | .next _ => true
     | _ => false) = true := by decide +kernel

/-- The sites of the placed thread at an instruction. -/
def sites (i : Instr) (f : Thread → Thread := id) : List Site := turnSites (stateAt i f) (stateAt i f).focus B i

theorem witness_guard_8 : ((sites (.nop op)).map fun x => ({ x with word := 8#64 <<< 9 } : Site).guard) = [8] := by decide +kernel

/-- A word waits for a pending scalar (R19), and a guard that is false disables it (R27). -/
theorem witness_waiting_disabled :
    (let i := Instr.iadd (opIN (.v 3) (.s 3) (.v 2))
     let s := group1 (fun g => { g with rows := g.rows.map fun r => { r with pend := 8 } }) (stateAt i)
     decide (AtWord s B) && i.isWord && (turnSites s s.focus B i).any (fun x => !Proceeds i x)) = true ∧
    (let i := Instr.iadd ⟨⟨false, 1, none⟩, modIN, .v 3, .v 1, .v 2, .zero⟩
     let s := stateAt i
     decide (AtWord s B) && (turnSites s s.focus B i).all (Proceeds i) && (turnSites s s.focus B i).any (Disabled i) &&
       after i s fun t => decide (t ≠ s) && one t fun th => th.seg.results = [⟨0, true, true, [], 0⟩]) = true := by decide +kernel

theorem witness_frame :
    after (.iadd (opIN (.v 3) (.v 1) (.v 2))) (stateAt (.iadd (opIN (.v 3) (.v 1) (.v 2)))) (fun _ => true) = true ∧
    (Instr.iadd (opIN (.v 3) (.v 1) (.v 2))).engineClass = some 0 ∧
    (sites (.iadd (opIN (.v 3) (.v 1) (.v 2)))).all (fun x => !Faults (.iadd (opIN (.v 3) (.v 1) (.v 2))) x) = true := by decide +kernel

/-- The checks of an element access in their order: each site and buffer meets one clause of `ElementAccesses`. -/
theorem witness_access_faults :
    (let i := Instr.ld (mem 6 0)
     let u : Use := ⟨.read, false, true, false⟩
     let ring : BitVec 128 := BitVec.ofNat 128 (4 * 2 ^ 48 + 1024 * 2 ^ 64 + 2 ^ 111)
     let b0 := fun (r : BitVec 128) (x : Site) => { x with g := { x.g with b := x.g.b.set 0 r } }
     (sites i).any fun x =>
       regPoisoned { x.g with marks := [.b 0] } x.th (.b 0) &&
       (bufRec ((b0 ring x).record 0)).ring && !inTileTable x.g ring &&
       !recDefined (bufRec ((b0 (BitVec.ofNat 128 (2 ^ 112)) x).record 0)) &&
       (passed (checkRecord x 0 1024 u)).isSome && (passed (checkRecord x 0 0 u)).isSome &&
       effLimit (padBytes x.pass) (regNow x.g x.th (.g 1)) < 65534 + 4 &&
       (passed (checkRecord (b0 (record 65534 4 1024 1 0) x) 0 0 u)).isSome &&
       (passed (checkRecord (b0 (record 2 4 1024 1 0) x) 0 0 u)).isSome &&
       (segBase (regNow x.g x.th (.g 1)) + 2) % 4 ≠ 0) = true := by decide +kernel

/-! ## Commit, traps, faults and the selector -/

/-- A segment with a register write of each kind and a store commits; then its thread is ready where it goes on (R17, R194). -/
theorem witness_commit :
    (let ws : List RegWrite := [.v 3 7, .s 2 9, .p 1 true, .k 1 5, .b 3 1]
     let seg := fun (g : Segment) => { g with
       results := [⟨0, true, true, ws, 7⟩, ⟨0, true, true, [.v 3 6], 6⟩], stores := [⟨[(.mem (tierBase 1), 1)], none, 0, false, false, false⟩] }
     let s := comm (.go 8 0) seg
     Committing s (.go 8 0) (fun _ th => th.seg.effect.isNone) && after (.segmentCommit T) s fun t => one t fun th =>
       th.status = .ready && th.v.getD 3 0 = 7 && th.p = 3 && th.buffer.length = 1 && scalarOf t 1 0 2 = 9) = true ∧
    (Committing (comm .exit) .exit && after (.segmentCommit T) (comm .exit) fun t => one t fun th => th.status = .exited) = true := by
  decide +kernel

/-- Effects that leave their thread parked (R195). -/
def parking : List Effect :=
  [atomicAt (.mem (tierBase 1)), waitFor 0 none, .fence 4 3, .xfence 4 .v .s, .tile .done 0 0 0, .spwf 1, .mxdrop 1,
   .pop 31 0 false false (.v 3) 0 0]
/-- Effects that start and leave their thread ready. -/
def starting : List Effect :=
  [.reduction .add 6 0 0 (.mem (tierBase 1)) boardVa 5 9, .copy [⟨.pad 0 0, .ring 0, 64⟩] (.token 0 3), .tmove 0 3 5 1,
   .mxldb 0 3 0 0, .mxop 0 3 0, .fwork 64, .segset 2 segMem, .banksw 0 3 1, .push 31 0 false false 5 0 0]

theorem witness_effects : (parking.all fun e =>
      let s := comm (.go 16 16) fun g => { g with effect := some e }
      Committing s (.go 16 16) (fun _ th => th.seg.effect = some e) && after (.segmentCommit T) s fun t => one t fun th =>
        th.status = .parkedEffect && th.waiting.isSome) = true ∧
    (starting.all fun e =>
      let s := comm (.go 16 16) fun g => { g with effect := some e }
      Committing s (.go 16 16) (fun _ th => th.seg.effect = some e) && after (.segmentCommit T) s fun t => one t fun th =>
        th.status = .ready && th.pc = 16) = true ∧
    (let s := comm (.go 16 16) fun g => { g with effect := some .halt }
     Committing s (.go 16 16) (fun _ th => th.seg.effect = some .halt) && after (.segmentCommit T) s fun t =>
       t.notices.length = 1 && one t fun th => th.status = .parkedHost) = true := by decide +kernel

/-- `trap` goes to the vector at 0, a `brk` of a thread in its handler to the host, `trapret` back to the saved place. -/
theorem witness_traps :
    (let s := comm (.trap false 16 5)
     Committing s (.trap false 16 5) (fun g th => vectorUsable s g (richPass) && !th.inHandler && th.seg.results.isEmpty) &&
       decide (findPass s 4 0 = some richPass) && after (.segmentCommit T) s fun t => one t fun th =>
         th.status = .ready && th.pc = 0 && th.inHandler && th.faultInfo = 0x140 && th.faultPc = 16 && th.data0 = 5) = true ∧
    (let s := comm (.trap true 16 5) id fun th => { th with inHandler := true }
     Committing s (.trap true 16 5) (fun _ th => th.inHandler && th.seg.results.isEmpty) && after (.segmentCommit T) s fun t => one t fun th =>
       th.status = .parkedHost && th.faultInfo = 0x141) = true ∧
    (let s := comm (.trapret 8) id fun th => { th with inHandler := true, faultInfo := 0x140, faultPc := 8 }
     Committing s (.trapret 8) (fun g th => (resumeBad s 0 g richPass th.faultPc th.faultHdr).isNone && th.seg.results.isEmpty) &&
       after (.segmentCommit T) s fun t => one t fun th => th.status = .ready && th.pc = 8 && !th.inHandler) = true := by decide +kernel

/-- A `trapret` whose saved place lies outside its clause parks for the host with CLAUSE_FORMAT (R153, R331). -/
theorem witness_trapret_fails :
    (let s := comm (.trapret 8) id fun th => { th with inHandler := true, faultInfo := 0x140, faultPc := 24 }
     Committing s (.trapret 8) (fun g th => resumeBad s 0 g richPass th.faultPc th.faultHdr = some 24 && th.seg.results.isEmpty) &&
       after (.segmentCommit T) s fun t => one t fun th =>
         th.status = .parkedHost && th.failedRet && th.faultInfo = 0x103 && th.faultPc = 24 && th.data0 = 24 && th.data1 = 8) = true := by
  decide +kernel

/-- A gather segment whose closure is its one thread commits (R144, R194); a segment that read a bad block is replayed (R197). -/
theorem witness_gather_and_replay :
    (let s := comm (.go 16 16) fun g => { g with gather := true }
     atT s fun g th _ => th.seg.gather && !replayDue s g th T && mayCommit s g th T &&
       ((commitSet s g th T).map fun u => refOf u.1 u.2) = [T] &&
       after (.segmentCommit T) s fun t => one t fun th => th.status = .ready && th.pc = 16) = true ∧
    (let s := comm (.go 16 16) fun g => { g with missed := true }
     atT s fun g th _ => th.seg.missed && !th.seg.suspect && !th.seg.gather && !passStopping s g &&
       after (.segmentCommit T) s fun t => one t fun th =>
         th.status = .committing && th.seg.again && th.seg.checked && !th.seg.missed && th.pc = 0) = true := by decide +kernel

/-- Taking a fault in each of its routes (R330-R333). -/
theorem witness_fault_routes :
    (let r := fun (c : Code) => (⟨c.bits, false, 8, 0, 1, 2, some (.page 3)⟩ : Record)
     let s := quietState id
     let h := quietState fun th => { th with inHandler := true }
     decide (findPass s 4 0 = some richPass) && decide (findPass h 4 0 = some richPass) &&
     one (takeFault h T (r .bounds) false) (fun th => th.status = .parkedHost && th.faultInfo = 0x10) &&
     one (takeFault s T (r .misaligned) true) (fun th => th.status = .ready && th.split) &&
     one (takeFault s T (r .pageAbsent) false) (fun th => th.status = .parkedFault && th.notice = some 0) &&
     one (takeFault s T (r .bounds) false) (fun th => th.status = .ready && th.pc = 0 && th.inHandler && th.data1 = 2)) = true := by
  decide +kernel

/-- The placed burst before its clause: at the good header 0, and at 8, where no header stands. -/
def entering (hdr : Word) : State :=
  core0 (fun c => { c with burst := c.burst.map fun b => { b with entered := false, hdr := hdr, pc := hdr } }) (stateAt (.nop op))

theorem witness_clause_entry :
    (let s := entering 0
     let b := ((getCore s 0).burst).getD B
     atT s fun g _ _ => !heldAtClause s 0 b T && !clauseMoves s 0 b && decide (b.groups.flatten = [T] ∧ g.g ≠ [] ∧ b.base < 2 ^ 48) &&
       (clauseTrouble s 0 (g.via b.base) richPass T 0).isNone &&
       after (.clauseEnter 0) s fun t => ((getCore t 0).burst.map fun b => b.entered && b.pc = 8).getD false) = true ∧
    (let s := entering 8
     let b := ((getCore s 0).burst).getD B
     atT s fun g _ _ => !heldAtClause s 0 b T && !clauseMoves s 0 b && decide (b.groups.flatten = [T]) &&
       (clauseTrouble s 0 (g.via b.base) richPass T 8).isSome &&
       after (.clauseEnter 0) s fun t => (getCore t 0).burst.isNone && one t fun th => th.faultInfo = 0x03 && th.pc = 0) = true := by
  decide +kernel

/-- A ready thread in the block waiting table is selected (R188-R190). -/
theorem witness_select :
    (let s := makeReady (quietState fun th => { th with pc := 0, hdr := 0 }) T
     (chooseEntry s 0 none).isSome && coreClocked s 0 && (lateThreads s 0).isEmpty && (getCore s 0).burst.isNone &&
       (getCore s 0).chosen.isNone && after (.burstSelect 0) s fun t =>
         ((getCore t 0).burst.map fun b => b.groups = [[T]] && !b.entered).getD false && one t fun th => th.status = .running) = true := by
  decide +kernel

/-- A load returns its bytes; one with a mismatch replays its segment once (R107, R110). -/
def loading (mismatch : Option Nat) : State :=
  quietState fun th => { th with
    status := .committing
    seg := { Segment.empty 0 0 with
      ending := some (.go 16 16), results := [⟨0, true, false, [], 0⟩], loads := [⟨0, .plain (.v 3) 1, [0xFE, 0xFF], none, mismatch, true⟩] } }

theorem witness_load_return :
    after (.loadReturn T) (loading none) (fun t => one t fun th => th.seg.loads.isEmpty &&
      th.seg.results = [⟨0, true, true, [.v 3 0xFFFF_FFFE], 0xFFFF_FFFE⟩]) = true ∧
    after (.loadReturn T) (loading (some boardVa)) (fun t => one t fun th =>
      th.status = .committing && th.seg.missed && th.seg.loads.isEmpty) = true := by
  decide +kernel

theorem witness_droop_release :
    (let s := core0 (fun c => { c with cycles := 256 }) (comm (.go 16 16) fun g => { g with held := true })
     atT s fun g _ _ => decide (g.threads.map (refOf g) = [T]) &&
       after (.droopHoldRelease 0) s fun t => one t fun th => th.status = .committing && th.seg.again && !th.seg.held) = true := by decide +kernel

/-- A fault of lane 0 of a gather segment parks lane 1, which lane 0 has named, with lane 0 and its code (R144, R331). -/
theorem witness_closure :
    (let s := group1 (fun g => { g with threads := g.threads ++ g.threads.map fun th => { th with lane := 1 } })
       (quietState fun th => { th with status := .running, seg := { th.seg with gather := true, mates := 3 } })
     atT s fun g th _ => th.seg.gather && !th.seg.missed && decide (th.lane < 128) &&
       decide ((g.threads.map fun u => (u.row, u.lane)).Nodup) && ((gatherClosure g th).map Thread.lane) = [1] &&
       ((threadAtRef (faultThread s 0 T ⟨.bounds, 1, 2, none, false⟩) ⟨1, 0, 1⟩).map fun u =>
         u.status = .ready && u.faultInfo = 0x005 && u.data0 = 0x1000).getD false) = true := by decide +kernel

/-- A thread that has read a mismatching block leaves a faulting word out (R197). -/
theorem witness_missed_fault :
    (let i := Instr.iadd (opIN (.v 3) (.v 1) (.v 2))
     let s := stateAt i fun th => { th with marks := [.v 1], seg := { th.seg with missed := true } }
     let xs := turnSites s s.focus B i
     decide (AtWord s B) && xs.all (fun y => Proceeds i y && !y.th.seg.gather) && xs.any (fun x => Faults i x && x.th.seg.missed) &&
       after i s fun t => decide (t ≠ s) && one t fun th => th.status = .running && th.seg.results = [⟨0, true, true, [], 0⟩]) = true := by
  decide +kernel

/-- A poisoned load after a mismatch leaves the segment to its replay (R107, R197). -/
theorem witness_poisoned_load :
    (let s := quietState fun th => { th with status := .committing, seg := { Segment.empty 0 0 with
       missed := true, ending := some (.go 16 16), loads := [⟨0, .plain (.v 3) 1, [0xFE, 0xFF], some boardVa, none, true⟩] } }
     one s (fun th => th.seg.loads.length = 1 && th.seg.missed) && after (.loadReturn T) s fun t => one t fun th =>
       th.status = .committing && th.seg.missed && th.seg.loads.isEmpty) = true := by decide +kernel

/-! ## Stores, atomics, waits, fences, queues, copies and banks -/

/-- A store of four bytes at the head of the buffer. -/
def storing (loc : Nat → Loc) (event : Option Nat) (u : State → State := id) (seen : Bool := false) : State :=
  u (quietState fun th => { th with
    status := .ready, buffer := [⟨[(loc 0, 1), (loc 1, 2), (loc 2, 3), (loc 3, 4)], event, 0, false, false, seen⟩] })

def inMem (i : Nat) : Loc := .mem (tierBase 1 + i)
def aReduction : Reduction := ⟨0, T, 0, .add, 6, 0, 0, .mem (tierBase 1), boardVa, 5, 9⟩

theorem witness_drain :
    (let s := storing inMem none
     atT s fun _ th _ => s.shaped && !(th.buffer.any (storeBlocked s T)) && after (.storeDrain T) s fun t =>
       one t (fun th => th.buffer.isEmpty) && vByte t 0 (tierBase 1 + 3) = 4 && homeByte t 0 (tierBase 1 + 3) = 0) = true ∧
    (let s := storing inMem none (fun s => fillS s 0 (tierBase 1)) true
     atT s fun _ th _ => s.shaped && !(th.buffer.any (storeBlocked s T)) && after (.storeDrain T) s fun t =>
       homeByte t 0 (tierBase 1 + 3) = 4 && sByte t 0 (tierBase 1 + 3) = 4) = true ∧
    (let s := storing inMem (some 7)
     atT s fun g th _ => lineReady g 0 7 && !(th.buffer.any (storeBlocked s T)) &&
       decide ((g.threads.map fun u => (u.row, u.lane)).Nodup) && after (.storeDrain T) s fun t =>
         one t (fun th => th.buffer.isEmpty) && homeByte t 0 (tierBase 1 + 3) = 4 && homeByte t 1 (tierBase 1 + 3) = 0) = true ∧
    (let s := storing inMem none fun s => { s with reductions := [aReduction] }
     atT s fun _ th _ => th.buffer.any (storeBlocked s T) && after (.storeDrain T) s fun t => decide (t = s)) = true := by
  decide +kernel

/-- `aadd` of 5 at a word of memory, at core scope and at device scope with an idle link, and at a word of the scratchpad. -/
theorem witness_atomic : ([(.mem (tierBase 1), 0), (.mem (tierBase 1), 4), (.pad 0, 4)] : List (Loc × Nat)).all (fun (loc, scope) =>
      let s := parkedIn (atomicAt loc scope)
      let atomicAt := fun loc => atomicAt loc scope
      s.dies.all (fun d => d.pending.isEmpty && d.from_.isEmpty) && (getCore s 0).l1Dirty.isEmpty && !destPending s T false (.v 4) &&
      s.shaped && s.memoryWf && s.poison.isEmpty && s.mismatch.isEmpty && Waits s (atomicAt loc) (fun g _ _ =>
        g.padPoison.isEmpty && g.padMismatch.isEmpty && !batchPending s g 9 loc &&
          (atomicsOf s g 9 loc).map AtomicOne.thread = [T]) && s.reductions.isEmpty &&
      one s (fun th => th.buffer.isEmpty) && after (.atomicPerform T) s fun t =>
        one t (fun th => th.status = .ready && th.v.getD 4 9 = 0) && wordAtPlace t 0 1 loc 4 = 5) = true := by decide +kernel

theorem witness_reduction :
    (let s := { quietState id with reductions := [aReduction] }
     s.shaped && s.memoryWf && s.poison.isEmpty && s.mismatch.isEmpty && atT s (fun g th _ => th.buffer.isEmpty &&
       decide (findGroup s 1 = some g) && !batchPending s g 9 (.mem (tierBase 1))) && after (.reductionPerform 0) s fun t =>
         t.reductions.isEmpty && wordAtPlace t 0 1 (.mem (tierBase 1)) 4 = 5) = true := by decide +kernel

/-- The common hypotheses about a waiting thread. -/
def cleanWait (s : State) (e : Effect) : Bool :=
  Waits s e (fun g th _ => decide (findGroup s g.serial = some g) && !th.held && g.phase = .resident && th.buffer.isEmpty &&
    g.padPoison.isEmpty && g.padMismatch.isEmpty) && s.poison.isEmpty && s.mismatch.isEmpty && (getCore s 0).l1Dirty.isEmpty

/-- The wait holds at once, after it has held an entry in a quiet cluster, and does not hold (R124, R125, R351). -/
theorem witness_wait :
    (let s := parkedIn (waitFor 0 none)
     cleanWait s (waitFor 0 none) && !isRefused (getCore s 0) T && after (.waitaReeval T) s fun t => one t fun th =>
       th.status = .ready) = true ∧
    (let s := parkedIn (waitFor 0 none)
     let s := core0 (fun c => { c with waits := [T] }) { s with cores := s.cores.map fun c => { c with cycles := 300 } }
     cleanWait s (waitFor 0 none) && holdsEntry (getCore s 0) T && after (.waitaReeval T) s fun t => one t fun th =>
       th.status = .parkedEffect && th.held) = true ∧
    (let s := parkedIn (waitFor 1 none)
     cleanWait s (waitFor 1 none) && after (.waitaReeval T) s fun t => (one t fun th => th.status = .parkedEffect) &&
       holdsEntry (getCore t 0) T) = true := by decide +kernel

theorem witness_timeout_and_poll :
    (let s := core0 (fun c => { c with cycles := 10 }) (parkedIn (waitFor 1 (some 10)) fun th => { th with p := 3 })
     cleanWait s (waitFor 1 (some 10)) && after (.waitaTimeout T) s fun t => one t fun th => th.status = .ready && th.p = 1) = true ∧
    (let s := core0 (fun c => { c with cycles := 256, refused := [(T, 0)], issued := 200 }) (parkedIn (waitFor 0 none))
     cleanWait s (waitFor 0 none) && after (.waitaPoll T) s fun t => one t fun th => th.status = .ready) = true ∧
    (let s := core0 (fun c => { c with cycles := 256, refused := [(T, 0)] }) (parkedIn (waitFor 1 none))
     cleanWait s (waitFor 1 none) && after (.waitaPoll T) s fun t => (getCore t 0).refused = [(T, 256)]) = true ∧
    (let s := parkedIn (waitFor 0 none) fun th => { th with held := true }
     (s.dies[0]?.map Die.slewUsed) = some 0 && (admitOrder 0 15).find? (fun c => !(heldThreads s c).isEmpty) = some 0 &&
       after (.wakeAdmit 0) s fun t => one t fun th => th.status = .ready) = true := by decide +kernel

/-- A fence at device scope, and a cross-path fence from V to S, at die scope and at device scope. -/
theorem witness_fences :
    (let s := core0 (fun c => { c with l1Clean := [(tierBase 1, 0)], l1Dirty := [(tierBase 1 + 1, 9)] }) (parkedIn (.fence 4 3))
     Waits s (.fence 4 3) (fun _ th _ => th.buffer.isEmpty) && scopeDone (releaseWork s T 0 4) 0 4 && s.reductions.isEmpty && after (.fenceComplete T) s fun t =>
       one t (fun th => th.status = .ready) && (getCore t 0).l1Clean.isEmpty && (getCore t 0).l1Dirty.isEmpty &&
         homeByte t 1 (tierBase 1 + 1) = 9) = true ∧
    ([3, 4].all fun scope =>
     let s := core0 (fun c => { c with
         sCache := [⟨tierBase 1, List.replicate 128 (0, 0), .none⟩], l1Dirty := if scope = 3 then [(tierBase 1, 9)] else [] })
       (parkedIn (.xfence scope .v .s))
     let s := if scope = 4 then logWrite s .v (some 0) [] [tierBase 1] else s
     Waits s (.xfence scope .v .s) (fun _ th _ => th.buffer.isEmpty) && s.reductions.isEmpty && s.copies.isEmpty &&
       (getCore s 0).mxQueue.isEmpty && (getCore s 0).mxRun.isNone && s.late.isEmpty &&
       s.dies.all (fun d => d.pending.isEmpty && d.from_.isEmpty) && after (.xfenceComplete T) s fun t =>
         one t (fun th => th.status = .ready) && (getCore t 0).sCache.isEmpty) = true := by decide +kernel

def withBank (l : List Word) (s : State) : State := core0 (fun c => { c with banks := c.banks.set 31 ⟨.fifo, none, l, [], [T], 0, [], false⟩ }) s

theorem witness_queues :
    (let e := Effect.push 31 0 true false 0x0000_0002_0000_0001 0 0
     let s := withBank [7] (parkedIn e)
     Waits s e (fun _ th _ => th.buffer.isEmpty) && s.reductions.isEmpty && firstParked s 0 31 true = some T && queueScope 0 0 0 < 4 &&
       after (.queueServe 0 31) s fun t => (one t fun th => th.status = .ready) && (getBank t 0 31).entries = [7, 1, 2]) = true ∧
    (let e := Effect.pop 31 0 false false (.v 3) 0 0
     let s := withBank [7, 8] (parkedIn e)
     Waits s e && (firstParked s 0 31 true).isNone && firstParked s 0 31 false = some T && !destPending s T false (.v 3) && after (.queueServe 0 31) s fun t =>
       (one t fun th => th.status = .ready && th.v.getD 3 0 = 7) && (getBank t 0 31).entries = [8]) = true := by decide +kernel

/-- A copy of thread T. -/
def aCopy (arrival : Arrival) (todo : List Move) (fixups : List (List Move × Option Nat) := []) (moved : Nat := 0) : Copy :=
  ⟨5, T, arrival, todo, fixups, [], moved, 64, false⟩
def copying (c : Copy) (u : State → State := id) : State := u { quietState id with copies := [c] }
def theCopy (s : State) : Option Copy := s.copies.find? fun c => c.id = 5

/-- The hypotheses that the clauses share. -/
def copyGroup (s : State) : Bool :=
  atT s (fun g _ _ => decide (findGroup s 1 = some g)) && s.shaped && s.poison.isEmpty && s.mismatch.isEmpty &&
    (match theCopy s with
     | some c => !storesBefore s c.thread c.id && c.fixups.length < 16
     | none => false)

/-- Sixteen bytes out of and into the scratchpad, with a swizzle that moves the chunk (R130, R221). -/
theorem witness_copy_piece :
    (let s := copying (aCopy (.token 0 3) [⟨.pad 0 1, .ring 0, 16⟩])
     copyGroup s && (getCore s 0).aCache.isEmpty && takePiece s 0 [⟨.pad 0 1, .ring 0, 16⟩] = ([⟨.pad 0 1, .ring 0, 16⟩], []) &&
       after (.copyPiece 5) s fun t => ((theCopy t).map fun c => c.todo.isEmpty && c.moved = 16).getD false &&
       atT t fun g _ _ => aByte t 0 g (.mem (ringStorage 15)) = 0) = true ∧
    (let s := copying (aCopy (.token 0 3) [⟨.ring 0, .pad 128 1, 16⟩]) fun s =>
        { s with dies := s.dies.map fun d => { d with mem := Memory.writeAll d.mem (cellsAt (ringStorage 0) (List.replicate 16 5)) } }
     copyGroup s && after (.copyPiece 5) s fun t => ((theCopy t).map fun c => decide (c.moved = 16)).getD false &&
       atT t fun g _ _ => aByte t 0 g (.pad (swizzled 1 128)) = 5 && g.tags.headD 0 = 1) = true := by decide +kernel

/-- The board tier beyond the placed ranges has no page: `pageRoot` 0 has no table. -/
def noPage : Nat := boardVa + 2 ^ 30

/-- An absent page lists the piece, and puts it on a notice; an answer other than retry fails it (R342). -/
theorem witness_copy_fixup :
    (let m : Move := ⟨.va noPage, .pad 0 0, 64⟩
     let root := fun (s : State) => { s with dies := s.dies.map fun d => { d with
       mem := Memory.writeAll d.mem (cellsAt (tierBase 1 + 8 * (noPage / 2 ^ 39 % 512)) (List.replicate 8 0)) } }
     let s := copying (aCopy (.token 0 3) [m]) root
     let s' := copying (aCopy (.token 0 3) [] [([m], none)]) root
     copyGroup s && takePiece s 0 [m] = ([m], []) && !moveWaits s m && decide (placeEnd s 0 .read m.src = .error (.absent noPage)) &&
       after (.copyPiece 5) s (fun t => ((theCopy t).map fun c => c.todo.isEmpty && c.fixups = [([m], none)]).getD false) &&
       after (.copyFixupResolve 5) s' fun t => ((theCopy t).map fun c => decide (c.fixups = [([m], some 0)])).getD false) = true ∧
    (let m : Move := ⟨.ring 0, .pad 0 0, 64⟩
     let s := copying (aCopy (.token 0 3) [] [([m], some 0)]) fun s =>
       { s with notices := [⟨0, .fault 4 0 0 0 0x13 0, none, true, some .deliver⟩] }
     copyGroup s && pieceAnswer s 0 = some .deliver && after (.copyFixupResolve 5) s fun t =>
       ((theCopy t).map fun c => c.fixups.isEmpty && c.failed = [(0, 1)]).getD false) = true := by decide +kernel

/-- Two rows of a copy in one translation unit are one piece; a page still absent after a retry fails its piece with status 1,
and one that is there again is moved (R131, R332, R342). -/
theorem witness_copy_retry :
    (let m : Move := ⟨.va noPage, .pad 0 0, 64⟩
     let row : Move := ⟨.va (noPage + 128), .pad 64 0, 64⟩
     let root := fun (s : State) => { s with dies := s.dies.map fun d => { d with
       mem := Memory.writeAll d.mem (cellsAt (tierBase 1 + 8 * (noPage / 2 ^ 39 % 512)) (List.replicate 8 0)) } }
     let answered := fun (s : State) => { root s with notices := [⟨0, .fault 4 0 0 0 0x13 0, none, true, some .retry⟩] }
     let s := copying (aCopy (.token 0 3) [m, row]) root
     copyGroup s && !moveWaits s m && !moveWaits s row && takePiece s 0 [m, row] = ([m, row], []) &&
       after (.copyPiece 5) s (fun t => ((theCopy t).map fun c => decide (c.fixups = [([m, row], none)])).getD false) &&
       (let s := copying (aCopy (.token 0 3) [] [([m], some 0)]) answered
        !moveWaits s m && after (.copyFixupResolve 5) s fun t =>
          ((theCopy t).map fun c => c.fixups.isEmpty && c.failed = [(0, 1)]).getD false) &&
       (let m : Move := ⟨.ring 0, .pad 0 0, 64⟩
        let s := copying (aCopy (.token 0 3) [] [([m], some 0)]) answered
        copyGroup s && !moveWaits s m && after (.copyFixupResolve 5) s fun t =>
          ((theCopy t).map fun c => c.fixups.isEmpty && c.failed.isEmpty && c.moved = 64).getD false)) = true := by decide +kernel

theorem witness_copy_complete :
    (let s := copying (aCopy (.token 0 3) [] [] 64)
     copyGroup s && after (.copyComplete 5) s fun t => (theCopy t).isNone && scalarOf t 1 0 3 = 64) = true ∧
    (let s := copying (aCopy (.word 4) [] [] 64)
     copyGroup s && after (.copyComplete 5) s fun t => (theCopy t).isNone &&
       ((findGroup t 1).map fun h => padWord h 4) = some 64) = true ∧
    (let s := copying { aCopy (.word 4) [] [] 64 with failed := [(0, 1)] }
     copyGroup s && after (.copyComplete 5) s fun t => (theCopy t).isNone &&
       ((findGroup t 1).map fun h => padWord h 4) = some 0x8000_0000) = true ∧
    copyStatus ⟨5, T, .word 4, [], [], [(128, 2), (0, 3), (64, 1)], 0, 64, false⟩ = 3 := by decide +kernel

/-- A cache bank becomes a queue in three steps; a request with a set reserved bit, and one that changes nothing, are refused,
and one for a bank that is leaving waits (R156, R216). -/
theorem witness_banks :
    (let asks := fun (request : Word) (stage : Nat) => { quietState id with bankRequests := [⟨5, 1, 0, 3, request, stage⟩] }
     let stageOf := fun (t : State) => t.bankRequests.map BankRequest.stage
     after (.bankSwitch 5) (asks 0x45 0) (fun t => stageOf t = [1] && (getBank t 0 5).leaving) &&
       after (.bankSwitch 5) (asks 0x45 1) (fun t => stageOf t = [2] && (getBank t 0 5).role = .fifo) &&
       after (.bankSwitch 5) (asks 0x45 2) (fun t => stageOf t = [] && scalarOf t 1 0 3 = 0 &&
         copiedRole (getCore t 7) 0 5 = .fifo) &&
       after (.bankSwitch 5) (asks 0x4045 0) (fun t => scalarOf t 1 0 3 = 0x5000_0000) &&
       after (.bankSwitch 5) (asks 0x05 0) (fun t => scalarOf t 1 0 3 = 0x1000_0000 && (getBank t 0 5).role = .cache) &&
       (let s := core0 (fun c => { c with banks := c.banks.modify 5 fun b => { b with leaving := true } }) (asks 0x45 0)
        after (.bankSwitch 5) s fun t => decide (t = s))) = true := by decide +kernel

/-! ## The matrix engine, the tier engine, tiles, groups and graphs -/

def anItem (w : MxWork) : MxItem := ⟨T, 3, 3, w⟩
def aRun (w : MxWork) (suspect : Bool) : MxRun := ⟨anItem w, 1, false, false, [0], [(0, 5)], suspect, [], [], 0⟩

/-- The queue's head starts when its thread's stores are gone: a drop, and a load whose descriptor stands for one run. -/
theorem witness_matrix_start :
    ([.drop 1, .unload 1, .load 0 0, .op 0] : List MxWork).all (fun w =>
      let s := core0 (fun c => { c with mxQueue := [anItem w] }) (parkedIn (.mxdrop 1))
      !storesBefore s T 3 && !(getCore s 0).fatal && (getCore s 0).mxRun.isNone && after (.mxOpStart 0) s fun t =>
        (getCore t 0).mxQueue.isEmpty && (match w with
          | .drop _ => one t (fun th => th.status = .ready) && (getCore t 0).handles.headD none = none
          | .unload _ => one t (fun th => th.status = .ready)
          | .load .. | .op _ => (getCore t 0).mxRun.isSome)) = true := by decide +kernel

/-- The parameter block at 64 with 4 rows of C, and the handle it names, not resident, for which a run can be chosen (R160). -/
theorem witness_matrix_operation :
    (let s := core0 (fun c => { c with mxQueue := [anItem (.op (BitVec.ofNat 512 (ofBytes (padCellsAt.map Prod.snd) / 2 ^ 512)))] })
       (parkedIn (.mxdrop 1))
     let p := mxBlock (BitVec.ofNat 512 (ofBytes (padCellsAt.map Prod.snd) / 2 ^ 512))
     (getCore s 0).mCache.isEmpty && (findGroup s T.group).isSome && !storesBefore s T 3 &&
       match (getCore s 0).handles.getD p.handle none with
       | some h => isResident (getCore s 0) p.handle || (chooseRun (getCore s 0) (mxDesc h.desc).width).isSome
       | none => false) = true := by decide +kernel

theorem witness_matrix_complete :
    (let s := core0 (fun c => { c with mxRun := some (aRun (.op 0) false) }) (quietState id)
     (List.range 4).all (fun i => (failingSubs (getCore s 0) i).isEmpty) && after (.mxOpComplete 0) s fun t =>
       (getCore t 0).mxRun.isNone && scalarOf t 1 0 3 = 1 && atT t fun g th _ =>
         (List.range 4).map (padSeen t g { th with saw := [3] }) = [5, 0, 0, 0]) = true ∧
    (let s := core0 (fun c => { c with mxRun := some (aRun (.op 0) true) }) (quietState id)
     after (.mxOpComplete 0) s fun t => ((getCore t 0).mxRun.map MxRun.executions) = some 2) = true := by decide +kernel

/-- Macro 1 holds one column of handle 0, with errors in the outputs of sub-arrays (R312). -/
def holding (bad : List Nat) : State :=
  let v : MxVec := ⟨List.replicate 256 0, List.replicate 8 0⟩
  { core0 (fun c => { c with
      macs := c.macs.set 1 ⟨.clean, 0, some 0, 1, 0, [columnSums 3 v], bad.map fun i => (i, 0, 7)⟩
      handles := c.handles.set 0 (some ⟨0, 0xD3, 1, [v]⟩) }) (quietState id) with time := 65536 }

theorem witness_idle_test :
    failingSubs (getCore (holding []) 0) 1 = [] ∧ failingSubs (getCore (holding [4]) 0) 1 = [4] ∧
    after (.mxIdleSelfTest 0 1) (holding []) (fun t => t.notices.isEmpty && ((getCore t 0).macs[1]?.map Mac.touched) = some 137625) = true ∧
    after (.mxIdleSelfTest 0 1) (holding [4]) (fun t => t.notices.length = 1 && (getCore t 0).testsFailed = 1 &&
      ((getCore t 0).macs[1]?.map fun m => (m.cond, m.fenced, m.holds)) = some (.spared, 4, none)) = true := by decide +kernel

/-- No element is invalid when every scale is sound; the sums are zero, and C passes through. -/
theorem witness_matrix_numbers : unpack 0 (0x3F80_0000 : Word).toNat = .fin false 0x80_0000 (-23) ∧
    unpack 0 (0x7F80_0000 : Word).toNat = .inf false := by decide +kernel

theorem witness_matrix_element :
    (let v : MxVec := ⟨List.replicate 256 0, List.replicate 8 0⟩
     mxInvalid 0xD3 v = false ∧ (∀ g < 8, mxGroupSum (slotElem 0xD3) (slotElem 0xD3) v v g = 0) ∧ isNan 0 (0x3F80_0000 : Word).toNat = false ∧
     mxElement 0xD3 0xD3 v v 0x3F80_0000 = 0x3F80_0000) ∧
    mxInvalid 0xD3 ⟨List.replicate 256 0, List.replicate 8 0xFF⟩ = true := by decide +kernel

/-- A tensor table entry at the base of the board tier: home the stack, one unit. -/
def tensorBytes (home : Nat) (user : Bool) : List Byte :=
  toBytes (BitVec.ofNat 256 (1 + (if user then 2 else 0) + home * 4 + 2 ^ 8 + stackVa * 2 ^ 32 + boardVa * 2 ^ 80 + deepVa * 2 ^ 128)) 32
/-- A move of tensor 0, with a page table at 4,096 whose first level names no table. -/
def moving (home tier : Nat) (user : Bool) (pools : List (List Nat)) (count : Nat := 1) (started : Bool := false) : State :=
  let s := quietState id
  let cells := cellsAt (tierBase 1) (tensorBytes home user) ++
    cellsAt (tierBase 1 + 4096 + 8 * (stackVa / 2 ^ 39)) (List.replicate 8 0) ++
    cellsAt (tierBase 1 + 4096 + 8 * (boardVa / 2 ^ 39)) (List.replicate 8 0)
  { s with
    tensorCount := count, deepBytes := 65536, pools := pools, pageRoot := 4096
    moves := [⟨0, tier, .thread 1 0 3 user, started, boardVa, []⟩]
    dies := s.dies.map fun d => { d with mem := Memory.writeAll d.mem cells } }

/-- A move is refused with each status of R137, and begins when the pool has its frames. -/
theorem witness_tier_start :
    (let status := fun (s : State) (n : Word) => after (.tierMoveStart 0) s fun t => t.moves.isEmpty && scalarOf t 1 0 3 = n
     status (moving 0 1 false [[], [], []] 0) 0x4000_0000 && status (moving 1 1 false [[], [], []]) 0x1000_0000 &&
       status (moving 0 1 false [[], [], []]) 0x3000_0000 &&
       after (.tierMoveStart 0) (moving 0 1 false [[], [65536], []]) fun t =>
         t.pools = [[], [], []] && (t.moves.map fun m => (m.started, m.dest, m.frames)) = [(true, boardVa, [65536])]) = true := by
  decide +kernel

theorem witness_tier_switch :
    (let s := moving 0 1 false [[], [], []] 1 true
     s.shaped && ((firstMove s 0).map TierMove.started) = some true && after (.tierMoveSwitch 0) s fun t =>
       t.moves.isEmpty && scalarOf t 1 0 3 = 0 && ((homeByte t 0 (tierBase 1)).extractLsb' 2 2).toNat = 1) = true := by decide +kernel

def hot (bit : Nat) : State :=
  { quietState id with
    time := 10000, policy := [0, 0, BitVec.ofNat 16 (2 ^ bit), 0], pools := [[], [], []]
    vaults := Vault.reset :: ⟨2, 0, 0, 0, none, none, none, 2, []⟩ :: List.replicate 6 Vault.reset }

theorem witness_hot_page : ((hot 4).vaults[1]?.map fun v => (v.band, v.movedPage)) = some (2, none) ∧ ((hot 4).policy.getD 2 0).getLsbD 4 = true ∧
    (let s := { hot 4 with pageMoves := [⟨7, stackVa, 0, 65536⟩] }
     (s.pageMoves.find? fun x => x.id = 7).isSome && s.pools ≠ []) = true := by decide +kernel

/-- A page table at 8,192 that maps the first page of the stack tier to the first frame of vault 1, which has been accessed; a
frame of vault 0 is free. -/
def hotPage : State :=
  let entry := fun (a x : Nat) => cellsAt (tierBase 1 + a) (toBytes (BitVec.ofNat 64 x) 8)
  let cells := entry (8192 + 256) 0x10001 ++ entry 65536 0x20001 ++ entry 131072 0x30001 ++ entry 196608 0x1_0000_0001
  { hot 4 with
    pageRoot := 8192, accesses := [(9000, 2 ^ 32)], pools := [[65536], [], []]
    dies := (hot 4).dies.map fun d => { d with mem := Memory.writeAll d.mem cells } }

theorem witness_accessed_page : (stackVa, 2 ^ 32) ∈ vaultPages hotPage 1 :=
  List.mem_flatMap.2 ⟨2 ^ 32, by decide +kernel,
    List.mem_filterMap.2 ⟨0, List.mem_range.2 (by decide +kernel), by decide +kernel⟩⟩

theorem witness_coolest : coolestVault hotPage 1 = some 0 ∧ freeIn hotPage 0 = [65536] ∧ hotPage.pageMoves = [] ∧
    (hotPage.vaults[1]?.map fun v => (v.band, v.movedPage)) = some (2, none) := by decide +kernel

/-- Resource 0 of 4 by 4 tiles with its scoreboard entries, and an operation on its way to tile 0. -/
def anEntry (p : TilePhase) : Entry := ⟨0, 0, p, p = .retired, false, false, false, false, 0, 0, 0, none⟩
def tiled (p : TilePhase) (op : Option TileOp) (u : Resource → Resource := id) : State :=
  let s := parkedIn (.tile (op.getD .done) 0 0 16)
  updGraph s 4 fun gr => { gr with
    resources := [u ring, ring], entries := [anEntry p]
    requests := match op with
      | some o => [⟨T, o, 0, 0⟩]
      | none => [] }
def tile0 (s : State) : Option Entry := (findGraph s 4).bind fun gr => gr.entry 0 0

/-- The common hypotheses about an operation. -/
def asked (s : State) : Bool :=
  (match (findGraph s 4).bind fun gr => (gr.resources[0]?).map fun r => (gr, r) with
   | some (gr, r) => gr.requests.length = 1 && !r.external && tileNumber r 0 0 = some 0 &&
       (longestStalled gr 0 fun _ => true).isNone && !r.freeSlots.isEmpty
   | none => false) && one s (fun th => th.status = .parkedEffect) && (tile0 s).isSome

theorem witness_tile_ops :
    (let s := tiled .free (some (.acquire 7))
     asked s && after (.tileOpProcess 4 0) s fun t => (tile0 t).map (fun e => (e.phase, e.slot, e.placed)) = some (.acquired, 0, true)) = true ∧
    (let s := tiled .acquired (some (.acquire 7))
     asked s && after (.tileOpProcess 4 0) s fun t => one t (fun th => th.status = .ready) && recordOfGroup t 1 7 ≠ 0) = true ∧
    (let s := tiled .acquired (some .done)
     asked s && after (.tileOpProcess 4 0) s fun t => (tile0 t).map (fun e => (e.phase, e.holder)) = some (.retiring, some 1)) = true ∧
    ([(.free, .done), (.retired, .acquire 7)] : List (TilePhase × TileOp)).all (fun x =>
      let s := tiled x.1 (some x.2)
      asked s && one s (fun th => th.waiting = some (.tile x.2 0 0 16)) && after (.tileOpProcess 4 0) s fun t =>
        one t fun th => th.status = .ready && th.faultInfo = 0x131) = true := by decide +kernel

theorem witness_tile_retire :
    (let s := tiled .retiring none
     countRefs s 4 0 0 = 0 && (tile0 s).map Entry.holder = some none && allDone (toAll s) && after (.tileRetire 4 0 0) s fun t =>
       (tile0 t).map (fun e => (e.phase, e.retired)) = some (.freed, true)) = true ∧
    (let s := tiled (.stalled 0) none fun r => { r with overflow := true, freePlaces := [3, 5] }
     after (.ringStallThreshold 4 0) s fun t => (tile0 t).map (fun e => (e.phase, e.inOverflow, e.place)) = some (.acquired, true, 3)) = true ∧
    (let s := { tiled (.stalled 0) none with time := 2 ^ 20 }
     after (.ringStallNotice 4 0) s fun t => t.notices.map Notice.payload = [.ringStall 4 0 0]) = true := by decide +kernel

theorem witness_group_retire :
    (let s := quietState fun th => { th with status := .exited, seg := Segment.empty 0 0 }
     ((findGroup s 1).map fun g => mayRetire s g && g.core = some 0).getD false && after (.groupRetire 1) s fun t =>
       ((findGroup t 1).map fun g => (g.phase, g.core)) = some (.retired, none)) = true := by decide +kernel

/-- A waiting graph of one pass of two groups and one resource. -/
def waitingGraph : WaitingGraph :=
  ⟨0, 5, { richGraph with ctx := 4, index := 5, passes := [{ placedPass with gridX := 2 }], resources := [{ ring with freeSlots := [] }], entries := [] }⟩

theorem witness_graph_accept :
    (let s := { quietState id with waiting := [waitingGraph] }
     freeContext s = some 0 && tileCount (s.graphs.flatMap Graph.resources) + tileCount waitingGraph.graph.resources ≤ 262144 &&
       (reserveRings s waitingGraph.graph.passes 0 (s.graphs.flatMap Graph.resources) waitingGraph.graph.resources).isSome &&
       after (.graphAccept 0) s fun t => (findGraph t 0).isSome && t.waiting.isEmpty && t.groups.length = 3) = true := by decide +kernel

def aQueue (privileged : Bool) : Queue := ⟨privileged, 0x1000, 16, 3, 2, 2, [], 0⟩
def withQueue (privileged : Bool) (s : State) : State := { s with queues := some (aQueue privileged) :: List.replicate 15 none }

theorem witness_graph_end :
    (let s := withQueue true (group1 (fun g => { g with phase := .retired }) (quietState id))
     ((findGraph s 4).map fun gr => graphDone s gr && gr.queue = 0).getD false && after (.graphEnd 4) s fun t =>
       (findGraph t 4).isNone && t.groups.isEmpty && (getQueue t 0).map Queue.completed = some 3) = true := by decide +kernel

theorem witness_pass_end :
    (let s := pass0 (fun p => { p with life := .ordered }) (quietState fun th => { th with status := .ready })
     after (.passEnd 4 0) s fun t => (findPass t 4 0).map Pass.life = some .stopping && one t fun th => th.status = .exited) = true ∧
    (let s := pass0 (fun p => { p with life := .stopping }) (group1 (fun g => { g with core := none, phase := .resident })
       (quietState fun th => { th with status := .exited }))
     after (.passEndRelease 4 0) s fun t => (findPass t 4 0).map (fun p => (p.life, p.failed)) = some (.ended, true) &&
       (findGroup t 1).map Group.phase = some .retired) = true := by decide +kernel

/-! ## Placement, heat, power and errors -/

/-- The group waits to be placed; nothing stands on a core. -/
def waiting (phase : Phase) (u : State → State := id) : State :=
  u (group1 (fun _ => { newGroup 1 4 0 0 0 0 with phase := phase }) (quietState id))

theorem witness_place :
    (let s := waiting (.queued 0)
     s.shaped && !hasPlaced s 0 && (replacement s 0).isNone && ([0, 1].findSome? (gangAtHead s 0)).isNone &&
       ([0, 1].findSome? (dieChoice ([0, 1].foldl (planHead 0) s) 0)).isSome && after (.groupPlace 0) s fun t => hasPlaced t 0 &&
         ((findGroup t 1).map fun g => (g.phase, g.core.isSome)) = some (.resident, true) && one t fun th => th.status = .ready && th.p = 1) = true ∧
    (let s := { waiting (.queued 0) with time := 65536 }
     (queueOfPart s 0).length = 1 && s.blocks = [none, none] && after (.placementBlock 0) s fun t => t.blocks = [some 1, none]) = true := by
  decide +kernel

/-- A work fetch of thread T's group, with its mailbox at 64. -/
def fetching (u : Pass → Pass) (more : List Group := []) : State :=
  let s := pass0 u (quietState id)
  { s with fworks := [⟨5, 1, 64⟩], groups := s.groups ++ more }
def mailbox (s : State) : List Word := ((findGroup s 1).map fun g => [padWord g 64, padWord g 68]).getD []

theorem witness_fwork :
    after (.fworkAnswer 5) (fetching id) (fun t => t.fworks.isEmpty && (mailbox t).headD 0 = 3) = true ∧
    (let s := fetching fun p => { p with persistent := true }
     atT s (fun g _ _ => (nextUnplaced s g { richPass with persistent := true }).isNone && !undispatched s g) &&
       after (.fworkAnswer 5) s fun t => (mailbox t).headD 0 = 2) = true ∧
    (let p := { richPass with persistent := true }
     let s := fetching (fun p => { p with persistent := true }) [{ newGroup 2 4 0 6 0 0 with phase := .queued 0 }]
     atT s (fun g _ _ => ((nextUnplaced s g p).map Group.serial) = some 2) && !hasPlaced s 0 && coreOpen s p.part 0 && vaultAccepts s p 0 &&
       after (.fworkAnswer 5) s fun t => mailbox t = [1, 6] && (findGroup t 2).map Group.phase = some (.handed 1 64)) = true := by decide +kernel

theorem witness_partitions :
    (let s := { quietState id with time := 4096 }
     let s := updDie s 0 fun d => { d with target := 1 }
     sheetWant s 0 (getDie s 0) = 1 && drainChoice s 0 0 = some 63 && (dieCores 0).all (fun j => !(getCore s j).draining) &&
       after (.sheetEval 0) s fun t => (getCore t 63).draining) = true ∧
    (let s := updCore (quietState id) 5 fun c => { c with draining := true }
     (occupants s 5).isEmpty && !coreEffects s 5 && after (.partitionFlip 5) s fun t => (getCore t 5).part = 1) = true ∧
    (let s := pass0 (fun p => { p with part := 1 }) (waiting (.queued 0))
     starving s { richPass with part := 1 } && after (.partitionStarvation 4 0) s fun t =>
       t.notices.isEmpty && (findPass t 4 0).map Pass.short = some (some 0)) = true ∧
    (let s := pass0 (fun p => { p with part := 1, short := some 0 }) { waiting (.queued 0) with time := 2 ^ 20 }
     starving s { richPass with part := 1 } && (findPass s 4 0).map Pass.starved = some false && after (.partitionStarvation 4 0) s fun t =>
       t.notices.map Notice.payload = [.starvation 0]) = true := by decide +kernel

/-- A parked waiter's group of a persistent pass. -/
def leaving (phase : Phase) : State :=
  group1 (fun g => { g with phase := phase }) (pass0 (fun p => { p with persistent := true }) (parkedIn (waitFor 1 none)))

theorem witness_leave :
    (let s := { leaving .resident with
       time := 10000, policy := [0, 0, 8, 0], vaults := ⟨2, 0, 0, 0, none, none, none, 2, []⟩ :: List.replicate 7 Vault.reset }
     let s1 := updVault s 0 fun v => { v with movedGroup := some 10000 }
     (match migrateChoice s1 0 with
      | some (g, p) => decide (findGroup s g.serial = some g) && (bestCore s1 g p ((List.range 128).filter fun k => vaultOf k ≠ 0)).isSome
      | none => false) && after (.vaultMigrate 0) s fun t => ((findGroup t 1).map Group.phase) ≠ some .resident) = true ∧
    (let s := core0 (fun c => { c with cycles := 65536 }) (group1 (fun g => { g with idle := some 0 }) (leaving .resident))
     let s := { s with groups := s.groups ++ [{ newGroup 2 4 0 6 0 0 with phase := .queued 0 }] }
     (findGroup s 1).map (fun g => allWaiting g && 65536 ≤ idleFor s g) = some true && after (.groupEvict 4 0) s fun t =>
       (findGroup t 1).map Group.phase = some (.saving false) && (findPass t 4 0).map Pass.replaces = some (some 0)) = true ∧
    (let s := leaving (.saving false)
     atT s (fun g _ k => !stillActive g && !matrixBusy s k g && !transfersBusy s g && (flushGroup s g).2) &&
       after (.groupSave 1) s fun t => (findGroup t 1).map (fun g => (g.phase, g.core)) = some (.saved 0, none)) = true ∧
    (let s := leaving (.migrating 4)
     atT s (fun g _ k => !stillActive g && !matrixBusy s k g && (flushGroup s g).2 && (takeRemap (flushGroup s g).1 0 g 4).isSome) &&
       after (.migrationTransfer 1) s fun t => (findGroup t 1).map (fun g => (g.phase, g.core)) = some (.resident, some 4)) = true ∧
    (let s := updCore (leaving (.migrating 4)) 4 fun c => { c with fatal := true }
     after (.migrationTransfer 1) s fun t => (findGroup t 1).map Group.phase = some (.saving false)) = true ∧
    (let s := updVault (leaving (.migrating 4)) (vaultOf 4) fun v => { v with band := 3 }
     (vaultNow s (vaultOf 4)).band = 3 && after (.migrationTransfer 1) s fun t => (findGroup t 1).map Group.phase = some (.saving false)) = true ∧
    (let s := { leaving .resident with
       time := 10000, policy := [0, 0, 0, 0], vaults := ⟨2, 0, 0, 0, none, none, none, 2, []⟩ :: List.replicate 7 Vault.reset }
     after (.vaultMigrate 0) s fun t => decide (t.groups = s.groups) && (t.vaults[0]?.map Vault.movedGroup) = some (some 10000)) = true := by
  decide +kernel

theorem witness_heat :
    after (.vaultCreditRefill 1) { hot 4 with time := 10 } (fun t => (t.vaults[1]?.map Vault.credit) = some 13440) = true ∧
    (let s := { quietState id with time := 1500, clusters := (State.reset.clusters.set 4 { Cluster.reset with temp := 106 }) }
     vaultTemp s 0 = 106 && after (.vaultTempSample 0) s fun t =>
       (t.vaults[0]?.map fun v => (v.band, v.sampled, v.credit)) = some (3, 1000, 0) && t.notices.map Notice.payload = [.thermal 0 3]) = true ∧
    (let s := { quietState id with time := 1500, vaults := State.reset.vaults.set 0 ⟨3, 0, 0, 0, none, none, none, 2, []⟩ }
     vaultTemp s 0 ≤ 83 && after (.vaultTempSample 0) s fun t =>
       (t.vaults[0]?.map fun v => (v.band, v.credit)) = some (0, 6291456) && t.notices.map Notice.payload = [.thermal 0 0]) = true ∧
    (let s := core0 (fun c => { c with mxRun := some (aRun (.op 0) false) }) (quietState id)
     after (.droopDetect 0) s fun t => (t.clusters[0]?.map Cluster.droop) = some true && ((getCore t 0).mxRun.map MxRun.suspect) = some true) = true ∧
    (let s := fun (r : Option Nat) => { quietState id with clusters := State.reset.clusters.set 0 ⟨false, true, r, 0, 0⟩ }
     after (.droopSupplyRecovered 0) (s none) (fun t => (t.clusters[0]?.bind Cluster.recover) = some 64) &&
       after (.droopWindowEnd 0) (s (some 0)) fun t => (t.clusters[0]?.map Cluster.droop) = some false) = true := by decide +kernel

theorem witness_power :
    (let s := updPair (quietState id) 1 fun p => { p with state := 1 }
     !(clusterCores 2).any (coreInUse s) && after (.clusterGate 2) s fun t => (t.clusters[2]?.map Cluster.gated) = some true) = true ∧
    (let s := updCluster (quietState id) 0 fun c => { c with gated := true }
     (clusterCores 0).any (coreInUse s) && after (.clusterClockedAgain 0) s fun t => (t.clusters[0]?.map Cluster.gated) = some false) = true ∧
    (let s := updPair (quietState id) 1 fun p => { p with stateEff := 3, wakeAt := some 0 }
     after (.pairWakeDone 1) s fun t => (t.pairs[1]?.map Pair.stateEff) = some 0) = true ∧
    (let s := updPair (quietState id) 1 fun p => { p with ceiling := 4, shift := 1 }
     (pairCores 1).all (fun k => (getCore s k).burst.isNone) && after (.ceilingApply 1) s fun t => (t.pairs[1]?.map Pair.ceilingEff) = some 3) = true ∧
    (let s := core0 (fun c => { c with cntCfg := c.cntCfg.set 0 0x112 }) (quietState id)
     after (.eccCorrected 0) s fun t => (getCore t 0).counters.headD 9 = 1) = true ∧
    after (.eccUncorrectable 0 .control) (quietState id) (fun t => (getCore t 0).fatal && (findPass t 4 0).map Pass.life = some .ordered) = true ∧
    after (.eccUncorrectable 0 (.register T (.v 3))) (quietState id) (fun t => one t fun th => th.marks = [.v 3]) = true := by decide +kernel

/-! ## The links and reset -/

def head (type : BitVec 4) (poison : Bool) (tag : BitVec 8) (addr : Nat) : LinkHead :=
  ⟨BitVec.ofNat 48 addr, type, poison, 0, tag, 1, 0, 0, 0⟩
def linked (u : State → State) : State :=
  u { quietState id with rangeList := [⟨boardVa, 65536, tierBase 1, true, true⟩] }

theorem witness_messages :
    after (.doorbell 0 9) (withQueue true (quietState id)) (fun t => (getQueue t 0).map Queue.tail = some 9) = true ∧
    after (.hostReadRequest (head 0 false 3 boardVa)) (linked id) (fun t => t.linkReplies = [(head 1 false 3 boardVa, List.replicate 16 0)]) = true ∧
    after (.hostWrite (head 2 false 3 boardVa) 0 (List.replicate 16 5)) (linked id) (fun t =>
      !hostFull (linked id) && !onTheMove (linked id) boardVa && t.linkReplies.map (fun r => r.1.type) = [3] &&
      t.dies.map (fun d => d.from_.map fun e => (e.1, e.2.bytes.length)) = [[(.host, 16)], [(.host, 16)]]) = true ∧
    (let s := linked fun s => { s with linkReads := [head 0 false 3 256] }
     after (.readCompletion (head 1 false 3 0) (List.replicate 16 7)) s (fun t => t.linkReads.isEmpty && hostByte t 271 = 7) &&
       after (.readCompletion (head 1 true 3 0) (List.replicate 16 7)) s fun t => t.linkReads = [head 0 true 3 256]) = true ∧
    (let s := linked fun s => { s with hostHeld := [(head 2 false 3 boardVa, 0, [])] }
     after (.hostWrite (head 2 false 4 boardVa) 0 (List.replicate 16 5)) s fun t => t.hostHeld.length = 2 && decide (t.dies = s.dies)) = true ∧
    (let s := linked fun s => { s with linkReads := [head 0 true 3 256] }
     after (.readCompletion (head 1 true 3 0) (List.replicate 16 7)) s fun t => hostByte t 256 = 7 &&
       (homeFlaws t 0).poisoned (tierBase 2 + 256)) = true ∧
    after (.writeCompletion (head 3 false 3 0)) (linked fun s => { s with linkWrites := [head 2 false 3 0] }) (fun t => t.linkWrites.isEmpty) = true ∧
    after (.reservedTypeMessage (head 7 false 3 0)) (linked id) (fun t => t.dropped = 1) = true := by decide +kernel

def anExport (tag : BitVec 72) : Export := ⟨tag, 1, 0, [(tierBase 1, 9)], false, [], Flaws.none⟩

theorem witness_die_link :
    (let s := updDie (quietState id) 0 fun d => { d with pending := [anExport 0] }
     after (.dieExport 0 0) s fun t => (getDie t 0).pending.isEmpty && (getDie t 1).from_ = [(.die0, anExport 1)] && (getDie t 0).clock = 1) = true ∧
    (let s := updDie (quietState id) 1 fun d => { d with from_ := [(.die0, anExport 1)] }
     mayApply (getDie s 1) .die0 1 && after (.dieApply 1 .die0) s fun t => homeByte t 1 (tierBase 1) = 9 && (getDie t 1).clock = 1) = true ∧
    (let s := { withQueue true (quietState id) with
       noticeRing := some (0x2000, 16), hostMem := cellsAt 0x2000 (List.replicate 8 0), notices := [⟨0, .boot 1 0, none, false, none⟩] }
     after .noticeWrite s (fun t => hostWord t 0x2000 = 1 && t.notices.all Notice.written && (getQueue t 0).map Queue.interrupts = some 1) &&
       (let full := { s with hostMem := cellsAt 0x2000 [16, 0, 0, 0, 0, 0, 0, 0] }
        after .noticeWrite full fun t => decide (t = full))) = true := by decide +kernel

def anImage : Firmware := ⟨0x57444657, 0, 2, 0, List.replicate 48 0, [], [], [], [], []⟩
def aBoot : BootConfig := ⟨List.replicate 8 2, 0, 0, 0, 0x1000⟩

theorem witness_reset : (withQueue true (quietState id)).running = none ∧ (getQueue (withQueue true (quietState id)) 0).isSome = true ∧
    ({ quietState id with running := some anImage } : State).running = some anImage ∧
    after (.firmwareReload anImage aBoot) { quietState id with running := some anImage } (fun t => t.running = some anImage) = true := by
  decide +kernel

/-! ## Host commands: queue 0 stands in ring 0x1000 with its third command started and the doorbell at 3 -/

def cmd0 : Cmd := ⟨0, true, false, 0⟩

/-- A state in which the next command of queue 0 may start. -/
def ready (privileged : Bool := true) (u : State → State := id) : State :=
  u (withQueue privileged { linked id with running := some anImage })

def startsB (s : State) (privileged : Bool) : Bool :=
  decide (getQueue s 0 = some (aQueue privileged)) && mayStart s cmd0 (aQueue privileged) && s.running.isSome

theorem starts_of {s privileged} (h : startsB s privileged = true) : Starts s cmd0 (aQueue privileged) := by
  simp only [startsB, Bool.and_eq_true, decide_eq_true_eq] at h
  exact ⟨h.1.1, h.1.2, h.2, rfl⟩

/-- The status with which the command completed. -/
def status (i : Instr) (s : State) (privileged : Bool := true) : Option Nat :=
  if startsB s privileged then
    match exec i s with
    | .next t => ((getQueue t 0).bind fun x => x.statuses.head?).map CmdStatus.status
    | _ => none
  else none

/-- The command started and waits. -/
def pends (i : Instr) (s : State) (w : CmdWait) : Bool :=
  startsB s true && after i s fun t => t.commands.map PendingCmd.wait = [w] && (getQueue t 0).map Queue.started = some 3

theorem witness_order :
    (let c : Cmd := ⟨0, false, true, 0⟩
     let x := aQueue true
     let waits := ready true fun s => { s with waiting := [waitingGraph] }
     mayStart (ready) c { x with tail := 2 } = false ∧ mayStart waits cmd0 x = false ∧ startsB ready true = true ∧
     mayStart (ready) cmd0 x = true ∧ (ready true fun s => { s with running := none }).running = none) ∧
    status (.mapSync { cmd0 with rsv := 0 }) ready = some 0 ∧ status (.endGraph cmd0 9) ready = some 4 ∧
    status (.endGraph cmd0 0) (ready false) false = some 3 ∧
    (match exec (.endGraph cmd0 0) (ready true fun s => { s with running := none }) with
     | .next t => ((getQueue t 0).bind fun x => x.statuses.head?).map CmdStatus.status
     | _ => none) = some 2 := by decide +kernel

/-- A ring entry whose operation code is not assigned completes with status 4 (R353). -/
theorem witness_ring_entry :
    (let s := ready true fun s => { s with hostMem := cellsAt 0x1080 (List.replicate 64 0) }
     let c : Cmd := ⟨0, false, false, 0⟩
     (getQueue s 0 = some (aQueue true) && mayStart s c (aQueue true) && s.running.isSome) &&
       match ringStep s 0 with
       | .next t => ((getQueue t 0).bind fun x => x.statuses.head?).map CmdStatus.status = some 4
       | _ => false) = true := by decide +kernel

/-- Entries of the ring whose operands R355 places: `op` and, from byte 8 on, the operands. -/
theorem witness_ring_operands : ([0x0A, 0x0B, 0x12, 0x13, 0x14, 0x15] : List Nat).all (fun n =>
      let s := ready true fun s => { s with hostMem := cellsAt 0x1080 (BitVec.ofNat 8 n :: List.replicate 63 0) }
      let c : Cmd := ⟨0, false, false, 0⟩
      mayStart s c (aQueue true) && ofBytes ((hostBytes s 0x1080 64).take 4) % 256 = n &&
        match ringStep s 0 with
        | .next t => (getQueue t 0).map Queue.started = some 3
        | _ => false) = true := by decide +kernel

/-- A pass record of one thread at board offset 1,024 in parts of 64 bytes, its graph record at 2,048, the pass table at
2,112; the parts that hold zeros are one part of storage. -/
def passRecord : Nat := 2 ^ 64 + 2 ^ 80 + 2 ^ 96 + 0xFFFF_FFFF * 2 ^ 160 + (boardVa + 65536 * 2 ^ 48 + 2 ^ 96) * 2 ^ 1024
def graphCells : List Host.Cell :=
  let cells := fun (at_ x n : Nat) => (List.range n).map fun i => (tierBase 1 + at_ + i, BitVec.ofNat 8 (x / 2 ^ (8 * i)))
  cells 0 0 64 ++ cells 64 passRecord 64 ++ cells 128 (passRecord / 2 ^ 1024) 64 ++
    cells 192 (1 + (boardVa + 2112) * 2 ^ 64 + (boardVa + 2176) * 2 ^ 192) 64 ++ cells 256 (boardVa + 1024) 8
def graphRanges : List Range :=
  ⟨boardVa + 2048, 128, tierBase 1 + 192, true, true⟩ :: (List.range 16).map fun i =>
    ⟨boardVa + 1024 + 64 * i, 64, tierBase 1 + (if i = 0 then 64 else if i = 2 then 128 else 0), true, true⟩

def submitting (privileged : Bool) : State :=
  ready privileged fun s => { s with rangeList := graphRanges, dies := s.dies.map fun d => { d with mem := graphCells } }

theorem witness_submission :
    (match readSubmission (submitting false) (boardVa + 2048) with
     | some x => (rejectOf (submitting false) true x).isNone && x.completion = boardVa + 2176
     | none => false) = true ∧ startsB (submitting false) false = true := by decide +kernel

/-- An address that is not aligned is not read (detail code 1). -/
theorem witness_submit_rejected : (readSubmission (ready false) (boardVa + 1)) = none ∧
    startsB (ready false) false = true := by decide +kernel

theorem witness_pass_commands :
    status (.endPass cmd0 0 0) ready = some 2 ∧ pends (.endPass cmd0 4 0) ready (.passEnded 4 0) = false ∧
    (let s := ready true fun s => { s with
       graphs := s.graphs.map fun g => { g with ctx := 0 }, groups := s.groups.map fun g => { g with ctx := 0 } }
     (findPass s 0 0).map Pass.life = some .open && pends (.endPass cmd0 0 0) s (.passEnded 0 0) &&
       pends (.preemptPass cmd0 0 0) s (.preempted 0 0) && (findGraph s 0).isSome && pends (.endGraph cmd0 0) s (.graphEnded 0 0) &&
       (match (passGroups s 0 0).find? (fun g => g.phase = .resident && g.x = 0 && g.y = 0 && g.z = 0), findPass s 0 0 with
        | some g, some p => !p.gang && g.core ≠ some 4 && takes s g p 4 && decide (findGroup s g.serial = some g)
        | _, _ => false) && pends (.migrateGroup cmd0 0 0 0 0 0 4) s (.migrated 1 4)) = true ∧
    (let s := ready true fun s => { s with
       graphs := s.graphs.map fun g => { g with ctx := 0, passes := g.passes.map fun p => { p with preempted := true } }
       groups := s.groups.map fun g => { g with ctx := 0, phase := .preempted } }
     status (.resumePass cmd0 0 0) s = some 0 && after (.resumePass cmd0 0 0) s fun t =>
       (findGroup t 1).map Group.phase = some (.saved 0)) = true := by decide +kernel

/-- Thread T waits on notice 0 with a BOUNDS record. -/
def noticed : State :=
  let r : Record := ⟨0x10, false, 8, 0, 1, 2, none⟩
  let s := ready true fun s => { s with notices := [⟨0, .fault 4 0 0 0 0x10 0, none, true, none⟩] }
  updThread s T fun th => { th with status := .parkedFault, notice := some 0, record := some r }

theorem witness_answers : (noticed.notices.map fun n => (n.index, isFault n.payload, n.answer)) = [(0, true, none)] ∧
    noticeThreads noticed 0 = [T] ∧ one noticed (fun th => th.waiting.isNone && th.record.isSome) = true ∧
    (findPass noticed 4 0).map Pass.life = some .open ∧
    status (.answerRetry cmd0 0) noticed = some 0 ∧ after (.answerRetry cmd0 0) noticed (fun t => one t fun th => th.status = .ready) = true ∧
    after (.answerDeliver cmd0 0) noticed (fun t => one t fun th => th.inHandler && th.pc = 0 && th.faultInfo = 0x10) = true ∧
    after (.answerEndPass cmd0 0) noticed (fun t => (findPass t 4 0).map Pass.life = some .ordered) = true ∧
    (let s := updThread noticed T fun th => { th with status := .parkedHost }
     hostPasses s 0 = [(4, 0)] ∧ after (.answerEndPass cmd0 0) s (fun t => (findPass t 4 0).map Pass.life = some .ordered) = true) := by
  decide +kernel

theorem witness_resume :
    (let s := updThread ready T fun th => { th with status := .parkedHost }
     threadAt s 0 0 = some T && status (.resumeThread cmd0 0 0 none) s = some 0 &&
       one s (fun th => th.status = .parkedHost && !th.failedRet && th.waiting.isNone) &&
       atT s (fun g _ _ => decide (passOfGroup s g = some richPass) && (resumeBad s 0 g richPass 8 0).isNone &&
         resumeBad s 0 g richPass 24 0 = some 24) &&
       after (.resumeThread cmd0 0 0 (some (8, 0))) s (fun t => one t fun th => th.status = .ready && th.pc = 8) &&
       status (.resumeThread cmd0 0 0 (some (24, 0))) s = some 2) = true := by decide +kernel

/-- A thread whose `trapret` failed is resumed at its saved place, or not at all (R153, R334). -/
theorem witness_resume_failed :
    (let s := updThread ready T fun th => { th with status := .parkedHost, failedRet := true, inHandler := true, pc := 8 }
     threadAt s 0 0 = some T && status (.resumeThread cmd0 0 0 none) s = some 0 &&
       atT s (fun g th _ => decide (passOfGroup s g = some richPass) && (resumeBad s 0 g richPass th.pc th.hdr).isNone) &&
       after (.resumeThread cmd0 0 0 none) s (fun t => one t fun th => th.status = .ready && th.pc = 8 && !th.inHandler)) = true := by
  decide +kernel

theorem witness_tables :
    (let s := ready true (core0 fun c => { c with tlb := [⟨boardVa, 16, 0, true, true, false⟩] })
     (s.groups.all fun g => g.threads.all fun th => th.buffer.isEmpty && th.seg.stores.isEmpty) &&
       status (.translationInvalidate cmd0 1 0 (2 ^ 47)) s = some 0 &&
       after (.translationInvalidate cmd0 1 0 (2 ^ 47)) s fun t => (getCore t 0).tlb.isEmpty) = true ∧
    (ready.hostHeld.isEmpty && ready.dies.all (fun d => d.from_.isEmpty) && status (.mapSync cmd0) ready = some 0) = true ∧
    (let s := ready true fun s => { s with hostHeld := [(head 2 false 3 boardVa, 0, [])] }
     hostPending s && pends (.mapSync cmd0) s (.storesGone []) && pends (.translationInvalidate cmd0 1 0 64) s (.storesGone []) &&
       after (.mapSync cmd0) s (fun t => t.flushes.map Flush.maps = [true]) &&
       after (.translationInvalidate cmd0 1 0 64) s fun t => t.flushes.map Flush.maps = [false]) = true ∧
    (let s := ready true fun s => { s with flushes := [⟨0, 2, 0, 0, true⟩, ⟨0, 2, boardVa, 64, false⟩] }
     !hostPending s && (settleCommands s).flushes.isEmpty) = true ∧
    (startsB ready true && after (.tierMoveCommand cmd0 5 1 64) ready fun t => t.moves.length = 1) = true ∧
    (let s := ready true fun s => { s with hostMem := cellsAt 64 (toBytes (65536 : Wide) 8) }
     status (.addFrames cmd0 1 64 1) s = some 0 && after (.addFrames cmd0 1 64 1) s fun t => poolOf t 1 = [65536]) = true ∧
    (occupants ready 5).isEmpty = true ∧ ready.shaped = true ∧ status (.resetCore cmd0 5) ready = some 0 ∧
    status (.resetCore cmd0 0) ready = some 2 := by decide +kernel

theorem witness_queue_commands :
    (ready.queues.length = 16 ∧ freeQueue ready = some 1 ∧ status (.registerQueue cmd0 64 8 false) ready = some 0) ∧
    status (.registerNoticeRing cmd0 64 16) ready = some 0 ∧ 2 ^ Nat.log2 16 = 16 := by decide +kernel

theorem witness_fuses :
    (let one := ready true fun s => { s with keySlots := [⟨true, false, 5⟩, KeySlot.reset, KeySlot.reset, KeySlot.reset] }
     let two := ready true fun s => { s with keySlots := [⟨true, false, 5⟩, ⟨true, false, 6⟩, KeySlot.reset, KeySlot.reset] }
     status (.enrolKey cmd0 0 9) one = some 2 ∧ status (.enrolKey cmd0 1 9) one = some 0 ∧
     status (.revokeKey cmd0 0) one = some 2 ∧ status (.revokeKey cmd0 0) two = some 0) ∧
    (ready.rollback ≤ 2 ∧ status (.raiseRollback cmd0) ready = some 0) ∧ startsB ready true = true := by decide +kernel

/-! ## Control words and state reads -/

theorem witness_pair_control :
    status (.writePairControl cmd0 1 3) ready = some 2 ∧ offRefused ready 1 = none ∧ status (.writePairControl cmd0 1 2) ready = some 0 ∧
    offRefused ready 0 = some 1 ∧ status (.writePairControl cmd0 0 2) ready = some 1 ∧
    after (.writePairControl cmd0 1 9) ready (fun t => (t.pairs[1]?.map fun p => (p.state, p.ceiling)) = some (1, 2)) = true ∧
    (let s := updPair ready 1 fun p => { p with state := 2, stateEff := 2 }
     startsB s true && after (.writePairControl cmd0 1 0) s fun t => (t.pairs[1]?.map fun p => (p.stateEff, p.wakeAt)) = some (3, some 20000)) = true := by
  decide +kernel

theorem witness_control_words :
    status (.writeDieVoltage cmd0 1 599) ready = some 2 ∧ after (.writeDieVoltage cmd0 1 600) ready (fun t => (getDie t 1).mv = 600) = true ∧
    status (.writePartitionControl cmd0 0 0x20C0) ready = some 2 ∧
    after (.writePartitionControl cmd0 0 0x40_0402) ready (fun t => (getDie t 0).minGraphics = 2 && (getDie t 0).minCompute = 8 &&
      (getDie t 0).target = 64) = true ∧
    after (.writePolicyTable cmd0 3 0xFFFF) ready (fun t => t.policy = [0, 0, 0, 0x3F]) = true ∧
    after (.writePolicyTable cmd0 4 6) ready (fun t => t.policyGlobal = 6) = true ∧
    after (.writeCounterConfig cmd0 5 2 0xFFFF_FFFF) ready (fun t => (getCore t 5).cntCfg.getD 2 0 = 0x3FFFF) = true ∧
    after (.writeTensorTableSize cmd0 9) ready (fun t => t.tensorCount = 9) = true := by decide +kernel

theorem witness_state_reads :
    controlBytes ready (.dieVoltage 0) = some [0x52, 3, 0, 0] ∧
    after (.readStateControlWord cmd0 (.dieVoltage 0) 64) ready (fun t => hostByte t 64 = 0x52 && hostByte t 65 = 3) = true ∧
    (let s := ready true fun s => { s with graphs := s.graphs.map fun g => { g with ctx := 0, entries := [{ anEntry .acquired with res := 1, placed := true, slot := 5 }] } }
     ((findGraph s 0).bind fun gr => gr.entry 1 0).isSome && status (.readStateScoreboard cmd0 0 0 1 0 64) s = some 0 &&
       after (.readStateScoreboard cmd0 0 0 1 0 64) s fun t => hostByte t 64 = 0x44 && hostByte t 65 = 1) = true ∧
    after (.readStateMatrixHealth cmd0 0 64) ready (fun t => hostByte t 64 = 0) = true ∧
    after (.readStateCounter cmd0 0 3 64) ready (fun t => hostByte t 64 = 0) = true ∧
    after (.readStateGlobalTime cmd0 64) { ready with time := 7 } (fun t => hostByte t 64 = 7) = true ∧
    startsB { ready with time := 7 } true = true := by decide +kernel

/-- A feedback ring of 16 entries at board offset 4,096 with its indices, and an entry appended to it (R227). -/
def ringState (writeIdx readIdx : Nat) : State :=
  let cells := cellsAt (tierBase 1 + 4096) (toBytes (BitVec.ofNat 128 (16 + writeIdx * 2 ^ 32 + readIdx * 2 ^ 64)) 16)
  linked fun s => { s with dies := s.dies.map fun d => { d with mem := Memory.writeAll d.mem cells } }

theorem witness_feedback_ring : ringHead (ringState 17 2) (boardVa + 4096) = some ⟨16, 17, 2, 0⟩ ∧
    (ringState 17 2).shaped = true ∧ (ringState 17 2).memoryWf = true ∧
    (∀ i < 16, translateH (ringState 17 2) (boardVa + 4096 + i) .write = .ok (tierBase 1 + 4096 + i) false ∧
      translateH (ringState 17 2) (boardVa + 4096 + i) .read = .ok (tierBase 1 + 4096 + i) false) ∧
    (∀ i < 8, translateH (ringState 17 2) (boardVa + 4096 + 64 + 8 * (17 % 16) + i) .write = .ok (tierBase 1 + 4168 + i) false) ∧
    (∀ i < 4, translateH (hWrite (ringState 17 2) (boardVa + 4096 + 64 + 8 * (17 % 16)) (toBytes (9 : Wide) 8))
      (boardVa + 4096 + 4 + i) .write = .ok (tierBase 1 + 4096 + 4 + i) false) ∧
    (⟨16, 17, 2, 0⟩ : RingHead).full = false ∧ (⟨16, 18, 2, 0⟩ : RingHead).full = true ∧
    ringHead (ringState 18 2) (boardVa + 4096) = some ⟨16, 18, 2, 0⟩ ∧
    ringHead (ringState 0 0) 5 = none := by decide +kernel

/-- `smp` of a page that is not resident appends one entry (R115, R116). -/
theorem witness_feedback_due :
    (let i := Instr.smp (mem 6 6 (.v 4) .zero)
     let s := lodState i 0
     let xs := turnSites s s.focus B i
     decide (AtWord s B) && xs.all (fun x => Proceeds i x && !sampleHeld 6 6 (fun x => (x.read32 (.v 4)).toInt) (fun _ => 0) x) &&
       xs.any (fun x => Clear i x && (feedbackDue x i).isSome) && after i s fun _ => true) = true := by decide +kernel

/-- R227: the entry and `write_idx` of a ring with room, `drop_count` of a full one. -/
theorem test_feedback :
    (let t := feedbackAppend (ringState 17 2) (boardVa + 4096) 9
     ringHead t (boardVa + 4096) = some ⟨16, 18, 2, 0⟩ ∧ homeByte t 0 (tierBase 1 + 4168) = 9 ∧ homeByte t 1 (tierBase 1 + 4168) = 9) ∧
    ringHead (feedbackAppend (ringState 18 2) (boardVa + 4096) 9) (boardVa + 4096) = some ⟨16, 18, 2, 1⟩ := by decide +kernel

/-! ## Results that the spec prints -/

/-- The newest result of one step that issues the word. -/
def newestResult (i : Instr) (f : Thread → Thread := id) (u : State → State := id) : Option Result :=
  match step (u (stateAt i f)) with
  | .next t => (resultsOf t T).bind List.head?
  | _ => none
def gives (i : Instr) (l : List (Nat × Word)) (x : Wide) (u : State → State := id) : Bool :=
  ((newestResult i (vs l) u).map Result.value) = some x

def slots (x : Wide) : State → State := pass0 fun p => { p with slots := List.replicate 8 x }
def m32 : ModIN := modIN

/-- R63: the absolute value of the least number, without and with `sat`; the high product of -1 and 1 unsigned; 3 - 5 under `sat`. -/
theorem test_integer : gives (.iabs ⟨plain, { m32 with sgn := true }, .v 3, .v 1, .zero, .zero⟩) [(1, 0x8000_0000)] 0x8000_0000 = true ∧
    gives (.iabs ⟨plain, { m32 with sgn := true, sat := true }, .v 3, .v 1, .zero, .zero⟩) [(1, 0x8000_0000)] 0x7FFF_FFFF = true ∧
    gives (.imulhi ⟨plain, { m32 with sgn := true }, .v 3, .v 1, .v 2, .zero⟩) [(1, 0xFFFF_FFFF), (2, 1)] 0xFFFF_FFFF = true ∧
    gives (.isub ⟨plain, { m32 with sat := true }, .v 3, .v 1, .v 2, .zero⟩) [(1, 3), (2, 5)] 0 = true := by decide +kernel

/-- The Barrett reduction of R64: the quotient, its product, and the compare of the remainder. -/
theorem test_barrett : gives (.imulhiImm (imm (.v 2) (.v 1) 349496)) [(1, 0x0900_0000)] 12286 = true ∧
    gives (.imulImm (imm (.v 3) (.v 2) 12289)) [(2, 12286)] 150982654 = true ∧
    gives (.isub (opIN (.v 4) (.v 1) (.v 3))) [(1, 0x0900_0000), (3, 150982654)] 12290 = true ∧
    gives (.icmpImm ⟨plain, ⟨5, false, false, true, 0, 0⟩, .p 1, .v 4, 12289⟩) [(4, 12290)] 1 = true := by decide +kernel

/-- R64: the carry of a full word goes to the predicate destination. -/
theorem test_carry : (newestResult (.iaddc (opIN (.p 1) (.v 1) (.v 2) .zero)) (vs [(1, 0xFFFF_FFFF), (2, 1)])).map Result.writes =
    some [.p 1 true] := by decide +kernel

/-- R66: 0x804 is an 8-bit field at bit 4. -/
theorem test_bfext : gives (.bfextImm (imm (.v 3) (.v 1) 0x804)) [(1, 0x1234_5678)] 0x67 = true := by decide +kernel

/-- R139: lanes above 127 are dropped. -/
theorem test_kset : (newestResult (.kset (op (.k 1) (.v 1) (.v 2))) (vs [(1, 120), (2, 100)])).map Result.writes =
    some [.k 1 (0xFF#128 <<< 120)] := by decide +kernel

/-- R94: `ffrac` of -2^-30. -/
theorem test_ffrac : gives (.ffrac ⟨plain, ⟨0, 0, false, false, 0⟩, .v 3, .v 1, .zero, .zero⟩) [(1, 0xB080_0000)] 0x3F7F_FFFF = true := by
  decide +kernel

/-- R97: 200.5 to s8, with and without `sat`. -/
theorem test_cvti : gives (.cvti ⟨plain, ⟨0, 0, 0, true⟩, .v 3, .v 1, .zero, .zero⟩) [(1, 0x4348_8000)] 0x7F = true ∧
    gives (.cvti ⟨plain, ⟨0, 0, 0, false⟩, .v 3, .v 1, .zero, .zero⟩) [(1, 0x4348_8000)] 0xFFFF_FFC8 = true := by decide +kernel

/-- The quantisation traced after R101: 3.125, 100, -200, NaN, and an invalid scale. -/
theorem test_qnt :
    (let q := Instr.qnt ⟨plain, ⟨2, 0, 0, 0⟩, .v 5, .v 4, .v 6, .zero⟩
     gives q [(4, 0x4048_0000), (6, 0x7A)] 2 && gives q [(4, 0x42C8_0000), (6, 0x7A)] 0x50 && gives q [(4, 0xC348_0000), (6, 0x7A)] 0x80 &&
       gives q [(4, 0x7FC0_0000), (6, 0x7A)] 0 && gives q [(4, 0x4048_0000), (6, 0xFF)] 0 &&
       gives q [(4, 0x3E99_999A), (6, 0x7F)] 0x2A (slots 0x97)) = true := by decide +kernel

theorem test_dqnt : gives (.dqnt ⟨plain, ⟨2, 0, 0, 0⟩, .v 5, .v 4, .v 6, .zero⟩) [(4, 0x2A), (6, 0x7F)] 0x3EA0_0000 (slots 0x97) = true := by
  decide +kernel

/-- The scale codes of 3.0 under SE8, to nearest and up, and under SM8. -/
theorem test_sclenc :
    (let c := fun (r : BitVec 2) => Instr.sclenc ⟨plain, ⟨2, 0, r, 0⟩, .v 5, .v 4, .zero, .zero⟩
     gives (c 0) [(4, 0x4040_0000)] 0x80 (slots 0x93) && gives (c 2) [(4, 0x4040_0000)] 0x81 (slots 0x93) &&
       gives (c 0) [(4, 0x4040_0000)] 0x84) = true := by decide +kernel

/-- The dot products of the example after R103. -/
theorem test_dot8 :
    gives (.dot8 ⟨plain, ⟨true, true, false, 0⟩, .v 9, .v 1, .v 2, .v 9⟩) [(1, 0xF3), (2, 0x25), (9, 100)] 113 = true ∧
    gives (.dot8 ⟨plain, ⟨false, false, false, 0⟩, .v 9, .v 1, .v 2, .v 9⟩) [(1, 0xF3), (2, 0x25), (9, 100)] 145 = true := by decide +kernel

/-- R335: a load of element 9,999 takes BOUNDS, and its record names the segment's first word and its header. -/
theorem test_bounds_record : (match step (stateAt (.ld (mem 6 0)) (vs [(1, 9999)])) with
    | .next t => one t fun th => th.status = .ready && th.pc = 0 && th.faultInfo = 0x10 && th.faultPc = 8 && th.faultHdr = 0 &&
        th.data0 = 0x270F && th.data1 = 8
    | _ => false) = true := by decide +kernel

/-- R122: four `aadd` on a word that holds 10, in lane order. -/
theorem test_atomics : applyAtomics 6 10 ([(0, 1), (3, 2), (5, 3), (9, 4)].map fun x : Nat × Nat => ⟨⟨1, 0, x.1⟩, .add, BitVec.ofNat 64 x.2, 0⟩) =
    (20, [(⟨1, 0, 0⟩, 10), (⟨1, 0, 3⟩, 11), (⟨1, 0, 5⟩, 13), (⟨1, 0, 9⟩, 16)]) := by decide +kernel

/-- R208: the record of the example; R221: chunks 9 and 10 under swizzle 3 change places. -/
theorem test_records : bufRec 0x0000_0001_0000_0080_0004_0000_0001_0000 = ⟨0x10000, 4, 128, 1, 0, false, false, 0, 0, false, 0⟩ ∧
    swizzled 3 (9 * 16) = 10 * 16 ∧ swizzled 3 (10 * 16) = 9 * 16 := by decide +kernel

/-- R164: the element of the example. -/
theorem test_matrix_element :
    (let a : List Nat := [0x7D, 0x7D] ++ List.replicate 30 0 ++ [0xFD] ++ List.replicate 31 0 ++ [0xFB] ++ List.replicate 191 0
     let b : List Nat := [4, 4] ++ List.replicate 30 0 ++ [1] ++ List.replicate 31 0 ++ [1] ++ List.replicate 191 0
     mxElement 0x93 0x91 ⟨a, List.replicate 8 0x7B⟩ ⟨b, [0x7C, 0x7C, 0x5E] ++ List.replicate 5 0x7F⟩ 0x3F80_0000) = 0x410C_A000 := by
  decide +kernel

/-- R314: count 128, reloaded, replayed. -/
theorem test_matrix_token : tokenWord 128 true true 0 = 0x0300_0080 := by decide +kernel

/-- R273: the resource `fld`; R271: the offsets that `blur` reads. -/
theorem test_declarations :
    (let r := resourceOf (0x07C6_0004_0004_0820 + 0x4B0 * 2 ^ 64 + 0x0008_2000_0040_0000 * 2 ^ 128)
     !r.external && r.overflow && [r.elemStride, r.tilesX, r.tilesY, r.ringSlots, r.vault, r.threshold, r.overflowBase, r.overflowTiles, tileBytes r] =
      [2, 4, 4, 6, 15, 1200, 0x2000_0040_0000, 8, 8192]) = true ∧
    (readDecl (0x9 * 2 ^ 64 + 0x20F0_401F_9E3F_1200)).offsets =
      [(-1, -1), (0, -1), (1, -1), (-1, 0), (0, 0), (1, 0), (-1, 1), (0, 1), (1, 1)] := by decide +kernel

/-- R298: chunks of 40 records over 4 cores, by their first record. -/
theorem test_chunks :
    (let p := { richPass with part := 1, batch := true, batchCount := 40 }
     let s := { quietState id with cores := State.reset.cores.mapIdx fun i c => if i < 4 then { c with part := 1 } else c }
     [0, 5, 9, 18, 26].map fun n => ((findGroup s 1).bind fun g => (findGroup (dealChunk s g { p with first := n } 0) 1).map Group.y)) =
      [some 5, some 4, some 3, some 2, some 1] := by decide +kernel

/-- R351: the clusters after cluster 9, around the die. -/
theorem test_admission : admitOrder 0 9 = [10, 11, 12, 13, 14, 15, 0, 1, 2, 3, 4, 5, 6, 7, 8, 9] := by decide +kernel

end Sys2Proof.Tests
end

namespace Sys2Proof.Encoding

/-!
The encoding and the decoder agree (O1, O2).  Packing the fields of a word gives the word back, one lemma for each shape of
word; so what the decoder reads encodes as the word it was read from, opcode by opcode (`DecodesAs`), and whether a literal
word follows is read from the word alone.
-/

/-! ## Packing the fields of a word gives the word back (R25, R29-R31, R55) -/

theorem field_bit (w : Wide) {lo n i : Nat} (h : lo ≤ i) (h' : i < lo + n) :
    (w.extractLsb' lo n).getLsbD (i - lo) = w.getLsbD i := by
  rw [BitVec.getLsbD_extractLsb', decide_eq_true (by omega), Bool.true_and]
  congr 1
  omega

/-- Every bit of a word stands in one of its fields (R25). -/
theorem packHead_fields (w : Wide) (l : Option Wide) {op : BitVec 10} (ho : wordOpcode w = op.toNat) :
    packHead (wordHead w l) op (codeD w) (codeA w) (codeB w) (codeC w) (wordMod w) = w := by
  have hop : op = w.extractLsb' 53 10 := BitVec.eq_of_toNat_eq ho.symm
  subst hop
  refine BitVec.eq_of_getLsbD_eq fun i hi => ?_
  rw [packHead_bit]
  split_ifs
  case neg =>
    obtain rfl : i = 63 := by omega
    simp [wordHead]
  all_goals exact field_bit w (by omega) (by omega)

@[simp] theorem code_ofCode (c : BitVec 10) : (Operand.ofCode c).code = c := by
  revert c; decide +kernel

theorem codeB_of_parts (w : Wide) : w.extractLsb' 28 5 ++ w.extractLsb' 23 5 = codeB w :=
  BitVec.extractLsb'_append_extractLsb'_eq_extractLsb' rfl

theorem extractLsb'_inside (w : Wide) {lo n lo' n' : Nat} (h : lo' + n' ≤ n) :
    (w.extractLsb' lo n).extractLsb' lo' n' = w.extractLsb' (lo + lo') n' := by
  refine BitVec.eq_of_getLsbD_eq fun i hi => ?_
  simp only [BitVec.getLsbD_extractLsb', Nat.add_assoc]
  simp [hi, show lo' + i < n by omega]

theorem codeB_of_imm (w : Wide) : (w.extractLsb' 13 20).extractLsb' 10 10 = codeB w := extractLsb'_inside w (by decide)
theorem codeC_of_imm (w : Wide) : (w.extractLsb' 13 20).extractLsb' 0 10 = codeC w := extractLsb'_inside w (by decide)
theorem high_of_offset (w : Wide) : (w.extractLsb' 28 5 ++ w.extractLsb' 13 10).extractLsb' 10 5 = w.extractLsb' 28 5 := by
  exact BitVec.extractLsb'_append_eq_left
theorem low_of_offset (w : Wide) : (w.extractLsb' 28 5 ++ w.extractLsb' 13 10).extractLsb' 0 10 = codeC w := by
  exact BitVec.extractLsb'_append_eq_right
section
variable {μ : Type} (f : BitVec 9 → μ) {w : Wide} (l : Option Wide) {op : BitVec 10} {m : BitVec 9}
  (ho : wordOpcode w = op.toNat) (hm : m = wordMod w)
include ho hm

theorem pack_opWord : (opWord f w l).pack op m = w := by
  simp [OpWord.pack, opWord, hm, packHead_fields w l ho]

theorem pack_immWord : (immWord f w l).pack op m = w := by
  simp only [ImmWord.pack, immWord, hm, codeB_of_imm, codeC_of_imm, code_ofCode, packHead_fields w l ho]

theorem pack_memWord : (memWord f w l).pack op m = w := by
  simp only [MemWord.pack, memWord, hm, high_of_offset, low_of_offset, codeB_of_parts, code_ofCode, packHead_fields w l ho]

theorem pack_rawMemWord : (rawMemWord f w l).pack op m = w := by
  simp only [RawMemWord.pack, rawMemWord, hm, high_of_offset, low_of_offset, codeB_of_parts, code_ofCode,
    packHead_fields w l ho]

theorem pack_timedMemWord : (timedMemWord f w l).pack op m = w := by
  simp only [TimedMemWord.pack, timedMemWord, hm, codeB_of_parts, code_ofCode, packHead_fields w l ho]

theorem pack_copyWord : (copyWord f w l).pack op m = w := by
  simp only [CopyWord.pack, copyWord, hm, codeB_of_parts, code_ofCode, packHead_fields w l ho]

theorem pack_rawDWord : (rawDWord f w l).pack op m = w := by
  simp only [RawDWord.pack, rawDWord, hm, code_ofCode, packHead_fields w l ho]

theorem pack_rawAWord : (rawAWord f w l).pack op m = w := by
  simp only [RawAWord.pack, rawAWord, hm, code_ofCode, packHead_fields w l ho]

theorem pack_rawBWord : (rawBWord f w l).pack op m = w := by
  simp only [RawBWord.pack, rawBWord, hm, code_ofCode, packHead_fields w l ho]
end


/-! A modifier holds each of its nine bits. -/

theorem ModIN.bits_ofBits (m : BitVec 9) : (ModIN.ofBits m).bits = m := by
  revert m; decide +kernel
theorem ModCM.bits_ofBits (m : BitVec 9) : (ModCM.ofBits m).bits = m := by
  revert m; decide +kernel
theorem ModFL.bits_ofBits (m : BitVec 9) : (ModFL.ofBits m).bits = m := by
  revert m; decide +kernel
theorem ModCF.bits_ofBits (m : BitVec 9) : (ModCF.ofBits m).bits = m := by
  revert m; decide +kernel
theorem ModCI.bits_ofBits (m : BitVec 9) : (ModCI.ofBits m).bits = m := by
  revert m; decide +kernel
theorem ModQS.bits_ofBits (m : BitVec 9) : (ModQS.ofBits m).bits = m := by
  revert m; decide +kernel
theorem ModDT.bits_ofBits (m : BitVec 9) : (ModDT.ofBits m).bits = m := by
  revert m; decide +kernel
theorem ModMM.bits_ofBits (m : BitVec 9) : (ModMM.ofBits m).bits = m := by
  revert m; decide +kernel
theorem ModAT.bits_ofBits (m : BitVec 9) : (ModAT.ofBits m).bits = m := by
  revert m; decide +kernel
theorem ModWA.bits_ofBits (m : BitVec 9) : (ModWA.ofBits m).bits = m := by
  revert m; decide +kernel
theorem ModFN.bits_ofBits (m : BitVec 9) : (ModFN.ofBits m).bits = m := by
  revert m; decide +kernel
theorem ModXF.bits_ofBits (m : BitVec 9) : (ModXF.ofBits m).bits = m := by
  revert m; decide +kernel
theorem ModCP.bits_ofBits (m : BitVec 9) : (ModCP.ofBits m).bits = m := by
  revert m; decide +kernel
theorem ModQU.bits_ofBits (m : BitVec 9) : (ModQU.ofBits m).bits = m := by
  revert m; decide +kernel
theorem ModTM.bits_ofBits (m : BitVec 9) : (ModTM.ofBits m).bits = m := by
  revert m; decide +kernel
theorem ModXL.bits_ofBits (m : BitVec 9) : (ModXL.ofBits m).bits = m := by
  revert m; decide +kernel
theorem ModZ.bits_ofBits (m : BitVec 9) : (ModZ.ofBits m).bits = m := by
  revert m; decide +kernel

/-- A view with another literal word. -/
def withLit (l : Option Wide) (v : View) : View := { v with h := { v.h with lit := l } }

/-- The constructor is the one that the word's fields select. -/
def formOk (i : Instr) : Bool := i.immOk && i.variantOk && i.opcodeOk && i.agentOk

/-- `f` is a word's instruction for each literal word that may follow: it encodes as the word, is the constructor that the
fields select, and has the operand fields whatever the literal word. -/
structure DecodesAs (w : Wide) (f : Option Wide → Instr) : Prop where
  word : ∀ l, (f l).word = some w
  view : ∀ l, (f l).view = (f none).view.map (withLit l)
  seen : (f none).view.isSome = true
  form : ∀ l, formOk (f l) = true

theorem decodesAs_ite {w : Wide} {c : Prop} [Decidable c] {f g : Option Wide → Instr} (hf : c → DecodesAs w f)
    (hg : ¬c → DecodesAs w g) : DecodesAs w fun l => if c then f l else g l := by
  by_cases h : c
  · simpa [h] using hf h
  · simpa [h] using hg h

/-! ## The opcode map, by layout (R52, R55) -/

/-- Opcodes with four operand codes and layout IN, without an immediate form. -/
def opcodesIN : List Nat := [0x014, 0x015, 0x016, 0x019, 0x01A, 0x024, 0x029, 0x02A, 0x02B, 0x02C, 0x02D, 0x02F]
/-- Opcodes of layout IN whose `imm` bit selects an immediate form (R29). -/
def opcodesImm : List Nat :=
  [0x010, 0x011, 0x012, 0x013, 0x017, 0x018, 0x020, 0x021, 0x022, 0x023, 0x025, 0x026, 0x027, 0x028, 0x02E]
def opcodesFL : List Nat := List.range' 0x040 20
def opcodesQS : List Nat := [0x062, 0x063, 0x064, 0x065]
def opcodesDT : List Nat := [0x066, 0x067]
def opcodesXL : List Nat := List.range' 0x1C0 8
def opcodesQU : List Nat := [0x123, 0x124]
/-- Opcodes with four operand codes and no modifier. -/
def opcodesZ : List Nat :=
  [0x000, 0x032, 0x033, 0x034, 0x035, 0x036, 0x039, 0x068, 0x069, 0x122, 0x200, 0x201, 0x202, 0x203, 0x210, 0x219, 0x21B,
   0x222, 0x223, 0x224, 0x280, 0x281, 0x282, 0x283, 0x284, 0x285, 0x288, 0x289, 0x28A, 0x292, 0x293, 0x2C1, 0x2C2]
def opcodesMM : List Nat := [0x100, 0x101, 0x102, 0x103, 0x104, 0x106, 0x107]
def opcodesAT : List Nat := List.range' 0x108 14
def opcodesCP : List Nat := [0x120, 0x121]
def opcodesRawD : List Nat := [0x218, 0x21A, 0x2C0]
def opcodesRawB : List Nat := [0x220, 0x221]

section
variable {w : Wide} {n : Nat} (hn : wordOpcode w = n)
include hn

theorem decodesAs_IN (h : n ∈ opcodesIN) : DecodesAs w (decodeWith w) := by
  unfold decodeWith
  rw [hn]
  fin_cases h
  all_goals exact ⟨fun l => congrArg some (pack_opWord _ l hn (ModIN.bits_ofBits _)), fun _ => rfl, rfl, fun _ => rfl⟩

theorem decodesAs_FL (h : n ∈ opcodesFL) : DecodesAs w (decodeWith w) := by
  unfold decodeWith
  rw [hn]
  fin_cases h
  all_goals exact ⟨fun l => congrArg some (pack_opWord _ l hn (ModFL.bits_ofBits _)), fun _ => rfl, rfl, fun _ => rfl⟩

theorem decodesAs_QS (h : n ∈ opcodesQS) : DecodesAs w (decodeWith w) := by
  unfold decodeWith
  rw [hn]
  fin_cases h
  all_goals exact ⟨fun l => congrArg some (pack_opWord _ l hn (ModQS.bits_ofBits _)), fun _ => rfl, rfl, fun _ => rfl⟩

theorem decodesAs_DT (h : n ∈ opcodesDT) : DecodesAs w (decodeWith w) := by
  unfold decodeWith
  rw [hn]
  fin_cases h
  all_goals exact ⟨fun l => congrArg some (pack_opWord _ l hn (ModDT.bits_ofBits _)), fun _ => rfl, rfl, fun _ => rfl⟩

theorem decodesAs_XL (h : n ∈ opcodesXL) : DecodesAs w (decodeWith w) := by
  unfold decodeWith
  rw [hn]
  fin_cases h
  all_goals exact ⟨fun l => congrArg some (pack_opWord _ l hn (ModXL.bits_ofBits _)), fun _ => rfl, rfl, fun _ => rfl⟩

theorem decodesAs_QU (h : n ∈ opcodesQU) : DecodesAs w (decodeWith w) := by
  unfold decodeWith
  rw [hn]
  fin_cases h
  all_goals exact ⟨fun l => congrArg some (pack_opWord _ l hn (ModQU.bits_ofBits _)), fun _ => rfl, rfl, fun _ => rfl⟩

theorem decodesAs_Z (h : n ∈ opcodesZ) : DecodesAs w (decodeWith w) := by
  unfold decodeWith
  rw [hn]
  fin_cases h
  all_goals exact ⟨fun l => congrArg some (pack_opWord _ l hn (ModZ.bits_ofBits _)), fun _ => rfl, rfl, fun _ => rfl⟩

theorem decodesAs_MM (h : n ∈ opcodesMM) : DecodesAs w (decodeWith w) := by
  unfold decodeWith
  rw [hn]
  fin_cases h
  all_goals exact ⟨fun l => congrArg some (pack_memWord _ l hn (ModMM.bits_ofBits _)), fun _ => rfl, rfl, fun _ => rfl⟩

theorem decodesAs_AT (h : n ∈ opcodesAT) : DecodesAs w (decodeWith w) := by
  unfold decodeWith
  rw [hn]
  fin_cases h
  all_goals exact ⟨fun l => congrArg some (pack_memWord _ l hn (ModAT.bits_ofBits _)), fun _ => rfl, rfl, fun _ => rfl⟩

theorem decodesAs_CP (h : n ∈ opcodesCP) : DecodesAs w (decodeWith w) := by
  unfold decodeWith
  rw [hn]
  fin_cases h
  all_goals exact ⟨fun l => congrArg some (pack_copyWord _ l hn (ModCP.bits_ofBits _)), fun _ => rfl, rfl, fun _ => rfl⟩

theorem decodesAs_RawD (h : n ∈ opcodesRawD) : DecodesAs w (decodeWith w) := by
  unfold decodeWith
  rw [hn]
  fin_cases h
  all_goals exact ⟨fun l => congrArg some (pack_rawDWord _ l hn (ModZ.bits_ofBits _)), fun _ => rfl, rfl, fun _ => rfl⟩

theorem decodesAs_RawB (h : n ∈ opcodesRawB) : DecodesAs w (decodeWith w) := by
  unfold decodeWith
  rw [hn]
  fin_cases h
  all_goals exact ⟨fun l => congrArg some (pack_rawBWord _ l hn (ModZ.bits_ofBits _)), fun _ => rfl, rfl, fun _ => rfl⟩

theorem decodesAs_imm (h : n ∈ opcodesImm) : DecodesAs w (decodeWith w) := by
  unfold decodeWith
  rw [hn]
  fin_cases h
  all_goals
    refine decodesAs_ite (fun hi => ?_) (fun hi => ?_)
    · exact ⟨fun l => congrArg some (pack_immWord _ l hn (ModIN.bits_ofBits _)), fun _ => rfl, rfl,
        fun _ => congrArg (· && true && true && true) hi⟩
    · exact ⟨fun l => congrArg some (pack_opWord _ l hn (ModIN.bits_ofBits _)), fun _ => rfl, rfl,
        fun _ => congrArg (!· && true && true && true) (Bool.eq_false_of_not_eq_true hi)⟩

end

section
variable {w : Wide}

theorem decodesAs_icmp (hn : wordOpcode w = 0x030) : DecodesAs w (decodeWith w) := by
  unfold decodeWith
  rw [hn]
  refine decodesAs_ite (fun hi => ?_) (fun hi => ?_)
  · exact ⟨fun l => congrArg some (pack_immWord _ l hn (ModCM.bits_ofBits _)), fun _ => rfl, rfl,
      fun _ => congrArg (· && true && true && true) hi⟩
  · exact ⟨fun l => congrArg some (pack_opWord _ l hn (ModCM.bits_ofBits _)), fun _ => rfl, rfl,
      fun _ => congrArg (!· && true && true && true) (Bool.eq_false_of_not_eq_true hi)⟩

theorem decodesAs_waita (hn : wordOpcode w = 0x118) : DecodesAs w (decodeWith w) := by
  unfold decodeWith
  rw [hn]
  refine decodesAs_ite (fun hi => ?_) (fun hi => ?_)
  · exact ⟨fun l => congrArg some (pack_timedMemWord _ l hn (ModWA.bits_ofBits _)), fun _ => rfl, rfl,
      fun _ => congrArg (true && · && true && true) hi⟩
  · exact ⟨fun l => congrArg some (pack_memWord _ l hn (ModWA.bits_ofBits _)), fun _ => rfl, rfl,
      fun _ => congrArg (true && !· && true && true) (Bool.eq_false_of_not_eq_true hi)⟩

/-- The kind of operand a selects the form of `kset` (R139). -/
theorem decodesAs_kset (hn : wordOpcode w = 0x038) : DecodesAs w (decodeWith w) := by
  unfold decodeWith
  rw [hn]
  cases ha : Operand.ofCode (codeA w)
  all_goals
    exact ⟨fun l => congrArg some (pack_opWord _ l hn (ModZ.bits_ofBits _)), fun _ => rfl, rfl, fun _ => by
      simp only [formOk, Instr.immOk, Instr.variantOk, Instr.opcodeOk, Instr.agentOk, opWord, ha, Bool.and_self]⟩

/-- The register number selects among the writes of a system register (R108, R362). -/
theorem decodesAs_syswr (hn : wordOpcode w = 0x291) : DecodesAs w (decodeWith w) := by
  unfold decodeWith
  rw [hn]
  refine decodesAs_ite (fun hs => ?_) fun hs => decodesAs_ite (fun hc => ?_) (fun hc => ?_)
  all_goals refine ⟨fun l => congrArg some (pack_rawDWord _ l hn (ModZ.bits_ofBits _)), fun _ => rfl, rfl, fun _ => ?_⟩
  all_goals simp only [formOk, Instr.immOk, Instr.variantOk, Instr.opcodeOk, Instr.agentOk, rawDWord]
  · simp [hs]
  · simp [hc]
  · simp only [not_and_or, not_le, not_lt] at hc
    have hd : codeD w ≠ 1#10 := hs
    rcases hc with hc | hc
    · simp [hd, show ¬48 ≤ (codeD w).toNat by omega]
    · simp [hd, show ¬(codeD w).toNat < 64 by omega]

theorem decodesAs_fcmp (hn : wordOpcode w = 0x031) : DecodesAs w (decodeWith w) := by
  unfold decodeWith
  rw [hn]
  exact ⟨fun l => congrArg some (pack_opWord _ l hn (ModCM.bits_ofBits _)), fun _ => rfl, rfl, fun _ => rfl⟩

theorem decodesAs_cvtf (hn : wordOpcode w = 0x060) : DecodesAs w (decodeWith w) := by
  unfold decodeWith
  rw [hn]
  exact ⟨fun l => congrArg some (pack_opWord _ l hn (ModCF.bits_ofBits _)), fun _ => rfl, rfl, fun _ => rfl⟩

theorem decodesAs_cvti (hn : wordOpcode w = 0x061) : DecodesAs w (decodeWith w) := by
  unfold decodeWith
  rw [hn]
  exact ⟨fun l => congrArg some (pack_opWord _ l hn (ModCI.bits_ofBits _)), fun _ => rfl, rfl, fun _ => rfl⟩

theorem decodesAs_ldbr (hn : wordOpcode w = 0x105) : DecodesAs w (decodeWith w) := by
  unfold decodeWith
  rw [hn]
  exact ⟨fun l => congrArg some (pack_rawMemWord _ l hn (ModMM.bits_ofBits _)), fun _ => rfl, rfl, fun _ => rfl⟩

theorem decodesAs_fence (hn : wordOpcode w = 0x119) : DecodesAs w (decodeWith w) := by
  unfold decodeWith
  rw [hn]
  exact ⟨fun l => congrArg some (pack_opWord _ l hn (ModFN.bits_ofBits _)), fun _ => rfl, rfl, fun _ => rfl⟩

theorem decodesAs_xfence (hn : wordOpcode w = 0x11A) : DecodesAs w (decodeWith w) := by
  unfold decodeWith
  rw [hn]
  exact ⟨fun l => congrArg some (pack_opWord _ l hn (ModXF.bits_ofBits _)), fun _ => rfl, rfl, fun _ => rfl⟩

theorem decodesAs_tmove (hn : wordOpcode w = 0x125) : DecodesAs w (decodeWith w) := by
  unfold decodeWith
  rw [hn]
  exact ⟨fun l => congrArg some (pack_opWord _ l hn (ModTM.bits_ofBits _)), fun _ => rfl, rfl, fun _ => rfl⟩

theorem decodesAs_sysrd (hn : wordOpcode w = 0x290) : DecodesAs w (decodeWith w) := by
  unfold decodeWith
  rw [hn]
  exact ⟨fun l => congrArg some (pack_rawAWord _ l hn (ModZ.bits_ofBits _)), fun _ => rfl, rfl, fun _ => rfl⟩

end

/-- Opcodes that share their layout with no other. -/
def opcodesAlone : List Nat :=
  [0x030, 0x031, 0x038, 0x060, 0x061, 0x105, 0x118, 0x119, 0x11A, 0x125, 0x290, 0x291]

/-- Every assigned opcode has one of the layouts above. -/
theorem layout_of_assigned : ∀ n < 2 ^ 10, opcodeAssigned n = true →
    n ∈ opcodesIN ++ (opcodesImm ++ (opcodesFL ++ (opcodesQS ++ (opcodesDT ++ (opcodesXL ++ (opcodesQU ++ (opcodesZ ++
      (opcodesMM ++ (opcodesAT ++ (opcodesCP ++ (opcodesRawD ++ (opcodesRawB ++ opcodesAlone)))))))))))) := by
  decide +kernel

theorem decodesAs_alone {w : Wide} {n : Nat} (hn : wordOpcode w = n) (h : n ∈ opcodesAlone) :
    DecodesAs w (decodeWith w) := by
  fin_cases h
  · exact decodesAs_icmp hn
  · exact decodesAs_fcmp hn
  · exact decodesAs_kset hn
  · exact decodesAs_cvtf hn
  · exact decodesAs_cvti hn
  · exact decodesAs_ldbr hn
  · exact decodesAs_waita hn
  · exact decodesAs_fence hn
  · exact decodesAs_xfence hn
  · exact decodesAs_tmove hn
  · exact decodesAs_sysrd hn
  · exact decodesAs_syswr hn

/-- A word of an assigned opcode decodes to an instruction that encodes as it. -/
theorem decodesAs_of_assigned {w : Wide} (h : opcodeAssigned (wordOpcode w) = true) : DecodesAs w (decodeWith w) := by
  have hlt : wordOpcode w < 2 ^ 10 := (w.extractLsb' 53 10).isLt
  have hm := layout_of_assigned _ hlt h
  simp only [List.mem_append] at hm
  rcases hm with h | h | h | h | h | h | h | h | h | h | h | h | h | h
  · exact decodesAs_IN rfl h
  · exact decodesAs_imm rfl h
  · exact decodesAs_FL rfl h
  · exact decodesAs_QS rfl h
  · exact decodesAs_DT rfl h
  · exact decodesAs_XL rfl h
  · exact decodesAs_QU rfl h
  · exact decodesAs_Z rfl h
  · exact decodesAs_MM rfl h
  · exact decodesAs_AT rfl h
  · exact decodesAs_CP rfl h
  · exact decodesAs_RawD rfl h
  · exact decodesAs_RawB rfl h
  · exact decodesAs_alone rfl h

/-! ## The literal word (R36) -/

theorem needsLiteral_decodeWith (w : Wide) (l : Option Wide) (h : opcodeAssigned (wordOpcode w) = true) :
    (decodeWith w l).needsLiteral = (decodeWith w none).needsLiteral := by
  unfold Instr.needsLiteral
  rw [(decodesAs_of_assigned h).view l]
  cases (decodeWith w none).view <;> rfl

theorem literal_decodeWith (w : Wide) (l : Option Wide) (h : opcodeAssigned (wordOpcode w) = true) :
    (decodeWith w l).literal = l := by
  have hd := decodesAs_of_assigned h
  obtain ⟨v, hv⟩ := Option.isSome_iff_exists.1 hd.seen
  simp [Instr.literal, hd.view l, hv, withLit]

theorem wf_decodeWith (w : Wide) (l : Option Wide) (h : opcodeAssigned (wordOpcode w) = true)
    (hl : l.isSome = (decodeWith w none).needsLiteral) : (decodeWith w l).wf = true := by
  have hf := (decodesAs_of_assigned h).form l
  simp only [formOk, Bool.and_eq_true] at hf
  obtain ⟨⟨⟨hi, hv⟩, ho⟩, ha⟩ := hf
  simp [Instr.wf, Instr.literalOk, literal_decodeWith w l h, needsLiteral_decodeWith w l h, hl, hi, hv, ho, ha]

/-! ## Every word decodes to an instruction that encodes as it -/

theorem needsLiteral_of_unassigned {w : Wide} (h : opcodeAssigned (wordOpcode w) = false) :
    (decodeWith w none).needsLiteral = false := by
  rw [Laws.Decodes.decode_unassigned w _ rfl h]
  rfl

/-- A word and the literal word that it calls for decode to a well-formed instruction, which encodes as them. -/
theorem encode_decodeWith (w : Wide) (l : Option Wide) (hl : l.isSome = (decodeWith w none).needsLiteral) :
    encode (decodeWith w l) = w :: l.toList ∧ (decodeWith w l).wf = true ∧ (decodeWith w l).isWord = true := by
  cases h : opcodeAssigned (wordOpcode w) with
  | true =>
    have hw := (decodesAs_of_assigned h).word l
    exact ⟨by simp [encode, hw, literal_decodeWith w l h], wf_decodeWith w l h hl, by simp [Instr.isWord, hw]⟩
  | false =>
    rw [needsLiteral_of_unassigned h] at hl
    obtain rfl : l = none := by simpa using hl
    rw [Laws.Decodes.decode_unassigned w _ rfl h]
    exact ⟨rfl, by
      simp [Instr.wf, Instr.opcodeOk, h, Instr.literalOk, Instr.literal, Instr.view, Instr.needsLiteral, Instr.immOk,
        Instr.variantOk, Instr.agentOk], rfl⟩

/-! ## Every well-formed word decodes to itself -/

/-- The decoder reads the word of a well-formed instruction, with its literal word, as the instruction. -/
theorem decodeWith_word (i : Instr) : Laws.Decodes.Statement i := by
  cases i with
  | nop w => exact Laws.Decodes.nop w
  | iadd w => exact Laws.Decodes.iadd w
  | iaddImm w => exact Laws.Decodes.iaddImm w
  | isub w => exact Laws.Decodes.isub w
  | isubImm w => exact Laws.Decodes.isubImm w
  | imul w => exact Laws.Decodes.imul w
  | imulImm w => exact Laws.Decodes.imulImm w
  | imulhi w => exact Laws.Decodes.imulhi w
  | imulhiImm w => exact Laws.Decodes.imulhiImm w
  | imad w => exact Laws.Decodes.imad w
  | iaddc w => exact Laws.Decodes.iaddc w
  | isubc w => exact Laws.Decodes.isubc w
  | imin w => exact Laws.Decodes.imin w
  | iminImm w => exact Laws.Decodes.iminImm w
  | imax w => exact Laws.Decodes.imax w
  | imaxImm w => exact Laws.Decodes.imaxImm w
  | iabs w => exact Laws.Decodes.iabs w
  | ineg w => exact Laws.Decodes.ineg w
  | and w => exact Laws.Decodes.and w
  | andImm w => exact Laws.Decodes.andImm w
  | or w => exact Laws.Decodes.or w
  | orImm w => exact Laws.Decodes.orImm w
  | xor w => exact Laws.Decodes.xor w
  | xorImm w => exact Laws.Decodes.xorImm w
  | andn w => exact Laws.Decodes.andn w
  | andnImm w => exact Laws.Decodes.andnImm w
  | not w => exact Laws.Decodes.not w
  | shl w => exact Laws.Decodes.shl w
  | shlImm w => exact Laws.Decodes.shlImm w
  | shr w => exact Laws.Decodes.shr w
  | shrImm w => exact Laws.Decodes.shrImm w
  | rotl w => exact Laws.Decodes.rotl w
  | rotlImm w => exact Laws.Decodes.rotlImm w
  | bfext w => exact Laws.Decodes.bfext w
  | bfextImm w => exact Laws.Decodes.bfextImm w
  | bfins w => exact Laws.Decodes.bfins w
  | popc w => exact Laws.Decodes.popc w
  | clz w => exact Laws.Decodes.clz w
  | brev w => exact Laws.Decodes.brev w
  | sel w => exact Laws.Decodes.sel w
  | mov w => exact Laws.Decodes.mov w
  | movImm w => exact Laws.Decodes.movImm w
  | lea w => exact Laws.Decodes.lea w
  | icmp w => exact Laws.Decodes.icmp w
  | icmpImm w => exact Laws.Decodes.icmpImm w
  | fcmp w => exact Laws.Decodes.fcmp w
  | pand w => exact Laws.Decodes.pand w
  | por w => exact Laws.Decodes.por w
  | pxor w => exact Laws.Decodes.pxor w
  | pnot w => exact Laws.Decodes.pnot w
  | pmov w => exact Laws.Decodes.pmov w
  | kset w => exact Laws.Decodes.kset w
  | ksetCopy w => exact Laws.Decodes.ksetCopy w
  | kget w => exact Laws.Decodes.kget w
  | fadd w => exact Laws.Decodes.fadd w
  | fsub w => exact Laws.Decodes.fsub w
  | fmul w => exact Laws.Decodes.fmul w
  | ffma w => exact Laws.Decodes.ffma w
  | fmin w => exact Laws.Decodes.fmin w
  | fmax w => exact Laws.Decodes.fmax w
  | fabs w => exact Laws.Decodes.fabs w
  | fneg w => exact Laws.Decodes.fneg w
  | frcp w => exact Laws.Decodes.frcp w
  | frsq w => exact Laws.Decodes.frsq w
  | fsqrt w => exact Laws.Decodes.fsqrt w
  | fdiv w => exact Laws.Decodes.fdiv w
  | fexp2 w => exact Laws.Decodes.fexp2 w
  | flog2 w => exact Laws.Decodes.flog2 w
  | fsin w => exact Laws.Decodes.fsin w
  | fcos w => exact Laws.Decodes.fcos w
  | ffrac w => exact Laws.Decodes.ffrac w
  | frnd w => exact Laws.Decodes.frnd w
  | fclamp w => exact Laws.Decodes.fclamp w
  | fscale w => exact Laws.Decodes.fscale w
  | cvtf w => exact Laws.Decodes.cvtf w
  | cvti w => exact Laws.Decodes.cvti w
  | qnt w => exact Laws.Decodes.qnt w
  | dqnt w => exact Laws.Decodes.dqnt w
  | sclx w => exact Laws.Decodes.sclx w
  | sclenc w => exact Laws.Decodes.sclenc w
  | dot8 w => exact Laws.Decodes.dot8 w
  | dot4 w => exact Laws.Decodes.dot4 w
  | hpack w => exact Laws.Decodes.hpack w
  | hunpk w => exact Laws.Decodes.hunpk w
  | ld w => exact Laws.Decodes.ld w
  | st w => exact Laws.Decodes.st w
  | ldro w => exact Laws.Decodes.ldro w
  | smp w => exact Laws.Decodes.smp w
  | smpl w => exact Laws.Decodes.smpl w
  | ldbr w => exact Laws.Decodes.ldbr w
  | pref w => exact Laws.Decodes.pref w
  | resh w => exact Laws.Decodes.resh w
  | aadd w => exact Laws.Decodes.aadd w
  | amin w => exact Laws.Decodes.amin w
  | amax w => exact Laws.Decodes.amax w
  | aand w => exact Laws.Decodes.aand w
  | aor w => exact Laws.Decodes.aor w
  | axor w => exact Laws.Decodes.axor w
  | axchg w => exact Laws.Decodes.axchg w
  | acas w => exact Laws.Decodes.acas w
  | redadd w => exact Laws.Decodes.redadd w
  | redmin w => exact Laws.Decodes.redmin w
  | redmax w => exact Laws.Decodes.redmax w
  | redand w => exact Laws.Decodes.redand w
  | redor w => exact Laws.Decodes.redor w
  | redxor w => exact Laws.Decodes.redxor w
  | waita w => exact Laws.Decodes.waita w
  | waitaTo w => exact Laws.Decodes.waitaTo w
  | fence w => exact Laws.Decodes.fence w
  | xfence w => exact Laws.Decodes.xfence w
  | cpy1 w => exact Laws.Decodes.cpy1 w
  | cpy2 w => exact Laws.Decodes.cpy2 w
  | spwf w => exact Laws.Decodes.spwf w
  | qpush w => exact Laws.Decodes.qpush w
  | qpop w => exact Laws.Decodes.qpop w
  | tmove w => exact Laws.Decodes.tmove w
  | shfi w => exact Laws.Decodes.shfi w
  | shfx w => exact Laws.Decodes.shfx w
  | shfu w => exact Laws.Decodes.shfu w
  | shfd w => exact Laws.Decodes.shfd w
  | ballot w => exact Laws.Decodes.ballot w
  | vote w => exact Laws.Decodes.vote w
  | elect w => exact Laws.Decodes.elect w
  | lred w => exact Laws.Decodes.lred w
  | mxldb w => exact Laws.Decodes.mxldb w
  | mxop w => exact Laws.Decodes.mxop w
  | mxq w => exact Laws.Decodes.mxq w
  | mxdrop w => exact Laws.Decodes.mxdrop w
  | fwork w => exact Laws.Decodes.fwork w
  | tlacq w => exact Laws.Decodes.tlacq w
  | tldone w => exact Laws.Decodes.tldone w
  | tlrd w => exact Laws.Decodes.tlrd w
  | tlrel w => exact Laws.Decodes.tlrel w
  | occstep w => exact Laws.Decodes.occstep w
  | hgrid w => exact Laws.Decodes.hgrid w
  | rbox w => exact Laws.Decodes.rbox w
  | rtri w => exact Laws.Decodes.rtri w
  | rhit w => exact Laws.Decodes.rhit w
  | br w => exact Laws.Decodes.br w
  | call w => exact Laws.Decodes.call w
  | ret w => exact Laws.Decodes.ret w
  | jmpi w => exact Laws.Decodes.jmpi w
  | calli w => exact Laws.Decodes.calli w
  | exit w => exact Laws.Decodes.exit w
  | trap w => exact Laws.Decodes.trap w
  | trapret w => exact Laws.Decodes.trapret w
  | brk w => exact Laws.Decodes.brk w
  | sysrd w => exact Laws.Decodes.sysrd w
  | syswr w => exact Laws.Decodes.syswr w
  | memStatusClear w => exact Laws.Decodes.memStatusClear w
  | cntCfgWrite w => exact Laws.Decodes.cntCfgWrite w
  | cntrd w => exact Laws.Decodes.cntrd w
  | clkrd w => exact Laws.Decodes.clkrd w
  | segset w => exact Laws.Decodes.segset w
  | banksw w => exact Laws.Decodes.banksw w
  | halt w => exact Laws.Decodes.halt w
  | unassignedOpcode w => exact Laws.Decodes.unassignedOpcode w
  | _ => exact Laws.Decodes.no_word rfl

/-- An instruction word with operand fields has an assigned opcode. -/
theorem opcodeAssigned_of_view {i : Instr} {w : Wide} (hv : i.view.isSome = true) (h : i.word = some w) :
    opcodeAssigned (wordOpcode w) = true := by
  cases i
  case unassignedOpcode => cases hv
  all_goals
    cases h
    all_goals exact (congrArg opcodeAssigned (wordOpcode_packHead ..)).trans rfl

/-- Whether a literal word follows is read from the word alone (R36). -/
theorem needsLiteral_of_word {i : Instr} {w : Wide} (hw : i.wf = true) (h : i.word = some w) :
    i.literal.isSome = (decodeWith w none).needsLiteral := by
  have hi : decodeWith w i.literal = i := decodeWith_word i hw w h
  cases hl : i.literal with
  | none =>
    rw [hl] at hi
    rw [hi]
    simp only [Instr.wf, Bool.and_eq_true] at hw
    simpa [Instr.literalOk, hl] using hw.1.1.1.1
  | some l =>
    have hv : i.view.isSome = true := by
      cases hv : i.view with
      | none => simp [Instr.literal, hv] at hl
      | some v => rfl
    rw [← needsLiteral_decodeWith w i.literal (opcodeAssigned_of_view hv h), hi]
    simp only [Instr.wf, Bool.and_eq_true] at hw
    simpa [Instr.literalOk, hl] using hw.1.1.1.1

/-- The decoder reads the first word with as many words as it calls for. -/
theorem decodeWords_cons (w : Wide) (l : Option Wide) (rest : List Wide) (hl : l.isSome = (decodeWith w none).needsLiteral) :
    decodeWords (w :: (l.toList ++ rest)) = .ok (decodeWith w l, rest) := by
  cases l with
  | none => simp [decodeWords, ← hl]
  | some l => simp [decodeWords, ← hl]

/-- What the decoder reads: a word and the literal word it calls for. -/
theorem decodeWords_eq_ok {ws rest : List Wide} {i : Instr} (h : decodeWords ws = .ok (i, rest)) :
    ∃ w l, l.isSome = (decodeWith w none).needsLiteral ∧ ws = w :: (l.toList ++ rest) ∧ i = decodeWith w l := by
  cases ws with
  | nil => cases h
  | cons w ws =>
    simp only [decodeWords] at h
    split at h
    next hn =>
      cases ws with
      | nil => cases h
      | cons l ws =>
        cases h
        exact ⟨w, some l, hn.symm, rfl, rfl⟩
    next hn =>
      cases h
      exact ⟨w, none, (Bool.eq_false_of_not_eq_true hn).symm, rfl, rfl⟩

/-- Settles O1: the decoder finds the literal word that the instruction carries, and reads the word as the instruction. -/
theorem encodedWordsDecode : Obligations.EncodedWordsDecode := by
  unfold Obligations.EncodedWordsDecode
  intro i rest hi hw
  obtain ⟨w, h⟩ := Option.isSome_iff_exists.1 hi
  have hd : decodeWith w i.literal = i := decodeWith_word i hw w h
  simpa [encode, h, hd] using decodeWords_cons w i.literal rest (needsLiteral_of_word hw h)

/-- Settles O2: every word decodes to an instruction that encodes as it. -/
theorem decodingKeepsEveryBit : Obligations.DecodingKeepsEveryBit := by
  unfold Obligations.DecodingKeepsEveryBit
  intro ws rest i h
  obtain ⟨w, l, hl, rfl, rfl⟩ := decodeWords_eq_ok h
  obtain ⟨he, hw, hi⟩ := encode_decodeWith w l hl
  exact ⟨by rw [he, List.cons_append], hw, hi⟩

end Sys2Proof.Encoding


/-! What a destination receives (O19). -/

namespace Sys2Proof.Results
open Machine

theorem narrow_eq_zero (v : Wide) : narrow v = 0 ↔ v.setWidth 32 = 0 := by
  constructor
  · intro h
    simpa [narrow] using congrArg (BitVec.setWidth 32) h
  · intro h
    rw [narrow, h]
    rfl

/-- Settles O19: a destination takes what `destWrites` holds for it, by kind and width. -/
theorem destinationsReceive : Obligations.DestinationsReceive := by
  unfold Obligations.DestinationsReceive
  refine ⟨fun v i => ⟨rfl, rfl⟩, fun v i => ⟨rfl, rfl⟩, fun v i hi => ?_, fun w v => rfl, fun g th => rfl⟩
  have h0 : i.val ≠ 0 := fun e => hi (Fin.ext e)
  have hn : narrow v = 0#64 ↔ v.setWidth 32 = 0#32 := narrow_eq_zero v
  simp [destWrites, h0, hn]

end Sys2Proof.Results

/-! The fetch runs the decoded instruction (O6). -/

namespace Sys2Proof.Fetch
open Machine

/-- What the decoder reads of two words is what the fetch makes of them (R36). -/
theorem fetchInstr_of_decodes {s : State} {k : Nat} {b : Burst} {i : Instr} {tail : List Wide}
    (h : decodeWords [burstWord s k b b.pc.toNat, burstWord s k b (b.pc.toNat + 8)] = .ok (i, tail)) :
    fetchInstr s k b = i := by
  simp only [decodeWords] at h
  unfold fetchInstr
  dsimp only
  split at h <;> rename_i hn
  · cases h
    rw [if_pos hn]
  · cases h
    rw [if_neg hn]

/-- Settles O6: the fetch of a core whose burst stands at a word runs the decoded instruction. -/
theorem stepRunsTheDecodedInstruction : Obligations.StepRunsTheDecodedInstruction := by
  unfold Obligations.StepRunsTheDecodedInstruction
  intro s k c b rest i tail ha hc hb he h
  have hf := fetchInstr_of_decodes h
  simp only [step, ha, act, fetchStep, hc, hb, he, if_true, hf]

end Sys2Proof.Fetch

/-! Translation and fetched code depend on storage and on a core's translations and code lines alone (R12, R213). -/

namespace Sys2Proof.Storage
open Machine

/-- The same bytes at the home slices, reached through the same tables. -/
structure SameStorage (s t : State) : Prop where
  homes  : ∀ d a, homeByte t d a = homeByte s d a
  stack  : stackBytes t = stackBytes s
  deep   : t.deepBytes = s.deepBytes
  root   : t.pageRoot = s.pageRoot
  ranges : t.rangeList = s.rangeList

theorem SameStorage.refl (s : State) : SameStorage s s := ⟨fun _ _ => rfl, rfl, rfl, rfl, rfl⟩

theorem SameStorage.trans {a b c : State} (h : SameStorage a b) (g : SameStorage b c) : SameStorage a c :=
  ⟨fun d x => (g.homes d x).trans (h.homes d x), g.stack.trans h.stack, g.deep.trans h.deep, g.root.trans h.root,
    g.ranges.trans h.ranges⟩

theorem sameStorage_updCore (s : State) (k : Nat) (f : Core → Core) : SameStorage s (updCore s k f) :=
  ⟨fun _ _ => rfl, rfl, rfl, rfl, rfl⟩

section
variable {s t : State} (h : SameStorage s t)
include h

theorem SameStorage.tierOf (va : Nat) : tierOf t va = tierOf s va := by
  simp only [Machine.tierOf, h.stack, h.deep]

theorem SameStorage.pte (a : Nat) : pte t a = pte s a := by
  simp only [Machine.pte, sysBytes, homeBytes, h.homes]

theorem SameStorage.walkFrom (va tier : Nat) (levels : List Nat) :
    ∀ table, walkFrom t va tier table levels = walkFrom s va tier table levels := by
  induction levels with
  | nil => exact fun _ => rfl
  | cons shift rest ih => exact fun table => by simp only [Machine.walkFrom, h.pte, ih]

theorem SameStorage.walk (va tier : Nat) : walk t va tier = walk s va tier := by
  simp only [Machine.walk, h.root, h.walkFrom]

theorem SameStorage.translateH (va : Nat) (acc : Access) : translateH t va acc = translateH s va acc := by
  simp only [Machine.translateH, h.tierOf, h.ranges, h.walk]

theorem SameStorage.hRead (va n : Nat) : hRead t va n = hRead s va n := by
  simp only [Machine.hRead, h.translateH, h.homes]

end

/-- A core translates and fetches alike. -/
structure SameFetch (s t : State) (k : Nat) : Prop where
  storage : SameStorage s t
  ranges  : (getCore t k).ranges = (getCore s k).ranges
  tlb     : (getCore t k).tlb = (getCore s k).tlb
  code    : (getCore t k).iCache = (getCore s k).iCache

section
variable {s t : State} {k : Nat} (h : SameFetch s t k)
include h

theorem SameFetch.translate (va : Nat) (acc : Access) : translate t k va acc = translate s k va acc := by
  simp only [Machine.translate, h.storage.tierOf, h.ranges, h.tlb, h.storage.walk]

theorem SameFetch.codeWord (g : Group) (off : Nat) : codeWord t k g off = codeWord s k g off := by
  simp only [Machine.codeWord, codeLoc, codeByte, h.translate, h.code, h.storage.homes]

theorem SameFetch.targetFault (g : Group) (p : Pass) (target : Nat) : targetFault t k g p target = targetFault s k g p target := by
  simp only [Machine.targetFault, h.codeWord]

end

/-- The trap vector is as usable where the group's core fetches alike (R73, R152). -/
theorem vectorUsable_congr {s t : State} (h : ∀ k, SameFetch s t k) (g : Group) (p : Pass) :
    vectorUsable t g p = vectorUsable s g p := by
  simp only [vectorUsable, (h _).targetFault, vectorFault, (h 0).storage.hRead]

/-! ## Changes of a core -/

theorem getCore_updCore_other (s : State) {j k : Nat} (f : Core → Core) (h : j ≠ k) : getCore (updCore s j f) k = getCore s k := by
  simp [getCore, List.getD_eq_getElem?_getD, h]

/-- A field that a change of a core leaves alone. -/
theorem getCore_updCore_field {α : Type} (s : State) (j k : Nat) (f : Core → Core) (field : Core → α)
    (h : ∀ c, field (f c) = field c) : field (getCore (updCore s j f) k) = field (getCore s k) := by
  by_cases hj : j = k
  · subst hj
    simp only [getCore, updCore_cores, List.getD_eq_getElem?_getD, List.getElem?_modify_eq]
    cases s.cores[j]? <;> simp [h]
  · rw [getCore_updCore_other s f hj]

/-- A change of a core that leaves its translations and code lines leaves what every core fetches. -/
theorem sameFetch_updCore (s : State) (j k : Nat) (f : Core → Core)
    (h : ∀ c, (f c).ranges = c.ranges ∧ (f c).tlb = c.tlb ∧ (f c).iCache = c.iCache) : SameFetch s (updCore s j f) k :=
  ⟨sameStorage_updCore s j f, getCore_updCore_field s j k f Core.ranges fun c => (h c).1,
    getCore_updCore_field s j k f Core.tlb fun c => (h c).2.1, getCore_updCore_field s j k f Core.iCache fun c => (h c).2.2⟩

theorem sameFetch_bump (s : State) (j e : Nat) (st : Option Nat) (n k : Nat) : SameFetch s (bump s j e st n) k :=
  sameFetch_updCore s j k _ fun _ => ⟨rfl, rfl, rfl⟩

end Sys2Proof.Storage

/-! What a property of a thread needs before an operation on the state, one rule for each operation; and the routes of a
fault (R41, R152, R330-R334; O44). -/

namespace Sys2Proof.Faults
open Machine Storage

/-! ## Rules for a thread's property -/

section
variable {s s' : State} {t : ThreadRef} {Q : Thread → Prop}

theorem threadIs_of_find {g : Group} {th : Thread} (h : findThread s t = some (g, th)) (hq : Q th) : ThreadIs s t Q :=
  ⟨th, by simp [threadAtRef, h], hq⟩

theorem threadIs_mono {P : Thread → Prop} (h : ThreadIs s t P) (hpq : ∀ th, P th → Q th) : ThreadIs s t Q := by
  obtain ⟨th, ht, hp⟩ := h
  exact ⟨th, ht, hpq th hp⟩

theorem threadIs_of_groups (hg : s'.groups = s.groups) (h : ThreadIs s t Q) : ThreadIs s' t Q := by
  obtain ⟨th, ht, hq⟩ := h
  exact ⟨th, (threadOf_congr hg t).trans ht, hq⟩

theorem threadIs_updThread {f : Thread → Thread} (hf : KeepsPlace f) (h : ThreadIs s t fun th => Q (f th)) :
    ThreadIs (updThread s t f) t Q := by
  obtain ⟨th, ht, hq⟩ := h
  exact ⟨f th, (threadOf_updThread_same s t f hf).trans (congrArg (Option.map f) ht), hq⟩

theorem threadIs_joinTable (u : ThreadRef) (h : ThreadIs s t Q) : ThreadIs (joinTable s u) t Q :=
  threadIs_of_groups (joinTable_groups s u) h

theorem threadIs_makeReady
    (h : ThreadIs s t fun th => ∀ n, Q { th with status := .ready, waiting := none, readyAt := n, held := false }) :
    ThreadIs (makeReady s t) t Q := by
  obtain ⟨th, ht, hq⟩ := h
  obtain ⟨⟨g, _⟩, hf, rfl⟩ := Option.map_eq_some_iff.1 ht
  unfold makeReady
  rw [hf]
  exact threadIs_joinTable _ (threadIs_updThread (fun _ => ⟨rfl, rfl⟩) ⟨_, ht, hq _⟩)

/-- Delivery to the trap vector (R152). -/
theorem threadIs_deliver {vector : Word} {r : Record} (h : ThreadIs s t fun th => ∀ n, Q
      { (th.discard r).writeRecord r with
        inHandler := true, pc := vector, hdr := vector, seg := Segment.empty vector vector, waiting := none
        record := none, notice := none, split := false, rewait := false, status := .ready, readyAt := n, held := false }) :
    ThreadIs (deliver s t vector r) t Q :=
  threadIs_makeReady (threadIs_updThread (fun _ => ⟨rfl, rfl⟩) h)

/-- The thread waits for the host with the record in its registers (R330). -/
theorem threadIs_parkHost {r : Record} (h : ThreadIs s t fun th => ∀ n, Q
      { (th.discard r).writeRecord r with status := .parkedHost, notice := some n, split := false }) :
    ThreadIs (parkHost s t r) t Q := by
  obtain ⟨th, ht, hq⟩ := h
  obtain ⟨⟨g, _⟩, hf, rfl⟩ := Option.map_eq_some_iff.1 ht
  unfold parkHost
  rw [hf]
  exact threadIs_joinTable _ (threadIs_updThread (fun _ => ⟨rfl, rfl⟩)
    (threadIs_of_groups (faultNotice_groups s _ _) ⟨_, ht, hq _⟩))

/-- The thread waits on a notice to the command processor (R332). -/
theorem threadIs_routeProcessor {r : Record} (h : ThreadIs s t fun th => ∀ n, Q
      { th.discard r with status := .parkedFault, notice := some n, split := false }) :
    ThreadIs (routeProcessor s t r) t Q := by
  obtain ⟨th, ht, hq⟩ := h
  obtain ⟨⟨g, _⟩, hf, rfl⟩ := Option.map_eq_some_iff.1 ht
  unfold routeProcessor
  rw [hf]
  exact threadIs_joinTable _ (threadIs_updThread (fun _ => ⟨rfl, rfl⟩)
    (threadIs_of_groups (faultNotice_groups s _ _) ⟨_, ht, hq _⟩))

/-- The supervisor splits the access: the thread goes on at the record's place (R333). -/
theorem threadIs_routeSupervisor {r : Record} (h : ThreadIs s t fun th => ∀ n, Q
      { th.discard r with split := true, record := none, status := .ready, waiting := none, readyAt := n, held := false }) :
    ThreadIs (routeSupervisor s t r) t Q :=
  threadIs_makeReady (threadIs_updThread (fun _ => ⟨rfl, rfl⟩) h)

end

/-! ## Which route a fault takes (R331, R332) -/

theorem routeOf_eq (code : BitVec 8) :
    routeOf code = if [0x13#8, 0x14#8, 0x15#8, 0x18#8, 0x19#8].contains code then .processor else .vector := by
  simp [routeOf, or_assoc]

/-- The state a fault is routed in: the fault has been counted (R363). -/
def faultCounted (s : State) (g : Group) : State := bump s (g.core.getD 0) 10 (some g.stage) 1

theorem vectorUsable_faultCounted (s : State) (g h : Group) (p : Pass) :
    vectorUsable (faultCounted s g) h p = vectorUsable s h p :=
  vectorUsable_congr (sameFetch_bump s _ _ _ _) h p

/-- The route of a fault: host from the handler, supervisor, command processor, and the trap vector or the host. -/
theorem takeFault_eq {s : State} {t : ThreadRef} {g : Group} {th : Thread} {p : Pass} (r : Record) (split : Bool)
    (hf : findThread s t = some (g, th)) (hp : findPass s g.ctx g.stage = some p) :
    takeFault s t r split =
      if th.inHandler then parkHost (faultCounted s g) t r
      else if split then routeSupervisor (faultCounted s g) t r
      else if [0x13#8, 0x14#8, 0x15#8, 0x18#8, 0x19#8].contains r.code then routeProcessor (faultCounted s g) t r
      else if vectorUsable s g p then deliver (faultCounted s g) t p.trapVector r
      else parkHost (faultCounted s g) t r := by
  have hfb : findThread (faultCounted s g) t = some (g, th) := hf
  have hpb : findPass (faultCounted s g) g.ctx g.stage = some p := hp
  unfold takeFault
  rw [hf]
  change (if th.inHandler then parkHost (faultCounted s g) t r else _) = _
  split_ifs with hh hs hc hv
  · rfl
  · rfl
  · rw [routeOf_eq, if_pos hc]
    rfl
  · rw [routeOf_eq, if_neg hc]
    change routeVector (faultCounted s g) t r = _
    simp [routeVector, hfb, hpb, vectorUsable_faultCounted, hv, hh]
  · rw [routeOf_eq, if_neg hc]
    change routeVector (faultCounted s g) t r = _
    simp [routeVector, hfb, hpb, vectorUsable_faultCounted, hv]

/-- Settles O44: on each route the thread is as the rule of the route leaves it. -/
theorem faultsTakeTheirRoute : Obligations.FaultsTakeTheirRoute := by
  unfold Obligations.FaultsTakeTheirRoute
  intro s t g th p r split hf hp processor saved
  have hfb : findThread (faultCounted s g) t = some (g, th) := hf
  rw [takeFault_eq r split hf hp]
  split_ifs
  · exact threadIs_parkHost (threadIs_of_find hfb fun n => ⟨rfl, rfl, rfl, rfl, rfl, rfl, rfl, rfl, rfl, rfl, rfl, rfl⟩)
  · exact threadIs_routeSupervisor (threadIs_of_find hfb fun n => ⟨rfl, rfl, rfl, rfl, rfl, rfl, rfl, rfl, rfl, rfl, rfl⟩)
  · exact threadIs_routeProcessor (threadIs_of_find hfb fun n => ⟨rfl, rfl, rfl, rfl, rfl, rfl, rfl, rfl, rfl, rfl, rfl⟩)
  · exact threadIs_deliver (threadIs_of_find hfb fun n =>
      ⟨rfl, rfl, rfl, rfl, rfl, rfl, rfl, rfl, rfl, rfl, rfl, rfl, rfl, rfl, rfl⟩)
  · exact threadIs_parkHost (threadIs_of_find hfb fun n => ⟨rfl, rfl, rfl, rfl, rfl, rfl, rfl, rfl, rfl, rfl, rfl, rfl⟩)

end Sys2Proof.Faults

/-! What the verdict on a thread says of the checks of R58, of its guard and of what it waits for (R19, R27, R58). -/

namespace Sys2Proof.Words
open Machine

/-! ## The verdict (R58) -/

/-- Step 2 of R58: the guard is no reserved one, and its register is neither poisoned nor awaited. -/
theorem guardRead_iff (x : Site) : guardRead x = true ↔ x.guard ≠ 8 ∧
    ¬(x.guard ≠ 0 && regPoisoned x.g x.th (guardReg x.guard)) = true ∧
    ¬(x.guard ≠ 0 && !regReady x.g x.th (guardReg x.guard)) = true := by
  unfold guardRead
  by_cases h : x.guard = 0
  · simp [h]
  · have h0 : (x.guard = 0#4) = False := eq_false h
    simp [h0]

/-- The verdict past a guard that can be read (R27, R58 steps 3 to 7). -/
def guardedVerdict (i : Instr) (x : Site) : Verdict :=
  if !guardOn x x.guard then
    if match i.view with
      | some v => (destRegs i v).all (regReady x.g x.th)
      | none => true
    then .off else .stall
  else match staticFault i x, i.view with
    | some f, _ => .fault f
    | none, none => .run
    | none, some v => match readFault i v x with
      | some f => .fault f
      | none => if operandsReady i v x then .run else .stall

theorem verdict_eq (i : Instr) (x : Site) : verdict i x =
    if x.guard = 8 then .fault x.badModifier
    else if x.guard ≠ 0 && regPoisoned x.g x.th (guardReg x.guard) then .fault (x.poisonedReg (guardReg x.guard))
    else if x.guard ≠ 0 && !regReady x.g x.th (guardReg x.guard) then .stall
    else guardedVerdict i x := rfl

theorem verdict_of_guardRead {i : Instr} {x : Site} (h : guardRead x = true) : verdict i x = guardedVerdict i x := by
  obtain ⟨h8, hp, hr⟩ := (guardRead_iff x).1 h
  rw [verdict_eq, if_neg h8, if_neg hp, if_neg hr]

theorem verdict_of_not_guardRead {i : Instr} {x : Site} (h : guardRead x = false) :
    verdict i x = .stall ∨ ∃ tr, verdict i x = .fault tr := by
  have hn := mt (guardRead_iff x).2 (by simp [h])
  rw [verdict_eq]
  by_cases h8 : x.guard = 8
  · exact .inr ⟨_, if_pos h8⟩
  rw [if_neg h8]
  by_cases hp : (x.guard ≠ 0 && regPoisoned x.g x.th (guardReg x.guard)) = true
  · exact .inr ⟨_, if_pos hp⟩
  rw [if_neg hp]
  by_cases hr : (x.guard ≠ 0 && !regReady x.g x.th (guardReg x.guard)) = true
  · exact .inl (if_pos hr)
  exact absurd ⟨h8, hp, hr⟩ hn

theorem staticFault_isNone (i : Instr) (v : View) (x : Site) (hv : i.view = some v) : staticFault i x = none ↔
    modifierPasses i x.pass = true ∧ (badField x.pass.regs v).isNone = true ∧ privilegePasses i x = true := by
  unfold staticFault
  rw [hv]
  dsimp only
  cases modifierPasses i x.pass <;> cases badField x.pass.regs v <;> cases privilegePasses i x <;> simp

theorem readFault_isNone (i : Instr) (v : View) (x : Site) : readFault i v x = none ↔
    (sourceDistances i v).all (fun n => (x.th.seg.distance n).isSome) = true ∧
    (sourceRegs i v).all (fun r => !regPoisoned x.g x.th r) = true := by
  unfold readFault badDistance
  cases hb : (sourceDistances i v).find? fun n => (x.th.seg.distance n).isNone with
  | none =>
    rw [List.find?_eq_none] at hb
    simp only [Option.map_eq_none_iff, List.find?_eq_none, List.all_eq_true]
    exact ⟨fun h => ⟨fun n hn => by simpa [Option.isNone_iff_eq_none, Option.isSome_iff_ne_none] using hb n hn,
      fun r hr => by simpa using h r hr⟩, fun h r hr => by simpa using h.2 r hr⟩
  | some n =>
    have hm := List.mem_of_find?_eq_some hb
    have hn := List.find?_some hb
    simp only [reduceCtorEq, List.all_eq_true, false_iff, not_and]
    exact fun h => absurd (h n hm) (by simpa using hn)

theorem clear_iff (i : Instr) (x : Site) : Clear i x = true ↔ verdict i x = .run := by
  cases hg : guardRead x with
  | false => rcases verdict_of_not_guardRead (i := i) hg with h | ⟨_, h⟩ <;> simp [Clear, hg, h]
  | true =>
    rw [verdict_of_guardRead hg, guardedVerdict, Clear, hg]
    cases guardOn x x.guard with
    | false => simp; split <;> split <;> simp
    | true =>
      cases hv : i.view with
      | none => simp [staticFault, hv]
      | some v =>
        cases hs : staticFault i x with
        | some f =>
          have := mt (staticFault_isNone i v x hv).2 (by simp [hs])
          simp
          grind
        | none =>
          obtain ⟨h1, h2, h3⟩ := (staticFault_isNone i v x hv).1 hs
          cases hr : readFault i v x with
          | some f =>
            have := mt (readFault_isNone i v x).2 (by simp [hr])
            simp only [h1, h2, h3]
            simp only [Bool.and_eq_true] at this ⊢
            simp
            grind
          | none =>
            obtain ⟨h4, h5⟩ := (readFault_isNone i v x).1 hr
            simp only [h1, h2, h3, h4, h5, hr]
            simp

theorem disabled_iff (i : Instr) (x : Site) : Disabled i x = true ↔ verdict i x = .off := by
  cases hg : guardRead x with
  | false => rcases verdict_of_not_guardRead (i := i) hg with h | ⟨_, h⟩ <;> simp [Disabled, hg, h]
  | true =>
    rw [verdict_of_guardRead hg, guardedVerdict, Disabled, hg]
    cases guardOn x x.guard with
    | false => cases i.view <;> simp
    | true =>
      cases staticFault i x with
      | some f => simp
      | none =>
        cases i.view with
        | none => simp
        | some v =>
          cases hr : readFault i v x with
          | some f => simp [hr]
          | none => simp [hr]; split <;> simp

theorem proceeds_iff (i : Instr) (x : Site) : Proceeds i x = true ↔ verdict i x ≠ .stall := by
  rw [Proceeds, Bool.or_eq_true, Bool.or_eq_true, clear_iff, disabled_iff, Faults]
  cases verdict i x <;> simp

end Sys2Proof.Words

/-! Moving lines between home slices and caches changes no group (R111, R210, R217). -/

namespace Sys2Proof.Lines
open Machine

/-- A list worked through by steps that each keep a reflexive and transitive relation. -/
theorem foldl_rel {α : Type} {R : State → State → Prop} (refl : ∀ s, R s s) (trans : ∀ {a b c}, R a b → R b c → R a c)
    {f : State → α → State} (l : List α) (hf : ∀ s, ∀ x ∈ l, R s (f s x)) (s : State) : R s (l.foldl f s) := by
  induction l generalizing s with
  | nil => exact refl s
  | cons x l ih =>
    exact trans (hf s x List.mem_cons_self) (ih (fun s y hy => hf s y (List.mem_cons_of_mem _ hy)) _)

theorem foldl_groups {α : Type} {f : State → α → State} (l : List α) (hf : ∀ s x, (f s x).groups = s.groups) (s : State) :
    (l.foldl f s).groups = s.groups :=
  foldl_rel (R := fun s t => t.groups = s.groups) (fun _ => rfl) (fun h g => g.trans h) l (fun s x _ => hf s x) s

/-! ## Home slices -/

@[simp] theorem exportOne_groups (s : State) (d i : Nat) : (exportOne s d i).groups = s.groups := by
  unfold exportOne
  dsimp only
  split
  · rfl
  · split <;> rfl

@[simp] theorem exportSome_groups (p : Export → Bool) (n : Nat) (s : State) (d : Nat) :
    (exportSome p n s d).groups = s.groups := by
  induction n generalizing s with
  | zero => rfl
  | succ n ih =>
    unfold exportSome
    split
    · rfl
    · rw [ih, exportOne_groups]

@[simp] theorem exportAll_groups (n : Nat) (s : State) (d : Nat) : (exportAll n s d).groups = s.groups := by
  induction n generalizing s with
  | zero => rfl
  | succ n ih => exact (ih _).trans (exportOne_groups s d 0)

@[simp] theorem settle_groups (n : Nat) (s : State) (d : Nat) : (settle n s d).groups = s.groups := by
  induction n generalizing s with
  | zero => rfl
  | succ n ih => exact ih _

@[simp] theorem dramWrite_groups (s : State) (d sector : Nat) : (dramWrite s d sector).groups = s.groups := by
  unfold dramWrite
  dsimp only
  split
  · split <;> rfl
  · rfl

@[simp] theorem evictSector_groups (s : State) (d sector : Nat) : (evictSector s d sector).groups = s.groups := by
  unfold evictSector homeWriteBack
  dsimp only
  split <;> simp

@[simp] theorem evictStackLine_groups (s : State) (d l : Nat) : (evictStackLine s d l).groups = s.groups := by
  unfold evictStackLine
  rw [updDie_groups]
  exact foldl_groups _ (fun s a => evictSector_groups s d a) s

@[simp] theorem trimVault_groups (s : State) (v room : Nat) : (trimVault s v room).groups = s.groups :=
  foldl_groups _ (fun s l => evictStackLine_groups s (v / 4) l) s

@[simp] theorem askLine_groups (s : State) (d a : Nat) (keep : Bool) : (askLine s d a keep).groups = s.groups := by
  unfold askLine
  rw [apply_ite State.groups, updDie_groups, ite_self]

@[simp] theorem countPages_groups (s : State) (l : List Nat) : (countPages s l).groups = s.groups := rfl

@[simp] theorem fillSector_groups (s : State) (k a : Nat) (nt : Bool) : (fillSector s k a nt).groups = s.groups := by
  unfold fillSector
  dsimp only
  split
  · exact countPages_groups _ _
  · split
    · rfl
    · rw [bump_groups, updDie_groups, apply_ite State.groups, trimVault_groups, ite_self]

@[simp] theorem hWrite_groups (s : State) (va : Nat) (bytes : List Byte) : (hWrite s va bytes).groups = s.groups := by
  unfold hWrite
  dsimp only
  split
  · rfl
  · exact (settle_groups _ _ _).trans (exportAll_groups _ _ _)

/-! ## Caches of a core -/

@[simp] theorem serveLine_groups (s : State) (x : Site) (path : Path) (place : Placing) (l : Nat) :
    (serveLine s x path place l).groups = s.groups := by
  unfold serveLine
  split <;> split <;> simp

@[simp] theorem tlbFills_groups (k : Nat) (ps : List Spot) (s : State) :
    (ps.foldl (fun s p => match p.loc with
      | .mem a => if a < tierBase 3 then tlbFill s k p.va else s
      | .pad _ => s) s).groups = s.groups :=
  foldl_groups ps (fun s p => by
    split
    · split <;> simp
    · rfl) s

@[simp] theorem fillLines_groups (s : State) (x : Site) (path : Path) (place : Placing) (served : List Nat) (ps : List Spot) :
    (fillLines s x path place served ps).groups = s.groups :=
  (foldl_groups _ (fun s l => serveLine_groups s x path place l) _).trans (tlbFills_groups x.core ps s)

@[simp] theorem dropSpotLine_groups (s : State) (k : Nat) (path : Path) (ps : List Spot) :
    (dropSpotLine s k path ps).groups = s.groups := by
  unfold dropSpotLine
  split
  · unfold dropLine
    split <;> simp
  · rfl

/-! ## Sampled loads and hints -/

@[simp] theorem fillMap_groups (s : State) (k : Nat) (d : LodDesc) (i : Nat) : (fillMap s k d i).groups = s.groups := by
  unfold fillMap
  split <;> rfl

@[simp] theorem appendFeedback_groups (s : State) (x : Site) (i : Instr) (fb : Option (Nat × Wide))
    (of : Site → Option (Nat × Wide)) : (appendFeedback s x i fb of).groups = s.groups := by
  unfold appendFeedback
  split
  · rfl
  · dsimp only
    split
    · rfl
    · unfold feedbackAppend
      split
      · rfl
      · split <;> simp

@[simp] theorem dropHint_groups (s : State) (x : Site) : (dropHint s x).groups = s.groups := rfl

@[simp] theorem reshAsk_groups (s : State) (k : Nat) (pol : BitVec 2) (ps : List Spot) : (reshAsk s k pol ps).groups = s.groups := by
  unfold reshAsk
  split
  · split
    · exact askLine_groups _ _ _ _
    · split
      · exact askLine_groups _ _ _ _
      · rfl
  · rfl

end Sys2Proof.Lines

/-! The rule of every instruction word changes no thread but the one that executes it, and a word is issued thread by thread
unless it is a cross-lane word (R58, R143, R193). -/

namespace Sys2Proof.Words
open Machine Lines

/-! ## Rules that change their own thread alone -/

theorem onlyThread_ite {t : ThreadRef} {s a b : State} {c : Prop} [Decidable c] (ha : OnlyThread t s a) (hb : OnlyThread t s b) :
    OnlyThread t s (if c then a else b) := by
  split
  · exact ha
  · exact hb

theorem onlyThread_startLoad (s src : State) (x : Site) (path : Path) (kind : LoadKind) (marks : Marks) (also ps : List Spot) :
    OnlyThread x.t s (startLoad s src x path kind marks also ps) :=
  .upd s x.t _ fun _ => ⟨rfl, rfl⟩

theorem onlyThread_fillLines (t : ThreadRef) (s : State) (x : Site) (path : Path) (place : Placing) (served : List Nat)
    (ps : List Spot) : OnlyThread t s (fillLines s x path place served ps) :=
  .of_groups (fillLines_groups s x path place served ps)

theorem onlyThread_unitLoad (s : State) (x : Site) (d : Operand) (ws : List Word) (ps : List Spot) :
    OnlyThread x.t s (unitLoad s x d ws ps) :=
  (onlyThread_startLoad s _ x _ _ _ _ _).trans (onlyThread_fillLines _ _ _ _ _ _ _)

/-! ## Effects, endings and transfers -/

theorem nop_ownThread : Body.OwnThread fun s _ => .ok s := by
  rintro s x _ ⟨⟩
  exact .refl _ s

theorem effect_ownThread (e : Site → Effect) : Body.OwnThread fun s x => .ok (setEffect s x (e x)) := by
  rintro s x _ ⟨⟩
  exact onlyThread_setEffect s x _

theorem ending_ownThread (e : Site → Ending) : Body.OwnThread fun s x => .ok (setEnding s x (e x)) := by
  rintro s x _ ⟨⟩
  exact onlyThread_setEnding s x _

/-- An effect that a check of the word's own rule may refuse. -/
theorem checkedEffect_ownThread {α : Type} (check : Site → Except Trouble α) (e : Site → α → Effect) :
    Body.OwnThread fun s x => (check x).map fun a => setEffect s x (e x a) := by
  intro s x s' h
  dsimp only at h
  cases hc : check x with
  | error _ => rw [hc] at h; cases h
  | ok a =>
    rw [hc] at h
    cases h
    exact onlyThread_setEffect s x _

theorem condEffect_ownThread (c : Site → Prop) [∀ x, Decidable (c x)] (tr : Site → Trouble) (e : Site → Effect) :
    Body.OwnThread fun s x => if c x then .ok (setEffect s x (e x)) else .error (tr x) := by
  intro s x s' h
  dsimp only at h
  split at h <;> cases h
  exact onlyThread_setEffect s x _

theorem missOnce_ownThread {body : Body} (hb : body.OwnThread) : Body.OwnThread fun s x => missOnce s x (body s x) := by
  intro s x s' h
  dsimp only at h
  cases hr : body s x with
  | error tr =>
    rw [hr, missOnce] at h
    split at h
    · cases h
      exact .upd s x.t _ fun _ => ⟨rfl, rfl⟩
    · cases h
  | ok s1 =>
    rw [hr] at h
    cases h
    exact hb s x _ hr

theorem atomicBody_ownThread (op : AtomicOp) (w : MemWord ModAT) : (atomicBody op w).OwnThread := accessEffect_ownThread _ _

theorem reductionBody_ownThread (op : AtomicOp) (w : MemWord ModAT) : (reductionBody op w).OwnThread := accessEffect_ownThread _ _

theorem casBody_ownThread (w : MemWord ModAT) : (casBody w).OwnThread := by
  intro s x s' h
  dsimp only [casBody] at h
  exact accessEffect_ownThread (fun y => atomicAccess y w) (fun _ => _) s x s' h

theorem waitBody_ownThread (m : ModWA) (guard : BitVec 4) (d : Operand) (acc : Site → Except Trouble (BufRec × List Spot))
    (timeout : Site → Option Word) : (waitBody m guard d acc timeout).OwnThread :=
  accessEffect_ownThread _ _

theorem sysWriteBody_ownThread (n : BitVec 10) (a : Operand) : (sysWriteBody n a).OwnThread := by
  rintro s x _ ⟨⟩
  exact onlyThread_addResult s x.t _

theorem copyBody_ownThread (m : ModCP) (d : Operand) (src dst : Nat) (shape : Site → CopyShape) :
    (copyBody m d src dst shape).OwnThread := by
  intro s x s' h
  unfold copyBody at h
  split at h
  · cases h
  · split at h
    · dsimp only at h
      split at h <;> cases h
      exact onlyThread_setEffect s x _
    · cases h
      exact onlyThread_setEffect s x _

theorem tileBody_ownThread (check : Site → Word → Word → Option Trouble) (op : TileOp) (oa ob : Operand) :
    (tileBody check op oa ob).OwnThread := by
  intro s x s' h
  unfold tileBody at h
  dsimp only at h
  split at h <;> cases h
  exact onlyThread_setEffect s x _

theorem transferTo_ownThread (target : Site → Word) (also : Site → State → State) (ha : ∀ s x, OnlyThread x.t s (also x s)) :
    Body.OwnThread fun s x => transferTo (target x) (also x) s x := by
  intro s x s' h
  dsimp only [transferTo] at h
  split at h <;> cases h
  exact (ha s x).trans (onlyThread_setEnding _ x _)

theorem onlyThread_linkTo (d : Operand) (s : State) (x : Site) : OnlyThread x.t s (linkTo x d s) :=
  onlyThread_addResult s x.t _

/-! ## Loads, stores and hints (R107-R119) -/

theorem storeBody_ownThread (i : Instr) (w : MemWord ModMM) : (storeBody i w).OwnThread := by
  intro s x s' h
  unfold storeBody at h
  split at h
  · cases h
  · cases h
    refine .trans ?_ (.upd _ x.t _ fun _ => ⟨rfl, rfl⟩)
    refine .trans ?_ (.of_groups (tlbFills_groups x.core _ _))
    exact onlyThread_ite (onlyThread_setMemStatus s x.t 2) (.refl x.t s)

theorem loadBody_ownThread (i : Instr) (m : ModMM) (sampler : Bool) (kind : LoadKind)
    (acc : Site → Except Trouble (BufRec × List Spot)) : (loadBody i m sampler kind acc).OwnThread := by
  intro s x s' h
  unfold loadBody at h
  split at h
  · cases h
  · rename_i r ps _
    cases h
    refine .trans ?_ (onlyThread_fillLines _ _ _ _ _ _ _)
    refine .trans ?_ (onlyThread_startLoad _ _ x _ _ _ _ _)
    have dropped := onlyThread_ite (t := x.t) (c := (m.line && insideLine (rowLine x i fun y => (acc y).map Prod.snd)
      (spotsMisaligned ps (typeWidth m.type.toNat)) ps) = true)
      (.of_groups (dropSpotLine_groups s x.core (if sampler || r.ro then Path.s else Path.v) ps)) (.refl x.t s)
    exact onlyThread_ite (dropped.trans (onlyThread_setMemStatus _ _ _)) dropped

theorem lodFault_onlyThread {s s' : State} {i : Instr} {x : Site} {buf : BitVec 5} {tr : Trouble}
    (h : lodFault s i x buf tr = .ok s') : OnlyThread x.t s s' := by
  unfold lodFault at h
  split at h
  · cases h
    exact (onlyThread_setMemStatus s x.t 1).trans (onlyThread_faultWord _ i x tr)
  · cases h

theorem hintFault_groups {s s' : State} {x : Site} {tr : Trouble} (h : hintFault s x tr = .ok s') : s'.groups = s.groups := by
  unfold hintFault at h
  split at h <;> cases h
  rfl

theorem sampleBody_ownThread (i : Instr) (buf : BitVec 5) (t : Nat) (pol : BitVec 2) (e : Site → Int) (w : Site → Nat)
    (kind : Word → LoadKind) : (sampleBody i buf t pol e w kind).OwnThread := by
  intro s x s' h
  unfold sampleBody at h
  split at h
  · split at h
    · exact lodFault_onlyThread h
    · rename_i hit _
      cases h
      refine .trans ?_ (onlyThread_fillLines _ _ _ _ _ _ _)
      refine .trans ?_ (onlyThread_startLoad _ _ x _ _ _ _ _)
      refine .trans ?_ (.of_groups (appendFeedback_groups _ _ _ _ _))
      refine .trans ?_ (.of_groups (foldl_groups hit.bits (fun s i => fillMap_groups s x.core hit.desc i) _))
      exact onlyThread_ite (onlyThread_setMemStatus s x.t 1) (.refl x.t s)
  · split at h
    · cases h
    · cases h
      exact (onlyThread_startLoad _ _ x _ _ _ _ _).trans (onlyThread_fillLines _ _ _ _ _ _ _)

theorem prefBody_ownThread (w : MemWord ModMM) : (prefBody w).OwnThread := by
  intro s x s' h
  unfold prefBody at h
  split at h
  · exact .of_groups (hintFault_groups h)
  · split at h
    · cases h
      exact .of_groups (dropHint_groups s x)
    · split at h <;> cases h
      · exact .of_groups (foldl_groups _ (fun s l => fillSector_groups s x.core l false) s)
      · exact onlyThread_fillLines _ _ _ _ _ _ _

theorem reshBody_ownThread (i : Instr) (w : MemWord ModMM) : (reshBody i w).OwnThread := by
  intro s x s' h
  have counted : OnlyThread x.t s { s with freeCount := s.freeCount + 1 } := .of_groups rfl
  refine counted.trans (.of_groups ?_)
  unfold reshBody at h
  dsimp only at h
  split at h
  · split at h
    · exact hintFault_groups h
    · cases h
      exact appendFeedback_groups _ _ _ _ _
  · split at h
    · exact hintFault_groups h
    · split at h <;> cases h
      · exact dropHint_groups _ x
      · exact reshAsk_groups _ _ _ _

theorem occstepBody_ownThread (w : RawBWord ModZ) : (occstepBody w).OwnThread := by
  intro s x s' h
  unfold occstepBody at h
  split at h <;> cases h <;> exact onlyThread_unitLoad _ _ _ _ _

theorem hgridBody_ownThread (w : RawBWord ModZ) : (hgridBody w).OwnThread := by
  intro s x s' h
  unfold hgridBody at h
  split at h <;> cases h
  exact onlyThread_unitLoad _ _ _ _ _

end Sys2Proof.Words

/-! The rule of each instruction word: how it is issued (R58, R143). -/

namespace Sys2Proof.Words
open Machine

/-- Words whose rule changes no thread but the one that executes it. -/
def IssuedByThread (i : Instr) : Prop := ∃ held body, body.OwnThread ∧ ∀ s, exec i s = issueHeld s i held body

/-- Cross-lane words (R143). -/
def CrossesLanes (i : Instr) : Prop := ∃ own f, ∀ s, exec i s = issueGather s i own f

/-- The cross-lane words. -/
def crossing : Instr → Bool
  | .shfi _ | .shfx _ | .shfu _ | .shfd _ | .ballot _ | .vote _ | .elect _ | .lred _ => true
  | _ => false

theorem crossesLanes {i : Instr} (h : crossing i = true) : CrossesLanes i := by
  cases i with
  | shfi _ | shfx _ | shfu _ | shfd _ | ballot _ | vote _ | elect _ | lred _ => exact ⟨_, _, fun _ => rfl⟩
  | _ => cases h

theorem issuedByThread {i : Instr} (hw : i.isWord = true) (hc : crossing i = false) : IssuedByThread i := by
  cases i with
  | iadd _ | iaddImm _ | isub _ | isubImm _ | imul _ | imulImm _ | imulhi _ | imulhiImm _ | imad _ | iaddc _ | isubc _
  | imin _ | iminImm _ | imax _ | imaxImm _ | iabs _ | ineg _ | and _ | andImm _ | or _ | orImm _ | xor _ | xorImm _
  | andn _ | andnImm _ | not _ | shl _ | shlImm _ | shr _ | shrImm _ | rotl _ | rotlImm _ | bfext _ | bfextImm _
  | bfins _ | popc _ | clz _ | brev _ | sel _ | mov _ | movImm _ | lea _ | icmp _ | icmpImm _ | fcmp _ | pand _ | por _
  | pxor _ | pnot _ | pmov _ | kset _ | ksetCopy _ | kget _ | fadd _ | fsub _ | fmul _ | ffma _ | fmin _ | fmax _
  | fabs _ | fneg _ | frcp _ | frsq _ | fsqrt _ | fdiv _ | fexp2 _ | flog2 _ | fsin _ | fcos _ | ffrac _ | frnd _
  | fclamp _ | fscale _ | cvtf _ | cvti _ | qnt _ | dqnt _ | sclx _ | sclenc _ | dot8 _ | dot4 _ | hpack _ | hunpk _
  | mxq _ | rbox _ | rtri _ | rhit _ | sysrd _ | cntrd _ | clkrd _ =>
    exact ⟨_, _, pureBody_ownThread _, fun _ => rfl⟩
  | shfi _ | shfx _ | shfu _ | shfd _ | ballot _ | vote _ | elect _ | lred _ => cases hc
  | ld w => exact ⟨_, _, loadBody_ownThread (.ld w) w.m _ _ _, fun _ => rfl⟩
  | ldbr w => exact ⟨_, _, loadBody_ownThread (.ldbr w) w.m _ _ _, fun _ => rfl⟩
  | pref w => exact ⟨_, _, prefBody_ownThread w, fun _ => rfl⟩
  | smp w => exact ⟨_, _, sampleBody_ownThread (.smp w) w.buf _ _ _ _ _, fun _ => rfl⟩
  | smpl w => exact ⟨_, _, sampleBody_ownThread (.smpl w) w.buf _ _ _ _ _, fun _ => rfl⟩
  | resh w => exact ⟨_, _, reshBody_ownThread (.resh w) w, fun _ => rfl⟩
  | nop _ => exact ⟨_, _, nop_ownThread, fun _ => rfl⟩
  | st w => exact ⟨_, _, storeBody_ownThread (.st w) w, fun _ => rfl⟩
  | ldro w => exact ⟨_, _, loadBody_ownThread (.ldro w) w.m _ _ _, fun _ => rfl⟩
  | aadd _ | amin _ | amax _ | aand _ | aor _ | axor _ | axchg _ => exact ⟨_, _, atomicBody_ownThread _ _, fun _ => rfl⟩
  | acas w => exact ⟨_, _, casBody_ownThread w, fun _ => rfl⟩
  | redadd _ | redmin _ | redmax _ | redand _ | redor _ | redxor _ =>
    exact ⟨_, _, reductionBody_ownThread _ _, fun _ => rfl⟩
  | waita _ | waitaTo _ => exact ⟨_, _, waitBody_ownThread _ _ _ _ _, fun _ => rfl⟩
  | fence _ | xfence _ | spwf _ | tmove _ | mxdrop _ | banksw _ | halt _ => exact ⟨_, _, effect_ownThread _, fun _ => rfl⟩
  | unassignedOpcode _ => exact ⟨_, _, nop_ownThread, fun _ => rfl⟩
  | exit _ | trap _ | trapret _ | brk _ => exact ⟨_, _, ending_ownThread _, fun _ => rfl⟩
  | cpy1 _ | cpy2 _ => exact ⟨_, _, copyBody_ownThread _ _ _ _ _, fun _ => rfl⟩
  | qpush w => exact ⟨_, _, checkedEffect_ownThread (fun x => queueTarget x (x.read32 w.a)) _, fun _ => rfl⟩
  | qpop w => exact ⟨_, _, checkedEffect_ownThread (fun x => queueTarget x (x.read32 w.a)) _, fun _ => rfl⟩
  | mxldb w =>
    exact ⟨_, _, missOnce_ownThread (checkedEffect_ownThread (fun x => mxldbDesc x (x.read32 w.a) (x.read32 w.b)) _), fun _ => rfl⟩
  | mxop w => exact ⟨_, _, missOnce_ownThread (checkedEffect_ownThread (fun x => mxopBlock x (x.read32 w.a)) _), fun _ => rfl⟩
  | fwork w =>
    refine ⟨fun _ => false, fun s x => if (x.read32 w.a).toNat % 16 ≠ 0 || padBytes x.pass < (x.read32 w.a).toNat + 16
      then .error (x.trouble .bounds (x.read32 w.a)) else .ok (setEffect s x (.fwork (x.read32 w.a).toNat)), ?_, fun _ => rfl⟩
    intro s x s' h
    dsimp only at h
    split at h <;> cases h
    exact onlyThread_setEffect s x _
  | tlacq _ | tldone _ | tlrd _ | tlrel _ => exact ⟨_, _, tileBody_ownThread _ _ _ _, fun _ => rfl⟩
  | occstep w => exact ⟨_, _, occstepBody_ownThread w, fun _ => rfl⟩
  | hgrid w => exact ⟨_, _, hgridBody_ownThread w, fun _ => rfl⟩
  | br w | ret w | jmpi w =>
    exact ⟨_, _, transferTo_ownThread (fun x => x.read32 w.a) (fun _ => id) fun s x => .refl x.t s, fun _ => rfl⟩
  | call w | calli w =>
    exact ⟨_, _, transferTo_ownThread (fun x => x.read32 w.a) (fun x => linkTo x w.d) fun s x => onlyThread_linkTo w.d s x, fun _ => rfl⟩
  | syswr _ | memStatusClear _ | cntCfgWrite _ => exact ⟨_, _, sysWriteBody_ownThread _ _, fun _ => rfl⟩
  | segset w =>
    refine ⟨_, _, condEffect_ownThread (fun x => segValid (quad (x.run 4 w.a)) = true) (fun x => x.trouble .segmentLimit (BitVec.ofNat 32 w.d.toNat))
      fun x => .segset w.d.toNat (quad (x.run 4 w.a)), fun _ => rfl⟩
  | _ => cases hw

/-- Every word is issued thread by thread, by a rule that changes no other thread, or as a cross-lane word. -/
theorem word_issue {i : Instr} (hw : i.isWord = true) :
    IssuedByThread i ∨ CrossesLanes i := by
  cases hc : crossing i with
  | true => exact .inr (crossesLanes hc)
  | false => exact .inl (issuedByThread hw hc)

end Sys2Proof.Words

/-! What a word leaves of a thread that waits, is disabled, or has met bad data (R19, R27, R37, R107; O12). -/

namespace Sys2Proof.Words
open Machine

/-! ## The end of a word -/

/-- A thread at the end of a word: as it was, or out of its segment (R189). -/
def Ends (a b : Thread) : Prop :=
  b = a ∨ (a.status = .running ∧ ∃ e, b = { a with status := .committing, seg := { a.seg with ending := some e } })

theorem Ends.trans {a b c : Thread} (h : Ends a b) (g : Ends b c) : Ends a c := by
  rcases h with rfl | ⟨ha, e, rfl⟩
  · exact g
  · rcases g with rfl | ⟨hb, _⟩
    · exact .inr ⟨ha, e, rfl⟩
    · cases hb

/-- Every thread of `s` is in `t` as the end of a word leaves it. -/
def EndsAll (s t : State) : Prop := ∀ u th, threadOf s u = some th → ∃ th', threadOf t u = some th' ∧ Ends th th'

theorem EndsAll.refl (s : State) : EndsAll s s := fun _ th h => ⟨th, h, .inl rfl⟩

theorem EndsAll.trans {a b c : State} (h : EndsAll a b) (g : EndsAll b c) : EndsAll a c := by
  intro u th hu
  obtain ⟨th', h', e⟩ := h u th hu
  obtain ⟨th'', h'', e'⟩ := g u th' h'
  exact ⟨th'', h'', e.trans e'⟩

theorem endsAll_of_groups {s t : State} (h : t.groups = s.groups) : EndsAll s t :=
  fun u th hu => ⟨th, by rw [threadOf_congr h, hu], .inl rfl⟩

theorem nextWord_groups (s : State) (k : Nat) (b : Burst) (i : Instr) : (nextWord s k b i).groups = s.groups := by
  unfold nextWord
  dsimp only
  split
  · rfl
  · split <;> rfl

theorem endsAll_endThread (k : Nat) (b : Burst) (i : Instr) (s : State) (t : ThreadRef) : EndsAll s (endThread k b i s t) := by
  unfold endThread
  split
  · rename_i g th0 hf
    split
    · split
      · rename_i hrun
        intro u th hu
        rw [threadOf_congr (joinTable_groups _ _), threadOf_updThread (hf := by exact fun _ => ⟨rfl, rfl⟩), hu]
        split
        · rename_i hut
          obtain rfl : th = th0 := by
            rw [hut, threadOf, hf] at hu
            exact (Option.some.inj hu).symm
          exact ⟨_, rfl, .inr ⟨hrun, _, rfl⟩⟩
        · exact ⟨th, rfl, .inl rfl⟩
      · exact .refl s
    · exact .refl s
  · exact .refl s

theorem endsAll_advance (s : State) (k : Nat) (i : Instr) : EndsAll s (advance s k i) := by
  unfold advance
  split
  · exact .refl s
  · rename_i b _
    have ended : EndsAll s (endTurn s k b i) :=
      Lines.foldl_rel .refl .trans _ (fun s t _ => endsAll_endThread k b i s t) s
    dsimp only
    split
    · exact ended.trans (endsAll_of_groups rfl)
    · exact ended.trans (endsAll_of_groups (nextWord_groups _ k b i))

/-! ## One thread of an issue group -/

/-- A word that changes anything waits for nothing. -/
theorem issueHeld_moved {s t : State} {b : Burst} {i : Instr} {held : Site → Bool} {body : Body} (h : AtWord s b)
    (he : issueHeld s i held body = .next t) (hne : t ≠ s) :
    t = advance (issueAll i body (countIssue s s.focus i (turnSites s s.focus b i)) (turnSites s s.focus b i)) s.focus i := by
  obtain ⟨c, hc, hcb⟩ := Option.bind_eq_some_iff.1 h.1
  unfold issueHeld at he
  simp only [hc, hcb] at he
  split at he <;> cases he
  · exact absurd rfl hne
  · rfl

theorem issueGather_moved {s t : State} {b : Burst} {i : Instr} {own : List Member → Member → Option Trouble}
    {f : List Member → Member → List RegWrite × Wide} (h : AtWord s b) (he : issueGather s i own f = .next t) (hne : t ≠ s) :
    let ms := membersOf b i own (turnSites s s.focus b i)
    t = advance (ms.foldl (gatherThread i f ms (closeOver ms ms.length (gatherSeed ms)))
      (countIssue s s.focus i (turnSites s s.focus b i))) s.focus i := by
  obtain ⟨c, hc, hcb⟩ := Option.bind_eq_some_iff.1 h.1
  unfold issueGather at he
  simp only [hc, hcb] at he
  split at he <;> cases he
  · exact absurd rfl hne
  · rfl

/-- A thread that waits holds the word back. -/
theorem exec_of_stall {s : State} {b : Burst} {i : Instr} {x : Site} (hi : i.isWord = true) (h : AtWord s b)
    (hx : x ∈ turnSites s s.focus b i) (hv : verdict i x = .stall) : exec i s = .next s := by
  obtain ⟨c, hc, hcb⟩ := Option.bind_eq_some_iff.1 h.1
  rcases word_issue hi with ⟨held, body, _, he⟩ | ⟨own, f, he⟩
  · rw [he, issueHeld]
    simp only [hc, hcb]
    exact if_pos (List.any_eq_true.2 ⟨x, hx, by simp [hv]⟩)
  · rw [he, issueGather]
    simp only [hc, hcb]
    exact if_pos (List.any_eq_true.2 ⟨x, hx, by simp [hv]⟩)

/-- After a word that changes something, a thread of the issue group is as its own execution of the word left it. -/
theorem issueHeld_thread {s t : State} {b : Burst} {i : Instr} {held : Site → Bool} {body : Body} (hb : body.OwnThread)
    (h : AtWord s b) (hg : ∀ y ∈ turnSites s s.focus b i, y.th.seg.gather = false) (he : issueHeld s i held body = .next t)
    (hne : t ≠ s) {x : Site} (hx : x ∈ turnSites s s.focus b i) :
    ∃ s0, threadOf s0 x.t = some x.th ∧ ∀ th, threadOf (issueThread i body s0 x) x.t = some th →
      ∃ th', threadOf t x.t = some th' ∧ Ends th th' := by
  have here : ∀ y ∈ turnSites s s.focus b i,
      threadOf (countIssue s s.focus i (turnSites s s.focus b i)) y.t = some y.th := fun y hy => by
    rw [threadOf_congr (countIssue_groups _ _ _ _), (turnSites_spec hy).2]
  obtain ⟨s0, h0, h1⟩ := foldl_distinct (key := Site.t) (turnSites s s.focus b i) (turnSites_nodup h.2)
    (countIssue s s.focus i (turnSites s s.focus b i)) (fun s' y _ _ => onlyThread_issueThread i hb s' y) x hx
  refine ⟨s0, h0.trans (here x hx), fun th hth => ?_⟩
  rw [issueHeld_moved h he hne, issueAll_alone i hb (turnSites_nodup h.2) here fun y hy e => by simp [hg y hy] at e]
  exact endsAll_advance _ _ _ x.t th (h1.trans hth)

theorem members_nodup {s : State} {b : Burst} (h : AtWord s b) (i : Instr) (own : List Member → Member → Option Trouble) :
    ((membersOf b i own (turnSites s s.focus b i)).map fun m => m.site.t).Nodup := by
  rw [show (fun m : Member => m.site.t) = Site.t ∘ Member.site from rfl, ← List.map_map, membersOf_sites]
  exact turnSites_nodup h.2

/-- The same for a member of a cross-lane word. -/
theorem issueGather_thread {s t : State} {b : Burst} {i : Instr} {own : List Member → Member → Option Trouble}
    {f : List Member → Member → List RegWrite × Wide} (h : AtWord s b) (he : issueGather s i own f = .next t) (hne : t ≠ s)
    {m : Member} (hm : m ∈ membersOf b i own (turnSites s s.focus b i)) :
    let ms := membersOf b i own (turnSites s s.focus b i)
    ∃ s0, threadOf s0 m.site.t = some m.site.th ∧
      ∀ th, threadOf (gatherThread i f ms (closeOver ms ms.length (gatherSeed ms)) s0 m) m.site.t = some th →
        ∃ th', threadOf t m.site.t = some th' ∧ Ends th th' := by
  have sites := membersOf_sites b i own (turnSites s s.focus b i)
  have hsite : m.site ∈ turnSites s s.focus b i := sites ▸ List.mem_map.2 ⟨m, hm, rfl⟩
  obtain ⟨s0, h0, h1⟩ := foldl_distinct (key := fun m : Member => m.site.t) _ (members_nodup h i own)
    (countIssue s s.focus i (turnSites s s.focus b i))
    (fun s' m _ _ => onlyThread_gatherThread i f (membersOf b i own (turnSites s s.focus b i)) _ s' m) m hm
  rw [threadOf_congr (countIssue_groups _ _ _ _), (turnSites_spec hsite).2] at h0
  refine ⟨s0, h0, fun th hth => ?_⟩
  rw [issueGather_moved h he hne]
  exact endsAll_advance _ _ _ m.site.t th (h1.trans hth)

/-! ## Closures are made of threads that take part -/

/-- Every thread of the list is that of a member that takes part in the segment. -/
def TakePart (ms : List Member) (set : List ThreadRef) : Prop := ∀ t ∈ set, ∃ n ∈ ms, n.takesPart = true ∧ n.site.t = t

theorem takePart_seed (ms : List Member) : TakePart ms (gatherSeed ms) := by
  intro t ht
  obtain ⟨n, hn, rfl⟩ := List.mem_map.1 ht
  obtain ⟨hn, hc⟩ := List.mem_filter.1 hn
  simp only [Bool.and_eq_true] at hc
  exact ⟨n, hn, by simp [Member.takesPart, hc.1], rfl⟩

theorem takePart_closeOver (ms : List Member) (n : Nat) (set : List ThreadRef) (h : TakePart ms set) :
    TakePart ms (closeOver ms n set) := by
  induction n generalizing set with
  | zero => exact h
  | succ n ih =>
    refine ih _ fun t ht => ?_
    obtain ⟨m, hm, rfl⟩ := List.mem_map.1 ht
    obtain ⟨hm, hc⟩ := List.mem_filter.1 hm
    simp only [Bool.and_eq_true] at hc
    exact ⟨m, hm, hc.1, rfl⟩

theorem memberOf_off {i : Instr} {x : Site} (h : verdict i x = .off) :
    (memberOf i x).on = false ∧ (memberOf i x).lanes = x.th.seg.mates := by
  simp [memberOf, h]

theorem memberOf_fault {i : Instr} {x : Site} {tr : Trouble} (h : verdict i x = .fault tr) :
    (memberOf i x).on = true ∧ (memberOf i x).own = some tr := by
  simp [memberOf, h]

/-- The member of a thread of the issue group: a disabled one has no fault, and a fault at a check is its own. -/
theorem exists_member {b : Burst} {i : Instr} (own : List Member → Member → Option Trouble) {xs : List Site} {x : Site}
    (hx : x ∈ xs) : ∃ m ∈ membersOf b i own xs, m.site = x ∧ m.on = (memberOf i x).on ∧ m.lanes = (memberOf i x).lanes ∧
      m.own = if (memberOf i x).on then (memberOf i x).own.or ((lostPartner b (memberOf i x)).or
        (own (xs.map (memberOf i)) (memberOf i x))) else none :=
  ⟨_, List.mem_map.2 ⟨_, List.mem_map.2 ⟨x, hx, rfl⟩, rfl⟩, memberOf_site i x, rfl, rfl, rfl⟩

/-- A member that takes no part is in no closure. -/
theorem not_mem_closure {ms : List Member} (hn : (ms.map fun m => m.site.t).Nodup) {m : Member} (hm : m ∈ ms)
    (hp : m.takesPart = false) : m.site.t ∉ closeOver ms ms.length (gatherSeed ms) := by
  intro ht
  obtain ⟨n, hns, hpart, hsite⟩ := takePart_closeOver ms _ _ (takePart_seed ms) _ ht
  rw [List.inj_on_of_nodup_map hn hns hm hsite, hp] at hpart
  cases hpart

/-! ## The result that a disabled word counts for (R27) -/

/-- What a word that does not run for a thread adds to its results. -/
def leftOut (i : Instr) (x : Site) : List Result :=
  match i.view with
  | some v => if writesResult i then [⟨0, true, true, [], currentDest v x⟩] else []
  | none => []

theorem threadOf_addDisabled {s : State} {i : Instr} {x : Site} {th : Thread} (h : threadOf s x.t = some th) :
    threadOf (addDisabled s i x) x.t = some { th with seg := { th.seg with results := leftOut i x ++ th.seg.results } } := by
  cases hv : i.view with
  | none => simpa [addDisabled, leftOut, hv] using h
  | some v =>
    cases hw : writesResult i with
    | false => simpa [addDisabled, leftOut, hv, hw] using h
    | true =>
      have e := threadOf_updThread_same s x.t (fun th => th.push ⟨0, true, true, [], currentDest v x⟩) fun _ => ⟨rfl, rfl⟩
      rw [h] at e
      simpa [addDisabled, leftOut, hv, hw, addResult, Thread.push] using e

/-- A thread after a word that did not run for it: nothing but the results that distances count, and the end of its segment. -/
structure LeftOut (i : Instr) (x : Site) (u : Thread) : Prop where
  status  : u.status = x.th.status ∨ u.status = .committing
  effect  : u.seg.effect = x.th.seg.effect
  stores  : u.seg.stores = x.th.seg.stores
  loads   : u.seg.loads = x.th.seg.loads
  record  : u.record = x.th.record
  results : u.seg.results = leftOut i x ++ x.th.seg.results

theorem LeftOut.ends {i : Instr} {x : Site} {a u : Thread} (h : LeftOut i x a) (he : Ends a u) : LeftOut i x u := by
  rcases he with rfl | ⟨_, _, rfl⟩
  · exact h
  · exact ⟨.inr rfl, h.effect, h.stores, h.loads, h.record, h.results⟩

/-- A thread that leaves the word out, from a state where it has begun it or not. -/
theorem leftOut_addDisabled {s : State} {i : Instr} {x : Site} {th : Thread} (h : threadOf s x.t = some th)
    (hb : Begun x.th th) : ∃ u, threadOf (addDisabled s i x) x.t = some u ∧ LeftOut i x u := by
  obtain ⟨_, _, _, rfl⟩ := hb
  exact ⟨_, threadOf_addDisabled h, .inl rfl, rfl, rfl, rfl, rfl, rfl⟩

theorem begun_refl (th : Thread) : Begun th th := ⟨th.saw, th.seg.suspect, th.seg.timeHigh, rfl⟩

/-- A disabled thread, and one that faults after it has met bad data, leave the word out (R27, R107). -/
theorem word_leftOut {s t : State} {b : Burst} {i : Instr} {x : Site} (hi : i.isWord = true) (h : AtWord s b)
    (hx : x ∈ turnSites s s.focus b i) (hg : ∀ y ∈ turnSites s s.focus b i, y.th.seg.gather = false)
    (he : exec i s = .next t) (hne : t ≠ s)
    (hv : (verdict i x = .off ∧ x.th.seg.mates = 0) ∨ ((∃ tr, verdict i x = .fault tr) ∧ x.th.seg.missed = true)) :
    ∃ u, threadOf t x.t = some u ∧ LeftOut i x u := by
  rcases word_issue hi with ⟨held, body, hb, hi'⟩ | ⟨own, f, hi'⟩
  · obtain ⟨s0, h0, hs⟩ := issueHeld_thread hb h hg (hi' s ▸ he) hne hx
    have left : ∃ u, threadOf (issueThread i body s0 x) x.t = some u ∧ LeftOut i x u := by
      rcases hv with ⟨hv, _⟩ | ⟨⟨tr, hv⟩, hm⟩
      · obtain ⟨th1, h1, hb1⟩ := begun_beginWord (i := i) (on := false) h0
        simpa only [issueThread, hv] using leftOut_addDisabled h1 hb1
      · have kept : faultOwn s0 x.core x.t tr = s0 := by
          obtain ⟨⟨g, th⟩, hf, rfl⟩ := Option.map_eq_some_iff.1 h0
          simp [faultOwn, hf, hm]
        simpa only [issueThread, hv, faultWord, kept, hm, if_true] using leftOut_addDisabled h0 (begun_refl _)
    obtain ⟨u, hu, hl⟩ := left
    obtain ⟨u', hu', hend⟩ := hs u hu
    exact ⟨u', hu', hl.ends hend⟩
  · obtain ⟨m, hm, rfl, hon, hlanes, hown⟩ := exists_member (b := b) (i := i) own hx
    obtain ⟨s0, h0, hs⟩ := issueGather_thread h (hi' s ▸ he) hne hm
    have left : ∃ u, threadOf (gatherThread i f (membersOf b i own (turnSites s s.focus b i))
        (closeOver (membersOf b i own (turnSites s s.focus b i)) (membersOf b i own (turnSites s s.focus b i)).length
          (gatherSeed (membersOf b i own (turnSites s s.focus b i)))) s0 m) m.site.t = some u ∧ LeftOut i m.site u := by
      rcases hv with ⟨hv, hmates⟩ | ⟨⟨tr, hv⟩, hmiss⟩
      · obtain ⟨off, lanes⟩ := memberOf_off hv
        rw [off] at hon hown
        rw [lanes, hmates] at hlanes
        have alone := not_mem_closure (members_nodup h i own) hm (by simp [Member.takesPart, hon, hlanes])
        obtain ⟨th1, h1, hb1⟩ := begun_beginWord (i := i) (on := false) h0
        simpa [gatherThread, hown, hon, alone] using leftOut_addDisabled h1 hb1
      · obtain ⟨on, tr'⟩ := memberOf_fault hv
        rw [on, tr'] at hown
        simpa [gatherThread, hown, hmiss] using leftOut_addDisabled h0 (begun_refl _)
    obtain ⟨u, hu, hl⟩ := left
    obtain ⟨u', hu', hend⟩ := hs u hu
    exact ⟨u', hu', hl.ends hend⟩

/-- Settles O12: a verdict that waits holds the word back, and a disabled thread leaves the word out. -/
theorem waitingAndDisabledThreads : Obligations.WaitingAndDisabledThreads := by
  unfold Obligations.WaitingAndDisabledThreads
  refine ⟨fun i s b x hi h hx hp => ?_, fun i s t b x hi h hx _ he hne hd hg hmates => ?_⟩
  · exact exec_of_stall hi h hx (by simpa [hp] using proceeds_iff i x)
  · obtain ⟨u, hu, hl⟩ := word_leftOut hi h hx hg he hne (.inl ⟨(disabled_iff i x).1 hd, hmates⟩)
    exact ⟨u, hu, hl.effect, hl.stores, hl.loads, hl.record, hl.results⟩

end Sys2Proof.Words

/-! A fault discards the segment of its thread, and of a gather segment's closure (R41, R144, R196; O13). -/

namespace Sys2Proof.Faults
open Machine Words

/-! ## A thread after its fault -/

/-- What the fault of a record leaves of a thread `th`: its registers, an empty segment, and no running status. -/
structure Discarded (th : Thread) (u : Thread) : Prop where
  v      : u.v = th.v
  p      : u.p = th.p
  k      : u.k = th.k
  seg    : ∃ pc hdr, u.seg = Segment.empty pc hdr
  status : u.status = .ready ∨ u.status = .parkedHost ∨ u.status = .parkedFault

/-- The same where the record is not the command processor's: it stands in the fault registers (R330). -/
structure Recorded (th : Thread) (r : Record) (u : Thread) : Prop where
  discarded : Discarded th u
  status    : u.status = .ready ∨ u.status = .parkedHost
  info      : u.faultInfo = (if r.committed then 0x100 else 0) ||| r.code.setWidth 32
  data0     : u.data0 = r.data0
  data1     : u.data1 = r.data1

section
variable {s : State} {t : ThreadRef} {th : Thread} {r : Record} {Q : Thread → Prop}

/-- A thread whose fault goes to its vector or to the host. -/
theorem recorded_parkHost (h : ThreadIs s t (· = th)) : ThreadIs (parkHost s t r) t (Recorded th r) :=
  threadIs_parkHost (threadIs_mono h fun _ e => by
    subst e
    exact fun n => ⟨⟨rfl, rfl, rfl, ⟨_, _, rfl⟩, .inr (.inl rfl)⟩, .inr rfl, rfl, rfl, rfl⟩)

theorem recorded_deliver {vector : Word} (h : ThreadIs s t (· = th)) : ThreadIs (deliver s t vector r) t (Recorded th r) :=
  threadIs_deliver (threadIs_mono h fun _ e => by
    subst e
    exact fun n => ⟨⟨rfl, rfl, rfl, ⟨_, _, rfl⟩, .inl rfl⟩, .inl rfl, rfl, rfl, rfl⟩)

theorem recorded_routeVector (h : ThreadIs s t (· = th)) : ThreadIs (routeVector s t r) t (Recorded th r) := by
  obtain ⟨u, hu, rfl⟩ := h
  obtain ⟨⟨g, _⟩, hf, rfl⟩ := Option.map_eq_some_iff.1 hu
  have here := threadIs_of_find (Q := (· = _)) hf rfl
  unfold routeVector
  rw [hf]
  dsimp only
  split
  · exact recorded_parkHost here
  · split
    · exact recorded_deliver here
    · exact recorded_parkHost here

theorem discarded_routeProcessor (h : ThreadIs s t (· = th)) : ThreadIs (routeProcessor s t r) t (Discarded th) :=
  threadIs_routeProcessor (threadIs_mono h fun _ e => by
    subst e
    exact fun n => ⟨rfl, rfl, rfl, ⟨_, _, rfl⟩, .inr (.inr rfl)⟩)

theorem discarded_routeSupervisor (h : ThreadIs s t (· = th)) : ThreadIs (routeSupervisor s t r) t (Discarded th) :=
  threadIs_routeSupervisor (threadIs_mono h fun _ e => by
    subst e
    exact fun n => ⟨rfl, rfl, rfl, ⟨_, _, rfl⟩, .inl rfl⟩)

/-- Whatever its route, a fault discards the segment and parks the thread or starts it again. -/
theorem discarded_takeFault (split : Bool) (h : ThreadIs s t (· = th)) : ThreadIs (takeFault s t r split) t (Discarded th) := by
  obtain ⟨u, hu, rfl⟩ := h
  obtain ⟨⟨g, _⟩, hf, rfl⟩ := Option.map_eq_some_iff.1 hu
  have here := threadIs_of_find (s := faultCounted s g) (Q := (· = _)) hf rfl
  have recorded : ∀ {s' : State} {th : Thread}, ThreadIs s' t (Recorded th r) → ThreadIs s' t (Discarded th) :=
    fun h => threadIs_mono h fun _ h => h.discarded
  unfold takeFault
  rw [hf]
  dsimp only
  split
  · exact recorded (recorded_parkHost here)
  · split
    · exact discarded_routeSupervisor here
    · split
      · exact discarded_routeProcessor here
      all_goals exact recorded (recorded_routeVector here)

/-- A fault of the vector's route that no supervisor splits is recorded in the fault registers. -/
theorem recorded_takeFault (hr : routeOf r.code = .vector) (h : ThreadIs s t (· = th)) :
    ThreadIs (takeFault s t r false) t (Recorded th r) := by
  obtain ⟨u, hu, rfl⟩ := h
  obtain ⟨⟨g, _⟩, hf, rfl⟩ := Option.map_eq_some_iff.1 hu
  have here := threadIs_of_find (s := faultCounted s g) (Q := (· = _)) hf rfl
  unfold takeFault
  rw [hf]
  dsimp only
  split
  · exact recorded_parkHost here
  · rw [hr]
    exact recorded_routeVector here

theorem discarded_faultOwn (k : Nat) (tr : Trouble) (h : ThreadIs s t (· = th)) (hm : th.seg.missed = false) :
    ThreadIs (faultOwn s k t tr) t (Discarded th) := by
  obtain ⟨u, hu, rfl⟩ := h
  obtain ⟨⟨g, _⟩, hf, rfl⟩ := Option.map_eq_some_iff.1 hu
  have here := threadIs_of_find (Q := (· = _)) hf rfl
  unfold faultOwn
  rw [hf]
  dsimp only
  rw [if_neg (by simpa using hm)]
  split
  · unfold parkGather
    rw [hf]
    exact discarded_takeFault _ here
  · exact discarded_takeFault _ here

end

/-! ## The lanes of a closure (R144, log 43) -/

/-- A set of lanes that holds what each participant in it has named. -/
def Closed (peers : List Thread) (m : BitVec 128) : Prop :=
  ∀ v ∈ peers, m.getLsbD v.lane = true → v.seg.mates &&& m = v.seg.mates

theorem and_eq_left_iff_getLsbD {n : Nat} (x m : BitVec n) : x &&& m = x ↔ ∀ j, x.getLsbD j = true → m.getLsbD j = true := by
  constructor
  · intro h j hj
    rw [← h, BitVec.getLsbD_and, Bool.and_eq_true] at hj
    exact hj.2
  · intro h
    refine BitVec.eq_of_getLsbD_eq fun j _ => ?_
    rw [BitVec.getLsbD_and]
    cases hx : x.getLsbD j with
    | false => simp
    | true => simp [h j hx]

/-- One round of `closeMates`. -/
def closeStep (peers : List Thread) (m : BitVec 128) : BitVec 128 :=
  peers.foldl (fun u th => if m.getLsbD th.lane then u ||| th.seg.mates else u) m

theorem getLsbD_closeStep (peers : List Thread) (m : BitVec 128) (j : Nat) :
    (closeStep peers m).getLsbD j = true ↔
      m.getLsbD j = true ∨ ∃ v ∈ peers, m.getLsbD v.lane = true ∧ v.seg.mates.getLsbD j = true := by
  have rounds : ∀ (l : List Thread) (u : BitVec 128),
      (l.foldl (fun u th => if m.getLsbD th.lane then u ||| th.seg.mates else u) u).getLsbD j = true ↔
        u.getLsbD j = true ∨ ∃ v ∈ l, m.getLsbD v.lane = true ∧ v.seg.mates.getLsbD j = true := by
    intro l
    induction l with
    | nil => simp
    | cons v l ih =>
      intro u
      rw [List.foldl_cons, ih]
      by_cases hv : m.getLsbD v.lane = true
      · simp [hv, or_assoc]
      · simp [hv]
  exact rounds peers m

theorem closeStep_of_closed {peers : List Thread} {m : BitVec 128} (h : Closed peers m) : closeStep peers m = m := by
  refine BitVec.eq_of_getLsbD_eq fun j _ => Bool.eq_iff_iff.2 ?_
  rw [getLsbD_closeStep]
  exact ⟨fun hj => hj.elim id fun ⟨v, hv, hm, hx⟩ => (and_eq_left_iff_getLsbD _ _).1 (h v hv hm) j hx, .inl⟩

theorem closeMates_of_closed {peers : List Thread} {m : BitVec 128} (h : Closed peers m) (n : Nat) : closeMates peers n m = m := by
  induction n with
  | zero => rfl
  | succ n ih =>
    change closeMates peers n (closeStep peers m) = m
    rw [closeStep_of_closed h, ih]

/-- The participants that a set of lanes holds. -/
def heldPeers (peers : List Thread) (m : BitVec 128) : Nat := peers.countP fun v => m.getLsbD v.lane

/-- A round that takes in no further participant closes the set. -/
theorem closed_closeStep {peers : List Thread} {m : BitVec 128}
    (h : ∀ v ∈ peers, (closeStep peers m).getLsbD v.lane = true → m.getLsbD v.lane = true) : Closed peers (closeStep peers m) :=
  fun v hv hm => (and_eq_left_iff_getLsbD _ _).2 fun j hj =>
    (getLsbD_closeStep peers m j).2 (.inr ⟨v, hv, h v hv hm, hj⟩)

theorem heldPeers_closeStep_lt {peers : List Thread} {m : BitVec 128}
    (h : ¬∀ v ∈ peers, (closeStep peers m).getLsbD v.lane = true → m.getLsbD v.lane = true) :
    heldPeers peers m < heldPeers peers (closeStep peers m) := by
  have more : (peers.filter fun v => m.getLsbD v.lane).Sublist (peers.filter fun v => (closeStep peers m).getLsbD v.lane) :=
    List.monotone_filter_right peers fun v hv => (getLsbD_closeStep peers m v.lane).2 (.inl hv)
  unfold heldPeers
  rw [List.countP_eq_length_filter, List.countP_eq_length_filter]
  by_contra hle
  refine h fun v hv hs => ?_
  have same := more.eq_of_length_le (by omega)
  have hm : v ∈ peers.filter fun v => m.getLsbD v.lane := same ▸ List.mem_filter.2 ⟨hv, hs⟩
  exact (List.mem_filter.1 hm).2

/-- As many rounds as there are participants close the set: each takes in a further one or is the last. -/
theorem closed_closeMates (peers : List Thread) (n : Nat) (m : BitVec 128) (h : peers.length < heldPeers peers m + n) :
    Closed peers (closeMates peers n m) := by
  induction n generalizing m with
  | zero => exact absurd h (Nat.not_lt.2 List.countP_le_length)
  | succ n ih =>
    change Closed peers (closeMates peers n (closeStep peers m))
    by_cases hs : ∀ v ∈ peers, (closeStep peers m).getLsbD v.lane = true → m.getLsbD v.lane = true
    · rw [closeMates_of_closed (closed_closeStep hs)]
      exact closed_closeStep hs
    · have := heldPeers_closeStep_lt hs
      exact ih _ (by omega)

theorem closed_closeMates_length (peers : List Thread) (m : BitVec 128) : Closed peers (closeMates peers peers.length m) := by
  rcases Nat.eq_zero_or_pos (heldPeers peers m) with h | h
  · have none : Closed peers m := fun v hv hm => absurd hm (List.countP_eq_zero.1 h v hv)
    rwa [closeMates_of_closed none]
  · exact closed_closeMates peers _ m (by omega)

/-- The rounds only take lanes in, and only lanes of every closed set that holds the first ones. -/
theorem closeMates_ge (peers : List Thread) (n : Nat) (m : BitVec 128) (j : Nat) (h : m.getLsbD j = true) :
    (closeMates peers n m).getLsbD j = true := by
  induction n generalizing m with
  | zero => exact h
  | succ n ih => exact ih _ ((getLsbD_closeStep peers m j).2 (.inl h))

theorem closeMates_le (peers : List Thread) (n : Nat) (m c : BitVec 128) (hc : Closed peers c)
    (h : ∀ j, m.getLsbD j = true → c.getLsbD j = true) (j : Nat) (hj : (closeMates peers n m).getLsbD j = true) :
    c.getLsbD j = true := by
  induction n generalizing m with
  | zero => exact h j hj
  | succ n ih =>
    refine ih (closeStep peers m) (fun i hi => ?_) hj
    rcases (getLsbD_closeStep peers m i).1 hi with hi | ⟨v, hv, hm, hx⟩
    · exact h i hi
    · exact (and_eq_left_iff_getLsbD _ _).1 (hc v hv (h _ hm)) i hx

/-! ## The closure of a fault -/

theorem mem_gatherPeers {g : Group} {th u : Thread} : u ∈ gatherPeers g th ↔ u ∈ g.threads ∧ (u.row = th.row ∧
    u.seg.ig = th.seg.ig ∧ u.seg.gather = true ∧ u.seg.mates ≠ 0 ∧ (u.status = .running ∨ u.status = .committing)) := by
  simp only [gatherPeers, List.mem_filter, Bool.and_eq_true, Bool.or_eq_true, decide_eq_true_eq]
  tauto

theorem getLsbD_lane_or {l : Nat} (hl : l < 128) (m : BitVec 128) (j : Nat) :
    ((1#128 <<< l) ||| m).getLsbD j = true ↔ j = l ∨ m.getLsbD j = true := by
  rw [BitVec.getLsbD_or, Bool.or_eq_true]
  refine or_congr_left ?_
  rw [← BitVec.twoPow_eq, BitVec.getLsbD_twoPow]
  simp [hl]
  omega

/-- The closure is the least set that holds the lane and the mates of the faulting thread and what its participants name. -/
theorem mem_gatherClosure {g : Group} {th u : Thread} (hl : th.lane < 128) : u ∈ gatherClosure g th ↔
    u ∈ gatherPeers g th ∧ u.lane ≠ th.lane ∧ ∀ m : BitVec 128, m.getLsbD th.lane = true → th.seg.mates &&& m = th.seg.mates →
      Closed (gatherPeers g th) m → m.getLsbD u.lane = true := by
  have first := getLsbD_lane_or hl th.seg.mates
  rw [gatherClosure, List.mem_filter, Bool.and_eq_true, decide_eq_true_eq]
  refine and_congr_right fun _ => and_congr_right fun _ => ⟨fun h m hm hw hc => ?_, fun h => ?_⟩
  · refine closeMates_le _ _ _ m hc (fun j hj => ?_) _ h
    rcases (first j).1 hj with rfl | hj
    · exact hm
    · exact (and_eq_left_iff_getLsbD _ _).1 hw j hj
  · exact h _ (closeMates_ge _ _ _ _ ((first _).2 (.inl rfl)))
      ((and_eq_left_iff_getLsbD _ _).2 fun j hj => closeMates_ge _ _ _ _ ((first j).2 (.inr hj)))
      (closed_closeMates_length _ _)

theorem nodup_gatherClosure {g : Group} (th : Thread) (h : (g.threads.map fun u => (u.row, u.lane)).Nodup) :
    ((gatherClosure g th).map (refOf g)).Nodup := by
  have sub : (gatherClosure g th).Sublist g.threads := List.filter_sublist.trans List.filter_sublist
  have := h.sublist (sub.map fun u => (u.row, u.lane))
  rw [List.Nodup, List.pairwise_map] at *
  exact this.imp fun hne e => hne (by simpa [refOf] using e)

/-- A thread of a group stands at its own reference. -/
theorem threadOf_refOf {s : State} {n : Nat} {g : Group} {u : Thread} (hg : findGroup s n = some g)
    (h : (g.threads.map fun u => (u.row, u.lane)).Nodup) (hu : u ∈ g.threads) : threadOf s (refOf g u) = some u := by
  have hs := findGroup_serial hg
  subst hs
  cases ht : g.thread u.row u.lane with
  | none => exact absurd (List.find?_eq_none.1 ht u hu) (by simp)
  | some w =>
    have hw : w ∈ g.threads := List.mem_of_find?_eq_some ht
    obtain ⟨hr, hl⟩ := thread_place ht
    have : w = u := List.inj_on_of_nodup_map h hw hu (by simp [hr, hl])
    simp [threadOf, findThread, refOf, hg, ht, this]

/-- A list worked through by steps of one thread each changes no other. -/
theorem foldl_other {α : Type} {key : α → ThreadRef} {step : State → α → State} (l : List α)
    (hs : ∀ s x, x ∈ l → OnlyThread (key x) s (step s x)) (s : State) {r : ThreadRef} (hr : ∀ x ∈ l, key x ≠ r) :
    threadOf (l.foldl step s) r = threadOf s r :=
  Lines.foldl_rel (R := fun s t => threadOf t r = threadOf s r) (fun _ => rfl) (fun h g => g.trans h) l
    (fun s x hx => hs s x hx r (hr x hx).symm) s

/-- One participant of a closure is parked. -/
def parkMate (k : Nat) (g : Group) (th : Thread) (code : Code) (s : State) (u : Thread) : State :=
  match findThread s (refOf g u) with
  | some (_, v) =>
    if v.status = .running || v.status = .committing then
      parkGather s k (refOf g u) (matesTrouble (matesData th.lane code) th.seg.startHdr) (matesData th.lane code) 0
    else s
  | none => s

theorem parkMates_eq (s : State) (k : Nat) (g : Group) (th : Thread) (code : Code) :
    parkMates s k g th code = (gatherClosure g th).foldl (parkMate k g th code) s := rfl

theorem onlyThread_parkMate (k : Nat) (g : Group) (th : Thread) (code : Code) (s : State) (u : Thread) :
    OnlyThread (refOf g u) s (parkMate k g th code s u) := by
  unfold parkMate
  split
  · split
    · exact onlyThread_parkGather _ _ _ _ _ _
    · exact .refl _ s
  · exact .refl _ s

theorem recorded_parkMate (k : Nat) {g : Group} {th : Thread} (code : Code) {s : State} {u : Thread}
    (h : threadOf s (refOf g u) = some u) (hu : u.status = .running ∨ u.status = .committing) :
    ThreadIs (parkMate k g th code s u) (refOf g u)
      (Recorded u (recordOf (matesTrouble (matesData th.lane code) th.seg.startHdr) u.seg)) := by
  obtain ⟨⟨g', _⟩, hf, rfl⟩ := Option.map_eq_some_iff.1 h
  unfold parkMate parkGather
  rw [hf]
  dsimp only
  rw [if_pos (by simpa using hu)]
  exact recorded_takeFault rfl (threadIs_of_find (s := leaveGather s k _ _ _) hf rfl)

theorem matesData_eq {lane : Nat} (h : lane < 128) (code : Code) :
    matesData lane code = BitVec.ofNat 32 lane + 256 * code.bits.setWidth 32 := by
  have hc : code.bits.toNat < 2 ^ 8 := code.bits.isLt
  have hor : code.bits.toNat <<< 8 + lane = code.bits.toNat <<< 8 ||| lane := Nat.shiftLeft_add_eq_or_of_lt (by omega) _
  rw [Nat.shiftLeft_eq] at hor
  refine BitVec.eq_of_toNat_eq ?_
  simp only [matesData, BitVec.toNat_or, BitVec.toNat_shiftLeft, BitVec.toNat_setWidth, BitVec.toNat_ofNat, BitVec.toNat_add,
    BitVec.toNat_mul, Nat.shiftLeft_eq]
  rw [Nat.mod_eq_of_lt (show lane < 2 ^ 32 by omega), Nat.mod_eq_of_lt (show code.bits.toNat < 2 ^ 32 by omega),
    Nat.mod_eq_of_lt (show code.bits.toNat * 2 ^ 8 < 2 ^ 32 by omega), Nat.or_comm, ← hor]
  have h256 : (256 : BitVec 32).toNat = 256 := rfl
  rw [h256]
  omega

theorem findThread_spec {s : State} {t : ThreadRef} {g : Group} {th : Thread} (h : findThread s t = some (g, th)) :
    findGroup s t.group = some g ∧ th ∈ g.threads ∧ th.row = t.row ∧ th.lane = t.lane := by
  unfold findThread at h
  cases hg : findGroup s t.group with
  | none => simp [hg] at h
  | some g' =>
    rw [hg] at h
    obtain ⟨th', ht, e⟩ := Option.map_eq_some_iff.1 h
    cases e
    exact ⟨rfl, List.mem_of_find?_eq_some ht, thread_place ht⟩

theorem running_of_mem_turnSites {s : State} {k : Nat} {b : Burst} {i : Instr} {x : Site} (h : x ∈ turnSites s k b i) :
    x.th.status = .running := by
  obtain ⟨t, _, h⟩ := List.mem_filterMap.1 h
  unfold siteOf at h
  split at h
  · cases h
  · split at h
    · cases h
    · split at h <;> cases h
      assumption

/-- A fault of a thread of a gather segment parks each participant of its closure. -/
theorem recorded_parkMates {s s0 : State} {k : Nat} {t : ThreadRef} {g : Group} {th u : Thread} {code : Code}
    (hf : findThread s t = some (g, th))
    (h0 : OnlyThread t s s0) (hn : (g.threads.map fun u => (u.row, u.lane)).Nodup) (hu : u ∈ gatherClosure g th) :
    ThreadIs (parkMates s0 k g th code) (refOf g u)
      (Recorded u (recordOf (matesTrouble (matesData th.lane code) th.seg.startHdr) u.seg)) := by
  obtain ⟨hgroup, -, -, hlane⟩ := findThread_spec hf
  obtain ⟨hpeer, hm⟩ := List.mem_filter.1 hu
  rw [Bool.and_eq_true, decide_eq_true_eq] at hm
  obtain ⟨hus, -, -, -, -, hstatus⟩ := mem_gatherPeers.1 hpeer
  have hne : refOf g u ≠ t := fun e => hm.1 ((congrArg ThreadRef.lane e).trans hlane.symm)
  have here : threadOf s0 (refOf g u) = some u := (h0 _ hne).trans (threadOf_refOf hgroup hn hus)
  obtain ⟨s1, h1, h2⟩ := foldl_distinct (key := refOf g) (gatherClosure g th) (nodup_gatherClosure th hn) s0
    (fun s' v _ _ => onlyThread_parkMate k g th code s' v) u hu
  obtain ⟨u', hu', hr⟩ := recorded_parkMate k code (h1.trans here) hstatus
  exact ⟨u', h2.trans hu', hr⟩

/-- Settles O13: the segment goes with the fault, and with it the segments of its closure. -/
theorem aFaultDiscardsTheSegment : Obligations.AFaultDiscardsTheSegment := by
  unfold Obligations.AFaultDiscardsTheSegment
  intro s k t tr g th hf
  dsimp only
  have here : ThreadIs s t (· = th) := threadIs_of_find hf rfl
  have hth : threadOf s t = some th := by simp [threadOf, hf]
  obtain ⟨hgroup, hmem, hrow, hlane⟩ := findThread_spec hf
  have split : faultThread s k t tr =
      if th.parksMates then parkMates (faultOwn s k t tr) k g th tr.code else faultOwn s k t tr := by
    unfold faultThread
    rw [hf]
  refine ⟨fun hm => ?_, fun hg u hu => ?_, fun hm => ⟨?_, ?_⟩, fun hgather hm hl hn => ?_⟩
  · have own := discarded_faultOwn k tr here hm
    have after : ThreadIs (faultThread s k t tr) t (Discarded th) := by
      rw [split]
      split_ifs
      · obtain ⟨u, hu, hd⟩ := own
        refine ⟨u, (foldl_other (key := refOf g) _ (fun s v _ => onlyThread_parkMate k g th tr.code s v) _ ?_).trans hu, hd⟩
        intro v hv e
        have hm := (List.mem_filter.1 hv).2
        rw [Bool.and_eq_true, decide_eq_true_eq] at hm
        exact hm.1 ((congrArg ThreadRef.lane e).trans hlane.symm)
      · exact own
    refine threadIs_mono after fun u hd => ?_
    obtain ⟨pc, hdr, hseg⟩ := hd.seg
    rw [hseg]
    exact ⟨rfl, rfl, rfl, rfl, rfl, hd.v, hd.p, hd.k, hd.status⟩
  · exact onlyThread_faultThread k tr (fun th' h' => by
      obtain rfl : th = th' := Option.some.inj (hth.symm.trans h')
      simp [Thread.parksMates, hg]) u hu
  · rw [split, if_neg (by simp [Thread.parksMates, hm])]
    simp [faultOwn, hf, hm]
  · intro i s t b x hi h hx hall he hne hv hmiss
    have fault : ∃ tr, verdict i x = .fault tr := by
      unfold Faults at hv
      split at hv
      · exact ⟨_, ‹_›⟩
      · cases hv
    obtain ⟨u, hu, hleft⟩ := word_leftOut hi h hx (fun y hy => (hall y hy).2) he hne (.inr ⟨fault, hmiss⟩)
    have running : x.th.status = .running := running_of_mem_turnSites hx
    exact ⟨u, hu, hleft.status.imp_left (·.trans running), hleft.effect, hleft.stores, hleft.loads, hleft.results⟩
  · have members : ∀ u ∈ g.threads, u ∈ gatherClosure g th ↔ _ := fun u hu => (mem_gatherClosure hl).trans
      (and_congr_left fun _ => mem_gatherPeers.trans (and_iff_right hu))
    rw [split, if_pos (by simp [Thread.parksMates, hgather, hm])]
    have only := onlyThread_faultOwn s k t tr
    have closed : ∀ m : BitVec 128, Closed (gatherPeers g th) m ↔ ∀ v ∈ g.threads, _ → m.getLsbD v.lane = true →
        v.seg.mates &&& m = v.seg.mates := fun m =>
      ⟨fun h v hv hp => h v (mem_gatherPeers.2 ⟨hv, hp⟩), fun h v hv => h v (mem_gatherPeers.1 hv).1 (mem_gatherPeers.1 hv).2⟩
    simp only [closed] at members
    refine ⟨fun u hu hj => ?_, fun r hr hj => ?_⟩
    · refine threadIs_mono (recorded_parkMates hf only hn ((members u hu).2 hj)) fun u' hrec => ?_
      obtain ⟨pc, hdr, hseg⟩ := hrec.discarded.seg
      rw [hseg]
      exact ⟨rfl, rfl, rfl, rfl, hrec.discarded.v, hrec.discarded.p, hrec.discarded.k, hrec.status,
        hrec.info.trans (by simp [recordOf, matesTrouble, Code.bits]),
        hrec.data0.trans (matesData_eq hl _), hrec.data1⟩
    · refine (foldl_other (key := refOf g) _ (fun s v _ => onlyThread_parkMate k g th tr.code s v) _ fun v hv e => ?_).trans
        (only r hr)
      have hv' : v ∈ g.threads := List.mem_of_mem_filter (List.mem_of_mem_filter hv)
      exact hj v hv' e ((members v hv').1 hv)

end Sys2Proof.Faults

/-! Rounding gives the magnitude that R81 chooses, and a pattern is the rounding of its own value (R78, R80, R81; O21). -/

namespace Sys2Proof.Rounding
open Machine

/-! ## Codes and magnitudes -/

theorem fracBits_pos {fmt : Nat} (h : fmt < 3) : 1 ≤ fracBits fmt := by
  interval_cases fmt <;> decide

/-- A kept integer and its last place fit a format with `f` fraction bits: a normal number, or a subnormal at the lowest
place. -/
structure Fits (f : Nat) (low : Int) (n : Nat) (q : Int) : Prop where
  place : low ≤ q
  upper : n ≤ 2 ^ (f + 1)
  lower : 2 ^ f ≤ n ∨ q = low ∨ n = 0

theorem magnitude_codeOf {fmt n : Nat} {q : Int} (h : Fits (fracBits fmt) (fmtLow fmt) n q) :
    magnitude fmt (codeOf (fracBits fmt) (fmtLow fmt) n q) = (n : Rat) * 2 ^ q := by
  obtain ⟨hq, hn, hl⟩ := h
  set f := fracBits fmt
  have pow : 0 < 2 ^ f := Nat.two_pow_pos f
  by_cases hs : n < 2 ^ f
  · rw [codeOf, if_pos hs, magnitude, if_pos hs]
    rcases hl with hl | rfl | rfl
    · omega
    · rfl
    · simp
  · rw [codeOf, if_neg hs, magnitude]
    obtain ⟨k, rfl⟩ : ∃ k : Nat, q = fmtLow fmt + k := ⟨(q - fmtLow fmt).toNat, by omega⟩
    have hk : (fmtLow fmt + (k : Int) - fmtLow fmt).toNat = k := by omega
    rw [hk]
    have hge : ¬(k + 1) * 2 ^ f + n - 2 ^ f < 2 ^ f := by
      have : (k + 1) * 2 ^ f = k * 2 ^ f + 2 ^ f := by ring
      have : 0 ≤ k * 2 ^ f := Nat.zero_le _
      omega
    rw [if_neg hge]
    by_cases ht : n = 2 ^ (f + 1)
    · subst ht
      have e : (k + 1) * 2 ^ f + 2 ^ (f + 1) - 2 ^ f = (k + 2) * 2 ^ f := by
        rw [pow_succ]
        have : (k + 1) * 2 ^ f + 2 ^ f = (k + 2) * 2 ^ f := by ring
        omega
      rw [e, Nat.mul_mod_left, Nat.mul_div_cancel _ pow]
      push_cast
      rw [add_zero, pow_succ, show fmtLow fmt + ((k : Int) + 2) - 1 = (fmtLow fmt + k) + 1 by ring, zpow_add_one₀ (by norm_num)]
      ring
    · have hn' : n - 2 ^ f < 2 ^ f := by rw [pow_succ] at hn ht; omega
      have e : (k + 1) * 2 ^ f + n - 2 ^ f = (n - 2 ^ f) + 2 ^ f * (k + 1) := by
        rw [mul_comm]; omega
      rw [e, Nat.add_mul_mod_self_left, Nat.mod_eq_of_lt hn', Nat.add_mul_div_left _ _ pow, Nat.div_eq_of_lt hn',
        show 2 ^ f + (n - 2 ^ f) = n by omega]
      push_cast
      rw [show fmtLow fmt + (0 + ((k : Int) + 1)) - 1 = fmtLow fmt + k by ring]

theorem codeOf_succ {f n : Nat} {low q : Int} (h : Fits f low n q) (hn : n < 2 ^ (f + 1)) (h0 : n = 0 → q = low) :
    codeOf f low (n + 1) q = codeOf f low n q + 1 := by
  obtain ⟨hq, -, hl⟩ := h
  have pow : 0 < 2 ^ f := Nat.two_pow_pos f
  unfold codeOf
  by_cases h1 : n + 1 < 2 ^ f
  · rw [if_pos h1, if_pos (by omega)]
  · rw [if_neg h1]
    by_cases h2 : n < 2 ^ f
    · have hlow : q = low := by
        rcases hl with hl | hl | hl
        · omega
        · exact hl
        · exact h0 hl
      rw [if_pos h2, hlow]
      simp
    · rw [if_neg h2]
      have : 2 ^ f ≤ ((q - low).toNat + 1) * 2 ^ f := Nat.le_mul_of_pos_left _ (by omega)
      omega

/-- Every code is that of a kept integer and its last place. -/
theorem exists_codeOf (f : Nat) (low : Int) (c : Nat) :
    ∃ n q, Fits f low n q ∧ n < 2 ^ (f + 1) ∧ (n = 0 → q = low) ∧ codeOf f low n q = c := by
  have pow : 0 < 2 ^ f := Nat.two_pow_pos f
  by_cases h : c < 2 ^ f
  · exact ⟨c, low, ⟨le_refl _, by rw [pow_succ]; omega, .inr (.inl rfl)⟩, by rw [pow_succ]; omega, fun _ => rfl, if_pos h⟩
  · have hmod := Nat.mod_lt c pow
    have hdiv : 1 ≤ c / 2 ^ f := (Nat.one_le_div_iff pow).2 (by omega)
    refine ⟨2 ^ f + c % 2 ^ f, low + (c / 2 ^ f : Nat) - 1, ⟨by omega, by rw [pow_succ]; omega, .inl (by omega)⟩,
      by rw [pow_succ]; omega, by omega, ?_⟩
    have hk : (low + ((c / 2 ^ f : Nat) : Int) - 1 - low).toNat + 1 = c / 2 ^ f := by omega
    rw [codeOf, if_neg (by omega), hk]
    have := Nat.div_add_mod c (2 ^ f)
    rw [mul_comm] at this
    omega

theorem magnitude_strictMono (fmt : Nat) : StrictMono (magnitude fmt) := by
  refine strictMono_nat_of_lt_succ fun c => ?_
  obtain ⟨n, q, hf, hn, h0, rfl⟩ := exists_codeOf (fracBits fmt) (fmtLow fmt) c
  have next : Fits (fracBits fmt) (fmtLow fmt) (n + 1) q := by
    refine ⟨hf.place, hn, ?_⟩
    rcases hf.lower with h | h | h
    · exact .inl (by omega)
    · exact .inr (.inl h)
    · exact .inr (.inl (h0 h))
  rw [← codeOf_succ hf hn h0, magnitude_codeOf hf, magnitude_codeOf next]
  have : (0 : Rat) < 2 ^ q := by positivity
  push_cast
  nlinarith

/-! ## What is kept of a value -/

theorem lt_two_pow_bitLength (m : Nat) : m < 2 ^ bitLength m := by
  unfold bitLength
  split
  · omega
  · exact Nat.lt_log2_self

theorem two_pow_bitLength_le {m : Nat} (h : m ≠ 0) : 2 ^ (bitLength m - 1) ≤ m := by
  rw [bitLength, if_neg h]
  exact Nat.log2_self_le h

theorem bitLength_pos {m : Nat} (h : m ≠ 0) : 1 ≤ bitLength m := by
  rw [bitLength, if_neg h]
  omega

/-- The last place that rounding to `f + 1` bits keeps. -/
def lastPlace (f : Nat) (low : Int) (m : Nat) (e : Int) : Int := max (e + bitLength m - (f + 1 : Nat)) low

/-- A value whose last place need not be cut is kept as it is. -/
theorem fits_exact {f : Nat} {low : Int} {m : Nat} {e : Int} (h : lastPlace f low m e ≤ e) :
    Fits f low (m * 2 ^ (e - lastPlace f low m e).toNat) (lastPlace f low m e) ∧
      m * 2 ^ (e - lastPlace f low m e).toNat < 2 ^ (f + 1) := by
  set q := lastPlace f low m e with hq
  have hmax : q = max (e + bitLength m - (f + 1 : Nat)) low := hq
  have hlt : m * 2 ^ (e - q).toNat < 2 ^ (f + 1) := by
    calc m * 2 ^ (e - q).toNat < 2 ^ bitLength m * 2 ^ (e - q).toNat :=
          Nat.mul_lt_mul_of_pos_right (lt_two_pow_bitLength m) (Nat.two_pow_pos _)
      _ = 2 ^ (bitLength m + (e - q).toNat) := (pow_add _ _ _).symm
      _ ≤ 2 ^ (f + 1) := Nat.pow_le_pow_right (by omega) (by omega)
  refine ⟨⟨by omega, hlt.le, ?_⟩, hlt⟩
  by_cases hlow : q = low
  · exact .inr (.inl hlow)
  · by_cases h0 : m = 0
    · exact .inr (.inr (by simp [h0]))
    · refine .inl ?_
      have := bitLength_pos h0
      calc 2 ^ f ≤ 2 ^ (bitLength m - 1 + (e - q).toNat) := Nat.pow_le_pow_right (by omega) (by omega)
        _ = 2 ^ (bitLength m - 1) * 2 ^ (e - q).toNat := pow_add _ _ _
        _ ≤ m * 2 ^ (e - q).toNat := Nat.mul_le_mul_right _ (two_pow_bitLength_le h0)

/-- What is left of a value whose last places are cut. -/
theorem fits_cut {f : Nat} {low : Int} {m : Nat} {e : Int} (h : e < lastPlace f low m e) :
    Fits f low (m / 2 ^ (lastPlace f low m e - e).toNat) (lastPlace f low m e) ∧
      m / 2 ^ (lastPlace f low m e - e).toNat < 2 ^ (f + 1) ∧
      (m / 2 ^ (lastPlace f low m e - e).toNat = 0 → lastPlace f low m e = low) := by
  set q := lastPlace f low m e with hq
  have hmax : q = max (e + bitLength m - (f + 1 : Nat)) low := hq
  have hlt : m / 2 ^ (q - e).toNat < 2 ^ (f + 1) := by
    rw [Nat.div_lt_iff_lt_mul (Nat.two_pow_pos _), ← pow_add]
    exact (lt_two_pow_bitLength m).trans_le (Nat.pow_le_pow_right (by omega) (by omega))
  have normal : q ≠ low → 2 ^ f ≤ m / 2 ^ (q - e).toNat := by
    intro hlow
    have h0 : m ≠ 0 := by
      rintro rfl
      simp only [bitLength, if_true] at hmax
      omega
    have := bitLength_pos h0
    rw [Nat.le_div_iff_mul_le (Nat.two_pow_pos _), ← pow_add]
    exact (Nat.pow_le_pow_right (by omega) (by omega)).trans (two_pow_bitLength_le h0)
  have pow : 0 < 2 ^ f := Nat.two_pow_pos f
  refine ⟨⟨by omega, hlt.le, ?_⟩, hlt, fun h0 => ?_⟩
  · by_cases hlow : q = low
    · exact .inr (.inl hlow)
    · exact .inl (normal hlow)
  · by_contra hlow
    have := normal hlow
    omega

theorem roundMag_eq (f : Nat) (low : Int) (rnd : Nat) (neg : Bool) (m : Nat) (e : Int) : roundMag (f + 1) low rnd neg m e false =
    if lastPlace f low m e ≤ e then (m * 2 ^ (e - lastPlace f low m e).toNat, lastPlace f low m e)
    else (m / 2 ^ (lastPlace f low m e - e).toNat +
      (if roundsUp rnd neg (m / 2 ^ (lastPlace f low m e - e).toNat) (m % 2 ^ (lastPlace f low m e - e).toNat)
        (lastPlace f low m e - e).toNat false then 1 else 0), lastPlace f low m e) := rfl

theorem codeOf_mod_two {f : Nat} (hf : 1 ≤ f) (low : Int) (n : Nat) (q : Int) : codeOf f low n q % 2 = n % 2 := by
  obtain ⟨f, rfl⟩ := Nat.exists_eq_add_of_le' hf
  unfold codeOf
  split
  · rfl
  · have e : 2 ^ (f + 1) = 2 * 2 ^ f := by rw [pow_succ]; ring
    have : ((q - low).toNat + 1) * 2 ^ (f + 1) = 2 * (((q - low).toNat + 1) * 2 ^ f) := by rw [e]; ring
    have : 2 ^ f ≤ ((q - low).toNat + 1) * 2 ^ f := Nat.le_mul_of_pos_left _ (by omega)
    omega

/-! ## Rounding (R81) -/

/-- Two magnitudes that enclose an exact result, and the one that is chosen, make a rounding. -/
theorem roundsTo_of_between {fmt rnd : Nat} {neg : Bool} {v : Rat} {c : Nat} (hlo : magnitude fmt c ≤ v)
    (hhi : v < magnitude fmt (c + 1)) {up : Bool} (hup : up = (magnitude fmt c ≠ v &&
      goesUp rnd neg c (exactly v ((magnitude fmt c + magnitude fmt (c + 1)) / 2)))) :
    RoundsTo fmt rnd neg (exactly v) (if infBits fmt ≤ c + (if up then 1 else 0) then overflowBits fmt rnd neg
      else signBit fmt neg + (c + (if up then 1 else 0))) := by
  have above : exactly v (magnitude fmt (c + 1)) = .gt := compare_gt_iff_gt.2 hhi
  have below : exactly v (magnitude fmt c) ≠ .gt := compare_le_iff_le.2 hlo
  by_cases hc : infBits fmt ≤ c
  · exact .inl ⟨compare_le_iff_le.2 (((magnitude_strictMono fmt).monotone hc).trans hlo), if_pos (by omega)⟩
  · refine .inr ⟨c, by omega, below, above, ?_⟩
    by_cases heq : magnitude fmt c = v
    · have : exactly v (magnitude fmt c) = .eq := compare_eq_iff_eq.2 heq
      rw [if_pos this]
      simp [hup, heq, hc]
    · have : exactly v (magnitude fmt c) ≠ .eq := fun h => heq (compare_eq_iff_eq.1 h)
      rw [if_neg this]
      cases hg : goesUp rnd neg c (exactly v ((magnitude fmt c + magnitude fmt (c + 1)) / 2)) with
      | false => simp [hup, hg, hc]
      | true =>
        simp only [hup, hg, heq, ne_eq, not_false_eq_true, decide_true, Bool.and_self, if_true]
        by_cases hinf : c + 1 = infBits fmt
        · simp [hinf]
        · rw [if_neg (by omega), if_neg hinf]

/-- The rest that is cut off decides as the point half-way between the neighbours does. -/
theorem roundsUp_eq_goesUp {rnd keep rem shift c : Nat} {neg : Bool} (hr : rnd < 4) (hc : c % 2 = keep % 2) (hrem : rem ≠ 0)
    {middle : Ordering} (hlt : middle = .lt ↔ 2 ^ shift < 2 * rem) (heq : middle = .eq ↔ 2 * rem = 2 ^ shift) :
    roundsUp rnd neg keep rem shift false = goesUp rnd neg c middle := by
  have pos : 0 < rem := Nat.pos_of_ne_zero hrem
  interval_cases rnd
  · simp [roundsUp, goesUp, hlt, heq, hc, pos]
  · rfl
  · simp [roundsUp, goesUp, hrem]
  · simp [roundsUp, goesUp, hrem]

/-- A value whose last places are cut rounds to one of the neighbours of what is kept. -/
theorem roundsTo_cut {fmt rnd : Nat} (hr : rnd < 4) (neg : Bool) {c keep rem shift : Nat} {u : Rat} (hu : 0 < u)
    (hrem : rem < 2 ^ shift) (hc : c % 2 = keep % 2) (mag : magnitude fmt c = keep * (2 ^ shift * u))
    (mag' : magnitude fmt (c + 1) = (keep + 1) * (2 ^ shift * u)) :
    RoundsTo fmt rnd neg (exactly ((keep * 2 ^ shift + rem) * u))
      (if infBits fmt ≤ c + (if roundsUp rnd neg keep rem shift false then 1 else 0) then overflowBits fmt rnd neg
        else signBit fmt neg + (c + (if roundsUp rnd neg keep rem shift false then 1 else 0))) := by
  have hlt : (rem : Rat) < 2 ^ shift := by exact_mod_cast hrem
  have h0 : (0 : Rat) ≤ rem := by positivity
  refine roundsTo_of_between (by rw [mag]; nlinarith) (by rw [mag']; nlinarith) ?_
  have same : magnitude fmt c = (keep * 2 ^ shift + rem) * u ↔ rem = 0 := by
    rw [mag]
    constructor
    · intro h
      have : (rem : Rat) * u = 0 := by linarith
      exact_mod_cast (mul_eq_zero.1 this).resolve_right hu.ne'
    · intro h
      rw [h]
      push_cast
      ring
  by_cases hz : rem = 0
  · have none : roundsUp rnd neg keep 0 shift false = false := by
      interval_cases rnd <;> simp [roundsUp]
    rw [same.2 hz, hz, none]
    simp
  · have half : (magnitude fmt c + magnitude fmt (c + 1)) / 2 = (keep * 2 ^ shift + 2 ^ shift / 2 : Rat) * u := by
      rw [mag, mag']
      ring
    have less : exactly ((keep * 2 ^ shift + rem) * u) ((magnitude fmt c + magnitude fmt (c + 1)) / 2) = .lt ↔ 2 ^ shift < 2 * rem := by
      rw [half, exactly, compare_lt_iff_lt, mul_lt_mul_iff_left₀ hu, add_lt_add_iff_left, div_lt_iff₀' (by norm_num)]
      exact_mod_cast Iff.rfl
    have equal : exactly ((keep * 2 ^ shift + rem) * u) ((magnitude fmt c + magnitude fmt (c + 1)) / 2) = .eq ↔ 2 * rem = 2 ^ shift := by
      rw [half, exactly, compare_eq_iff_eq, mul_left_inj' hu.ne', add_right_inj, div_eq_iff (by norm_num), eq_comm, mul_comm]
      exact_mod_cast Iff.rfl
    rw [roundsUp_eq_goesUp hr hc hz less equal]
    simp [mt same.1 hz]

/-- Any finite value becomes the magnitude that R81 chooses between its neighbours, or the overflow. -/
theorem roundsTo_packVal {fmt rnd : Nat} (neg : Bool) (m : Nat) (e : Int) (hf : fmt < 3) (hr : rnd < 4) :
    RoundsTo fmt rnd neg (exactly ((m : Rat) * 2 ^ e)) (packVal fmt rnd (.fin neg m e)) := by
  change RoundsTo fmt rnd neg _ (roundTo fmt rnd neg m e false)
  unfold roundTo
  rw [roundMag_eq]
  have two : (2 : Rat) ≠ 0 := by norm_num
  by_cases h : lastPlace (fracBits fmt) (fmtLow fmt) m e ≤ e
  · obtain ⟨fits, -⟩ := fits_exact h
    have hm := magnitude_codeOf fits
    rw [if_pos h]
    set q := lastPlace (fracBits fmt) (fmtLow fmt) m e
    have hv : ((m * 2 ^ (e - q).toNat : Nat) : Rat) * 2 ^ q = (m : Rat) * 2 ^ e := by
      push_cast
      rw [mul_assoc, ← zpow_natCast, ← zpow_add₀ two]
      congr 2
      omega
    rw [hv] at hm
    have := roundsTo_of_between (rnd := rnd) (neg := neg) (up := false) hm.le
      (hm ▸ magnitude_strictMono fmt (Nat.lt_succ_self _)) (by simp [hm])
    simpa using this
  · obtain ⟨fits, hlt, h0⟩ := fits_cut (Int.not_le.1 h)
    rw [if_neg h]
    set q := lastPlace (fracBits fmt) (fmtLow fmt) m e
    have mag := magnitude_codeOf fits
    have next := codeOf_succ fits hlt h0
    have mag' := magnitude_codeOf (fmt := fmt) (n := m / 2 ^ (q - e).toNat + 1) (q := q)
      ⟨fits.place, hlt, fits.lower.imp (by omega) fun h => .inl (h.elim id h0)⟩
    have place : (2 : Rat) ^ q = 2 ^ (q - e).toNat * 2 ^ e := by
      rw [← zpow_natCast, ← zpow_add₀ two]
      congr 1
      omega
    have hv : (((m / 2 ^ (q - e).toNat : Nat) : Rat) * 2 ^ (q - e).toNat + (m % 2 ^ (q - e).toNat : Nat)) * 2 ^ e = m * 2 ^ e := by
      have := Nat.div_add_mod m (2 ^ (q - e).toNat)
      rw [mul_comm] at this
      congr 1
      exact_mod_cast this
    rw [place] at mag mag'
    rw [next] at mag'
    have := roundsTo_cut hr neg (by positivity) (Nat.mod_lt m (Nat.two_pow_pos (q - e).toNat))
      (codeOf_mod_two (fracBits_pos hf) (fmtLow fmt) _ q) mag (by simpa using mag')
    rw [hv] at this
    cases hu : roundsUp rnd neg (m / 2 ^ (q - e).toNat) (m % 2 ^ (q - e).toNat) (q - e).toNat false with
    | false => simpa [hu] using this
    | true => simpa [hu, next] using this

theorem bitLength_le {n k : Nat} (h : n < 2 ^ k) : bitLength n ≤ k := by
  unfold bitLength
  split
  · omega
  · exact (Nat.log2_lt ‹_›).2 h

/-! ## A pattern is the rounding of its own value -/

/-- A value that fits is kept whole. -/
theorem roundMag_of_fits {f n : Nat} {low q : Int} (rnd : Nat) (neg : Bool) (h : low ≤ q) (hn : n < 2 ^ (f + 1))
    (hl : n < 2 ^ f → q = low) : roundMag (f + 1) low rnd neg n q false = (n, q) := by
  have le := bitLength_le hn
  have place : lastPlace f low n q = q := by
    unfold lastPlace
    by_cases hs : n < 2 ^ f
    · have := hl hs
      omega
    · have : f + 1 ≤ bitLength n := by
        by_contra hlt
        have := (lt_two_pow_bitLength n).trans_le (Nat.pow_le_pow_right (by omega) (by omega : bitLength n ≤ f))
        omega
      omega
  rw [roundMag_eq, place, if_pos (le_refl q)]
  simp

/-- A finite pattern's parts: the sign, and the code of its value. -/
theorem packVal_of_fits {fmt n : Nat} {q : Int} (rnd : Nat) (neg : Bool) (h : fmtLow fmt ≤ q) (hn : n < 2 ^ (fracBits fmt + 1))
    (hl : n < 2 ^ fracBits fmt → q = fmtLow fmt) (hc : codeOf (fracBits fmt) (fmtLow fmt) n q < infBits fmt) :
    packVal fmt rnd (.fin neg n q) = signBit fmt neg + codeOf (fracBits fmt) (fmtLow fmt) n q := by
  change roundTo fmt rnd neg n q false = _
  unfold roundTo
  rw [roundMag_of_fits rnd neg h hn hl]
  exact if_neg (Nat.not_le.2 hc)

/-- The fields of a pattern. -/
theorem pattern_fields {fmt x : Nat} (hf : fmt < 3) (hx : x < 2 ^ fmtWidth fmt) :
    x = signBit fmt (x / 2 ^ (fmtWidth fmt - 1) % 2 = 1) + (x / 2 ^ fracBits fmt % 2 ^ expBits fmt * 2 ^ fracBits fmt +
      x % 2 ^ fracBits fmt) ∧
    x % 2 ^ (fmtWidth fmt - 1) = x / 2 ^ fracBits fmt % 2 ^ expBits fmt * 2 ^ fracBits fmt + x % 2 ^ fracBits fmt := by
  unfold signBit
  interval_cases fmt <;>
    simp only [fmtWidth, fracBits, expBits, if_true, if_false, reduceCtorEq, Nat.reduceEqDiff, one_ne_zero, OfNat.ofNat_ne_zero,
      Nat.reducePow, Nat.reduceSub, decide_eq_true_eq] at * <;>
    constructor <;> (try split) <;> omega

theorem packVal_unpack {fmt rnd x : Nat} (hf : fmt < 3) (hx : x < 2 ^ fmtWidth fmt) (hn : isNan fmt x = false) :
    packVal fmt rnd (unpack fmt x) = x := by
  obtain ⟨fields, rest⟩ := pattern_fields hf hx
  have hfrac : x % 2 ^ fracBits fmt < 2 ^ fracBits fmt := Nat.mod_lt _ (Nat.two_pow_pos _)
  have hexp : x / 2 ^ fracBits fmt % 2 ^ expBits fmt < 2 ^ expBits fmt := Nat.mod_lt _ (Nat.two_pow_pos _)
  rw [isNan, decide_eq_false_iff_not, rest] at hn
  unfold unpack
  dsimp only
  set neg : Bool := decide (x / 2 ^ (fmtWidth fmt - 1) % 2 = 1)
  set frac := x % 2 ^ fracBits fmt
  set exp := x / 2 ^ fracBits fmt % 2 ^ expBits fmt
  by_cases htop : exp = 2 ^ expBits fmt - 1
  · have hz : frac = 0 := by
      rw [htop] at hn
      unfold infBits at hn
      omega
    rw [if_pos htop, if_pos hz]
    rw [htop, hz] at fields
    exact fields.symm
  · have below : exp * 2 ^ fracBits fmt + frac < infBits fmt := by
      have : (exp + 1) * 2 ^ fracBits fmt ≤ (2 ^ expBits fmt - 1) * 2 ^ fracBits fmt := Nat.mul_le_mul_right _ (by omega)
      rw [Nat.add_mul] at this
      unfold infBits
      omega
    rw [if_neg htop]
    by_cases hsub : exp = 0
    · have code : codeOf (fracBits fmt) (fmtLow fmt) frac (fmtLow fmt) = frac := if_pos hfrac
      rw [if_pos hsub, packVal_of_fits rnd neg (le_refl _) (by rw [pow_succ]; omega) (fun _ => rfl) (by rw [code]; omega), code]
      rw [hsub, Nat.zero_mul, Nat.zero_add] at fields
      exact fields.symm
    · have code : codeOf (fracBits fmt) (fmtLow fmt) (2 ^ fracBits fmt + frac) (fmtLow fmt + ((exp - 1 : Nat) : Int)) =
          exp * 2 ^ fracBits fmt + frac := by
        have hk : (fmtLow fmt + ((exp - 1 : Nat) : Int) - fmtLow fmt).toNat + 1 = exp := by omega
        rw [codeOf, if_neg (by omega), hk]
        omega
      rw [if_neg hsub, packVal_of_fits rnd neg (by omega) (by rw [pow_succ]; omega) (by omega) (by rw [code]; exact below), code]
      exact fields.symm

/-! ## Float sources (R33, R79, R90) -/

theorem read32_v (x : Site) (i : Fin 768) : x.read32 (.v i) = x.reg (.v i.val) := by
  simp [Site.read32, Site.read, Site.regs]

/-- A packed register supplies its halves. -/
theorem half_eq (w : Word) {j : Nat} (hj : j < 2) : w.toNat % 2 ^ 32 / 65536 ^ j % 65536 = (w.extractLsb' (16 * j) 16).toNat := by
  have := w.isLt
  rw [Nat.mod_eq_of_lt this]
  interval_cases j <;> simp [BitVec.extractLsb'_toNat, Nat.shiftRight_eq_div_pow]

theorem constIn_zero (i : Fin 16) : constIn 0 i.val = (fltPattern i.val).toNat := by
  have num : isNan 0 (fltPattern i.val).toNat = false := by
    revert i
    decide
  exact packVal_unpack (by decide) (fltPattern i.val).isLt num

/-- Settles O21: sources by their bits, and rounding by its two neighbours. -/
theorem sourcesAndRounding : Obligations.SourcesAndRounding := by
  unfold Obligations.SourcesAndRounding
  refine ⟨⟨fun x m i j hj => ?_, fun x m i hm hx => ?_⟩, fun fmt rnd neg m e hf hr => roundsTo_packVal neg m e hf hr,
    fun fmt rnd x hf hx hn => packVal_unpack hf hx hn⟩
  · cases hx : m.x2 with
    | false => simp [elemAt, Site.fl, Site.float, hx, read32_v]
    | true => simp only [elemAt, Site.fl, Site.float, hx, if_true, read32_v, half_eq _ hj]
  · simp [elemAt, Site.fl, Site.float, hx, hm, constIn_zero]

end Sys2Proof.Rounding

/-! A feedback entry that is asked for and not appended (R115, R116, R227; O60). -/

namespace Sys2Proof.Feedback
open Machine

/-! ## A byte at a home slice after a write of path H (R242, R227) -/

theorem read_eq_none_of_forall {m : List Host.Cell} {a : Nat} (h : ∀ c ∈ m, c.1 ≠ a) : Memory.read m a = none := by
  induction m with
  | nil => rfl
  | cons c m ih =>
    obtain ⟨k, x⟩ := c
    rw [Memory.read, if_neg (h _ List.mem_cons_self), ih fun c hc => h c (List.mem_cons_of_mem _ hc)]

/-- Distinct bytes written into a memory are read back, and every other byte as before. -/
theorem read_writeAll {cells : List Host.Cell} (hn : (cells.map Prod.fst).Nodup) (m : List Host.Cell) (a : Nat) :
    Memory.read (Memory.writeAll m cells) a = (Memory.read cells a).or (Memory.read m a) := by
  induction cells generalizing m with
  | nil => rfl
  | cons c cells ih =>
    obtain ⟨k, x⟩ := c
    obtain ⟨hk, hn⟩ := List.nodup_cons.1 (by simpa using hn : (k :: cells.map Prod.fst).Nodup)
    have next := ih hn (Memory.write m k x)
    rw [Memory.writeAll, List.foldl_cons]
    rw [Memory.writeAll] at next
    rw [next]
    by_cases ha : k = a
    · subst ha
      have : Memory.read cells k = none := read_eq_none_of_forall fun c hc e => hk (e ▸ List.mem_map_of_mem hc)
      rw [this, Memory.read_write_same]
      simp [Memory.read]
    · rw [Memory.read_write_other m x (Ne.symm ha)]
      simp [Memory.read, ha]

/-- A byte at a home slice after a change of a die. -/
theorem homeByte_updDie {s : State} {d : Nat} (hd : d < s.dies.length) (f : Die → Die) (e a : Nat) :
    homeByte (updDie s d f) e a =
      if e = d then (Memory.read (f (getDie s d)).mem a).getD (baseByte s a) else homeByte s e a := by
  change (Memory.read (getDie (updDie s d f) e).mem a).getD (baseByte s a) = _
  split
  · rename_i h
    subst h
    simp [getDie, List.getD_eq_getElem?_getD, hd]
  · rename_i h
    simp [homeByte, getDie, List.getD_eq_getElem?_getD, Ne.symm h]

/-- A change of another die, or one that leaves the die's bytes. -/
theorem homeByte_updDie_of_mem (s : State) {d e : Nat} (f : Die → Die) (h : e ≠ d ∨ ∀ x, (f x).mem = x.mem) (a : Nat) :
    homeByte (updDie s d f) e a = homeByte s e a := by
  by_cases hd : d < s.dies.length
  · rw [homeByte_updDie hd]
    split
    · rename_i he
      rw [(h.resolve_left (· he)) _, he]
      rfl
    · rfl
  · have : updDie s d f = s := by simp [updDie, List.modify_eq_self (Nat.not_lt.1 hd)]
    rw [this]

theorem homeByte_performWith {s : State} {d : Nat} (hd : d < s.dies.length) (path : Path) (core : Option Nat)
    {cells : List Host.Cell} (hn : (cells.map Prod.fst).Nodup) (clears : Bool) (ends : List Nat) (flaws : Flaws) (e a : Nat) :
    homeByte (performWith s d path core cells clears ends flaws) e a =
      if e = d then (Memory.read cells a).getD (homeByte s d a) else homeByte s e a := by
  have hd' : d < (logWrite (countPages s (cells.map Prod.fst)) path core [] (cells.map Prod.fst)).dies.length := hd
  refine (homeByte_updDie hd' _ e a).trans (if_congr Iff.rfl ?_ rfl)
  rw [read_writeAll hn, Option.getD_or]
  rfl

theorem homeByte_exportAll (n : Nat) (s : State) (d e a : Nat) : homeByte (exportAll n s d) e a = homeByte s e a := by
  induction n generalizing s with
  | zero => rfl
  | succ n ih =>
    refine (ih (exportOne s d 0)).trans ?_
    unfold exportOne
    dsimp only
    split
    · rfl
    · split
      · rfl
      · refine (homeByte_updDie_of_mem _ _ ?_ a).trans (homeByte_updDie_of_mem _ _ ?_ a)
        · exact .inr fun _ => rfl
        · exact .inr fun _ => rfl

theorem homeByte_settle (n : Nat) (s : State) {d e : Nat} (h : e ≠ d) (a : Nat) : homeByte (settle n s d) e a = homeByte s e a := by
  induction n generalizing s with
  | zero => rfl
  | succ n ih =>
    refine (ih _).trans ?_
    unfold applyOne
    rw [homeByte_updDie_of_mem _ _ (.inl h), homeByte_updDie_of_mem _ _ (.inl h), homeByte_updDie_of_mem _ _ (.inl h)]

/-- The storage bytes that a write of path H reaches. -/
def hCells (s : State) (va : Nat) (bytes : List Byte) : List Host.Cell :=
  (cellsAt va bytes).filterMap fun c => match translateH s c.1 .write with
    | .ok a false => some (a, c.2)
    | _ => none

theorem homeByte_hWrite {s : State} (hd : 0 < s.dies.length) {va : Nat} {bytes : List Byte}
    (hn : ((hCells s va bytes).map Prod.fst).Nodup) (a : Nat) :
    homeByte (hWrite s va bytes) 0 a = (Memory.read (hCells s va bytes) a).getD (homeByte s 0 a) := by
  change homeByte (if (hCells s va bytes).isEmpty then s else toDevice (performAt s 0 .h none (hCells s va bytes)) 0) 0 a = _
  by_cases he : (hCells s va bytes).isEmpty = true
  · rw [if_pos he, List.isEmpty_iff.1 he]
    rfl
  · rw [if_neg he, toDevice, homeByte_settle _ _ (by decide), homeByte_exportAll, performAt, homeByte_performWith hd _ _ hn,
      if_pos rfl]

/-! ## An issue group that asks for an entry which the model does not append

`smp` appends no entry that an earlier thread of the issue group has asked for.  The model takes the question from the record of
that thread without a look at its level-of-detail flag, so a thread whose record is an ordinary one, and which therefore appends
nothing, stands in the way of a later one whose record differs in the flag alone. -/

/-- A buffer record at 4,096 of segment 1: with the level-of-detail flag or without it (R208). -/
def bufferAt4096 (lod : Bool) : BitVec 128 :=
  BitVec.ofNat 128 (4096 + 4 * 2 ^ 48 + 16 * 2 ^ 64 + 2 ^ 96 + if lod then 2 ^ 104 else 0)

/-- A descriptor of one level of 4 by 4 elements: its ring at the start of the board tier, its map at 8,192 there, and its
elements at 12,288 of the segment (R223). -/
def descriptor : List Byte :=
  toBytes (BitVec.ofNat 128 (4 * 2 ^ 32 + 4 * 2 ^ 48 + (boardVa + 8192) * 2 ^ 64)) 16 ++ toBytes (BitVec.ofNat 128 boardVa) 16 ++
    List.replicate 32 0 ++ toBytes (BitVec.ofNat 128 12288) 16 ++ List.replicate 48 0

/-- Storage: a ring header of capacity 0 at 0 (R227), the descriptor at 4,096, and a map with no resident page at 8,192. -/
def storage : List Host.Cell :=
  cellsAt (tierBase 1) (List.replicate 17 0) ++ cellsAt (tierBase 1 + 4096) descriptor ++ [(tierBase 1 + 8192, 0)]

/-- `smp` of element 0 through b6. -/
def sampled : MemWord ModMM := ⟨⟨false, 0, none⟩, ⟨6, false, 0, 0⟩, .v 4, .zero, 6, 0⟩

def samplePass : Pass :=
  { placedPass with
    regs := 64
    segs := placedPass.segs.headD 0 :: BitVec.ofNat 128 (boardVa + 65536 * 2 ^ 48 + 2 ^ 96) :: List.replicate 6 0
    bufs := List.replicate 6 0 ++ [bufferAt4096 false] ++ List.replicate 25 0 }

/-- The thread of lane 0 finds no level-of-detail flag in b6; the one of lane 1 has loaded a record with the flag. -/
def sampleThreads : List Thread :=
  let first := { newThread samplePass 0 0 0 with status := .running }
  [first, { first with lane := 1, seg := { first.seg with results := [⟨0, false, true, [.b 6 (bufferAt4096 true)], 0⟩] } }]

def sampleBurst : Burst := { placedBurst 1 with groups := [[⟨1, 0, 0⟩, ⟨1, 0, 1⟩]] }

/-- Board storage is mapped for core 0 and for the ring alike. -/
def boardRange : Range := ⟨boardVa, 65536, tierBase 1, true, true⟩

/-- Core 0 at the word; byte 16 of the board tier differs between the dies. -/
def sampleState : State :=
  let s := placeWord State.reset ((Instr.smp sampled).word.getD 0).toNat
  let s := updCore s 0 fun c => { c with
    ranges := boardRange :: c.ranges, burst := some sampleBurst
    sCache := [⟨tierBase 1 + 4096, descriptor.map fun x => (x, 0), Flaws.none⟩] }
  { s with
    groups := [{ freshGroup samplePass 0 (newGroup 1 4 0 0 0 0) with
      phase := .resident, core := some 0, lcore := some 0, threads := sampleThreads }]
    graphs := [⟨4, 0, 0, false, 0, [samplePass], [], [], [], false, []⟩]
    rangeList := [boardRange]
    dies := (s.dies.map fun d => { d with mem := Memory.writeAll d.mem storage }).modify 1
      fun d => { d with mem := Memory.write d.mem (tierBase 1 + 16) 1 } }

def sampleSites : List Site := turnSites sampleState sampleState.focus sampleBurst (.smp sampled)

/-- The state after the word. -/
def sampledState : State :=
  match exec (.smp sampled) sampleState with
  | .next t => t
  | _ => sampleState

theorem exec_sampled : exec (.smp sampled) sampleState = .next sampledState := by
  have goes : (match exec (.smp sampled) sampleState with
    | .next _ => true
    | _ => false) = true := by decide +kernel
  unfold sampledState
  cases h : exec (.smp sampled) sampleState with
  | next t => rfl
  | _ => simp [h] at goes

theorem sampleSites_proceed : sampleSites.all (fun x => Proceeds (.smp sampled) x) = true := by decide +kernel

theorem sampleSites_free : sampleSites.all (fun x => !sampleHeld sampled.buf sampled.m.type.toNat
    (fun x => (x.read32 sampled.a).toInt + sampled.off.toInt) (fun _ => 0) x) = true := by decide +kernel

/-- One thread asks for the entry 0 of the ring at the start of the board tier, and no other entry is asked for. -/
theorem sampleSites_ask : (sampleSites.any fun x => Clear (.smp sampled) x && feedbackDue x (.smp sampled) = some (boardVa, 0)) = true ∧
    (sampleSites.all fun x => feedbackDue x (.smp sampled) = none || feedbackDue x (.smp sampled) = some (boardVa, 0)) = true := by
  decide +kernel

/-- The word leaves the ring's `drop_count` as it was. -/
theorem dropCount_sampled : homeByte sampledState 0 (tierBase 1 + 12) = 0 := by
  have kept : (match exec (.smp sampled) sampleState with
    | .next t => homeByte t 0 (tierBase 1 + 12)
    | _ => 1) = 0 := by decide +kernel
  rwa [exec_sampled] at kept

theorem dies_differ : homeByte sampleState 0 (tierBase 1 + 16) ≠ homeByte sampleState 1 (tierBase 1 + 16) := by decide +kernel

theorem ringHead_sample : ringHead sampleState boardVa = some ⟨0, 0, 0, 0⟩ := by decide +kernel

theorem translateH_sample : ∀ i < 4, translateH sampleState (boardVa + 12 + i) .write = .ok (tierBase 1 + 12 + i) false := by
  decide +kernel

theorem atWord_sample : AtWord sampleState sampleBurst := by decide +kernel

/-- An entry appended to the ring counts in its `drop_count`, whatever else the state holds (R227). -/
theorem dropCount_append {u : State} (h : SameStore sampleState u) :
    homeByte (feedbackAppend u boardVa 0) 0 (tierBase 1 + 12) = 1 := by
  have dies : 0 < u.dies.length := by
    by_contra hd
    have empty : u.dies = [] := List.eq_nil_of_length_eq_zero (by omega)
    refine dies_differ ?_
    rw [← h.memory.homes, ← h.memory.homes]
    simp [homeByte, getDie, empty]
  have head : ringHead u boardVa = some ⟨0, 0, 0, 0⟩ := by
    rw [← ringHead_sample]
    simp only [ringHead, hRead, h.places, h.memory.homes]
  have at_ : ∀ i < 4, translateH u (boardVa + 12 + i) .write = .ok (tierBase 1 + 12 + i) false := fun i hi => by
    rw [h.places, translateH_sample i hi]
  have bytes : toBytes (BitVec.ofNat 32 1) 4 = [1, 0, 0, 0] := by decide
  have cells : hCells u (boardVa + 12) (toBytes (BitVec.ofNat 32 1) 4) =
      [(tierBase 1 + 12 + 0, 1), (tierBase 1 + 12 + 1, 0), (tierBase 1 + 12 + 2, 0), (tierBase 1 + 12 + 3, 0)] := by
    have h0 := at_ 0 (by decide)
    have h1 := at_ 1 (by decide)
    have h2 := at_ 2 (by decide)
    have h3 := at_ 3 (by decide)
    rw [Nat.add_zero] at h0
    simp [bytes, hCells, cellsAt, add_assoc] at h0 h1 h2 h3 ⊢
    simp [h0, h1, h2, h3]
  have full : (⟨0, 0, 0, 0⟩ : RingHead).full = true := by decide
  unfold feedbackAppend
  simp only [head, full, if_true]
  rw [homeByte_hWrite dies (by rw [cells]; simp), cells]
  simp [Memory.read]

/-- Refutes O60: the second thread of `sampleState` asks for an entry that `smp` does not append. -/
theorem not_wordsOnlyHoldWork : ¬ Obligations.WordsOnlyHoldWork := by
  unfold Obligations.WordsOnlyHoldWork
  intro h
  obtain ⟨-, appends, -⟩ := h
  obtain ⟨es, happ, hnodup, hes⟩ := appends (.smp sampled) sampleState sampledState sampleBurst _ rfl atWord_sample
    (fun x hx => List.all_eq_true.1 sampleSites_proceed x hx)
    (fun x hx _ => by simpa using List.all_eq_true.1 sampleSites_free x hx) exec_sampled
  have asked : (boardVa, 0) ∈ es := by
    obtain ⟨x, hx, hc⟩ := List.any_eq_true.1 sampleSites_ask.1
    rw [Bool.and_eq_true, decide_eq_true_eq] at hc
    exact (hes _).2 ⟨x, hx, hc⟩
  have only : ∀ f ∈ es, f = (boardVa, 0) := by
    intro f hf
    obtain ⟨x, hx, -, hd⟩ := (hes f).1 hf
    have := List.all_eq_true.1 sampleSites_ask.2 x hx
    rw [hd] at this
    simpa using this
  obtain rfl : es = [(boardVa, 0)] := by
    rw [List.eq_replicate_of_mem only] at hnodup asked ⊢
    have le := List.nodup_replicate.1 hnodup
    have pos := List.length_pos_of_mem asked
    rw [List.length_replicate] at pos
    rw [show es.length = 1 by omega]
    rfl
  obtain ⟨u, hu, ht⟩ := happ
  have := ht.memory.homes 0 (tierBase 1 + 12)
  rw [dropCount_append hu, dropCount_sampled] at this
  exact absurd this (by decide)

end Sys2Proof.Feedback

/-! The selector: clause entry, the choice of an entry, the start of a burst, load return and replay (R22, R58, R107, R110,
R188-R191, R197, R198; O45). -/

namespace Sys2Proof.Selector
open Machine Storage Faults

/-! ## Clause entry (R58 step 1) -/

/-- Every group found is one of the first state's, with its segment registers. -/
def SameSegments (s t : State) : Prop := t = { s with groups := t.groups } ∧
  ∀ n g, findGroup t n = some g → ∃ h, findGroup s n = some h ∧
    g.g = h.g ∧ g.marks = h.marks ∧ g.ctx = h.ctx ∧ g.stage = h.stage

theorem SameSegments.refl (s : State) : SameSegments s s := ⟨rfl, fun _ g h => ⟨g, h, rfl, rfl, rfl, rfl⟩⟩

theorem SameSegments.upd {s t : State} (h : SameSegments s t) (u : ThreadRef) (f : Thread → Thread) :
    SameSegments s (updThread t u f) := by
  refine ⟨by rw [updThread, updGroup, h.1], fun n g hg => ?_⟩
  rw [updThread, findGroup_updGroup t u.group n (fun g => g.updThread u.row u.lane f) fun _ => rfl] at hg
  obtain ⟨g', hg', rfl⟩ := Option.map_eq_some_iff.1 hg
  obtain ⟨h', found, same⟩ := h.2 n g' hg'
  refine ⟨h', found, ?_⟩
  split
  · exact same
  · exact same

theorem SameSegments.fetch {s t : State} (h : SameSegments s t) (k : Nat) : SameFetch s t k := by
  obtain ⟨h, -⟩ := h
  rw [h]
  exact ⟨⟨fun _ _ => rfl, rfl, rfl, rfl, rfl⟩, rfl, rfl, rfl⟩

/-- A core fetches alike for groups with the same segment registers. -/
theorem clauseTrouble_congr {s t : State} {k : Nat} (h : SameFetch s t k) {g g' : Group} (hg : g'.g = g.g)
    (hm : g'.marks = g.marks) (p : Pass) (r : ThreadRef) (hdr : Nat) :
    clauseTrouble t k g' p r hdr = clauseTrouble s k g p r hdr := by
  have loc : ∀ off, codeLoc t k g' off = codeLoc s k g off := fun off => by
    simp only [codeLoc, h.translate, hg]
  have word : ∀ off, codeWord t k g' off = codeWord s k g off := fun off => by
    simp only [codeWord, loc, codeByte, h.code, h.storage.homes]
  have words : ∀ off n, codeWords t k g' off n = codeWords s k g off n := fun off n => by
    simp only [codeWords, word]
  have fetch : ∀ off n, fetchTrouble t k g' off n = fetchTrouble s k g off n := fun off n => by
    simp only [fetchTrouble, loc, hg]
  simp only [clauseTrouble, word, words, fetch, hg, hm]

/-- Threads that meet no trouble enter the clause: nothing changes but what their segments note. -/
theorem sameSegments_enterThreads {s : State} {k : Nat} {b : Burst} (ts : List ThreadRef)
    (h : ∀ t ∈ ts, ∃ g th p, findThread s t = some (g, th) ∧ findPass s g.ctx g.stage = some p ∧
      clauseTrouble s k (g.via b.base) p t b.hdr.toNat = none) :
    SameSegments s (ts.foldl (enterThread k b) s) := by
  refine List.foldlRecOn ts _ (.refl s) fun s1 h1 t ht => ?_
  obtain ⟨g, th, p, hf, hp, hc⟩ := h t ht
  obtain ⟨hg, -⟩ := findThread_spec hf
  unfold enterThread
  split
  · exact h1
  · rename_i g1 th1 hf1
    obtain ⟨hg1, -⟩ := findThread_spec hf1
    obtain ⟨g', hg', e1, e2, e3, e4⟩ := h1.2 _ _ hg1
    obtain rfl : g = g' := Option.some.inj (hg.symm.trans hg')
    have hp1 : findPass s1 g1.ctx g1.stage = some p := by rw [e3, e4, h1.1]; exact hp
    have hc1 := clauseTrouble_congr (h1.fetch k) (g := g.via b.base) (g' := g1.via b.base)
      (by simp [Group.via, e1]) e2 p t b.hdr.toNat
    rw [hp1]
    dsimp only
    rw [hc1, hc]
    exact h1.upd _ _

theorem getCore_updCore_same {s : State} {k : Nat} {c : Core} (h : s.cores[k]? = some c) (f : Core → Core) :
    getCore (updCore s k f) k = f c := by
  simp [getCore, List.getD_eq_getElem?_getD, h]

theorem clauseEnter_next {s : State} {core : Nat} {c : Core} {b : Burst} (hc : s.cores[core]? = some c)
    (hb : c.burst = some b) (he : b.entered = false) (hm : clauseMoves s core b = false)
    (hh : ∀ t ∈ b.groups.flatten, heldAtClause s core b t = false) :
    exec (.clauseEnter core) s = .next (updCore (b.groups.flatten.foldl (enterThread core b) s) core
      fun c => { c with burst := c.burst.bind (enteredBurst (clauseWords s core b)) }) := by
  have hany : b.groups.flatten.any (heldAtClause s core b) = false :=
    List.any_eq_false.2 fun t ht => by simp [hh t ht]
  change execClauseEnter core s = _
  simp only [execClauseEnter, onCore, hc, hb, he, hm, hany]
  rfl

/-! ## What a fault leaves of the bursts -/

/-- Every core keeps its burst. -/
def SameBursts (s t : State) : Prop := ∀ k : Nat, (t.cores[k]?).map Core.burst = (s.cores[k]?).map Core.burst

theorem SameBursts.refl (s : State) : SameBursts s s := fun _ => rfl

theorem SameBursts.trans {a b c : State} (h : SameBursts a b) (g : SameBursts b c) : SameBursts a c :=
  fun k => (g k).trans (h k)

theorem SameBursts.of_cores {s t : State} (h : t.cores = s.cores) : SameBursts s t := fun k => by rw [h]

theorem SameBursts.some {s t : State} (h : SameBursts s t) {k : Nat} {c : Core} (hc : s.cores[k]? = some c) :
    ∃ c', t.cores[k]? = some c' ∧ c'.burst = c.burst := by
  have := h k
  rw [hc] at this
  exact Option.map_eq_some_iff.1 this

theorem sameBursts_updCore (s : State) (j : Nat) (f : Core → Core) (hf : ∀ c, (f c).burst = c.burst) :
    SameBursts s (updCore s j f) := by
  intro k
  rw [updCore_cores, List.getElem?_modify]
  cases s.cores[k]? with
  | none => rfl
  | some c => split <;> simp [hf]

theorem sameBursts_bump (s : State) (k e : Nat) (st : Option Nat) (n : Nat) : SameBursts s (bump s k e st n) :=
  sameBursts_updCore s k _ fun _ => rfl

theorem sameBursts_unspill (s : State) (k : Nat) : SameBursts s (unspill s k) := by
  unfold unspill
  dsimp only
  split
  · split
    · exact sameBursts_updCore s k _ fun _ => rfl
    · exact sameBursts_updCore s k _ fun _ => rfl
  · exact .refl s

theorem sameBursts_newEntry (s : State) (k : Nat) (t : ThreadRef) (key : EntryKey) (pc hdr : Word) :
    SameBursts s (newEntry s k t key pc hdr) := by
  unfold newEntry
  dsimp only
  split
  · exact sameBursts_updCore s k _ fun _ => rfl
  · split
    · exact sameBursts_updCore s k _ fun _ => rfl
    · exact sameBursts_updCore s k _ fun _ => rfl

theorem sameBursts_leaveTable (s : State) (k : Nat) (t : ThreadRef) :
    SameBursts s (unspill (updCore s k fun c => leaveTable c t) k) :=
  (sameBursts_updCore s k (fun c => leaveTable c t) fun _ => rfl).trans (sameBursts_unspill _ k)

theorem sameBursts_joinTable (s : State) (t : ThreadRef) : SameBursts s (joinTable s t) := by
  unfold joinTable
  split
  · exact .refl s
  · split
    · exact .refl s
    · rename_i k _
      dsimp only
      split
      · exact .refl s
      · refine (sameBursts_leaveTable s k t).trans ?_
        split
        · exact sameBursts_updCore _ k _ fun _ => rfl
        · exact sameBursts_newEntry _ _ _ _ _ _

theorem sameBursts_leaveCore (s : State) (t : ThreadRef) : SameBursts s (leaveCore s t) := by
  unfold leaveCore
  split
  · split
    · exact sameBursts_leaveTable s _ t
    · exact .refl s
  · exact .refl s

theorem sameBursts_makeReady (s : State) (t : ThreadRef) : SameBursts s (makeReady s t) := by
  unfold makeReady
  split
  · exact .refl s
  · exact .trans (.of_cores rfl) (sameBursts_joinTable _ t)

theorem faultNotice_cores (s : State) (p : Payload) (key : FaultKey × BitVec 8) : (faultNotice s p key).1.cores = s.cores := by
  unfold faultNotice
  split <;> rfl

theorem sameBursts_parkHost (s : State) (t : ThreadRef) (r : Record) : SameBursts s (parkHost s t r) := by
  unfold parkHost
  split
  · exact .refl s
  · exact .trans (.of_cores (faultNotice_cores s _ _)) (sameBursts_joinTable _ t)

theorem sameBursts_deliver (s : State) (t : ThreadRef) (v : Word) (r : Record) : SameBursts s (deliver s t v r) :=
  .trans (.of_cores rfl) (sameBursts_makeReady _ t)

theorem sameBursts_routeVector (s : State) (t : ThreadRef) (r : Record) : SameBursts s (routeVector s t r) := by
  unfold routeVector
  split
  · exact .refl s
  · split
    · exact sameBursts_parkHost s t r
    · split
      · exact sameBursts_deliver s t _ r
      · exact sameBursts_parkHost s t r

theorem sameBursts_routeProcessor (s : State) (t : ThreadRef) (r : Record) : SameBursts s (routeProcessor s t r) := by
  unfold routeProcessor
  split
  · exact .refl s
  · exact .trans (.of_cores (faultNotice_cores s _ _)) (sameBursts_joinTable _ t)

theorem sameBursts_routeSupervisor (s : State) (t : ThreadRef) (r : Record) : SameBursts s (routeSupervisor s t r) :=
  .trans (.of_cores rfl) (sameBursts_makeReady _ t)

theorem sameBursts_takeFault (s : State) (t : ThreadRef) (r : Record) (split : Bool) : SameBursts s (takeFault s t r split) := by
  unfold takeFault
  split
  · exact .refl s
  · rename_i g th _
    refine (sameBursts_bump s (g.core.getD 0) 10 (some g.stage) 1).trans ?_
    dsimp only
    split
    · exact sameBursts_parkHost _ t r
    · split
      · exact sameBursts_routeSupervisor _ t r
      · split
        · exact sameBursts_routeProcessor _ t r
        all_goals exact sameBursts_routeVector _ t r

/-- A burst whose one thread faults at the clause ends. -/
theorem clauseEnter_alone {s : State} {core : Nat} {c : Core} {b : Burst} {t : ThreadRef} {g : Group} {th : Thread} {p : Pass}
    {x : Trouble} (hc : s.cores[core]? = some c) (hb : c.burst = some b) (ht : b.groups.flatten = [t])
    (hf : findThread s t = some (g, th)) (hp : findPass s g.ctx g.stage = some p)
    (hx : clauseTrouble s core (g.via b.base) p t b.hdr.toNat = some x) (words : List (Nat × Wide)) :
    let s' := updCore (b.groups.flatten.foldl (enterThread core b) s) core
      fun c => { c with burst := c.burst.bind (enteredBurst words) }
    (getCore s' core).burst = none ∧ ThreadIs s' t fun th' => th'.seg.results = [] ∧ th'.v = th.v := by
  have enter : b.groups.flatten.foldl (enterThread core b) s =
      takeFault (leaveBurst s core t) t (clauseRecord x th.seg b.hdr) false := by
    rw [ht]
    simp [enterThread, hf, hp, hx]
  intro s'
  constructor
  · have left : (leaveBurst s core t).cores[core]? = some { c with burst := some { b with groups := dropThread b.groups t } } := by
      simp [leaveBurst, hc, hb]
    obtain ⟨c', hc', hb'⟩ := (sameBursts_takeFault _ t (clauseRecord x th.seg b.hdr) false).some left
    rw [← enter] at hc'
    have empty : (dropThread b.groups t).flatten = [] := by
      rw [dropThread, ← List.filter_flatten, ht]
      simp
    change (getCore (updCore _ _ _) core).burst = _
    rw [getCore_updCore_same hc', hb']
    simp [enteredBurst, empty]
  · have here : ThreadIs (leaveBurst s core t) t (· = th) := threadIs_of_groups (leaveBurst_groups s core t) (threadIs_of_find hf rfl)
    refine threadIs_of_groups (s := b.groups.flatten.foldl (enterThread core b) s) rfl ?_
    rw [enter]
    refine threadIs_mono (discarded_takeFault false here) fun u hd => ?_
    obtain ⟨pc, hdr, hseg⟩ := hd.seg
    exact ⟨by rw [hseg]; rfl, hd.v⟩

end Sys2Proof.Selector

/-! Which entry is chosen, how its burst starts, what a load returns, and which segments are executed again (R107, R110, R189,
R190, R197, R198; O45). -/

namespace Sys2Proof.Selector
open Machine Storage Faults

/-! ## The choice of an entry (R189) -/

theorem entryBeats_asymm {now : Nat} {x y : WaitEntry × List Pick} (h : entryBeats now x y = true) :
    entryBeats now y x = false := by
  simp only [entryBeats, Bool.eq_false_iff, ne_eq] at *
  generalize decide (1024 < now - stampOf x.2) = lx at *
  generalize decide (1024 < now - stampOf y.2) = ly at *
  cases lx <;> cases ly <;> simp at * <;> omega

/-- What beats an entry beats every entry that does not beat it. -/
theorem entryBeats_of_not {now : Nat} {x y z : WaitEntry × List Pick} (h : entryBeats now x y = true)
    (g : entryBeats now z y = false) : entryBeats now x z = true := by
  simp only [entryBeats, Bool.eq_false_iff, ne_eq] at *
  generalize decide (1024 < now - stampOf x.2) = lx at *
  generalize decide (1024 < now - stampOf y.2) = ly at *
  generalize decide (1024 < now - stampOf z.2) = lz at *
  cases lx <;> cases ly <;> cases lz <;> simp at * <;> omega

/-- The better of two candidates. -/
def better (now : Nat) (best : Option (WaitEntry × List Pick)) (x : WaitEntry × List Pick) : Option (WaitEntry × List Pick) :=
  match best with
  | none => some x
  | some y => if entryBeats now x y then some x else some y

/-- The last of the better candidates is one of them, and no candidate beats it. -/
theorem better_foldl {now : Nat} (l : List (WaitEntry × List Pick)) (best : Option (WaitEntry × List Pick))
    {e : WaitEntry × List Pick} (h : l.foldl (better now) best = some e) :
    (e ∈ l ∨ best = some e) ∧ (∀ x ∈ l, entryBeats now x e = false) ∧ ∀ y, best = some y → entryBeats now y e = false := by
  induction l generalizing best with
  | nil =>
    refine ⟨.inr h, by simp, fun y hy => ?_⟩
    obtain rfl : e = y := Option.some.inj (h.symm.trans hy)
    exact Bool.eq_false_iff.2 fun h => absurd (entryBeats_asymm h) (by simp [h])
  | cons x l ih =>
    obtain ⟨hm, hl, hb⟩ := ih _ h
    cases best with
    | none =>
      have hx : entryBeats now x e = false := hb x rfl
      refine ⟨.inl ?_, by simpa [hx] using hl, by simp⟩
      rcases hm with hm | hm
      · exact List.mem_cons_of_mem _ hm
      · cases hm
        exact List.mem_cons_self
    | some y =>
      by_cases hxy : entryBeats now x y = true
      · rw [better, if_pos hxy] at hm hb
        have hx := hb x rfl
        have hy : entryBeats now y e = false :=
          Bool.eq_false_iff.2 fun h => absurd (entryBeats_asymm (entryBeats_of_not h hx)) (by simp [hxy])
        refine ⟨.inl ?_, by simpa [hx] using hl, fun z hz => Option.some.inj hz ▸ hy⟩
        rcases hm with hm | hm
        · exact List.mem_cons_of_mem _ hm
        · exact Option.some.inj hm ▸ List.mem_cons_self
      · rw [better, if_neg hxy] at hm hb
        have hx : entryBeats now x e = false := Bool.eq_false_iff.2 fun h => hxy (entryBeats_of_not h (hb y rfl))
        exact ⟨hm.imp_left (List.mem_cons_of_mem _), by simpa [hx] using hl, hb⟩

/-- The entries with units to choose from. -/
def candidates (s : State) (k : Nat) : List (WaitEntry × List Pick) :=
  (getCore s k).table.filterMap fun e =>
    if (unitsOf s k e).isEmpty || some e.key = none then none else some (e, unitsOf s k e)

theorem mem_candidates {s : State} {k : Nat} {e : WaitEntry} {us : List Pick} :
    (e, us) ∈ candidates s k ↔ e ∈ (getCore s k).table ∧ unitsOf s k e = us ∧ us ≠ [] := by
  simp only [candidates, List.mem_filterMap]
  constructor
  · rintro ⟨e', he', h⟩
    split at h
    · cases h
    · cases h
      simp_all
  · rintro ⟨he, rfl, hne⟩
    exact ⟨e, he, by simp [hne]⟩

theorem chooseEntry_spec {s : State} {k : Nat} {e : WaitEntry} {us : List Pick} (h : chooseEntry s k none = some (e, us)) :
    e ∈ (getCore s k).table ∧ unitsOf s k e = us ∧ us ≠ [] ∧ ∀ e' ∈ (getCore s k).table, unitsOf s k e' ≠ [] →
      entryBeats (getCore s k).cycles.toNat (e', unitsOf s k e') (e, us) = false := by
  change (candidates s k).foldl (better (getCore s k).cycles.toNat) none = _ at h
  obtain ⟨hm, hl, -⟩ := better_foldl _ _ h
  obtain ⟨he, hus, hne⟩ := mem_candidates.1 (hm.resolve_right (by simp))
  exact ⟨he, hus, hne, fun e' he' hne' => hl _ (mem_candidates.2 ⟨he', rfl, hne'⟩)⟩

/-! ## The start of a burst (R190) -/

/-- A thread, where there is one, runs. -/
def Runs (u : ThreadRef) (s : State) : Prop := IfThread s u fun th => th.status = .running

theorem runs_of_groups {s t : State} (h : t.groups = s.groups) {u : ThreadRef} (hu : Runs u s) : Runs u t :=
  fun th ht => hu th ((threadOf_congr h u).symm.trans ht)

/-- Steps that make their own threads run and stop none make every one of theirs run. -/
theorem foldl_runs {α : Type} {f : State → α → State} {own : α → List ThreadRef}
    (make : ∀ s x, ∀ u ∈ own x, Runs u (f s x)) (keep : ∀ s x u, Runs u s → Runs u (f s x)) (l : List α) (s : State) :
    (∀ u, Runs u s → Runs u (l.foldl f s)) ∧ ∀ x ∈ l, ∀ u ∈ own x, Runs u (l.foldl f s) := by
  induction l generalizing s with
  | nil => exact ⟨fun _ h => h, by simp⟩
  | cons x l ih =>
    obtain ⟨kept, made⟩ := ih (f s x)
    refine ⟨fun u hu => kept u (keep s x u hu), fun y hy u hu => ?_⟩
    rcases List.mem_cons.1 hy with rfl | hy
    · exact kept u (make s y u hu)
    · exact made y hy u hu

theorem runs_updThread {s : State} {t u : ThreadRef} {f : Thread → Thread} (hf : KeepsPlace f)
    (run : ∀ th, (f th).status = .running) (h : Runs u s ∨ u = t) : Runs u (updThread s t f) := by
  intro th ht
  by_cases hu : u = t
  · subst hu
    obtain ⟨th', -, rfl⟩ := Option.map_eq_some_iff.1 ((threadOf_updThread_same s u f hf).symm.trans ht)
    exact run th'
  · exact h.resolve_right hu th ((threadOf_updThread_other s f hf hu).symm.trans ht)

theorem runs_runUnit {ig unit : Nat} {closure : BitVec 128} {s : State} {t u : ThreadRef} (h : Runs u s ∨ u = t) :
    Runs u (runUnit ig unit closure s t) :=
  runs_of_groups (leaveCore_groups _ t) (runs_updThread (fun _ => ⟨rfl, rfl⟩) (fun _ => rfl) h)

theorem runs_runThreads (ig unit : Nat) (closure : BitVec 128) (ts : List ThreadRef) (s : State) :
    (∀ u, Runs u s → Runs u (ts.foldl (runUnit ig unit closure) s)) ∧
    ∀ u ∈ ts, Runs u (ts.foldl (runUnit ig unit closure) s) := by
  obtain ⟨kept, made⟩ := foldl_runs (f := runUnit ig unit closure) (own := fun t => [t])
    (fun s t u hu => runs_runUnit (.inr (List.mem_singleton.1 hu)))
    (fun s t u hu => runs_runUnit (.inl hu)) ts s
  exact ⟨kept, fun u hu => made u hu u (List.mem_singleton_self u)⟩

theorem runs_runGroup (s : State) (gather : Bool) (ig : Nat) (us : List Pick) :
    (∀ u, Runs u s → Runs u (runGroup s gather ig us)) ∧ ∀ p ∈ us, ∀ u ∈ p.threads, Runs u (runGroup s gather ig us) := by
  obtain ⟨kept, made⟩ := foldl_runs
    (f := fun s (x : Nat × Pick) => x.2.threads.foldl (runUnit ig x.1 (if gather then x.2.lanes else 0)) s)
    (own := fun x => x.2.threads)
    (fun s x => (runs_runThreads ig x.1 _ x.2.threads s).2) (fun s x => (runs_runThreads ig x.1 _ x.2.threads s).1)
    (us.mapIdx fun i u => (i + 1, u)) s
  refine ⟨kept, fun p hp u hu => ?_⟩
  obtain ⟨i, hi, rfl⟩ := List.getElem_of_mem hp
  exact made (i + 1, us[i]) (List.mem_mapIdx.2 ⟨i, hi, rfl⟩) u hu

theorem sameBursts_foldl {α : Type} {f : State → α → State} (hf : ∀ s x, SameBursts s (f s x)) (l : List α) (s : State) :
    SameBursts s (l.foldl f s) :=
  Lines.foldl_rel .refl (fun h g => h.trans g) l (fun s x _ => hf s x) s

theorem sameBursts_runGroup (s : State) (gather : Bool) (ig : Nat) (us : List Pick) :
    SameBursts s (runGroup s gather ig us) :=
  sameBursts_foldl (α := Nat × Pick) (fun _ x => sameBursts_foldl (fun s t =>
    SameBursts.trans (b := updThread s t _) (.of_cores rfl) (sameBursts_leaveCore _ t)) x.2.threads _) _ s

theorem mem_insertLane {t u : ThreadRef} {l : List ThreadRef} (h : u ∈ insertLane t l) : u = t ∨ u ∈ l := by
  induction l with
  | nil => simpa [insertLane] using h
  | cons v l ih =>
    unfold insertLane at h
    split at h
    · simpa using h
    · rcases List.mem_cons.1 h with rfl | h
      · simp
      · rcases ih h with h | h <;> simp [h]

theorem mem_sortLanes {u : ThreadRef} {l : List ThreadRef} (h : u ∈ l.foldr insertLane []) : u ∈ l := by
  induction l with
  | nil => exact h
  | cons t l ih =>
    rcases mem_insertLane h with rfl | h
    · exact List.mem_cons_self
    · exact List.mem_cons_of_mem _ (ih h)

theorem length_formGroups (n : Nat) (pool : List Pick) : (formGroups n pool).length ≤ n := by
  induction n generalizing pool with
  | zero => simp [formGroups]
  | succ n ih =>
    unfold formGroups
    split
    · simp
    · simpa using ih _

/-- The issue groups of a burst leave the table, each with its number. -/
def runGroups (s : State) (gather : Bool) (n : Nat) (igs : List (List Pick)) : State :=
  (igs.mapIdx fun i ig => (n + i, ig)).foldl (fun s (n, ig) => runGroup s gather n ig) s

theorem runs_runGroups (s : State) (gather : Bool) (n : Nat) (igs : List (List Pick)) {ig : List Pick} (hig : ig ∈ igs)
    {p : Pick} (hp : p ∈ ig) {u : ThreadRef} (hu : u ∈ p.threads) : Runs u (runGroups s gather n igs) := by
  obtain ⟨i, hi, rfl⟩ := List.getElem_of_mem hig
  exact (foldl_runs (f := fun s (x : Nat × List Pick) => runGroup s gather x.1 x.2)
    (own := fun x => x.2.flatMap Pick.threads)
    (fun s x u hu => by
      obtain ⟨p, hp, hu⟩ := List.mem_flatMap.1 hu
      exact (runs_runGroup s gather x.1 x.2).2 p hp u hu)
    (fun s x => (runs_runGroup s gather x.1 x.2).1) _ s).2 (n + i, igs[i]) (List.mem_mapIdx.2 ⟨i, hi, rfl⟩) u
      (List.mem_flatMap.2 ⟨p, hp, hu⟩)

theorem sameBursts_runGroups (s : State) (gather : Bool) (n : Nat) (igs : List (List Pick)) :
    SameBursts s (runGroups s gather n igs) :=
  sameBursts_foldl (α := Nat × List Pick) (fun s x => sameBursts_runGroup s gather x.1 x.2) _ s

/-- The burst of an entry, with the issue groups `igs`. -/
def newBurst (e : WaitEntry) (igs : List (List Pick)) (pc hdr : Word) : Burst :=
  ⟨e.key, igs.map fun ig => (ig.flatMap Pick.threads).foldr insertLane [], hdr, pc, false, 0,
    (e.key.addr + 2 ^ 48 - pc.toNat) % 2 ^ 48, [], []⟩

theorem startBurst_eq {s : State} {k : Nat} {e : WaitEntry} {us : List Pick} {pc hdr : Word}
    (hp : (sortPicks us).head?.bind (pickPlace s) = some (pc, hdr)) : ∃ gather igs, igs.length ≤ 32 ∧
      startBurst s k e us = bump (updCore (runGroups { s with serial := s.serial + igs.length } gather (s.serial + 1) igs) k
        fun c => { c with chosen := none, burst := some (newBurst e igs pc hdr) }) k 5 (some e.key.stage) 1 := by
  refine ⟨((sortPicks us).head?.map (pickGathers s k)).getD false, _,
    length_formGroups 32 ((sortPicks us).filter fun p => pickPlace s p = some (pc, hdr)), ?_⟩
  unfold startBurst
  rw [hp]
  rfl

theorem burst_bump (s : State) (j e : Nat) (st : Option Nat) (n k : Nat) :
    (getCore (bump s j e st n) k).burst = (getCore s k).burst :=
  getCore_updCore_field s j k _ Core.burst fun _ => rfl

theorem startBurst_spec {s : State} {k : Nat} {c : Core} {e : WaitEntry} {us : List Pick} {pc hdr : Word}
    (hc : s.cores[k]? = some c) (hp : (sortPicks us).head?.bind (pickPlace s) = some (pc, hdr)) :
    ∃ b, (getCore (startBurst s k e us) k).burst = some b ∧ b.key = e.key ∧ b.hdr = hdr ∧ b.pc = pc ∧ b.entered = false ∧
      b.groups.length ≤ 32 ∧ ∀ u ∈ b.groups.flatten, Runs u (startBurst s k e us) := by
  obtain ⟨gather, igs, hlen, heq⟩ := startBurst_eq hp
  obtain ⟨c', hc', -⟩ := (sameBursts_runGroups { s with serial := s.serial + igs.length } gather (s.serial + 1) igs).some
    (c := c) hc
  refine ⟨newBurst e igs pc hdr, ?_, rfl, rfl, rfl, rfl, by simpa [newBurst] using hlen, fun u hu => ?_⟩
  · rw [heq, burst_bump, getCore_updCore_same hc']
  · obtain ⟨ts, hts, hu⟩ := List.mem_flatten.1 hu
    obtain ⟨ig, hig, rfl⟩ := List.mem_map.1 hts
    obtain ⟨p, hp, hu⟩ := List.mem_flatMap.1 (mem_sortLanes hu)
    rw [heq]
    exact runs_of_groups rfl (runs_runGroups _ gather _ igs hig hp hu)

theorem burstSelect_next {s : State} {core : Nat} {c : Core} {e : WaitEntry} {us : List Pick} (hc : s.cores[core]? = some c)
    (hfatal : c.fatal = false) (hclock : coreClocked s core = true) (hlate : lateThreads s core = []) (hb : c.burst = none)
    (hchosen : c.chosen = none) (h : chooseEntry s core none = some (e, us)) :
    exec (.burstSelect core) s = .next (startBurst s core e us) := by
  have kept : ((getCore s core).table.find? fun e => some e.key = none) = none := List.find?_eq_none.2 (by simp)
  change execBurstSelect core s = _
  simp only [execBurstSelect, onCore, hc, hfatal, hclock, hlate, hb, hchosen, kept, List.foldl_nil]
  simp [h]

/-! ## The return of a load (R107, R110) -/

/-- The result of a load that has arrived. -/
def arrived (l : Load) (r : Result) : Result :=
  if r.id = l.id && !r.ready then
    { r with ready := true, writes := (returnWrites l.kind l.bytes).1, value := (returnWrites l.kind l.bytes).2 }
  else r

theorem threadIs_deliverLoad {s : State} {t : ThreadRef} {l : Load} {Q : Thread → Prop}
    (h : ThreadIs s t fun th => Q
      { th with seg := { th.seg with loads := th.seg.loads.drop 1, results := th.seg.results.map (arrived l) } }) :
    ThreadIs (deliverLoad s t l) t Q :=
  threadIs_updThread (fun _ => ⟨rfl, rfl⟩) h

theorem loadReturn_next {s : State} {t : ThreadRef} {g : Group} {th : Thread} {l : Load} {rest : List Load}
    (hf : findThread s t = some (g, th)) (hl : th.seg.loads = l :: rest) :
    exec (.loadReturn t) s = .next (match l.poison, l.mismatch with
      | some va, _ => if th.seg.missed then deliverLoad s t l
          else faultThread s (g.core.getD 0) t (dataTrouble t .poison va l.paged)
      | none, some va =>
        if th.seg.checked then faultThread s (g.core.getD 0) t (dataTrouble t .checkMismatch va l.paged)
        else deliverLoad (updThread s t fun th => { th with seg := th.seg.miss }) t l
      | none, none => deliverLoad s t l) := by
  change execLoadReturn t s = _
  simp only [execLoadReturn, onThread, hf, hl] <;> rfl

/-! ## Replay (R197, R198) -/

/-- A thread that is executed again from the first word of its segment. -/
structure Replays (pc hdr : Word) (th : Thread) : Prop where
  status  : th.status = .committing
  again   : th.seg.again = true
  place   : th.pc = pc ∧ th.hdr = hdr
  start   : th.seg.startPc = pc ∧ th.seg.startHdr = hdr
  results : th.seg.results = []

theorem threadIs_replayThread {s : State} {t : ThreadRef} {f : Segment → Segment} {Q : Thread → Prop}
    (h : ThreadIs s t fun th => ∀ now, Q
      { th with status := .committing, pc := th.seg.startPc, hdr := th.seg.startHdr, readyAt := now
                seg := f { Segment.empty th.seg.startPc th.seg.startHdr with
                  gather := th.seg.gather, mates := th.seg.mates, closure := th.seg.closure
                  checked := th.seg.checked || th.seg.missed, droops := th.seg.droops, again := true
                  past := th.seg.ig :: th.seg.past, owing := th.seg.owing } }) :
    ThreadIs (replayThread s t f) t Q := by
  obtain ⟨th, ht, hq⟩ := h
  obtain ⟨⟨g, _⟩, hf, rfl⟩ := Option.map_eq_some_iff.1 ht
  unfold replayThread
  rw [(findThread_spec hf).1]
  exact threadIs_joinTable _ (threadIs_updThread (fun _ => ⟨rfl, rfl⟩) ⟨_, ht, hq _⟩)

theorem onlyThread_replayThread (s : State) (t : ThreadRef) (f : Segment → Segment) : OnlyThread t s (replayThread s t f) := by
  unfold replayThread
  split
  · exact .refl t s
  · dsimp only
    exact OnlyThread.after_upd (.of_groups (joinTable_groups _ t)) fun _ => ⟨rfl, rfl⟩

/-- A thread of no gather segment that has read a mismatching block is replayed by itself. -/
theorem segmentCommit_missed {s : State} {t : ThreadRef} {g : Group} {th : Thread} {k : Nat}
    (hf : findThread s t = some (g, th)) (hg : g.core = some k) (hs : th.status = .committing)
    (hfatal : (getCore s k).fatal = false) (hstop : passStopping s g = false) (hgather : th.seg.gather = false)
    (hl : th.seg.loads = []) (hheld : th.seg.held = false) (hagain : th.seg.again = false) (hsus : th.seg.suspect = false)
    (hm : th.seg.missed = true) :
    exec (.segmentCommit t) s = .next (replayThread (bump s k 8 (some g.stage) 1) t fun seg => { seg with checked := true }) := by
  have hset : replaySet s g th t = [(g, th)] := by simp [replaySet, hgather]
  have hdue : replayDue s g th t = true := by simp [replayDue, hset, hheld, hagain, cutOff, hgather, hs, hl, hm]
  obtain ⟨hgroup, -, hrow, hlane⟩ := findThread_spec hf
  have href : refOf g th = t := by simp [refOf, findGroup_serial hgroup, hrow, hlane]
  change execSegmentCommit t s = _
  simp only [execSegmentCommit, onThread, hf, hg, hs, hfatal, hstop, hdue, hset, replayAll, List.foldl_cons, List.foldl_nil,
    href, hsus, hm, List.any_cons, List.any_nil, Bool.or_false, Bool.false_and, Bool.or_true]
  simp

/-- The threads of a cluster that are held, as the release meets them. -/
def heldOf (s : State) (cluster : Nat) : List (Nat × Nat × ThreadRef × Bool) :=
  s.groups.flatMap fun g => match g.core with
    | some k => if clusterOf k = cluster then
        (g.threads.filter fun th => th.status = .committing && th.seg.held).map fun th => (k, g.stage, refOf g th, th.seg.missed)
      else []
    | none => []

/-- One held thread is replayed. -/
def releaseHeld (s : State) (x : Nat × Nat × ThreadRef × Bool) : State :=
  replayThread (bump (bump s x.1 7 (some x.2.1) 1) x.1 8 (some x.2.1) (if x.2.2.2 then 1 else 0)) x.2.2.1 id

theorem droopHoldRelease_next {s : State} {cluster : Nat} {c : Cluster} (hc : s.clusters[cluster]? = some c)
    (hd : c.droop = false) (hq : c.quietSince + 256 ≤ (getCore s (4 * cluster)).cycles.toNat) :
    exec (.droopHoldRelease cluster) s = .next ((heldOf s cluster).foldl releaseHeld s) := by
  change execDroopHoldRelease cluster s = _
  simp only [execDroopHoldRelease, hc, hd, Bool.false_or, decide_eq_true_eq]
  rw [if_neg (by omega)]
  rfl

/-- A thread that the release meets is replayed, however often it meets it. -/
theorem replays_releaseHeld {pc hdr : Word} {u : ThreadRef} (l : List (Nat × Nat × ThreadRef × Bool)) (s : State)
    (h : ThreadIs s u (Replays pc hdr) ∨
      ThreadIs s u (fun th => th.seg.startPc = pc ∧ th.seg.startHdr = hdr) ∧ ∃ x ∈ l, x.2.2.1 = u) :
    ThreadIs (l.foldl releaseHeld s) u (Replays pc hdr) := by
  induction l generalizing s with
  | nil => simpa using h
  | cons x l ih =>
    have hstart : ThreadIs s u fun th => th.seg.startPc = pc ∧ th.seg.startHdr = hdr :=
      h.elim (fun h => threadIs_mono h fun _ r => r.start) And.left
    by_cases hx : x.2.2.1 = u
    · subst hx
      refine ih _ (.inl (threadIs_replayThread (threadIs_of_groups rfl (threadIs_mono hstart ?_))))
      rintro th ⟨rfl, rfl⟩ now
      exact ⟨rfl, rfl, ⟨rfl, rfl⟩, ⟨rfl, rfl⟩, rfl⟩
    · have same : threadOf (releaseHeld s x) u = threadOf s u :=
        onlyThread_replayThread _ _ _ u (Ne.symm hx)
      refine ih _ (h.imp (fun ⟨th, ht, r⟩ => ⟨th, same.trans ht, r⟩) fun ⟨⟨th, ht, r⟩, y, hy, e⟩ =>
        ⟨⟨th, same.trans ht, r⟩, y, ?_, e⟩)
      exact (List.mem_cons.1 hy).resolve_left fun h => hx (h ▸ e)

theorem mem_heldOf {s : State} {cluster k : Nat} {g : Group} {th : Thread} (hg : g ∈ s.groups) (hth : th ∈ g.threads)
    (hk : g.core = some k) (hc : clusterOf k = cluster) (hs : th.status = .committing) (hh : th.seg.held = true) :
    (k, g.stage, refOf g th, th.seg.missed) ∈ heldOf s cluster := by
  refine List.mem_flatMap.2 ⟨g, hg, ?_⟩
  rw [hk]
  dsimp only
  rw [if_pos hc]
  exact List.mem_map.2 ⟨th, List.mem_filter.2 ⟨hth, by simp [hs, hh]⟩, rfl⟩

/-- The clause of a burst stands at the burst's own base (log 43). -/
theorem segBase_via {g : Group} {base : Nat} (hg : g.g ≠ []) (hb : base < 2 ^ 48) : segBase ((g.via base).g.getD 0 0) = base := by
  obtain ⟨x, l, hx⟩ := List.exists_cons_of_ne_nil hg
  have low : ((x >>> 48) <<< 48 ||| BitVec.ofNat 128 base).extractLsb' 0 48 = BitVec.ofNat 48 base := by
    refine BitVec.eq_of_getLsbD_eq fun i hi => ?_
    rw [BitVec.getLsbD_extractLsb', BitVec.getLsbD_or, BitVec.getLsbD_shiftLeft, BitVec.getLsbD_ofNat, BitVec.getLsbD_ofNat]
    simp [hi, show i < 128 by omega]
  simp only [segBase, Group.via, hx, List.set_cons_zero, List.getD_cons_zero, Nat.mod_eq_of_lt hb, low]
  exact Nat.mod_eq_of_lt hb

/-- Where a thread meets no trouble the header is in form and the clause lies below the limit (R58). -/
theorem clauseTrouble_none {s : State} {k : Nat} {g : Group} {p : Pass} {t : ThreadRef} {hdr : Nat}
    (h : clauseTrouble s k g p t hdr = none) : hdrOk (codeWord s k g hdr) = true ∧
      hdr + 8 + 8 * hdrCount (codeWord s k g hdr) ≤ effLimit (padBytes p) (g.g.getD 0 0) := by
  unfold clauseTrouble clauseEnd at h
  dsimp only at h
  split at h
  · cases h
  split at h
  · cases h
  split at h
  · cases h
  split at h
  · cases h
  rename_i hlimit
  split at h
  · cases h
  split at h
  · cases h
  rename_i hok
  exact ⟨by simpa using hok, Nat.not_lt.1 hlimit⟩

/-- Settles O45: each step by the lemma of its event. -/
theorem coresSelectEnterAndReplay : Obligations.CoresSelectEnterAndReplay := by
  unfold Obligations.CoresSelectEnterAndReplay
  refine ⟨?entry, ?words, ?alone, ?trouble, ?select, ?choose, ?arrives, ?mismatch, ?dropped, ?replay, ?release⟩
  case entry =>
    intro s core c b hc hb he hne hm hall
    refine ⟨_, clauseEnter_next hc hb he hm fun t ht => (hall t ht).1, ?_⟩
    have same := sameSegments_enterThreads b.groups.flatten fun t ht => (hall t ht).2
    have cores : (b.groups.flatten.foldl (enterThread core b) s).cores[core]? = some c := by
      rw [same.1]
      exact hc
    change Core.burst _ = _
    rw [getCore_updCore_same cores, hb]
    simp [enteredBurst, hne]
  case words =>
    intro s core b g hne hall h
    obtain ⟨t, ts, hts⟩ := List.exists_cons_of_ne_nil hne
    have hg : burstGroup s b = some g := by
      simp [burstGroup, hts, hall t (by simp [hts])]
    refine ⟨fun hseg hbase => ?_, ?_⟩
    · exact segBase_via hseg hbase
    · rw [clauseWords, hg]
      dsimp only
      rw [List.range_succ_eq_map]
      simp [h]
  case alone =>
    intro s core c b t g th p x hc hb he ht hm hh hf hp hx
    refine ⟨_, clauseEnter_next hc hb he hm fun u hu => ?_, clauseEnter_alone hc hb ht hf hp hx _⟩
    rw [ht, List.mem_singleton] at hu
    exact hu ▸ hh
  case trouble =>
    exact fun s k g p t hdr h => clauseTrouble_none h
  case select =>
    intro s core c e us pc hdr hc hfatal hclock hlate hb hchosen hchoose hplace
    exact ⟨_, burstSelect_next hc hfatal hclock hlate hb hchosen hchoose, startBurst_spec hc hplace⟩
  case choose =>
    exact fun s k e us h => chooseEntry_spec h
  case arrives =>
    intro s t g th l rest hf hl hp hm
    refine ⟨_, loadReturn_next hf hl, ?_⟩
    rw [hp, hm]
    refine threadIs_deliverLoad (threadIs_of_find hf ⟨by rw [hl]; rfl, rfl, by simp, fun r hr hid hready => ?_⟩)
    exact List.mem_map.2 ⟨r, hr, by simp [arrived, hid, hready]⟩
  case mismatch =>
    intro s t g th l rest va hf hl hp hm hchecked
    refine ⟨_, loadReturn_next hf hl, ?_⟩
    rw [hp, hm]
    dsimp only
    rw [if_neg (by simp [hchecked])]
    refine threadIs_deliverLoad (threadIs_updThread (fun _ => ⟨rfl, rfl⟩) (threadIs_of_find hf ⟨rfl, ?_, rfl, rfl, ?_⟩))
    · simp [Segment.miss, hl]
    · simp [Segment.miss]
  case dropped =>
    intro s t g th l rest hf hl hp hm
    obtain ⟨va, hva⟩ := Option.isSome_iff_exists.1 hp
    refine ⟨_, loadReturn_next hf hl, ?_⟩
    rw [hva]
    dsimp only
    rw [if_pos hm]
    exact threadIs_deliverLoad (threadIs_of_find hf ⟨hm, by rw [hl]; rfl, rfl, rfl, by simp⟩)
  case replay =>
    intro s t g th k hf hg hs hfatal hstop hgather hl hheld hagain hsus hm
    refine ⟨_, segmentCommit_missed hf hg hs hfatal hstop hgather hl hheld hagain hsus hm, ?_⟩
    refine threadIs_replayThread (threadIs_of_groups rfl (threadIs_of_find hf fun now => ?_))
    exact ⟨rfl, rfl, rfl, rfl, rfl, rfl, rfl, rfl, rfl, rfl, rfl, rfl, rfl⟩
  case release =>
    intro s cluster c hc hd hq
    refine ⟨_, droopHoldRelease_next hc hd hq, fun g hg th hth k hf hk hcluster hs hheld => ?_⟩
    refine threadIs_mono (replays_releaseHeld _ s (.inr ⟨threadIs_of_find hf ⟨rfl, rfl⟩, _,
      mem_heldOf hg hth hk hcluster hs hheld, rfl⟩)) fun u r => ⟨r.status, r.again, r.place.1, r.place.2, r.results⟩

end Sys2Proof.Selector

/-! A push at a bank whose list already holds its thread (R136; O42). -/

namespace Sys2Proof.Queues
open Machine

/-! ## A push that does not wait behind an earlier one

The oldest parked pusher of a bank is the first thread of its list that waits for a push.  The statement has a push wait
wherever another thread of the list waits for one.  A bank drops a thread from its list when it serves it, but the statement does
not ask that the committing thread is not in the list already.  Where the list begins with that thread, its push is the oldest
there, and the bank serves it. -/

def pushed : Effect := .push 0 0 false false 7 0 0

/-- The thread of lane 0 commits a push. -/
def pusher : Thread :=
  let th := newThread placedPass 0 0 0
  { th with status := .committing, seg := { th.seg with effect := some pushed, ending := some (.go 8 0), ig := 1 } }

/-- The thread of lane 1 is parked on a push. -/
def waiter : Thread := { newThread placedPass 0 0 0 with lane := 1, status := .parkedEffect, waiting := some pushed }

def pushGroup : Group :=
  { freshGroup placedPass 0 (newGroup 1 4 0 0 0 0) with
    phase := .resident, core := some 0, lcore := some 0, threads := [pusher, waiter] }

/-- Both threads stand in the list of bank 0 of core 0. -/
def pushState : State :=
  { updBank State.reset 0 0 fun b => { b with parked := [⟨1, 0, 0⟩, ⟨1, 0, 1⟩] } with
    serial := 1, groups := [pushGroup], graphs := [placedGraph] }

theorem commits_pushState : Commits pushState ⟨1, 0, 0⟩ pushGroup pusher 0 (.go 8 0) where
  found := by decide +kernel
  core := rfl
  there := by decide +kernel
  state := rfl
  works := by decide +kernel
  goes := by decide +kernel
  sure := by decide +kernel
  may := by decide +kernel
  ending := rfl
  alone := rfl

theorem parkedOp_waiter : parkedOp pushState ⟨1, 0, 1⟩ = some (0, pushed) := by decide +kernel

theorem mem_parked_waiter : ⟨1, 0, 1⟩ ∈ (getBank pushState 0 0).parked := by decide +kernel

/-- Refutes O42: in `pushState` the push of lane 0 is served and its thread is ready, although the thread of lane 1 waits for a
push at the same bank.  The premise that is missing is that the committing thread is not in the bank's list. -/
theorem not_segmentsCommitInOrder : ¬ Obligations.SegmentsCommitInOrder := by
  unfold Obligations.SegmentsCommitInOrder
  intro h
  obtain ⟨-, -, effects, -⟩ := h
  obtain ⟨s, hs, -, waits⟩ := effects pushState ⟨1, 0, 0⟩ pushGroup pusher 0 8 0 pushed commits_pushState rfl
  obtain ⟨th, hth, parked, -⟩ := waits ⟨_, mem_parked_waiter, by decide, _, parkedOp_waiter, rfl⟩
  have served : (match exec (.segmentCommit ⟨1, 0, 0⟩) pushState with
    | .next s => (threadAtRef s ⟨1, 0, 0⟩).map Thread.status
    | _ => none) = some .ready := by decide +kernel
  rw [hs] at served
  simp [hth, parked] at served

end Sys2Proof.Queues

/-! An atomic on a scratchpad whose unperformed engine writes do not stand in the order of their numbers (R121, R249; O47). -/

namespace Sys2Proof.Atomics
open Machine

/-! ## A release that performs the newer of two writes last

Of the engine writes that a thread has seen, the last in the list of unperformed ones holds what the thread reads of a byte
(`padSeen`).  A release performs those of the scratchpad alone first, and the rest before the operation itself; of the others
it takes away the bytes of a lower number only.  The engines append their writes in the order of their numbers, but the
statement asks for no more of the list than `State.Inv`, which does not say so.  Where a write of the higher number stands before
one of the lower, and has bytes in memory too, the release leaves its bytes, and the atomic does not see what its thread sees. -/

/-- An `aadd` of 0 with release on the first four bytes of the scratchpad. -/
def addsNothing : Effect := .atomic .add 2 1 2 (.pad 0) 0 0 0 (.v 1) 7 8 0

/-- The thread has seen engine operations 1 and 2. -/
def adder : Thread := { newThread placedPass 0 0 0 with status := .parkedEffect, waiting := some addsNothing, saw := [1, 2] }

def adderGroup : Group :=
  { freshGroup placedPass 0 (newGroup 1 4 0 0 0 0) with phase := .resident, core := some 0, lcore := some 0, threads := [adder] }

/-- The bytes of a word at the start of the scratchpad. -/
def padWordCells (x : Byte) : List (Loc × Byte) := [(.pad 0, x), (.pad 1, 0), (.pad 2, 0), (.pad 3, 0)]

/-- Operation 1 has written 1 to the word, operation 2, with the lower number, has written 2. -/
def lateState : State :=
  { State.reset with
    serial := 1, groups := [adderGroup], graphs := [placedGraph]
    late := [⟨5, .a, 1, ⟨1, 0, 0⟩, 0, (.mem 0, 0) :: padWordCells 1, [], false⟩,
      ⟨3, .a, 2, ⟨1, 0, 0⟩, 0, padWordCells 2, [], false⟩] }

theorem parked_lateState : Parked lateState ⟨1, 0, 0⟩ adderGroup adder 0 addsNothing where
  found := by decide +kernel
  core := rfl
  there := by decide +kernel
  state := rfl
  waits := rfl

theorem inv_lateState : lateState.Inv where
  shaped := by decide +kernel
  memory := by decide +kernel

theorem unmarked_lateState : Unmarked lateState := by
  unfold Unmarked
  decide +kernel

theorem quiet_lateState : Quiet lateState ⟨1, 0, 0⟩ := by
  refine ⟨fun th h => ?_, by simp [lateState, State.reset]⟩
  have : threadAtRef lateState ⟨1, 0, 0⟩ = some adder := by decide +kernel
  rw [this] at h
  cases h
  rfl

theorem threads_lateState : (atomicsOf lateState adderGroup 7 (.pad 0)).map AtomicOne.thread = [⟨1, 0, 0⟩] := by decide +kernel

/-- Refutes O47: in `lateState` the thread sees 2, and the place holds 1 after an operation that adds nothing.  The premise that
is missing is the order of the unperformed engine writes. -/
theorem not_atomicsPerform : ¬ Obligations.AtomicsPerform := by
  unfold Obligations.AtomicsPerform
  intro h
  obtain ⟨atomics, -⟩ := h
  have held : (match exec (.atomicPerform ⟨1, 0, 0⟩) lateState with
    | .next s => padByteOf s 1 0
    | _ => 0) = 1 := by decide +kernel
  have sum : (toBytes (applyAtomics 2 (wideOf ((List.range 4).map (seenByte lateState 0 adderGroup adder 1 0 (.pad 0))))
    (atomicsOf lateState adderGroup 7 (.pad 0))).1 4).getD 0 0 = 2 := by decide +kernel
  have alone : ∀ a ∈ atomicsOf lateState adderGroup 7 (.pad 0), a.thread = ⟨1, 0, 0⟩ := fun a ha => by
    simpa [threads_lateState] using List.mem_map_of_mem (f := AtomicOne.thread) ha
  obtain ⟨s, hs, performed, -⟩ := atomics lateState ⟨1, 0, 0⟩ adderGroup adder 0 .add 2 1 2 (.pad 0) 0 0 0 (.v 1) 7 8 0
    parked_lateState inv_lateState (by decide) unmarked_lateState (.inl (by decide)) (by decide +kernel)
    (by rw [threads_lateState]; decide) fun a ha => by
      rw [alone a ha]
      exact ⟨quiet_lateState, by decide +kernel, .inl rfl⟩
  have byte := performed 0 (by decide)
  rw [hs] at held
  exact absurd ((held.symm.trans byte).trans sum) (by decide)

end Sys2Proof.Atomics

/-! The verdict of the first check that fails (R58). -/

namespace Sys2Proof.Words
open Machine

/-! ## Steps 2 to 7, one fault at a time -/

section Enabled
variable {i : Instr} {x : Site} {v : View} (hr : guardRead x = true) (hon : guardOn x x.guard = true)
include hr hon

/-- A thread that its guard enables meets the checks of steps 3 to 7. -/
theorem verdict_of_guardOn : verdict i x = match staticFault i x, i.view with
    | some f, _ => .fault f
    | none, none => .run
    | none, some v => match readFault i v x with
      | some f => .fault f
      | none => if operandsReady i v x then .run else .stall :=
  (verdict_of_guardRead hr).trans (if_neg (by simp [hon]))

theorem verdict_of_staticFault {f : Trouble} (h : staticFault i x = some f) : verdict i x = .fault f := by
  rw [verdict_of_guardOn hr hon, h]

theorem verdict_of_readFault {f : Trouble} (hs : staticFault i x = none) (hv : i.view = some v)
    (h : readFault i v x = some f) : verdict i x = .fault f := by
  rw [verdict_of_guardOn hr hon, hs, hv]
  simp only [h]

theorem verdict_of_unready (hs : staticFault i x = none) (hv : i.view = some v) (h : readFault i v x = none)
    (hready : operandsReady i v x = false) : verdict i x = .stall := by
  rw [verdict_of_guardOn hr hon, hs, hv]
  simp [h, hready]

end Enabled

/-- Step 3: an instruction without a view has an unassigned opcode; its record holds the word. -/
theorem staticFault_of_noView {i : Instr} (x : Site) (hv : i.view = none) :
    staticFault i x = some ⟨.illegalOpcode, x.word.setWidth 32, x.word.extractLsb' 32 32, none, false⟩ := by
  rw [staticFault, hv]

section Viewed
variable {i : Instr} {x : Site} {v : View} (hv : i.view = some v)
include hv

theorem staticFault_of_badModifier (hm : modifierPasses i x.pass = false) : staticFault i x = some x.badModifier := by
  simp [staticFault, hv, hm]

theorem staticFault_of_badField {n : Nat} {c : BitVec 10} (hm : modifierPasses i x.pass = true)
    (hb : badField x.pass.regs v = some (n, c)) : staticFault i x = some (x.badOperand n c) := by
  simp [staticFault, hv, hm, hb]

theorem staticFault_of_notPrivileged (hm : modifierPasses i x.pass = true) (hb : badField x.pass.regs v = none)
    (hp : privilegePasses i x = false) : staticFault i x = some x.notPrivileged := by
  simp [staticFault, hv, hm, hb, hp]

end Viewed

/-- Step 7, first: a distance past the start of the segment. -/
theorem readFault_of_far {i : Instr} {v : View} {x : Site}
    (h : ∃ n ∈ sourceDistances i v, x.th.seg.distance n = none) :
    ∃ f, readFault i v x = some f ∧ f.code = .distanceRange := by
  obtain ⟨n, hn⟩ : ∃ n, badDistance i v x = some n :=
    Option.isSome_iff_exists.1 (List.find?_isSome.2 (by simpa using h))
  exact ⟨_, by rw [readFault, hn], rfl⟩

/-- Step 7, then: a poisoned source. -/
theorem readFault_of_poisoned {i : Instr} {v : View} {x : Site}
    (hfar : ¬∃ n ∈ sourceDistances i v, x.th.seg.distance n = none)
    (h : ∃ r ∈ sourceRegs i v, regPoisoned x.g x.th r = true) :
    ∃ f, readFault i v x = some f ∧ f.code = .poison := by
  have near : badDistance i v x = none := by simpa [badDistance] using hfar
  obtain ⟨r, hr⟩ : ∃ r, (sourceRegs i v).find? (fun r => regPoisoned x.g x.th r) = some r :=
    Option.isSome_iff_exists.1 (List.find?_isSome.2 h)
  exact ⟨x.poisonedReg r, by simp [readFault, near, hr], rfl⟩

theorem readFault_of_sound {i : Instr} {v : View} {x : Site}
    (hfar : ¬∃ n ∈ sourceDistances i v, x.th.seg.distance n = none)
    (h : ¬∃ r ∈ sourceRegs i v, regPoisoned x.g x.th r = true) : readFault i v x = none :=
  (readFault_isNone i v x).2 ⟨by simpa [Option.isSome_iff_ne_none] using hfar, by simpa using h⟩

/-- Step 2: a poisoned guard predicate. -/
theorem verdict_of_poisonedGuard {i : Instr} {x : Site} (h8 : x.guard ≠ 8) (h0 : x.guard ≠ 0)
    (hp : regPoisoned x.g x.th (guardReg x.guard) = true) : verdict i x = .fault (x.poisonedReg (guardReg x.guard)) := by
  rw [verdict_eq, if_neg h8, if_pos (by simpa [hp] using h0)]

/-- Settles O11: each clause by the check of its step, those before it having passed. -/
theorem checksDecideTheVerdict : Obligations.ChecksDecideTheVerdict := by
  unfold Obligations.ChecksDecideTheVerdict
  refine fun i x => ⟨(clear_iff i x).symm, (disabled_iff i x).symm, fun h8 => ?_, fun ⟨h8, h0, hp⟩ => ?_,
    fun hr hon => ⟨fun hv => ?_, fun v hv => ⟨fun hm => ?_, fun hm => ⟨fun n c hb => ?_, fun hb => ⟨fun hp => ?_, fun hp => ?_⟩⟩⟩⟩⟩
  · have h : verdict i x = .fault x.badModifier := by rw [verdict_eq, if_pos h8]
    exact ⟨h, _, h, rfl⟩
  · exact ⟨_, verdict_of_poisonedGuard h8 h0 hp, rfl⟩
  · exact ⟨_, verdict_of_staticFault hr hon (staticFault_of_noView x hv), rfl⟩
  · exact ⟨_, verdict_of_staticFault hr hon (staticFault_of_badModifier hv hm), rfl⟩
  · have h := verdict_of_staticFault hr hon (staticFault_of_badField hv hm hb)
    exact ⟨h, _, h, rfl⟩
  · exact ⟨_, verdict_of_staticFault hr hon (staticFault_of_notPrivileged hv hm hb hp), rfl⟩
  · have hs : staticFault i x = none := (staticFault_isNone i v x hv).2 ⟨hm, by simp [hb], hp⟩
    refine ⟨fun far => ?_, fun near bad => ?_, fun near sound hready => ?_⟩
    · obtain ⟨f, hf, hc⟩ := readFault_of_far far
      exact ⟨f, verdict_of_readFault hr hon hs hv hf, hc⟩
    · obtain ⟨f, hf, hc⟩ := readFault_of_poisoned near bad
      exact ⟨f, verdict_of_readFault hr hon hs hv hf, hc⟩
    · exact verdict_of_unready hr hon hs hv (readFault_of_sound near sound) hready

end Sys2Proof.Words

/-! An unassigned opcode: how the decoder reads it, and the fault that its word raises (R52, R57; O3). -/

namespace Sys2Proof.Faults
open Machine Words

/-! ## The record of a thread's own fault -/

/-- A thread that meets a fault of the vector's route has it in its fault registers. -/
theorem recorded_faultOwn {s : State} {t : ThreadRef} {th : Thread} (k : Nat) {tr : Trouble} (hr : routeOf tr.code.bits = .vector)
    (hs : tr.split = false) (h : ThreadIs s t (· = th)) (hm : th.seg.missed = false) :
    ThreadIs (faultOwn s k t tr) t (Recorded th (recordOf tr th.seg)) := by
  obtain ⟨u, hu, rfl⟩ := h
  obtain ⟨⟨g, _⟩, hf, rfl⟩ := Option.map_eq_some_iff.1 hu
  unfold faultOwn
  rw [hf]
  dsimp only
  rw [if_neg (by simpa using hm), hs]
  split
  · unfold parkGather
    rw [hf]
    dsimp only
    rw [hs]
    exact recorded_takeFault hr (threadIs_of_find (s := leaveGather s k t _ _) hf rfl)
  · exact recorded_takeFault hr (threadIs_of_find (s := leaveBurst s k t) hf rfl)

/-- A closure takes no thread that its own fault has already parked or started again (R144). -/
theorem threadIs_parkMates {s : State} {t : ThreadRef} {Q : Thread → Prop} (k : Nat) (g : Group) (th : Thread) (code : Code)
    (h : ThreadIs s t Q) (hQ : ∀ u, Q u → u.status ≠ .running ∧ u.status ≠ .committing) :
    ThreadIs (parkMates s k g th code) t Q := by
  obtain ⟨u, hu, hq⟩ := h
  rw [parkMates_eq]
  refine Lines.foldl_rel (R := fun a b => ThreadIs a t Q → ThreadIs b t Q) (fun _ => id) (fun h g => g ∘ h) _
    (fun s' v _ ⟨u, hu, hq⟩ => ?_) s ⟨u, hu, hq⟩
  by_cases e : t = refOf g v
  · obtain ⟨⟨g', _⟩, hf, rfl⟩ := Option.map_eq_some_iff.1 hu
    obtain ⟨hr, hc⟩ := hQ _ hq
    have kept : parkMate k g th code s' v = s' := by simp [parkMate, ← e, hf, hr, hc]
    rw [kept]
    exact ⟨_, hu, hq⟩
  · exact ⟨u, (onlyThread_parkMate k g th code s' v t e).trans hu, hq⟩

/-! ## A fault at a check of R58, in its issue group -/

theorem recorded_issueThread {i : Instr} {body : Body} {s : State} {x : Site} {tr : Trouble} (hv : verdict i x = .fault tr)
    (hr : routeOf tr.code.bits = .vector) (hs : tr.split = false) (h : ThreadIs s x.t (· = x.th)) (hm : x.th.seg.missed = false) :
    ThreadIs (issueThread i body s x) x.t (Recorded x.th (recordOf tr x.th.seg)) := by
  simpa [issueThread, hv, faultWord, hm] using recorded_faultOwn x.core hr hs h hm

/-- Once the issue group has executed the word, the faults of others leave the thread as its own fault did. -/
theorem recorded_issueAll {i : Instr} {body : Body} (hb : body.OwnThread) {s : State} {xs : List Site}
    (hn : (xs.map Site.t).Nodup) (ht : ∀ x ∈ xs, threadOf s x.t = some x.th) {x : Site} (hx : x ∈ xs) {tr : Trouble}
    (hv : verdict i x = .fault tr) (hr : routeOf tr.code.bits = .vector) (hs : tr.split = false) (hm : x.th.seg.missed = false) :
    ThreadIs (issueAll i body s xs) x.t (Recorded x.th (recordOf tr x.th.seg)) := by
  obtain ⟨s0, h0, h1⟩ := foldl_distinct (key := Site.t) xs hn s (fun s' y _ _ => onlyThread_issueThread i hb s' y) x hx
  obtain ⟨u, hu, hrec⟩ := recorded_issueThread (body := body) hv hr hs ⟨_, h0.trans (ht x hx), rfl⟩ hm
  have own : ThreadIs (xs.foldl (issueThread i body) s) x.t (Recorded x.th (recordOf tr x.th.seg)) := ⟨u, h1.trans hu, hrec⟩
  unfold issueAll
  split
  · refine Lines.foldl_rel (R := fun a b => ThreadIs a x.t _ → ThreadIs b x.t _) (fun _ => id) (fun h g => g ∘ h) _
      (fun s' f _ h => threadIs_parkMates _ _ _ _ h fun u hu => ?_) _ own
    rcases hu.status with e | e <;> simp [e]
  · exact own

/-- A word that holds no thread back is executed by its issue group, and the burst goes on. -/
theorem issueHeld_all {s : State} {b : Burst} {i : Instr} {held : Site → Bool} {body : Body} (h : AtWord s b)
    (hp : ∀ x ∈ turnSites s s.focus b i, verdict i x ≠ .stall)
    (hh : ∀ x ∈ turnSites s s.focus b i, verdict i x = .run → held x = false) :
    issueHeld s i held body = .next (advance (issueAll i body (countIssue s s.focus i (turnSites s s.focus b i))
      (turnSites s s.focus b i)) s.focus i) := by
  obtain ⟨c, hc, hcb⟩ := Option.bind_eq_some_iff.1 h.1
  unfold issueHeld
  simp only [hc, hcb]
  refine if_neg ?_
  simp only [List.any_eq_true, Bool.or_eq_true, Bool.and_eq_true, decide_eq_true_eq, not_exists, not_and, not_or]
  exact fun x hx => ⟨hp x hx, fun hv => by simp [hh x hx hv]⟩

/-- A word that waits for nothing leaves each thread that faults at a check of R58, by the vector's route, with the record of
its fault in its registers. -/
theorem issueHeld_recorded {s : State} {b : Burst} {i : Instr} {held : Site → Bool} {body : Body} (hb : body.OwnThread)
    (h : AtWord s b) (hp : ∀ x ∈ turnSites s s.focus b i, verdict i x ≠ .stall)
    (hh : ∀ x ∈ turnSites s s.focus b i, verdict i x = .run → held x = false) :
    Goes (issueHeld s i held body) fun t => ∀ x ∈ turnSites s s.focus b i, ∀ tr, verdict i x = .fault tr →
      routeOf tr.code.bits = .vector → tr.split = false → x.th.seg.missed = false →
      ThreadIs t x.t (Recorded x.th (recordOf tr x.th.seg)) := by
  refine ⟨_, issueHeld_all h hp hh, fun x hx tr hv hr hs hm => ?_⟩
  have here : ∀ y ∈ turnSites s s.focus b i,
      threadOf (countIssue s s.focus i (turnSites s s.focus b i)) y.t = some y.th := fun y hy => by
    rw [threadOf_congr (countIssue_groups _ _ _ _), (turnSites_spec hy).2]
  obtain ⟨u, hu, hrec⟩ := recorded_issueAll hb (turnSites_nodup h.2) here hx hv hr hs hm
  obtain ⟨u', hu', he⟩ := endsAll_advance _ s.focus i x.t u hu
  rcases he with rfl | ⟨hrun, -⟩
  · exact ⟨_, hu', hrec⟩
  · rcases hrec.status with e | e <;> cases hrun.symm.trans e

/-! ## The unassigned opcode -/

/-- The trouble of a word of an unassigned opcode: the word, in two halves (R331). -/
def unassignedTrouble (w : Wide) : Trouble := ⟨.illegalOpcode, w.setWidth 32, w.extractLsb' 32 32, none, false⟩

theorem halves_append (w : Wide) : w.extractLsb' 32 32 ++ w.setWidth 32 = w := by
  refine BitVec.eq_of_getLsbD_eq fun j hj => ?_
  rw [BitVec.getLsbD_append]
  by_cases h : j < 32
  · simp [h]
  · have : j - 32 < 32 := by omega
    simp [h, this, show 32 + (j - 32) = j by omega]

/-- Every thread that its guard enables faults at an unassigned opcode (R57, R58 step 3). -/
theorem verdict_unassignedOpcode {w : Wide} {x : Site} (hw : x.word = w) (hr : guardRead x = true)
    (hon : guardOn x x.guard = true) : verdict (.unassignedOpcode w) x = .fault (unassignedTrouble w) := by
  subst hw
  exact verdict_of_staticFault hr hon (staticFault_of_noView x rfl)

/-- The decoder reads exactly the opcodes outside R52 as unassigned. -/
theorem decodeWith_eq_unassigned_iff (w : Wide) :
    decodeWith w none = .unassignedOpcode w ↔ opcodeAssigned (wordOpcode w) = false := by
  refine ⟨fun h => ?_, fun h => Laws.Decodes.decode_unassigned w _ rfl h⟩
  have hwf := (Encoding.encode_decodeWith w none (by rw [h]; rfl)).2.1
  simp only [h, Instr.wf, Bool.and_eq_true] at hwf
  obtain ⟨⟨-, hop⟩, -⟩ := hwf
  simpa [Instr.opcodeOk] using hop

theorem word_of_mem_turnSites {s : State} {k : Nat} {b : Burst} {i : Instr} {x : Site} (h : x ∈ turnSites s k b i) :
    x.word = i.word.getD 0 := by
  obtain ⟨t, _, h⟩ := List.mem_filterMap.1 h
  unfold siteOf at h
  split at h
  · cases h
  · split at h
    · cases h
    · split at h <;> cases h
      rfl

/-- Settles O3: the fault of step 3 of R58, and the record that it leaves whatever the segment. -/
theorem unassignedOpcodesFault : Obligations.UnassignedOpcodesFault := by
  unfold Obligations.UnassignedOpcodesFault
  refine fun w => ⟨decodeWith_eq_unassigned_iff w, rfl,
    fun x hw hr hon => ⟨_, verdict_unassignedOpcode hw hr hon, rfl, halves_append w⟩, fun s b h hp => ?_⟩
  obtain ⟨t, ht, hx⟩ := issueHeld_recorded (i := .unassignedOpcode w) (held := fun _ => false) nop_ownThread h
    (fun x hx => (proceeds_iff _ x).1 (hp x hx)) fun _ _ _ => rfl
  refine ⟨t, ht, fun y hy hr hon hm => ?_⟩
  have hv := verdict_unassignedOpcode (word_of_mem_turnSites hy) hr hon
  refine threadIs_mono (hx y hy _ hv rfl rfl hm) fun u hu => ?_
  obtain ⟨pc, hdr, hseg⟩ := hu.discarded.seg
  rw [hseg, hu.data0, hu.data1, hu.info]
  exact ⟨rfl, by simp [recordOf, unassignedTrouble, Code.bits], halves_append w, hu.status⟩

end Sys2Proof.Faults

/-! Every step answers a next state, unless it names a part that the device does not have (R1, R287; O7). -/

namespace Sys2Proof.Steps
open Machine

/-! ## Outcomes -/

/-- A next state, or the fault of a part that is not `here`. -/
def AnswersAt (here : Prop) (o : Out) : Prop := (∃ t, o = .next t) ∨ (¬here ∧ o = .fault .noSuchAgent)

section
variable {here : Prop}

theorem answersAt_next (t : State) : AnswersAt here (.next t) := .inl ⟨t, rfl⟩

theorem answersAt_missing {α : Type} {l : List α} {k : Nat} (h : here → k < l.length) (hn : l[k]? = none) :
    AnswersAt here (.fault .noSuchAgent) := .inr ⟨fun hh => absurd (h hh) (by simpa using hn), rfl⟩

theorem answersAt_ite {c : Prop} [Decidable c] {a b : Out} (ha : AnswersAt here a) (hb : AnswersAt here b) :
    AnswersAt here (if c then a else b) := by
  split
  · exact ha
  · exact hb

/-! ## Steps of one part -/

theorem answersAt_onCore {s : State} {k : Nat} {f : State → Core → State} (h : here → k < s.cores.length) :
    AnswersAt here (onCore s k f) := by
  unfold onCore
  split
  · exact answersAt_next _
  · exact answersAt_missing h ‹_›

theorem answersAt_onCluster {s : State} {n : Nat} {f : State → Cluster → State} (h : here → n < s.clusters.length) :
    AnswersAt here (onCluster s n f) := by
  unfold onCluster
  split
  · exact answersAt_next _
  · exact answersAt_missing h ‹_›

theorem answersAt_onPair {s : State} {n : Nat} {f : State → Pair → State} (h : here → n < s.pairs.length) :
    AnswersAt here (onPair s n f) := by
  unfold onPair
  split
  · exact answersAt_next _
  · exact answersAt_missing h ‹_›

/-- A step of a thread that is not there does not occur. -/
theorem answersAt_onThread (s : State) (t : ThreadRef) (f : Group → Thread → State) : AnswersAt here (onThread s t f) := by
  unfold onThread
  split <;> exact answersAt_next _

theorem answersAt_execDroopHoldRelease {s : State} {n : Nat} (h : here → n < s.clusters.length) :
    AnswersAt here (execDroopHoldRelease n s) := by
  unfold execDroopHoldRelease
  split
  · exact answersAt_missing h ‹_›
  · exact answersAt_next _

theorem answersAt_execWakeAdmit {s : State} {d : Nat} (h : here → d < s.dies.length) : AnswersAt here (execWakeAdmit d s) := by
  unfold execWakeAdmit
  split
  · exact answersAt_missing h ‹_›
  · exact answersAt_next _

theorem answersAt_execSheetEval {s : State} {d : Nat} (h : here → d < s.dies.length) : AnswersAt here (execSheetEval d s) := by
  unfold execSheetEval
  split
  · exact answersAt_missing h ‹_›
  · exact answersAt_ite (answersAt_next _) (answersAt_next _)

/-- A step of a die by its number: there are two (R1). -/
theorem answersAt_ofDie {d : Nat} {o : Out} (h : here → d < 2) (ho : AnswersAt here o) :
    AnswersAt here (if 2 ≤ d then .fault .noSuchAgent else o) := by
  split
  · exact .inr ⟨fun hh => absurd (h hh) (by omega), rfl⟩
  · exact ho

theorem answersAt_execVaultTempSample {s : State} {v : Nat} (h : here → v < s.vaults.length) :
    AnswersAt here (execVaultTempSample v s) := by
  unfold execVaultTempSample
  split
  · exact answersAt_missing h ‹_›
  · exact answersAt_ite (answersAt_next _) (answersAt_next _)

theorem answersAt_execVaultMigrate {s : State} {v : Nat} (h : here → v < s.vaults.length) :
    AnswersAt here (execVaultMigrate v s) := by
  unfold execVaultMigrate
  split
  · exact answersAt_missing h ‹_›
  · exact answersAt_ite (answersAt_next _) (answersAt_next _)

theorem answersAt_execHotPageMove {s : State} {v : Nat} (h : here → v < s.vaults.length) :
    AnswersAt here (execHotPageMove v s) := by
  unfold execHotPageMove
  split
  · exact answersAt_missing h ‹_›
  · exact answersAt_ite (answersAt_next _) (answersAt_next _)

theorem answersAt_execVaultCreditRefill {s : State} {v : Nat} (h : here → v < s.vaults.length) :
    AnswersAt here (execVaultCreditRefill v s) := by
  unfold execVaultCreditRefill
  split
  · exact answersAt_missing h ‹_›
  · exact answersAt_next _

theorem answersAt_execReductionPerform (id : Nat) (s : State) : AnswersAt here (execReductionPerform id s) := by
  unfold execReductionPerform
  split
  · exact answersAt_next _
  · split
    · exact answersAt_next _
    · refine answersAt_ite (answersAt_next _) (answersAt_ite (answersAt_next _) (answersAt_ite (answersAt_next _) ?_))
      dsimp only
      split <;> exact answersAt_next _

theorem answersAt_execHostReadRequest (m : LinkHead) (s : State) : AnswersAt here (execHostReadRequest m s) :=
  answersAt_ite (answersAt_next _) (answersAt_ite (answersAt_next _) (answersAt_next _))

/-! ## Words -/

theorem answersAt_issueHeld {s : State} {i : Instr} {held : Site → Bool} {body : Body} (h : here → s.focus < s.cores.length) :
    AnswersAt here (issueHeld s i held body) := by
  unfold issueHeld
  split
  · exact answersAt_missing h ‹_›
  · split
    · exact answersAt_next _
    · exact answersAt_ite (answersAt_next _) (answersAt_next _)

theorem answersAt_issueGather {s : State} {i : Instr} {own : List Member → Member → Option Trouble}
    {f : List Member → Member → List RegWrite × Wide} (h : here → s.focus < s.cores.length) :
    AnswersAt here (issueGather s i own f) := by
  unfold issueGather
  split
  · exact answersAt_missing h ‹_›
  · split
    · exact answersAt_next _
    · exact answersAt_ite (answersAt_next _) (answersAt_next _)

/-- A word runs on the core in focus, whatever it is. -/
theorem answersAt_word {i : Instr} {s : State} (hw : i.isWord = true) (h : here → s.focus < s.cores.length) :
    AnswersAt here (exec i s) := by
  rcases Words.word_issue hw with ⟨held, body, _, he⟩ | ⟨own, f, he⟩
  · rw [he]
    exact answersAt_issueHeld h
  · rw [he]
    exact answersAt_issueGather h

end

/-! ## Events -/

/-- The parts of a device that has all of them (R1, R287). -/
structure Whole (s : State) : Prop where
  cores    : s.cores.length = 128
  clusters : s.clusters.length = 32
  pairs    : s.pairs.length = 16
  dies     : s.dies.length = 2
  vaults   : s.vaults.length = 8

theorem whole_of_shaped {s : State} (h : s.shaped = true) : Whole s := by
  simp only [State.shaped, Bool.and_eq_true, decide_eq_true_eq] at h
  obtain ⟨⟨⟨⟨hc, hl⟩, hp⟩, hd⟩, hv⟩ := h
  exact ⟨hc, hl, hp, hd, hv⟩

/-- An agent number of a device that has all its parts stands for a part of it. -/
theorem lt_length {α : Type} {s : State} {i : Instr} {l : List α} {n k : Nat} (hl : Whole s → l.length = k)
    (hn : i.agentOk = true → n < k) : s.shaped = true ∧ i.agentOk = true → n < l.length :=
  fun ⟨hs, ha⟩ => (hl (whole_of_shaped hs)).symm ▸ hn ha

/-- An event answers a next state where the device has all its parts and the event names one of them. -/
theorem answersAt_event {i : Instr} (hw : i.isWord = false) (s : State) :
    AnswersAt (s.shaped = true ∧ i.agentOk = true) (exec i s) := by
  cases i with
  | clauseEnter k | burstSelect k | mxOpStart k | mxOpComplete k | partitionFlip k | eccUncorrectable k _ | eccCorrected k =>
    unfold exec
    exact answersAt_onCore (lt_length Whole.cores of_decide_eq_true)
  | queueServe k _ | mxIdleSelfTest k _ =>
    unfold exec
    exact answersAt_onCore (lt_length Whole.cores fun h => of_decide_eq_true (Bool.and_elim_left h))
  | droopDetect n | droopWindowEnd n | droopSupplyRecovered n | clusterGate n | clusterClockedAgain n =>
    unfold exec
    exact answersAt_onCluster (lt_length Whole.clusters of_decide_eq_true)
  | pairWakeDone n | ceilingApply n =>
    unfold exec
    exact answersAt_onPair (lt_length Whole.pairs of_decide_eq_true)
  | droopHoldRelease n => exact answersAt_execDroopHoldRelease (lt_length Whole.clusters of_decide_eq_true)
  | wakeAdmit d => exact answersAt_execWakeAdmit (lt_length Whole.dies of_decide_eq_true)
  | sheetEval d => exact answersAt_execSheetEval (lt_length Whole.dies of_decide_eq_true)
  | vaultTempSample v => exact answersAt_execVaultTempSample (lt_length Whole.vaults of_decide_eq_true)
  | vaultMigrate v => exact answersAt_execVaultMigrate (lt_length Whole.vaults of_decide_eq_true)
  | hotPageMove v => exact answersAt_execHotPageMove (lt_length Whole.vaults of_decide_eq_true)
  | vaultCreditRefill v => exact answersAt_execVaultCreditRefill (lt_length Whole.vaults of_decide_eq_true)
  | dieExport d _ | dieApply d _ =>
    exact answersAt_ofDie (fun h => of_decide_eq_true h.2) (answersAt_next _)
  | groupPlace d =>
    exact answersAt_ofDie (fun h => of_decide_eq_true h.2) (answersAt_ite (answersAt_next _) (answersAt_next _))
  | loadReturn _ | segmentCommit _ | atomicPerform _ | waitaReeval _ | waitaTimeout _ | waitaPoll _ | fenceComplete _
  | xfenceComplete _ =>
    unfold exec
    exact answersAt_onThread _ _ _
  | reductionPerform id => exact answersAt_execReductionPerform id s
  | hostReadRequest m => exact answersAt_execHostReadRequest m s
  | storeDrain _ | copyPiece _ | copyFixupResolve _ | copyComplete _ | bankSwitch _ | tierMoveStart _ | tierMoveSwitch _
  | tileOpProcess _ _ | tileRetire _ _ _ | ringStallThreshold _ _ | ringStallNotice _ _ | groupRetire _ | graphAccept _
  | graphEnd _ | placementBlock _ | fworkAnswer _ | partitionStarvation _ _ | groupEvict _ _ | groupSave _
  | migrationTransfer _ | passEnd _ _ | passEndRelease _ _ | pageMoveSwitch _ => exact answersAt_next _
  | noticeWrite | hostWrite _ _ _ | doorbell _ _ | readCompletion _ _ | writeCompletion _ | reservedTypeMessage _
  | deviceReset _ _ | firmwareReload _ _ => exact answersAt_next _
  | submitGraph _ _ | endPass _ _ _ | endGraph _ _ | preemptPass _ _ _ | resumePass _ _ _ | migrateGroup _ _ _ _ _ _ _
  | answerRetry _ _ | answerDeliver _ _ | answerEndPass _ _ | resumeThread _ _ _ _ | translationInvalidate _ _ _ _
  | mapSync _ | tierMoveCommand _ _ _ _ | addFrames _ _ _ _ | writePairControl _ _ _ | writeDieVoltage _ _ _
  | writePartitionControl _ _ _ | writePolicyTable _ _ _ | writeCounterConfig _ _ _ _ | writeTensorTableSize _ _
  | readStateControlWord _ _ _ | readStateScoreboard _ _ _ _ _ _ | readStateMatrixHealth _ _ _ | readStateCounter _ _ _ _
  | readStateGlobalTime _ _ | resetCore _ _ | registerQueue _ _ _ _ | attest _ _ _ | enrolKey _ _ _ | revokeKey _ _
  | raiseRollback _ | registerNoticeRing _ _ _ => exact answersAt_next _
  | _ => cases hw

/-- Settles O7: a word finds the core in focus, and an event the part it names. -/
theorem wellFormedStepsGoOn : Obligations.WellFormedStepsGoOn := by
  unfold Obligations.WellFormedStepsGoOn
  have answers : ∀ (i : Instr) (s : State), AnswersAt (s.shaped = true ∧ s.focus < 128 ∧ i.agentOk = true) (exec i s) := by
    intro i s
    cases hw : i.isWord with
    | true => exact answersAt_word hw fun ⟨hs, hf, _⟩ => (whole_of_shaped hs).cores.symm ▸ hf
    | false => exact (answersAt_event hw s).imp_right (And.imp_left (mt fun ⟨hs, _, ha⟩ => ⟨hs, ha⟩))
  refine ⟨fun i s r => ?_, fun i s hs hf hwf => ?_⟩
  · rcases answers i s with ⟨t, h⟩ | ⟨_, h⟩ <;> simp [h]
  · simp only [Instr.wf, Bool.and_eq_true] at hwf
    obtain ⟨_, ha⟩ := hwf
    rcases answers i s with ⟨t, h⟩ | ⟨hn, _⟩
    · exact ⟨t, h, trivial⟩
    · exact absurd ⟨hs, hf, ha⟩ hn

end Sys2Proof.Steps

/-! What the operations of a word leave of the bytes that a core reads: dirty bytes may go home, and no other byte changes
(R111, R113, R217, R219). -/

namespace Sys2Proof.Copies
open Machine Storage Feedback Lines

/-- A byte as core `k` reads it past the clean lines of its L1: what it holds dirty, or else what its home slices hold. -/
def coreByte (s : State) (k a : Nat) : Byte := (Memory.read (getCore s k).l1Dirty a).getD (homeByte s (dieOf k) a)

/-- Core `k` stands on a die of the device, and holds no byte dirty twice. -/
structure Sited (k : Nat) (s : State) : Prop where
  die   : dieOf k < s.dies.length
  dirty : ((getCore s k).l1Dirty.map Prod.fst).Nodup

/-- The caches of paths V and S hold no flaw. -/
def SoundCaches (c : Core) : Prop := c.l1Flaws = .none ∧ ∀ l ∈ c.sCache, l.flaws = .none

/-- No flaw at the home slices, nor in what core `k` caches on paths V and S. -/
structure Unflawed (k : Nat) (s : State) : Prop where
  homes  : ∀ d, homeFlaws s d = .none
  caches : SoundCaches (getCore s k)

/-- From `s` to `t`, dirty bytes of core `k` may have gone to its home slices, and nothing else that it reads has changed. -/
structure KeepsBytes (k : Nat) (s t : State) : Prop where
  late  : t.late = s.late
  dies  : t.dies.length = s.dies.length
  dirty : ∃ p, (getCore t k).l1Dirty = Memory.drop (getCore s k).l1Dirty p
  reads : Sited k s → ∀ a, coreByte t k a = coreByte s k a

/-- The same, and no flaw has come to what core `k` reads. -/
structure Backs (k : Nat) (s t : State) : Prop where
  bytes : KeepsBytes k s t
  flaws : Unflawed k s → Unflawed k t

/-! ## Memory and parts of the state -/

theorem read_filter (m : List Host.Cell) (p : Nat → Bool) (a : Nat) :
    Memory.read (m.filter fun c => p c.1) a = if p a then Memory.read m a else none := by
  induction m with
  | nil => simp [Memory.read]
  | cons c m ih =>
    obtain ⟨k, x⟩ := c
    cases hp : p k with
    | true =>
      rw [List.filter_cons_of_pos (by exact hp), Memory.read, Memory.read, ih]
      split
      · next hk => rw [← hk, hp, if_pos rfl]
      · rfl
    | false =>
      rw [List.filter_cons_of_neg (by simp [hp]), Memory.read, ih]
      split
      · next ha => rw [if_neg]; rintro rfl; simp [hp] at ha
      · rfl

theorem read_drop (m : List Host.Cell) (p : Nat → Bool) (a : Nat) :
    Memory.read (Memory.drop m p) a = if p a then none else Memory.read m a := by
  refine (read_filter m (fun a => !p a) a).trans ?_
  cases p a <;> rfl

@[simp] theorem drop_none (m : List Host.Cell) : (Memory.drop m fun _ => false) = m := by simp [Memory.drop]

theorem drop_drop (m : List Host.Cell) (p q : Nat → Bool) :
    Memory.drop (Memory.drop m p) q = Memory.drop m fun a => p a || q a := by
  simp [Memory.drop, List.filter_filter, Bool.and_comm]

/-- A change of a core changes the core that is there, and no other. -/
theorem getCore_updCore_or (s : State) (j k : Nat) (f : Core → Core) :
    getCore (updCore s j f) k = getCore s k ∨ getCore (updCore s j f) k = f (getCore s k) := by
  by_cases hj : j = k
  · subst hj
    cases h : s.cores[j]? with
    | none => simp [getCore, List.getD_eq_getElem?_getD, h]
    | some c => simp [getCore, List.getD_eq_getElem?_getD, h]
  · exact .inl (getCore_updCore_other s f hj)

theorem getDie_updDie_or (s : State) (d e : Nat) (f : Die → Die) :
    getDie (updDie s d f) e = getDie s e ∨ (e = d ∧ getDie (updDie s d f) e = f (getDie s e)) := by
  by_cases hd : d = e
  · subst hd
    cases h : s.dies[d]? with
    | none => simp [getDie, List.getD_eq_getElem?_getD, h]
    | some c => simp [getDie, List.getD_eq_getElem?_getD, h]
  · simp [getDie, List.getD_eq_getElem?_getD, hd]

/-! ## The relation -/

section
variable {k : Nat}

theorem KeepsBytes.refl (s : State) : KeepsBytes k s s := ⟨rfl, rfl, ⟨fun _ => false, (drop_none _).symm⟩, fun _ _ => rfl⟩

theorem Sited.keepsBytes {s t : State} (hs : Sited k s) (h : KeepsBytes k s t) : Sited k t := by
  obtain ⟨p, hp⟩ := h.dirty
  exact ⟨h.dies ▸ hs.die, hp ▸ hs.dirty.sublist (List.filter_sublist.map _)⟩

theorem KeepsBytes.trans {a b c : State} (h : KeepsBytes k a b) (g : KeepsBytes k b c) : KeepsBytes k a c := by
  obtain ⟨p, hp⟩ := h.dirty
  obtain ⟨q, hq⟩ := g.dirty
  exact ⟨g.late.trans h.late, g.dies.trans h.dies, ⟨_, by rw [hq, hp, drop_drop]⟩,
    fun hs x => (g.reads (hs.keepsBytes h) x).trans (h.reads hs x)⟩

theorem Backs.refl (s : State) : Backs k s s := ⟨.refl s, id⟩

theorem Backs.trans {a b c : State} (h : Backs k a b) (g : Backs k b c) : Backs k a c :=
  ⟨h.bytes.trans g.bytes, g.flaws ∘ h.flaws⟩

theorem backs_ite {s a b : State} {c : Prop} [Decidable c] (ha : Backs k s a) (hb : Backs k s b) :
    Backs k s (if c then a else b) := by
  split
  · exact ha
  · exact hb

/-- The cores are as they were, and the home slices of core `k` read as they did. -/
theorem KeepsBytes.of_homes {s t : State} (hl : t.late = s.late) (hd : t.dies.length = s.dies.length) (hc : t.cores = s.cores)
    (hh : ∀ a, homeByte t (dieOf k) a = homeByte s (dieOf k) a) : KeepsBytes k s t := by
  have core : getCore t k = getCore s k := by simp [getCore, hc]
  exact ⟨hl, hd, ⟨fun _ => false, by simp [core]⟩, fun _ a => by simp [coreByte, core, hh]⟩

/-- Neither the cores nor the dies have changed. -/
theorem Backs.of_parts {s t : State} (hl : t.late = s.late) (hd : t.dies = s.dies) (hc : t.cores = s.cores)
    (hb : ∀ a, baseByte t a = baseByte s a) : Backs k s t where
  bytes := .of_homes hl (by rw [hd]) hc fun a => by simp [homeByte, getDie, hd, hb]
  flaws h := ⟨fun d => by simpa [homeFlaws, getDie, hd] using h.homes d, by simpa [getCore, hc] using h.caches⟩

theorem backs_updThread (s : State) (t : ThreadRef) (f : Thread → Thread) : Backs k s (updThread s t f) :=
  .of_parts rfl rfl rfl fun _ => rfl

theorem backs_notify (s : State) (p : Payload) (key : Option (FaultKey × BitVec 8)) : Backs k s (notify s p key).1 :=
  .of_parts rfl rfl rfl fun _ => rfl

/-- A change of a core that leaves its dirty bytes and brings no flaw. -/
theorem backs_updCore {s : State} (j : Nat) {f : Core → Core} (hd : ∀ c, (f c).l1Dirty = c.l1Dirty)
    (hf : Unflawed k s → SoundCaches (f (getCore s k))) : Backs k s (updCore s j f) := by
  have core := getCore_updCore_or s j k f
  have dirty : (getCore (updCore s j f) k).l1Dirty = (getCore s k).l1Dirty := by rcases core with h | h <;> simp [h, hd]
  refine ⟨⟨rfl, rfl, ⟨fun _ => false, by simp [dirty]⟩, fun _ a => by rw [coreByte, dirty]; rfl⟩, fun h => ⟨h.homes, ?_⟩⟩
  rcases core with e | e <;> rw [e]
  · exact h.caches
  · exact hf h

/-- A change of a core that leaves what it caches on paths V and S. -/
theorem backs_updCore_other (s : State) (j : Nat) (f : Core → Core)
    (h : ∀ c, (f c).l1Dirty = c.l1Dirty ∧ (f c).l1Flaws = c.l1Flaws ∧ (f c).sCache = c.sCache := by
      intro _; exact ⟨rfl, rfl, rfl⟩) : Backs k s (updCore s j f) :=
  backs_updCore j (fun c => (h c).1) fun hu => by
    obtain ⟨-, hf, hc⟩ := h (getCore s k)
    rw [SoundCaches, hf, hc]
    exact hu.caches

theorem backs_bump (s : State) (j e : Nat) (st : Option Nat) (n : Nat) : Backs k s (bump s j e st n) :=
  backs_updCore_other s j _

theorem keepsBytes_updDie (s : State) (d : Nat) (f : Die → Die)
    (hm : ∀ x, (f x).mem = x.mem := by intro _; rfl) : KeepsBytes k s (updDie s d f) :=
  .of_homes rfl (by simp) rfl fun a => homeByte_updDie_of_mem s f (.inr hm) a

/-- A change of a die that leaves its bytes and brings no flaw. -/
theorem backs_updDie (s : State) (d : Nat) (f : Die → Die) (hm : ∀ x, (f x).mem = x.mem := by intro _; rfl)
    (hf : ∀ x, x.flaws = .none → (f x).flaws = .none := by intro _ h; exact h) : Backs k s (updDie s d f) := by
  refine ⟨keepsBytes_updDie s d f hm, fun h => ⟨fun e => ?_, h.caches⟩⟩
  rcases getDie_updDie_or s d e f with q | ⟨-, q⟩ <;> rw [homeFlaws, q]
  · exact h.homes e
  · exact hf _ (h.homes e)

/-! ## Home slices and stack caches (R219, R242) -/

theorem backs_exportOne (s : State) (d i : Nat) : Backs k s (exportOne s d i) := by
  unfold exportOne
  dsimp only
  split
  · exact .refl s
  · exact backs_ite (.refl s) (.trans (backs_updDie _ _ _)
      (backs_updDie _ _ _))

theorem backs_exportSome (p : Export → Bool) (n : Nat) (s : State) (d : Nat) : Backs k s (exportSome p n s d) := by
  induction n generalizing s with
  | zero => exact .refl s
  | succ n ih =>
    unfold exportSome
    split
    · exact .refl s
    · exact (backs_exportOne s d _).trans (ih _)

/-- Bytes that go to DRAM are read as before; a flaw that the check finds was there (R323). -/
theorem backs_dramWrite (s : State) (d sector : Nat) : Backs k s (dramWrite s d sector) := by
  unfold dramWrite
  split
  · rename_i hm
    have flawed : ¬Unflawed k s := fun h => by simp [mismatchAt, h.homes, Flaws.wrong, Flaws.none] at hm
    refine ⟨?_, fun h => absurd h flawed⟩
    have marked : KeepsBytes k s (updDie (updDie s d fun x => { x with flaws := x.flaws.mend fun b => sectorOf b = sector }) d
        fun x => { x with flaws := x.flaws.addPoison sector }) := (keepsBytes_updDie s d _).trans (keepsBytes_updDie _ d _)
    dsimp only
    refine .trans ?_ (backs_notify _ _ _).bytes
    split
    · exact marked
    · exact marked.trans (keepsBytes_updDie _ _ _)
  · exact .refl s

theorem backs_evictSector (s : State) (d sector : Nat) : Backs k s (evictSector s d sector) := by
  refine .trans (backs_ite ?_ (.refl s)) (backs_updDie _ _ _)
  exact (backs_exportSome _ _ s d).trans (backs_dramWrite _ d sector)

theorem backs_evictStackLine (s : State) (d l : Nat) : Backs k s (evictStackLine s d l) :=
  .trans (foldl_rel .refl .trans _ (fun s a _ => backs_evictSector s d a) s)
    (backs_updDie _ _ _)

theorem backs_trimVault (s : State) (v room : Nat) : Backs k s (trimVault s v room) :=
  foldl_rel .refl .trans _ (fun s l _ => backs_evictStackLine s (v / 4) l) s

theorem backs_fillSector (s : State) (j a : Nat) (nt : Bool) : Backs k s (fillSector s j a nt) := by
  unfold fillSector
  refine backs_ite (.of_parts rfl rfl rfl fun _ => rfl) (backs_ite (.refl s) ?_)
  exact .trans (backs_ite (.refl s) (backs_trimVault s _ _))
    (.trans (backs_updDie _ _ _) (backs_bump _ _ _ _ _))

/-! ## L1 (R111, R217) -/

/-- Sound flaws stay sound where they are cut down to some sectors. -/
theorem Flaws.within_none (p : Nat → Bool) : Flaws.within .none p = .none := rfl

theorem soundCaches_pruneL1 {c : Core} (h : SoundCaches c) : SoundCaches (pruneL1 c) :=
  ⟨by rw [pruneL1, h.1, Flaws.within_none], h.2⟩

@[simp] theorem Flaws.write_none (cells : List Host.Cell) (clears : Bool) : Flaws.write .none cells clears = .none := by
  simp [Flaws.write, Flaws.none, dropSyndromes]

@[simp] theorem Flaws.carry_none (cells : List Host.Cell) : Flaws.carry .none cells = .none := rfl

/-- A write of sound data brings no flaw to sound home slices. -/
theorem homeFlaws_performWith {s : State} (h : ∀ d, homeFlaws s d = .none) (d : Nat) (path : Path) (core : Option Nat)
    (cells : List Host.Cell) (clears : Bool) (ends : List Nat) (e : Nat) :
    homeFlaws (performWith s d path core cells clears ends .none) e = .none := by
  rcases getDie_updDie_or (logWrite (countPages s (cells.map Prod.fst)) path core [] (cells.map Prod.fst)) d e _ with q | ⟨-, q⟩
  · exact (congrArg Die.flaws q).trans (h e)
  · refine (congrArg Die.flaws q).trans ?_
    change ((Flaws.write (homeFlaws s e) cells clears).clear ends).join .none = .none
    rw [h e, Flaws.write_none]
    rfl

/-- The core that has written dirty bytes back. -/
theorem getCore_writeBack (s : State) (p : Nat → Bool) :
    (getCore (writeBack s k p) k).l1Dirty = Memory.drop (getCore s k).l1Dirty p ∧
      (SoundCaches (getCore s k) → SoundCaches (getCore (writeBack s k p) k)) := by
  unfold writeBack
  dsimp only
  split
  · rename_i he
    have none : ∀ c ∈ (getCore s k).l1Dirty, p c.1 = false := by simpa [List.filter_eq_nil_iff] using he
    exact ⟨(List.filter_eq_self.2 fun c hc => by simp [none c hc]).symm, id⟩
  · rename_i hne
    have there : ∀ f, getCore (updCore s k f) k = f (getCore s k) := fun f => by
      cases hc : s.cores[k]? with
      | none => simp [getCore, List.getD_eq_getElem?_getD, hc, Core.reset] at hne
      | some c => simp [getCore, List.getD_eq_getElem?_getD, hc]
    have core := fun cells flaws f => show getCore (performWith (updCore s k f) (dieOf k) .v (some k) cells false [] flaws) k = _ from
      there f
    rw [core]
    exact ⟨rfl, fun h => soundCaches_pruneL1 ⟨h.1, h.2⟩⟩

/-- A byte at the home slices after a core has written dirty bytes back. -/
theorem homeByte_writeBack {s : State} (hs : Sited k s) (p : Nat → Bool) (a : Nat) :
    homeByte (writeBack s k p) (dieOf k) a = if p a then coreByte s k a else homeByte s (dieOf k) a := by
  have written : Memory.read ((getCore s k).l1Dirty.filter fun c => p c.1) a =
      if p a then Memory.read (getCore s k).l1Dirty a else none :=
    read_filter _ p a
  unfold writeBack
  dsimp only
  split
  · rename_i he
    rw [List.isEmpty_iff.1 he] at written
    split
    · next hp =>
      rw [if_pos hp] at written
      rw [coreByte, ← written]
      rfl
    · rfl
  · refine (homeByte_performWith (s := updCore s k _) hs.die .v (some k)
      (hs.dirty.sublist (List.filter_sublist.map Prod.fst)) false [] _ (dieOf k) a).trans ?_
    rw [if_pos rfl, written]
    cases p a <;> rfl

/-- Bytes that are written back are read at the home slice as they were read in L1. -/
theorem backs_writeBack (s : State) (p : Nat → Bool) : Backs k s (writeBack s k p) := by
  obtain ⟨dirty, sound⟩ := getCore_writeBack (k := k) s p
  have parts : (writeBack s k p).late = s.late ∧ (writeBack s k p).dies.length = s.dies.length ∧
      (Unflawed k s → ∀ d, homeFlaws (writeBack s k p) d = .none) := by
    unfold writeBack
    dsimp only
    split
    · exact ⟨rfl, rfl, Unflawed.homes⟩
    · refine ⟨rfl, by simp [performWith, logWrite, countPages], fun h => ?_⟩
      rw [h.caches.1, Flaws.carry_none]
      exact homeFlaws_performWith (s := updCore s k _) h.homes _ _ _ _ _ _
  obtain ⟨late, dies, homes⟩ := parts
  refine ⟨⟨late, dies, ⟨p, dirty⟩, fun hs a => ?_⟩, fun h => ⟨homes h, sound h.caches⟩⟩
  rw [coreByte, dirty, read_drop, homeByte_writeBack hs, coreByte]
  cases p a <;> rfl

theorem backs_evictLine (s : State) (line : Nat) : Backs k s (evictLine s k line) :=
  (backs_writeBack s _).trans (backs_updCore k (fun _ => rfl) fun h => soundCaches_pruneL1 h.caches)

theorem backs_makeRoom (s : State) (line : Nat) (keep : Bool) : Backs k s (makeRoom s k line keep) := by
  unfold makeRoom
  refine backs_ite (.refl s) ?_
  split
  · exact backs_evictLine s _
  · exact .refl s

theorem allocLine_keeps (c : Core) (line : Nat) (keep low : Bool) :
    (allocLine c line keep low).l1Dirty = c.l1Dirty ∧ (allocLine c line keep low).sCache = c.sCache := by
  unfold allocLine
  split
  · exact ⟨rfl, rfl⟩
  · split <;> exact ⟨rfl, rfl⟩

theorem backs_fillL1 (s : State) (a : Nat) (keep low : Bool) : Backs k s (fillL1 s k a keep low) := by
  unfold fillL1
  dsimp only
  generalize hroom : (if keep = true then makeRoom s k (lineOf a) true else s) = t
  have room : Backs k s t := hroom ▸ backs_ite (backs_makeRoom s _ _) (.refl s)
  refine room.trans (backs_ite (.refl t) ?_)
  refine backs_updCore k (fun c => (allocLine_keeps c _ _ _).1) fun h => ⟨?_, ?_⟩
  · dsimp only
    split
    · exact h.caches.1
    · rw [h.caches.1, h.homes]
      exact Flaws.write_none _ _
  · simp only [(allocLine_keeps _ _ _ _).2]
    exact h.caches.2

/-! ## Lines of an access -/

/-- The home slices' line is as sound as they are. -/
theorem backs_fillS (s : State) (a : Nat) : Backs k s (fillS s k a) := by
  refine backs_updCore k (fun _ => rfl) fun h => ⟨h.caches.1, fun l hl => ?_⟩
  dsimp only [addLine] at hl
  split at hl
  · exact h.caches.2 l hl
  · rcases List.mem_cons.1 hl with rfl | hl
    · rw [homeLine, h.homes]
      rfl
    · exact h.caches.2 l hl

theorem backs_tlbFill (s : State) (j va : Nat) : Backs k s (tlbFill s j va) := by
  unfold tlbFill
  dsimp only
  split
  · exact .refl s
  · refine backs_ite (.refl s) ?_
    split
    · exact .refl s
    · exact backs_updCore_other s j _

theorem backs_serveLine (s : State) {x : Site} (hx : x.core = k) (path : Path) (place : Placing) (l : Nat) :
    Backs k s (serveLine s x path place l) := by
  subst hx
  unfold serveLine
  split
  · exact backs_ite (.refl s) ((backs_fillSector s _ _ _).trans (backs_fillS _ _))
  · exact backs_ite ((backs_fillL1 s _ _ _).trans (backs_bump _ _ _ _ _))
      ((backs_fillSector s _ _ _).trans ((backs_fillL1 _ _ _ _).trans (backs_bump _ _ _ _ _)))

theorem backs_fillLines (s : State) {x : Site} (hx : x.core = k) (path : Path) (place : Placing) (served : List Nat)
    (ps : List Spot) : Backs k s (fillLines s x path place served ps) := by
  refine .trans (foldl_rel .refl .trans ps (fun s p _ => ?_) s)
    (foldl_rel .refl .trans _ (fun s l _ => backs_serveLine s hx path place l) _)
  split
  · exact backs_ite (backs_tlbFill s _ _) (.refl s)
  · exact .refl s

theorem backs_dropSpotLine (s : State) (path : Path) (ps : List Spot) : Backs k s (dropSpotLine s k path ps) := by
  unfold dropSpotLine
  split
  · unfold dropLine
    split
    · exact backs_updCore k (fun _ => rfl) fun h => ⟨h.caches.1, fun l hl => h.caches.2 l (List.mem_of_mem_filter hl)⟩
    · exact backs_evictLine s _
  · exact .refl s

/-! ## Words and faults (R41, R193) -/

theorem backs_unspill (s : State) (j : Nat) : Backs k s (unspill s j) := by
  unfold unspill
  dsimp only
  split
  · split
    · exact backs_updCore_other s j _
    · exact backs_updCore_other s j _
  · exact .refl s

theorem backs_newEntry (s : State) (j : Nat) (t : ThreadRef) (key : EntryKey) (pc hdr : Word) :
    Backs k s (newEntry s j t key pc hdr) := by
  unfold newEntry
  dsimp only
  split
  · exact backs_updCore_other s j _
  · split
    · exact backs_updCore_other s j _
    · exact backs_updCore_other s j _

theorem backs_joinTable (s : State) (t : ThreadRef) : Backs k s (joinTable s t) := by
  unfold joinTable
  split
  · exact .refl s
  · split
    · exact .refl s
    · rename_i j _
      have left : Backs k s (unspill (updCore s j fun c => leaveTable c t) j) :=
        (backs_updCore_other s j _).trans (backs_unspill _ j)
      exact backs_ite (.refl s) (left.trans (backs_ite (backs_updCore_other _ j _) (backs_newEntry _ _ _ _ _ _)))

theorem backs_makeReady (s : State) (t : ThreadRef) : Backs k s (makeReady s t) := by
  unfold makeReady
  split
  · exact .refl s
  · exact (backs_updThread s t _).trans (backs_joinTable _ t)

theorem backs_faultNotice (s : State) (p : Payload) (key : FaultKey × BitVec 8) : Backs k s (faultNotice s p key).1 := by
  unfold faultNotice
  split
  · exact .refl s
  · exact backs_notify s p _

theorem backs_parkHost (s : State) (t : ThreadRef) (r : Record) : Backs k s (parkHost s t r) := by
  unfold parkHost
  split
  · exact .refl s
  · exact .trans (backs_faultNotice s _ _) (.trans (backs_updThread _ t _) (backs_joinTable _ t))

theorem backs_routeVector (s : State) (t : ThreadRef) (r : Record) : Backs k s (routeVector s t r) := by
  unfold routeVector
  split
  · exact .refl s
  · split
    · exact backs_parkHost s t r
    · exact backs_ite ((backs_updThread s t _).trans (backs_makeReady _ t)) (backs_parkHost s t r)

theorem backs_routeProcessor (s : State) (t : ThreadRef) (r : Record) : Backs k s (routeProcessor s t r) := by
  unfold routeProcessor
  split
  · exact .refl s
  · exact .trans (backs_faultNotice s _ _) (.trans (backs_updThread _ t _) (backs_joinTable _ t))

theorem backs_takeFault (s : State) (t : ThreadRef) (r : Record) (split : Bool) : Backs k s (takeFault s t r split) := by
  unfold takeFault
  split
  · exact .refl s
  · refine .trans (backs_bump s _ _ _ _) (backs_ite (backs_parkHost _ t r)
      (backs_ite ((backs_updThread _ t _).trans (backs_makeReady _ t)) ?_))
    split
    · exact backs_routeProcessor _ t r
    all_goals exact backs_routeVector _ t r

theorem backs_leaveBurst (s : State) (j : Nat) (t : ThreadRef) : Backs k s (leaveBurst s j t) :=
  backs_updCore_other s j _

theorem backs_faultOwn (s : State) (j : Nat) (t : ThreadRef) (tr : Trouble) : Backs k s (faultOwn s j t tr) := by
  unfold faultOwn
  split
  · exact .refl s
  · refine backs_ite (.refl s) (backs_ite ?_ ((backs_leaveBurst s j t).trans (backs_takeFault _ t _ _)))
    unfold parkGather
    split
    · exact .refl s
    · exact ((backs_leaveBurst s j t).trans (backs_updCore_other _ j _)).trans (backs_takeFault _ t _ _)

theorem backs_addDisabled (s : State) (i : Instr) (x : Site) : Backs k s (addDisabled s i x) := by
  unfold addDisabled
  split
  · exact backs_ite (backs_updThread s x.t _) (.refl s)
  · exact .refl s

theorem backs_countIssue (s : State) (j : Nat) (i : Instr) (xs : List Site) : Backs k s (countIssue s j i xs) := by
  have serial : Backs k s { s with serial := s.serial + 1 } := .of_parts rfl rfl rfl fun _ => rfl
  unfold countIssue
  dsimp only
  refine serial.trans ?_
  split
  · exact backs_updCore_other _ j _
  · refine .trans (.trans ?_ (backs_bump _ _ _ _ _)) (backs_bump _ _ _ _ _)
    exact backs_updCore_other _ j _

/-- A thread's own execution of a word, where the word's rule keeps the bytes that core `k` reads. -/
theorem backs_issueThread (i : Instr) {body : Body} {x : Site} (hb : ∀ s s', body s x = .ok s' → Backs k s s') (s : State) :
    Backs k s (issueThread i body s x) := by
  have begun : ∀ on, Backs k s (beginWord s i x on) := fun _ => backs_updThread s x.t _
  have faulted : ∀ s tr, Backs k s (faultWord s i x tr) := fun s tr =>
    (backs_faultOwn s x.core x.t tr).trans (backs_ite (backs_addDisabled _ i x) (.refl _))
  unfold issueThread
  split
  · exact .refl s
  · exact (begun false).trans (backs_addDisabled _ i x)
  · exact faulted s _
  · dsimp only
    split
    · next h => exact (begun true).trans (hb _ _ h)
    · exact (begun true).trans (faulted _ _)

end

end Sys2Proof.Copies

/-! Loads: the line of a row, the bytes that a load reads and what its data checks find (R107-R117; O30). -/

namespace Sys2Proof.Loads
open Machine Words Lines Copies Faults

/-! ## The line of a row (R113) -/

/-- The lower of two lanes, the first of equals: a step of `rowLine`. -/
def lowerLane (best : Option (Nat × Bool × Nat)) (q : Nat × Bool × Nat) : Option (Nat × Bool × Nat) :=
  match best with
  | none => some q
  | some b => if q.1 < b.1 then some q else some b

theorem lowerLane_foldl (l : List (Nat × Bool × Nat)) : ∀ b, ∃ q, l.foldl lowerLane (some b) = some q ∧ (q = b ∨ q ∈ l) ∧
    q.1 ≤ b.1 ∧ ∀ p ∈ l, q.1 ≤ p.1 := by
  induction l with
  | nil => exact fun b => ⟨b, rfl, .inl rfl, le_rfl, by simp⟩
  | cons a l ih =>
    intro b
    obtain ⟨c, hc, hm, hb, ha⟩ : ∃ c, lowerLane (some b) a = some c ∧ (c = b ∨ c = a) ∧ c.1 ≤ b.1 ∧ c.1 ≤ a.1 := by
      unfold lowerLane
      dsimp only
      split
      · next h => exact ⟨a, rfl, .inr rfl, h.le, le_rfl⟩
      · next h => exact ⟨b, rfl, .inl rfl, le_rfl, not_lt.1 h⟩
    obtain ⟨q, hq, hmem, hqc, hql⟩ := ih c
    refine ⟨q, by rw [List.foldl_cons, hc, hq], ?_, hqc.trans hb, fun p hp => ?_⟩
    · rcases hmem with e | h
      · exact hm.imp e.trans fun ha => List.mem_cons.2 (.inl (e.trans ha))
      · exact .inr (List.mem_cons_of_mem _ h)
    · rcases List.mem_cons.1 hp with rfl | hp
      · exact hqc.trans ha
      · exact hql p hp

/-- The lowest of a list of lanes, if the list holds one. -/
theorem lowerLane_foldl_none (l : List (Nat × Bool × Nat)) :
    (l = [] ∧ l.foldl lowerLane none = none) ∨ ∃ q ∈ l, l.foldl lowerLane none = some q ∧ ∀ p ∈ l, q.1 ≤ p.1 := by
  cases l with
  | nil => exact .inl ⟨rfl, rfl⟩
  | cons b l =>
    obtain ⟨q, hq, hm, hb, hl⟩ := lowerLane_foldl l b
    exact .inr ⟨q, List.mem_cons.2 hm, hq, fun p hp => (List.mem_cons.1 hp).elim (fun e => e ▸ hb) (hl p)⟩

section
variable (i : Instr) (acc : Site → Except Trouble (BufRec × List Spot)) (x : Site)

/-- The lanes of the row of `x` whose accesses pass, each with the line of its first byte. -/
def rowKeys : List (Nat × Bool × Nat) :=
  ((x.mates i).filter fun y => y.t.group = x.t.group && y.t.row = x.t.row).filterMap fun y =>
    match (acc y).map Prod.snd with
    | .ok (p :: _) => some (y.t.lane, lineKey p)
    | _ => none

theorem rowLine_eq : rowLine x i (fun y => (acc y).map Prod.snd) = ((rowKeys i acc x).foldl lowerLane none).map Prod.snd := rfl

/-- A thread of the row of `x` that executes the word with it. -/
def GoesWith (y : Site) : Prop :=
  y ∈ currentSites { x.before with focus := x.core } i ∧ x.t.group = y.t.group ∧ x.t.row = y.t.row ∧ Clear i y = true

theorem mem_rowKeys {q : Nat × Bool × Nat} : q ∈ rowKeys i acc x ↔
    ∃ y r p ps, GoesWith i x y ∧ acc y = .ok (r, p :: ps) ∧ q = (y.t.lane, lineKey p) := by
  simp only [rowKeys, List.mem_filterMap, List.mem_filter, Site.mates, Bool.and_eq_true, decide_eq_true_eq, GoesWith, clear_iff]
  constructor
  · rintro ⟨y, ⟨⟨hy, hv⟩, hg, hr⟩, hk⟩
    match ha : acc y, hk with
    | .ok (r, p :: ps), hk => exact ⟨y, r, p, ps, ⟨hy, hg.symm, hr.symm, hv⟩, ha, by simpa [ha, Except.map] using hk.symm⟩
    | .ok (r, []), hk => simp [Except.map] at hk
    | .error _, hk => simp [Except.map] at hk
  · rintro ⟨y, r, p, ps, ⟨hy, hg, hr, hv⟩, ha, rfl⟩
    exact ⟨y, ⟨⟨hy, hv⟩, hg.symm, hr.symm⟩, by simp [ha, Except.map]⟩

theorem threadRef_eq {t u : ThreadRef} (hg : t.group = u.group) (hr : t.row = u.row) (hl : t.lane = u.lane) : t = u := by
  cases t
  cases u
  cases hg
  cases hr
  cases hl
  rfl

/-- The row's line is that of the lowest lane that executes the word with an access that passes its checks. -/
theorem rowLine_eq_some_iff (hn : ((currentSites { x.before with focus := x.core } i).map Site.t).Nodup) (key : Bool × Nat) :
    rowLine x i (fun y => (acc y).map Prod.snd) = some key ↔ RowLine i acc x key := by
  rw [rowLine_eq, Option.map_eq_some_iff]
  have lowest : RowLine i acc x key ↔ ∃ y r p ps, GoesWith i x y ∧ acc y = .ok (r, p :: ps) ∧ lineKey p = key ∧
      ∀ z r' p' ps', GoesWith i x z → acc z = .ok (r', p' :: ps') → y.t.lane ≤ z.t.lane := Iff.rfl
  rw [lowest]
  constructor
  · rintro ⟨q, hq, rfl⟩
    rcases lowerLane_foldl_none (rowKeys i acc x) with ⟨-, h⟩ | ⟨q', hm, hq', hl⟩
    · cases h.symm.trans hq
    · obtain rfl : q' = q := Option.some.inj (hq'.symm.trans hq)
      obtain ⟨y, r, p, ps, hy, ha, rfl⟩ := (mem_rowKeys i acc x).1 hm
      exact ⟨y, r, p, ps, hy, ha, rfl, fun z r' p' ps' hz hza => hl _ ((mem_rowKeys i acc x).2 ⟨z, r', p', ps', hz, hza, rfl⟩)⟩
  · rintro ⟨y, r, p, ps, hy, ha, rfl, hl⟩
    have hm := (mem_rowKeys i acc x).2 ⟨y, r, p, ps, hy, ha, rfl⟩
    rcases lowerLane_foldl_none (rowKeys i acc x) with ⟨h, -⟩ | ⟨q, hq, hf, hmin⟩
    · rw [h] at hm
      cases hm
    · obtain ⟨z, r', p', ps', hz, hza, rfl⟩ := (mem_rowKeys i acc x).1 hq
      have lane : y.t.lane = z.t.lane := le_antisymm (hl z r' p' ps' hz hza) (hmin _ hm)
      obtain ⟨hys, hyg, hyr, -⟩ := hy
      obtain ⟨hzs, hzg, hzr, -⟩ := hz
      have same : y.t = z.t := threadRef_eq (hyg.symm.trans hzg) (hyr.symm.trans hzr) lane
      obtain rfl : y = z := List.inj_on_of_nodup_map hn hys hzs same
      rw [ha] at hza
      cases hza
      exact ⟨_, hf, rfl⟩

/-- A `.line` access is performed past the caches exactly when it lies in its row's line. -/
theorem insideLine_iff (hn : ((currentSites { x.before with focus := x.core } i).map Site.t).Nodup) (width : Nat) (ps : List Spot) :
    insideLine (rowLine x i fun y => (acc y).map Prod.snd) (spotsMisaligned ps width) ps = true ↔ InLine i acc width x ps := by
  simp only [insideLine, InLine, Bool.and_eq_true, List.all_eq_true, decide_eq_true_eq, rowLine_eq_some_iff i acc x hn]
  refine and_congr_left fun _ => ?_
  cases ps with
  | nil => simp [spotsMisaligned]
  | cons p ps => simp [spotsMisaligned]

end

/-- The threads that execute the word with a thread of an issue group are that issue group. -/
theorem currentSites_of_mem {s : State} {b : Burst} {i : Instr} {x : Site} (h : AtWord s b) (hx : x ∈ turnSites s s.focus b i) :
    x.core = s.focus ∧ findThread s x.t = some (x.g, x.th) ∧
      currentSites { x.before with focus := x.core } i = turnSites s s.focus b i := by
  obtain ⟨t, _, hs⟩ := List.mem_filterMap.1 hx
  have place : x.core = s.focus ∧ findThread s x.t = some (x.g, x.th) := by
    unfold siteOf at hs
    split at hs
    · cases hs
    · next hf =>
      split at hs
      · cases hs
      · split at hs <;> cases hs
        exact ⟨rfl, hf⟩
  obtain ⟨hcore, hthread⟩ := place
  obtain ⟨c, hc, hcb⟩ := Option.bind_eq_some_iff.1 h.1
  have hb : (getCore s s.focus).burst = some b := by simp [getCore, List.getD_eq_getElem?_getD, hc, hcb]
  refine ⟨hcore, hthread, ?_⟩
  rw [(turnSites_spec hx).1, hcore]
  change currentSites s i = _
  rw [currentSites, hb]

end Sys2Proof.Loads

/-! Loads: the bytes that a load reads, and what its data checks find (R107-R117; O30). -/

namespace Sys2Proof.Loads
open Machine Words Lines Copies Storage

/-! ## The bytes of a `.line` access (R113) -/

theorem padSeen_congr {s t : State} (h : t.late = s.late) (g : Group) (th : Thread) (o : Nat) :
    padSeen t g th o = padSeen s g th o := by
  simp only [padSeen, lateByte, h]

/-- A core after a change: the changed core, or none there. -/
theorem getCore_updCore_self (s : State) (k : Nat) (f : Core → Core) :
    getCore (updCore s k f) k = f (getCore s k) ∨ getCore (updCore s k f) k = Core.reset := by
  cases h : s.cores[k]? with
  | none => simp [getCore, List.getD_eq_getElem?_getD, h]
  | some c => simp [getCore, List.getD_eq_getElem?_getD, h]

/-- After its line has left L1, path V reads what the core read past its clean lines. -/
theorem vByte_evictLine {s : State} {k : Nat} (hs : Sited k s) (a : Nat) :
    vByte (evictLine s k (lineOf a)) k a = coreByte s k a := by
  have evicted := backs_evictLine (k := k) s (lineOf a)
  have gone : Memory.read (getCore (evictLine s k (lineOf a)) k).l1Dirty a = none ∧
      Memory.read (getCore (evictLine s k (lineOf a)) k).l1Clean a = none := by
    unfold evictLine
    rcases getCore_updCore_self (writeBack s k fun b => lineOf b = lineOf a) k
      (fun c => pruneL1 { c with l1Clean := Memory.drop c.l1Clean fun b => lineOf b = lineOf a }) with h | h <;> rw [h]
    · refine ⟨?_, ?_⟩
      · change Memory.read (getCore (writeBack s k fun b => lineOf b = lineOf a) k).l1Dirty a = none
        rw [(getCore_writeBack s _).1, read_drop, if_pos (by simp)]
      · change Memory.read (Memory.drop _ fun b => lineOf b = lineOf a) a = none
        rw [read_drop, if_pos (by simp)]
    · exact ⟨rfl, rfl⟩
  obtain ⟨dirty, clean⟩ := gone
  rw [← evicted.bytes.reads hs a, vByte, coreByte]
  simp [dirty, clean]

/-- After its line has left the cache of path S, the path reads the home slices. -/
theorem sByte_dropLine (s : State) (k a : Nat) : sByte (dropLine s k .s (lineOf a)) k a = homeByte s (dieOf k) a := by
  have gone : lineIn (getCore (dropLine s k .s (lineOf a)) k).sCache a = none := by
    unfold dropLine
    rcases getCore_updCore_self s k (fun c => { c with sCache := c.sCache.filter fun x => x.line ≠ lineOf a }) with h | h <;>
      dsimp only <;> rw [h]
    · simp [lineIn]
    · rfl
  rw [sByte, cachedByte, gone]
  rfl

section
variable {s t : State} {k : Nat} (h : KeepsBytes k s t)
include h

/-- A byte that the core does not hold dirty is the same at its home slices. -/
theorem homeByte_of_keepsBytes (hs : Sited k s) {a : Nat} (hd : Memory.read (getCore s k).l1Dirty a = none) :
    homeByte t (dieOf k) a = homeByte s (dieOf k) a := by
  obtain ⟨p, hp⟩ := h.dirty
  have hd' : Memory.read (getCore t k).l1Dirty a = none := by rw [hp, read_drop, hd, ite_self]
  have same := h.reads hs a
  rwa [coreByte, coreByte, hd, hd'] at same

end

/-- The bytes of an access in one line: they are all storage, or all scratchpad. -/
theorem dropSpotLine_of_inside {line : Option (Bool × Nat)} {split : Bool} {ps : List Spot} (hin : insideLine line split ps = true)
    {l : Nat} (hl : ∀ p ∈ ps, ∀ a, p.loc = .mem a → lineOf a = l) {p : Spot} (hp : p ∈ ps) {a : Nat} (ha : p.loc = .mem a)
    (s : State) (k : Nat) (path : Path) : dropSpotLine s k path ps = dropLine s k path (lineOf a) := by
  have keys : ∀ q ∈ ps, line = some (lineKey q) := by
    simp only [insideLine, Bool.and_eq_true, List.all_eq_true, decide_eq_true_eq] at hin
    exact hin.2
  cases ps with
  | nil => cases hp
  | cons q ps =>
    have key : lineKey q = lineKey p := Option.some.inj ((keys q List.mem_cons_self).symm.trans (keys p hp))
    obtain ⟨loc, va, discarded⟩ := q
    cases loc with
    | mem b => rw [dropSpotLine, hl _ List.mem_cons_self b rfl, hl p hp a ha]
    | pad o => simp [lineKey, ha] at key

/-- The bytes of a `.line` access in its row's line, in terms of a state before it. -/
structure PastCaches (x : Site) (path : Path) (p : Spot) (b : Byte) : Prop where
  discarded : p.discarded = true → b = 0
  buffered  : p.discarded = false → ∀ c, bufferedByte x.th path p.loc = some c → b = c
  pad       : p.discarded = false → bufferedByte x.th path p.loc = none → ∀ o, p.loc = .pad o → b = padSeen x.before x.g x.th o
  pathV     : p.discarded = false → bufferedByte x.th path p.loc = none → ∀ a, p.loc = .mem a → path = .v →
    b = coreByte x.before x.core a
  pathS     : p.discarded = false → bufferedByte x.th path p.loc = none → ∀ a, p.loc = .mem a → path = .s →
    Memory.read (getCore x.before x.core).l1Dirty a = none → b = homeByte x.before (dieOf x.core) a

/-- A byte that a `.line` access reads after the threads before it: past the cache of its path. -/
theorem pastCaches_spotByte {x : Site} {s : State} (hs : Sited x.core x.before) (h : KeepsBytes x.core x.before s)
    {line : Option (Bool × Nat)} {split : Bool} {ps : List Spot} (hin : insideLine line split ps = true)
    {l : Nat} (hl : ∀ p ∈ ps, ∀ a, p.loc = .mem a → lineOf a = l) (path : Path) {p : Spot} (hp : p ∈ ps) :
    PastCaches x path p (spotByte (dropSpotLine s x.core path ps) x path p) := by
  have live : p.discarded = false → bufferedByte x.th path p.loc = none →
      spotByte (dropSpotLine s x.core path ps) x path p = pathByte (dropSpotLine s x.core path ps) x path p.loc := fun hd hb => by
    simp [spotByte, hd, hb]
  refine ⟨fun hd => ?_, fun hd c hb => ?_, fun hd hb o ho => ?_, fun hd hb a ha hpath => ?_, fun hd hb a ha hpath hdirty => ?_⟩
  · simp [spotByte, hd]
  · simp [spotByte, hd, hb]
  · rw [live hd hb, ho]
    exact padSeen_congr (h.trans (backs_dropSpotLine s path ps).bytes).late x.g x.th o
  · subst hpath
    rw [live hd hb, ha, dropSpotLine_of_inside hin hl hp ha]
    exact (vByte_evictLine (hs.keepsBytes h) a).trans (h.reads hs a)
  · subst hpath
    rw [live hd hb, ha, dropSpotLine_of_inside hin hl hp ha]
    exact (sByte_dropLine s x.core a).trans (homeByte_of_keepsBytes h hs hdirty)

/-! ## The data checks of sound copies (R107, R319, R321) -/

/-- No byte that a thread reads is poisoned or stands in a mismatching block. -/
structure SoundFor (x : Site) (s : State) : Prop where
  copies : Unflawed x.core s
  pad    : x.g.padPoison = [] ∧ x.g.padMismatch = []

theorem pathFlaws_of_unflawed {s : State} {k : Nat} (h : Unflawed k s) (path : Path) (a : Nat) : pathFlaws s k path a = .none := by
  have home := h.homes (dieOf k)
  have l1 := h.caches.1
  unfold pathFlaws
  dsimp only
  split
  · cases hl : lineIn (getCore s k).sCache a with
    | none => exact home
    | some l => exact h.caches.2 l (List.mem_of_find?_eq_some hl)
  · rw [home, l1]
    split
    · rfl
    · split <;> rfl

theorem spot_of_sound {x : Site} {s : State} (h : SoundFor x s) (path : Path) (p : Spot) :
    spotPoisoned s x path p = false ∧ spotMismatch s x path p = false := by
  unfold spotPoisoned spotMismatch
  cases p.loc with
  | mem a => simp [pathFlaws_of_unflawed h.copies, Flaws.poisoned, Flaws.wrong, Flaws.none]
  | pad o =>
    obtain ⟨hp, hm⟩ := h.pad
    simp only [padFlaw, hp, hm, throughLate]
    split <;> simp

theorem loadMarks_of_sound {x : Site} {s : State} (h : SoundFor x s) (path : Path) (ps : List Spot) (width : Nat) :
    loadMarks s x path ps width = ⟨none, none⟩ := by
  have poison := fun p => (spot_of_sound h path p).1
  have mismatch := fun p => (spot_of_sound h path p).2
  unfold loadMarks
  split
  · have sound : firstBad s x path ps = none := by simp [firstBad, poison, mismatch]
    simp [byteMarks, sound]
  · simp [wholeMarks, firstPoison, firstMismatch, poison, mismatch]

/-- A device without flaws is without them for each of its threads. -/
theorem soundFor_of_unmarked {x : Site} (hg : x.g ∈ x.before.groups) (h : Unmarked x.before) : SoundFor x x.before := by
  obtain ⟨hp, hm, hgroups, hcores⟩ := h
  have dies : ∀ d ∈ x.before.dies, d.flaws = .none := fun d hd => by
    simp only [State.poison, State.mismatch, List.flatMap_eq_nil_iff, List.map_eq_nil_iff] at hp hm
    cases hf : d.flaws
    have hpd := hp d hd
    have hmd := hm d hd
    rw [hf] at hpd hmd
    dsimp only at hpd hmd
    rw [hpd, hmd]
    rfl
  refine ⟨⟨fun d => ?_, ?_⟩, hgroups _ hg⟩
  · rw [homeFlaws, getDie, List.getD_eq_getElem?_getD]
    cases hd : x.before.dies[d]? with
    | none => rfl
    | some e => exact dies e (List.mem_of_getElem? hd)
  · rw [getCore, List.getD_eq_getElem?_getD]
    cases hc : x.before.cores[x.core]? with
    | none => exact ⟨rfl, by simp [Core.reset]⟩
    | some c =>
      obtain ⟨hl1, hlines⟩ := hcores c (List.mem_of_getElem? hc)
      exact ⟨hl1, fun l hl => hlines l (by simp [show l ∈ c.sCache from hl])⟩

/-- A core of a whole device holds no byte dirty twice. -/
theorem sited_of_inv {s : State} (h : s.Inv) {k : Nat} (hk : k < 128) : Sited k s := by
  refine ⟨?_, ?_⟩
  · have dies : s.dies.length = 2 := by
      have := h.shaped
      simp only [State.shaped, Bool.and_eq_true, decide_eq_true_eq] at this
      obtain ⟨⟨-, hd⟩, -⟩ := this
      exact hd
    rw [dies, dieOf]
    omega
  · obtain ⟨-, -, hcores, -⟩ := (memoryWf_iff s).1 h.memory
    rw [getCore, List.getD_eq_getElem?_getD]
    cases hc : s.cores[k]? with
    | none => exact List.nodup_nil
    | some c =>
      have ordered := (Memory.wf_iff _).1 (hcores c (List.mem_of_getElem? hc)).2
      exact (List.pairwise_map.2 ordered).imp Nat.ne_of_lt

end Sys2Proof.Loads

/-! Loads: what a load word leaves of the thread that executes it (R107-R113; O30). -/

namespace Sys2Proof.Loads
open Machine Words Lines Copies Storage Faults

/-! ## What a thread of an issue group meets -/

/-- A list worked through by distinct threads that each keep the bytes of core `k`: what a thread meets and what it leaves. -/
theorem foldl_reached {k : Nat} {step : State → Site → State} (ho : ∀ s y, OnlyThread y.t s (step s y)) {xs : List Site}
    (hb : ∀ s, ∀ y ∈ xs, Backs k s (step s y)) (hn : (xs.map Site.t).Nodup) {x : Site} (hx : x ∈ xs) (s : State) :
    ∃ s0, Backs k s s0 ∧ threadOf s0 x.t = threadOf s x.t ∧ threadOf (xs.foldl step s) x.t = threadOf (step s0 x) x.t := by
  obtain ⟨pre, post, rfl⟩ := List.append_of_mem hx
  obtain ⟨-, hpost, hne⟩ := List.nodup_append.1 (by simpa using hn : (pre.map Site.t ++ x.t :: post.map Site.t).Nodup)
  have before : ∀ y ∈ pre, y.t ≠ x.t := fun y hy => hne _ (List.mem_map_of_mem hy) _ List.mem_cons_self
  have after : ∀ y ∈ post, y.t ≠ x.t := fun y hy e => (List.nodup_cons.1 hpost).1 (List.mem_map.2 ⟨y, hy, e⟩)
  refine ⟨pre.foldl step s, foldl_rel .refl .trans pre (fun s y hy => hb s y (List.mem_append_left _ hy)) s,
    foldl_other pre (fun s y _ => ho s y) s before, ?_⟩
  rw [List.foldl_append, List.foldl_cons]
  exact foldl_other post (fun s y _ => ho s y) _ after

/-- A word that waits for nothing and whose rule keeps the bytes of its core: each thread that runs it meets a state with those
bytes, and keeps what its own execution of the word gives it. -/
theorem issueHeld_reached {s : State} {b : Burst} {i : Instr} {held : Site → Bool} {body : Body} (hb : body.OwnThread)
    (hk : ∀ x ∈ turnSites s s.focus b i, ∀ a c, body a x = .ok c → Backs s.focus a c) (h : AtWord s b)
    (hp : ∀ x ∈ turnSites s s.focus b i, verdict i x ≠ .stall)
    (hg : ∀ x ∈ turnSites s s.focus b i, x.th.seg.gather = true → Sound i body x)
    (hh : ∀ x ∈ turnSites s s.focus b i, verdict i x = .run → held x = false) :
    ∃ t, issueHeld s i held body = .next t ∧ ∀ x ∈ turnSites s s.focus b i, verdict i x = .run →
      ∀ Q : Thread → Prop, (∀ a c, SameWork a c → Q a → Q c) →
        (∀ s1 th1, Backs s.focus s s1 → threadOf s1 x.t = some th1 → Begun x.th th1 →
          ∃ s2 th2, body s1 x = .ok s2 ∧ threadOf s2 x.t = some th2 ∧ Q th2) →
        ∃ th, threadOf t x.t = some th ∧ Q th := by
  have here : ∀ y ∈ turnSites s s.focus b i,
      threadOf (countIssue s s.focus i (turnSites s s.focus b i)) y.t = some y.th := fun y hy => by
    rw [threadOf_congr (countIssue_groups _ _ _ _), (turnSites_spec hy).2]
  refine ⟨_, issueHeld_all h hp hh, fun x hx hv Q hQ hbody => ?_⟩
  obtain ⟨s0, hs0, h0, h1⟩ := foldl_reached (k := s.focus) (onlyThread_issueThread i hb)
    (fun s' y hy => backs_issueThread i (hk y hy) s') (turnSites_nodup h.2) hx (countIssue s s.focus i (turnSites s s.focus b i))
  obtain ⟨th1, hth1, begun⟩ := begun_beginWord (i := i) (on := true) (h0.trans (here x hx))
  obtain ⟨s2, th2, hs2, hth2, hq⟩ := hbody (beginWord s0 i x true) th1
    (((backs_countIssue s _ i _).trans hs0).trans (backs_updThread s0 x.t _)) hth1 begun
  have own : threadOf (issueThread i body s0 x) x.t = some th2 := by
    unfold issueThread
    simp only [hv, hs2, hth2]
  obtain ⟨th', hth', same⟩ := keepsWork_advance _ s.focus i x.t th2 (h1.trans own)
  rw [issueAll_alone i hb (turnSites_nodup h.2) here hg]
  exact ⟨th', hth', hQ _ _ same hq⟩

/-! ## The rule of a load -/

/-- A `.line` load that is performed past the cache of its path. -/
def performedInside (i : Instr) (m : ModMM) (acc : Site → Except Trouble (BufRec × List Spot)) (x : Site) (ps : List Spot) : Bool :=
  m.line && insideLine (rowLine x i fun y => (acc y).map Prod.snd) (spotsMisaligned ps (typeWidth m.type.toNat)) ps

/-- The state that holds the bytes a load reads. -/
def readFrom (inside : Bool) (s : State) (x : Site) (path : Path) (ps : List Spot) : State :=
  if inside then dropSpotLine s x.core path ps else x.before

/-- A load's thread, once it has read its bytes from `src`. -/
def afterLoad (src : State) (x : Site) (path : Path) (kind : LoadKind) (marks : Marks) (ps : List Spot) (th : Thread) : Thread :=
  { th with
    memStatus := if ps.any Spot.discarded then th.memStatus ||| 1 else th.memStatus
    seg := { th.seg with
      results := ⟨x.th.seg.results.length, loadCounts kind, false, (returnWrites kind (List.replicate ps.length 0)).1, 0⟩ ::
        th.seg.results
      loads := th.seg.loads ++
        [⟨x.th.seg.results.length, kind, ps.map (spotByte src x path), marks.poison, marks.mismatch, isPaged ps⟩]
      stores := markSeen path ps th.seg.stores } }

/-- A thread with bit 1 of `sys.mem_status` set by an access outside its line (R113). -/
def markOutside (outside : Bool) (th : Thread) : Thread :=
  { th with memStatus := if outside then th.memStatus ||| 2 else th.memStatus }

theorem threadOf_startLoad {s : State} (src : State) {x : Site} (path : Path) (kind : LoadKind) (marks : Marks) (ps : List Spot)
    {th : Thread} (h : threadOf s x.t = some th) :
    threadOf (startLoad s src x path kind marks [] ps) x.t = some (afterLoad src x path kind marks ps th) := by
  have e := threadOf_updThread_same s x.t (afterLoad src x path kind marks ps) fun _ => ⟨rfl, rfl⟩
  rw [h] at e
  exact e

theorem threadOf_markOutside {s : State} {t : ThreadRef} (outside : Bool) {th : Thread} (h : threadOf s t = some th) :
    threadOf (if outside then setMemStatus s t 2 else s) t = some (markOutside outside th) := by
  cases outside with
  | false => exact h
  | true =>
    have e := threadOf_updThread_same s t (markOutside true) fun _ => ⟨rfl, rfl⟩
    rw [h] at e
    exact e

section
variable {i : Instr} {m : ModMM} {sampler : Bool} {kind : LoadKind} {acc : Site → Except Trouble (BufRec × List Spot)} {x : Site}

theorem loadBody_next {r : BufRec} {ps : List Spot} (ha : acc x = .ok (r, ps)) {s : State} {th : Thread}
    (ht : threadOf s x.t = some th) : ∃ s', loadBody i m sampler kind acc s x = .ok s' ∧
      threadOf s' x.t = some (afterLoad (readFrom (performedInside i m acc x ps) s x (if sampler || r.ro then .s else .v) ps) x
        (if sampler || r.ro then .s else .v) kind
        (loadMarks (readFrom (performedInside i m acc x ps) s x (if sampler || r.ro then .s else .v) ps) x
          (if sampler || r.ro then .s else .v) ps (typeWidth m.type.toNat))
        ps (markOutside (m.line && !performedInside i m acc x ps) th)) := by
  generalize hpath : (if sampler || r.ro then Path.s else Path.v) = path
  have body : loadBody i m sampler kind acc s x = .ok (fillLines (startLoad
      (if m.line && !performedInside i m acc x ps then
        setMemStatus (if performedInside i m acc x ps then dropSpotLine s x.core path ps else s) x.t 2
      else if performedInside i m acc x ps then dropSpotLine s x.core path ps else s)
      (readFrom (performedInside i m acc x ps) s x path ps) x path kind
      (loadMarks (readFrom (performedInside i m acc x ps) s x path ps) x path ps (typeWidth m.type.toNat)) [] ps)
      x path (placing m.pol r) (servedLines x i fun y => (acc y).map Prod.snd) ps) := by
    subst hpath
    unfold loadBody readFrom performedInside
    rw [ha]
    dsimp only
    generalize (m.line && insideLine (rowLine x i fun y => (acc y).map Prod.snd) (spotsMisaligned ps (typeWidth m.type.toNat)) ps) =
      inside
    cases inside <;> rfl
  refine ⟨_, body, ?_⟩
  have there : threadOf (if performedInside i m acc x ps then dropSpotLine s x.core path ps else s) x.t = some th := by
    split
    · rw [threadOf_congr (dropSpotLine_groups _ _ _ _), ht]
    · exact ht
  rw [threadOf_congr (fillLines_groups _ _ _ _ _ _)]
  exact threadOf_startLoad _ _ _ _ _ (threadOf_markOutside _ there)

theorem backs_loadBody {s s' : State} (h : loadBody i m sampler kind acc s x = .ok s') : Backs x.core s s' := by
  unfold loadBody at h
  split at h
  · cases h
  · cases h
    refine .trans ?_ (backs_fillLines _ rfl _ _ _ _)
    refine .trans (backs_ite (.trans ?_ (backs_updThread _ _ _)) ?_) (backs_updThread _ _ _)
    · exact backs_ite (backs_dropSpotLine s _ _) (.refl s)
    · exact backs_ite (backs_dropSpotLine s _ _) (.refl s)

theorem readFrom_backs {s : State} (h : Backs x.core x.before s) (inside : Bool) (path : Path) (ps : List Spot) :
    Backs x.core x.before (readFrom inside s x path ps) := by
  unfold readFrom
  exact backs_ite (h.trans (backs_dropSpotLine s path ps)) (.refl _)

theorem loadMarks_eq (s : State) (path : Path) (ps : List Spot) (width : Nat) :
    loadMarks s x path ps width = if ps.head?.any fun p => p.va % width ≠ 0 then byteMarks s x path ps
      else ⟨firstPoison s x path ps, firstMismatch s x path ps⟩ := by
  cases ps <;> rfl

/-- The two bits that an access sets in `sys.mem_status` (R108, R113). -/
theorem memStatus_set (old : Word) (discarded outside : Bool) :
    MemStatus old (if discarded then (if outside then old ||| 2 else old) ||| 1 else if outside then old ||| 2 else old)
      (discarded = true) (outside = true) := by
  refine ⟨?_, ?_, fun n hn => ?_⟩
  · cases discarded <;> cases outside <;> simp
  · cases discarded <;> cases outside <;> simp
  · have zero : n ≠ 0 := by omega
    have two : (2#32).getLsbD n = false := by
      rw [show (2#32) = BitVec.twoPow 32 1 from rfl, BitVec.getLsbD_twoPow]
      simp
      omega
    cases discarded <;> cases outside <;> simp [zero, two]

end
end Sys2Proof.Loads

/-! Loads: `ld`, `ldro` and `ldbr` complete (R107-R113, R117; O30). -/

namespace Sys2Proof.Loads
open Machine Words Lines Copies Storage Faults

/-- The bytes that a load of thread `x` reads, and what its data checks find. -/
structure LoadReads (x : Site) (path : Path) (inside : Prop) (width : Nat) (ps : List Spot) (bytes : List Byte) (marks : Marks) :
    Prop where
  length  : bytes.length = ps.length
  seen    : ¬inside → bytes = ps.map (spotByte x.before x path)
  past    : inside → x.before.Inv → (∃ l, ∀ p ∈ ps, ∀ a, p.loc = .mem a → lineOf a = l) →
    ∀ j p, ps[j]? = some p → PastCaches x path p (bytes.getD j 0)
  checked : ¬inside → marks = if ps.head?.any fun p => p.va % width ≠ 0 then byteMarks x.before x path ps
    else ⟨firstPoison x.before x path ps, firstMismatch x.before x path ps⟩
  sound   : Unmarked x.before → marks.poison = none ∧ marks.mismatch = none

/-- A load of these bytes awaits its return in its thread. -/
structure LoadAwaits (x : Site) (kind : LoadKind) (outside : Prop) (ps : List Spot) (bytes : List Byte) (marks : Marks)
    (th : Thread) : Prop where
  status  : MemStatus x.th.memStatus th.memStatus (∃ p ∈ ps, p.discarded = true) outside
  results : ∃ ws, th.seg.results = ⟨x.th.seg.results.length, loadCounts kind, false, ws, 0⟩ :: x.th.seg.results
  loads   : th.seg.loads = x.th.seg.loads ++ [⟨x.th.seg.results.length, kind, bytes, marks.poison, marks.mismatch, isPaged ps⟩]

/-- A load of thread `x` has read its bytes and awaits its return. -/
def Loaded (x : Site) (path : Path) (kind : LoadKind) (line inLine : Prop) (width : Nat) (ps : List Spot) (th : Thread) : Prop :=
  ∃ bytes marks, LoadReads x path (line ∧ inLine) width ps bytes marks ∧ LoadAwaits x kind (line ∧ ¬inLine) ps bytes marks th

theorem Loaded.sameWork {x : Site} {path : Path} {kind : LoadKind} {line inLine : Prop} {width : Nat} {ps : List Spot} {a c : Thread}
    (h : SameWork a c) (ha : Loaded x path kind line inLine width ps a) : Loaded x path kind line inLine width ps c := by
  obtain ⟨bytes, marks, reads, awaits⟩ := ha
  obtain ⟨_, _, rfl, _⟩ := h
  exact ⟨bytes, marks, reads, ⟨awaits.status, awaits.results, awaits.loads⟩⟩

/-- A load that meets the bytes of the state before its issue group reads them. -/
theorem loadReads_readFrom {x : Site} (hx : x.g ∈ x.before.groups) (hc : x.core < x.before.cores.length) {s : State}
    (hs : Backs x.core x.before s) {line : Option (Bool × Nat)} {split inside : Bool} {ps : List Spot}
    (hin : inside = true → insideLine line split ps = true) (path : Path) (width : Nat) :
    LoadReads x path (inside = true) width ps (ps.map (spotByte (readFrom inside s x path ps) x path))
      (loadMarks (readFrom inside s x path ps) x path ps width) where
  length := List.length_map _
  seen h := by rw [readFrom, if_neg h]
  past h inv := fun ⟨l, hl⟩ j p hp => by
    have sited : Sited x.core x.before := sited_of_inv inv ((Steps.whole_of_shaped inv.shaped).cores ▸ hc)
    have byte : (ps.map (spotByte (readFrom inside s x path ps) x path)).getD j 0 =
        spotByte (dropSpotLine s x.core path ps) x path p := by
      simp [List.getD_eq_getElem?_getD, hp, readFrom, h]
    rw [byte]
    exact pastCaches_spotByte sited hs.bytes (hin h) hl path (List.mem_of_getElem? hp)
  checked h := by rw [readFrom, if_neg h, loadMarks_eq]
  sound h := by
    have sound := soundFor_of_unmarked hx h
    rw [loadMarks_of_sound ⟨(readFrom_backs hs inside path ps).flaws sound.copies, sound.pad⟩]
    exact ⟨rfl, rfl⟩

theorem loadAwaits_afterLoad {x : Site} {th : Thread} (hb : Begun x.th th) (src : State) (path : Path) (kind : LoadKind)
    (marks : Marks) (outside : Bool) (ps : List Spot) :
    LoadAwaits x kind (outside = true) ps (ps.map (spotByte src x path)) marks
      (afterLoad src x path kind marks ps (markOutside outside th)) := by
  obtain ⟨saw, sus, hi, rfl⟩ := hb
  refine ⟨?_, ⟨_, rfl⟩, rfl⟩
  rw [← List.any_eq_true (p := Spot.discarded)]
  exact memStatus_set x.th.memStatus (ps.any Spot.discarded) outside

/-- The site of a thread stands in the state it was read from. -/
structure Placed (i : Instr) (x : Site) : Prop where
  group : x.g ∈ x.before.groups
  core  : x.core < x.before.cores.length
  mates : ((currentSites { x.before with focus := x.core } i).map Site.t).Nodup

theorem placed_of_mem {s : State} {b : Burst} {i : Instr} {x : Site} (h : AtWord s b) (hx : x ∈ turnSites s s.focus b i) :
    Placed i x := by
  obtain ⟨hcore, hthread, hsites⟩ := currentSites_of_mem h hx
  obtain ⟨c, hc, -⟩ := Option.bind_eq_some_iff.1 h.1
  have hbefore := (turnSites_spec hx).1
  refine ⟨?_, ?_, hsites ▸ turnSites_nodup h.2⟩
  · rw [hbefore]
    exact List.mem_of_find?_eq_some (findThread_spec hthread).1
  · rw [hcore, hbefore]
    exact (List.getElem?_eq_some_iff.1 hc).1

section
variable {i : Instr} (m : ModMM) (sampler : Bool) (kind : LoadKind) {acc : Site → Except Trouble (BufRec × List Spot)}

/-- The rule of a load leaves its thread with the load, when it meets the bytes of the state before its issue group. -/
theorem loaded_loadBody {x : Site} (hx : Placed i x) {r : BufRec} {ps : List Spot} (ha : acc x = .ok (r, ps)) {s : State}
    (hs : Backs x.core x.before s) {th : Thread} (hth : threadOf s x.t = some th) (hb : Begun x.th th) :
    ∃ s' th', loadBody i m sampler kind acc s x = .ok s' ∧ threadOf s' x.t = some th' ∧
      Loaded x (if sampler || r.ro then .s else .v) kind (m.line = true) (InLine i acc (typeWidth m.type.toNat) x ps)
        (typeWidth m.type.toNat) ps th' := by
  obtain ⟨s', hs', hth'⟩ := loadBody_next (i := i) (m := m) (sampler := sampler) (kind := kind) ha hth
  have inside : performedInside i m acc x ps = true ↔ m.line = true ∧ InLine i acc (typeWidth m.type.toNat) x ps := by
    rw [performedInside, Bool.and_eq_true, insideLine_iff i acc x hx.mates]
  have outside : (m.line && !performedInside i m acc x ps) = true ↔
      m.line = true ∧ ¬InLine i acc (typeWidth m.type.toNat) x ps := by
    rw [Bool.and_eq_true, Bool.not_eq_true', ← Bool.not_eq_true, inside]
    tauto
  refine ⟨s', _, hs', hth', ?_⟩
  rw [Loaded, ← inside, ← outside]
  exact ⟨_, _, loadReads_readFrom hx.group hx.core hs (fun h => (Bool.and_eq_true_iff.1 h).2) _ _,
    loadAwaits_afterLoad hb _ _ _ _ _ _⟩

theorem ok_of_passed {x : Site} (h : (passed (acc x)).isSome) : ∃ r ps, acc x = .ok (r, ps) := by
  cases ha : acc x with
  | ok a => exact ⟨a.1, a.2, rfl⟩
  | error tr => simp [ha, passed] at h

/-- A thread whose checks and access pass cannot fault at a load. -/
theorem sound_loadBody {x : Site} (hf : Faults i x = false) (ha : Clear i x = true → (passed (acc x)).isSome) :
    Sound i (loadBody i m sampler kind acc) x := by
  refine ⟨fun tr hv => by simp [Faults, hv] at hf, fun hv s th hth _ => ?_⟩
  obtain ⟨r, ps, hok⟩ := ok_of_passed (ha ((clear_iff i x).2 hv))
  obtain ⟨s', hs', -⟩ := loadBody_next (i := i) (m := m) (sampler := sampler) (kind := kind) hok hth
  exact ⟨s', hs'⟩

/-- A load word whose access passes completes. -/
theorem load_completes (hexec : ∀ s, exec i s = issueHeld s i (accessHeld acc) (loadBody i m sampler kind acc)) :
    CompletesUnheld i (accessHeld acc) (fun x => (passed (acc x)).isSome) fun t x =>
      ∃ r ps, acc x = .ok (r, ps) ∧ ∃ th, threadAtRef t x.t = some th ∧
        Loaded x (if sampler || r.ro then .s else .v) kind (m.line = true) (InLine i acc (typeWidth m.type.toNat) x ps)
          (typeWidth m.type.toNat) ps th := by
  intro s b h hp hg hh
  obtain ⟨t, ht, hreach⟩ := issueHeld_reached (held := accessHeld acc) (loadBody_ownThread i m sampler kind acc)
    (fun x hx a c hc => (currentSites_of_mem h hx).1 ▸ backs_loadBody hc) h (fun x hx => (proceeds_iff i x).1 (hp x hx))
    (fun x hx hgx => sound_loadBody m sampler kind (hg x hx hgx).1 (hg x hx hgx).2)
    fun x hx hv => hh x hx ((clear_iff i x).2 hv)
  refine ⟨t, (hexec s).trans ht, fun x hx hclear hown => ?_⟩
  obtain ⟨r, ps, ha⟩ := ok_of_passed hown
  refine ⟨r, ps, ha, hreach x hx ((clear_iff i x).1 hclear) _ (fun _ _ => Loaded.sameWork) fun s1 th1 hs1 hth1 hbegun => ?_⟩
  refine loaded_loadBody m sampler kind (placed_of_mem h hx) ha ?_ hth1 hbegun
  rw [(currentSites_of_mem h hx).1, (turnSites_spec hx).1]
  exact hs1

end

end Sys2Proof.Loads

/-! Loads: the values and registers that returned bytes give (R54, R109, R117), and O30. -/

namespace Sys2Proof.Loads
open Machine

/-! ## Bytes and values -/

theorem ofBytes_lt (bytes : List Byte) : ofBytes bytes < 256 ^ bytes.length := by
  induction bytes with
  | nil => simp [ofBytes]
  | cons b bs ih =>
    have hb := b.isLt
    rw [ofBytes, List.length_cons, Nat.pow_succ]
    omega

theorem ofBytes_toBytes {w : Nat} (x : BitVec w) (n : Nat) : ofBytes (toBytes x n) = x.toNat % 256 ^ n := by
  induction n generalizing x with
  | zero => simp [toBytes, ofBytes, Nat.mod_one]
  | succ n ih =>
    rw [toBytes, ofBytes, ih, Nat.pow_succ', Nat.mod_mul]
    simp [Nat.shiftRight_eq_div_pow]

theorem drop_toBytes {w : Nat} (m : Nat) : ∀ (x : BitVec w) (n : Nat), (toBytes x n).drop m = toBytes (x >>> (8 * m)) (n - m) := by
  induction m with
  | zero => simp
  | succ m ih =>
    intro x n
    cases n with
    | zero => simp [toBytes]
    | succ n => rw [toBytes, List.drop_succ_cons, ih, ← BitVec.shiftRight_add, Nat.add_sub_add_right, Nat.mul_succ, Nat.add_comm]

theorem take_toBytes {w : Nat} (m : Nat) : ∀ (x : BitVec w) (n : Nat), (toBytes x n).take m = toBytes x (min m n) := by
  induction m with
  | zero => simp [toBytes]
  | succ m ih =>
    intro x n
    cases n with
    | zero => simp [toBytes]
    | succ n => rw [toBytes, List.take_succ_cons, ih, Nat.add_min_add_right, toBytes]

/-- The bytes of a value of as many bits, as a number of more. -/
theorem ofNat_ofBytes_toBytes {w : Nat} (x : BitVec w) {n : Nat} (h : w = 8 * n) (v : Nat) :
    BitVec.ofNat v (ofBytes (toBytes x n)) = x.setWidth v := by
  have hx : x.toNat < 256 ^ n := by
    rw [show 256 = 2 ^ 8 from rfl, ← Nat.pow_mul, ← h]
    exact x.isLt
  rw [ofBytes_toBytes, Nat.mod_eq_of_lt hx, BitVec.ofNat_toNat]

theorem loadedValue_unsigned {t : Nat} (h0 : t ≠ 0) (h1 : t ≠ 1) (bytes : List Byte) :
    loadedValue t bytes = BitVec.ofNat 64 (ofBytes bytes) := by
  unfold loadedValue
  dsimp only
  split
  · exact absurd rfl h0
  · exact absurd rfl h1
  · rfl

/-- A number of `n` bits, read as a signed one. -/
theorem signedOf_eq_toInt {n x : Nat} (hn : 0 < n) (hx : x < 2 ^ n) : signedOf n x = (BitVec.ofNat n x).toInt := by
  obtain ⟨m, rfl⟩ : ∃ m, n = m + 1 := ⟨n - 1, by omega⟩
  rw [signedOf, BitVec.toInt_eq_toNat_cond, BitVec.toNat_ofNat, Nat.mod_eq_of_lt hx, Nat.add_sub_cancel]
  rw [Nat.pow_succ] at hx ⊢
  push_cast
  split <;> split <;> omega

theorem lowBits_toInt {n : Nat} (x : BitVec n) : lowBits false x.toInt = (x.signExtend 32).setWidth 64 := by
  have low : (x.signExtend 64).setWidth 32 = x.signExtend 32 := by
    refine BitVec.eq_of_getLsbD_eq fun j hj => ?_
    rw [BitVec.getLsbD_setWidth, BitVec.getLsbD_signExtend, BitVec.getLsbD_signExtend]
    simp [hj, show j < 64 by omega]
  exact congrArg (BitVec.setWidth 64) low

/-- The four words of 16 bytes. -/
theorem word_of_toBytes (q : BitVec 128) {j : Nat} (hj : j < 4) :
    BitVec.ofNat 32 (ofBytes (((toBytes q 16).drop (4 * j)).take 4)) = q.extractLsb' (32 * j) 32 := by
  rw [drop_toBytes, take_toBytes, ofBytes_toBytes, show min 4 (16 - 4 * j) = 4 by omega, show 8 * (4 * j) = 32 * j by omega]
  refine BitVec.eq_of_toNat_eq ?_
  simp [BitVec.extractLsb'_toNat]

/-- A signed type of `n` bits is sign-extended to 32 bits. -/
theorem lowBits_signedOf {n : Nat} (hn : 0 < n) {x : Nat} (hx : x < 2 ^ n) :
    lowBits false (signedOf n x) = ((BitVec.ofNat n x).signExtend 32).setWidth 64 := by
  rw [signedOf_eq_toInt hn hx, lowBits_toInt]

theorem loadedValue_zero {bytes : List Byte} (h : bytes.length = 1) :
    loadedValue 0 bytes = ((BitVec.ofNat 8 (ofBytes bytes)).signExtend 32).setWidth 64 :=
  lowBits_signedOf (by omega) (by simpa [h] using ofBytes_lt bytes)

theorem loadedValue_one {bytes : List Byte} (h : bytes.length = 2) :
    loadedValue 1 bytes = ((BitVec.ofNat 16 (ofBytes bytes)).signExtend 32).setWidth 64 :=
  lowBits_signedOf (by omega) (by simpa [h] using ofBytes_lt bytes)

/-- A type that is not signed is zero-extended. -/
theorem loadedValue_toBytes {w n t : Nat} (x : BitVec w) (h : w = 8 * n) (h0 : t ≠ 0) (h1 : t ≠ 1) :
    loadedValue t (toBytes x n) = x.setWidth 64 := by
  rw [loadedValue_unsigned h0 h1, ofNat_ofBytes_toBytes x h]

/-! ## Registers -/

theorem returnWrites_plain {t : Nat} (h : t ≠ 11) (d : Operand) (bytes : List Byte) :
    returnWrites (.plain d t) bytes = destWrites (t = 3 ∨ t = 7) (loadedValue t bytes) d := by
  rw [returnWrites, loadWrites, if_neg h, Bool.decide_or]

theorem returnWrites_quad (q : BitVec 128) (i : Fin 768) : (returnWrites (.plain (.v i) 11) (toBytes q 16)).1 =
    [.v i.val (q.extractLsb' 0 32), .v (i.val + 1) (q.extractLsb' 32 32), .v (i.val + 2) (q.extractLsb' 64 32),
      .v (i.val + 3) (q.extractLsb' 96 32)] := by
  have words : ((List.range 4).map fun j => BitVec.ofNat 32 (ofBytes (((toBytes q 16).drop (4 * j)).take 4))) =
      (List.range 4).map fun j => q.extractLsb' (32 * j) 32 :=
    List.map_congr_left fun j hj => word_of_toBytes q (List.mem_range.1 hj)
  rw [returnWrites, loadWrites, if_pos rfl, words]
  rfl

theorem returnWrites_record (q : BitVec 128) (b : Nat) : returnWrites (.record b) (toBytes q 16) = ([.b b q], 0) := by
  rw [returnWrites, ofNat_ofBytes_toBytes q rfl, BitVec.setWidth_eq]

/-! ## O30 -/

/-- A byte past the caches, as the statement writes it: by the place where the byte lies. -/
theorem PastCaches.atPlace {x : Site} {path : Path} {p : Spot} {b : Byte} (h : PastCaches x path p b) :
    (p.discarded = true → b = 0) ∧
    (p.discarded = false → ∀ c, bufferedByte x.th path p.loc = some c → b = c) ∧
    (p.discarded = false → bufferedByte x.th path p.loc = none → match p.loc with
      | .pad o => b = padSeen x.before x.g x.th o
      | .mem a => (path = .v → b = byteAtPlace x.before x.core x.t.group (.mem a) 0) ∧
        (path = .s → Memory.read (getCore x.before x.core).l1Dirty a = none → b = homeByte x.before (dieOf x.core) a)) := by
  refine ⟨h.discarded, h.buffered, fun hd hb => ?_⟩
  split
  · next o ho => exact h.pad hd hb o ho
  · next a ha => exact ⟨h.pathV hd hb a ha, h.pathS hd hb a ha⟩

theorem completesUnheld_mono {i : Instr} {held : Site → Bool} {own : Site → Prop} {p q : State → Site → Prop}
    (h : CompletesUnheld i held own p) (hpq : ∀ t x, p t x → q t x) : CompletesUnheld i held own q := fun s b hs hp hg hh => by
  obtain ⟨t, ht, hx⟩ := h s b hs hp hg hh
  exact ⟨t, ht, fun x hm hc ho => hpq t x (hx x hm hc ho)⟩

/-- Settles O30: a thread of the issue group meets the bytes of the state before the group, but for dirty lines that have gone
home; each width and value follows from the bytes of a bit vector. -/
theorem loadsReadAndReturn : Obligations.LoadsReadAndReturn := by
  unfold Obligations.LoadsReadAndReturn
  refine ⟨?_, fun bytes h => ⟨loadedValue_zero h, rfl⟩, fun bytes h => loadedValue_one h,
    fun x t ht => loadedValue_toBytes x rfl (by omega) (by omega), fun t d bytes ht => returnWrites_plain ht.ne d bytes,
    returnWrites_quad, returnWrites_record, fun t i st bytes => rfl, ?_, ?_,
    rfl, rfl, rfl, rfl, rfl, rfl, rfl, rfl, rfl, rfl, rfl, rfl⟩
  · intro loads
    have done : ∀ t x path kind line inLine width ps, (∃ th, threadAtRef t x.t = some th ∧
        Loaded x path kind line inLine width ps th) → loads t x path kind line inLine width ps := by
      rintro t x path kind line inLine width ps ⟨th, hth, bytes, marks, reads, awaits⟩
      obtain ⟨ws, results⟩ := awaits.results
      exact ⟨th, bytes, ws, marks, hth, reads.length, reads.seen,
        fun hline hin inv lines j p hp => (reads.past ⟨hline, hin⟩ inv lines j p hp).atPlace, reads.checked, reads.sound,
        awaits.status, results, awaits.loads⟩
    refine ⟨?_, ?_, ?_⟩
    · intro w acc
      exact completesUnheld_mono (load_completes (i := .ld w) (acc := acc) w.m false (.plain w.d w.m.type.toNat) fun _ => rfl)
        fun t x ⟨r, ps, ha, h⟩ => ⟨r, ps, ha, done _ _ _ _ _ _ _ _ h⟩
    · intro w acc
      exact completesUnheld_mono (load_completes (i := .ldro w) (acc := acc) w.m true (.plain w.d w.m.type.toNat) fun _ => rfl)
        fun t x ⟨r, ps, ha, h⟩ => ⟨r, ps, ha, done _ _ _ _ _ _ _ _ h⟩
    · intro w acc
      exact completesUnheld_mono (load_completes (i := .ldbr w) (acc := acc) w.m false (.record w.d.toNat) fun _ => rfl)
        fun t x ⟨r, ps, ha, h⟩ => ⟨r, ps, ha, done _ _ _ _ _ _ _ _ h⟩
  · rintro x t (rfl | rfl)
    all_goals exact (loadedValue_toBytes x rfl (by omega) (by omega)).trans (BitVec.setWidth_eq x)
  · rintro x t (rfl | rfl | rfl)
    all_goals exact loadedValue_toBytes x rfl (by omega) (by omega)

end Sys2Proof.Loads

/-! Words that only compute: what their threads have passed, and the result they leave (R58). -/

namespace Sys2Proof.Words
open Machine

theorem verdict_ne_fault {i : Instr} {x : Site} (h : Faults i x = false) (tr : Trouble) : verdict i x ≠ .fault tr := by
  intro hv
  simp [Faults, hv] at h

/-- A word that only computes completes with what a result of each of its threads entails. -/
theorem completes_of_pure {i : Instr} {f : Site → List RegWrite × Wide} {p : State → Site → Prop}
    (he : ∀ s, exec i s = issueWord s i (pureBody f))
    (hp : ∀ t x, Clear i x = true → resultsOf t x.t = some (done (f x) :: x.th.seg.results) → p t x) :
    Completes i (fun _ => True) p := by
  intro s b h hproc hnone
  obtain ⟨t, ht, hx⟩ := issueWord_pure (f := f) h (fun x hx => (proceeds_iff i x).1 (hproc x hx))
    fun x hx hg => verdict_ne_fault (hnone x hx hg).1
  exact ⟨t, (he s).trans ht, fun x hm hc _ => hp t x hc (hx x hm ((clear_iff i x).1 hc))⟩

theorem delivers_of_pure {i : Instr} {f g : Site → List RegWrite × Wide} (he : ∀ s, exec i s = issueWord s i (pureBody f))
    (hfg : ∀ x, Clear i x = true → f x = g x) : Delivers i g :=
  completes_of_pure he fun _ x hc h => hfg x hc ▸ h

/-- A thread that passes its checks has a word with a sound modifier and sound operand fields (R58 steps 4 and 5). -/
theorem checks_of_clear {i : Instr} {x : Site} (h : Clear i x = true) :
    ∃ v, i.view = some v ∧ i.modifierOk = true ∧ badField x.pass.regs v = none := by
  unfold Clear at h
  cases hv : i.view with
  | none => simp [hv] at h
  | some v =>
    simp only [hv, modifierPasses, Bool.and_eq_true, Option.isNone_iff_eq_none] at h
    obtain ⟨-, ⟨⟨⟨⟨⟨hmod, -⟩, hfield⟩, -⟩, -⟩, -⟩, -⟩ := h
    exact ⟨v, rfl, hmod, hfield⟩

theorem modifierOk_of_clear {i : Instr} {x : Site} (h : Clear i x = true) : i.modifierOk = true := by
  obtain ⟨-, -, hmod, -⟩ := checks_of_clear h
  exact hmod

/-- The operand fields of a word whose threads pass their checks are sound. -/
theorem fields_of_clear {i : Instr} {x : Site} {v : View} (hv : i.view = some v) (h : Clear i x = true) :
    v.d.ok x.pass.regs = true ∧ v.a.ok x.pass.regs = true := by
  obtain ⟨u, hu, -, hfield⟩ := checks_of_clear h
  obtain rfl : u = v := Option.some.inj (hu.symm.trans hv)
  simp only [badField, List.findSome?_eq_none_iff, List.forall_mem_cons] at hfield
  obtain ⟨hd, ha, -⟩ := hfield
  simpa using And.intro hd ha

end Sys2Proof.Words

/-! The integer words: exact formulas, carries and bit fields (R60-R66; O14, O15, O16). -/

namespace Sys2Proof.Integers
open Machine Words

/-! ## Sources and results as the statements write them (R60, R61) -/

/-- At each width, signed or not, the number of the low W bits. -/
theorem numOf_eq_number (w sgn : Bool) (a : Wide) : numOf w sgn a = number w sgn a := by
  have := a.isLt
  cases w <;> cases sgn <;> simp only [numOf, number, widthOf, BitVec.toInt_eq_toNat_cond, BitVec.toNat_setWidth] <;>
    simp <;> omega

theorem lowBits_eq_ofInt (w : Bool) (t : Int) :
    lowBits w t = if w then BitVec.ofInt 64 t else (BitVec.ofInt 32 t).setWidth 64 := by
  cases w
  · have low : (BitVec.ofInt 64 t).setWidth 32 = BitVec.ofInt 32 t := by
      refine BitVec.eq_of_toNat_eq ?_
      simp only [BitVec.toNat_setWidth, BitVec.toNat_ofInt]
      omega
    exact congrArg (BitVec.setWidth 64) low
  · rfl

theorem inResult_eq (m : ModIN) (t : Int) : inResult m.w m.sgn m.sat t = resultWord m t := by
  have clamp : clampInt m.w m.sgn t =
      if t < least m.w m.sgn then least m.w m.sgn else if greatest m.w m.sgn < t then greatest m.w m.sgn else t := by
    cases m.w <;> cases m.sgn <;> simp only [clampInt, loOf, hiOf, widthOf, least, greatest] <;> simp <;> omega
  rw [inResult, lowBits_eq_ofInt, clamp]
  rfl

theorem inNum_eq (m : ModIN) (t : Int) (d : Operand) : inNum m t d = destWrites m.w (resultWord m t) d := by
  rw [inNum, inResult_eq]

theorem num_eq (x : Site) (m : ModIN) (o : Operand) : x.num m o = number m.w m.sgn (x.read m.w o) := numOf_eq_number _ _ _

theorem inBits_eq (m : ModIN) (r : Wide) (d : Operand) : inBits m r d = destWrites m.w (lowWord m.w r) d := rfl

/-- A number depends on the low W bits alone. -/
theorem number_lowWord (w sgn : Bool) (a : Wide) : number w sgn (lowWord w a) = number w sgn a := by
  cases w <;> cases sgn <;> simp [number, lowWord]

theorem immValue_sign (w sgn : Bool) (imm : BitVec 20) : immValue .sign w sgn imm = lowWord w (immWide true imm) := by
  cases w <;> rfl

theorem number_immValue_bySgn (w sgn : Bool) (imm : BitVec 20) :
    number w sgn (immValue .bySgn w sgn imm) = number w sgn (immWide sgn imm) := by
  cases sgn
  · rfl
  · exact number_lowWord w true (immWide true imm)

theorem immNum_sign (m : ModIN) (imm : BitVec 20) : immNum .sign m imm = number m.w m.sgn (immWide true imm) := by
  rw [immNum, numOf_eq_number, immValue_sign, number_lowWord]

theorem immNum_bySgn (m : ModIN) (imm : BitVec 20) : immNum .bySgn m imm = number m.w m.sgn (immWide m.sgn imm) := by
  rw [immNum, numOf_eq_number, number_immValue_bySgn]

/-! ## O15 -/

/-- Settles O15: each word computes its formula from the numbers its sources are. -/
theorem integerArithmetic : Obligations.IntegerArithmetic := by
  unfold Obligations.IntegerArithmetic
  refine ⟨⟨fun w => ?_, fun w => ?_, fun w => ?_, fun w => ?_⟩,
    ⟨fun w => ?_, fun w => ?_, fun w => ?_, fun w => ?_, fun w => ?_⟩,
    fun w => ?_, fun w => ?_, fun w => ?_, fun w => ?_, fun w => ?_, fun w => ?_⟩
  all_goals
    refine delivers_of_pure (fun _ => rfl) fun x _ => ?_
    simp only [inNum_eq, num_eq, immNum_sign, immNum_bySgn, widthOf, Int.natCast_natAbs]

/-! ## O14 -/

theorem carryIn_eq (x : Site) (m : ModIN) (o : Operand) : x.carryIn m o = if (x.read m.w o).getLsbD 0 then 1 else 0 := rfl

/-- A destination that is no p register takes the low W bits, a p register the carry (R64). -/
theorem carryDest_eq (m : ModIN) (t : Int) (carry : Bool) (d : Operand) : carryDest m t carry d = match d with
    | .p _ => destWrites false (if carry then 1 else 0) d
    | _ => destWrites m.w (if m.w then BitVec.ofInt 64 t else (BitVec.ofInt 32 t).setWidth 64) d := by
  cases d <;> simp only [carryDest, lowBits_eq_ofInt, destBool]

theorem carryOut_eq (w : Bool) (t : Int) : carryOut w t = decide (2 ^ (if w then 64 else 32) ≤ t) := rfl
theorem borrowOut_eq (t : Int) : borrowOut t = decide (t < 0) := rfl

/-- Settles O14: the sum and the difference of unsigned sources (`sgn` is 0 at both words) are exact, and the kind of the
destination chooses between the value and the carry. -/
theorem carriesAndBorrows : Obligations.CarriesAndBorrows := by
  unfold Obligations.CarriesAndBorrows
  refine ⟨fun w => delivers_of_pure (fun _ => rfl) fun x hc => ?_, fun w => delivers_of_pure (fun _ => rfl) fun x hc => ?_⟩
  all_goals
    have unsigned : w.m.sgn = false := by
      have := modifierOk_of_clear hc
      simp only [Instr.modifierOk, Bool.and_eq_true, Bool.not_eq_true'] at this
      obtain ⟨⟨⟨-, hsgn⟩, -⟩, -⟩ := this
      exact hsgn
    simp only [carryDest_eq, num_eq, carryIn_eq, carryOut_eq, borrowOut_eq, unsigned, decide_eq_true_eq]
      <;> rfl

/-! ## Bit fields (R66) -/

/-- The length of a field, as the statement of R66 writes it: from the bits of operand b, cut at bit W-1. -/
def fieldSize (w : Bool) (b : Wide) : Nat :=
  if (if w then 64 else 32) ≤ (b.extractLsb' 0 6).toNat then 0
  else min (b.extractLsb' 8 7).toNat ((if w then 64 else 32) - (b.extractLsb' 0 6).toNat)

theorem fieldPos_eq (b : Wide) : b.toNat % 64 = (b.extractLsb' 0 6).toNat := by
  simp [BitVec.extractLsb'_toNat]

theorem fieldLen_eq (w : Bool) (b : Wide) : fieldLen w b = fieldSize w b := by
  have len : b.toNat / 256 % 128 = (b.extractLsb' 8 7).toNat := by
    simp [BitVec.extractLsb'_toNat, Nat.shiftRight_eq_div_pow]
  rw [fieldLen, fieldSize, fieldPos_eq, len]
  rfl

/-- A field that is not empty lies below bit W. -/
theorem fieldSize_le (w : Bool) (b : Wide) : fieldSize w b = 0 ∨ (b.extractLsb' 0 6).toNat + fieldSize w b ≤ 64 := by
  have wide : (if w then 64 else 32) ≤ 64 := by cases w <;> decide
  rw [fieldSize]
  generalize (if w then 64 else 32) = bits at wide
  by_cases h : bits ≤ (b.extractLsb' 0 6).toNat
  · exact .inl (if_pos h)
  · rw [if_neg h]
    omega

theorem lowBits_eq_lowWord (w : Bool) (t : Int) : lowBits w t = lowWord w (BitVec.ofInt 64 t) := rfl

theorem lowWord_lowWord (w : Bool) (a : Wide) : lowWord w (lowWord w a) = lowWord w a := by
  cases w
  · simp [lowWord]
  · rfl

/-- The bits of a field as a number are those the statement extracts. -/
theorem fieldBits_eq (a : Wide) (pos n : Nat) : a.toNat / 2 ^ pos % 2 ^ n = (a.extractLsb' pos n).toNat := by
  rw [BitVec.extractLsb'_toNat, Nat.shiftRight_eq_div_pow]

theorem bfextBits_eq (w sgn : Bool) (a b : Wide) : bfextBits w sgn a b =
    lowWord w (if sgn && 0 < fieldSize w b
      then (a.extractLsb' (b.extractLsb' 0 6).toNat (fieldSize w b)).signExtend 64
      else (a.extractLsb' (b.extractLsb' 0 6).toNat (fieldSize w b)).setWidth 64) := by
  rw [bfextBits, fieldLen_eq, fieldPos_eq, fieldBits_eq, lowBits_eq_lowWord]
  generalize fieldSize w b = n
  generalize a.extractLsb' _ n = f
  have whole : BitVec.ofInt 64 (f.toNat : Int) = f.setWidth 64 := by
    rw [BitVec.ofInt_natCast, BitVec.ofNat_toNat]
  cases sgn with
  | false => simp [whole]
  | true =>
    rcases Nat.eq_zero_or_pos n with rfl | hn
    · simp [signedOf, whole]
    · rw [if_pos rfl, Loads.signedOf_eq_toInt hn f.isLt, BitVec.ofNat_toNat, BitVec.setWidth_eq]
      simp [hn, BitVec.signExtend]

/-- The mask of the low n bits. -/
theorem getLsbD_lowMask {n : Nat} (hn : n ≤ 64) (j : Nat) :
    (if n = 64 then BitVec.allOnes 64 else 1#64 <<< n - 1).getLsbD j = decide (j < n) := by
  split
  · next h => rw [BitVec.getLsbD_allOnes, h]
  · have power : (1#64 <<< n).toNat = 2 ^ n := by
      rw [← BitVec.twoPow_eq, BitVec.toNat_twoPow, Nat.mod_eq_of_lt (Nat.pow_lt_pow_right (by decide) (by omega))]
    have ones : (1#64 <<< n - 1).toNat = 2 ^ n - 1 := by
      have := BitVec.toNat_sub_of_le (x := 1#64 <<< n) (y := 1#64) (by rw [BitVec.le_def, power]; exact Nat.one_le_two_pow)
      rw [power] at this
      exact this
    rw [BitVec.getLsbD, ones, Nat.testBit_two_pow_sub_one]

/-- A bit of the value that has a field of `n` bits at `pos` from `a`, and its other bits from `c`. -/
theorem testBit_field (a c pos n j : Nat) :
    (c % 2 ^ pos + 2 ^ pos * (a % 2 ^ n) + 2 ^ (pos + n) * (c / 2 ^ (pos + n))).testBit j =
      if pos ≤ j ∧ j < pos + n then a.testBit (j - pos) else c.testBit j := by
  have split : c % 2 ^ pos + 2 ^ pos * (a % 2 ^ n) + 2 ^ (pos + n) * (c / 2 ^ (pos + n)) =
      2 ^ pos * (2 ^ n * (c / 2 ^ (pos + n)) + a % 2 ^ n) + c % 2 ^ pos := by ring
  rw [split, Nat.testBit_two_pow_mul_add _ (Nat.mod_lt _ (by positivity)),
    Nat.testBit_two_pow_mul_add _ (Nat.mod_lt _ (by positivity)), Nat.testBit_mod_two_pow, Nat.testBit_mod_two_pow,
    Nat.testBit_div_two_pow]
  by_cases low : j < pos
  · simp [low, show ¬pos ≤ j by omega]
  · by_cases inside : j - pos < n
    · simp [low, inside, show pos ≤ j by omega, show j < pos + n by omega]
    · simp [low, inside, show ¬j < pos + n by omega, show j - pos - n + (pos + n) = j by omega]

theorem bfinsBits_eq (w : Bool) (a b c : Wide) : bfinsBits w a b c =
    (let pos := (b.extractLsb' 0 6).toNat
     let mask : Wide := (if fieldSize w b = 64 then BitVec.allOnes 64 else 1#64 <<< fieldSize w b - 1) <<< pos
     (c &&& ~~~mask) ||| (a <<< pos &&& mask)) := by
  have inside := fieldSize_le w b
  rw [bfinsBits, fieldLen_eq, fieldPos_eq]
  generalize fieldSize w b = n at inside
  generalize (b.extractLsb' 0 6).toNat = pos at inside
  have bits : (if n = 0 then c else BitVec.ofNat 64 (c.toNat % 2 ^ pos + 2 ^ pos * (a.toNat % 2 ^ n) +
      2 ^ (pos + n) * (c.toNat / 2 ^ (pos + n)))) = BitVec.ofNat 64 (c.toNat % 2 ^ pos + 2 ^ pos * (a.toNat % 2 ^ n) +
      2 ^ (pos + n) * (c.toNat / 2 ^ (pos + n))) := by
    split
    · next h => simp [h, Nat.mod_one, Nat.mod_add_div]
    · rfl
  refine bits.trans (BitVec.eq_of_getLsbD_eq fun j hj => ?_)
  rw [BitVec.getLsbD_ofNat, testBit_field, BitVec.getLsbD_or, BitVec.getLsbD_and, BitVec.getLsbD_and, BitVec.getLsbD_not,
    BitVec.getLsbD_shiftLeft, BitVec.getLsbD_shiftLeft, getLsbD_lowMask (show n ≤ 64 by omega), BitVec.testBit_toNat,
    BitVec.testBit_toNat]
  by_cases h1 : j < pos
  · simp [h1, hj, show ¬pos ≤ j by omega]
  · by_cases h2 : j < pos + n
    · simp [h1, h2, hj, show pos ≤ j by omega, show j - pos < n by omega]
    · simp [h1, h2, hj, show ¬j - pos < n by omega]

/-- Settles O16: the model's arithmetic on a field, bit by bit. -/
theorem bitFields : Obligations.BitFields := by
  unfold Obligations.BitFields
  refine ⟨fun w => ?_, fun w => ?_, fun w => ?_⟩
  all_goals
    refine delivers_of_pure (fun _ => rfl) fun x _ => ?_
    rw [inBits_eq]
  · rw [bfextBits_eq, lowWord_lowWord]
    rfl
  · rw [bfextBits_eq, lowWord_lowWord]
    rfl
  · rw [bfinsBits_eq]
    rfl

end Sys2Proof.Integers

/-! Comparisons, predicates and lane sets (R68, R69, R139; O18). -/

namespace Sys2Proof.Integers
open Machine Words

/-! ## Comparisons and predicates (R68, R69) -/

theorem icmpResult_eq (m : ModCM) (a b : Int) (d : Operand) :
    icmpResult m a b d = destWrites false (if condHolds m.cond.toNat a b then 1 else 0) d := rfl

/-! ## Lane sets (R139) -/

/-- A set built lane by lane from those of the first `n` lanes that satisfy `p`. -/
theorem getLsbD_foldl_lanes (p : Nat → Bool) {n : Nat} (hn : n ≤ 128) (j : Nat) :
    ((List.range n).foldl (fun m l => if p l then m ||| (1#128 <<< l) else m) 0).getLsbD j = (p j && decide (j < n)) := by
  induction n with
  | zero => simp
  | succ n ih =>
    rw [List.range_succ, List.foldl_append, List.foldl_cons, List.foldl_nil]
    have lane : (1#128 <<< n).getLsbD j = decide (j = n) := by
      rw [← BitVec.twoPow_eq, BitVec.getLsbD_twoPow]
      simp only [show n < 128 by omega, decide_true, Bool.true_and, eq_comm]
    have here := ih (by omega)
    generalize (List.range n).foldl _ _ = m at here
    have step : (if p n then m ||| (1#128 <<< n) else m).getLsbD j = (m.getLsbD j || (p n && decide (j = n))) := by
      cases p n <;> simp [lane]
    rw [step, here]
    by_cases hj : j = n
    · simp [hj]
    · simp [hj, show j < n + 1 ↔ j < n by omega]

theorem getLsbD_kRange (a b l : Nat) :
    (kRange a b).getLsbD l = (decide (a ≤ l) && decide (l < a + b) && decide (l < 128)) :=
  getLsbD_foldl_lanes (fun l => a ≤ l && l < a + b) le_rfl l

/-- A sound field of a lane set names a k register (R139). -/
theorem laneSet_of_fieldOk {regs : Nat} {r : Role} {o : Operand} (hr : r = .setDst ∨ r = .lanes)
    (h : Field.ok regs ⟨r, o.code⟩ = true) : ∃ i, o = .k i := by
  unfold Field.ok at h
  rw [ofCode_code] at h
  cases o with
  | k i => exact ⟨i, rfl⟩
  | _ => rcases hr with rfl | rfl <;> cases h

/-- Settles O18: conditions, truth values and lane sets, the last with the registers that the field checks leave. -/
theorem comparisonsAndPredicates : Obligations.ComparisonsAndPredicates := by
  unfold Obligations.ComparisonsAndPredicates
  refine ⟨⟨fun w => ?_, fun w => ?_⟩, ⟨fun w => ?_, fun w => ?_, fun w => ?_, fun w => ?_, fun w => ?_⟩,
    fun w => ⟨fun x => kRange (x.read32 w.a).toNat (x.read32 w.b).toNat, fun x l => getLsbD_kRange _ _ l, ?_⟩,
    fun w => ?_, fun w => ?_⟩
  · refine delivers_of_pure (fun _ => rfl) fun x _ => ?_
    rw [icmpResult_eq, numOf_eq_number, numOf_eq_number]
    rfl
  · refine delivers_of_pure (fun _ => rfl) fun x _ => ?_
    rw [icmpResult_eq, numOf_eq_number, numOf_eq_number, number_immValue_bySgn]
    rfl
  · exact delivers_of_pure (fun _ => rfl) fun x _ => rfl
  · exact delivers_of_pure (fun _ => rfl) fun x _ => rfl
  · refine delivers_of_pure (fun _ => rfl) fun x _ => ?_
    simp only [destBool, bne_iff_ne]
    rfl
  · refine delivers_of_pure (fun _ => rfl) fun x _ => ?_
    change destWrites false (if !x.pred w.a then 1 else 0) w.d = destWrites false (if x.pred w.a then 0 else 1) w.d
    cases x.pred w.a <;> rfl
  · exact delivers_of_pure (fun _ => rfl) fun x _ => rfl
  · refine completes_of_pure (fun _ => rfl) fun t x hc h => ?_
    obtain ⟨i, hd⟩ := laneSet_of_fieldOk (.inl rfl) (fields_of_clear rfl hc).1
    exact ⟨i, hd, by rw [h, hd]; rfl⟩
  · refine completes_of_pure (fun _ => rfl) fun t x hc h => ?_
    obtain ⟨hd, ha⟩ := fields_of_clear (i := .ksetCopy w) rfl hc
    obtain ⟨i, hd⟩ := laneSet_of_fieldOk (.inl rfl) hd
    obtain ⟨j, ha⟩ := laneSet_of_fieldOk (.inr rfl) ha
    exact ⟨i, j, hd, ha, by rw [h, hd, ha]; rfl⟩
  · refine completes_of_pure (fun _ => rfl) fun t x hc h => ?_
    obtain ⟨j, ha⟩ := laneSet_of_fieldOk (.inr rfl) (fields_of_clear rfl hc).2
    exact ⟨j, ha, by rw [h, ha]; rfl⟩

end Sys2Proof.Integers

/-! Words of the spec's examples (R64, R70, R158; O4). -/

namespace Sys2Proof.Encoding

/-- Settles O4: the decoder evaluates each word. -/
theorem workedWordsDecode : Obligations.WorkedWordsDecode := by
  unfold Obligations.WorkedWordsDecode
  exact ⟨by decide +kernel, by decide +kernel, by decide +kernel, by decide +kernel⟩

end Sys2Proof.Encoding

/-! A count of ones over a special that is wider than the operation (R34, R65; O17). -/

namespace Sys2Proof.Integers
open Machine Words

/-! ## A lane number of more than 32 bits

`popc` counts the ones of all 64 bits of the source it has read, the statement those of the low 32 in a 32-bit operation.  The two
differ where a source of a 32-bit operation supplies more than 32 bits, and `lane` does: it is the thread's lane in 64 bits, and
nothing bounds the lanes of an arbitrary state. -/

/-- A word completes with one result for each of its threads. -/
theorem delivers_unique {i : Instr} {f g : Site → List RegWrite × Wide} (hf : Delivers i f) (hg : Delivers i g) {s : State}
    {b : Burst} (h : AtWord s b) (hp : ∀ x ∈ turnSites s s.focus b i, Proceeds i x = true)
    (hn : NoneParks i (fun _ => True) (turnSites s s.focus b i)) {x : Site} (hx : x ∈ turnSites s s.focus b i)
    (hc : Clear i x = true) : f x = g x := by
  obtain ⟨t, ht, hft⟩ := hf s b h hp hn
  obtain ⟨u, hu, hgu⟩ := hg s b h hp hn
  cases ht.symm.trans hu
  have same := (hft x hx hc trivial).symm.trans (hgu x hx hc trivial)
  simp only [done, Option.some.injEq, List.cons.injEq, Result.mk.injEq, true_and, and_true] at same
  exact Prod.ext same.1 same.2

/-- `popc v2, lane` at 32 bits. -/
def laneOnes : OpWord ModIN := ⟨⟨false, 0, none⟩, ⟨false, false, false, false, 0⟩, .v 2, .special 0, .v 0, .v 0⟩

def laneBurst : Burst := { placedBurst 1 with groups := [[⟨1, 0, 2 ^ 32⟩]] }

/-- Core 0 at a word, with one thread, in lane 2^32. -/
def laneState : State :=
  { updCore State.reset 0 fun c => { c with burst := some laneBurst } with
    groups := [{ freshGroup placedPass 0 (newGroup 1 4 0 0 0 0) with
      phase := .resident, core := some 0, lcore := some 0
      threads := [{ newThread placedPass 0 0 0 with lane := 2 ^ 32, status := .running }] }]
    graphs := [placedGraph] }

def laneSites : List Site := turnSites laneState laneState.focus laneBurst (.popc laneOnes)

theorem atWord_lane : AtWord laneState laneBurst := by decide +kernel

theorem laneSites_clear :
    laneSites.all (fun x => Clear (.popc laneOnes) x && !x.th.seg.gather && x.t.lane = 2 ^ 32) = true ∧ laneSites ≠ [] := by
  refine ⟨by decide +kernel, ?_⟩
  have one : laneSites.length = 1 := by decide +kernel
  exact List.ne_nil_of_length_pos (by omega)

/-- Refutes O17: for the thread in lane 2^32 of `laneState`, `popc` of `lane` at 32 bits is 1, and the low 32 bits of the lane
number hold no one.  The premise that is missing is that lanes are below 2^32 (they are 0 to 127, R34). -/
theorem not_bitwiseResults : ¬ Obligations.BitwiseResults := by
  unfold Obligations.BitwiseResults
  rintro ⟨-, -, popc, -⟩
  have counts : Delivers (.popc laneOnes) fun x => inBits laneOnes.m (popcBits (x.read laneOnes.m.w laneOnes.a)) laneOnes.d :=
    delivers_of_pure (fun _ => rfl) fun _ _ => rfl
  obtain ⟨all, nonempty⟩ := laneSites_clear
  have site : ∀ x ∈ laneSites, Clear (.popc laneOnes) x = true ∧ x.th.seg.gather = false ∧ x.t.lane = 2 ^ 32 := fun x hx => by
    simpa [and_assoc] using List.all_eq_true.1 all x hx
  obtain ⟨x, hx⟩ := List.exists_mem_of_ne_nil _ nonempty
  obtain ⟨clear, -, lane⟩ := site x hx
  have same := delivers_unique counts (popc laneOnes) atWord_lane
    (fun y hy => by simp [Proceeds, (site y hy).1]) (fun y hy hg => by simp [(site y hy).2.1] at hg) hx clear
  have read : x.read laneOnes.m.w laneOnes.a = BitVec.ofNat 64 (2 ^ 32) := congrArg (BitVec.ofNat 64) lane
  simp only [read] at same
  exact absurd (congrArg Prod.snd same) (by decide)

end Sys2Proof.Integers

/-! Fetching alike is reflexive and transitive. -/

namespace Sys2Proof.Storage
open Machine

theorem SameFetch.refl (s : State) (k : Nat) : SameFetch s s k := ⟨.refl s, rfl, rfl, rfl⟩

theorem SameFetch.trans {a b c : State} {k : Nat} (h : SameFetch a b k) (g : SameFetch b c k) : SameFetch a c k :=
  ⟨h.storage.trans g.storage, g.ranges.trans h.ranges, g.tlb.trans h.tlb, g.code.trans h.code⟩

end Sys2Proof.Storage

/-! What a fault may change of a core: its table, its spilled threads and its counters (R186, R187, R332, R363). -/

namespace Sys2Proof.Faults
open Machine Storage

/-- A change of a core's waiting table, spilled threads and counters alone. -/
def Bookkeeping (f : Core → Core) : Prop :=
  ∀ c, ∃ table spill counters, f c = { c with table := table, spill := spill, counters := counters }

/-- A relation of states that threads, notices and the bookkeeping of cores do not break. -/
structure KeptByFaults (R : State → State → Prop) : Prop where
  refl    : ∀ s, R s s
  trans   : ∀ {a b c}, R a b → R b c → R a c
  threads : ∀ s t f, R s (updThread s t f)
  notices : ∀ s p key, R s (notify s p key).1
  cores   : ∀ s k f, Bookkeeping f → R s (updCore s k f)

theorem rel_ite {R : State → State → Prop} {s a b : State} {c : Prop} [Decidable c] (ha : R s a) (hb : R s b) :
    R s (if c then a else b) := by
  split
  · exact ha
  · exact hb

section
variable {R : State → State → Prop} (h : KeptByFaults R)
include h

theorem KeptByFaults.unspill (s : State) (k : Nat) : R s (unspill s k) := by
  unfold Machine.unspill
  dsimp only
  split
  · split
    · exact h.cores s k _ fun c => ⟨_, _, _, rfl⟩
    · exact h.cores s k _ fun c => ⟨_, _, _, rfl⟩
  · exact h.refl s

theorem KeptByFaults.newEntry (s : State) (k : Nat) (t : ThreadRef) (key : EntryKey) (pc hdr : Word) :
    R s (newEntry s k t key pc hdr) := by
  unfold Machine.newEntry
  dsimp only
  split
  · exact h.cores s k _ fun c => ⟨_, _, _, rfl⟩
  · split
    · exact h.cores s k _ fun c => ⟨_, _, _, rfl⟩
    · exact h.cores s k _ fun c => ⟨_, _, _, rfl⟩

theorem KeptByFaults.joinTable (s : State) (t : ThreadRef) : R s (joinTable s t) := by
  unfold Machine.joinTable
  split
  · exact h.refl s
  · split
    · exact h.refl s
    · rename_i k _
      have left : R s (Machine.unspill (updCore s k fun c => leaveTable c t) k) :=
        h.trans (h.cores s k _ fun c => ⟨_, _, _, rfl⟩) (h.unspill _ k)
      exact rel_ite (h.refl s) (h.trans left (rel_ite (h.cores _ k _ fun c => ⟨_, _, _, rfl⟩) (h.newEntry _ _ _ _ _ _)))

theorem KeptByFaults.makeReady (s : State) (t : ThreadRef) : R s (makeReady s t) := by
  unfold Machine.makeReady
  split
  · exact h.refl s
  · exact h.trans (h.threads s t _) (h.joinTable _ t)

theorem KeptByFaults.faultNotice (s : State) (p : Payload) (key : FaultKey × BitVec 8) : R s (faultNotice s p key).1 := by
  unfold Machine.faultNotice
  split
  · exact h.refl s
  · exact h.notices s p _

theorem KeptByFaults.parkHost (s : State) (t : ThreadRef) (r : Record) : R s (parkHost s t r) := by
  unfold Machine.parkHost
  split
  · exact h.refl s
  · exact h.trans (h.faultNotice s _ _) (h.trans (h.threads _ t _) (h.joinTable _ t))

theorem KeptByFaults.routeVector (s : State) (t : ThreadRef) (r : Record) : R s (routeVector s t r) := by
  unfold Machine.routeVector
  split
  · exact h.refl s
  · split
    · exact h.parkHost s t r
    · exact rel_ite (h.trans (h.threads s t _) (h.makeReady _ t)) (h.parkHost s t r)

theorem KeptByFaults.routeProcessor (s : State) (t : ThreadRef) (r : Record) : R s (routeProcessor s t r) := by
  unfold Machine.routeProcessor
  split
  · exact h.refl s
  · exact h.trans (h.faultNotice s _ _) (h.trans (h.threads _ t _) (h.joinTable _ t))

/-- Whatever its route, a fault keeps the relation. -/
theorem KeptByFaults.takeFault (s : State) (t : ThreadRef) (r : Record) (split : Bool) : R s (takeFault s t r split) := by
  unfold Machine.takeFault
  split
  · exact h.refl s
  · rename_i g _ _
    refine h.trans (h.cores s (g.core.getD 0) _ fun c => ⟨_, _, _, rfl⟩)
      (rel_ite (h.parkHost _ t r) (rel_ite (h.trans (h.threads _ t _) (h.makeReady _ t)) ?_))
    split
    · exact h.routeProcessor _ t r
    all_goals exact h.routeVector _ t r

end

/-- A fault of a thread's own: it leaves its burst, and the fault takes its route (R41, R144). -/
theorem KeptByFaults.faultOwn {R : State → State → Prop} (h : KeptByFaults R) {k : Nat} {t : ThreadRef}
    (leaves : ∀ s, R s (leaveBurst s k t)) (gathers : ∀ s data0 named, R s (leaveGather s k t data0 named))
    (s : State) (tr : Trouble) : R s (Machine.faultOwn s k t tr) := by
  unfold Machine.faultOwn
  split
  · exact h.refl s
  · refine rel_ite (h.refl s) (rel_ite ?_ (h.trans (leaves s) (h.takeFault _ t _ _)))
    unfold parkGather
    split
    · exact h.refl s
    · exact h.trans (gathers s _ _) (h.takeFault _ t _ _)

/-- A thread's own execution of a word keeps the relation where its fault and its rule do. -/
theorem KeptByFaults.issueThread {R : State → State → Prop} (h : KeptByFaults R) {i : Instr} {body : Body} {x : Site}
    (faults : (∃ tr, verdict i x = .fault tr) ∨ verdict i x = .run → ∀ s tr, R s (Machine.faultOwn s x.core x.t tr))
    (runs : ∀ s s', body s x = .ok s' → R s s') (s : State) : R s (Machine.issueThread i body s x) := by
  have disabled : ∀ s, R s (addDisabled s i x) := fun s => by
    unfold addDisabled
    split
    · exact rel_ite (h.threads s x.t _) (h.refl s)
    · exact h.refl s
  have begins : ∀ on, R s (beginWord s i x on) := fun on => h.threads s x.t _
  have fails : (∃ tr, verdict i x = .fault tr) ∨ verdict i x = .run → ∀ s tr, R s (faultWord s i x tr) := fun hv s tr =>
    h.trans (faults hv s tr) (rel_ite (disabled _) (h.refl _))
  unfold Machine.issueThread
  split
  · exact h.refl s
  · exact h.trans (begins false) (disabled _)
  · next tr hv => exact fails (.inl ⟨tr, hv⟩) s _
  · next hv =>
    dsimp only
    split
    · next hb => exact h.trans (begins true) (runs _ _ hb)
    · exact h.trans (begins true) (fails (.inr hv) _ _)

/-! ## What a core fetches -/

/-- Nothing has changed but groups and their threads. -/
def SameOutside (s t : State) : Prop := t = { s with groups := t.groups }

theorem SameOutside.cores {s t : State} (h : SameOutside s t) : t.cores = s.cores := by
  rw [h]

theorem sameOutside_updThread (s : State) (t : ThreadRef) (f : Thread → Thread) : SameOutside s (updThread s t f) := rfl

theorem SameOutside.setEnding {s t : State} (h : SameOutside s t) (x : Site) (e : Ending) : SameOutside s (setEnding t x e) := by
  unfold SameOutside at h ⊢
  rw [Machine.setEnding, updThread, updGroup, h]

theorem sameFetch_of_sameOutside {s t : State} (h : SameOutside s t) (k : Nat) : SameFetch s t k := by
  rw [h]
  exact ⟨⟨fun _ _ => rfl, rfl, rfl, rfl, rfl⟩, rfl, rfl, rfl⟩

theorem sameFetch_keptByFaults (k : Nat) : KeptByFaults fun s t => SameFetch s t k where
  refl s := .refl s k
  trans := .trans
  threads s t f := sameFetch_of_sameOutside (sameOutside_updThread s t f) k
  notices s p key := ⟨⟨fun _ _ => rfl, rfl, rfl, rfl, rfl⟩, rfl, rfl, rfl⟩
  cores s j f hf := sameFetch_updCore s j k f fun c => by
    obtain ⟨_, _, _, e⟩ := hf c
    simp [e]

theorem sameFetch_issueThread {i : Instr} {body : Body} {x : Site} (k : Nat)
    (runs : ∀ s s', body s x = .ok s' → SameFetch s s' k) (s : State) : SameFetch s (issueThread i body s x) k := by
  have leaves : ∀ s, SameFetch s (leaveBurst s x.core x.t) k := fun s => sameFetch_updCore s _ k _ fun _ => ⟨rfl, rfl, rfl⟩
  refine (sameFetch_keptByFaults k).issueThread (fun _ => (sameFetch_keptByFaults k).faultOwn leaves fun s _ _ => ?_) runs s
  exact (leaves s).trans (sameFetch_updCore _ _ k _ fun _ => ⟨rfl, rfl, rfl⟩)

theorem sameFetch_countIssue (s : State) (j : Nat) (i : Instr) (xs : List Site) (k : Nat) :
    SameFetch s (countIssue s j i xs) k := by
  have serial : SameFetch s { s with serial := s.serial + 1 } k := ⟨⟨fun _ _ => rfl, rfl, rfl, rfl, rfl⟩, rfl, rfl, rfl⟩
  have issued := serial.trans (sameFetch_updCore { s with serial := s.serial + 1 } j k
    (fun c => { c with issued := c.cycles.toNat }) fun _ => ⟨rfl, rfl, rfl⟩)
  unfold countIssue
  dsimp only
  split
  · exact issued
  · exact (issued.trans (sameFetch_bump _ _ _ _ _ k)).trans (sameFetch_bump _ _ _ _ _ k)

end Sys2Proof.Faults

/-! Transfers: the target is checked as before the issue group, and the segment ends (R70-R75, R152, R153; O40). -/

namespace Sys2Proof.Transfers
open Machine Words Storage Faults

/-! ## Rules that agree where the group fetches alike -/

/-- Two rules that agree at every state that the threads before reach give the issue group the same execution. -/
theorem issueAll_congr {i : Instr} {body body' : Body} {P : State → Prop} {xs : List Site}
    (hP : ∀ s, P s → ∀ x ∈ xs, P (issueThread i body' s x))
    (hb : ∀ s, P s → ∀ x ∈ xs, body (beginWord s i x true) x = body' (beginWord s i x true) x) {s : State} (h : P s) :
    issueAll i body s xs = issueAll i body' s xs := by
  have thread : ∀ s, P s → ∀ x ∈ xs, issueThread i body s x = issueThread i body' s x := fun s hs x hx => by
    unfold issueThread
    dsimp only
    rw [hb s hs x hx]
  have threads : ∀ ys ⊆ xs, ∀ s, P s → ys.foldl (issueThread i body) s = ys.foldl (issueThread i body') s ∧
      closureFaults i body s ys = closureFaults i body' s ys := by
    intro ys
    induction ys with
    | nil => exact fun _ _ _ => ⟨rfl, rfl⟩
    | cons y ys ih =>
      intro hy s hs
      obtain ⟨hy, hys⟩ := List.cons_subset.1 hy
      obtain ⟨fold, faults⟩ := ih hys _ (hP s hs y hy)
      have fault : faultAt i body s y = faultAt i body' s y := by
        unfold faultAt
        rw [hb s hs y hy]
      rw [List.foldl_cons, List.foldl_cons, closureFaults, closureFaults, thread s hs y hy, fault]
      exact ⟨fold, by rw [faults]⟩
  obtain ⟨fold, faults⟩ := threads xs (List.Subset.refl _) s h
  rw [issueAll, issueAll, fold, faults]

/-- A rule that reads the state only as far as its core fetches from it may as well read the state before the word. -/
theorem issueWord_congr {s : State} {b : Burst} {i : Instr} {body body' : Body} (h : AtWord s b)
    (hp : ∀ x ∈ turnSites s s.focus b i, verdict i x ≠ .stall)
    (hk : ∀ x s s', body' s x = .ok s' → SameOutside s s')
    (hb : ∀ x ∈ turnSites s s.focus b i, ∀ t, SameFetch s t s.focus → body t x = body' t x) :
    issueWord s i body = issueWord s i body' := by
  unfold issueWord
  rw [issueHeld_all h hp fun _ _ _ => rfl, issueHeld_all h hp fun _ _ _ => rfl]
  rw [issueAll_congr (P := fun t => SameFetch s t s.focus)
    (fun t ht x _ => ht.trans (sameFetch_issueThread s.focus (fun u u' hu => sameFetch_of_sameOutside (hk x u u' hu) _) t))
    (fun t ht x hx => hb x hx _ (ht.trans (sameFetch_of_sameOutside (sameOutside_updThread _ _ _) _)))
    (sameFetch_countIssue s s.focus i _ s.focus)]

/-! ## Words that complete by a rule of their own -/

/-- A word whose rule, for a thread that passes its checks, ends well and leaves the thread with a property that the end of the
segment keeps. -/
theorem completes_of_body {i : Instr} {body : Body} {own : Site → Prop} {p : State → Site → Prop} {Q : Site → Thread → Prop}
    (he : ∀ s b, AtWord s b → (∀ x ∈ turnSites s s.focus b i, verdict i x ≠ .stall) → exec i s = issueWord s i body)
    (hb : body.OwnThread) (hQ : ∀ x a c, SameWork a c → Q x a → Q x c)
    (runs : ∀ s x th, own x → threadOf s x.t = some th → Begun x.th th →
      ∃ s' th', body s x = .ok s' ∧ threadOf s' x.t = some th' ∧ Q x th')
    (hp : ∀ t x th, threadOf t x.t = some th → Q x th → p t x) : Completes i own p := by
  intro s b h hproc hnone
  have moves : ∀ x ∈ turnSites s s.focus b i, verdict i x ≠ .stall := fun x hx => (proceeds_iff i x).1 (hproc x hx)
  have sound : ∀ x ∈ turnSites s s.focus b i, x.th.seg.gather = true → Sound i body x := fun x hx hg => by
    obtain ⟨hf, hown⟩ := hnone x hx hg
    refine ⟨verdict_ne_fault hf, fun hv s1 th1 h1 begun => ?_⟩
    obtain ⟨s2, -, h2, -⟩ := runs s1 x th1 (hown ((clear_iff i x).2 hv)) h1 begun
    exact ⟨s2, h2⟩
  obtain ⟨t, ht, hx⟩ := issueHeld_run (held := fun _ => false) hb h moves sound fun _ _ _ => rfl
  refine ⟨t, (he s b h moves).trans ht, fun x hm hc hown => ?_⟩
  obtain ⟨th, hth, q⟩ := hx x hm ((clear_iff i x).1 hc) (Q x) (hQ x) fun s1 th1 => runs s1 x th1 hown
  exact hp t x th hth q

/-- The segment ends so. -/
def EndsWith (e : Ending) (th : Thread) : Prop := th.seg.ending = some e

theorem EndsWith.sameWork {e : Ending} {a c : Thread} (h : SameWork a c) (ha : EndsWith e a) : EndsWith e c := h.ending ha

theorem EndsWith.endingOf {e : Ending} {t : State} {u : ThreadRef} {th : Thread} (ht : threadOf t u = some th)
    (h : EndsWith e th) : endingOf t u = some e := by
  rw [endingOf_threadOf, ht]
  exact h

/-- A word whose rule only says how the segment ends (R75, R152, R153). -/
theorem completes_of_ending {i : Instr} {e : Site → Ending}
    (he : ∀ s, exec i s = issueWord s i fun s x => .ok (setEnding s x (e x))) :
    Completes i (fun _ => True) fun t x => endingOf t x.t = some (e x) :=
  completes_of_body (Q := fun x => EndsWith (e x)) (fun s _ _ _ => he s) (ending_ownThread e) (fun _ _ _ => EndsWith.sameWork)
    (fun _ x _ _ h _ => ⟨_, _, rfl, threadOf_setEnding (e x) h, rfl⟩) fun _ _ _ => EndsWith.endingOf

/-! ## Transfers to a target (R70, R71, R73) -/

/-- The target passes R73 before the word. -/
def GoodTarget (x : Site) (a : Operand) : Prop := targetFault x.before x.core x.g x.pass (x.read32 a).toNat = none

/-- A transfer that checks its target in the state before the word. -/
def transferBefore (a : Operand) (also : Site → State → State) : Body := fun s x =>
  match targetFault x.before x.core x.g x.pass (x.read32 a).toNat with
  | some c => .error (targetTrouble x (x.read32 a) c)
  | none => .ok (setEnding (also x s) x (.go (x.read32 a) (x.read32 a)))

section
variable {a : Operand} {also : Site → State → State}

theorem transferBefore_ok {s s' : State} {x : Site} (h : transferBefore a also s x = .ok s') :
    s' = setEnding (also x s) x (.go (x.read32 a) (x.read32 a)) := by
  unfold transferBefore at h
  split at h <;> cases h
  rfl

theorem transferBefore_of_good {x : Site} (h : GoodTarget x a) (s : State) :
    transferBefore a also s x = .ok (setEnding (also x s) x (.go (x.read32 a) (x.read32 a))) := by
  unfold transferBefore
  rw [h]

theorem transferBefore_ownThread (ha : ∀ s x, OnlyThread x.t s (also x s)) : (transferBefore a also).OwnThread := fun s x s' h => by
  rw [transferBefore_ok h]
  exact (ha s x).trans (onlyThread_setEnding _ x _)

/-- The threads before in the issue group change nothing that the check of a target reads. -/
theorem exec_transferTo {i : Instr} (he : ∀ s, exec i s = issueWord s i fun s x => transferTo (x.read32 a) (also x) s x)
    (ha : ∀ x s, SameOutside s (also x s)) (s : State) (b : Burst) (h : AtWord s b)
    (hp : ∀ x ∈ turnSites s s.focus b i, verdict i x ≠ .stall) : exec i s = issueWord s i (transferBefore a also) := by
  rw [he]
  refine issueWord_congr h hp (fun x t t' ht => ?_) fun x hx t ht => ?_
  · rw [transferBefore_ok ht]
    exact (ha x t).setEnding x _
  · obtain ⟨hcore, -, -⟩ := Loads.currentSites_of_mem h hx
    obtain ⟨hbefore, -⟩ := turnSites_spec hx
    have check : ∀ n, targetFault t x.core x.g x.pass n = targetFault x.before x.core x.g x.pass n := fun n => by
      rw [hcore, hbefore, ht.targetFault]
    unfold transferTo transferBefore
    rw [check] <;> rfl

/-- A transfer at a good target ends the segment there, and keeps what else its rule gives the thread. -/
theorem completes_of_transfer {i : Instr} {R : Site → List Result → Prop}
    (he : ∀ s, exec i s = issueWord s i fun s x => transferTo (x.read32 a) (also x) s x)
    (ha : ∀ x s, SameOutside s (also x s)) (ho : ∀ s x, OnlyThread x.t s (also x s))
    (hr : ∀ s x th, threadOf s x.t = some th → th.seg.results = x.th.seg.results →
      ∃ th', threadOf (also x s) x.t = some th' ∧ R x th'.seg.results) :
    Completes i (GoodTarget · a) fun t x => endingOf t x.t = some (.go (x.read32 a) (x.read32 a)) ∧
      ∃ rs, resultsOf t x.t = some rs ∧ R x rs := by
  refine completes_of_body (Q := fun x th => EndsWith (.go (x.read32 a) (x.read32 a)) th ∧ R x th.seg.results)
    (exec_transferTo he ha) (transferBefore_ownThread ho) (fun x u v h q => ⟨q.1.sameWork h, h.results.symm ▸ q.2⟩) ?_ ?_
  · rintro s x th good hth ⟨_, _, _, rfl⟩
    obtain ⟨th', hth', r⟩ := hr s x _ hth rfl
    exact ⟨_, _, transferBefore_of_good good s, threadOf_setEnding _ hth', rfl, r⟩
  · rintro t x th hth ⟨e, r⟩
    exact ⟨e.endingOf hth, _, by rw [resultsOf_threadOf, hth]; rfl, r⟩

end

/-- A jump writes no register (R70). -/
theorem completes_of_jump {i : Instr} {a : Operand}
    (he : ∀ s, exec i s = issueWord s i fun s x => transferTo (x.read32 a) id s x) :
    Completes i (GoodTarget · a) fun t x => endingOf t x.t = some (.go (x.read32 a) (x.read32 a)) := by
  intro s b h hp hn
  obtain ⟨t, ht, hx⟩ := completes_of_transfer (also := fun _ => id) (R := fun _ _ => True) he (fun _ _ => rfl)
    (fun s x => .refl x.t s) (fun _ _ th h _ => ⟨th, h, trivial⟩) s b h hp hn
  exact ⟨t, ht, fun x hm hc hg => (hx x hm hc hg).1⟩

/-- A call leaves the return address in d (R71). -/
theorem completes_of_call {i : Instr} {a d : Operand}
    (he : ∀ s, exec i s = issueWord s i fun s x => transferTo (x.read32 a) (linkTo x d) s x) :
    Completes i (GoodTarget · a) fun t x => endingOf t x.t = some (.go (x.read32 a) (x.read32 a)) ∧
      resultsOf t x.t = some (done (destWrites false (x.returnAddress.setWidth 64) d) :: x.th.seg.results) := by
  intro s b h hp hn
  obtain ⟨t, ht, hx⟩ := completes_of_transfer (also := fun x => linkTo x d)
    (R := fun x rs => rs = done (destWrites false (x.returnAddress.setWidth 64) d) :: x.th.seg.results) he (fun _ _ => rfl)
    (fun s x => onlyThread_linkTo d s x) (fun _ x th h hr => ⟨_, threadOf_finish _ h, by rw [← hr]; rfl⟩) s b h hp hn
  refine ⟨t, ht, fun x hm hc hg => ?_⟩
  obtain ⟨e, rs, hrs, rfl⟩ := hx x hm hc hg
  exact ⟨e, hrs⟩

theorem targetFault_eq_none_iff (s : State) (k : Nat) (g : Group) (p : Pass) (n : Nat) : targetFault s k g p n = none ↔
    n % 8 = 0 ∧ n + 8 ≤ effLimit (padBytes p) (g.g.getD 0 0) ∧ hdrMark (codeWord s k g n) = 0xC ∧
      hdrBlock (codeWord s k g n) = true := by
  unfold targetFault
  generalize effLimit (padBytes p) (g.g.getD 0 0) = limit
  by_cases aligned : n % 8 = 0
  · by_cases inside : n + 8 ≤ limit
    · simp [aligned, inside, not_lt.2 inside]
    · simp [aligned, inside, not_le.1 inside]
  · simp [aligned]

end Sys2Proof.Transfers

/-! A thread whose guard disables a transfer continues after it (R38, R74; O40). -/

namespace Sys2Proof.Transfers
open Machine Words Storage Faults Selector

/-! ## The burst while its issue group executes a word -/

/-- Core `k` runs burst `b`, but for threads that have left it; `u` is still in the issue group whose turn it is. -/
def HoldsTurn (k : Nat) (b : Burst) (u : ThreadRef) (s : State) : Prop :=
  ∃ groups parked, (getCore s k).burst = some { b with groups := groups, parked := parked } ∧
    (groups.getD b.turn []).Sublist (b.groups.getD b.turn []) ∧ u ∈ groups.getD b.turn []

theorem burst_of_sameBursts {s t : State} (h : SameBursts s t) (k : Nat) : (getCore t k).burst = (getCore s k).burst := by
  have core : ∀ s : State, (getCore s k).burst = ((s.cores[k]?).map Core.burst).getD Core.reset.burst := fun s => by
    rw [getCore, List.getD_eq_getElem?_getD]
    cases s.cores[k]? <;> rfl
  rw [core, core, h k]

section
variable {k : Nat} {b : Burst} {u : ThreadRef} {s t : State}

theorem HoldsTurn.of_sameBursts (h : HoldsTurn k b u s) (hb : SameBursts s t) : HoldsTurn k b u t := by
  obtain ⟨groups, parked, hburst, hsub, hu⟩ := h
  exact ⟨groups, parked, (burst_of_sameBursts hb k).trans hburst, hsub, hu⟩

theorem getD_dropThread (groups : List (List ThreadRef)) (t : ThreadRef) (n : Nat) :
    (dropThread groups t).getD n [] = (groups.getD n []).filter fun v => v ≠ t := by
  simp only [dropThread, List.getD_eq_getElem?_getD, List.getElem?_map]
  cases groups[n]? <;> rfl

/-- Another thread leaves the burst. -/
theorem HoldsTurn.leaveBurst (h : HoldsTurn k b u s) {v : ThreadRef} (hv : u ≠ v) (j : Nat) :
    HoldsTurn k b u (leaveBurst s j v) := by
  obtain ⟨groups, parked, hburst, hsub, hu⟩ := h
  rcases Copies.getCore_updCore_or s j k
    (fun c => { c with burst := c.burst.map fun b => { b with groups := dropThread b.groups v } }) with e | e
  · exact ⟨groups, parked, (congrArg Core.burst e).trans hburst, hsub, hu⟩
  · refine ⟨dropThread groups v, parked, (congrArg Core.burst e).trans (by rw [hburst]; rfl), ?_, ?_⟩
    · rw [getD_dropThread]
      exact List.filter_sublist.trans hsub
    · rw [getD_dropThread]
      exact List.mem_filter.2 ⟨hu, by simpa using hv⟩

theorem HoldsTurn.leaveGather (h : HoldsTurn k b u s) {v : ThreadRef} (hv : u ≠ v) (j : Nat) (data0 : Word) (named : BitVec 128) :
    HoldsTurn k b u (leaveGather s j v data0 named) := by
  obtain ⟨groups, parked, hburst, hsub, hu⟩ := h.leaveBurst hv j
  rcases Copies.getCore_updCore_or (Machine.leaveBurst s j v) j k
    (fun c => { c with burst := c.burst.map fun b => { b with parked := b.parked ++ [(v, data0, named)] } }) with e | e
  · exact ⟨groups, parked, (congrArg Core.burst e).trans hburst, hsub, hu⟩
  · exact ⟨groups, _, (congrArg Core.burst e).trans (by rw [hburst]; rfl), hsub, hu⟩

end

theorem holdsTurn_keptByFaults (k : Nat) (b : Burst) (u : ThreadRef) :
    KeptByFaults fun s t => HoldsTurn k b u s → HoldsTurn k b u t where
  refl _ := id
  trans h g := g ∘ h
  threads _ _ _ h := h.of_sameBursts (.of_cores rfl)
  notices _ _ _ h := h.of_sameBursts (.of_cores rfl)
  cores s j f hf h := h.of_sameBursts (sameBursts_updCore s j f fun c => by
    obtain ⟨_, _, _, e⟩ := hf c
    rw [e])

/-- A thread that executes a word, whether it ends in a fault or not, leaves the others in their issue group. -/
theorem HoldsTurn.issueThread {k : Nat} {b : Burst} {u : ThreadRef} {i : Instr} {body : Body} {x : Site}
    (hx : u ≠ x.t ∨ verdict i x = .off) (hk : ∀ s s', body s x = .ok s' → SameOutside s s') {s : State}
    (h : HoldsTurn k b u s) : HoldsTurn k b u (issueThread i body s x) := by
  refine (holdsTurn_keptByFaults k b u).issueThread (fun hv => ?_) (fun s s' hs h => h.of_sameBursts (.of_cores (hk s s' hs).cores))
    s h
  have other : u ≠ x.t := hx.resolve_right fun off => by
    rcases hv with ⟨tr, hv⟩ | hv <;> cases hv.symm.trans off
  exact (holdsTurn_keptByFaults k b u).faultOwn (fun s h => h.leaveBurst other x.core)
    fun s data0 named h => h.leaveGather other x.core data0 named

theorem sameBursts_countIssue (s : State) (j : Nat) (i : Instr) (xs : List Site) : SameBursts s (countIssue s j i xs) := by
  have issued := SameBursts.trans (.of_cores rfl : SameBursts s { s with serial := s.serial + 1 })
    (sameBursts_updCore { s with serial := s.serial + 1 } j (fun c => { c with issued := c.cycles.toNat }) fun _ => rfl)
  unfold countIssue
  dsimp only
  split
  · exact issued
  · exact (issued.trans (sameBursts_bump _ _ _ _ _)).trans (sameBursts_bump _ _ _ _ _)

/-! ## The end of a thread's segment -/

theorem onlyThread_endThread (k : Nat) (b : Burst) (i : Instr) (s : State) (t : ThreadRef) :
    OnlyThread t s (endThread k b i s t) := by
  unfold endThread
  split
  · split
    · split
      · intro u hu
        rw [threadOf_congr (joinTable_groups _ t), threadOf_updThread_other (hf := by exact fun _ => ⟨rfl, rfl⟩) (h := hu)]
      · exact .refl t s
    · exact .refl t s
  · exact .refl t s

/-- A thread that does not transfer at the last word of a clause ends its segment with the word after it (R38, R74). -/
theorem endThread_falls {s : State} {k : Nat} {b : Burst} {i : Instr} {t : ThreadRef} {th : Thread} {h : Nat × Wide}
    (hi : i.isTransfer = true) (hw : b.words.find? (fun w => w.1 = b.hdr.toNat) = some h)
    (hend : b.pc.toNat + instrBytes i = clauseEnd b.hdr.toNat h.2) (ht : threadOf s t = some th) (hrun : th.status = .running)
    (hnone : th.seg.ending = none) :
    ∃ th', threadOf (endThread k b i s t) t = some th' ∧
      EndsWith (.go (BitVec.ofNat 32 (b.pc.toNat + instrBytes i)) (BitVec.ofNat 32 (b.pc.toNat + instrBytes i))) th' := by
  obtain ⟨⟨g, _⟩, hf, rfl⟩ := Option.map_eq_some_iff.1 ht
  have fall : endsAt s k b i g =
      some (BitVec.ofNat 32 (b.pc.toNat + instrBytes i), BitVec.ofNat 32 (b.pc.toNat + instrBytes i)) := by
    simp [endsAt, hi, burstWord, hw, nextPlace, hend]
  unfold endThread
  rw [hf]
  dsimp only
  rw [fall]
  dsimp only
  rw [if_pos hrun, threadOf_congr (joinTable_groups _ t),
    threadOf_updThread_same (hf := by exact fun _ => ⟨rfl, rfl⟩), ht]
  refine ⟨_, rfl, ?_⟩
  dsimp only at hnone
  simp [EndsWith, hnone]

/-- The same once the whole issue group has executed the word. -/
theorem advance_falls {s : State} {k : Nat} {b : Burst} {i : Instr} {t : ThreadRef} {th : Thread} {h : Nat × Wide}
    (hi : i.isTransfer = true) (hw : b.words.find? (fun w => w.1 = b.hdr.toNat) = some h)
    (hend : b.pc.toNat + instrBytes i = clauseEnd b.hdr.toNat h.2) (hn : (b.groups.getD b.turn []).Nodup)
    (hb : HoldsTurn k b t s) (ht : threadOf s t = some th) (hrun : th.status = .running) (hnone : th.seg.ending = none) :
    ∃ th', threadOf (advance s k i) t = some th' ∧
      EndsWith (.go (BitVec.ofNat 32 (b.pc.toNat + instrBytes i)) (BitVec.ofNat 32 (b.pc.toNat + instrBytes i))) th' := by
  obtain ⟨groups, parked, hburst, hsub, hmem⟩ := hb
  obtain ⟨s0, h0, h1⟩ := foldl_distinct (key := id) (groups.getD b.turn []) (by simpa using hn.sublist hsub) s
    (fun s' u _ _ => onlyThread_endThread k { b with groups := groups, parked := parked } i s' u) t hmem
  obtain ⟨th', hth', falls⟩ := endThread_falls (k := k) (b := { b with groups := groups, parked := parked }) hi hw hend
    (h0.trans ht) hrun hnone
  refine ⟨th', ?_, falls⟩
  have ended : threadOf (endTurn s k { b with groups := groups, parked := parked } i) t = some th' := h1.trans hth'
  unfold advance
  rw [hburst]
  dsimp only
  split
  · exact ended
  · rw [threadOf_congr (nextWord_groups _ _ _ _)]
    exact ended

/-! ## The transfers' rules -/

/-- A transfer is issued thread by thread, by a rule that changes its own thread alone. -/
theorem transfer_issue {i : Instr} (hi : i.isTransfer = true) : ∃ body : Body, body.OwnThread ∧
    (∀ s, exec i s = issueWord s i body) ∧ ∀ x s s', body s x = .ok s' → SameOutside s s' := by
  have ends : ∀ e : Site → Ending, ∀ x s s', Except.ok (setEnding s x (e x)) = (.ok s' : Except Trouble State) →
      SameOutside s s' := fun e x s s' h => by
    cases h
    rfl
  have goes : ∀ (a : Operand) (also : Site → State → State), (∀ x s, SameOutside s (also x s)) →
      ∀ x s s', transferTo (x.read32 a) (also x) s x = .ok s' → SameOutside s s' := fun a also ha x s s' h => by
    unfold transferTo at h
    split at h <;> cases h
    exact (ha x s).setEnding x _
  cases i with
  | exit _ | trap _ | trapret _ | brk _ => exact ⟨_, ending_ownThread _, fun _ => rfl, ends _⟩
  | br w | ret w | jmpi w =>
    exact ⟨_, transferTo_ownThread (fun x => x.read32 w.a) (fun _ => id) fun s x => .refl x.t s, fun _ => rfl,
      goes w.a (fun _ => id) fun _ _ => rfl⟩
  | call w | calli w =>
    exact ⟨_, transferTo_ownThread (fun x => x.read32 w.a) (fun x => linkTo x w.d) fun s x => onlyThread_linkTo w.d s x,
      fun _ => rfl, goes w.a (fun x => linkTo x w.d) fun _ _ => rfl⟩
  | _ => cases hi

theorem place_of_mem_turnSites {s : State} {k : Nat} {b : Burst} {i : Instr} {x : Site} (h : x ∈ turnSites s k b i) :
    x.pc = b.pc ∧ x.lit = i.literal ∧ x.t ∈ b.groups.getD b.turn [] := by
  obtain ⟨t, ht, h⟩ := List.mem_filterMap.1 h
  unfold siteOf at h
  split at h
  · cases h
  · split at h
    · cases h
    · split at h <;> cases h
      exact ⟨rfl, rfl, ht⟩

/-- A thread that a transfer at the end of its clause is disabled for continues after it. -/
theorem transfer_disabled {s : State} {b : Burst} {i : Instr} {h : Nat × Wide} (hi : i.isTransfer = true) (hat : AtWord s b)
    (hp : ∀ x ∈ turnSites s s.focus b i, Proceeds i x = true) (hg : ∀ x ∈ turnSites s s.focus b i, x.th.seg.gather = false)
    (hw : b.words.find? (fun w => w.1 = b.hdr.toNat) = some h)
    (hend : b.pc.toNat + instrBytes i = clauseEnd b.hdr.toNat h.2) :
    Goes (exec i s) fun t => ∀ x ∈ turnSites s s.focus b i, Disabled i x = true → x.th.seg.ending = none →
      endingOf t x.t = some (.go x.returnAddress x.returnAddress) := by
  obtain ⟨body, hown, he, hk⟩ := transfer_issue hi
  have here : ∀ y ∈ turnSites s s.focus b i,
      threadOf (countIssue s s.focus i (turnSites s s.focus b i)) y.t = some y.th := fun y hy => by
    rw [threadOf_congr (countIssue_groups _ _ _ _), (turnSites_spec hy).2]
  refine ⟨_, (he s).trans (issueHeld_all hat (fun x hx => (proceeds_iff i x).1 (hp x hx)) fun _ _ _ => rfl),
    fun x hx hd hnone => ?_⟩
  have off := (disabled_iff i x).1 hd
  obtain ⟨hpc, hlit, hmem⟩ := place_of_mem_turnSites hx
  rw [issueAll_alone i hown (turnSites_nodup hat.2) here fun y hy e => by simp [hg y hy] at e]
  have burst : HoldsTurn s.focus b x.t ((turnSites s s.focus b i).foldl (issueThread i body)
      (countIssue s s.focus i (turnSites s s.focus b i))) := by
    obtain ⟨c, hc, hcb⟩ := Option.bind_eq_some_iff.1 hat.1
    have first : HoldsTurn s.focus b x.t s :=
      ⟨b.groups, b.parked, by simp [getCore, List.getD_eq_getElem?_getD, hc, hcb], .refl _, hmem⟩
    refine List.foldlRecOn _ _ (first.of_sameBursts (sameBursts_countIssue _ _ _ _)) fun s' hs' y hy => ?_
    refine hs'.issueThread ?_ (hk y)
    by_cases e : x.t = y.t
    · exact .inr (List.inj_on_of_nodup_map (turnSites_nodup hat.2) hx hy e ▸ off)
    · exact .inl e
  obtain ⟨s0, h0, h1⟩ := foldl_distinct (key := Site.t) _ (turnSites_nodup hat.2) _
    (fun s' y _ _ => onlyThread_issueThread i hown s' y) x hx
  obtain ⟨th1, hth1, _, _, _, rfl⟩ := begun_beginWord (i := i) (on := false) (h0.trans (here x hx))
  have left : issueThread i body s0 x = addDisabled (beginWord s0 i x false) i x := by simp only [issueThread, off]
  rw [left] at h1
  obtain ⟨th, hth, falls⟩ := advance_falls hi hw hend hat.2 burst (h1.trans (threadOf_addDisabled hth1))
    (running_of_mem_turnSites hx) hnone
  have next : BitVec.ofNat 32 (b.pc.toNat + instrBytes i) = x.returnAddress := by
    rw [Site.returnAddress, hpc, hlit, instrBytes, BitVec.ofNat_add, BitVec.ofNat_toNat, BitVec.setWidth_eq]
    split <;> rfl
  rw [← next]
  exact falls.endingOf hth

/-- Settles O40: each transfer's rule at a target that was good before the word, and the end of the segment for the threads
that their guard keeps from it. -/
theorem transfersEndTheSegment : Obligations.TransfersEndTheSegment := by
  unfold Obligations.TransfersEndTheSegment
  refine ⟨fun w => completes_of_jump fun _ => rfl, fun w => completes_of_jump fun _ => rfl, fun w => completes_of_jump fun _ => rfl,
    fun w => completes_of_call fun _ => rfl, fun w => completes_of_call fun _ => rfl,
    fun w => completes_of_ending fun _ => rfl, fun w => completes_of_ending fun _ => rfl, fun w => completes_of_ending fun _ => rfl,
    fun w => completes_of_ending fun _ => rfl, targetFault_eq_none_iff,
    fun i s b h hi hat hp hg hw hend => transfer_disabled hi hat hp hg hw hend⟩

end Sys2Proof.Transfers

/-! The codes that `qnt` writes under a reserved element format (R88, R99; O26). -/

namespace Sys2Proof.Quantised
open Machine

/-- Refutes O26: a slot may name the reserved element format 4, for which the model's code of -infinity is 0x86; the clause on
infinities has no premise on the format and asks for 0xFE. -/
theorem not_quantisedCodes : ¬ Obligations.QuantisedCodes := by
  unfold Obligations.QuantisedCodes
  rintro ⟨-, -, -, infinity, -⟩
  exact absurd (infinity 8 0 0 0xFF80_0000 0 true (by decide) (by decide)) (by decide)

end Sys2Proof.Quantised

/-! Dot products and half-words (R103, R104; O27). -/

namespace Sys2Proof.Halves
open Machine Words Integers

/-- The bits of an element as a number are those the statement extracts (R87, R103). -/
theorem dotElem_eq {n : Nat} (hn : 0 < n) (sgn : Bool) (x : Word) (j : Nat) :
    dotElem n sgn x j = if sgn then (x.extractLsb' (n * j) n).toInt else ((x.extractLsb' (n * j) n).toNat : Int) := by
  have bits : x.toNat / 2 ^ (n * j) % 2 ^ n = (x.extractLsb' (n * j) n).toNat := by
    rw [BitVec.extractLsb'_toNat, Nat.shiftRight_eq_div_pow]
  rw [dotElem, bits, Loads.signedOf_eq_toInt hn (BitVec.isLt _), BitVec.ofNat_toNat, BitVec.setWidth_eq]

theorem foldl_add_eq_sum (f : Nat → Int) (l : List Nat) (t : Int) : l.foldl (fun t j => t + f j) t = t + (l.map f).sum := by
  induction l generalizing t with
  | nil => simp
  | cons j l ih => rw [List.foldl_cons, ih, List.map_cons, List.sum_cons, add_assoc]

/-- The accumulator plus the sum of the products, clamped under `sat` (R103). -/
theorem dotWord_eq {n : Nat} (hn : 0 < n) (m : ModDT) (a b c : Word) : dotWord n m a b c =
    (let t : Int := c.toInt + ((List.range (32 / n)).map fun j =>
      (if m.sa then (a.extractLsb' (n * j) n).toInt else ((a.extractLsb' (n * j) n).toNat : Int)) *
        if m.sb then (b.extractLsb' (n * j) n).toInt else ((b.extractLsb' (n * j) n).toNat : Int)).sum
    BitVec.ofInt 32 (if m.sat then max (-0x8000_0000) (min 0x7FFF_FFFF t) else t)).setWidth 64 := by
  simp only [dotWord, foldl_add_eq_sum, dotElem_eq hn, lowBits_eq_ofInt]
  rfl

/-- Both words of R104 leave operand c unused (R28). -/
theorem code_of_unused {i : Instr} {x : Site} {v : View} (hv : i.view = some v) (hc : v.c.role = .unused) (h : Clear i x = true) :
    v.c.code = 0 := by
  obtain ⟨u, hu, -, hfield⟩ := checks_of_clear h
  obtain rfl : u = v := Option.some.inj (hu.symm.trans hv)
  simp only [badField, List.findSome?_eq_none_iff, List.forall_mem_cons] at hfield
  obtain ⟨-, -, -, hfield, -⟩ := hfield
  simpa [Field.ok, hc] using hfield

/-- Settles O27: the products summed, and the halves as the model moves them. -/
theorem dotProductsAndHalves : Obligations.DotProductsAndHalves := by
  unfold Obligations.DotProductsAndHalves
  refine ⟨fun w => delivers_of_pure (fun _ => rfl) fun x _ => ?_, fun w => delivers_of_pure (fun _ => rfl) fun x _ => ?_,
    fun w => delivers_of_pure (fun _ => rfl) fun x _ => rfl, fun w => delivers_of_pure (fun _ => rfl) fun x _ => ?_,
    fun w x hc => code_of_unused (i := .hpack w) rfl rfl hc, fun w x hc => code_of_unused (i := .hunpk w) rfl rfl hc⟩
  · rw [dotWord_eq (by omega)]
  · rw [dotWord_eq (by omega)]
  · split <;> rfl

end Sys2Proof.Halves

/-! The parts of a pattern: its sign, the magnitude it counts, and the value it holds (R78, R80). -/

namespace Sys2Proof.Patterns
open Machine Rounding

/-- The sign bit of a pattern. -/
def negOf (fmt x : Nat) : Bool := x / 2 ^ (fmtWidth fmt - 1) % 2 = 1

/-- A pattern without its sign bit: the number of its magnitude, counted from 0. -/
def codeIn (fmt x : Nat) : Nat := x % 2 ^ (fmtWidth fmt - 1)

theorem width_eq {fmt : Nat} (hf : fmt < 3) : fmtWidth fmt = fracBits fmt + expBits fmt + 1 := by
  interval_cases fmt <;> rfl

theorem codeIn_eq {fmt : Nat} (hf : fmt < 3) (x : Nat) :
    codeIn fmt x = x / 2 ^ fracBits fmt % 2 ^ expBits fmt * 2 ^ fracBits fmt + x % 2 ^ fracBits fmt := by
  rw [codeIn, width_eq hf, Nat.add_sub_cancel, pow_add, Nat.mod_mul]
  ring

theorem codeIn_lt (fmt x : Nat) : codeIn fmt x < 2 ^ (fmtWidth fmt - 1) := Nat.mod_lt _ (Nat.two_pow_pos _)

theorem isNan_eq (fmt x : Nat) : isNan fmt x = decide (infBits fmt < codeIn fmt x) := rfl

theorem infBits_lt {fmt : Nat} (hf : fmt < 3) : infBits fmt < 2 ^ (fmtWidth fmt - 1) := by
  interval_cases fmt <;> decide

theorem infBits_pos {fmt : Nat} (hf : fmt < 3) : 0 < infBits fmt := by
  interval_cases fmt <;> decide

/-- A pattern is its sign bit and its magnitude. -/
theorem pattern_eq {fmt x : Nat} (hf : fmt < 3) (hx : x < 2 ^ fmtWidth fmt) : x = signBit fmt (negOf fmt x) + codeIn fmt x := by
  obtain ⟨fields, rest⟩ := pattern_fields hf hx
  rw [codeIn, rest]
  exact fields

theorem negOf_signBit {fmt c : Nat} (neg : Bool) (hc : c < 2 ^ (fmtWidth fmt - 1)) :
    negOf fmt (signBit fmt neg + c) = neg ∧ codeIn fmt (signBit fmt neg + c) = c := by
  have pow := Nat.two_pow_pos (fmtWidth fmt - 1)
  cases neg with
  | false => simp [signBit, negOf, codeIn, Nat.mod_eq_of_lt hc, Nat.div_eq_of_lt hc]
  | true => simp [signBit, negOf, codeIn, Nat.mod_eq_of_lt hc, Nat.div_eq_of_lt hc, Nat.add_div_left _ pow]

/-- What a finite pattern holds: its sign, and the magnitude of its code, kept as an integer and its last place. -/
structure Holds (fmt x : Nat) (neg : Bool) (m : Nat) (e : Int) : Prop where
  sign : negOf fmt x = neg
  code : codeIn fmt x < infBits fmt
  fits : Fits (fracBits fmt) (fmtLow fmt) m e
  upper : m < 2 ^ (fracBits fmt + 1)
  lower : m < 2 ^ fracBits fmt → e = fmtLow fmt
  codeOf : codeOf (fracBits fmt) (fmtLow fmt) m e = codeIn fmt x

theorem unpack_eq {fmt : Nat} (hf : fmt < 3) (x : Nat) :
    (infBits fmt < codeIn fmt x ∧ unpack fmt x = .nan) ∨
    (codeIn fmt x = infBits fmt ∧ unpack fmt x = .inf (negOf fmt x)) ∨
    ∃ m e, unpack fmt x = .fin (negOf fmt x) m e ∧ Holds fmt x (negOf fmt x) m e := by
  have hfrac : x % 2 ^ fracBits fmt < 2 ^ fracBits fmt := Nat.mod_lt _ (Nat.two_pow_pos _)
  have hexp : x / 2 ^ fracBits fmt % 2 ^ expBits fmt < 2 ^ expBits fmt := Nat.mod_lt _ (Nat.two_pow_pos _)
  have code := codeIn_eq hf x
  have unf : unpack fmt x = if x / 2 ^ fracBits fmt % 2 ^ expBits fmt = 2 ^ expBits fmt - 1 then
        (if x % 2 ^ fracBits fmt = 0 then .inf (negOf fmt x) else .nan)
      else if x / 2 ^ fracBits fmt % 2 ^ expBits fmt = 0 then .fin (negOf fmt x) (x % 2 ^ fracBits fmt) (fmtLow fmt)
      else .fin (negOf fmt x) (2 ^ fracBits fmt + x % 2 ^ fracBits fmt)
        (fmtLow fmt + (x / 2 ^ fracBits fmt % 2 ^ expBits fmt - 1 : Nat)) := rfl
  rw [unf]
  generalize x / 2 ^ fracBits fmt % 2 ^ expBits fmt = exp at *
  generalize x % 2 ^ fracBits fmt = frac at *
  by_cases htop : exp = 2 ^ expBits fmt - 1
  · have hc : codeIn fmt x = infBits fmt + frac := by rw [code, htop, infBits]
    rw [if_pos htop]
    by_cases hz : frac = 0
    · exact .inr (.inl ⟨by omega, if_pos hz⟩)
    · exact .inl ⟨by omega, if_neg hz⟩
  · have below : codeIn fmt x < infBits fmt := by
      have : (exp + 1) * 2 ^ fracBits fmt ≤ (2 ^ expBits fmt - 1) * 2 ^ fracBits fmt := Nat.mul_le_mul_right _ (by omega)
      rw [Nat.add_mul] at this
      unfold infBits
      omega
    rw [if_neg htop]
    refine .inr (.inr ?_)
    by_cases hsub : exp = 0
    · refine ⟨frac, fmtLow fmt, if_pos hsub, rfl, below, ⟨le_rfl, by rw [pow_succ]; omega, .inr (.inl rfl)⟩,
        by rw [pow_succ]; omega, fun _ => rfl, ?_⟩
      rw [code, hsub, Nat.zero_mul, Nat.zero_add]
      exact if_pos hfrac
    · refine ⟨2 ^ fracBits fmt + frac, fmtLow fmt + (exp - 1 : Nat), if_neg hsub, rfl, below,
        ⟨by omega, by rw [pow_succ]; omega, .inl (by omega)⟩, by rw [pow_succ]; omega, by omega, ?_⟩
      have hk : (fmtLow fmt + ((exp - 1 : Nat) : Int) - fmtLow fmt).toNat + 1 = exp := by omega
      rw [Machine.codeOf, if_neg (by omega), hk, code]
      omega

theorem unpack_nan_iff {fmt : Nat} (hf : fmt < 3) (x : Nat) : unpack fmt x = .nan ↔ isNan fmt x = true := by
  rw [isNan_eq, decide_eq_true_iff]
  obtain ⟨h, hu⟩ | ⟨h, hu⟩ | ⟨m, e, hu, h⟩ := unpack_eq hf x
  · simp [hu, h]
  · simp [hu, h]
  · simp [hu, h.code.le]

theorem unpack_inf_iff {fmt : Nat} (hf : fmt < 3) (x : Nat) (neg : Bool) :
    unpack fmt x = .inf neg ↔ codeIn fmt x = infBits fmt ∧ negOf fmt x = neg := by
  obtain ⟨h, hu⟩ | ⟨h, hu⟩ | ⟨m, e, hu, h⟩ := unpack_eq hf x
  · simp [hu, h.ne']
  · simp [hu, h]
  · simp [hu, h.code.ne]

theorem holds_of_unpack {fmt x : Nat} {neg : Bool} {m : Nat} {e : Int} (hf : fmt < 3) (hu : unpack fmt x = .fin neg m e) :
    Holds fmt x neg m e := by
  obtain ⟨-, h⟩ | ⟨-, h⟩ | ⟨m', e', h, holds⟩ := unpack_eq hf x
  · cases h.symm.trans hu
  · cases h.symm.trans hu
  · cases h.symm.trans hu
    exact holds

theorem Holds.magnitude {fmt x m : Nat} {neg : Bool} {e : Int} (h : Holds fmt x neg m e) :
    magnitude fmt (codeIn fmt x) = (m : Rat) * 2 ^ e := h.codeOf ▸ magnitude_codeOf h.fits

/-- The last place of a finite source. -/
theorem Holds.low_le {fmt x m : Nat} {neg : Bool} {e : Int} (hf : fmt < 3) (h : Holds fmt x neg m e) : -149 ≤ e := by
  have low : -149 ≤ fmtLow fmt := by interval_cases fmt <;> decide
  exact low.trans h.fits.place

/-- A sign and a magnitude as a number. -/
def signed (neg : Bool) (q : Rat) : Rat := if neg then -q else q

theorem number_fin (neg : Bool) (m : Nat) (e : Int) : (FVal.fin neg m e).number = signed neg ((m : Rat) * 2 ^ e) := by
  cases neg <;> simp [FVal.number, signed]

theorem abs_signed (neg : Bool) {q : Rat} (h : 0 ≤ q) : |signed neg q| = q := by
  cases neg <;> simp [signed, abs_of_nonneg h]

theorem Holds.number {fmt x m : Nat} {neg : Bool} {e : Int} (h : Holds fmt x neg m e) :
    (FVal.fin neg m e).number = signed neg (Machine.magnitude fmt (codeIn fmt x)) := by
  rw [number_fin, h.magnitude]

@[simp] theorem magnitude_zero (fmt : Nat) : magnitude fmt 0 = 0 := by
  simp [magnitude]

theorem magnitude_nonneg (fmt c : Nat) : 0 ≤ magnitude fmt c :=
  magnitude_zero fmt ▸ (magnitude_strictMono fmt).monotone (Nat.zero_le c)

/-- The pattern of a sign and the code of a finite magnitude holds that magnitude. -/
theorem unpack_signBit {fmt c : Nat} (hf : fmt < 3) (neg : Bool) (hc : c < infBits fmt) :
    ∃ m e, unpack fmt (signBit fmt neg + c) = .fin neg m e ∧ (FVal.fin neg m e).number = signed neg (magnitude fmt c) := by
  obtain ⟨hn, hcode⟩ := negOf_signBit neg (hc.trans (infBits_lt hf))
  obtain ⟨h, -⟩ | ⟨h, -⟩ | ⟨m, e, hu, holds⟩ := unpack_eq hf (signBit fmt neg + c)
  · omega
  · omega
  · rw [hn] at hu holds
    exact ⟨m, e, hu, hcode ▸ holds.number⟩

end Sys2Proof.Patterns

/-! Choices and comparisons of floats (R91, R92, R95; O24). -/

namespace Sys2Proof.Choices
open Machine Words Patterns

/-- A sign and a code as one integer, the zeros equal. -/
def signedCode (neg : Bool) (c : Nat) : Int := if neg then -(c : Int) else c

/-- Numbers are ordered as their signed codes. -/
theorem signed_magnitude_lt (fmt c d : Nat) (p q : Bool) :
    signed p (magnitude fmt c) < signed q (magnitude fmt d) ↔ signedCode p c < signedCode q d := by
  have lt (a b : Nat) : magnitude fmt a < magnitude fmt b ↔ a < b := (Rounding.magnitude_strictMono fmt).lt_iff_lt
  have pos (a : Nat) : 0 < magnitude fmt a ↔ 0 < a := by rw [← magnitude_zero fmt, lt]
  have hc := magnitude_nonneg fmt c
  have hd := magnitude_nonneg fmt d
  cases p <;> cases q <;> simp only [signed, signedCode, if_true, if_false, Bool.false_eq_true]
  · rw [lt, Nat.cast_lt]
  · exact iff_of_false (by linarith) (by omega)
  · have := pos c
    have := pos d
    by_cases h : 0 < c ∨ 0 < d
    · exact iff_of_true (by rcases h with h | h <;> [have := (pos c).2 h; have := (pos d).2 h] <;> linarith) (by omega)
    · obtain ⟨rfl, rfl⟩ : c = 0 ∧ d = 0 := by omega
      simp
  · rw [neg_lt_neg_iff, lt, neg_lt_neg_iff, Nat.cast_lt]

/-- Keys of patterns are ordered by sign, then by code. -/
theorem orderKey_eq (fmt x : Nat) :
    orderKey fmt x = if negOf fmt x then -(codeIn fmt x : Int) - 1 else (codeIn fmt x : Int) := by
  have pow := Nat.two_pow_pos (fmtWidth fmt - 1)
  have sign : x % (2 * 2 ^ (fmtWidth fmt - 1)) < 2 ^ (fmtWidth fmt - 1) ↔ negOf fmt x = false := by
    rw [mul_comm, Nat.mod_mul, negOf, decide_eq_false_iff_not]
    have := Nat.mod_lt x pow
    rcases Nat.mod_two_eq_zero_or_one (x / 2 ^ (fmtWidth fmt - 1)) with h | h <;> simp [h, this]
  rw [orderKey]
  simp only [sign]
  cases negOf fmt x <;> simp [codeIn]

/-- The key of `fcmp`, for which the zeros are equal (R95). -/
def compareKey (fmt x : Nat) : Int := if codeIn fmt x = 0 then 0 else orderKey fmt x

theorem fcmpHolds_eq (fmt cond a b : Nat) : fcmpHolds fmt cond a b =
    match cond with
    | 0 => !(isNan fmt a || isNan fmt b) && decide (compareKey fmt a = compareKey fmt b)
    | 1 => (isNan fmt a || isNan fmt b) || decide (compareKey fmt a ≠ compareKey fmt b)
    | 2 => !(isNan fmt a || isNan fmt b) && decide (compareKey fmt a < compareKey fmt b)
    | 3 => !(isNan fmt a || isNan fmt b) && decide (compareKey fmt a ≤ compareKey fmt b)
    | 4 => !(isNan fmt a || isNan fmt b) && decide (compareKey fmt a > compareKey fmt b)
    | 5 => !(isNan fmt a || isNan fmt b) && decide (compareKey fmt a ≥ compareKey fmt b)
    | 6 => isNan fmt a || isNan fmt b
    | _ => !(isNan fmt a || isNan fmt b) := by
  rfl

theorem isNan_of_fin {fmt x m : Nat} {neg : Bool} {e : Int} (h : Holds fmt x neg m e) : isNan fmt x = false := by
  rw [isNan_eq, decide_eq_false_iff_not]
  exact h.code.not_gt

theorem compareKey_lt_iff {fmt a b m n : Nat} {p q : Bool} {e f : Int} (ha : Holds fmt a p m e) (hb : Holds fmt b q n f) :
    compareKey fmt a < compareKey fmt b ↔ (FVal.fin p m e).number < (FVal.fin q n f).number := by
  rw [ha.number, hb.number, signed_magnitude_lt, compareKey, compareKey, orderKey_eq, orderKey_eq, ha.sign, hb.sign, signedCode,
    signedCode]
  split_ifs <;> omega

theorem compareKey_le_iff {fmt a b m n : Nat} {p q : Bool} {e f : Int} (ha : Holds fmt a p m e) (hb : Holds fmt b q n f) :
    compareKey fmt a ≤ compareKey fmt b ↔ (FVal.fin p m e).number ≤ (FVal.fin q n f).number := by
  rw [← not_lt, ← not_lt, compareKey_lt_iff hb ha]

theorem compareKey_inj_iff {fmt a b m n : Nat} {p q : Bool} {e f : Int} (ha : Holds fmt a p m e) (hb : Holds fmt b q n f) :
    compareKey fmt a = compareKey fmt b ↔ (FVal.fin p m e).number = (FVal.fin q n f).number := by
  rw [le_antisymm_iff, le_antisymm_iff, compareKey_le_iff ha hb, compareKey_le_iff hb ha]

/-- Patterns with one key are the same. -/
theorem orderKey_inj {fmt a b : Nat} (hf : fmt < 3) (ha : a < 2 ^ fmtWidth fmt) (hb : b < 2 ^ fmtWidth fmt) :
    orderKey fmt a = orderKey fmt b ↔ a = b := by
  refine ⟨fun h => ?_, fun h => h ▸ rfl⟩
  rw [orderKey_eq, orderKey_eq] at h
  have hn : negOf fmt a = negOf fmt b := by
    cases ha : negOf fmt a <;> cases hb : negOf fmt b <;> simp [ha, hb] at h ⊢ <;> omega
  have hc : codeIn fmt a = codeIn fmt b := by
    rw [hn] at h
    split at h <;> omega
  rw [pattern_eq hf ha, pattern_eq hf hb, hn, hc]

/-- The lesser or the greater of two patterns whose order is known. -/
theorem pickBits_of_le {fmt a b : Nat} (greater : Bool) (hf : fmt < 3) (hwa : a < 2 ^ fmtWidth fmt) (hwb : b < 2 ^ fmtWidth fmt)
    (ha : isNan fmt a = false) (hb : isNan fmt b = false) (h : orderKey fmt a ≤ orderKey fmt b) :
    pickBits fmt greater a b = (if greater then b else a) ∧ pickBits fmt greater b a = if greater then b else a := by
  rcases h.lt_or_eq with hlt | heq
  · cases greater <;> simp [pickBits, ha, hb, hlt, hlt.not_gt]
  · rw [(orderKey_inj hf hwa hwb).1 heq]
    cases greater <;> simp [pickBits, hb]

/-- Keys go with the numbers, and of two equal ones -0 has the lesser (R92). -/
theorem orderKey_le {fmt a b m n : Nat} {p q : Bool} {e f : Int} (ha : Holds fmt a p m e) (hb : Holds fmt b q n f)
    (h : (FVal.fin p m e).number < (FVal.fin q n f).number ∨ ((FVal.fin p m e).number = (FVal.fin q n f).number ∧ (p || !q))) :
    orderKey fmt a ≤ orderKey fmt b := by
  rw [← compareKey_lt_iff ha hb, ← compareKey_inj_iff ha hb, compareKey, compareKey, orderKey_eq, orderKey_eq, ha.sign, hb.sign] at h
  rw [orderKey_eq, orderKey_eq, ha.sign, hb.sign]
  cases p <;> cases q <;> simp only [if_true, if_false, Bool.false_eq_true, Bool.or_false, Bool.not_false, Bool.not_true,
    Bool.or_true, and_true, and_false, or_false] at h ⊢ <;> split at h <;> split at h <;> omega

/-- Two finite sources in the order of their numbers, and of two equal ones -0 below +0 (R92). -/
theorem pickBits_fin {fmt a b m n : Nat} {p q : Bool} {e f : Int} (greater : Bool) (hf : fmt < 3) (hwa : a < 2 ^ fmtWidth fmt)
    (hwb : b < 2 ^ fmtWidth fmt) (ha : Holds fmt a p m e) (hb : Holds fmt b q n f) : pickBits fmt greater a b =
      (if (FVal.fin p m e).number < (FVal.fin q n f).number then (if greater then b else a)
       else if (FVal.fin q n f).number < (FVal.fin p m e).number then (if greater then a else b)
       else if p then (if greater then b else a) else (if greater then a else b)) := by
  have na := isNan_of_fin ha
  have nb := isNan_of_fin hb
  have ascending (h) := (pickBits_of_le greater hf hwa hwb na nb (orderKey_le ha hb h)).1
  have descending (h) := (pickBits_of_le greater hf hwb hwa nb na (orderKey_le hb ha h)).2
  rcases lt_trichotomy (FVal.fin p m e).number (FVal.fin q n f).number with h | h | h
  · rw [if_pos h, ascending (.inl h)]
  · rw [if_neg h.not_lt, if_neg h.not_gt]
    cases p with
    | true => exact ascending (.inr ⟨h, rfl⟩)
    | false => exact descending (.inr ⟨h.symm, by simp⟩)
  · rw [if_neg h.not_gt, if_pos h, descending (.inl h)]

/-- An infinity is the least or the greatest of the patterns that are no NaN. -/
theorem orderKey_inf {fmt a b : Nat} (hf : fmt < 3) {p : Bool} (ha : unpack fmt a = .inf p) (hb : isNan fmt b = false) :
    if p then orderKey fmt a ≤ orderKey fmt b else orderKey fmt b ≤ orderKey fmt a := by
  obtain ⟨hc, hn⟩ := (unpack_inf_iff hf a p).1 ha
  rw [isNan_eq, decide_eq_false_iff_not] at hb
  rw [orderKey_eq, orderKey_eq, hn, hc]
  cases p <;> simp only [if_true, if_false, Bool.false_eq_true] <;> split <;> omega

/-- An infinity is the least or the greatest choice (R92). -/
theorem pickBits_inf {fmt a b : Nat} (greater p : Bool) (hf : fmt < 3) (hwa : a < 2 ^ fmtWidth fmt) (hwb : b < 2 ^ fmtWidth fmt)
    (ha : unpack fmt a = .inf p) (hb : isNan fmt b = false) :
    pickBits fmt greater a b = (if p = greater then b else a) ∧ pickBits fmt greater b a = if p = greater then b else a := by
  have na : isNan fmt a = false := by simpa [ha] using (unpack_nan_iff hf a).not.symm
  have order := orderKey_inf hf ha hb
  cases p with
  | true => simpa using pickBits_of_le greater hf hwa hwb na hb order
  | false =>
    have := pickBits_of_le greater hf hwb hwa hb na order
    cases greater <;> exact this.symm

/-- A NaN source makes `ne` and `un` true, and nothing else (R95). -/
theorem fcmpHolds_nan {fmt cond a b : Nat} (hc : cond < 8) (h : isNan fmt a = true ∨ isNan fmt b = true) :
    fcmpHolds fmt cond a b = decide (cond = 1 ∨ cond = 6) := by
  have nan : (isNan fmt a || isNan fmt b) = true := by simpa using h
  rw [fcmpHolds_eq, nan]
  interval_cases cond <;> rfl

/-- With no NaN the conditions are those of the keys (R95). -/
theorem fcmpHolds_num {fmt a b : Nat} (ha : isNan fmt a = false) (hb : isNan fmt b = false) (cond : Nat) :
    fcmpHolds fmt cond a b = match cond with
      | 0 => decide (compareKey fmt a = compareKey fmt b)
      | 1 => decide (compareKey fmt a ≠ compareKey fmt b)
      | 2 => decide (compareKey fmt a < compareKey fmt b)
      | 3 => decide (compareKey fmt a ≤ compareKey fmt b)
      | 4 => decide (compareKey fmt b < compareKey fmt a)
      | 5 => decide (compareKey fmt b ≤ compareKey fmt a)
      | 6 => false
      | _ => true := by
  rw [fcmpHolds_eq, ha, hb]
  rfl

/-- The key of an infinity is beyond that of every other pattern that is no NaN. -/
theorem compareKey_inf {fmt a b : Nat} {p : Bool} (hf : fmt < 3) (hwa : a < 2 ^ fmtWidth fmt) (hwb : b < 2 ^ fmtWidth fmt)
    (ha : unpack fmt a = .inf p) (hb : isNan fmt b = false) (hne : b ≠ a) :
    if p then compareKey fmt a < compareKey fmt b else compareKey fmt b < compareKey fmt a := by
  have order := orderKey_inf hf ha hb
  have differ := (orderKey_inj hf hwb hwa).not.2 hne
  have pos := infBits_pos hf
  obtain ⟨hc, hn⟩ := (unpack_inf_iff hf a p).1 ha
  rw [orderKey_eq fmt a, hn, hc] at order differ
  rw [compareKey, compareKey, orderKey_eq fmt a, hn, hc]
  cases p <;> simp only [if_true, if_false, Bool.false_eq_true] at order differ ⊢ <;> split_ifs <;> omega

/-- Settles O24: each choice by the order of keys, and each comparison by keys that go with the numbers. -/
theorem floatChoices : Obligations.FloatChoices := by
  unfold Obligations.FloatChoices
  refine ⟨⟨fun w => delivers_of_pure (fun _ => rfl) fun x _ => rfl, fun w => delivers_of_pure (fun _ => rfl) fun x _ => rfl,
    fun w => delivers_of_pure (fun _ => rfl) fun x _ => rfl, fun w => delivers_of_pure (fun _ => rfl) fun x _ => rfl,
    fun w => delivers_of_pure (fun _ => rfl) fun x _ => rfl, fun fmt a b greater hf hwa hwb => ?_⟩,
    ⟨fun w => delivers_of_pure (fun _ => rfl) fun x _ => rfl, fun fmt cond a b hf hc _ _ h => fcmpHolds_nan hc h,
      fun fmt a b p m e q n f hf _ _ ha hb => ?_⟩, fun fmt a b p hf hwa hwb ha => ?_⟩
  · refine ⟨fun ha hb => by simp [pickBits, ha, hb], fun ha hb => by simp [pickBits, ha, hb],
      fun ha hb => by simp [pickBits, ha, hb], fun p m e q n f ha hb => ?_, fun p ha hb => ?_, fun q hb ha => ?_⟩
    · exact pickBits_fin greater hf hwa hwb (holds_of_unpack hf ha) (holds_of_unpack hf hb)
    · exact (pickBits_inf greater p hf hwa hwb ha hb).1
    · exact (pickBits_inf greater q hf hwb hwa hb ha).2
  · have ha := holds_of_unpack hf ha
    have hb := holds_of_unpack hf hb
    simp only [fcmpHolds_num (isNan_of_fin ha) (isNan_of_fin hb), compareKey_lt_iff ha hb, compareKey_lt_iff hb ha,
      compareKey_le_iff ha hb, compareKey_le_iff hb ha, ne_eq, compareKey_inj_iff ha hb]
    simp
  · have na : isNan fmt a = false := by simpa [ha] using (unpack_nan_iff hf a).not.symm
    refine ⟨fun cond => ?_, fun nb hne => ?_⟩
    · rw [fcmpHolds_num na na]
      match cond with
      | 0 | 1 | 2 | 3 | 4 | 5 | 6 | 7 => simp
      | n + 8 => simp
    · have order := compareKey_inf hf hwa hwb ha nb hne
      simp only [fcmpHolds_num na nb, fcmpHolds_num nb na]
      cases p <;> simp only [if_true, if_false, Bool.false_eq_true] at order <;>
        simp [order, order.ne, order.ne', order.le, order.not_gt, order.not_ge]

end Sys2Proof.Choices

/-! Rounding to an integer (R81, R91, R97). -/

namespace Sys2Proof.Integral
open Machine Rounding Patterns

/-! ## What `roundInt` keeps -/

/-- With room for every bit the last place kept is that of the units. -/
theorem lastPlace_units (m : Nat) (e : Int) : lastPlace (max (bitLength m + e.toNat) 1 - 1) 0 m e = 0 := by
  unfold lastPlace
  omega

theorem roundInt_eq (rnd : Nat) (neg : Bool) (m : Nat) (e : Int) : roundInt rnd neg m e =
    if 0 ≤ e then m * 2 ^ e.toNat
    else m / 2 ^ (-e).toNat +
      if roundsUp rnd neg (m / 2 ^ (-e).toNat) (m % 2 ^ (-e).toNat) (-e).toNat false then 1 else 0 := by
  have places : max (bitLength m + e.toNat) 1 = max (bitLength m + e.toNat) 1 - 1 + 1 := by omega
  rw [roundInt, places, roundMag_eq, lastPlace_units]
  by_cases he : 0 ≤ e <;> simp [he]

/-! ## The integers around a number -/

theorem floor_eq_of {q : Rat} {n : Int} (h : (n : Rat) ≤ q) (h' : q < n + 1) : q.floor = n :=
  le_antisymm (Int.lt_add_one_iff.1 (by
    have := (Rat.floor_le q).trans_lt h'
    exact_mod_cast this)) (Rat.le_floor_iff.2 h)

theorem ceil_eq_of {q : Rat} {n : Int} (h : q ≤ n) (h' : (n : Rat) < q + 1) : q.ceil = n := by
  rw [Rat.ceil_eq_neg_floor_neg, floor_eq_of (q := -q) (n := -n) (by push_cast; linarith) (by push_cast; linarith), neg_neg]

theorem roundRat_int {rnd : Nat} (hr : rnd < 4) (n : Int) : roundRat rnd (n : Rat) = n := by
  have hf : (n : Rat).floor = n := floor_eq_of le_rfl (by linarith)
  have hc : (n : Rat).ceil = n := ceil_eq_of le_rfl (by linarith)
  interval_cases rnd
  · simp [roundRat, hf]
  · simp [roundRat, hf, hc]
  · exact hc
  · exact hf

/-- A number between two integers rounds to one of them. -/
theorem roundRat_between {n : Int} {t : Rat} (h0 : 0 < t) (h1 : t < 1) (rnd : Nat) : roundRat rnd (n + t) =
    match rnd with
    | 0 => if t < 1 / 2 then n else if 1 / 2 < t then n + 1 else if n % 2 = 0 then n else n + 1
    | 1 => if (n : Rat) + t < 0 then n + 1 else n
    | 2 => n + 1
    | _ => n := by
  have hf : ((n : Rat) + t).floor = n := floor_eq_of (by linarith) (by linarith)
  have hc : ((n : Rat) + t).ceil = n + 1 := ceil_eq_of (by push_cast; linarith) (by push_cast; linarith)
  simp only [roundRat, hf, hc, add_sub_cancel_left] <;> rfl

/-- To nearest: the rest against a half, and a tie by the parity of what is kept. -/
theorem roundsUp_nearest {keep rem shift : Nat} (neg : Bool) (hpos : 0 < rem) : roundsUp 0 neg keep rem shift false = true ↔
    2 ^ shift < 2 * rem ∨ (2 * rem = 2 ^ shift ∧ keep % 2 = 1) := by
  simp [roundsUp, hpos]

/-- An integer and a proper fraction, of either sign, round to one of the integers beside them. -/
theorem roundRat_signed {rnd keep rem shift : Nat} (hr : rnd < 4) (neg : Bool) (hrem : rem < 2 ^ shift) :
    roundRat rnd (signed neg (keep + rem / 2 ^ shift)) =
      (if neg then -1 else 1) * (keep + if roundsUp rnd neg keep rem shift false then 1 else 0 : Nat) := by
  have pow : (0 : Rat) < 2 ^ shift := by positivity
  rcases Nat.eq_zero_or_pos rem with rfl | hpos
  · have none : roundsUp rnd neg keep 0 shift false = false := by interval_cases rnd <;> simp [roundsUp]
    have whole : signed neg ((keep : Rat) + (0 : Nat) / 2 ^ shift) = (((if neg then -1 else 1) * (keep : Int) : Int) : Rat) := by
      cases neg <;> simp [signed]
    rw [whole, roundRat_int hr, none]
    simp
  · have h0 : (0 : Rat) < rem / 2 ^ shift := by positivity
    have h1 : (rem : Rat) / 2 ^ shift < 1 := (div_lt_one pow).2 (by exact_mod_cast hrem)
    have below : (rem : Rat) / 2 ^ shift < 1 / 2 ↔ 2 * rem < 2 ^ shift := by
      rw [div_lt_div_iff₀ pow (by norm_num), one_mul, mul_comm]
      exact_mod_cast Iff.rfl
    have above : 1 / 2 < (rem : Rat) / 2 ^ shift ↔ 2 ^ shift < 2 * rem := by
      rw [div_lt_div_iff₀ (by norm_num) pow, one_mul, mul_comm (rem : Rat)]
      exact_mod_cast Iff.rfl
    generalize (rem : Rat) / 2 ^ shift = r at *
    have keep0 : (0 : Rat) ≤ keep := by positivity
    cases neg with
    | false =>
      have value : signed false ((keep : Rat) + r) = ((keep : Int) : Rat) + r := rfl
      rw [value, roundRat_between h0 h1]
      interval_cases rnd
      · simp only [roundsUp_nearest _ hpos, below, above]
        rcases lt_trichotomy (2 * rem) (2 ^ shift) with h | h | h
        · simp [h, h.not_gt, h.ne]
        · rcases Nat.mod_two_eq_zero_or_one keep with k | k
          · have : (keep : Int) % 2 = 0 := by omega
            simp [h, k, this]
          · have : (keep : Int) % 2 = 1 := by omega
            simp [h, k, this]
        · simp [h, h.not_gt]
      · simp [roundsUp, (show ¬((keep : Rat) + r < 0) by linarith)]
      · simp [roundsUp, hpos.ne']
      · simp [roundsUp]
    | true =>
      have value : signed true ((keep : Rat) + r) = ((-(keep + 1) : Int) : Rat) + (1 - r) := by
        simp only [signed, if_true]
        push_cast
        ring
      have below' : 1 - r < 1 / 2 ↔ 2 ^ shift < 2 * rem := by
        rw [← above]
        constructor <;> intro h <;> linarith
      have above' : 1 / 2 < 1 - r ↔ 2 * rem < 2 ^ shift := by
        rw [← below]
        constructor <;> intro h <;> linarith
      have negative : ((-(keep + 1) : Int) : Rat) + (1 - r) < 0 := by
        push_cast
        linarith
      rw [value, roundRat_between (by linarith) (by linarith)]
      interval_cases rnd
      · simp only [roundsUp_nearest _ hpos, below', above']
        rcases lt_trichotomy (2 * rem) (2 ^ shift) with h | h | h
        · simp [h, h.not_gt, h.ne]
        · rcases Nat.mod_two_eq_zero_or_one keep with k | k
          all_goals
            simp [h, k]
            omega
        · simp [h]
      · simp only [negative, if_true, roundsUp]
        simp
      · simp [roundsUp]
      · simp [roundsUp, hpos.ne']

/-- The integer part and the fraction of m × 2^e. -/
theorem parts_of_neg {m : Nat} {e : Int} (he : e < 0) : (m : Rat) * 2 ^ e =
    ((m / 2 ^ (-e).toNat : Nat) : Rat) + ((m % 2 ^ (-e).toNat : Nat) : Rat) / 2 ^ (-e).toNat := by
  have scale : (2 : Rat) ^ e = (2 ^ (-e).toNat)⁻¹ := by
    rw [← zpow_natCast, ← zpow_neg, Int.toNat_of_nonneg (by omega), neg_neg]
  have pow : (2 : Rat) ^ (-e).toNat ≠ 0 := by positivity
  have sum := Nat.div_add_mod m (2 ^ (-e).toNat)
  rw [scale, ← div_eq_mul_inv, div_eq_iff pow, add_mul, div_mul_cancel₀ _ pow, mul_comm ((_ : Nat) : Rat)]
  exact_mod_cast sum.symm

/-- Rounding a value to an integer rounds its magnitude under its sign. -/
theorem roundRat_number {rnd : Nat} (hr : rnd < 4) (neg : Bool) (m : Nat) (e : Int) :
    roundRat rnd (FVal.fin neg m e).number = (if neg then -1 else 1) * (roundInt rnd neg m e : Int) := by
  rw [number_fin, roundInt_eq]
  by_cases he : 0 ≤ e
  · have whole : signed neg ((m : Rat) * 2 ^ e) = (((if neg then -1 else 1) * ((m * 2 ^ e.toNat : Nat) : Int) : Int) : Rat) := by
      have scale : (2 : Rat) ^ e = 2 ^ e.toNat := by rw [← zpow_natCast, Int.toNat_of_nonneg he]
      cases neg <;> simp [signed, scale]
    rw [if_pos he, whole, roundRat_int hr]
  · rw [if_neg he, parts_of_neg (Int.not_le.1 he), roundRat_signed hr neg (Nat.mod_lt _ (Nat.two_pow_pos _))]

end Sys2Proof.Integral

/-! The approximating instructions at the special sources (R94; O23). -/

namespace Sys2Proof.Specials
open Machine Words Rounding Patterns Integral

/-- A source in 160 fraction bits of a turn, less the nearest integer (R93). -/
def turnsOf (neg : Bool) (m : Nat) (e : Int) : Int :=
  let a : Int := if 0 ≤ e then 0 else (m : Int) * 2 ^ (160 + e).toNat - (roundInt 0 neg m e : Int) * 2 ^ 160
  if neg then -a else a

theorem trigBits_fin {fmt src m : Nat} {neg : Bool} {e : Int} (hu : unpack fmt src = .fin neg m e) (cosine : Bool) :
    trigBits cosine fmt src =
      let r := turnsOf neg m e
      let reduced := packVal fmt 0 (addVal 0 (.fin neg m e) (.fin (!neg) (roundInt 0 neg m e) 0))
      if cosine then
        if r = 2 ^ 158 then 0
        else if r = 0 then roundTo fmt 0 false 1 0 false
        else approxBits 0x04F fmt reduced ⟨cos160 r, -160⟩ (trigBound fmt) ⟨2 ^ 20, -160⟩
      else if r = 0 then signBit fmt neg
      else approxBits 0x04E fmt reduced ⟨sin160 r, -160⟩ (trigBound fmt) ⟨2 ^ 20, -160⟩ := by
  rw [trigBits, hu]
  rfl

theorem turnsOf_eq {m : Nat} {neg : Bool} {e : Int} (he : -149 ≤ e) :
    (turnsOf neg m e : Rat) = ((FVal.fin neg m e).number - roundRat 0 (FVal.fin neg m e).number) * 2 ^ 160 := by
  rw [roundRat_number (by omega), number_fin]
  by_cases h : 0 ≤ e
  · have whole : (m : Rat) * 2 ^ e = (roundInt 0 neg m e : Nat) := by
      rw [roundInt_eq, if_pos h]
      push_cast
      rw [← zpow_natCast, Int.toNat_of_nonneg h]
    cases neg <;> simp [turnsOf, h, signed, whole]
  · have scale : (2 : Rat) ^ (160 + e).toNat = 2 ^ e * 2 ^ 160 := by
      rw [← zpow_natCast, Int.toNat_of_nonneg (by omega), add_comm, zpow_add₀ (by norm_num)]
      norm_num
    cases neg <;> simp [turnsOf, h, signed, scale] <;> ring

/-- An integral source is reduced to nothing. -/
theorem turnsOf_eq_zero {m : Nat} {neg : Bool} {e : Int} (he : -149 ≤ e) (h : (FVal.fin neg m e).number.den = 1) :
    turnsOf neg m e = 0 := by
  have whole : (FVal.fin neg m e).number = ((FVal.fin neg m e).number.num : Rat) := (Rat.den_eq_one_iff _).1 h |>.symm
  have zero := turnsOf_eq (m := m) (neg := neg) he
  rw [whole, roundRat_int (by omega), sub_self, zero_mul] at zero
  exact_mod_cast zero

/-- Settles O23: the words complete by their bodies, and the model's match on the source gives each special result. -/
theorem approximationsAndSpecialSources : Obligations.ApproximationsAndSpecialSources := by
  unfold Obligations.ApproximationsAndSpecialSources
  refine ⟨fun w => delivers_of_pure (fun _ => rfl) fun x _ => rfl, fun w => delivers_of_pure (fun _ => rfl) fun x _ => rfl,
    fun w => delivers_of_pure (fun _ => rfl) fun x _ => rfl, fun w => delivers_of_pure (fun _ => rfl) fun x _ => rfl,
    fun w => delivers_of_pure (fun _ => rfl) fun x _ => rfl, fun fmt hf => ?_⟩
  refine ⟨?_, ?_, ?_, ?_, ?_, fun x hx => ?_, fun x m e hu hm => ?_, fun x neg m e hu hint => ?_⟩
  · interval_cases fmt <;> decide +kernel
  · interval_cases fmt <;> decide +kernel
  · interval_cases fmt <;> decide +kernel
  · interval_cases fmt <;> decide +kernel
  · interval_cases fmt <;> decide +kernel
  · have hu := (unpack_nan_iff hf x).2 hx
    simp [rsqrtBits, exp2Bits, log2Bits, trigBits, hu]
  · simp [rsqrtBits, log2Bits, hu, hm]
  · simp [trigBits_fin hu, turnsOf_eq_zero ((holds_of_unpack hf hu).low_le hf) hint]

end Sys2Proof.Specials

/-! Rounding with a rest below the last place, and the exact results that are no m × 2^e: quotients and roots (R80, R81, R91). -/

namespace Sys2Proof.Rounding
open Machine Patterns

/-! ## Rounding looks at an exact result through magnitudes and the points half-way between them -/

theorem roundsTo_congr {fmt rnd : Nat} {neg : Bool} {exact exact' : Rat → Ordering} {bits : Nat}
    (hm : ∀ c, exact (magnitude fmt c) = exact' (magnitude fmt c))
    (hh : ∀ c, exact ((magnitude fmt c + magnitude fmt (c + 1)) / 2) = exact' ((magnitude fmt c + magnitude fmt (c + 1)) / 2)) :
    RoundsTo fmt rnd neg exact bits ↔ RoundsTo fmt rnd neg exact' bits := by
  simp only [RoundsTo, hm, hh]

/-- What an exact result is: its place among the numbers that are not negative. -/
def IsAt (exact : Rat → Ordering) (v : ℝ) : Prop := ∀ y : Rat, 0 ≤ y → exact y = compare (y : ℝ) v

theorem isAt_exactly (q : Rat) : IsAt (exactly q) q := fun y _ => by
  rcases lt_trichotomy y q with h | h | h
  · rw [exactly, compare_lt_iff_lt.2 h, compare_lt_iff_lt.2 (by exact_mod_cast h)]
  · rw [exactly, compare_eq_iff_eq.2 h, compare_eq_iff_eq.2 (by exact_mod_cast h)]
  · rw [exactly, compare_gt_iff_gt.2 h, compare_gt_iff_gt.2 (by exact_mod_cast h)]

theorem isAt_rootOf {q : Rat} (hq : 0 ≤ q) : IsAt (rootOf q) (Real.sqrt q) := fun y hy => by
  have hy' : (0 : ℝ) ≤ y := by exact_mod_cast hy
  have hq' : (0 : ℝ) ≤ q := by exact_mod_cast hq
  have square : (y : ℝ) * y = ((y * y : Rat) : ℝ) := by push_cast; rfl
  rcases lt_trichotomy (y * y) q with h | h | h
  · rw [rootOf, compare_lt_iff_lt.2 h, compare_lt_iff_lt.2 (Real.lt_sqrt_of_sq_lt (by rw [sq, square]; exact_mod_cast h))]
  · rw [rootOf, compare_eq_iff_eq.2 h, compare_eq_iff_eq.2 (by rw [← h, ← square, Real.sqrt_mul_self hy'])]
  · rw [rootOf, compare_gt_iff_gt.2 h, compare_gt_iff_gt.2 ((Real.sqrt_lt' ?_).2 (by rw [sq, square]; exact_mod_cast h))]
    rcases hy'.lt_or_eq with h0 | h0
    · exact h0
    · have : y = 0 := by exact_mod_cast h0.symm
      simp [this] at h
      linarith

theorem halfway_nonneg (fmt c : Nat) : 0 ≤ (magnitude fmt c + magnitude fmt (c + 1)) / 2 := by
  have := magnitude_nonneg fmt c
  have := magnitude_nonneg fmt (c + 1)
  linarith

/-- Two exact results that no magnitude and no half-way point separates round alike. -/
theorem roundsTo_iff_of_isAt {fmt rnd : Nat} {neg : Bool} {exact exact' : Rat → Ordering} {v v' : ℝ} {bits : Nat}
    (h : IsAt exact v) (h' : IsAt exact' v') (hm : ∀ c, compare (magnitude fmt c : ℝ) v = compare (magnitude fmt c : ℝ) v')
    (hh : ∀ c, compare (((magnitude fmt c + magnitude fmt (c + 1)) / 2 : Rat) : ℝ) v =
      compare (((magnitude fmt c + magnitude fmt (c + 1)) / 2 : Rat) : ℝ) v') :
    RoundsTo fmt rnd neg exact bits ↔ RoundsTo fmt rnd neg exact' bits :=
  roundsTo_congr (fun c => by rw [h _ (magnitude_nonneg fmt c), h' _ (magnitude_nonneg fmt c), hm])
    fun c => by rw [h _ (halfway_nonneg fmt c), h' _ (halfway_nonneg fmt c), hh]

/-! ## A rest below the last place -/

theorem bitLength_double (m : Nat) : bitLength (2 * m + 1) = bitLength m + 1 := by
  refine le_antisymm (bitLength_le ?_) ?_
  · have := lt_two_pow_bitLength m
    rw [pow_succ]
    omega
  · by_contra h
    have below := lt_two_pow_bitLength (2 * m + 1)
    have := (Nat.pow_le_pow_right (by omega : 1 ≤ 2) (by omega : bitLength (2 * m + 1) ≤ bitLength m))
    rcases Nat.eq_zero_or_pos m with rfl | hm
    · simp [bitLength] at h
    · have := two_pow_bitLength_le hm.ne'
      have := bitLength_pos hm.ne'
      have double : 2 ^ bitLength m = 2 * 2 ^ (bitLength m - 1) := by rw [← pow_succ', Nat.sub_add_cancel this]
      omega

/-- A rest below a value decides as a half of its last place does. -/
theorem roundsUp_sticky {rnd keep rem shift : Nat} (hr : rnd < 4) (neg : Bool) (hs : 0 < shift) :
    roundsUp rnd neg keep rem shift true = roundsUp rnd neg keep (2 * rem + 1) (shift + 1) false := by
  obtain ⟨s, rfl⟩ : ∃ s, shift = s + 1 := ⟨shift - 1, by omega⟩
  have pow := Nat.two_pow_pos s
  interval_cases rnd
  · simp only [roundsUp, pow_succ]
    rw [Bool.eq_iff_iff]
    simp
    omega
  · rfl
  · simp [roundsUp]
  · simp [roundsUp]

/-- A value with a rest, cut above its last place, rounds as the value with a half of its last place more. -/
theorem roundMag_sticky {f : Nat} {low : Int} {rnd : Nat} (hr : rnd < 4) (neg : Bool) {m : Nat} {e : Int}
    (h : e < lastPlace f low m e) :
    roundMag (f + 1) low rnd neg m e true = roundMag (f + 1) low rnd neg (2 * m + 1) (e - 1) false := by
  have place : lastPlace f low (2 * m + 1) (e - 1) = lastPlace f low m e := by
    rw [lastPlace, lastPlace, bitLength_double]
    omega
  have unf : roundMag (f + 1) low rnd neg m e true = if lastPlace f low m e ≤ e
      then (m * 2 ^ (e - lastPlace f low m e).toNat, lastPlace f low m e)
      else (m / 2 ^ (lastPlace f low m e - e).toNat +
        (if roundsUp rnd neg (m / 2 ^ (lastPlace f low m e - e).toNat) (m % 2 ^ (lastPlace f low m e - e).toNat)
          (lastPlace f low m e - e).toNat true then 1 else 0), lastPlace f low m e) := rfl
  rw [unf, roundMag_eq, place, if_neg (not_le.2 h), if_neg (not_le.2 ((Int.sub_one_lt_iff.2 le_rfl).trans h))]
  obtain ⟨s, hs⟩ : ∃ s, (lastPlace f low m e - e).toNat = s + 1 := ⟨(lastPlace f low m e - e).toNat - 1, by omega⟩
  have hs' : (lastPlace f low m e - (e - 1)).toNat = s + 1 + 1 := by omega
  have quot : (2 * m + 1) / 2 ^ (s + 1 + 1) = m / 2 ^ (s + 1) := by
    rw [pow_succ' 2 (s + 1), ← Nat.div_div_eq_div_mul]
    congr 1
    omega
  have rest : (2 * m + 1) % 2 ^ (s + 1 + 1) = 2 * (m % 2 ^ (s + 1)) + 1 := by
    have := Nat.div_add_mod (2 * m + 1) (2 ^ (s + 1 + 1))
    have := Nat.div_add_mod m (2 ^ (s + 1))
    rw [quot, pow_succ' 2 (s + 1), mul_assoc] at *
    omega
  rw [hs, hs', quot, rest, roundsUp_sticky hr neg (Nat.succ_pos s)]

theorem roundTo_sticky {fmt rnd : Nat} (hr : rnd < 4) (neg : Bool) {m : Nat} {e : Int}
    (h : e < lastPlace (fracBits fmt) (fmtLow fmt) m e) :
    roundTo fmt rnd neg m e true = packVal fmt rnd (.fin neg (2 * m + 1) (e - 1)) := by
  change _ = roundTo fmt rnd neg (2 * m + 1) (e - 1) false
  rw [roundTo, roundMag_sticky hr neg h, roundTo]

/-- Above the last place of a value that is cut, magnitudes and half-way points are whole numbers of that place, and so none of
them lies between the value and the next. -/
theorem no_point_between {fmt m : Nat} {e : Int} (h : e < lastPlace (fracBits fmt) (fmtLow fmt) m e) (c : Nat) :
    (magnitude fmt c ≤ m * 2 ^ e ∨ ((m : Rat) + 1) * 2 ^ e ≤ magnitude fmt c) ∧
    ((magnitude fmt c + magnitude fmt (c + 1)) / 2 ≤ m * 2 ^ e ∨
      ((m : Rat) + 1) * 2 ^ e ≤ (magnitude fmt c + magnitude fmt (c + 1)) / 2) := by
  obtain ⟨fits, hlt, h0⟩ := fits_cut h
  set q := lastPlace (fracBits fmt) (fmtLow fmt) m e
  obtain ⟨s, hs⟩ : ∃ s : Nat, q = e + s + 1 := ⟨(q - e - 1).toNat, by omega⟩
  have shift : (q - e).toNat = s + 1 := by omega
  rw [shift] at fits hlt h0
  set n := m / 2 ^ (s + 1) with hn
  set k := codeOf (fracBits fmt) (fmtLow fmt) n q
  have unit : (0 : Rat) < 2 ^ e := by positivity
  have place : (2 : Rat) ^ q = 2 ^ (s + 1) * 2 ^ e := by
    rw [hs, add_assoc, zpow_add₀ (by norm_num), mul_comm, ← zpow_natCast]
    norm_num
  have mag : magnitude fmt k = (n * 2 ^ (s + 1) : Nat) * 2 ^ e := by
    rw [magnitude_codeOf fits, place]
    push_cast
    ring
  have mag' : magnitude fmt (k + 1) = ((n + 1) * 2 ^ (s + 1) : Nat) * 2 ^ e := by
    rw [← codeOf_succ fits hlt h0, magnitude_codeOf ⟨fits.place, hlt, fits.lower.imp (by omega) fun h => .inl (h.elim id h0)⟩, place]
    push_cast
    ring
  have half : (magnitude fmt k + magnitude fmt (k + 1)) / 2 = ((2 * n + 1) * 2 ^ s : Nat) * 2 ^ e := by
    rw [mag, mag']
    push_cast
    ring
  have below : n * 2 ^ (s + 1) ≤ m := Nat.div_mul_le_self m _
  have above : m + 1 ≤ (n + 1) * 2 ^ (s + 1) := Nat.lt_mul_of_div_lt (by omega) (Nat.two_pow_pos _)
  have lower : magnitude fmt k ≤ m * 2 ^ e := by
    rw [mag]
    exact mul_le_mul_of_nonneg_right (by exact_mod_cast below) unit.le
  have upper : ((m : Rat) + 1) * 2 ^ e ≤ magnitude fmt (k + 1) := by
    rw [mag']
    exact mul_le_mul_of_nonneg_right (by exact_mod_cast above) unit.le
  have mono := (magnitude_strictMono fmt).monotone
  rcases lt_trichotomy c k with hc | rfl | hc
  · have h1 := mono hc.le
    have h2 := mono (Nat.succ_le_of_lt hc)
    exact ⟨.inl (by linarith), .inl (by linarith)⟩
  · refine ⟨.inl lower, ?_⟩
    rw [half]
    rcases Nat.lt_or_ge m ((2 * n + 1) * 2 ^ s) with hm | hm
    · exact .inr (mul_le_mul_of_nonneg_right (by exact_mod_cast hm) unit.le)
    · exact .inl (mul_le_mul_of_nonneg_right (by exact_mod_cast hm) unit.le)
  · have h1 := mono (Nat.succ_le_of_lt hc)
    have h2 := mono (Nat.succ_le_succ hc.le)
    have h3 := mono (Nat.le_succ c)
    exact ⟨.inr (by linarith), .inr (by linarith)⟩

/-- A value at m × 2^e, or with a rest between it and the next one where it is cut, rounds correctly. -/
theorem roundsTo_roundTo {fmt rnd m : Nat} {e : Int} {exact : Rat → Ordering} {v : ℝ} {sticky : Bool} (hf : fmt < 3) (hr : rnd < 4)
    (neg : Bool) (hv : IsAt exact v) (lower : (m : ℝ) * 2 ^ e ≤ v) (upper : v < ((m : ℝ) + 1) * 2 ^ e)
    (hs : sticky = true ↔ v ≠ (m : ℝ) * 2 ^ e) (room : sticky = true → e < lastPlace (fracBits fmt) (fmtLow fmt) m e) :
    RoundsTo fmt rnd neg exact (roundTo fmt rnd neg m e sticky) := by
  cases sticky with
  | false =>
    have same : v = ((m * 2 ^ e : Rat) : ℝ) := by
      push_cast
      simpa using hs
    refine (roundsTo_iff_of_isAt (same ▸ hv) (isAt_exactly _) (fun _ => rfl) fun _ => rfl).2 ?_
    exact roundsTo_packVal neg m e hf hr
  | true =>
    have strict : (m : ℝ) * 2 ^ e < v := lower.lt_of_ne (hs.1 rfl).symm
    have unit : (0 : ℝ) < 2 ^ e := by positivity
    have mid : ((((2 * m + 1 : Nat) : Rat) * 2 ^ (e - 1) : Rat) : ℝ) = (m + 1 / 2) * 2 ^ e := by
      rw [zpow_sub_one₀ (by norm_num)]
      push_cast
      ring
    have apart (y : Rat) (hy : y ≤ m * 2 ^ e ∨ ((m : Rat) + 1) * 2 ^ e ≤ y) :
        compare (y : ℝ) v = compare (y : ℝ) ((((2 * m + 1 : Nat) : Rat) * 2 ^ (e - 1) : Rat) : ℝ) := by
      rw [mid]
      rcases hy with hy | hy
      · have : (y : ℝ) ≤ ((m * 2 ^ e : Rat) : ℝ) := Rat.cast_le.2 hy
        push_cast at this
        rw [compare_lt_iff_lt.2 (by linarith), compare_lt_iff_lt.2 (by nlinarith)]
      · have : ((((m : Rat) + 1) * 2 ^ e : Rat) : ℝ) ≤ y := Rat.cast_le.2 hy
        push_cast at this
        rw [compare_gt_iff_gt.2 (by linarith), compare_gt_iff_gt.2 (by nlinarith)]
    rw [roundTo_sticky hr neg (room rfl)]
    refine (roundsTo_iff_of_isAt hv (isAt_exactly _) (fun c => apart _ ?_) fun c => apart _ ?_).2 (roundsTo_packVal neg _ _ hf hr)
    · exact (no_point_between (room rfl) c).1
    · exact (no_point_between (room rfl) c).2

end Sys2Proof.Rounding

/-! Float arithmetic: exact results, rounded once (R79-R82, R91, R94; O22). -/

namespace Sys2Proof.Arithmetic
open Machine Words Rounding Patterns Integral

/-! ## Results (R79, R82) -/

theorem magnitude_one {fmt : Nat} (hf : fmt < 3) : magnitude fmt (fmtBias fmt * 2 ^ fracBits fmt) = 1 := by
  interval_cases fmt <;> norm_num [magnitude, fmtBias, fracBits, fmtLow]

/-- The clamp of `sat` by the value it clamps (R82). -/
theorem satBits_eq {fmt bits : Nat} (hf : fmt < 3) (hb : bits < 2 ^ fmtWidth fmt) : satBits fmt bits =
    match unpack fmt bits with
    | .nan | .inf true | .fin true _ _ => 0
    | .inf false => fmtBias fmt * 2 ^ fracBits fmt
    | .fin false m e => if (FVal.fin false m e).number ≤ 1 then bits else fmtBias fmt * 2 ^ fracBits fmt := by
  have one_le : fmtBias fmt * 2 ^ fracBits fmt ≤ infBits fmt := by interval_cases fmt <;> decide
  have parts := pattern_eq hf hb
  have small := codeIn_lt fmt bits
  have code (h : codeIn fmt bits ≤ infBits fmt) : satBits fmt bits =
      if negOf fmt bits then 0 else min (codeIn fmt bits) (fmtBias fmt * 2 ^ fracBits fmt) := by
    rw [satBits, isNan_eq, decide_eq_false (not_lt.2 h)]
    cases hn : negOf fmt bits <;> rw [hn] at parts <;> simp only [signBit, if_true, if_false, Bool.false_eq_true] at parts
    · have : ¬2 ^ (fmtWidth fmt - 1) ≤ bits := by omega
      simp only [this, decide_false, Bool.or_self, Bool.false_eq_true, if_false]
      exact congrArg (min · _) (parts.trans (Nat.zero_add _))
    · simp [show 2 ^ (fmtWidth fmt - 1) ≤ bits by omega]
  obtain ⟨h, hu⟩ | ⟨h, hu⟩ | ⟨m, e, hu, holds⟩ := unpack_eq hf bits
  · rw [hu, satBits, isNan_eq, decide_eq_true h]
    rfl
  · rw [hu, code h.le, h, min_eq_right one_le]
    cases negOf fmt bits <;> rfl
  · rw [hu, code holds.code.le]
    cases hn : negOf fmt bits with
    | true => rfl
    | false =>
      rw [hn] at holds parts
      have le_one : (FVal.fin false m e).number ≤ 1 ↔ codeIn fmt bits ≤ fmtBias fmt * 2 ^ fracBits fmt := by
        rw [holds.number, ← magnitude_one hf]
        exact (magnitude_strictMono fmt).le_iff_le
      simp only [signBit, Bool.false_eq_true, if_false, Nat.zero_add] at parts ⊢
      split
      · rw [min_eq_left (le_one.1 ‹_›), ← parts]
      · rw [min_eq_right (not_le.1 (mt le_one.2 ‹_›)).le]

theorem satBits_lt {fmt x : Nat} (hx : x < 2 ^ fmtWidth fmt) : satBits fmt x < 2 ^ fmtWidth fmt := by
  rw [satBits]
  split
  · exact Nat.two_pow_pos _
  · exact (min_le_left _ _).trans_lt hx

theorem flResult_eq (m : ModFL) (r : Nat → Nat) (d : Operand) (hx : m.x2 = true → m.fmt ≠ 0)
    (hr : ∀ j < 2, r j < 2 ^ fmtWidth m.fmt.toNat) : flResult m r d = destWrites false (if m.x2
      then (BitVec.ofNat 16 (if m.sat then satBits m.fmt.toNat (r 1) else r 1) ++
        BitVec.ofNat 16 (if m.sat then satBits m.fmt.toNat (r 0) else r 0) : Word).setWidth 64
      else BitVec.ofNat 64 (if m.sat then satBits m.fmt.toNat (r 0) else r 0)) d := by
  have last (j) (hj : j < 2) : (if m.sat then satBits m.fmt.toNat (r j) else r j) < 2 ^ fmtWidth m.fmt.toNat := by
    split
    · exact satBits_lt (hr j hj)
    · exact hr j hj
  have last0 := last 0 (by omega)
  have last1 := last 1 (by omega)
  rw [flResult, flWord]
  dsimp only
  generalize (if m.sat then satBits m.fmt.toNat (r 0) else r 0) = lo at *
  generalize (if m.sat then satBits m.fmt.toNat (r 1) else r 1) = hi at *
  cases h2 : m.x2 with
  | false => rfl
  | true =>
    have fmt0 : m.fmt.toNat ≠ 0 := fun h => hx h2 (BitVec.eq_of_toNat_eq h)
    rw [fmtWidth, if_neg fmt0] at last0 last1
    congr 1
    refine BitVec.eq_of_toNat_eq ?_
    simp only [if_true, BitVec.toNat_setWidth, BitVec.toNat_append, BitVec.toNat_ofNat, Nat.mod_eq_of_lt last0,
      Nat.mod_eq_of_lt last1]
    rw [← Nat.shiftLeft_add_eq_or_of_lt last0, Nat.shiftLeft_eq]

/-! ## Sums and products (R80, R91) -/

/-- An exact zero is the zero of its sign (R80). -/
theorem packVal_fzero {fmt rnd : Nat} (hf : fmt < 3) (hr : rnd < 4) (neg : Bool) : packVal fmt rnd (fzero neg) = signBit fmt neg := by
  interval_cases fmt <;> interval_cases rnd <;> cases neg <;> decide +kernel

/-- A value as a whole number of a last place that is not above its own. -/
theorem number_eq_mul {e E : Int} (h : E ≤ e) (neg : Bool) (m : Nat) : (FVal.fin neg m e).number =
    (((m : Int) * 2 ^ (e - E).toNat * (if neg then -1 else 1) : Int) : Rat) * 2 ^ E := by
  have place : (2 : Rat) ^ e = 2 ^ (e - E).toNat * 2 ^ E := by
    rw [← zpow_natCast, Int.toNat_of_nonneg (by omega), ← zpow_add₀ (by norm_num), sub_add_cancel]
  rw [FVal.number, place]
  cases neg <;> push_cast <;> ring

theorem sumRounds_addVal {fmt rnd : Nat} (hf : fmt < 3) (hr : rnd < 4) (a b : FVal) :
    SumRounds fmt rnd a b (packVal fmt rnd (addVal rnd a b)) := by
  match a, b with
  | .nan, _ | .inf _, .nan | .fin _ _ _, .nan => rfl
  | .inf p, .inf q =>
    simp only [SumRounds, addVal]
    split <;> rfl
  | .inf p, .fin _ _ _ | .fin _ _ _, .inf p => rfl
  | .fin p m e, .fin q n f =>
    have sum := congrArg₂ (· + ·) (number_eq_mul (min_le_left e f) p m) (number_eq_mul (min_le_right e f) q n)
    have unit : (0 : Rat) < 2 ^ min e f := by positivity
    simp only [SumRounds, addVal]
    generalize (m : Int) * 2 ^ (e - min e f).toNat * (if p then -1 else 1) = x at *
    generalize (n : Int) * 2 ^ (f - min e f).toNat * (if q then -1 else 1) = y at *
    have total : (FVal.fin p m e).number + (FVal.fin q n f).number = ((x + y : Int) : Rat) * 2 ^ min e f := by
      push_cast
      linarith
    rw [total]
    by_cases hz : x + y = 0
    · simp only [hz, Int.cast_zero, zero_mul, if_true]
      split
      · exact packVal_fzero hf hr p
      · exact packVal_fzero hf hr _
    · have nonzero : ((x + y : Int) : Rat) * 2 ^ min e f ≠ 0 := mul_ne_zero (by exact_mod_cast hz) unit.ne'
      have sign : ((x + y : Int) : Rat) * 2 ^ min e f < 0 ↔ x + y < 0 := by
        rw [← zero_mul ((2 : Rat) ^ min e f), mul_lt_mul_iff_left₀ unit]
        exact_mod_cast Iff.rfl
      have size : |((x + y : Int) : Rat) * 2 ^ min e f| = ((x + y).natAbs : Rat) * 2 ^ min e f := by
        rw [abs_mul, abs_of_pos unit, Nat.cast_natAbs, Int.cast_abs]
      rw [if_neg nonzero, if_neg hz, size]
      simp only [sign]
      exact roundsTo_packVal _ _ _ hf hr

theorem productRounds_mulVal {fmt rnd : Nat} (hf : fmt < 3) (hr : rnd < 4) (a b : FVal) :
    ProductRounds fmt rnd a b (packVal fmt rnd (mulVal a b)) := by
  match a, b with
  | .nan, _ | .inf _, .nan | .fin _ _ _, .nan => rfl
  | .inf p, .inf q => rfl
  | .inf p, .fin q m _ | .fin q m _, .inf p =>
    simp only [ProductRounds, mulVal]
    split <;> rfl
  | .fin p m e, .fin q n f =>
    have size : |(FVal.fin p m e).number * (FVal.fin q n f).number| = ((m * n : Nat) : Rat) * 2 ^ (e + f) := by
      rw [abs_mul, number_fin, number_fin, abs_signed _ (by positivity), abs_signed _ (by positivity), zpow_add₀ (by norm_num)]
      push_cast
      ring
    simp only [ProductRounds, size]
    exact roundsTo_packVal _ _ _ hf hr

/-! ## Quotients and roots (R91, R94) -/

/-- An integer of more bits than are kept is cut. -/
theorem lt_lastPlace_of_le {f m : Nat} (low e : Int) (h : 2 ^ (f + 1) ≤ m) : e < lastPlace f low m e := by
  have : f + 1 < bitLength m := (Nat.pow_lt_pow_iff_right (by omega : 1 < 2)).1 (h.trans_lt (lt_two_pow_bitLength _))
  unfold lastPlace
  omega

theorem quotient_bits {f m n : Nat} (hm : m ≠ 0) (hn : n ≠ 0) : 2 ^ (f + 1) ≤ m * 2 ^ (f + 4 + bitLength n - bitLength m) / n := by
  have := bitLength_pos hm
  rw [Nat.le_div_iff_mul_le (Nat.pos_of_ne_zero hn)]
  calc 2 ^ (f + 1) * n ≤ 2 ^ (f + 1) * 2 ^ bitLength n := Nat.mul_le_mul_left _ (lt_two_pow_bitLength n).le
    _ = 2 ^ (f + 1 + bitLength n) := (pow_add _ _ _).symm
    _ ≤ 2 ^ (bitLength m - 1 + (f + 4 + bitLength n - bitLength m)) := Nat.pow_le_pow_right (by omega) (by omega)
    _ = 2 ^ (bitLength m - 1) * 2 ^ (f + 4 + bitLength n - bitLength m) := pow_add _ _ _
    _ ≤ m * 2 ^ (f + 4 + bitLength n - bitLength m) := Nat.mul_le_mul_right _ (two_pow_bitLength_le hm)

theorem quotientRounds_divBits {fmt rnd : Nat} (hf : fmt < 3) (hr : rnd < 4) (a b : FVal) :
    QuotientRounds fmt rnd a b (divBits fmt rnd a b) := by
  match a, b with
  | .nan, _ | .inf _, .nan | .fin _ _ _, .nan => rfl
  | .inf p, .inf q => rfl
  | .inf p, .fin q m _ => rfl
  | .fin q m _, .inf p => exact packVal_fzero hf hr _
  | .fin p m e, .fin q n f =>
    simp only [QuotientRounds, divBits]
    by_cases hn : n = 0
    · rw [if_pos hn, if_pos hn]
      split <;> rfl
    by_cases hm : m = 0
    · rw [if_neg hn, if_neg hn, if_pos hm]
      simpa [number_fin, signed, hm, fzero] using roundsTo_packVal (p != q) 0 0 hf hr
    rw [if_neg hn, if_neg hn, if_neg hm]
    set k := fracBits fmt + 4 + bitLength n - bitLength m with hk
    have unit : (0 : ℝ) < 2 ^ (e - f - k) := by positivity
    have hn' : (0 : ℝ) < n := by exact_mod_cast Nat.pos_of_ne_zero hn
    have parts : ((m * 2 ^ k : Nat) : ℝ) = (m * 2 ^ k / n : Nat) * n + (m * 2 ^ k % n : Nat) := by
      exact_mod_cast (Nat.div_add_mod' (m * 2 ^ k) n).symm
    have rest0 : (0 : ℝ) ≤ (m * 2 ^ k % n : Nat) / (n : ℝ) := by positivity
    have rest1 : ((m * 2 ^ k % n : Nat) : ℝ) / n < 1 :=
      (div_lt_one hn').2 (by exact_mod_cast Nat.mod_lt _ (Nat.pos_of_ne_zero hn))
    have value : ((|(FVal.fin p m e).number / (FVal.fin q n f).number| : Rat) : ℝ) =
        ((m * 2 ^ k / n : Nat) + (m * 2 ^ k % n : Nat) / (n : ℝ)) * 2 ^ (e - f - k) := by
      have : ((m * 2 ^ k / n : Nat) : ℝ) + (m * 2 ^ k % n : Nat) / (n : ℝ) = m * 2 ^ k / n := by
        rw [eq_div_iff hn'.ne', add_mul, div_mul_cancel₀ _ hn'.ne', ← parts]
        push_cast
        rfl
      rw [this, abs_div, number_fin, number_fin, abs_signed _ (by positivity), abs_signed _ (by positivity),
        zpow_sub₀ (by norm_num), zpow_sub₀ (by norm_num), zpow_natCast]
      push_cast
      field_simp
    refine roundsTo_roundTo hf hr _ (isAt_exactly _) ?_ ?_ ?_
      fun _ => lt_lastPlace_of_le _ _ (quotient_bits hm hn)
    · rw [value]
      exact mul_le_mul_of_nonneg_right (by linarith) unit.le
    · rw [value]
      exact mul_lt_mul_of_pos_right (by linarith) unit
    · rw [value, decide_eq_true_iff, ne_eq, ne_eq, not_iff_not, mul_left_inj' unit.ne', add_eq_left, div_eq_zero_iff,
        or_iff_left hn'.ne', Nat.cast_eq_zero]

theorem isqrtFrom_eq {n x r : Nat} (lower : r * r ≤ x) (upper : x < (r + 2 ^ n) * (r + 2 ^ n)) : isqrtFrom n x r = Nat.sqrt x := by
  induction n generalizing r with
  | zero => exact Nat.eq_sqrt.2 ⟨lower, upper⟩
  | succ n ih =>
    rw [isqrtFrom]
    split
    · exact ih ‹_› (by rwa [add_assoc, ← two_mul, ← pow_succ'])
    · exact ih lower (not_le.1 ‹_›)

theorem isqrt_eq_sqrt (x : Nat) : isqrt x = Nat.sqrt x := by
  refine isqrtFrom_eq (Nat.zero_le x) ?_
  rw [Nat.zero_add, ← pow_add]
  exact (lt_two_pow_bitLength x).trans_le (Nat.pow_le_pow_right (by omega) (by omega))

theorem rootRounds_sqrtBits {fmt rnd : Nat} (hf : fmt < 3) (hr : rnd < 4) (a : FVal) :
    RootRounds fmt rnd a (sqrtBits fmt rnd a) := by
  match a with
  | .nan | .inf p => rfl
  | .fin neg m e =>
    simp only [RootRounds, sqrtBits]
    by_cases hm : m = 0
    · rw [if_pos hm, if_pos hm]
    cases neg with
    | true => rw [if_neg hm, if_neg hm]; rfl
    | false =>
      simp only [if_neg hm, Bool.false_eq_true, if_false, isqrt_eq_sqrt]
      set k := 2 * (fracBits fmt + 4) + (e % 2).toNat with hk
      set r := Nat.sqrt (m * 2 ^ k)
      obtain ⟨h, hh⟩ : ∃ h : Int, e = 2 * h + k := ⟨(e - k) / 2, by omega⟩
      have half : (e - k) / 2 = h := by omega
      have unit : (0 : ℝ) < 2 ^ h := by positivity
      have value : Real.sqrt ((FVal.fin false m e).number : Rat) = Real.sqrt (m * 2 ^ k : Nat) * 2 ^ h := by
        have : (((FVal.fin false m e).number : Rat) : ℝ) = (m * 2 ^ k : Nat) * ((2 : ℝ) ^ h) ^ 2 := by
          rw [number_fin, hh, zpow_add₀ (by norm_num), mul_comm 2 h, zpow_mul]
          simp only [signed, Bool.false_eq_true, if_false]
          push_cast
          rw [zpow_natCast]
          norm_cast
          push_cast
          ring
        rw [this, Real.sqrt_mul (by positivity), Real.sqrt_sq unit.le]
      have lower : (r : ℝ) ≤ Real.sqrt (m * 2 ^ k : Nat) := Real.nat_sqrt_le_real_sqrt
      have upper : Real.sqrt (m * 2 ^ k : Nat) < r + 1 := Real.real_sqrt_lt_nat_sqrt_succ
      have many : 2 ^ (fracBits fmt + 1) ≤ r := by
        rw [Nat.le_sqrt, ← pow_add]
        exact (Nat.pow_le_pow_right (by omega) (by omega)).trans (Nat.le_mul_of_pos_left _ (Nat.pos_of_ne_zero hm))
      rw [half]
      refine roundsTo_roundTo hf hr _ (isAt_rootOf ?_) ?_ ?_ ?_ fun _ => lt_lastPlace_of_le _ _ many
      · rw [number_fin]
        exact mul_nonneg (Nat.cast_nonneg m) (by positivity)
      · rw [value]
        exact mul_le_mul_of_nonneg_right lower unit.le
      · rw [value]
        exact mul_lt_mul_of_pos_right upper unit
      · rw [value, decide_eq_true_iff, ne_eq, ne_eq, not_iff_not, mul_left_inj' unit.ne',
          Real.sqrt_eq_iff_mul_self_eq (by positivity) (by positivity)]
        exact_mod_cast eq_comm

end Sys2Proof.Arithmetic

/-! Scaling, integral values and fractions of floats, and the words of R91 (O22). -/

namespace Sys2Proof.Arithmetic
open Machine Words Rounding Patterns Integral

/-! ## Scaling by a power of two (R91) -/

theorem magnitude_infBits {fmt : Nat} (hf : fmt < 3) : magnitude fmt (infBits fmt) = 2 ^ (fmtBias fmt + 1) := by
  interval_cases fmt <;> norm_num [magnitude, infBits, fmtBias, fracBits, expBits, fmtLow]

theorem magnitude_infBits_le {fmt : Nat} (hf : fmt < 3) : magnitude fmt (infBits fmt) ≤ 2 ^ 128 := by
  rw [magnitude_infBits hf]
  exact pow_le_pow_right₀ (by norm_num) (by interval_cases fmt <;> decide)

theorem le_magnitude_one {fmt : Nat} (hf : fmt < 3) : (2 : Rat) ^ (-149 : Int) ≤ magnitude fmt 1 := by
  interval_cases fmt <;> norm_num [magnitude, fracBits, fmtLow, fmtBias]

/-- An exact result at or beyond the first magnitude that is no finite one overflows, whatever it is (R81). -/
theorem roundsTo_overflow {fmt rnd : Nat} {neg : Bool} {v : Rat} {bits : Nat} (h : magnitude fmt (infBits fmt) ≤ v) :
    RoundsTo fmt rnd neg (exactly v) bits ↔ bits = overflowBits fmt rnd neg := by
  have le : exactly v (magnitude fmt (infBits fmt)) ≠ .gt := compare_le_iff_le.2 h
  refine ⟨?_, fun hb => .inl ⟨le, hb⟩⟩
  rintro (⟨-, hb⟩ | ⟨c, hc, -, above, -⟩)
  · exact hb
  · have := compare_gt_iff_gt.1 above
    have := (magnitude_strictMono fmt).monotone (Nat.succ_le_of_lt hc)
    exact absurd (h.trans_lt ‹_›) (not_lt.2 this)

/-- Exact results below half the least magnitude round alike (R81). -/
theorem roundsTo_tiny {fmt rnd : Nat} {neg : Bool} {v v' : Rat} {bits : Nat} (h0 : 0 < v) (h : v < magnitude fmt 1 / 2) (h0' : 0 < v')
    (h' : v' < magnitude fmt 1 / 2) : RoundsTo fmt rnd neg (exactly v) bits ↔ RoundsTo fmt rnd neg (exactly v') bits := by
  have mono := (magnitude_strictMono fmt).monotone
  have above {y : Rat} (hy : magnitude fmt 1 / 2 ≤ y) : exactly v y = exactly v' y := by
    rw [exactly, exactly, compare_gt_iff_gt.2 (h.trans_le hy), compare_gt_iff_gt.2 (h'.trans_le hy)]
  refine roundsTo_congr (fun c => ?_) fun c => above ?_
  · rcases Nat.eq_zero_or_pos c with rfl | hc
    · rw [magnitude_zero, exactly, exactly, compare_lt_iff_lt.2 h0, compare_lt_iff_lt.2 h0']
    · have : magnitude fmt 1 ≤ magnitude fmt c := mono hc
      exact above (by linarith)
  · have := magnitude_nonneg fmt c
    have : magnitude fmt 1 ≤ magnitude fmt (c + 1) := mono (by omega)
    linarith

/-- A product with a power of two, rounded once, although the model cuts the count at ±1000. -/
theorem roundsTo_fscale {fmt rnd x m : Nat} {neg : Bool} {e : Int} (hf : fmt < 3) (hr : rnd < 4) (h : Holds fmt x neg m e) (n : Int) :
    RoundsTo fmt rnd neg (exactly ((m : Rat) * 2 ^ (e + n))) (packVal fmt rnd (fscaleVal n (.fin neg m e))) := by
  have rounds := roundsTo_packVal neg m (e + max (-1000) (min 1000 n)) hf hr
  by_cases hm : m = 0
  · simpa [hm, fscaleVal] using rounds
  have scaled (k : Int) : (m : Rat) * 2 ^ (e + k) = magnitude fmt (codeIn fmt x) * 2 ^ k := by
    rw [h.magnitude, zpow_add₀ (by norm_num), mul_assoc]
  have least : magnitude fmt 1 ≤ magnitude fmt (codeIn fmt x) := by
    refine (magnitude_strictMono fmt).monotone (Nat.pos_of_ne_zero fun h0 => hm ?_)
    have := h.magnitude
    rw [h0, magnitude_zero, eq_comm, mul_eq_zero, or_iff_left (by positivity)] at this
    exact_mod_cast this
  have most : magnitude fmt (codeIn fmt x) < magnitude fmt (infBits fmt) := magnitude_strictMono fmt h.code
  have least' := (le_magnitude_one hf).trans least
  have most' := most.trans_le (magnitude_infBits_le hf)
  rcases lt_or_ge 1000 n with hn | hn
  · have large (k : Int) (hk : 1000 ≤ k) : magnitude fmt (infBits fmt) ≤ (m : Rat) * 2 ^ (e + k) := by
      rw [scaled]
      calc magnitude fmt (infBits fmt) ≤ 2 ^ (128 : Int) := magnitude_infBits_le hf
        _ ≤ (2 : Rat) ^ (-149 + k) := zpow_le_zpow_right₀ (by norm_num) (by omega)
        _ = 2 ^ (-149 : Int) * 2 ^ k := zpow_add₀ (by norm_num) _ _
        _ ≤ _ := mul_le_mul_of_nonneg_right least' (by positivity)
    rw [roundsTo_overflow (large _ (by omega))] at rounds ⊢
    exact rounds
  rcases lt_or_ge n (-1000) with hn' | hn'
  · have tiny (k : Int) (hk : k ≤ -1000) : (m : Rat) * 2 ^ (e + k) < magnitude fmt 1 / 2 := by
      have unit : (0 : Rat) < 2 ^ k := by positivity
      rw [scaled]
      calc _ < 2 ^ (128 : Int) * (2 : Rat) ^ k := mul_lt_mul_of_pos_right most' unit
        _ = 2 ^ (128 + k) := (zpow_add₀ (by norm_num) _ _).symm
        _ ≤ (2 : Rat) ^ (-149 - 1 : Int) := zpow_le_zpow_right₀ (by norm_num) (by omega)
        _ = 2 ^ (-149 : Int) / 2 := zpow_sub_one₀ (by norm_num) _
        _ ≤ _ := div_le_div_of_nonneg_right (le_magnitude_one hf) (by norm_num)
    have pos (k : Int) : 0 < (m : Rat) * 2 ^ (e + k) := by
      have : 0 < m := Nat.pos_of_ne_zero hm
      positivity
    exact (roundsTo_tiny (pos _) (tiny n hn'.le) (pos _) (tiny _ (by omega))).2 rounds
  · have cut : max (-1000) (min 1000 n) = n := by omega
    rw [fscaleVal, cut]
    rwa [cut] at rounds

theorem scaleCount_eq (m : ModFL) (b : Word) {j : Nat} (hj : j < 2) :
    scaleCount m b.toNat j = if m.x2 then (b.extractLsb' (16 * j) 16).toInt else b.toInt := by
  have half := half_eq b hj
  have := b.isLt
  rw [Nat.mod_eq_of_lt this] at half
  rw [scaleCount, half, Nat.mod_eq_of_lt this, Loads.signedOf_eq_toInt (by omega) (BitVec.isLt _),
    Loads.signedOf_eq_toInt (by omega) this, BitVec.ofNat_toNat, BitVec.ofNat_toNat, BitVec.setWidth_eq, BitVec.setWidth_eq]

/-! ## Integral values and fractions (R91) -/

/-- A value that is representable is packed as it is. -/
theorem packVal_exact {fmt m : Nat} {e : Int} (rnd : Nat) (neg : Bool) (hm : m < 2 ^ (fracBits fmt + 1)) (he : fmtLow fmt ≤ e)
    (hlt : (m : Rat) * 2 ^ e < magnitude fmt (infBits fmt)) :
    ∃ c < infBits fmt, packVal fmt rnd (.fin neg m e) = signBit fmt neg + c ∧ magnitude fmt c = (m : Rat) * 2 ^ e := by
  have place : lastPlace (fracBits fmt) (fmtLow fmt) m e ≤ e := by
    have := bitLength_le hm
    unfold lastPlace
    omega
  obtain ⟨fits, -⟩ := fits_exact place
  have value := magnitude_codeOf fits
  have same : ((m * 2 ^ (e - lastPlace (fracBits fmt) (fmtLow fmt) m e).toNat : Nat) : Rat) *
      2 ^ lastPlace (fracBits fmt) (fmtLow fmt) m e = m * 2 ^ e := by
    push_cast
    rw [mul_assoc, ← zpow_natCast, Int.toNat_of_nonneg (by omega), ← zpow_add₀ (by norm_num), sub_add_cancel]
  rw [same] at value
  have below := (magnitude_strictMono fmt).lt_iff_lt.1 (value.trans_lt hlt)
  refine ⟨_, below, ?_, value⟩
  change roundTo fmt rnd neg m e false = _
  rw [roundTo, roundMag_eq, if_pos place]
  exact if_neg (not_le.2 below)

theorem frnd_exact {fmt rnd x m : Nat} {neg : Bool} {e : Int} (hf : fmt < 3) (hr : rnd < 4) (h : Holds fmt x neg m e) :
    ∃ c < infBits fmt, packVal fmt 0 (frndVal rnd (.fin neg m e)) = signBit fmt neg + c ∧
      magnitude fmt c = |(roundRat rnd (FVal.fin neg m e).number : Rat)| := by
  have size : |(roundRat rnd (FVal.fin neg m e).number : Rat)| = (roundInt rnd neg m e : Rat) := by
    rw [roundRat_number hr]
    cases neg <;> simp
  rw [size, frndVal]
  by_cases he : 0 ≤ e
  · have value : (roundInt rnd neg m e : Rat) = m * 2 ^ e := by
      rw [roundInt_eq, if_pos he]
      push_cast
      rw [← zpow_natCast, Int.toNat_of_nonneg he]
    rw [if_pos he, value]
    exact packVal_exact 0 neg h.upper h.fits.place (h.magnitude ▸ magnitude_strictMono fmt h.code)
  · have small : roundInt rnd neg m e ≤ 2 ^ fracBits fmt := by
      obtain ⟨s, hs⟩ : ∃ s, (-e).toNat = s + 1 := ⟨(-e).toNat - 1, by omega⟩
      have : m / 2 ^ (s + 1) < 2 ^ fracBits fmt := by
        rw [Nat.div_lt_iff_lt_mul (Nat.two_pow_pos _)]
        calc m < 2 ^ fracBits fmt * 2 := h.upper.trans_eq (pow_succ _ _)
          _ ≤ 2 ^ fracBits fmt * 2 ^ (s + 1) := Nat.mul_le_mul_left _ (Nat.le_self_pow (Nat.succ_ne_zero s) 2)
      rw [roundInt_eq, if_neg he, hs]
      split <;> omega
    have low : fmtLow fmt ≤ 0 := by interval_cases fmt <;> decide
    have finite : (2 : Rat) ^ fracBits fmt < magnitude fmt (infBits fmt) := by
      rw [magnitude_infBits hf]
      exact pow_lt_pow_right₀ (by norm_num) (by interval_cases fmt <;> decide)
    have bound : (roundInt rnd neg m e : Rat) ≤ 2 ^ fracBits fmt := by exact_mod_cast small
    rw [if_neg he]
    simpa using packVal_exact (m := roundInt rnd neg m e) (e := 0) 0 neg (by rw [pow_succ]; have := Nat.two_pow_pos (fracBits fmt); omega) low
      (by simpa using bound.trans_lt finite)

theorem floor_intCast (n : Int) : (n : Rat).floor = n := floor_eq_of le_rfl (by linarith)

/-- The exact fraction of a finite value. -/
theorem ffracVal_eq (neg : Bool) (m : Nat) (e : Int) : ∃ (k : Nat) (p : Int), ffracVal (.fin neg m e) = .fin false k p ∧
    (k : Rat) * 2 ^ p = (FVal.fin neg m e).number - (FVal.fin neg m e).number.floor := by
  have integral {n : Int} (h : (FVal.fin neg m e).number = n) :
      ((0 : Nat) : Rat) * 2 ^ (0 : Int) = (FVal.fin neg m e).number - (FVal.fin neg m e).number.floor := by
    rw [h, floor_intCast]
    simp
  rw [ffracVal]
  by_cases he : 0 ≤ e
  · refine ⟨0, 0, if_pos he, integral (n := (if neg then -1 else 1) * ((m * 2 ^ e.toNat : Nat) : Int)) ?_⟩
    have scale : (2 : Rat) ^ e = 2 ^ e.toNat := by rw [← zpow_natCast, Int.toNat_of_nonneg he]
    cases neg <;> simp [FVal.number, scale]
  rw [if_neg he]
  have parts := parts_of_neg (m := m) (Int.not_le.1 he)
  have scale : (2 : Rat) ^ e = (2 ^ (-e).toNat)⁻¹ := by
    rw [← zpow_natCast, ← zpow_neg, Int.toNat_of_nonneg (by omega), neg_neg]
  have hrest := Nat.mod_lt m (Nat.two_pow_pos (-e).toNat)
  have pow : (0 : Rat) < 2 ^ (-e).toNat := by positivity
  dsimp only
  set keep := m / 2 ^ (-e).toNat
  set rest := m % 2 ^ (-e).toNat
  by_cases hz : rest = 0
  · refine ⟨0, 0, if_pos hz, integral (n := (if neg then -1 else 1) * (keep : Int)) ?_⟩
    rw [number_fin, parts, hz]
    cases neg <;> simp [signed]
  · have pos : (0 : Rat) < rest / 2 ^ (-e).toNat := by
      have : 0 < rest := Nat.pos_of_ne_zero hz
      positivity
    have below : (rest : Rat) / 2 ^ (-e).toNat < 1 := (div_lt_one pow).2 (by exact_mod_cast hrest)
    rw [if_neg hz, number_fin, parts]
    refine ⟨_, e, rfl, ?_⟩
    cases neg with
    | false =>
      have floor : ((keep : Rat) + rest / 2 ^ (-e).toNat).floor = keep :=
        floor_eq_of (by push_cast; linarith) (by push_cast; linarith)
      simp only [signed, Bool.false_eq_true, if_false, floor, scale]
      push_cast
      ring
    | true =>
      have floor : (-((keep : Rat) + rest / 2 ^ (-e).toNat)).floor = -(keep + 1) :=
        floor_eq_of (by push_cast; linarith) (by push_cast; linarith)
      simp only [signed, if_true, floor, scale]
      rw [Nat.cast_sub hrest.le]
      push_cast
      field_simp
      ring

/-! ## The words -/

theorem fmt_lt_of_ok {m : ModFL} (h : m.fmtOk = true) : m.fmt.toNat < 3 := by
  simp only [ModFL.fmtOk, Bool.and_eq_true, decide_eq_true_eq] at h
  obtain ⟨⟨h3, -⟩, -⟩ := h
  have := m.fmt.isLt
  have : m.fmt.toNat ≠ 3 := fun h => h3 (BitVec.eq_of_toNat_eq h)
  omega

/-- A word whose elements satisfy a rule in a standard format and a rounding mode completes with such elements. -/
theorem completes_of_elements {i : Instr} {m : ModFL} {d : Operand} {f : Site → Nat → Nat} {P : Site → Nat → Nat → Prop}
    (he : ∀ s, exec i s = issueWord s i (pureBody fun x => flResult m (f x) d)) (hok : i.modifierOk = m.fmtOk)
    (hp : ∀ x, m.fmt.toNat < 3 → m.rnd.toNat < 4 → ∀ j < 2, P x j (f x j)) :
    Completes i (fun _ => True) fun t x => ∃ r : Nat → Nat, (∀ j < 2, P x j (r j)) ∧
      resultsOf t x.t = some (done (flResult m r d) :: x.th.seg.results) :=
  completes_of_pure he fun _ x hc h => ⟨f x, hp x (fmt_lt_of_ok (hok ▸ modifierOk_of_clear hc)) m.rnd.isLt, h⟩

/-- Settles O22: the clamp and the packing, then each word by the rounding of its exact result. -/
theorem floatArithmetic : Obligations.FloatArithmetic := by
  unfold Obligations.FloatArithmetic
  refine ⟨⟨fun fmt hf bits hb => (satBits_eq hf hb).trans ?_, fun m r d hx hr => flResult_eq m r d hx hr⟩,
    ⟨fun w => ?_, fun w => ?_, fun w => ?_, fun w => ?_⟩, ⟨fun w => ?_, fun w => ?_, fun w => ?_, fun w => ?_⟩,
    fun w => ?_, fun w => ?_⟩
  · rfl
  · exact completes_of_elements (fun _ => rfl) rfl fun x hf hr j _ => sumRounds_addVal hf hr _ _
  · exact completes_of_elements (fun _ => rfl) rfl fun x hf hr j _ => sumRounds_addVal hf hr _ _
  · exact completes_of_elements (fun _ => rfl) rfl fun x hf hr j _ => productRounds_mulVal hf hr _ _
  · exact completes_of_elements (fun _ => rfl) rfl fun x hf hr j _ => sumRounds_addVal hf hr _ _
  · exact completes_of_elements (fun _ => rfl) rfl fun x hf hr j _ => quotientRounds_divBits hf hr _ _
  · exact completes_of_elements (fun _ => rfl) rfl fun x hf hr j _ => quotientRounds_divBits hf hr _ _
  · exact completes_of_elements (fun _ => rfl) rfl fun x hf hr j _ => rootRounds_sqrtBits hf hr _
  · refine completes_of_pure (fun _ => rfl) fun t x hc h => ⟨_, fun j hj => ?_, h⟩
    have hf := fmt_lt_of_ok (modifierOk_of_clear hc)
    rw [scaleCount_eq w.m _ hj]
    cases hu : elemFl w.m (x.fl w.m w.a) j with
    | nan => rfl
    | inf p => rfl
    | fin neg m e => exact roundsTo_fscale hf w.m.rnd.isLt (holds_of_unpack hf hu) _
  · refine completes_of_pure (fun _ => rfl) fun t x hc h => ⟨_, fun j hj => ?_, h⟩
    have hf := fmt_lt_of_ok (modifierOk_of_clear hc)
    cases hu : elemFl w.m (x.fl w.m w.a) j with
    | nan => rfl
    | inf p => rfl
    | fin neg m e => exact frnd_exact hf w.m.rnd.isLt (holds_of_unpack hf hu)
  · refine completes_of_pure (fun _ => rfl) fun t x hc h => ⟨_, fun j hj => ?_, h⟩
    have hf := fmt_lt_of_ok (Bool.and_eq_true_iff.1 (modifierOk_of_clear hc)).1
    cases hu : elemFl w.m (x.fl w.m w.a) j with
    | nan => rfl
    | inf p => rfl
    | fin neg m e =>
      obtain ⟨k, p, hv, hq⟩ := ffracVal_eq neg m e
      have rounds := roundsTo_packVal (rnd := 1) false k p hf (by omega)
      rw [hq] at rounds
      rw [hv]
      exact rounds

end Sys2Proof.Arithmetic

/-! Conversions (R83-R86, R96-R102; O25). -/

namespace Sys2Proof.Conversions
open Machine Words Rounding Patterns Integral Arithmetic Integers

/-! ## To a float (R96) -/

theorem valueRounds_packVal {fmt rnd : Nat} (hf : fmt < 3) (hr : rnd < 4) (v : FVal) : ValueRounds fmt rnd v (packVal fmt rnd v) := by
  match v with
  | .nan | .inf neg => rfl
  | .fin neg m e =>
    rw [ValueRounds, number_fin, abs_signed _ (by positivity)]
    exact roundsTo_packVal neg m e hf hr

/-- An integer is rounded by its sign and its magnitude. -/
theorem roundsTo_int {fmt rnd : Nat} (hf : fmt < 3) (hr : rnd < 4) (i : Int) :
    RoundsTo fmt rnd (i < 0) (exactly |(i : Rat)|) (packVal fmt rnd (.fin (i < 0) i.natAbs 0)) := by
  have := roundsTo_packVal (i < 0) i.natAbs 0 hf hr
  rwa [zpow_zero, mul_one, Nat.cast_natAbs, Int.cast_abs] at this

theorem roundsTo_nat {fmt rnd : Nat} (hf : fmt < 3) (hr : rnd < 4) (n : Nat) :
    RoundsTo fmt rnd false (exactly (n : Rat)) (packVal fmt rnd (.fin false n 0)) := by
  simpa using roundsTo_packVal false n 0 hf hr

/-- The source of `cvtf`, an integer type: the low bits read as a signed or unsigned number. -/
theorem cvtfVal_int {n : Nat} (x : Site) (m : ModCF) (o : Operand) (ht : m.src.toNat < 8) (hn : intBits m.src.toNat = n)
    (a : Wide) (ha : x.read (wideType m.src) o = a) : cvtfVal x m o =
    if m.src.toNat < 4 then .fin ((a.setWidth n).toInt < 0) (a.setWidth n).toInt.natAbs 0 else .fin false (a.setWidth n).toNat 0 := by
  have bits : a.toNat % 2 ^ n = (a.setWidth n).toNat := (BitVec.toNat_setWidth ..).symm
  have pos : 0 < n := by
    rw [← hn, intBits]
    positivity
  rw [cvtfVal]
  simp only [if_neg (not_le.2 ht), ha, hn, bits]
  split
  · rw [Loads.signedOf_eq_toInt pos (BitVec.isLt _), BitVec.ofNat_toNat, BitVec.setWidth_eq]
  · rw [decide_eq_false (by omega), Int.natAbs_natCast]

/-! ## To an integer (R97) -/

/-- The range and the width of an integer type (R54, R97). -/
def leastInt (t : Nat) : Int := if t < 4 then -2 ^ (intBits t - 1) else 0
def greatestInt (t : Nat) : Int := if t < 4 then 2 ^ (intBits t - 1) - 1 else 2 ^ intBits t - 1

theorem range_bound {t : Nat} (ht : t < 8) : -2 ^ 70 ≤ leastInt t ∧ greatestInt t ≤ 2 ^ 70 := by
  interval_cases t <;> decide

/-- The residue of a number among those of `n` bits, signed. -/
theorem signedOf_emod {n : Nat} (hn : 0 < n) (i : Int) :
    signedOf n (i % 2 ^ n).toNat = (i + 2 ^ (n - 1)) % 2 ^ n - 2 ^ (n - 1) := by
  obtain ⟨k, rfl⟩ : ∃ k, n = k + 1 := ⟨n - 1, by omega⟩
  have pow : (0 : Int) < 2 ^ k := by positivity
  have r0 := Int.emod_nonneg i (show (2 : Int) ^ (k + 1) ≠ 0 by positivity)
  have r1 := Int.emod_lt_of_pos i (show (0 : Int) < 2 ^ (k + 1) by positivity)
  rw [signedOf, Nat.add_sub_cancel, Int.toNat_of_nonneg r0, ← Int.emod_add_emod]
  have cast : 2 ^ k ≤ (i % 2 ^ (k + 1)).toNat ↔ (2 : Int) ^ k ≤ i % 2 ^ (k + 1) := by
    rw [← Int.ofNat_le, Int.toNat_of_nonneg r0]
    push_cast
    rfl
  simp only [hn, true_and, cast]
  generalize i % 2 ^ (k + 1) = r at *
  rw [pow_succ] at *
  split
  · rw [← Int.sub_emod_right, Int.emod_eq_of_lt (by omega) (by omega)]
    ring
  · rw [Int.emod_eq_of_lt (by omega) (by omega)]
    ring

/-- Beyond 2^70 the clamp gives an end of the range, whatever the magnitude. -/
theorem clamp_large {lo hi : Int} (hlo : -2 ^ 70 ≤ lo) (hhi : hi ≤ 2 ^ 70) (neg : Bool) {k : Nat} (hk : 2 ^ 70 ≤ k) :
    max lo (min hi ((if neg then -1 else 1) * ((2 ^ 70 : Nat) : Int))) = max lo (min hi ((if neg then -1 else 1) * (k : Int))) := by
  cases neg
  · simp only [Bool.false_eq_true, if_false]
    omega
  · simp only [if_true]
    omega

theorem large_of_bits {fmt x m rnd : Nat} {neg : Bool} {e : Int} (hf : fmt < 3) (h : Holds fmt x neg m e)
    (hb : 70 < e + bitLength m) : 2 ^ 70 ≤ roundInt rnd neg m e := by
  have low : fmtLow fmt < 0 := by interval_cases fmt <;> decide
  have few : bitLength m ≤ 24 := (bitLength_le h.upper).trans (by interval_cases fmt <;> decide)
  have hm : m ≠ 0 := by
    rintro rfl
    have := h.lower (Nat.two_pow_pos _)
    simp only [bitLength, if_true] at hb
    omega
  have := bitLength_pos hm
  rw [roundInt_eq, if_pos (by omega)]
  calc 2 ^ 70 ≤ 2 ^ (bitLength m - 1 + e.toNat) := Nat.pow_le_pow_right (by omega) (by omega)
    _ = 2 ^ (bitLength m - 1) * 2 ^ e.toNat := pow_add _ _ _
    _ ≤ m * 2 ^ e.toNat := Nat.mul_le_mul_right _ (two_pow_bitLength_le hm)

/-- A finite source as the integer of the destination (R97). -/
theorem cvtiInt_fin {m : ModCI} {x mant : Nat} {neg : Bool} {e : Int} (hd : m.dst.toNat < 8) (hf : m.src.toNat < 3)
    (h : Holds m.src.toNat x neg mant e) : cvtiInt m (.fin neg mant e) =
      let k := roundRat m.rnd.toNat (FVal.fin neg mant e).number
      if m.sat then max (leastInt m.dst.toNat) (min (greatestInt m.dst.toNat) k)
      else if m.dst.toNat < 4 then (k + 2 ^ (intBits m.dst.toNat - 1)) % 2 ^ intBits m.dst.toNat - 2 ^ (intBits m.dst.toNat - 1)
      else k % 2 ^ intBits m.dst.toNat := by
  have bits : 0 < intBits m.dst.toNat := by
    rw [intBits]
    positivity
  have number := roundRat_number m.rnd.isLt neg mant e
  have signed (k : Nat) : (if neg then -(k : Int) else k) = (if neg then -1 else 1) * (k : Int) := by cases neg <;> simp
  rw [cvtiInt]
  simp only [signed, number]
  cases m.sat with
  | false =>
    simp only [Bool.false_eq_true, if_false]
    split
    · exact signedOf_emod bits _
    · exact Int.toNat_of_nonneg (Int.emod_nonneg _ (by positivity))
  | true =>
    obtain ⟨lo, hi⟩ := range_bound hd
    simp only [if_true]
    change max (leastInt m.dst.toNat) (min (greatestInt m.dst.toNat) _) = _
    by_cases hb : 70 < e + bitLength mant
    · rw [if_pos hb]
      exact clamp_large lo hi neg (large_of_bits hf h hb)
    · rw [if_neg hb]

theorem wideType_iff (t : BitVec 4) (ht : t.toNat < 8) : wideType t = true ↔ intBits t.toNat = 64 := by
  revert t
  decide

/-! ## Scaled values (R83-R86, R98, R100, R101) -/

/-- The value of a scale that is not the invalid one (R86). -/
def scaleValue (sm8 : Bool) (code : Nat) : Rat :=
  if sm8 then (1 + (code % 8 : Nat) / 8 : Rat) * 2 ^ ((code / 8 : Nat) - 15 : Int) else (2 : Rat) ^ ((code : Int) - 127)

theorem scaleOf_eq {sm8 : Bool} {code : Nat} (h : code % 256 ≠ 0xFF) :
    ∃ k f, scaleOf sm8 code = some (k, f) ∧ (k : Rat) * 2 ^ f = scaleValue sm8 (code % 256) := by
  rw [scaleOf, if_neg h]
  cases sm8 with
  | false => exact ⟨_, _, rfl, by simp [scaleValue]⟩
  | true =>
    refine ⟨_, _, rfl, ?_⟩
    have low : code % 256 % 8 = code % 8 := by omega
    rw [scaleValue, if_pos rfl, low, show ((code % 256 / 8 : Nat) - 15 : Int) = (code % 256 / 8 : Nat) - 18 + 3 by ring,
      zpow_add₀ (by norm_num)]
    push_cast
    ring

theorem roundsTo_scaledVal {fmt rnd k : Nat} {f : Int} (hf : fmt < 3) (hr : rnd < 4) (neg : Bool) (m : Nat) (e : Int) :
    RoundsTo fmt rnd neg (exactly ((m : Rat) * 2 ^ e * ((k : Rat) * 2 ^ f)))
      (packVal fmt rnd (scaledVal (.fin neg m e) (some (k, f)))) := by
  have product : (m : Rat) * 2 ^ e * ((k : Rat) * 2 ^ f) = ((m * k : Nat) : Rat) * 2 ^ (e + f) := by
    rw [zpow_add₀ (by norm_num)]
    push_cast
    ring
  rw [product]
  simpa [scaledVal, mulVal] using roundsTo_packVal neg (m * k) (e + f) hf hr

/-- An element is a number, or NaN (R83-R85). -/
theorem elemVal_ne_inf (el code : Nat) (neg : Bool) : elemVal el code ≠ .inf neg := by
  unfold elemVal
  dsimp only
  split <;> split_ifs <;> simp

theorem fmt_lt_of_ne {b : BitVec 2} (h : b ≠ 3) : b.toNat < 3 := by
  have := b.isLt
  have : b.toNat ≠ 3 := fun e => h (BitVec.eq_of_toNat_eq e)
  omega

theorem destFmt_of_clear {i : Instr} {fmt : BitVec 2} {rsv : BitVec 2} {x : Site} (h : i.modifierOk = (fmt ≠ 3 && rsv = 0))
    (hc : Clear i x = true) : fmt.toNat < 3 := by
  have ok := modifierOk_of_clear hc
  rw [h, Bool.and_eq_true, decide_eq_true_eq] at ok
  exact fmt_lt_of_ne ok.1

/-- Settles O25: the source as a value, rounded once; and the integer of `cvti` by its clamp or its residue. -/
theorem conversionsRound : Obligations.ConversionsRound := by
  unfold Obligations.ConversionsRound
  refine ⟨⟨fun w => completes_of_pure (fun _ => rfl) fun t x hc h => ⟨_, ?_, h⟩,
      fun w => delivers_of_pure (fun _ => rfl) fun x hc => ?_⟩,
    fun w => completes_of_pure (fun _ => rfl) fun t x hc h => ⟨_, ?_, h⟩,
    fun w => completes_of_pure (fun _ => rfl) fun t x hc h => ⟨_, ?_, h⟩,
    fun w => delivers_of_pure (fun _ => rfl) fun x _ => rfl, fun w => delivers_of_pure (fun _ => rfl) fun x _ => rfl⟩
  · have ok := modifierOk_of_clear hc
    simp only [Instr.modifierOk, Bool.and_eq_true, decide_eq_true_eq] at ok
    obtain ⟨⟨hs, hd⟩, -⟩ := ok
    have hf := fmt_lt_of_ne hd
    have hr := w.m.rnd.isLt
    have int {n : Nat} (ht : w.m.src.toNat < 8) (hn : intBits w.m.src.toNat = n) := cvtfVal_int x w.m w.a ht hn _ rfl
    have float {t : Nat} (ht : w.m.src.toNat = t) (h8 : 8 ≤ t) :
        cvtfVal x w.m w.a = unpack (floatOfType t) (x.float (floatOfType t) false w.a) := by
      rw [cvtfVal, ht, if_pos h8]
    interval_cases hsrc : w.m.src.toNat
    · rw [int (n := 8) (by omega) rfl]
      exact roundsTo_int hf hr _
    · rw [int (n := 16) (by omega) rfl]
      exact roundsTo_int hf hr _
    · rw [int (n := 32) (by omega) rfl]
      exact roundsTo_int hf hr _
    · rw [int (n := 64) (by omega) rfl, BitVec.setWidth_eq]
      exact roundsTo_int hf hr _
    · rw [int (n := 8) (by omega) rfl]
      exact roundsTo_nat hf hr _
    · rw [int (n := 16) (by omega) rfl]
      exact roundsTo_nat hf hr _
    · rw [int (n := 32) (by omega) rfl]
      exact roundsTo_nat hf hr _
    · rw [int (n := 64) (by omega) rfl, BitVec.setWidth_eq]
      exact roundsTo_nat hf hr _
    · rw [float rfl (by omega)]
      exact valueRounds_packVal hf hr _
    · rw [float rfl (by omega)]
      exact valueRounds_packVal hf hr _
    · rw [float rfl (by omega)]
      exact valueRounds_packVal hf hr _
  · have ok := modifierOk_of_clear hc
    simp only [Instr.modifierOk, Bool.and_eq_true, decide_eq_true_eq] at ok
    obtain ⟨hs, hd⟩ := ok
    rw [lowBits_eq_ofInt]
    simp only [wideType_iff _ hd]
    cases hu : unpack w.m.src.toNat (x.float w.m.src.toNat false w.a) with
    | nan => rfl
    | inf neg => rfl
    | fin neg m e =>
      rw [cvtiInt_fin hd (fmt_lt_of_ne hs) (holds_of_unpack (fmt_lt_of_ne hs) hu)]
      rfl
  · have hf := destFmt_of_clear rfl hc
    by_cases hcode : (x.read32 w.b).toNat % 256 = 0xFF
    · simp only [hcode, if_true, scaleOf]
      rfl
    · obtain ⟨k, f, hscale, value⟩ := scaleOf_eq (sm8 := slotSm8 (slotOf x.pass w.m.slot)) hcode
      simp only [hcode, if_false, hscale]
      cases hv : elemVal ((x.pass.slots.getD w.m.slot.toNat 0).extractLsb' 1 3).toNat (x.read32 w.a).toNat with
      | nan => rw [slotElem, slotOf, hv]; rfl
      | inf neg => exact absurd hv (elemVal_ne_inf _ _ _)
      | fin neg m e =>
        have rounds := roundsTo_scaledVal (k := k) (f := f) hf w.m.rnd.isLt neg m e
        rw [value] at rounds
        rw [slotElem, slotOf, hv]
        exact rounds
  · have hf := destFmt_of_clear rfl hc
    by_cases hcode : (x.read32 w.a).toNat % 256 = 0xFF
    · simp only [hcode, if_true, scaleOf]
      rfl
    · obtain ⟨k, f, hscale, value⟩ := scaleOf_eq (sm8 := slotSm8 (slotOf x.pass w.m.slot)) hcode
      have rounds := roundsTo_scaledVal (k := k) (f := f) hf w.m.rnd.isLt false 1 0
      rw [value, Nat.cast_one, zpow_zero, one_mul, one_mul] at rounds
      simp only [hcode, if_false, hscale]
      exact rounds

end Sys2Proof.Conversions

/-! What an approximating instruction returns, as a distance from the exact value (R93; O32). -/

namespace Sys2Proof.Approx
open Machine Rounding Patterns Arithmetic

/-! ## Dyadic numbers -/

/-- The real number that a dyadic stands for. -/
noncomputable def real (x : Machine.Dyadic) : ℝ := x.m * 2 ^ x.e

theorem at_eq (x : Machine.Dyadic) {base : Int} (h : base ≤ x.e) : ((x.at_ base : Int) : ℝ) * 2 ^ base = real x := by
  rw [Dyadic.at_, real]
  push_cast
  rw [mul_assoc, ← zpow_natCast, Int.toNat_of_nonneg (by omega), ← zpow_add₀ (by norm_num), sub_add_cancel]

theorem withinBound_iff (c v bound slack : Machine.Dyadic) :
    withinBound c v bound slack = true ↔ |real c - real v| + real slack ≤ real bound := by
  rw [withinBound]
  set base := min (min c.e v.e) (min bound.e slack.e) with hb
  have unit : (0 : ℝ) < 2 ^ base := by positivity
  rw [decide_eq_true_iff, ← at_eq c (base := base) (by omega), ← at_eq v (base := base) (by omega),
    ← at_eq slack (base := base) (by omega), ← at_eq bound (base := base) (by omega), ← sub_mul, abs_mul, abs_of_pos unit,
    ← add_mul, mul_le_mul_iff_left₀ unit, ← Int.cast_sub, ← Int.cast_abs, Int.abs_eq_natAbs, ← Int.cast_add, Int.cast_le]

/-! ## The place of a number -/

/-- The last place of a number in a format (R93). -/
noncomputable def placeOf (fmt : Nat) (x : ℝ) : Int := if x = 0 then fmtLow fmt else max (Int.log 2 |x| - fracBits fmt) (fmtLow fmt)

theorem low_le_placeOf (fmt : Nat) (x : ℝ) : fmtLow fmt ≤ placeOf fmt x := by
  rw [placeOf]
  split
  · exact le_rfl
  · exact le_max_right _ _

theorem placeOf_mono (fmt : Nat) {x y : ℝ} (h : |x| ≤ |y|) : placeOf fmt x ≤ placeOf fmt y := by
  by_cases hx : x = 0
  · rw [placeOf, if_pos hx]
    exact low_le_placeOf fmt y
  · have hy : y ≠ 0 := fun hy => hx (abs_nonpos_iff.1 (h.trans_eq (by rw [hy, abs_zero])))
    rw [placeOf, placeOf, if_neg hx, if_neg hy]
    have := Int.log_mono_right (b := 2) (abs_pos.2 hx) h
    omega

theorem placeOf_abs (fmt : Nat) (x : ℝ) : placeOf fmt |x| = placeOf fmt x :=
  le_antisymm (placeOf_mono fmt (abs_abs x).le) (placeOf_mono fmt (abs_abs x).ge)

theorem withinUlps_iff (fmt bits k : Nat) (x : ℝ) :
    WithinUlps fmt bits k x ↔ FiniteWithin fmt bits x (k * 2 ^ placeOf fmt x) := Iff.rfl

theorem log_mul_zpow {m : Nat} (hm : m ≠ 0) (e : Int) : Int.log 2 ((m : ℝ) * 2 ^ e) = e + bitLength m - 1 := by
  have h1 := two_pow_bitLength_le hm
  have h2 := lt_two_pow_bitLength m
  have hb := bitLength_pos hm
  have pos : (0 : ℝ) < m * 2 ^ e := by positivity
  have unit : (0 : ℝ) < 2 ^ e := by positivity
  refine le_antisymm (Int.lt_add_one_iff.1 ((Int.lt_zpow_iff_log_lt (by norm_num) pos).1 ?_))
    ((Int.zpow_le_iff_le_log (by norm_num) pos).1 ?_)
  · rw [sub_add_cancel, add_comm, Nat.cast_ofNat, zpow_add₀ (by norm_num), zpow_natCast]
    exact mul_lt_mul_of_pos_right (by exact_mod_cast h2) unit
  · rw [show e + bitLength m - 1 = ((bitLength m - 1 : Nat) : Int) + e by omega, Nat.cast_ofNat, zpow_add₀ (by norm_num), zpow_natCast]
    exact mul_le_mul_of_nonneg_right (by exact_mod_cast h1) unit.le

theorem abs_real (v : Machine.Dyadic) : |real v| = (v.m.natAbs : ℝ) * 2 ^ v.e := by
  rw [real, abs_mul, abs_of_pos (show (0 : ℝ) < 2 ^ v.e by positivity), Nat.cast_natAbs, Int.cast_abs]

theorem real_ulps (fmt k : Nat) (v : Machine.Dyadic) : real (ulps fmt k v) = k * 2 ^ placeOf fmt (real v) := by
  have unit : (2 : ℝ) ^ v.e ≠ 0 := by positivity
  rw [ulps, real, placeOf]
  by_cases hm : v.m = 0
  · have : real v = 0 := by simp [real, hm]
    simp [hm, this]
  · have hv : real v ≠ 0 := mul_ne_zero (by exact_mod_cast hm) unit
    rw [if_neg hm, if_neg hv, abs_real, log_mul_zpow (by omega)]
    rfl

/-! ## Rounding to nearest -/

theorem placeOf_lower {fmt : Nat} {x : ℝ} {k : Int} (hx : 0 < x) (h : (2 : ℝ) ^ (k + fracBits fmt) ≤ x) : k ≤ placeOf fmt x := by
  have := (Int.zpow_le_iff_le_log (b := 2) (by norm_num) hx).1 (by exact_mod_cast h)
  rw [placeOf, if_neg hx.ne', abs_of_pos hx]
  omega

/-- Neighbouring magnitudes differ by no more than the last place of the numbers from the lower one on. -/
theorem magnitude_gap {fmt c : Nat} {v : Rat} (h : magnitude fmt c ≤ v) (hv : 0 < v) :
    ((magnitude fmt (c + 1) : Rat) : ℝ) - (magnitude fmt c : Rat) ≤ 2 ^ placeOf fmt (v : ℝ) := by
  obtain ⟨n, q, fits, hlt, h0, rfl⟩ := exists_codeOf (fracBits fmt) (fmtLow fmt) c
  have gap : ((magnitude fmt (codeOf (fracBits fmt) (fmtLow fmt) n q + 1) : Rat) : ℝ) -
      (magnitude fmt (codeOf (fracBits fmt) (fmtLow fmt) n q) : Rat) = 2 ^ q := by
    rw [← codeOf_succ fits hlt h0, magnitude_codeOf fits,
      magnitude_codeOf ⟨fits.place, hlt, fits.lower.imp (by omega) fun h => .inl (h.elim id h0)⟩]
    push_cast
    ring
  have hv' : (0 : ℝ) < v := by exact_mod_cast hv
  rw [gap]
  refine zpow_le_zpow_right₀ (by norm_num) ?_
  by_cases hn : 2 ^ fracBits fmt ≤ n
  · refine placeOf_lower hv' ?_
    calc (2 : ℝ) ^ (q + fracBits fmt) = (2 ^ fracBits fmt : Nat) * 2 ^ q := by
          rw [add_comm, zpow_add₀ (by norm_num), zpow_natCast]
          push_cast
          rfl
      _ ≤ (n : ℝ) * 2 ^ q := mul_le_mul_of_nonneg_right (by exact_mod_cast hn) (by positivity)
      _ = ((magnitude fmt (codeOf (fracBits fmt) (fmtLow fmt) n q) : Rat) : ℝ) := by
          rw [magnitude_codeOf fits]
          push_cast
          rfl
      _ ≤ v := by exact_mod_cast h
  · have : q = fmtLow fmt := by
      rcases fits.lower with h | h | h
      · exact absurd h hn
      · exact h
      · exact h0 h
    rw [this]
    exact low_le_placeOf fmt _

/-- The largest finite magnitude. -/
theorem lt_magnitude_infBits {fmt : Nat} (hf : fmt < 3) : magnitude fmt (infBits fmt - 1) < magnitude fmt (infBits fmt) :=
  magnitude_strictMono fmt (Nat.sub_lt (infBits_pos hf) Nat.one_pos)

theorem finiteWithin_signBit {fmt d : Nat} (hf : fmt < 3) (neg : Bool) (hd : d < infBits fmt) {x bound : ℝ}
    (h : |((signed neg (magnitude fmt d) : Rat) : ℝ) - x| ≤ bound) : FiniteWithin fmt (signBit fmt neg + d) x bound := by
  obtain ⟨m, e, hu, hn⟩ := unpack_signBit hf neg hd
  exact ⟨neg, m, e, hu, hn ▸ h⟩

theorem abs_signed_sub (neg : Bool) (p q : Rat) : |((signed neg p : Rat) : ℝ) - (signed neg q : Rat)| = |(p : ℝ) - q| := by
  cases neg
  · rfl
  · simp only [signed, if_true]
    push_cast
    rw [← neg_sub', abs_neg]

/-- To nearest, a number within the format is at most half of its last place from its rounding (R81). -/
theorem finiteWithin_of_roundsTo {fmt bits : Nat} {neg : Bool} {v : Rat} (hf : fmt < 3)
    (hmax : v ≤ magnitude fmt (infBits fmt - 1)) (h : RoundsTo fmt 0 neg (exactly v) bits) :
    FiniteWithin fmt bits (signed neg v : Rat) (2 ^ placeOf fmt (v : ℝ) / 2) := by
  obtain ⟨hinf, -⟩ | ⟨c, hc, lower, upper, hb⟩ := h
  · exact absurd (compare_le_iff_le.1 hinf) (not_le.2 (hmax.trans_lt (lt_magnitude_infBits hf)))
  have lo : magnitude fmt c ≤ v := compare_le_iff_le.1 lower
  have hi : v < magnitude fmt (c + 1) := compare_gt_iff_gt.1 upper
  have lo' : ((magnitude fmt c : Rat) : ℝ) ≤ v := by exact_mod_cast lo
  have hi' : (v : ℝ) < (magnitude fmt (c + 1) : Rat) := by exact_mod_cast hi
  set middle := exactly v ((magnitude fmt c + magnitude fmt (c + 1)) / 2) with hm
  by_cases heq : exactly v (magnitude fmt c) = .eq
  · rw [if_pos heq] at hb
    rw [hb, ← compare_eq_iff_eq.1 heq]
    refine finiteWithin_signBit hf neg hc ?_
    rw [sub_self, abs_zero]
    positivity
  have h0 : 0 < v := (magnitude_nonneg fmt c).trans_lt (lo.lt_of_ne fun h => heq (compare_eq_iff_eq.2 h))
  have gap := magnitude_gap lo h0
  rw [if_neg heq] at hb
  by_cases up : goesUp 0 neg c middle = true
  · have half : magnitude fmt c + magnitude fmt (c + 1) ≤ 2 * v := by
      have : middle ≠ .gt := by
        intro hgt
        simp [goesUp, hgt] at up
      have := compare_le_iff_le.1 this
      linarith
    have half' : ((magnitude fmt c : Rat) : ℝ) + (magnitude fmt (c + 1) : Rat) ≤ 2 * v := by exact_mod_cast half
    have hc' : c + 1 ≠ infBits fmt := by
      intro hinf
      have : infBits fmt - 1 = c := by omega
      rw [this] at hmax
      exact heq (compare_eq_iff_eq.2 (le_antisymm lo hmax))
    rw [if_pos up, if_neg hc'] at hb
    rw [hb]
    refine finiteWithin_signBit hf neg (by omega) ?_
    rw [abs_signed_sub, abs_of_nonneg (by linarith)]
    linarith
  · have half : 2 * v ≤ magnitude fmt c + magnitude fmt (c + 1) := by
      have : middle ≠ .lt := by
        intro hlt
        simp [goesUp, hlt] at up
      have := compare_ge_iff_ge.1 this
      linarith
    have half' : 2 * (v : ℝ) ≤ (magnitude fmt c : Rat) + (magnitude fmt (c + 1) : Rat) := by exact_mod_cast half
    rw [if_neg up] at hb
    rw [hb]
    refine finiteWithin_signBit hf neg hc ?_
    rw [abs_signed_sub, abs_of_nonpos (by linarith)]
    linarith

/-- The rounded reference is within half of its last place of the reference. -/
theorem finiteWithin_roundDyadic {fmt : Nat} (hf : fmt < 3) (v : Machine.Dyadic)
    (hmax : |real v| ≤ (magnitude fmt (infBits fmt - 1) : Rat)) :
    FiniteWithin fmt (roundDyadic fmt v) (real v) (2 ^ placeOf fmt (real v) / 2) := by
  have size : (((v.m.natAbs : Rat) * 2 ^ v.e : Rat) : ℝ) = |real v| := by
    rw [abs_real]
    push_cast
    rfl
  have value : ((signed (v.m < 0) ((v.m.natAbs : Rat) * 2 ^ v.e) : Rat) : ℝ) = real v := by
    rw [real, signed, Nat.cast_natAbs]
    by_cases h : v.m < 0
    · simp [h, abs_of_neg h]
    · simp [h, abs_of_nonneg (not_lt.1 h)]
  have within := finiteWithin_of_roundsTo (fmt := fmt) hf (by
    rw [← size] at hmax
    exact_mod_cast hmax) (roundsTo_packVal (v.m < 0) v.m.natAbs v.e hf (by omega))
  rw [value, size, placeOf_abs] at within
  exact within

/-! ## What the instructions return -/

/-- The device's own bits where they pass the check against the reference, and else the rounded reference. -/
theorem approxBits_cases (opcode fmt src : Nat) (v bound slack : Machine.Dyadic) :
    (∃ neg m e, unpack fmt (approxBits opcode fmt src v bound slack) = .fin neg m e ∧
      |((FVal.fin neg m e).number : ℝ) - real v| + real slack ≤ real bound) ∨
    approxBits opcode fmt src v bound slack = roundDyadic fmt v := by
  rw [approxBits]
  set own := (Config.approx opcode fmt src).toNat % 2 ^ fmtWidth fmt
  cases hu : unpack fmt own with
  | nan | inf neg => exact .inr rfl
  | fin neg m e =>
    by_cases hw : withinBound ⟨if neg then -m else m, e⟩ v bound slack = true
    · have bound := (withinBound_iff _ _ _ _).1 hw
      have value : real ⟨if neg then -m else m, e⟩ = ((FVal.fin neg m e).number : ℝ) := by
        cases neg <;> simp [real, FVal.number]
      rw [value] at bound
      exact .inl ⟨neg, m, e, by simpa only [hw, if_true] using hu, bound⟩
    · exact .inr (if_neg hw)

theorem finiteWithin_mono {fmt bits : Nat} {x x' b b' : ℝ} (h : FiniteWithin fmt bits x b) (hb : |x - x'| + b ≤ b') :
    FiniteWithin fmt bits x' b' := by
  obtain ⟨neg, m, e, hu, hw⟩ := h
  exact ⟨neg, m, e, hu, (abs_sub_le _ x _).trans (by linarith)⟩

/-- A bound in the last place of the exact value `x`, when the reference is near it and its last place is not above that of `x`. -/
theorem approxBits_ulps {opcode fmt src k : Nat} {v slack : Machine.Dyadic} {x : ℝ} (hf : fmt < 3) (hk : 1 ≤ k)
    (hmax : |real v| ≤ (magnitude fmt (infBits fmt - 1) : Rat)) (hslack : |real v - x| ≤ real slack)
    (hplace : placeOf fmt (real v) ≤ placeOf fmt x) (hnear : |real v - x| ≤ 2 ^ placeOf fmt x / 2) :
    WithinUlps fmt (approxBits opcode fmt src v (ulps fmt k v) slack) k x := by
  have place : (2 : ℝ) ^ placeOf fmt (real v) ≤ 2 ^ placeOf fmt x := zpow_le_zpow_right₀ (by norm_num) hplace
  have unit : (0 : ℝ) < 2 ^ placeOf fmt x := by positivity
  have one : (1 : ℝ) ≤ k := by exact_mod_cast hk
  rw [withinUlps_iff]
  obtain ⟨neg, m, e, hu, hw⟩ | hr := approxBits_cases opcode fmt src v (ulps fmt k v) slack
  · rw [real_ulps] at hw
    refine ⟨neg, m, e, hu, (abs_sub_le _ (real v) _).trans ?_⟩
    have : (k : ℝ) * 2 ^ placeOf fmt (real v) ≤ k * 2 ^ placeOf fmt x := mul_le_mul_of_nonneg_left place (by positivity)
    linarith
  · rw [hr]
    refine finiteWithin_mono (finiteWithin_roundDyadic hf v hmax) ?_
    nlinarith

/-- A bound that is a number. -/
theorem approxBits_absolute {opcode fmt src : Nat} {v bound slack : Machine.Dyadic} {x b : ℝ} (hf : fmt < 3)
    (hmax : |real v| ≤ (magnitude fmt (infBits fmt - 1) : Rat)) (hb : real bound = b) (hslack : |real v - x| ≤ real slack)
    (hnear : |real v - x| + 2 ^ placeOf fmt (real v) / 2 ≤ b) :
    FiniteWithin fmt (approxBits opcode fmt src v bound slack) x b := by
  obtain ⟨neg, m, e, hu, hw⟩ | hr := approxBits_cases opcode fmt src v bound slack
  · refine ⟨neg, m, e, hu, (abs_sub_le _ (real v) _).trans ?_⟩
    linarith
  · rw [hr]
    exact finiteWithin_mono (finiteWithin_roundDyadic hf v hmax) hnear

/-- Every power of two up to that of the bias is finite. -/
theorem two_pow_bias_le {fmt : Nat} (hf : fmt < 3) : (2 : ℝ) ^ fmtBias fmt ≤ (magnitude fmt (infBits fmt - 1) : Rat) := by
  have : (2 : Rat) ^ fmtBias fmt ≤ magnitude fmt (infBits fmt - 1) := by
    interval_cases fmt <;> norm_num [magnitude, infBits, fmtBias, fracBits, expBits, fmtLow]
  exact_mod_cast this

end Sys2Proof.Approx

/-! The bound of `frsq` (R93; O32). -/

namespace Sys2Proof.Approx
open Machine Rounding Patterns Arithmetic

/-- A positive finite source has a positive magnitude and no sign. -/
theorem positive_of_number {neg : Bool} {m : Nat} {e : Int} (h : 0 < (FVal.fin neg m e).number) : neg = false ∧ m ≠ 0 := by
  have value : (0 : Rat) ≤ (m : Rat) * 2 ^ e := by positivity
  rw [number_fin] at h
  cases neg with
  | true => exact absurd h (not_lt.2 (by simpa [signed] using value))
  | false =>
    refine ⟨rfl, ?_⟩
    rintro rfl
    simp [signed] at h

theorem number_pos_real (m : Nat) (e : Int) : ((FVal.fin false m e).number : ℝ) = m * 2 ^ e := by
  simp [FVal.number]

theorem fracBits_le {fmt : Nat} (hf : fmt < 3) : fracBits fmt ≤ 23 := by
  interval_cases fmt <;> decide

theorem natDiv_between (n : Nat) {m : Nat} (hm : 0 < m) :
    ((n / m : Nat) : ℝ) ≤ (n : ℝ) / m ∧ (n : ℝ) / m < (n / m : Nat) + 1 := by
  refine ⟨Nat.cast_div_le, ?_⟩
  rw [div_lt_iff₀ (by exact_mod_cast hm), mul_comm]
  exact_mod_cast Nat.lt_mul_div_succ n hm

/-- The root of a quotient of integers, taken in integers. -/
theorem sqrt_div_between {n m : Nat} (hm : 0 < m) :
    (Nat.sqrt (n / m) : ℝ) ≤ Real.sqrt ((n : ℝ) / m) ∧ Real.sqrt ((n : ℝ) / m) < Nat.sqrt (n / m) + 1 := by
  obtain ⟨lower, upper⟩ := natDiv_between n hm
  refine ⟨Real.nat_sqrt_le_real_sqrt.trans (Real.sqrt_le_sqrt lower), (Real.sqrt_lt' (by positivity)).2 (upper.trans_le ?_)⟩
  exact_mod_cast Nat.succ_le_of_lt (Nat.lt_succ_sqrt' (n / m))

/-- The reciprocal root of a finite source is within the format. -/
theorem abs_rsqrt_le {fmt x m : Nat} {neg : Bool} {e : Int} (hf : fmt < 3) (h : Holds fmt x neg m e) (hm : m ≠ 0) :
    |1 / Real.sqrt ((m : ℝ) * 2 ^ e)| ≤ 2 ^ fmtBias fmt := by
  have low : -(2 * (fmtBias fmt : Int)) ≤ fmtLow fmt := by interval_cases fmt <;> decide
  have one : (1 : ℝ) ≤ m := by exact_mod_cast Nat.pos_of_ne_zero hm
  have root : ((2 : ℝ) ^ fmtBias fmt)⁻¹ ≤ Real.sqrt (m * 2 ^ e) := by
    refine Real.le_sqrt_of_sq_le ?_
    calc (((2 : ℝ) ^ fmtBias fmt)⁻¹) ^ 2 = 2 ^ (-(2 * (fmtBias fmt : Int))) := by
          rw [zpow_neg, mul_comm, zpow_mul, zpow_natCast, inv_pow]
          norm_cast
      _ ≤ 2 ^ e := zpow_le_zpow_right₀ (by norm_num) (low.trans h.fits.place)
      _ ≤ m * 2 ^ e := le_mul_of_one_le_left (by positivity) one
  rw [abs_of_nonneg (by positivity), one_div]
  exact inv_le_of_inv_le₀ (by positivity) root

/-- `frsq` of a positive source. -/
theorem rsqrtBits_within {fmt src m : Nat} {neg : Bool} {e : Int} (hf : fmt < 3) (hu : unpack fmt src = .fin neg m e)
    (ha : 0 < (FVal.fin neg m e).number) :
    WithinUlps fmt (rsqrtBits fmt src) 1 (1 / Real.sqrt ((FVal.fin neg m e).number : ℝ)) := by
  have holds := holds_of_unpack hf hu
  obtain ⟨rfl, hm⟩ := positive_of_number ha
  have pos : 0 < m := Nat.pos_of_ne_zero hm
  have frac := fracBits_le hf
  rw [number_pos_real]
  set m' := m * 2 ^ (e % 2).toNat with hm'
  obtain ⟨h, he⟩ : ∃ h, e - e % 2 = 2 * h := ⟨(e - e % 2) / 2, by omega⟩
  have half : (e - e % 2) / 2 = h := by omega
  have bits : rsqrtBits fmt src = approxBits 0x049 fmt src ⟨(Nat.sqrt (2 ^ 256 / m') : Nat), -128 - h⟩
      (ulps fmt 1 ⟨(Nat.sqrt (2 ^ 256 / m') : Nat), -128 - h⟩) ⟨2, -128 - h⟩ := by
    rw [rsqrtBits, hu]
    simp only [if_neg hm, Bool.false_eq_true, if_false, half, isqrt_eq_sqrt]
    rfl
  have pos' : 0 < m' := Nat.mul_pos pos (Nat.two_pow_pos _)
  have small : m' ≤ 2 ^ 25 := by
    calc m' ≤ 2 ^ 24 * 2 ^ 1 := Nat.mul_le_mul (holds.upper.le.trans (Nat.pow_le_pow_right (by omega) (by omega)))
          (Nat.pow_le_pow_right (by omega) (by omega))
      _ = 2 ^ 25 := by norm_num
  set y := Real.sqrt (((2 ^ 256 : Nat) : ℝ) / m') with hy
  obtain ⟨lower, upper⟩ := sqrt_div_between (n := 2 ^ 256) pos'
  have unit : (0 : ℝ) < 2 ^ (-128 - h) := by positivity
  have exact_eq : 1 / Real.sqrt ((m : ℝ) * 2 ^ e) = y * 2 ^ (-128 - h) := by
    have scaled : (m : ℝ) * 2 ^ e = m' * ((2 : ℝ) ^ h) ^ 2 := by
      have parity : e = (e % 2).toNat + h * (2 : Nat) := by
        push_cast
        omega
      rw [parity, zpow_add₀ (by norm_num), zpow_natCast, zpow_mul, zpow_natCast, hm']
      push_cast
      ring
    have root : (0 : ℝ) < Real.sqrt m' := Real.sqrt_pos.2 (by exact_mod_cast pos')
    rw [scaled, Real.sqrt_mul (by positivity), Real.sqrt_sq (by positivity), hy, Real.sqrt_div (by positivity),
      show ((2 ^ 256 : Nat) : ℝ) = (2 ^ 128) ^ 2 by norm_num, Real.sqrt_sq (by positivity), zpow_sub₀ (by norm_num), zpow_neg]
    norm_num
    field_simp
  have large : (2 : ℝ) ^ 24 ≤ y := by
    refine Real.le_sqrt_of_sq_le ?_
    rw [le_div_iff₀ (by exact_mod_cast pos')]
    have : (2 ^ 24) ^ 2 * m' ≤ 2 ^ 256 := (Nat.mul_le_mul_left _ small).trans (by norm_num)
    exact_mod_cast this
  have near : |(Nat.sqrt (2 ^ 256 / m') : ℝ) * 2 ^ (-128 - h) - y * 2 ^ (-128 - h)| ≤ 2 ^ (-128 - h) := by
    rw [← sub_mul, abs_mul, abs_of_pos unit, abs_of_nonpos (by linarith)]
    nlinarith
  have value : real ⟨(Nat.sqrt (2 ^ 256 / m') : Nat), -128 - h⟩ = (Nat.sqrt (2 ^ 256 / m') : ℝ) * 2 ^ (-128 - h) := by
    simp [real]
  have below : |real ⟨(Nat.sqrt (2 ^ 256 / m') : Nat), -128 - h⟩| ≤ |y * 2 ^ (-128 - h)| := by
    rw [value, abs_mul, abs_mul, abs_of_nonneg (by positivity), abs_of_nonneg (by positivity : 0 ≤ y)]
    exact mul_le_mul_of_nonneg_right lower (by positivity)
  rw [bits, exact_eq]
  refine approxBits_ulps hf le_rfl (below.trans ?_) ?_ (placeOf_mono fmt below) ?_
  · rw [← exact_eq]
    exact (abs_rsqrt_le hf holds hm).trans (two_pow_bias_le hf)
  · rw [value]
    refine near.trans ?_
    simp only [real]
    push_cast
    linarith
  · rw [value]
    refine near.trans ?_
    have place : -128 - h + 1 ≤ placeOf fmt (y * 2 ^ (-128 - h)) := by
      refine placeOf_lower (by positivity) ?_
      rw [show -128 - h + 1 + (fracBits fmt : Int) = (fracBits fmt + 1 : Nat) + (-128 - h) by push_cast; ring,
        zpow_add₀ (by norm_num), zpow_natCast]
      refine mul_le_mul_of_nonneg_right (le_trans ?_ large) unit.le
      exact pow_le_pow_right₀ (by norm_num) (by omega)
    have := zpow_le_zpow_right₀ (by norm_num : (1 : ℝ) ≤ 2) place
    rw [zpow_add_one₀ (by norm_num)] at this
    linarith

end Sys2Proof.Approx

/-! The bound of `flog2` (R93; O32): the digits of a logarithm, and where a last place might change between the reference and
the exact value. -/

namespace Sys2Proof.Approx
open Machine Rounding Patterns Arithmetic

/-! ## Binary digits of a logarithm -/

theorem half_lt_log_two : (1 : ℝ) / 2 < Real.log 2 := lt_trans (by norm_num) Real.log_two_gt_d9
theorem log_two_lt_one : Real.log 2 < 1 := Real.log_two_lt_d9.trans (by norm_num)

/-- Cutting a large number to an integer changes its logarithm little. -/
theorem logb_floor {n : Nat} {z : ℝ} (hn : 2 ^ 160 ≤ n) (lower : (n : ℝ) ≤ z) (upper : z < n + 1) :
    Real.logb 2 n ≤ Real.logb 2 z ∧ Real.logb 2 z - 1 / 2 ^ 159 ≤ Real.logb 2 n := by
  have big : (2 : ℝ) ^ 160 ≤ n := by exact_mod_cast hn
  have pos : (0 : ℝ) < n := lt_of_lt_of_le (by positivity) big
  have zpos : 0 < z := pos.trans_le lower
  refine ⟨Real.logb_le_logb_of_le (by norm_num) pos lower, ?_⟩
  have small : z / n - 1 ≤ 1 / 2 ^ 160 := by
    rw [div_sub_one pos.ne', div_le_div_iff₀ pos (by positivity)]
    nlinarith
  have ratio : Real.logb 2 z - Real.logb 2 n = Real.log (z / n) / Real.log 2 := by
    rw [Real.logb, Real.logb, Real.log_div zpos.ne' pos.ne', sub_div]
  have log2 := half_lt_log_two
  have : Real.log (z / n) / Real.log 2 ≤ 1 / 2 ^ 159 := by
    rw [div_le_iff₀ (by linarith)]
    have := Real.log_le_sub_one_of_pos (div_pos zpos pos)
    calc Real.log (z / n) ≤ 1 / 2 ^ 160 := this.trans small
      _ = 1 / 2 ^ 159 * (1 / 2) := by norm_num
      _ ≤ 1 / 2 ^ 159 * Real.log 2 := mul_le_mul_of_nonneg_left log2.le (by positivity)
  linarith

/-- The digits of the logarithm of x × 2^-160, and what they leave. -/
theorem log2Digits_between (n : Nat) {x : Nat} (acc : Nat) (hx : 2 ^ 160 ≤ x) (hx' : x < 2 ^ 161) :
    (log2Digits n x acc : ℝ) ≤ 2 ^ n * (acc + (Real.logb 2 x - 160)) ∧
    2 ^ n * (acc + (Real.logb 2 x - 160)) - 1 - (2 ^ n - 1) / 2 ^ 158 ≤ log2Digits n x acc := by
  induction n generalizing x acc with
  | zero =>
    have pos : (0 : ℝ) < x := by exact_mod_cast lt_of_lt_of_le (Nat.two_pow_pos _) hx
    have lower : 160 ≤ Real.logb 2 x := by
      rw [Real.le_logb_iff_rpow_le (by norm_num) pos]
      exact_mod_cast hx
    have upper : Real.logb 2 x < 161 := by
      rw [Real.logb_lt_iff_lt_rpow (by norm_num) pos]
      exact_mod_cast hx'
    simp only [log2Digits, pow_zero, one_mul, sub_self, zero_div, sub_zero]
    exact ⟨by linarith, by linarith⟩
  | succ n ih =>
    set y := x * x / 2 ^ 160 with hy
    have pos : (0 : ℝ) < x := by exact_mod_cast lt_of_lt_of_le (Nat.two_pow_pos _) hx
    have ylow : 2 ^ 160 ≤ y := by
      rw [Nat.le_div_iff_mul_le (Nat.two_pow_pos _)]
      exact Nat.mul_le_mul hx hx
    have yhigh : y < 2 ^ 162 := by
      rw [Nat.div_lt_iff_lt_mul (Nat.two_pow_pos _)]
      exact (Nat.mul_lt_mul'' hx' hx').trans_eq (by norm_num)
    obtain ⟨ylo, yup⟩ := natDiv_between (x * x) (Nat.two_pow_pos 160)
    rw [← hy] at ylo yup
    obtain ⟨log_hi, log_lo⟩ := logb_floor ylow ylo yup
    have square : Real.logb 2 (((x * x : Nat) : ℝ) / (2 ^ 160 : Nat)) = 2 * Real.logb 2 x - 160 := by
      have : Real.logb 2 ((2 : ℝ) ^ 160) = 160 := by
        rw [Real.logb_pow]
        simp
      rw [Nat.cast_mul, Nat.cast_pow, Nat.cast_ofNat, Real.logb_div (by positivity) (by positivity), Real.logb_mul pos.ne' pos.ne', this]
      ring
    rw [square] at log_hi log_lo
    have pow : (0 : ℝ) < 2 ^ n := by positivity
    rw [log2Digits, ← hy]
    split
    · next hbig =>
      have halflow : 2 ^ 160 ≤ y / 2 := by omega
      have halfhigh : y / 2 < 2 ^ 161 := by omega
      obtain ⟨hlo, hup⟩ := natDiv_between y (by norm_num : 0 < 2)
      obtain ⟨half_hi, half_lo⟩ := logb_floor halflow hlo hup
      have ypos : (y : ℝ) ≠ 0 := by
        have : 0 < y := lt_of_lt_of_le (Nat.two_pow_pos _) ylow
        exact_mod_cast this.ne'
      have half : Real.logb 2 ((y : ℝ) / (2 : Nat)) = Real.logb 2 y - 1 := by
        rw [Nat.cast_ofNat, Real.logb_div ypos (by norm_num), Real.logb_self_eq_one (by norm_num)]
      rw [half] at half_hi half_lo
      obtain ⟨ih_hi, ih_lo⟩ := ih (2 * acc + 1) halflow halfhigh
      push_cast at ih_hi ih_lo
      rw [pow_succ]
      exact ⟨by nlinarith, by nlinarith⟩
    · next hsmall =>
      obtain ⟨ih_hi, ih_lo⟩ := ih (2 * acc) ylow (not_le.1 hsmall)
      push_cast at ih_hi ih_lo
      rw [pow_succ]
      exact ⟨by nlinarith, by nlinarith⟩

end Sys2Proof.Approx

/-! The bound of `flog2` (R93; O32): where a last place might change between the reference and the exact value. -/

namespace Sys2Proof.Approx
open Machine Rounding Patterns Arithmetic

/-! ## The logarithm of a source -/

theorem placeOf_upper {fmt : Nat} {x : ℝ} {k : Int} (h : |x| < 2 ^ (k + 1 + fracBits fmt)) (hk : fmtLow fmt ≤ k) :
    placeOf fmt x ≤ k := by
  rw [placeOf]
  split
  · exact hk
  · next hx =>
    have := (Int.lt_zpow_iff_log_lt (b := 2) (by norm_num) (abs_pos.2 hx)).1 (by exact_mod_cast h)
    omega

theorem logb_one_add_ge {x : ℝ} (h0 : 0 ≤ x) (h1 : x ≤ 1) : x / 2 ≤ Real.logb 2 (1 + x) := by
  have log2 := log_two_lt_one
  have log2' := half_lt_log_two
  have := Real.one_sub_inv_le_log_of_pos (show 0 < 1 + x by linarith)
  have half : x / 2 ≤ 1 - (1 + x)⁻¹ := by
    rw [← sub_nonneg]
    have : 1 - (1 + x)⁻¹ - x / 2 = x * (1 - x) / (2 * (1 + x)) := by
      field_simp
      ring
    rw [this]
    exact div_nonneg (mul_nonneg h0 (by linarith)) (by linarith)
  rw [Real.logb, le_div_iff₀ (by linarith)]
  nlinarith

theorem logb_one_sub_le {x : ℝ} (h0 : 0 ≤ x) (h1 : x < 1) : Real.logb 2 (1 - x) ≤ -x := by
  have log2 := log_two_lt_one
  have log2' := half_lt_log_two
  have := Real.log_le_sub_one_of_pos (show 0 < 1 - x by linarith)
  rw [Real.logb, div_le_iff₀ (by linarith)]
  nlinarith

/-- The logarithm of a magnitude: the place of its leading bit, and a part below 1 that is 0 only for a power of two. -/
theorem logb_parts {m : Nat} (hm : m ≠ 0) (hm24 : m < 2 ^ 24) :
    (m = 2 ^ (bitLength m - 1) ∧ Real.logb 2 m = (bitLength m - 1 : Nat)) ∨
    (m ≠ 2 ^ (bitLength m - 1) ∧ (bitLength m - 1 : Nat) + 1 / 2 ^ 24 ≤ Real.logb 2 m ∧
      Real.logb 2 m ≤ (bitLength m - 1 : Nat) + 1 - 1 / 2 ^ 24) := by
  have lower := two_pow_bitLength_le hm
  have upper := lt_two_pow_bitLength m
  have few : bitLength m ≤ 24 := bitLength_le hm24
  have one := bitLength_pos hm
  obtain ⟨l, hl⟩ : ∃ l, bitLength m = l + 1 := ⟨bitLength m - 1, by omega⟩
  rw [hl] at lower upper few ⊢
  rw [Nat.add_sub_cancel] at lower ⊢
  have pow : (0 : ℝ) < 2 ^ l := by positivity
  have pos : (0 : ℝ) < m := by exact_mod_cast Nat.pos_of_ne_zero hm
  have logpow (k : Nat) : Real.logb 2 ((2 : ℝ) ^ k) = k := by rw [Real.logb_pow, Real.logb_self_eq_one (by norm_num), mul_one]
  by_cases heq : m = 2 ^ l
  · exact .inl ⟨heq, by rw [heq, Nat.cast_pow, Nat.cast_ofNat, logpow]⟩
  · refine .inr ⟨heq, ?_, ?_⟩
    · have more : (2 : ℝ) ^ l + 1 ≤ m := by exact_mod_cast Nat.succ_le_of_lt (lower.lt_of_ne (Ne.symm heq))
      have step : (2 : ℝ) ^ l * (1 + 1 / 2 ^ 23) ≤ m := by
        have : (2 : ℝ) ^ l ≤ 2 ^ 23 := pow_le_pow_right₀ (by norm_num) (by omega)
        rw [mul_add, mul_one, mul_one_div]
        exact (add_le_add_right ((div_le_one (by positivity)).2 this) _).trans more
      have := Real.logb_le_logb_of_le (b := 2) (by norm_num) (by positivity) step
      rw [Real.logb_mul (by positivity) (by positivity), logpow] at this
      have := logb_one_add_ge (x := 1 / 2 ^ 23) (by positivity) (by norm_num)
      norm_num at this ⊢
      linarith
    · have less : (m : ℝ) + 1 ≤ 2 ^ (l + 1) := by exact_mod_cast Nat.succ_le_of_lt upper
      have step : (m : ℝ) ≤ 2 ^ (l + 1) * (1 - 1 / 2 ^ 24) := by
        have : (2 : ℝ) ^ (l + 1) ≤ 2 ^ 24 := pow_le_pow_right₀ (by norm_num) (by omega)
        rw [mul_sub, mul_one, mul_one_div]
        have := (div_le_one (show (0 : ℝ) < 2 ^ 24 by positivity)).2 this
        linarith
      have := Real.logb_le_logb_of_le (b := 2) (by norm_num) pos step
      rw [Real.logb_mul (by positivity) (by norm_num), logpow] at this
      have := logb_one_sub_le (x := 1 / 2 ^ 24) (by positivity) (by norm_num)
      push_cast at *
      linarith

/-! ## Powers of two between a number and its logarithm's reference -/

/-- For each j the last of the 2^11 parts of 1 whose logarithm is at most -2^-j. -/
def lastBelow : Nat → Nat
  | 1 => 1448 | 2 => 1722 | 3 => 1878 | 4 => 1961 | 5 => 2004
  | 6 => 2025 | 7 => 2036 | 8 => 2042 | 9 => 2045 | _ => 2046

/-- Of the parts of 1 with 11 bits, none has a logarithm just above -2^-j. -/
theorem lastBelow_separates {j : Nat} (h1 : 1 ≤ j) (h10 : j ≤ 10) : 2 * lastBelow j ^ 2 ^ j ≤ 2048 ^ 2 ^ j ∧
    2048 ^ 2 ^ j * (2 ^ 40 + 1) ≤ 2 * (lastBelow j + 1) ^ 2 ^ j * 2 ^ 40 := by
  interval_cases j <;> decide +kernel

/-- Between the logarithm of a part of 1 and a number 2^-119 below it lies no power of two. -/
theorem no_power_between {M : Nat} (h0 : 2 ^ 10 ≤ M) (h1 : M < 2 ^ 11) {k : Int}
    (h : (2 : ℝ) ^ k ≤ -Real.logb 2 (M / 2048) + 1 / 2 ^ 119) (hk : k < 0) : (2 : ℝ) ^ k ≤ -Real.logb 2 (M / 2048) := by
  have pos : (0 : ℝ) < M / 2048 := by
    have : 0 < M := lt_of_lt_of_le (by norm_num) h0
    positivity
  have one_le : 1 / 2 ^ 11 ≤ -Real.logb 2 ((M : ℝ) / 2048) := by
    have step : (M : ℝ) / 2048 ≤ 1 - 1 / 2 ^ 11 := by
      have : (M : ℝ) + 1 ≤ 2 ^ 11 := by exact_mod_cast h1
      rw [div_le_iff₀ (by norm_num)]
      linarith
    have := Real.logb_le_logb_of_le (b := 2) (by norm_num) pos step
    have := logb_one_sub_le (x := 1 / 2 ^ 11) (by positivity) (by norm_num)
    linarith
  rcases le_or_gt k (-11) with hsmall | hlarge
  · refine le_trans (zpow_le_zpow_right₀ (by norm_num) hsmall) (le_trans (by norm_num) one_le)
  obtain ⟨j, rfl⟩ : ∃ j : Nat, k = -j := ⟨(-k).toNat, by omega⟩
  obtain ⟨below, above⟩ := lastBelow_separates (j := j) (by omega) (by omega)
  have pow : (0 : ℝ) < 2 ^ j := by positivity
  have scaled : Real.logb 2 (((M : ℝ) / 2048) ^ 2 ^ j) = 2 ^ j * Real.logb 2 (M / 2048) := by
    rw [Real.logb_pow]
    push_cast
    rfl
  rw [zpow_neg, zpow_natCast] at h ⊢
  rw [inv_le_iff_one_le_mul₀ pow]
  rcases Nat.lt_or_ge (lastBelow j) M with hM | hM
  · have far : (1 : ℝ) / 2 * (1 + 1 / 2 ^ 40) ≤ (M / 2048) ^ 2 ^ j := by
      have : 2048 ^ 2 ^ j * (2 ^ 40 + 1) ≤ 2 * M ^ 2 ^ j * 2 ^ 40 :=
        above.trans (Nat.mul_le_mul_right _ (Nat.mul_le_mul_left _ (Nat.pow_le_pow_left hM _)))
      have : (2048 : ℝ) ^ 2 ^ j * (2 ^ 40 + 1) ≤ 2 * M ^ 2 ^ j * 2 ^ 40 := by exact_mod_cast this
      rw [div_pow, le_div_iff₀ (by positivity)]
      linarith
    have := Real.logb_le_logb_of_le (b := 2) (by norm_num) (by positivity) far
    rw [scaled, Real.logb_mul (by norm_num) (by positivity)] at this
    have half : Real.logb 2 (1 / 2 : ℝ) = -1 := by
      rw [one_div, Real.logb_inv, Real.logb_self_eq_one (by norm_num)]
    have gap := logb_one_add_ge (x := 1 / 2 ^ 40) (by positivity) (by norm_num)
    rw [half] at this
    have hj : (2 : ℝ) ^ j ≤ 2 ^ 10 := pow_le_pow_right₀ (by norm_num) (by omega)
    rw [inv_le_iff_one_le_mul₀ pow] at h
    nlinarith
  · have : 2 * M ^ 2 ^ j ≤ 2048 ^ 2 ^ j := (Nat.mul_le_mul_left _ (Nat.pow_le_pow_left hM _)).trans below
    have : 2 * (M : ℝ) ^ 2 ^ j ≤ 2048 ^ 2 ^ j := by exact_mod_cast this
    have near : ((M : ℝ) / 2048) ^ 2 ^ j ≤ 1 / 2 := by
      rw [div_pow, div_le_iff₀ (by positivity)]
      linarith
    have := Real.logb_le_logb_of_le (b := 2) (by norm_num) (by positivity) near
    rw [scaled, one_div, Real.logb_inv, Real.logb_self_eq_one (by norm_num)] at this
    linarith

end Sys2Proof.Approx

/-! The bound of `flog2` (R93; O32). -/

namespace Sys2Proof.Approx
open Machine Rounding Patterns Arithmetic

/-- The reference that `flog2` is held to. -/
def logRef (m : Nat) (e : Int) : Machine.Dyadic :=
  ⟨(e + (bitLength m - 1 : Nat)) * 2 ^ 120 + log2Digits 120 (m * 2 ^ (160 - (bitLength m - 1))) 0, -120⟩

theorem logb_two_zpow (e : Int) : Real.logb 2 ((2 : ℝ) ^ e) = e := by
  rw [Real.logb, Real.log_zpow, mul_div_assoc, div_self (Real.log_pos (by norm_num)).ne', mul_one]

/-- The parts of the reference and of the exact logarithm: the same integer, the same number for a power of two, and else
fractions that are near to each other and away from 0 and 1. -/
theorem logRef_parts {m : Nat} (hm : m ≠ 0) (hm24 : m < 2 ^ 24) (e : Int) :
    ((m = 2 ^ (bitLength m - 1) ∧ real (logRef m e) = Real.logb 2 (m * 2 ^ e) ∧
      Real.logb 2 ((m : ℝ) * 2 ^ e) = (e + (bitLength m - 1 : Nat) : Int)) ∨
    (m ≠ 2 ^ (bitLength m - 1) ∧ Real.logb 2 (m * 2 ^ e) - 1 / 2 ^ 119 ≤ real (logRef m e) ∧
      real (logRef m e) ≤ Real.logb 2 (m * 2 ^ e) ∧
      (e + (bitLength m - 1 : Nat) : Int) + 1 / 2 ^ 24 ≤ Real.logb 2 ((m : ℝ) * 2 ^ e) ∧
      Real.logb 2 ((m : ℝ) * 2 ^ e) ≤ (e + (bitLength m - 1 : Nat) : Int) + 1 - 1 / 2 ^ 24)) := by
  have lower := two_pow_bitLength_le hm
  have upper := lt_two_pow_bitLength m
  have few : bitLength m ≤ 24 := bitLength_le hm24
  have one := bitLength_pos hm
  have parts := logb_parts hm hm24
  rw [logRef]
  obtain ⟨l, hl⟩ : ∃ l, bitLength m = l + 1 := ⟨bitLength m - 1, by omega⟩
  rw [hl] at lower upper few parts ⊢
  rw [Nat.add_sub_cancel] at lower parts ⊢
  have pos : (0 : ℝ) < m := by exact_mod_cast Nat.pos_of_ne_zero hm
  have split : 160 = l + (160 - l) := by omega
  have start : 2 ^ 160 ≤ m * 2 ^ (160 - l) := by
    rw [split, pow_add, ← split]
    exact Nat.mul_le_mul_right _ lower
  have start' : m * 2 ^ (160 - l) < 2 ^ 161 := by
    calc m * 2 ^ (160 - l) < 2 ^ (l + 1) * 2 ^ (160 - l) := Nat.mul_lt_mul_of_pos_right upper (Nat.two_pow_pos _)
      _ = 2 ^ 161 := by rw [← pow_add]; congr 1; omega
  obtain ⟨digits_hi, digits_lo⟩ := log2Digits_between 120 0 start start'
  have logpow (k : Nat) : Real.logb 2 ((2 : ℝ) ^ k) = k := by rw [Real.logb_pow, Real.logb_self_eq_one (by norm_num), mul_one]
  have fraction : Real.logb 2 ((m * 2 ^ (160 - l) : Nat) : ℝ) - 160 = Real.logb 2 m - l := by
    rw [Nat.cast_mul, Nat.cast_pow, Nat.cast_ofNat, Real.logb_mul pos.ne' (by positivity), logpow, Nat.cast_sub (by omega)]
    push_cast
    ring
  rw [fraction, Nat.cast_zero, zero_add] at digits_hi digits_lo
  generalize log2Digits 120 (m * 2 ^ (160 - l)) 0 = D at *
  have whole : Real.logb 2 ((m : ℝ) * 2 ^ e) = Real.logb 2 m + e := by
    rw [Real.logb_mul pos.ne' (by positivity), logb_two_zpow]
  have value : real ⟨(e + l) * 2 ^ 120 + D, -120⟩ = e + l + D / 2 ^ 120 := by
    rw [real, show (-120 : Int) = -(120 : Nat) by norm_num, zpow_neg, zpow_natCast]
    push_cast
    field_simp
    norm_num
  rw [whole, value]
  push_cast
  obtain ⟨heq, hlog⟩ | ⟨hne, hlo, hhi⟩ := parts
  · refine .inl ⟨heq, ?_, by rw [hlog]; ring⟩
    rw [hlog, sub_self, mul_zero] at digits_hi
    have : (D : ℝ) = 0 := le_antisymm digits_hi (Nat.cast_nonneg D)
    rw [this, hlog]
    ring
  · refine .inr ⟨hne, ?_, ?_, by linarith, by linarith⟩
    · have : (2 : ℝ) ^ 120 * (Real.logb 2 m - l) - 2 ≤ D := by
        have : ((2 : ℝ) ^ 120 - 1) / 2 ^ 158 ≤ 1 := by norm_num
        linarith
      have : Real.logb 2 m - l - 2 / 2 ^ 120 ≤ D / 2 ^ 120 := by
        rw [le_div_iff₀ (by positivity)]
        linarith
      norm_num at this ⊢
      linarith
    · have : (D : ℝ) / 2 ^ 120 ≤ Real.logb 2 m - l := by
        rw [div_le_iff₀ (by positivity)]
        linarith
      linarith

/-- The last place of the reference is not above that of the exact logarithm; between 1/2 and 1 this needs a format of at most
11 bits. -/
theorem logRef_place {fmt m : Nat} (hm : m ≠ 0) (hm24 : m < 2 ^ 24) (e : Int)
    (hnear : e + (bitLength m - 1 : Nat) = -1 → ∃ M : Nat, 2 ^ 10 ≤ M ∧ M < 2 ^ 11 ∧ (m : ℝ) * 2 ^ e = M / 2048) :
    placeOf fmt (real (logRef m e)) ≤ placeOf fmt (Real.logb 2 (m * 2 ^ e)) := by
  obtain ⟨-, same, -⟩ | ⟨-, near, below, floor, ceil⟩ := logRef_parts hm hm24 e
  · rw [same]
  generalize e + (bitLength m - 1 : Nat) = N at *
  set v := real (logRef m e)
  set x := Real.logb 2 ((m : ℝ) * 2 ^ e) with hx
  rcases lt_or_ge N 0 with hN | hN
  · have hN' : (N : ℝ) + 1 ≤ 0 := by exact_mod_cast hN
    have xneg : x < 0 := by
      have : (0 : ℝ) < 1 / 2 ^ 24 := by positivity
      linarith
    have vneg : v < 0 := by linarith
    have power : (2 : ℝ) ^ Int.log 2 |v| ≤ -x := by
      have power := Int.zpow_log_le_self (b := 2) (by norm_num) (abs_pos.2 vneg.ne)
      rw [abs_of_neg vneg, Nat.cast_ofNat] at power
      rw [abs_of_neg vneg]
      have small : (1 : ℝ) / 2 ^ 119 < 1 / 2 ^ 24 := by norm_num
      rcases lt_or_ge (Int.log 2 (-v)) 0 with hk | hk
      · rcases eq_or_lt_of_le (show N ≤ -1 by omega) with h1 | h1
        · obtain ⟨M, h10, h11, hM⟩ := hnear h1
          rw [hx, hM]
          refine no_power_between h10 h11 ?_ hk
          rw [← hM, ← hx]
          linarith
        · have : (N : ℝ) ≤ -2 := by exact_mod_cast (show N ≤ -2 by omega)
          have : (2 : ℝ) ^ Int.log 2 (-v) ≤ 2 ^ (0 : Int) := zpow_le_zpow_right₀ (by norm_num) hk.le
          rw [zpow_zero] at this
          have : (0 : ℝ) < 1 / 2 ^ 24 := by positivity
          linarith
      · obtain ⟨k, hk'⟩ := Int.eq_ofNat_of_zero_le hk
        rw [hk', zpow_natCast] at power ⊢
        have : ((2 ^ k : Int) : ℝ) < ((-N : Int) : ℝ) := by
          push_cast
          linarith
        have : (2 : Int) ^ k ≤ -N - 1 := by
          have : (2 : Int) ^ k < -N := by exact_mod_cast this
          omega
        have : ((2 : ℝ)) ^ k ≤ -N - 1 := by exact_mod_cast this
        have : (0 : ℝ) < 1 / 2 ^ 24 := by positivity
        linarith
    rw [placeOf, placeOf, if_neg vneg.ne, if_neg xneg.ne]
    have := (Int.zpow_le_iff_le_log (b := 2) (by norm_num) (abs_pos.2 xneg.ne)).1
      (by rw [abs_of_neg xneg]; exact_mod_cast power)
    omega
  · refine placeOf_mono fmt ?_
    have : (0 : ℝ) ≤ N := by exact_mod_cast hN
    have small : (1 : ℝ) / 2 ^ 119 < 1 / 2 ^ 24 := by norm_num
    rw [abs_of_nonneg (by linarith), abs_of_nonneg (by linarith)]
    exact below

/-- A magnitude between the powers of two of its leading bit. -/
theorem leading_bit {m : Nat} (hm : m ≠ 0) (e : Int) : (2 : ℝ) ^ (e + (bitLength m - 1 : Nat)) ≤ m * 2 ^ e ∧
    (m : ℝ) * 2 ^ e < 2 ^ (e + (bitLength m - 1 : Nat) + 1) ∧
    (m = 2 ^ (bitLength m - 1) → (m : ℝ) * 2 ^ e = 2 ^ (e + (bitLength m - 1 : Nat))) ∧
    (m ≠ 2 ^ (bitLength m - 1) → (2 : ℝ) ^ (e + (bitLength m - 1 : Nat)) < m * 2 ^ e) := by
  have lower := two_pow_bitLength_le hm
  have upper := lt_two_pow_bitLength m
  have one := bitLength_pos hm
  obtain ⟨l, hl⟩ : ∃ l, bitLength m = l + 1 := ⟨bitLength m - 1, by omega⟩
  rw [hl] at lower upper ⊢
  rw [Nat.add_sub_cancel] at lower ⊢
  have unit : (0 : ℝ) < 2 ^ e := by positivity
  have place : (2 : ℝ) ^ (e + l) = 2 ^ l * 2 ^ e := by rw [add_comm, zpow_add₀ (by norm_num), zpow_natCast]
  rw [zpow_add_one₀ (by norm_num), place]
  have lower' : (2 : ℝ) ^ l ≤ m := by exact_mod_cast lower
  have upper' : (m : ℝ) < 2 ^ l * 2 := by rw [← pow_succ]; exact_mod_cast upper
  refine ⟨mul_le_mul_of_nonneg_right lower' unit.le, by nlinarith, fun h => ?_, fun h => ?_⟩
  · rw [show (m : ℝ) = 2 ^ l by exact_mod_cast h]
  · exact mul_lt_mul_of_pos_right (by exact_mod_cast lower.lt_of_ne (Ne.symm h)) unit

/-- The model's test of a source between 1/2 and 2. -/
theorem near_iff {m : Nat} (hm : m ≠ 0) (e : Int) :
    (e + (bitLength m - 1 : Nat) = -1 || e + (bitLength m - 1 : Nat) = 0 ||
      (e + (bitLength m - 1 : Nat) = 1 && m = 2 ^ (bitLength m - 1))) = true ↔ 1 / 2 ≤ (m : ℝ) * 2 ^ e ∧ (m : ℝ) * 2 ^ e ≤ 2 := by
  obtain ⟨lower, upper, equal, above⟩ := leading_bit hm e
  generalize e + (bitLength m - 1 : Nat) = N at *
  have mono {p q : Int} (h : p ≤ q) : (2 : ℝ) ^ p ≤ 2 ^ q := zpow_le_zpow_right₀ (by norm_num) h
  simp only [Bool.or_eq_true, Bool.and_eq_true, decide_eq_true_eq]
  constructor
  · rintro ((rfl | rfl) | ⟨rfl, h⟩)
    · norm_num at lower upper ⊢
      constructor <;> linarith
    · norm_num at lower upper ⊢
      constructor <;> linarith
    · rw [equal h]
      norm_num
  · rintro ⟨h1, h2⟩
    rcases lt_or_ge N (-1) with hN | hN
    · have := mono (show N + 1 ≤ -1 by omega)
      norm_num at this
      linarith
    rcases lt_or_ge 1 N with hN' | hN'
    · have := mono (show 2 ≤ N by omega)
      norm_num at this
      linarith
    by_cases h : N = 1
    · refine .inr ⟨h, ?_⟩
      by_contra hne
      have := above hne
      rw [h] at this
      norm_num at this
      linarith
    · omega

/-- The logarithm of a finite source is within ±150. -/
theorem abs_logb_le {fmt x m : Nat} {neg : Bool} {e : Int} (hf : fmt < 3) (h : Holds fmt x neg m e) (hm : m ≠ 0) :
    |Real.logb 2 ((m : ℝ) * 2 ^ e)| ≤ 150 := by
  have pos : (0 : ℝ) < m := by exact_mod_cast Nat.pos_of_ne_zero hm
  have one : (1 : ℝ) ≤ m := by exact_mod_cast Nat.pos_of_ne_zero hm
  have lower : (2 : ℝ) ^ (-149 : Int) ≤ m * 2 ^ e :=
    (zpow_le_zpow_right₀ (by norm_num) (h.low_le hf)).trans (le_mul_of_one_le_left (by positivity) one)
  have upper : (m : ℝ) * 2 ^ e ≤ 2 ^ (128 : Int) := by
    have below := (h.magnitude ▸ (magnitude_strictMono fmt h.code)).le.trans (magnitude_infBits_le hf)
    have := (Rat.cast_le (K := ℝ)).2 below
    push_cast at this
    exact this
  have lo := Real.logb_le_logb_of_le (b := 2) (by norm_num) (by positivity) lower
  have hi := Real.logb_le_logb_of_le (b := 2) (by norm_num) (by positivity) upper
  rw [logb_two_zpow] at lo hi
  push_cast at lo hi
  exact abs_le.2 ⟨by linarith, by linarith⟩

/-- The exact logarithm is that of the reference, or its last place is far above the distance to it. -/
theorem logRef_near {fmt m : Nat} (hf : fmt < 3) (hm : m ≠ 0) (hm24 : m < 2 ^ 24) (e : Int) :
    |real (logRef m e) - Real.logb 2 (m * 2 ^ e)| ≤ 2 ^ placeOf fmt (Real.logb 2 ((m : ℝ) * 2 ^ e)) / 2 := by
  have frac := fracBits_le hf
  obtain ⟨-, same, -⟩ | ⟨-, near, below, floor, ceil⟩ := logRef_parts hm hm24 e
  · rw [same, sub_self, abs_zero]
    positivity
  generalize e + (bitLength m - 1 : Nat) = N at *
  have large : (1 : ℝ) / 2 ^ 24 ≤ |Real.logb 2 ((m : ℝ) * 2 ^ e)| := by
    rcases lt_or_ge N 0 with hN | hN
    · have : (N : ℝ) + 1 ≤ 0 := by exact_mod_cast hN
      exact le_abs.2 (.inr (by linarith))
    · have : (0 : ℝ) ≤ N := by exact_mod_cast hN
      exact le_abs.2 (.inl (by linarith))
  have place : -47 ≤ placeOf fmt (Real.logb 2 ((m : ℝ) * 2 ^ e)) := by
    rw [← placeOf_abs]
    refine placeOf_lower (lt_of_lt_of_le (by positivity) large) (le_trans ?_ large)
    refine (zpow_le_zpow_right₀ (by norm_num) (show -47 + (fracBits fmt : Int) ≤ -24 by omega)).trans ?_
    norm_num
  have := zpow_le_zpow_right₀ (by norm_num : (1 : ℝ) ≤ 2) place
  rw [abs_of_nonpos (by linarith)]
  norm_num at this near ⊢
  linarith

/-- `flog2` of a positive source. -/
theorem log2Bits_within {fmt src m : Nat} {neg : Bool} {e : Int} (hf : fmt < 3) (hu : unpack fmt src = .fin neg m e)
    (ha : 0 < (FVal.fin neg m e).number) :
    if fmt = 0 ∧ 1 / 2 ≤ ((FVal.fin neg m e).number : ℝ) ∧ ((FVal.fin neg m e).number : ℝ) ≤ 2
    then FiniteWithin fmt (log2Bits fmt src) (Real.logb 2 ((FVal.fin neg m e).number : ℝ)) (2 ^ (-22 : Int))
    else WithinUlps fmt (log2Bits fmt src) (if fmt = 0 then 2 else 1) (Real.logb 2 ((FVal.fin neg m e).number : ℝ)) := by
  have holds := holds_of_unpack hf hu
  obtain ⟨rfl, hm⟩ := positive_of_number ha
  have frac := fracBits_le hf
  have hm24 : m < 2 ^ 24 := holds.upper.trans_le (Nat.pow_le_pow_right (by omega) (by omega))
  rw [number_pos_real]
  have bits : log2Bits fmt src = approxBits 0x04D fmt src (logRef m e)
      (if fmt = 0 && (e + (bitLength m - 1 : Nat) = -1 || e + (bitLength m - 1 : Nat) = 0 ||
        (e + (bitLength m - 1 : Nat) = 1 && m = 2 ^ (bitLength m - 1))) then ⟨1, -22⟩
       else ulps fmt (if fmt = 0 then 2 else 1) (logRef m e)) ⟨16, -120⟩ := by
    rw [log2Bits, hu]
    simp only [if_neg hm, Bool.false_eq_true, if_false]
    rfl
  have slack : real ⟨16, -120⟩ = 16 / 2 ^ 120 := by
    simp only [real]
    norm_num
  have dist : |real (logRef m e) - Real.logb 2 (m * 2 ^ e)| ≤ 1 / 2 ^ 119 := by
    obtain ⟨-, same, -⟩ | ⟨-, near, below, -, -⟩ := logRef_parts hm hm24 e
    · rw [same, sub_self, abs_zero]
      positivity
    · rw [abs_of_nonpos (by linarith)]
      linarith
  have hmax : |real (logRef m e)| ≤ (magnitude fmt (infBits fmt - 1) : Rat) := by
    have bias : (2 : ℝ) ^ 15 ≤ 2 ^ fmtBias fmt := pow_le_pow_right₀ (by norm_num) (by interval_cases fmt <;> decide)
    have := abs_logb_le hf holds hm
    have := abs_sub_abs_le_abs_sub (real (logRef m e)) (Real.logb 2 (m * 2 ^ e))
    refine le_trans ?_ (bias.trans (two_pow_bias_le hf))
    norm_num at dist ⊢
    linarith
  rw [bits]
  by_cases hnear : fmt = 0 ∧ 1 / 2 ≤ (m : ℝ) * 2 ^ e ∧ (m : ℝ) * 2 ^ e ≤ 2
  · rw [if_pos hnear, if_pos (by rw [Bool.and_eq_true, near_iff hm e]; exact ⟨decide_eq_true hnear.1, hnear.2⟩)]
    obtain ⟨rfl, h1, h2⟩ := hnear
    refine approxBits_absolute hf hmax (by simp [real]) (dist.trans ?_) ?_
    · rw [slack]
      norm_num
    · have lo := Real.logb_le_logb_of_le (b := 2) (by norm_num) (by norm_num) h1
      have hi := Real.logb_le_logb_of_le (b := 2) (by norm_num) (by linarith) h2
      rw [Real.logb_self_eq_one (by norm_num)] at hi
      rw [one_div, Real.logb_inv, Real.logb_self_eq_one (by norm_num)] at lo
      have place : placeOf 0 (real (logRef m e)) ≤ -23 := by
        refine placeOf_upper ?_ (by decide)
        obtain ⟨d1, d2⟩ := abs_le.1 dist
        norm_num [fracBits] at d1 d2 ⊢
        exact abs_lt.2 ⟨by linarith, by linarith⟩
      have := zpow_le_zpow_right₀ (by norm_num : (1 : ℝ) ≤ 2) place
      norm_num at this dist ⊢
      linarith
  · rw [if_neg hnear, if_neg (by rw [Bool.and_eq_true, near_iff hm e]; simpa using hnear)]
    refine approxBits_ulps hf (by split <;> omega) hmax (dist.trans ?_) (logRef_place hm hm24 e fun hN => ?_)
      (logRef_near hf hm hm24 e)
    · rw [slack]
      norm_num
    · have h0 : fmt ≠ 0 := fun h => hnear ⟨h, (near_iff hm e).1 (by simp [hN])⟩
      have lower := two_pow_bitLength_le hm
      have upper := lt_two_pow_bitLength m
      have one := bitLength_pos hm
      have few : bitLength m ≤ 11 := by
        refine (bitLength_le holds.upper).trans ?_
        obtain rfl | rfl : fmt = 1 ∨ fmt = 2 := by omega
        · decide
        · decide
      refine ⟨m * 2 ^ (11 - bitLength m), ?_, ?_, ?_⟩
      · calc 2 ^ 10 = 2 ^ (bitLength m - 1) * 2 ^ (11 - bitLength m) := by rw [← pow_add]; congr 1; omega
          _ ≤ _ := Nat.mul_le_mul_right _ lower
      · calc m * 2 ^ (11 - bitLength m) < 2 ^ bitLength m * 2 ^ (11 - bitLength m) :=
              Nat.mul_lt_mul_of_pos_right upper (Nat.two_pow_pos _)
          _ = 2 ^ 11 := by rw [← pow_add]; congr 1; omega
      · rw [show e = ((11 - bitLength m : Nat) : Int) - 11 by omega, zpow_sub₀ (by norm_num), zpow_natCast]
        push_cast
        norm_num
        ring

end Sys2Proof.Approx

/-! The bound of `fexp2` (R93; O32): the exponential series, and the reference. -/

namespace Sys2Proof.Approx
open Machine Rounding Patterns Arithmetic

/-! ## The natural logarithm of 2 -/

theorem ln2_128_le : (ln2_128 : ℝ) / 2 ^ 128 ≤ Real.log 2 := by
  rw [Real.le_log_iff_exp_le (by norm_num)]
  refine (Real.exp_bound' (by positivity) (by norm_num [ln2_128]) (n := 36) (by norm_num)).trans ?_
  norm_num [Finset.sum_range_succ, Nat.factorial, ln2_128]

theorem le_ln2_128 : Real.log 2 ≤ ((ln2_128 : ℝ) + 1) / 2 ^ 128 := by
  rw [Real.log_le_iff_le_exp (by norm_num)]
  refine le_trans ?_ (Real.sum_le_exp_of_nonneg (by positivity) 36)
  norm_num [Finset.sum_range_succ, Nat.factorial, ln2_128]

/-! ## The series of `fexp2` -/

/-- The terms that `expSeries` cuts to integers. -/
noncomputable def expSum (z : ℝ) : Nat → Nat → ℝ → ℝ
  | 0, _, _ => 0
  | n + 1, i, t => t + expSum z n (i + 1) (t * z / i)

theorem expSum_eq (z c : ℝ) (n k : Nat) :
    expSum z n (k + 1) (c * (z ^ k / k.factorial)) = c * ∑ j ∈ Finset.range n, z ^ (k + j) / (k + j).factorial := by
  induction n generalizing k with
  | zero => simp [expSum]
  | succ n ih =>
    have next : c * (z ^ k / k.factorial) * z / ((k + 1 : Nat) : ℝ) = c * (z ^ (k + 1) / (k + 1).factorial) := by
      rw [Nat.factorial_succ, pow_succ]
      push_cast
      field_simp
    rw [expSum, next, ih, Finset.sum_range_succ', mul_add, add_zero, add_comm]
    congr 3
    ext j
    rw [show k + 1 + j = k + (j + 1) by ring]

/-- Each term is cut by less than 8, and the sum by as much for each term. -/
theorem expSeries_between {y : Nat} (hy : (y : ℝ) / 2 ^ 128 ≤ 3 / 4) (n : Nat) {i term : Nat} {t : ℝ} (hi : 1 ≤ i)
    (lower : (term : ℝ) ≤ t) (upper : t ≤ term + 8) :
    (expSeries y n i term : ℝ) ≤ expSum (y / 2 ^ 128) n i t ∧
      expSum (y / 2 ^ 128) n i t ≤ expSeries y n i term + 8 * n := by
  induction n generalizing i term t with
  | zero => simp [expSeries, expSum]
  | succ n ih =>
    set z := (y : ℝ) / 2 ^ 128 with hz
    have z0 : 0 ≤ z := by positivity
    have i1 : (1 : ℝ) ≤ i := by exact_mod_cast hi
    have i0 : (0 : ℝ) < i := by linarith
    obtain ⟨lo1, up1⟩ := natDiv_between (term * y) (Nat.two_pow_pos 128)
    obtain ⟨lo2, up2⟩ := natDiv_between (term * y / 2 ^ 128) (show 0 < i by omega)
    have scaled : ((term * y : Nat) : ℝ) / (2 ^ 128 : Nat) = term * z := by
      rw [hz, Nat.cast_mul, Nat.cast_pow, Nat.cast_ofNat]
      ring
    rw [scaled] at lo1 up1
    have less : ((term * y / 2 ^ 128 / i : Nat) : ℝ) ≤ t * z / i :=
      lo2.trans (div_le_div_of_nonneg_right (lo1.trans (mul_le_mul_of_nonneg_right lower z0)) i0.le)
    have more : t * z / i ≤ (term * y / 2 ^ 128 / i : Nat) + 8 := by
      have rest : t * z ≤ (term * y / 2 ^ 128 : Nat) + 7 := by nlinarith
      have : t * z / i ≤ (term * y / 2 ^ 128 : Nat) / (i : ℝ) + 7 := by
        rw [div_le_iff₀ i0, add_mul, div_mul_cancel₀ _ i0.ne']
        nlinarith
      linarith
    obtain ⟨ih_lo, ih_hi⟩ := ih (i := i + 1) (by omega) less more
    rw [expSeries, expSum]
    push_cast
    exact ⟨by linarith, by linarith⟩

/-- The series gives 2 to the power of a fraction, less at most 2^10 units. -/
theorem exp2Frac_between {f : Nat} (hf : f < 2 ^ 128) :
    (exp2Frac f : ℝ) ≤ 2 ^ 128 * (2 : ℝ) ^ ((f : ℝ) / 2 ^ 128) ∧
      2 ^ 128 * (2 : ℝ) ^ ((f : ℝ) / 2 ^ 128) ≤ exp2Frac f + 2 ^ 10 := by
  rw [exp2Frac]
  set y := f * ln2_128 / 2 ^ 128 with hy
  obtain ⟨ylo, yup⟩ := natDiv_between (f * ln2_128) (Nat.two_pow_pos 128)
  rw [← hy, Nat.cast_mul, Nat.cast_pow, Nat.cast_ofNat] at ylo yup
  set z := (y : ℝ) / 2 ^ 128 with hz
  set u := (f : ℝ) / 2 ^ 128 with hu
  have u0 : 0 ≤ u := by positivity
  have u1 : u ≤ 1 := (div_le_one (by positivity)).2 (by exact_mod_cast hf.le)
  have z0 : 0 ≤ z := by positivity
  have ln_lo := ln2_128_le
  have ln_hi := le_ln2_128
  have ln_three : (ln2_128 : ℝ) / 2 ^ 128 ≤ 3 / 4 := by norm_num [ln2_128]
  have zy : (y : ℝ) ≤ u * ln2_128 := by
    rw [hu, div_mul_eq_mul_div]
    exact ylo
  have z_le : z ≤ u * (ln2_128 / 2 ^ 128) := by
    rw [hz, ← mul_div_assoc]
    exact div_le_div_of_nonneg_right zy (by positivity)
  have z34 : z ≤ 3 / 4 := z_le.trans (by nlinarith)
  have z_log : z ≤ Real.log 2 * u := by nlinarith
  have z_near : Real.log 2 * u - z ≤ 2 / 2 ^ 128 := by
    have : u * ln2_128 < y + 1 := by
      rw [hu, div_mul_eq_mul_div]
      exact yup
    have : u * (ln2_128 / 2 ^ 128) < z + 1 / 2 ^ 128 := by
      rw [hz, ← mul_div_assoc, ← add_div]
      exact div_lt_div_of_pos_right this (by positivity)
    have : Real.log 2 * u ≤ u * (ln2_128 / 2 ^ 128) + 1 / 2 ^ 128 := by
      rw [add_div] at ln_hi
      nlinarith
    linarith
  have power : (2 : ℝ) ^ u = Real.exp (Real.log 2 * u) := Real.rpow_def_of_pos (by norm_num) u
  have sum : expSum z 40 1 (2 ^ 128) = 2 ^ 128 * ∑ j ∈ Finset.range 40, z ^ j / j.factorial := by
    simpa using expSum_eq z (2 ^ 128) 40 0
  obtain ⟨series_lo, series_hi⟩ := expSeries_between z34 40 (i := 1) (term := 2 ^ 128) (t := 2 ^ 128) le_rfl (by norm_num) (by norm_num)
  rw [sum] at series_lo series_hi
  have exp_lo := Real.sum_le_exp_of_nonneg z0 40
  have exp_hi := Real.exp_bound' z0 (z34.trans (by norm_num)) (n := 40) (by norm_num)
  have tail : z ^ 40 * ((40 : Nat) + 1) / ((40 : Nat).factorial * (40 : Nat)) ≤ 1 / 2 ^ 128 := by
    have : z ^ 40 ≤ 1 := pow_le_one₀ z0 (by linarith)
    rw [div_le_div_iff₀ (by positivity) (by positivity)]
    refine le_trans (mul_le_mul_of_nonneg_right (mul_le_mul_of_nonneg_right this (by positivity)) (by positivity)) ?_
    norm_num [Nat.factorial]
  have two : Real.exp (Real.log 2 * u) ≤ 2 := by
    rw [← power]
    exact (Real.rpow_le_rpow_of_exponent_le (by norm_num) u1).trans_eq (Real.rpow_one 2)
  have loss : Real.exp (Real.log 2 * u) * (1 - (Real.log 2 * u - z)) ≤ Real.exp z := by
    have := Real.add_one_le_exp (-(Real.log 2 * u - z))
    rw [show z = Real.log 2 * u + -(Real.log 2 * u - z) by ring, Real.exp_add]
    exact mul_le_mul_of_nonneg_left (by linarith) (Real.exp_pos _).le
  have rise : Real.exp z ≤ Real.exp (Real.log 2 * u) := Real.exp_le_exp.2 z_log
  rw [power]
  have near : Real.exp (Real.log 2 * u) ≤ Real.exp z + 4 / 2 ^ 128 := by
    have : Real.exp (Real.log 2 * u) * (Real.log 2 * u - z) ≤ 2 * (2 / 2 ^ 128) :=
      mul_le_mul two z_near (by linarith) (by norm_num)
    linarith
  rw [show ((40 : Nat) : ℝ) = 40 by norm_num] at series_hi
  generalize z ^ 40 * ((40 : Nat) + 1) / ((40 : Nat).factorial * (40 : Nat)) = t at exp_hi tail
  generalize ∑ j ∈ Finset.range 40, z ^ j / (j.factorial : ℝ) = sum at *
  generalize (expSeries y 40 1 (2 ^ 128) : ℝ) = series at *
  constructor
  · linarith
  · linarith

end Sys2Proof.Approx

/-! The bound of `fexp2` (R93; O32). -/

namespace Sys2Proof.Approx
open Machine Rounding Patterns Arithmetic

/-! ## The source in 128 fraction bits -/

theorem intDiv_between (x : Int) {n : Nat} (hn : 0 < n) :
    ((x / (n : Int) : Int) : ℝ) ≤ (x : ℝ) / n ∧ (x : ℝ) / n < ((x / (n : Int) : Int) : ℝ) + 1 := by
  have hn' : (0 : ℝ) < n := by exact_mod_cast hn
  have hn'' : (0 : Int) < n := by exact_mod_cast hn
  rw [le_div_iff₀ hn', div_lt_iff₀ hn']
  constructor
  · exact_mod_cast Int.ediv_mul_le x hn''.ne'
  · exact_mod_cast Int.lt_ediv_add_one_mul_self x hn''

/-- A source that is not cut, rounded down to 128 fraction bits. -/
theorem fixed128_between (neg : Bool) {m : Nat} {e : Int} (h : e + bitLength m ≤ 12) :
    (fixed128 neg m e : ℝ) ≤ ((FVal.fin neg m e).number : ℝ) * 2 ^ 128 ∧
      ((FVal.fin neg m e).number : ℝ) * 2 ^ 128 < fixed128 neg m e + 1 := by
  have value : ((FVal.fin neg m e).number : ℝ) * 2 ^ 128 = ((if neg then -(m : Int) else m : Int) : ℝ) * 2 ^ (e + 128) := by
    rw [FVal.number, zpow_add₀ (by norm_num), show (128 : Int) = (128 : Nat) by norm_num, zpow_natCast]
    cases neg with
    | false => simp only [Bool.false_eq_true, if_false]; push_cast; ring
    | true => simp only [if_true]; push_cast; ring
  rw [value, fixed128]
  generalize (if neg then -(m : Int) else m : Int) = x
  split
  · next he =>
    rw [if_neg (by omega)]
    have : (((x * 2 ^ (e + 128).toNat : Int)) : ℝ) = x * 2 ^ (e + 128) := by
      rw [← Int.toNat_of_nonneg he, zpow_natCast, Int.toNat_natCast]
      push_cast
      rfl
    rw [this]
    exact ⟨le_rfl, by linarith⟩
  · next he =>
    have := intDiv_between x (Nat.two_pow_pos (-(e + 128)).toNat)
    have scale : (x : ℝ) * 2 ^ (e + 128) = x / (2 ^ (-(e + 128)).toNat : Nat) := by
      rw [Nat.cast_pow, ← zpow_natCast, Int.toNat_of_nonneg (by omega), zpow_neg, div_inv_eq_mul]
      rfl
    rw [scale]
    exact_mod_cast this

/-! ## The reference -/

/-- The reference that `fexp2` is held to. -/
def expRef (x : Int) : Machine.Dyadic := ⟨exp2Frac (x % 2 ^ 128).toNat, x / 2 ^ 128 - 128⟩

theorem real_expRef (x : Int) : real (expRef x) = exp2Frac (x % 2 ^ 128).toNat * 2 ^ (x / 2 ^ 128 - 128) := by
  rw [expRef, real, Int.cast_natCast]

/-- The reference is below 2 to the power of the source, and near it. -/
theorem expRef_between {x : Int} {a : ℝ} (lower : (x : ℝ) ≤ a * 2 ^ 128) (upper : a * 2 ^ 128 < x + 1) :
    real (expRef x) ≤ 2 ^ a ∧ 2 ^ a ≤ real (expRef x) + 2 ^ 11 * 2 ^ (x / 2 ^ 128 - 128) ∧ (2 : ℝ) ^ (x / 2 ^ 128) ≤ 2 ^ a := by
  set p := x / 2 ^ 128 with hp
  set f := (x % 2 ^ 128).toNat with hf
  have small : f < 2 ^ 128 := by omega
  have parts : x = p * 2 ^ 128 + f := by omega
  obtain ⟨flo, fhi⟩ := exp2Frac_between small
  have unit : (0 : ℝ) < 2 ^ (p - 128) := by positivity
  have place : (2 : ℝ) ^ p = 2 ^ 128 * 2 ^ (p - 128) := by
    rw [show (2 : ℝ) ^ 128 = 2 ^ (128 : Int) by norm_num, ← zpow_add₀ (by norm_num)]
    congr 1
    ring
  have power : (2 : ℝ) ^ ((x : ℝ) / 2 ^ 128) = 2 ^ p * (2 : ℝ) ^ ((f : ℝ) / 2 ^ 128) := by
    rw [← Real.rpow_intCast, ← Real.rpow_add (by norm_num)]
    congr 1
    rw [parts, Int.cast_add, Int.cast_mul, Int.cast_natCast, Int.cast_pow, Int.cast_ofNat, add_div, mul_div_assoc,
      div_self (by positivity), mul_one]
  have up : (2 : ℝ) ^ ((x : ℝ) / 2 ^ 128) ≤ 2 ^ a :=
    Real.rpow_le_rpow_of_exponent_le (by norm_num) ((div_le_iff₀ (by positivity)).2 lower)
  have one : (1 : ℝ) ≤ (2 : ℝ) ^ ((f : ℝ) / 2 ^ 128) := Real.one_le_rpow (by norm_num) (by positivity)
  have step : (2 : ℝ) ^ a * (1 - 1 / 2 ^ 128) ≤ 2 ^ ((x : ℝ) / 2 ^ 128) := by
    have below : a + -(1 / 2 ^ 128) ≤ (x : ℝ) / 2 ^ 128 := by
      rw [le_div_iff₀ (by positivity), add_mul, neg_mul, one_div, inv_mul_cancel₀ (by positivity)]
      linarith
    have loss : 1 - 1 / 2 ^ 128 ≤ (2 : ℝ) ^ (-(1 / 2 ^ 128) : ℝ) := by
      have := Real.add_one_le_exp (Real.log 2 * -(1 / 2 ^ 128))
      have := log_two_lt_one
      have : (0 : ℝ) < 1 / 2 ^ 128 := by positivity
      rw [Real.rpow_def_of_pos (by norm_num)]
      nlinarith
    refine le_trans ?_ (Real.rpow_le_rpow_of_exponent_le (by norm_num) below)
    rw [Real.rpow_add (by norm_num)]
    exact mul_le_mul_of_nonneg_left loss (by positivity)
  have top : (2 : ℝ) ^ a ≤ 2 * 2 ^ p := by
    have : a ≤ (p + 1 : Int) := by
      have : x + 1 ≤ (p + 1) * 2 ^ 128 := by omega
      have : (x : ℝ) + 1 ≤ ((p + 1 : Int) : ℝ) * 2 ^ 128 := by exact_mod_cast this
      exact le_of_mul_le_mul_right (upper.le.trans this) (by positivity)
    refine (Real.rpow_le_rpow_of_exponent_le (by norm_num) this).trans_eq ?_
    rw [Real.rpow_intCast, zpow_add_one₀ (by norm_num), mul_comm]
  rw [power] at up step
  rw [real_expRef, ← hf, ← hp]
  refine ⟨?_, ?_, ?_⟩
  · calc (exp2Frac f : ℝ) * 2 ^ (p - 128) ≤ 2 ^ 128 * (2 : ℝ) ^ ((f : ℝ) / 2 ^ 128) * 2 ^ (p - 128) :=
          mul_le_mul_of_nonneg_right flo unit.le
      _ = 2 ^ p * (2 : ℝ) ^ ((f : ℝ) / 2 ^ 128) := by rw [place]; ring
      _ ≤ _ := up
  · have near : 2 ^ p * (2 : ℝ) ^ ((f : ℝ) / 2 ^ 128) ≤ exp2Frac f * 2 ^ (p - 128) + 2 ^ 10 * 2 ^ (p - 128) := by
      rw [place, ← add_mul, mul_right_comm]
      exact mul_le_mul_of_nonneg_right fhi unit.le
    have rest : (2 : ℝ) ^ a * (1 / 2 ^ 128) ≤ 2 * 2 ^ (p - 128) := by
      rw [mul_one_div, div_le_iff₀ (by positivity), mul_assoc, mul_comm (2 ^ (p - 128)), ← place]
      exact top
    generalize (2 : ℝ) ^ (p - 128) = w at *
    generalize (exp2Frac f : ℝ) * w = r at *
    linarith
  · exact (le_mul_of_one_le_right (by positivity) one).trans up

end Sys2Proof.Approx

/-! The bound of `fexp2` (R93; O32): the range of the format, and sources far below it. -/

namespace Sys2Proof.Approx
open Machine Rounding Patterns Arithmetic

/-! ## The range (R93, log 6) -/

theorem logb_one_sub_ge {x : ℝ} (h0 : 0 ≤ x) (h1 : x ≤ 1 / 2) : -(4 * x) ≤ Real.logb 2 (1 - x) := by
  have log2' := half_lt_log_two
  have pos : 0 < 1 - x := by linarith
  have := Real.one_sub_inv_le_log_of_pos pos
  have : -(2 * x) ≤ 1 - (1 - x)⁻¹ := by
    rw [← sub_nonneg]
    have : 1 - (1 - x)⁻¹ - -(2 * x) = x * (1 - 2 * x) / (1 - x) := by
      field_simp
      ring
    rw [this]
    exact div_nonneg (mul_nonneg h0 (by linarith)) pos.le
  rw [Real.logb, le_div_iff₀ (by linarith)]
  nlinarith

/-- The magnitude before that of the bias + 1. -/
theorem magnitude_before_limit {fmt : Nat} (hf : fmt < 3) : ∃ c, magnitude fmt (c + 1) = fmtBias fmt + 1 ∧
    magnitude fmt c ≤ fmtBias fmt + 1 - 4 / 2 ^ (fracBits fmt + 1) := by
  interval_cases fmt
  · exact ⟨134 * 2 ^ 23 - 1, by norm_num [magnitude, fracBits, fmtLow, fmtBias],
      by norm_num [magnitude, fracBits, fmtLow, fmtBias]⟩
  · exact ⟨19 * 2 ^ 10 - 1, by norm_num [magnitude, fracBits, fmtLow, fmtBias],
      by norm_num [magnitude, fracBits, fmtLow, fmtBias]⟩
  · exact ⟨134 * 2 ^ 7 - 1, by norm_num [magnitude, fracBits, fmtLow, fmtBias],
      by norm_num [magnitude, fracBits, fmtLow, fmtBias]⟩

/-- A source below the bias + 1 is below it by as much as the largest finite value needs. -/
theorem number_le_of_lt {fmt x m : Nat} {neg : Bool} {e : Int} (hf : fmt < 3) (h : Holds fmt x neg m e)
    (ha : (FVal.fin neg m e).number < fmtBias fmt + 1) :
    (FVal.fin neg m e).number ≤ fmtBias fmt + 1 - 4 / 2 ^ (fracBits fmt + 1) := by
  obtain ⟨c, limit, before⟩ := magnitude_before_limit hf
  rw [h.number] at ha ⊢
  have nonneg := magnitude_nonneg fmt (codeIn fmt x)
  refine le_trans ?_ before
  cases neg with
  | true => exact (neg_nonpos.2 nonneg).trans (magnitude_nonneg fmt c)
  | false =>
    have : codeIn fmt x < c + 1 := (magnitude_strictMono fmt).lt_iff_lt.1 (ha.trans_eq limit.symm)
    exact (magnitude_strictMono fmt).monotone (Nat.lt_succ_iff.1 this)

theorem largest_eq {fmt : Nat} (hf : fmt < 3) :
    ((magnitude fmt (infBits fmt - 1) : Rat) : ℝ) = 2 ^ (fmtBias fmt + 1) * (1 - 1 / 2 ^ (fracBits fmt + 1)) := by
  have : magnitude fmt (infBits fmt - 1) = 2 ^ (fmtBias fmt + 1) * (1 - 1 / 2 ^ (fracBits fmt + 1)) := by
    interval_cases fmt <;> norm_num [magnitude, infBits, fmtBias, fracBits, expBits, fmtLow]
  rw [this]
  push_cast
  rfl

/-- Within the format, 2 to the power of a source is finite. -/
theorem rpow_le_largest {fmt x m : Nat} {neg : Bool} {e : Int} (hf : fmt < 3) (h : Holds fmt x neg m e)
    (ha : (FVal.fin neg m e).number < fmtBias fmt + 1) :
    (2 : ℝ) ^ ((FVal.fin neg m e).number : ℝ) ≤ (magnitude fmt (infBits fmt - 1) : Rat) := by
  have bound : (((FVal.fin neg m e).number : Rat) : ℝ) ≤ ((fmtBias fmt + 1 - 4 / 2 ^ (fracBits fmt + 1) : Rat) : ℝ) :=
    Rat.cast_le.2 (number_le_of_lt hf h ha)
  push_cast at bound
  have half : (1 : ℝ) / 2 ^ (fracBits fmt + 1) ≤ 1 / 2 := by
    refine one_div_le_one_div_of_le (by norm_num) ?_
    exact le_self_pow₀ (by norm_num) (Nat.succ_ne_zero _)
  have small : (0 : ℝ) < 1 - 1 / 2 ^ (fracBits fmt + 1) := by linarith
  have last := logb_one_sub_ge (x := 1 / 2 ^ (fracBits fmt + 1)) (by positivity) half
  rw [largest_eq hf, ← Real.le_logb_iff_rpow_le (by norm_num) (by positivity), Real.logb_mul (by positivity) small.ne',
    Real.logb_pow, Real.logb_self_eq_one (by norm_num)]
  push_cast
  rw [mul_one_div] at last
  linarith

/-! ## Sources far below the format -/

/-- A finite value is a whole number of the least place. -/
theorem number_eq_low {fmt x m : Nat} {neg : Bool} {e : Int} (h : Holds fmt x neg m e) :
    ∃ j : Int, ((FVal.fin neg m e).number : ℝ) = j * 2 ^ fmtLow fmt := by
  have place := number_eq_mul h.fits.place neg m
  refine ⟨(m : Int) * 2 ^ (e - fmtLow fmt).toNat * (if neg then -1 else 1), ?_⟩
  rw [place, Rat.cast_mul, Rat.cast_intCast, Rat.cast_zpow, Rat.cast_ofNat]

/-- A reference and an exact value that are both far below the least place. -/
theorem approxBits_tiny {opcode fmt src k : Nat} {v slack : Machine.Dyadic} {x : ℝ} (hf : fmt < 3) (hk : 1 ≤ k) (hv : 0 < real v)
    (hv' : real v ≤ 2 ^ fmtLow fmt / 8) (hx : 0 < x) (hx' : x ≤ 2 ^ fmtLow fmt / 8) (hs : 0 ≤ real slack) :
    WithinUlps fmt (approxBits opcode fmt src v (ulps fmt k v) slack) k x := by
  have unit : (0 : ℝ) < 2 ^ fmtLow fmt := by positivity
  have one : (1 : ℝ) ≤ k := by exact_mod_cast hk
  have low {y : ℝ} (h0 : 0 < y) (h : y ≤ 2 ^ fmtLow fmt / 8) : placeOf fmt y = fmtLow fmt := by
    refine le_antisymm (placeOf_upper ?_ le_rfl) (low_le_placeOf fmt y)
    rw [abs_of_pos h0, add_assoc, zpow_add₀ (by norm_num)]
    have : (1 : ℝ) ≤ 2 ^ (1 + (fracBits fmt : Int)) := one_le_zpow₀ (by norm_num) (by omega)
    nlinarith
  rw [withinUlps_iff, low hx hx']
  obtain ⟨neg, m, e, hu, hw⟩ | hr := approxBits_cases opcode fmt src v (ulps fmt k v) slack
  · rw [real_ulps, low hv hv'] at hw
    refine ⟨neg, m, e, hu, ?_⟩
    obtain ⟨j, hj⟩ := number_eq_low (holds_of_unpack hf hu)
    rw [hj] at hw ⊢
    obtain ⟨h1, h2⟩ := abs_le.1 (show |(j : ℝ) * 2 ^ fmtLow fmt - real v| ≤ k * 2 ^ fmtLow fmt by linarith)
    have upper : j ≤ k := by
      have : (j : ℝ) * 2 ^ fmtLow fmt < (k + 1 : Int) * 2 ^ fmtLow fmt := by
        push_cast
        linarith
      have : (j : ℝ) < (k + 1 : Int) := lt_of_mul_lt_mul_right this unit.le
      have : j < k + 1 := by exact_mod_cast this
      omega
    have lower : -k + 1 ≤ j := by
      have : ((-k : Int) : ℝ) * 2 ^ fmtLow fmt < j * 2 ^ fmtLow fmt := by
        push_cast
        linarith
      have : ((-k : Int) : ℝ) < j := lt_of_mul_lt_mul_right this unit.le
      have : -(k : Int) < j := by exact_mod_cast this
      omega
    have upper' : (j : ℝ) ≤ k := by exact_mod_cast upper
    have lower' : -(k : ℝ) + 1 ≤ j := by exact_mod_cast lower
    exact abs_le.2 ⟨by nlinarith, by nlinarith⟩
  · have hmax : |real v| ≤ (magnitude fmt (infBits fmt - 1) : Rat) := by
      rw [abs_of_pos hv]
      refine le_trans ?_ (two_pow_bias_le hf)
      have : (2 : ℝ) ^ fmtLow fmt ≤ 2 ^ (0 : Int) := zpow_le_zpow_right₀ (by norm_num) (by interval_cases fmt <;> decide)
      have : (1 : ℝ) ≤ 2 ^ fmtBias fmt := one_le_pow₀ (by norm_num)
      rw [zpow_zero] at *
      linarith
    rw [hr]
    refine finiteWithin_mono (finiteWithin_roundDyadic hf v hmax) ?_
    rw [low hv hv']
    have : |real v - x| ≤ 2 ^ fmtLow fmt / 8 := abs_le.2 ⟨by linarith, by linarith⟩
    nlinarith

/-! ## `fexp2` -/

theorem exp2Bits_eq {fmt src m : Nat} {neg : Bool} {e : Int} (hu : unpack fmt src = .fin neg m e) (hm : m ≠ 0)
    (hx : fixed128 neg m e / 2 ^ 128 ≤ fmtBias fmt) : exp2Bits fmt src = approxBits 0x04C fmt src (expRef (fixed128 neg m e))
      (ulps fmt (if fmt = 0 then 2 else 1) (expRef (fixed128 neg m e))) ⟨2 ^ 20, fixed128 neg m e / 2 ^ 128 - 128⟩ := by
  rw [exp2Bits, hu]
  simp only [if_neg hm, if_neg (not_lt.2 hx)]
  rfl

/-- A source beyond 2^12, which the model cuts at -2000. -/
theorem exp2Bits_cut {fmt src m : Nat} {e : Int} (hf : fmt < 3) (hu : unpack fmt src = .fin true m e) (hm : m ≠ 0)
    (h : 12 < e + bitLength m) (hm24 : m < 2 ^ 24) :
    WithinUlps fmt (exp2Bits fmt src) (if fmt = 0 then 2 else 1) ((2 : ℝ) ^ ((FVal.fin true m e).number : ℝ)) := by
  have few : bitLength m ≤ 24 := bitLength_le hm24
  have cut : fixed128 true m e = -2000 * 2 ^ 128 := by
    rw [fixed128, if_pos (by omega), if_pos h]
    rfl
  have ref : real (expRef (fixed128 true m e)) = 2 ^ (-2000 : Int) := by
    have series : exp2Frac 0 = 2 ^ 128 := by decide +kernel
    rw [cut, real_expRef, show (-2000 * 2 ^ 128 % 2 ^ 128 : Int).toNat = 0 by norm_num, series,
      show (-2000 * 2 ^ 128 / 2 ^ 128 - 128 : Int) = -2000 - 128 by norm_num, zpow_sub₀ (by norm_num)]
    norm_num
    rw [← mul_div_assoc, mul_div_cancel_left₀ _ (by norm_num)]
  have low : (2 : ℝ) ^ (-2000 : Int) ≤ 2 ^ fmtLow fmt / 8 := by
    rw [show (8 : ℝ) = 2 ^ (3 : Int) by norm_num, ← zpow_sub₀ (by norm_num)]
    exact zpow_le_zpow_right₀ (by norm_num) (by interval_cases fmt <;> decide)
  rw [exp2Bits_eq hu hm (by rw [cut]; norm_num)]
  refine approxBits_tiny hf (by split <;> omega) (by rw [ref]; positivity) (by rw [ref]; exact low) (by positivity) (le_trans ?_ low)
    (by rw [real]; positivity)
  rw [← Real.rpow_intCast]
  refine Real.rpow_le_rpow_of_exponent_le (by norm_num) ?_
  have large := (zpow_le_zpow_right₀ (by norm_num : (1 : ℝ) ≤ 2) (show 11 ≤ e + (bitLength m - 1 : Nat) by omega)).trans
    (leading_bit hm e).1
  have value : ((FVal.fin true m e).number : ℝ) = -(m * 2 ^ e) := by
    simp [FVal.number]
  rw [value]
  norm_num at large ⊢
  linarith

/-- The device's bits against a reference that is near to the exact power. -/
theorem approxBits_below {opcode fmt src k : Nat} {v : Machine.Dyadic} {p : Int} {x : ℝ} (hf : fmt < 3) (hk : 1 ≤ k)
    (ref0 : 0 ≤ real v) (ref_le : real v ≤ x) (le_ref : x ≤ real v + 2 ^ 11 * 2 ^ (p - 128)) (place_le : (2 : ℝ) ^ p ≤ x)
    (finite : x ≤ (magnitude fmt (infBits fmt - 1) : Rat)) :
    WithinUlps fmt (approxBits opcode fmt src v (ulps fmt k v) ⟨2 ^ 20, p - 128⟩) k x := by
  have frac := fracBits_le hf
  have dist : |real v - x| ≤ 2 ^ 11 * 2 ^ (p - 128) := by
    rw [abs_of_nonpos (by linarith)]
    linarith
  refine approxBits_ulps hf hk ?_ (dist.trans ?_) (placeOf_mono fmt (abs_le_abs_of_nonneg ref0 ref_le)) (dist.trans ?_)
  · rw [abs_of_nonneg ref0]
    exact ref_le.trans finite
  · rw [real]
    push_cast
    exact mul_le_mul_of_nonneg_right (by norm_num) (by positivity)
  · have place : p - fracBits fmt ≤ placeOf fmt x := by
      refine placeOf_lower ((by positivity : (0 : ℝ) < 2 ^ p).trans_le place_le) ?_
      rwa [sub_add_cancel]
    have := zpow_le_zpow_right₀ (by norm_num : (1 : ℝ) ≤ 2) (show p - 128 + 12 ≤ placeOf fmt x by omega)
    rw [zpow_add₀ (by norm_num)] at this
    norm_num at this ⊢
    linarith

theorem real_expRef_nonneg (x : Int) : 0 ≤ real (expRef x) := by
  rw [real_expRef]
  positivity

/-- The model's 1. -/
theorem finiteWithin_one {fmt : Nat} (hf : fmt < 3) {b : ℝ} (hb : 0 ≤ b) : FiniteWithin fmt (roundTo fmt 0 false 1 0 false) 1 b := by
  have unpacked : unpack fmt (roundTo fmt 0 false 1 0 false) = .fin false (2 ^ fracBits fmt) (-fracBits fmt) := by
    interval_cases fmt <;> decide
  refine ⟨_, _, _, unpacked, ?_⟩
  rwa [number_pos_real, zpow_neg, zpow_natCast, Nat.cast_pow, Nat.cast_ofNat, mul_inv_cancel₀ (by positivity), sub_self, abs_zero]

/-- `fexp2` of a source whose result lies within the format. -/
theorem exp2Bits_within {fmt src m : Nat} {neg : Bool} {e : Int} (hf : fmt < 3) (hu : unpack fmt src = .fin neg m e)
    (ha : (FVal.fin neg m e).number < fmtBias fmt + 1) :
    WithinUlps fmt (exp2Bits fmt src) (if fmt = 0 then 2 else 1) ((2 : ℝ) ^ ((FVal.fin neg m e).number : ℝ)) := by
  have holds := holds_of_unpack hf hu
  have frac := fracBits_le hf
  have hm24 : m < 2 ^ 24 := holds.upper.trans_le (Nat.pow_le_pow_right (by omega) (by omega))
  have below : ((FVal.fin neg m e).number : ℝ) < fmtBias fmt + 1 := by
    have := (Rat.cast_lt (K := ℝ)).2 ha
    push_cast at this
    exact this
  by_cases hm : m = 0
  · have one : exp2Bits fmt src = roundTo fmt 0 false 1 0 false := by simp [exp2Bits, hu, hm]
    have zero : (FVal.fin neg m e).number = 0 := by simp [FVal.number, hm]
    rw [one, zero, Rat.cast_zero, Real.rpow_zero]
    exact finiteWithin_one hf (by positivity)
  by_cases hcut : 12 < e + bitLength m
  · cases neg with
    | true => exact exp2Bits_cut hf hu hm hcut hm24
    | false =>
      have large := (zpow_le_zpow_right₀ (by norm_num : (1 : ℝ) ≤ 2) (show 11 ≤ e + (bitLength m - 1 : Nat) by omega)).trans
        (leading_bit hm e).1
      have bias : (fmtBias fmt : ℝ) ≤ 127 := by exact_mod_cast (show fmtBias fmt ≤ 127 by interval_cases fmt <;> decide)
      rw [number_pos_real] at below
      norm_num at large
      linarith
  obtain ⟨lower, upper⟩ := fixed128_between neg (not_lt.1 hcut)
  have limit : fixed128 neg m e / 2 ^ 128 ≤ fmtBias fmt := by
    have : (fixed128 neg m e : ℝ) < ((fmtBias fmt + 1 : Int) : ℝ) * 2 ^ 128 := by
      push_cast
      exact lower.trans_lt (mul_lt_mul_of_pos_right below (by positivity))
    have : fixed128 neg m e < (fmtBias fmt + 1) * 2 ^ 128 := by exact_mod_cast this
    omega
  rw [exp2Bits_eq hu hm limit]
  obtain ⟨ref_le, le_ref, place_le⟩ := expRef_between lower upper
  refine approxBits_below hf (by split <;> omega) ?_ ref_le le_ref place_le (rpow_le_largest hf holds ha)
  exact real_expRef_nonneg _

end Sys2Proof.Approx

/-! The bound of `fsin` and `fcos` (R93; O32): the series of `sin160` and `cos160`. -/

namespace Sys2Proof.Approx
open Machine Rounding Patterns Arithmetic

/-! ## The series without cuts -/

/-- The terms that `trigSeries` cuts to integers, `w` the square of the angle. -/
noncomputable def trigSum (w : ℝ) : Nat → Nat → ℝ → ℝ
  | 0, _, _ => 0
  | n + 1, i, t => t + trigSum w n (i + 2) (-(t * w / ((i + 1) * (i + 2) : Nat)))

/-- The sum is every other term of the exponential series, the signs in turn. -/
theorem trigSum_eq (z c : ℝ) (n i : Nat) : trigSum (z ^ 2) n i (c * (z ^ i / i.factorial)) =
    c * ∑ j ∈ Finset.range n, (-1) ^ j * (z ^ (i + 2 * j) / (i + 2 * j).factorial) := by
  induction n generalizing i c with
  | zero => simp [trigSum]
  | succ n ih =>
    have next : -(c * (z ^ i / i.factorial) * z ^ 2 / ((i + 1) * (i + 2) : Nat)) = -c * (z ^ (i + 2) / (i + 2).factorial) := by
      rw [Nat.factorial_succ, Nat.factorial_succ, pow_add]
      push_cast
      field_simp
      ring
    rw [trigSum, next, ih, Finset.sum_range_succ', neg_mul, ← mul_neg, ← Finset.sum_neg_distrib, mul_zero, add_zero, pow_zero, one_mul,
      ← mul_add, add_comm]
    congr 2
    refine Finset.sum_congr rfl fun j _ => ?_
    rw [show i + 2 + 2 * j = i + 2 * (j + 1) by ring, pow_succ]
    ring

/-- The cosine and the sine series, up to the terms of `n`. -/
theorem sum_exp_mul_I (z : ℝ) (n : Nat) : ∑ j ∈ Finset.range (2 * n), ((z : ℂ) * Complex.I) ^ j / j.factorial =
    ((∑ j ∈ Finset.range n, (-1) ^ j * (z ^ (2 * j) / (2 * j).factorial) : ℝ) : ℂ) +
      ((∑ j ∈ Finset.range n, (-1) ^ j * (z ^ (1 + 2 * j) / (1 + 2 * j).factorial) : ℝ) : ℂ) * Complex.I := by
  induction n with
  | zero => simp
  | succ n ih =>
    have even : ((z : ℂ) * Complex.I) ^ (2 * n) = (-1) ^ n * (z : ℂ) ^ (2 * n) := by
      rw [mul_pow, pow_mul Complex.I, Complex.I_sq, mul_comm]
    rw [show 2 * (n + 1) = 2 * n + 1 + 1 by ring, Finset.sum_range_succ, Finset.sum_range_succ, ih, Finset.sum_range_succ,
      Finset.sum_range_succ, pow_succ _ (2 * n), even, add_comm 1 (2 * n)]
    push_cast
    ring

/-- Forty terms give the cosine and the sine of an angle up to 4 within 2^-160. -/
theorem trig_series_near {z : ℝ} (hz : |z| ≤ 4) :
    |∑ j ∈ Finset.range 40, (-1) ^ j * (z ^ (2 * j) / (2 * j).factorial) - Real.cos z| ≤ 1 / 2 ^ 160 ∧
      |∑ j ∈ Finset.range 40, (-1) ^ j * (z ^ (1 + 2 * j) / (1 + 2 * j).factorial) - Real.sin z| ≤ 1 / 2 ^ 160 := by
  have norm : ‖(z : ℂ) * Complex.I‖ = |z| := by simp
  have tail := Complex.exp_bound' (x := (z : ℂ) * Complex.I) (n := 2 * 40) (by
    rw [norm, div_le_iff₀ (by positivity)]
    exact hz.trans (by norm_num))
  rw [norm, sum_exp_mul_I, Complex.exp_mul_I, ← Complex.ofReal_cos, ← Complex.ofReal_sin] at tail
  have small : |z| ^ (2 * 40) / (2 * 40).factorial * 2 ≤ 1 / 2 ^ 160 := by
    have : |z| ^ (2 * 40) ≤ 4 ^ (2 * 40) := pow_le_pow_left₀ (abs_nonneg z) hz _
    refine (mul_le_mul_of_nonneg_right (div_le_div_of_nonneg_right this (by positivity)) (by norm_num)).trans ?_
    norm_num [Nat.factorial]
  replace tail := tail.trans small
  generalize ∑ j ∈ Finset.range 40, (-1) ^ j * (z ^ (2 * j) / (2 * j).factorial) = c at *
  generalize ∑ j ∈ Finset.range 40, (-1) ^ j * (z ^ (1 + 2 * j) / (1 + 2 * j).factorial) = s at *
  have re := (Complex.abs_re_le_norm _).trans tail
  have im := (Complex.abs_im_le_norm _).trans tail
  rw [abs_sub_comm, abs_sub_comm s]
  simp only [Complex.sub_re, Complex.add_re, Complex.mul_re, Complex.sub_im, Complex.add_im, Complex.mul_im, Complex.ofReal_re,
    Complex.ofReal_im, Complex.I_re, Complex.I_im] at re im
  ring_nf at re im ⊢
  exact ⟨re, im⟩

/-! ## The cuts -/

/-- What one term of the series loses by its cuts, and what it takes over. -/
theorem trigTerm_near {x2 d : Nat} {w t : ℝ} {term : Int} (hd : 0 < d) (lower : (x2 : ℝ) / 2 ^ 160 ≤ w)
    (upper : w ≤ (x2 : ℝ) / 2 ^ 160 + 1 / 2 ^ 160) (hw : w ≤ 10) :
    |((-(term * x2 / 2 ^ 160 / (d : Int)) : Int) : ℝ) - -(t * w / d)| ≤ 2 + (10 * |(term : ℝ) - t| + |t| / 2 ^ 160) / d := by
  have d1 : (1 : ℝ) ≤ d := by exact_mod_cast hd
  have d0 : (0 : ℝ) < d := by linarith
  obtain ⟨lo1, up1⟩ := intDiv_between (term * x2) (Nat.two_pow_pos 160)
  obtain ⟨lo2, up2⟩ := intDiv_between (term * x2 / (2 ^ 160 : Nat)) hd
  rw [show (((2 : Nat) ^ 160 : Nat) : Int) = 2 ^ 160 by norm_num] at *
  generalize term * x2 / 2 ^ 160 / (d : Int) = q at *
  generalize term * x2 / 2 ^ 160 = p at *
  set v := (x2 : ℝ) / 2 ^ 160 with hv
  have v0 : 0 ≤ v := by positivity
  have scaled : ((term * x2 : Int) : ℝ) / (2 ^ 160 : Nat) = term * v := by
    rw [hv]
    push_cast
    ring
  rw [scaled] at lo1 up1
  have cut : |(term : ℝ) * v / d - q| ≤ 2 := by
    have : (term : ℝ) * v / d < p / d + 1 := by
      rw [div_add' _ _ _ d0.ne', div_lt_div_iff_of_pos_right d0]
      linarith
    have := div_le_div_of_nonneg_right lo1 d0.le
    exact abs_le.2 ⟨by linarith, by linarith⟩
  have carried : |(term : ℝ) * v / d - t * w / d| ≤ (10 * |(term : ℝ) - t| + |t| / 2 ^ 160) / d := by
    rw [← sub_div, abs_div, abs_of_pos d0, div_le_div_iff_of_pos_right d0,
      show (term : ℝ) * v - t * w = (term - t) * v + t * (v - w) by ring]
    refine (abs_add_le _ _).trans ?_
    rw [abs_mul, abs_mul, abs_of_nonneg v0]
    have near : |v - w| ≤ 1 / 2 ^ 160 := abs_le.2 ⟨by linarith, by linarith⟩
    have := mul_le_mul_of_nonneg_left (lower.trans hw) (abs_nonneg ((term : ℝ) - t))
    have := mul_le_mul_of_nonneg_left near (abs_nonneg t)
    rw [mul_one_div] at this
    linarith
  rw [show ((-q : Int) : ℝ) - -(t * w / d) = ((term : ℝ) * v / d - q) - (term * v / d - t * w / d) by push_cast; ring]
  exact (abs_sub _ _).trans (add_le_add cut carried)

/-- From the second term on no term is off by more than 20. -/
theorem trigSeries_near {x2 : Nat} {w : ℝ} (lower : (x2 : ℝ) / 2 ^ 160 ≤ w) (upper : w ≤ (x2 : ℝ) / 2 ^ 160 + 1 / 2 ^ 160)
    (hw : w ≤ 10) (n : Nat) {i : Nat} {term : Int} {t : ℝ} (hi : 2 ≤ i) (near : |(term : ℝ) - t| ≤ 20) (small : |t| ≤ 8 * 2 ^ 160) :
    |(trigSeries x2 n i term : ℝ) - trigSum w n i t| ≤ 20 * n := by
  induction n generalizing i term t with
  | zero => simp [trigSeries, trigSum]
  | succ n ih =>
    have w0 : 0 ≤ w := (by positivity : (0 : ℝ) ≤ x2 / 2 ^ 160).trans lower
    have d12 : 12 ≤ (i + 1) * (i + 2) := Nat.mul_le_mul (show 3 ≤ i + 1 by omega) (show 4 ≤ i + 2 by omega)
    rw [trigSeries, trigSum]
    have step := trigTerm_near (term := term) (t := t) (show 0 < (i + 1) * (i + 2) by omega) lower upper hw
    generalize (i + 1) * (i + 2) = d at *
    have d12' : (12 : ℝ) ≤ d := by exact_mod_cast d12
    have d0 : (0 : ℝ) < d := by linarith
    have lost : (10 * |(term : ℝ) - t| + |t| / 2 ^ 160) / d ≤ 18 := by
      have : |t| / 2 ^ 160 ≤ 8 := (div_le_iff₀ (by positivity)).2 small
      rw [div_le_iff₀ d0]
      linarith
    have next := ih (show 2 ≤ i + 2 by omega) (step.trans (by linarith)) (by
      rw [abs_neg, abs_div, abs_mul, abs_of_nonneg w0, abs_of_pos d0, div_le_iff₀ d0]
      exact mul_le_mul small (by linarith) w0 (by positivity))
    generalize trigSum w n (i + 2) (-(t * w / (d : ℝ))) = sum at *
    generalize trigSeries x2 n (i + 2) (-(term * x2 / 2 ^ 160 / (d : Int))) = series at *
    push_cast
    rw [show (term : ℝ) + series - (t + sum) = (term - t) + (series - sum) by ring]
    refine (abs_add_le _ _).trans ?_
    linarith

/-- The same from the first term on, which is exact. -/
theorem trigSeries_first {x2 : Nat} {w : ℝ} (lower : (x2 : ℝ) / 2 ^ 160 ≤ w) (upper : w ≤ (x2 : ℝ) / 2 ^ 160 + 1 / 2 ^ 160)
    (hw : w ≤ 10) (n i : Nat) {term : Int} (small : |(term : ℝ)| * 10 ≤ 8 * 2 ^ 160 * ((i + 1) * (i + 2) : Nat)) :
    |(trigSeries x2 (n + 1) i term : ℝ) - trigSum w (n + 1) i term| ≤ 20 * n := by
  have w0 : 0 ≤ w := (by positivity : (0 : ℝ) ≤ x2 / 2 ^ 160).trans lower
  have d0 : (0 : ℝ) < ((i + 1) * (i + 2) : Nat) := by positivity
  have step := trigTerm_near (term := term) (t := term) (show 0 < (i + 1) * (i + 2) by positivity) lower upper hw
  rw [trigSeries, trigSum]
  generalize (i + 1) * (i + 2) = d at *
  have lost : (10 * |(term : ℝ) - term| + |(term : ℝ)| / 2 ^ 160) / d ≤ 18 := by
    rw [sub_self, abs_zero, mul_zero, zero_add, div_le_iff₀ d0, div_le_iff₀ (by positivity)]
    linarith
  have rest := trigSeries_near lower upper hw n (show 2 ≤ i + 2 by omega) (step.trans (by linarith)) (by
    rw [abs_neg, abs_div, abs_mul, abs_of_nonneg w0, abs_of_pos d0, div_le_iff₀ d0]
    exact (mul_le_mul_of_nonneg_left hw (abs_nonneg _)).trans small)
  push_cast at rest ⊢
  rwa [add_sub_add_left_eq_sub]

/-! ## `sin160` and `cos160` of their angle -/

/-- The angle in 160 fraction bits. -/
def angleOf (r : Int) : Int := r * twoPi160 / 2 ^ 160

/-- At most half a turn is below 3.15. -/
theorem abs_angleOf_le {r : Int} (hr : |r| ≤ 2 ^ 159) : |(angleOf r : ℝ)| ≤ 3.15 * 2 ^ 160 := by
  have h := abs_le.1 hr
  have : |angleOf r| ≤ 315 * 2 ^ 160 / 100 := by
    rw [angleOf, abs_le]
    norm_num [twoPi160] at h ⊢
    omega
  have : (|angleOf r| : ℝ) * 100 ≤ 315 * 2 ^ 160 := by exact_mod_cast (show |angleOf r| * 100 ≤ 315 * 2 ^ 160 by omega)
  norm_num at this ⊢
  linarith

/-- The square of the angle in 160 fraction bits. -/
theorem square_between (x : Int) : (((x * x / 2 ^ 160).toNat : ℝ)) / 2 ^ 160 ≤ ((x : ℝ) / 2 ^ 160) ^ 2 ∧
    ((x : ℝ) / 2 ^ 160) ^ 2 ≤ ((x * x / 2 ^ 160).toNat : ℝ) / 2 ^ 160 + 1 / 2 ^ 160 := by
  obtain ⟨lo, up⟩ := intDiv_between (x * x) (Nat.two_pow_pos 160)
  have cast : (((x * x / 2 ^ 160).toNat : Nat) : ℝ) = ((x * x / (2 ^ 160 : Nat) : Int) : ℝ) := by
    rw [← Int.cast_natCast, Int.toNat_of_nonneg (Int.ediv_nonneg (mul_self_nonneg x) (by norm_num))]
    norm_num
  have square : ((x : ℝ) / 2 ^ 160) ^ 2 = ((x * x : Int) : ℝ) / (2 ^ 160 : Nat) / 2 ^ 160 := by
    push_cast
    ring
  rw [cast, square, ← add_div]
  exact ⟨div_le_div_of_nonneg_right lo (by positivity), div_le_div_of_nonneg_right up.le (by positivity)⟩

theorem near_of_near {a s c : ℝ} (h : |a - 2 ^ 160 * s| ≤ 20 * ((39 : Nat) : ℝ)) (h' : |s - c| ≤ 1 / (2 : ℝ) ^ 160) :
    |a - 2 ^ 160 * c| ≤ 2 ^ 10 := by
  have one : |2 ^ 160 * s - 2 ^ 160 * c| ≤ 1 := by
    rw [← mul_sub, abs_mul, abs_of_pos (by positivity), mul_comm]
    exact (le_div_iff₀ (by positivity)).1 h'
  exact (abs_sub_le _ (2 ^ 160 * s) _).trans ((add_le_add h one).trans (by norm_num))

/-- The two series of an angle, 2^10 units of the last place at most from the functions. -/
theorem trigSeries_angle {x : Int} (hx : |(x : ℝ)| ≤ 3.15 * 2 ^ 160) :
    |(trigSeries (x * x / 2 ^ 160).toNat 40 0 (2 ^ 160) : ℝ) - 2 ^ 160 * Real.cos (x / 2 ^ 160)| ≤ 2 ^ 10 ∧
      |(trigSeries (x * x / 2 ^ 160).toNat 40 1 x : ℝ) - 2 ^ 160 * Real.sin (x / 2 ^ 160)| ≤ 2 ^ 10 := by
  obtain ⟨lower, upper⟩ := square_between x
  generalize (x * x / 2 ^ 160).toNat = x2 at *
  have angle : |(x : ℝ) / 2 ^ 160| ≤ 3.15 := by
    rw [abs_div, abs_of_pos (show (0 : ℝ) < 2 ^ 160 by positivity)]
    exact (div_le_iff₀ (by positivity)).2 hx
  have square : ((x : ℝ) / 2 ^ 160) ^ 2 ≤ 10 := by
    rw [← sq_abs]
    exact (pow_le_pow_left₀ (abs_nonneg _) angle 2).trans (by norm_num)
  have cos_near := trigSeries_first lower upper square 39 0 (term := 2 ^ 160) (by norm_num)
  have sin_near := trigSeries_first lower upper square 39 1 (term := x) (by
    norm_num at hx ⊢
    linarith)
  have cos_sum := trigSum_eq ((x : ℝ) / 2 ^ 160) (2 ^ 160) (39 + 1) 0
  have sin_sum := trigSum_eq ((x : ℝ) / 2 ^ 160) (2 ^ 160) (39 + 1) 1
  rw [pow_zero, Nat.factorial_zero, Nat.cast_one, div_one, mul_one] at cos_sum
  rw [pow_one, Nat.factorial_one, Nat.cast_one, div_one, mul_div_cancel₀ _ (by positivity)] at sin_sum
  obtain ⟨cos_tail, sin_tail⟩ := trig_series_near (angle.trans (by norm_num))
  rw [Int.cast_pow, Int.cast_ofNat, cos_sum] at cos_near
  rw [sin_sum] at sin_near
  simp only [zero_add] at cos_near
  exact ⟨near_of_near cos_near cos_tail, near_of_near sin_near sin_tail⟩

theorem cos160_near {r : Int} (hr : |r| ≤ 2 ^ 159) :
    |(cos160 r : ℝ) - 2 ^ 160 * Real.cos (angleOf r / 2 ^ 160)| ≤ 2 ^ 10 := (trigSeries_angle (abs_angleOf_le hr)).1

theorem sin160_near {r : Int} (hr : |r| ≤ 2 ^ 159) :
    |(sin160 r : ℝ) - 2 ^ 160 * Real.sin (angleOf r / 2 ^ 160)| ≤ 2 ^ 10 := (trigSeries_angle (abs_angleOf_le hr)).2

/-! ## The model's 2π -/

/-- At half a turn the sine series is small, so that 2^160 × π is near to half of `twoPi160`. -/
theorem twoPi160_near : |(twoPi160 : ℝ) / 2 ^ 160 - 2 * Real.pi| ≤ 2 ^ 13 / 2 ^ 160 := by
  have half : ((angleOf (2 ^ 159) : Int) : ℝ) = twoPi160 / 2 := by
    norm_num [angleOf, twoPi160]
  have value : |(sin160 (2 ^ 159) : ℝ)| ≤ 2 ^ 10 := by
    have : |sin160 (2 ^ 159)| ≤ 2 ^ 10 := by decide +kernel
    exact_mod_cast this
  have series := sin160_near (r := 2 ^ 159) (by norm_num)
  rw [half] at series
  set d := (twoPi160 : ℝ) / 2 / 2 ^ 160 - Real.pi with hd
  have whole : (twoPi160 : ℝ) / 2 ^ 160 - 2 * Real.pi = 2 * d := by
    rw [hd]
    ring
  have near_pi : |d| ≤ Real.pi / 2 := by
    have lower := Real.pi_gt_three
    have upper := Real.pi_lt_four
    have : (3 : ℝ) ≤ twoPi160 / 2 / 2 ^ 160 ∧ (twoPi160 : ℝ) / 2 / 2 ^ 160 ≤ 4 := by norm_num [twoPi160]
    exact abs_le.2 ⟨by linarith, by linarith⟩
  have small : |Real.sin d| ≤ 2 ^ 11 / 2 ^ 160 := by
    have angle : (twoPi160 : ℝ) / 2 / 2 ^ 160 = d + Real.pi := by rw [hd, sub_add_cancel]
    rw [angle, Real.sin_add_pi, abs_sub_comm] at series
    have : |2 ^ 160 * -Real.sin d| ≤ 2 ^ 11 := by
      have := (abs_sub_abs_le_abs_sub _ _).trans series
      linarith
    rw [abs_mul, abs_neg, abs_of_pos (by positivity), mul_comm] at this
    exact (le_div_iff₀ (by positivity)).2 this
  have slope : 1 / 2 * |d| ≤ |Real.sin d| := by
    refine le_trans (mul_le_mul_of_nonneg_right ?_ (abs_nonneg d)) (Real.mul_abs_le_abs_sin near_pi)
    rw [div_le_div_iff₀ (by norm_num) Real.pi_pos]
    linarith [Real.pi_lt_four]
  rw [whole, abs_mul, abs_of_pos two_pos]
  norm_num at small ⊢
  linarith

/-- The angle of r parts of a turn. -/
theorem angleOf_near {r : Int} (hr : |r| ≤ 2 ^ 159) : |(angleOf r : ℝ) / 2 ^ 160 - 2 * Real.pi * (r / 2 ^ 160)| ≤ 2 ^ 13 / 2 ^ 160 := by
  obtain ⟨lo, up⟩ := intDiv_between (r * twoPi160) (Nat.two_pow_pos 160)
  have turns : |(r : ℝ) / 2 ^ 160| ≤ 1 / 2 := by
    have : (|r| : ℝ) ≤ 2 ^ 159 := by exact_mod_cast hr
    rw [abs_div, abs_of_pos (show (0 : ℝ) < 2 ^ 160 by positivity), div_le_iff₀ (by positivity)]
    exact this.trans (by norm_num)
  have cut : |(angleOf r : ℝ) / 2 ^ 160 - twoPi160 / 2 ^ 160 * (r / 2 ^ 160)| ≤ 1 / 2 ^ 160 := by
    have product : (twoPi160 : ℝ) / 2 ^ 160 * (r / 2 ^ 160) = ((r * twoPi160 : Int) : ℝ) / (2 ^ 160 : Nat) / 2 ^ 160 := by
      push_cast
      ring
    have angle : (angleOf r : ℝ) = ((r * twoPi160 / (2 ^ 160 : Nat) : Int) : ℝ) := rfl
    rw [product, angle, ← sub_div, abs_div, abs_of_pos (show (0 : ℝ) < 2 ^ 160 by positivity), div_le_div_iff_of_pos_right (by positivity)]
    exact abs_le.2 ⟨by linarith, by linarith⟩
  have scaled : |(twoPi160 : ℝ) / 2 ^ 160 * (r / 2 ^ 160) - 2 * Real.pi * (r / 2 ^ 160)| ≤ 2 ^ 12 / 2 ^ 160 := by
    rw [← sub_mul, abs_mul]
    exact (mul_le_mul twoPi160_near turns (abs_nonneg _) (by positivity)).trans (by norm_num)
  exact (abs_sub_le _ _ _).trans ((add_le_add cut scaled).trans (by norm_num))

/-! ## The references -/

theorem ref_near {a s c : ℝ} (h : |a - 2 ^ 160 * s| ≤ 2 ^ 10) (h' : |s - c| ≤ 2 ^ 13 / (2 : ℝ) ^ 160) :
    |a * 2 ^ (-160 : Int) - c| ≤ 2 ^ 14 * 2 ^ (-160 : Int) := by
  have scaled : |a * 2 ^ (-160 : Int) - s| ≤ 2 ^ 10 / 2 ^ 160 := by
    rw [show a * 2 ^ (-160 : Int) - s = (a - 2 ^ 160 * s) / 2 ^ 160 by
      rw [sub_div, mul_div_cancel_left₀ _ (by positivity), zpow_neg, div_eq_mul_inv]
      norm_num, abs_div, abs_of_pos (show (0 : ℝ) < 2 ^ 160 by positivity), div_le_div_iff_of_pos_right (by positivity)]
    exact h
  exact (abs_sub_le _ s _).trans ((add_le_add scaled h').trans (by norm_num))

theorem real_cos160_near {r : Int} (hr : |r| ≤ 2 ^ 159) :
    |real ⟨cos160 r, -160⟩ - Real.cos (2 * Real.pi * (r / 2 ^ 160))| ≤ 2 ^ 14 * 2 ^ (-160 : Int) :=
  ref_near (cos160_near hr) ((Real.abs_cos_sub_cos_le _ _).trans (angleOf_near hr))

theorem real_sin160_near {r : Int} (hr : |r| ≤ 2 ^ 159) :
    |real ⟨sin160 r, -160⟩ - Real.sin (2 * Real.pi * (r / 2 ^ 160))| ≤ 2 ^ 14 * 2 ^ (-160 : Int) :=
  ref_near (sin160_near hr) ((Real.abs_sin_sub_sin_le _ _).trans (angleOf_near hr))

end Sys2Proof.Approx

/-! The approximating instructions meet their bounds (R93; O32). -/

namespace Sys2Proof.Approx
open Machine Rounding Patterns Arithmetic Integral Specials

/-! ## The reduction of the source -/

/-- To nearest, an integer is at most a half away. -/
theorem abs_sub_roundRat_le (q : Rat) : |q - roundRat 0 q| ≤ 1 / 2 := by
  have lower := Rat.floor_le q
  have upper := Rat.lt_floor_add_one q
  push_cast at upper
  rw [roundRat, abs_le]
  split_ifs with h1 h2
  all_goals
    push_cast
    constructor <;> linarith

theorem abs_turnsOf_le {neg : Bool} {m : Nat} {e : Int} (he : -149 ≤ e) : |turnsOf neg m e| ≤ 2 ^ 159 := by
  have scaled : |(turnsOf neg m e : Rat)| ≤ 1 / 2 * 2 ^ 160 := by
    rw [turnsOf_eq he, abs_mul, abs_of_pos (show (0 : Rat) < 2 ^ 160 by positivity)]
    exact mul_le_mul_of_nonneg_right (abs_sub_roundRat_le _) (by positivity)
  have : |(turnsOf neg m e : Rat)| ≤ 2 ^ 159 := scaled.trans (by norm_num)
  exact_mod_cast this

/-- The source is a whole number of turns and those that are left. -/
theorem number_eq_turns {neg : Bool} {m : Nat} {e : Int} (he : -149 ≤ e) : ∃ n : Int,
    2 * Real.pi * ((FVal.fin neg m e).number : ℝ) = 2 * Real.pi * ((turnsOf neg m e : ℝ) / 2 ^ 160) + n * (2 * Real.pi) := by
  refine ⟨roundRat 0 (FVal.fin neg m e).number, ?_⟩
  have turns : (turnsOf neg m e : ℝ) = (((FVal.fin neg m e).number : ℝ) - roundRat 0 (FVal.fin neg m e).number) * 2 ^ 160 := by
    have := congrArg (Rat.cast (K := ℝ)) (turnsOf_eq (neg := neg) (m := m) he)
    push_cast at this
    exact this
  rw [turns, mul_div_cancel_right₀ _ (by positivity)]
  ring

/-! ## `fsin` and `fcos` -/

/-- The absolute bound of `fsin` and `fcos`. -/
noncomputable def smallBound (fmt : Nat) : ℝ :=
  if fmt = 0 then 2 ^ (-22 : Int) else if fmt = 1 then 2 ^ (-10 : Int) else 2 ^ (-7 : Int)

theorem real_trigBound (fmt : Nat) : real (trigBound fmt) = smallBound fmt := by
  rw [real, trigBound, smallBound, Int.cast_one, one_mul]
  split_ifs <;> rfl

theorem smallBound_nonneg (fmt : Nat) : 0 ≤ smallBound fmt := by
  rw [smallBound]
  split_ifs <;> positivity

/-- Zero is a result where the function is 0. -/
theorem finiteWithin_zero {fmt : Nat} (hf : fmt < 3) (neg : Bool) : FiniteWithin fmt (signBit fmt neg) 0 (smallBound fmt) := by
  have : FiniteWithin fmt (signBit fmt neg + 0) 0 (smallBound fmt) := by
    refine finiteWithin_signBit hf neg (infBits_pos hf) ?_
    rw [magnitude_zero, signed, neg_zero, ite_self, Rat.cast_zero, sub_self, abs_zero]
    exact smallBound_nonneg fmt
  exact this

/-- The device's bits against a reference of a sine or a cosine. -/
theorem approxBits_trig {opcode fmt src : Nat} {v : Int} {x : ℝ} (hf : fmt < 3) (hx : |x| ≤ 1)
    (near : |real ⟨v, -160⟩ - x| ≤ 2 ^ 14 * 2 ^ (-160 : Int)) :
    FiniteWithin fmt (approxBits opcode fmt src ⟨v, -160⟩ (trigBound fmt) ⟨2 ^ 20, -160⟩) x (smallBound fmt) := by
  have size : |real ⟨v, -160⟩| < 2 := by
    have := (abs_sub_abs_le_abs_sub _ _).trans near
    norm_num at this ⊢
    linarith
  have place : placeOf fmt (real ⟨v, -160⟩) ≤ -fracBits fmt := by
    refine placeOf_upper (size.trans_eq ?_) (by interval_cases fmt <;> decide)
    norm_num
  have half := zpow_le_zpow_right₀ (by norm_num : (1 : ℝ) ≤ 2) place
  refine approxBits_absolute hf (size.le.trans ?_) (real_trigBound fmt) (near.trans ?_)
    ((add_le_add near (div_le_div_of_nonneg_right half (by norm_num))).trans ?_)
  · refine le_trans ?_ (two_pow_bias_le hf)
    exact le_self_pow₀ (by norm_num) (by interval_cases fmt <;> decide)
  · rw [real]
    push_cast
    exact mul_le_mul_of_nonneg_right (by norm_num) (by positivity)
  · interval_cases fmt <;> norm_num [smallBound, fracBits]

/-- `fsin` of 2 pi times the source. -/
theorem sinBits_within {fmt src m : Nat} {neg : Bool} {e : Int} (hf : fmt < 3) (hu : unpack fmt src = .fin neg m e) :
    FiniteWithin fmt (trigBits false fmt src) (Real.sin (2 * Real.pi * ((FVal.fin neg m e).number : ℝ))) (smallBound fmt) := by
  have he := (holds_of_unpack hf hu).low_le hf
  obtain ⟨n, turns⟩ := number_eq_turns (neg := neg) (m := m) he
  rw [turns, Real.sin_add_int_mul_two_pi, trigBits_fin hu]
  simp only [Bool.false_eq_true, if_false]
  split
  · next h =>
    rw [h, Int.cast_zero, zero_div, mul_zero, Real.sin_zero]
    exact finiteWithin_zero hf neg
  · exact approxBits_trig hf (Real.abs_sin_le_one _) (real_sin160_near (abs_turnsOf_le he))

/-- `fcos` of 2 pi times the source. -/
theorem cosBits_within {fmt src m : Nat} {neg : Bool} {e : Int} (hf : fmt < 3) (hu : unpack fmt src = .fin neg m e) :
    FiniteWithin fmt (trigBits true fmt src) (Real.cos (2 * Real.pi * ((FVal.fin neg m e).number : ℝ))) (smallBound fmt) := by
  have he := (holds_of_unpack hf hu).low_le hf
  obtain ⟨n, turns⟩ := number_eq_turns (neg := neg) (m := m) he
  rw [turns, Real.cos_add_int_mul_two_pi, trigBits_fin hu]
  simp only [if_true]
  split_ifs with quarter whole
  · have angle : 2 * Real.pi * (((2 ^ 158 : Int) : ℝ) / 2 ^ 160) = Real.pi / 2 := by
      push_cast
      ring
    rw [quarter, angle, Real.cos_pi_div_two]
    exact finiteWithin_zero hf false
  · rw [whole, Int.cast_zero, zero_div, mul_zero, Real.cos_zero]
    exact finiteWithin_one hf (smallBound_nonneg fmt)
  · exact approxBits_trig hf (Real.abs_cos_le_one _) (real_cos160_near (abs_turnsOf_le he))

/-- Settles O32: each reference is near the exact function, and the device's bits are used only where they meet the bound against it. -/
theorem approximationBounds : Obligations.ApproximationBounds := by
  unfold Obligations.ApproximationBounds
  intro fmt hf src _ neg m e hu a k small
  refine ⟨fun ha => rsqrtBits_within hf hu (Rat.cast_pos.1 ha), fun ha => exp2Bits_within hf hu ?_, fun ha => ?_,
    sinBits_within hf hu, cosBits_within hf hu⟩
  · have : (((FVal.fin neg m e).number : Rat) : ℝ) < ((fmtBias fmt + 1 : Rat) : ℝ) := by
      push_cast
      exact ha
    exact Rat.cast_lt.1 this
  · have within := log2Bits_within hf hu (Rat.cast_pos.1 ha)
    split
    · next near =>
      have bound : small = 2 ^ (-22 : Int) := if_pos near.1
      rw [bound]
      rwa [if_pos near] at within
    · next far => rwa [if_neg far] at within

end Sys2Proof.Approx
